-- ==== Sys2Proof/Word.lean ====
section
/-! DEFINITION. The byte and half-word types of the port's frames, the unit of time, and the index types. -/

namespace Sys2Proof

/-- One byte of a frame (R177). -/
abbrev Byte := BitVec 8

/-- A 16-bit number of a payload (R177). -/
abbrev Half := BitVec 16

/-- A moment or a duration in microseconds (log 7). -/
abbrev Time := Nat

/-- Motor channels M0..M7. -/
abbrev ChanId := Fin 8

/-- Rooms S0..S3 (0..3) and the awning (4), numbered as the targets of Section 12.2. -/
abbrev MoverId := Fin 5

/-- Jacks J0..J5. -/
abbrev JackId := Fin 6

end Sys2Proof
end

