-- ==== Sys2Proof/Syntax.lean ====
section
/-! DEFINITION. The commands of the block: one constructor per row of spec/opcode_table.json. -/

namespace Sys2Proof

/-- A direction of travel; for the jacks `outward` is EXTEND and `inward` is RETRACT (Section 12.6). -/
inductive Dir where
  | outward
  | inward
  deriving DecidableEq, Repr

/-- The opposite direction. -/
def Dir.flip : Dir → Dir
  | .outward => .inward
  | .inward => .outward

/-- The debounced coach inputs (Section 8.1). -/
inductive CoachInput where
  | ign
  | pbrk
  | park
  | eng
  | wake
  deriving DecidableEq, Repr

/-- The two limits of the Supply Monitor (R137). -/
inductive SupplySide where
  | low
  | high
  deriving DecidableEq, Repr

/-- One command: a request as the owning block receives it at line 7 of R178 (TAG first, then the payload fields of
Section 12.2 as raw numbers), or an event of the port, of the inputs, of the storage or of time (log 1, log 4). -/
inductive Instr where
  /- Requests of the port. -/
  | nop (tag : Byte)
  | ident (tag : Byte)
  | attention (tag : Byte)
  | posture (tag : Byte)
  | channel (tag : Byte) (index : Byte)
  | room (tag : Byte) (index : Byte)
  | jacks (tag : Byte)
  | levelStatus (tag : Byte)
  | wind (tag : Byte)
  | supply (tag : Byte)
  | queue (tag : Byte)
  | profileRead (tag : Byte) (ids : List Half)
  | move (tag : Byte) (target dir : Byte)
  | stop (tag : Byte) (target : Byte)
  | levelStart (tag : Byte) (mode : Byte)
  | levelCancel (tag : Byte)
  | jackMove (tag : Byte) (mask dir : Byte)
  | jacksStow (tag : Byte)
  | faultClear (tag : Byte) (target : Byte)
  | fenceSet (tag : Byte) (chanMask jackMask : Byte)
  | fenceClear (tag : Byte) (chanMask jackMask : Byte)
  | inhibitSet (tag : Byte) (mask : Half)
  | inhibitClear (tag : Byte) (mask : Half)
  | attentionClear (tag : Byte) (mask : Half)
  | reportEnable (tag : Byte) (mask : Half)
  | reportDisable (tag : Byte) (mask : Half)
  | serviceEnter (tag : Byte)
  | serviceLeave (tag : Byte)
  | learnStroke (tag : Byte) (target method : Byte)
  | strokeSet (tag : Byte) (index : Byte) (counts : Half)
  | tiltZeroLearn (tag : Byte)
  | profileWrite (tag : Byte) (pairs : List (Half × Half))
  | profileCommit (tag : Byte)
  | sleep (tag : Byte)
  | restart (tag : Byte)
  /- The select line. -/
  | selectAsserted
  | selectionEnd (rx : List Byte)
  /- Reset and start-up. -/
  | powerOnReset
  | resetPinAsserted
  | resetPinReleased
  | startupLoadComplete
  | startupComplete
  | panelSwitchSettled (pair : MoverId) (side : Dir) (pressed : Bool)
  | coachInputSettled (input : CoachInput) (level : Bool)
  /- Power. -/
  | standbyEntry
  | dormantWake (sel ign pbrk wake : Bool) (panel : BitVec 10)
  /- Motor channels. -/
  | hallCount (ch : ChanId) (elapsed : Nat)
  | dutyUpdate (ch : ChanId)
  | stallJudgement (ch : ChanId) (current : Nat)
  | overcurrentLock (ch : ChanId) (current : Nat)
  | overspeedLock (ch : ChanId) (elapsed : Nat)
  | retryWaitExpiry (ch : ChanId)
  | stoppingEnd (ch : ChanId)
  /- Store. -/
  | checkpointWritten (ch : ChanId)
  | learnedWritten
  | commitComplete (failed : BitVec 6)
  /- Rooms, awning, panel. -/
  | roomLeaseExpiry (m : MoverId)
  | holdOffExpiry (m : MoverId)
  | pendingReversalExpiry (m : MoverId)
  | roomDwellEnd (room : Fin 4)
  | panelPress (room : Fin 4) (side : Dir)
  | panelRelease (room : Fin 4) (side : Dir)
  | awningPanelPress (side : Dir)
  | awningPanelRelease (side : Dir)
  | awningDwellEnd
  | windGate (count : Nat)
  | lockoutExpiry
  /- Hydraulics. -/
  | pumpDwellEnd
  | pumpRestEnd
  | pumpOverrun
  | groundedFlagChange (jack : JackId) (level : Bool)
  | jackScanSettleTimeout (jack : JackId) (level : Bool)
  | strokeSample (jack : JackId) (raw : BitVec 12)
  | strokeSensorFault (jack : JackId) (raw : BitVec 12)
  | retractedIndicatorSet (jack : JackId) (raw : BitVec 12)
  | stowTimeout
  | manualLeaseExpiry
  /- Tilt and levelling: the operands are the two block sums of the filtered sample. -/
  | filteredSample (sx sy : BitVec 15)
  | tiltFaultSet (sx sy : BitVec 15)
  | tiltFaultClear (sx sy : BitVec 15)
  | zeroLearnComplete (sx sy : BitVec 15)
  | touchdownDeadline
  | levellingDeadline
  | stabilizeDeadline
  | settleTimeEnd
  | levelLost (sx sy : BitVec 15)
  /- Supply and budget. -/
  | supplyFlagSet (side : SupplySide) (voltage : Nat)
  | supplyFlagClear (side : SupplySide) (voltage : Nat)
  | busOvercurrentTrip (sum : Nat)
  | busDetectorRearm (sum : Nat)
  | queueMaxWait (target : Fin 6)
  /- Readiness. -/
  | coachInputChange (input : CoachInput) (level : Bool)
  | speedGate (count : Nat)
  | alertSlowToggle
  deriving DecidableEq, Repr

end Sys2Proof
end

