-- ==== Sys2Proof/WellFormed.lean ====
section
/-! DEFINITION. Which commands the outside can send: the ranges of the operands that a type does not already bound. -/

namespace Sys2Proof

/-- The largest block sum, eight 12-bit samples (R86). -/
def maxBlockSum : Nat := 32760

/-- A pair of block sums is in range. -/
def sumsOk (sx sy : BitVec 15) : Bool := sx.toNat ≤ maxBlockSum && sy.toNat ≤ maxBlockSum

/-- The ranges of the operands: list lengths of Section 12.2, units of Section 1.6.1, R86, R131, R136, R140, R153, R172. -/
def Instr.wf : Instr → Bool
  | .profileRead _ ids => 1 ≤ ids.length && ids.length ≤ 12
  | .profileWrite _ ps => 1 ≤ ps.length && ps.length ≤ 10
  | .dormantWake sel ign pbrk wake panel => sel || ign || pbrk || wake || panel != 0
  | .stallJudgement _ c => c ≤ 1000
  | .overcurrentLock _ c => c ≤ 1000
  | .windGate n => n ≤ 65535
  | .speedGate n => n ≤ 65535
  | .filteredSample sx sy => sumsOk sx sy
  | .tiltFaultSet sx sy => sumsOk sx sy
  | .tiltFaultClear sx sy => sumsOk sx sy
  | .zeroLearnComplete sx sy => sumsOk sx sy
  | .levelLost sx sy => sumsOk sx sy
  | .supplyFlagSet _ v => v ≤ 2000
  | .supplyFlagClear _ v => v ≤ 2000
  | .busOvercurrentTrip n => n ≤ 9000
  | .busDetectorRearm n => n ≤ 9000
  | _ => true

end Sys2Proof
end

