-- ==== Sys2Proof/Decode.lean ====
section
/-! DEFINITION. Decoding: the table's words (no row has bits), and the request payloads of Section 12.2 by which a frame
spells a command, with their encoder. -/

namespace Sys2Proof

/-- The command a word spells by the table's bits: the table gives no row any bits, so no word spells one (log 32). -/
def decodeTableWord (_nbits _w : Nat) : Option Instr := none

/-- A 16-bit number from its two bytes, low byte first (R177). -/
def half (lo hi : Byte) : Half := hi ++ lo

/-- The low and the high byte of a 16-bit number, in that order (R177). -/
def halfBytes (h : Half) : List Byte := [h.setWidth 8, (h >>> 8).setWidth 8]

/-- Field ids of PROFILE_READ: pairs of bytes. -/
def decodeIds : List Byte → Option (List Half)
  | [] => some []
  | lo :: hi :: rest => (decodeIds rest).map (half lo hi :: ·)
  | [_] => none

/-- Field id and value pairs of PROFILE_WRITE: groups of four bytes. -/
def decodePairs : List Byte → Option (List (Half × Half))
  | [] => some []
  | a :: b :: c :: d :: rest => (decodePairs rest).map ((half a b, half c d) :: ·)
  | _ => none

/-- Lines 5 to 7 of R178 for one frame. -/
inductive RequestDecode where
  | unknownKind
  | badLength
  | request (i : Instr)
  deriving DecidableEq, Repr

/-- A request of LENGTH 0. -/
def fixed0 (p : List Byte) (i : Instr) : RequestDecode :=
  match p with
  | [] => .request i
  | _ => .badLength

/-- A request of LENGTH 1. -/
def fixed1 (p : List Byte) (f : Byte → Instr) : RequestDecode :=
  match p with
  | [a] => .request (f a)
  | _ => .badLength

/-- A request of LENGTH 2 that carries two bytes. -/
def fixed2 (p : List Byte) (f : Byte → Byte → Instr) : RequestDecode :=
  match p with
  | [a, b] => .request (f a b)
  | _ => .badLength

/-- The request kinds and payloads of Section 12.2: lines 5, 6 and 7 of R178. -/
def decodeRequest (kind tag : Byte) (p : List Byte) : RequestDecode :=
  match kind.toNat with
  | 0x01 => fixed0 p (.nop tag)
  | 0x02 => fixed0 p (.ident tag)
  | 0x03 => fixed0 p (.attention tag)
  | 0x04 => fixed0 p (.posture tag)
  | 0x05 => fixed1 p (.channel tag)
  | 0x06 => fixed1 p (.room tag)
  | 0x07 => fixed0 p (.jacks tag)
  | 0x08 => fixed0 p (.levelStatus tag)
  | 0x09 => fixed0 p (.wind tag)
  | 0x0A => fixed0 p (.supply tag)
  | 0x0B => fixed0 p (.queue tag)
  | 0x0C =>
    match decodeIds p with
    | some ids => if 1 ≤ ids.length ∧ ids.length ≤ 12 then .request (.profileRead tag ids) else .badLength
    | none => .badLength
  | 0x10 => fixed2 p (.move tag)
  | 0x11 => fixed1 p (.stop tag)
  | 0x14 => fixed1 p (.levelStart tag)
  | 0x15 => fixed0 p (.levelCancel tag)
  | 0x16 => fixed2 p (.jackMove tag)
  | 0x17 => fixed0 p (.jacksStow tag)
  | 0x18 => fixed1 p (.faultClear tag)
  | 0x19 => fixed2 p (.fenceSet tag)
  | 0x1A => fixed2 p (.fenceClear tag)
  | 0x1C => fixed2 p (fun a b => .inhibitSet tag (half a b))
  | 0x1D => fixed2 p (fun a b => .inhibitClear tag (half a b))
  | 0x1E => fixed2 p (fun a b => .attentionClear tag (half a b))
  | 0x1F => fixed2 p (fun a b => .reportEnable tag (half a b))
  | 0x20 => fixed2 p (fun a b => .reportDisable tag (half a b))
  | 0x28 => fixed0 p (.serviceEnter tag)
  | 0x29 => fixed0 p (.serviceLeave tag)
  | 0x2A => fixed2 p (.learnStroke tag)
  | 0x2B =>
    match p with
    | [c, a, b] => .request (.strokeSet tag c (half a b))
    | _ => .badLength
  | 0x2C => fixed0 p (.tiltZeroLearn tag)
  | 0x2D =>
    match decodePairs p with
    | some ps => if 1 ≤ ps.length ∧ ps.length ≤ 10 then .request (.profileWrite tag ps) else .badLength
    | none => .badLength
  | 0x2E => fixed0 p (.profileCommit tag)
  | 0x30 => fixed0 p (.sleep tag)
  | 0x31 => fixed0 p (.restart tag)
  | _ => .unknownKind

/-- The kind, TAG and payload by which a frame carries a request (Section 12.2); the other commands have no frame. -/
def encodeRequest : Instr → Option (Byte × Byte × List Byte)
  | .nop t => some (0x01, t, [])
  | .ident t => some (0x02, t, [])
  | .attention t => some (0x03, t, [])
  | .posture t => some (0x04, t, [])
  | .channel t n => some (0x05, t, [n])
  | .room t n => some (0x06, t, [n])
  | .jacks t => some (0x07, t, [])
  | .levelStatus t => some (0x08, t, [])
  | .wind t => some (0x09, t, [])
  | .supply t => some (0x0A, t, [])
  | .queue t => some (0x0B, t, [])
  | .profileRead t ids => some (0x0C, t, ids.flatMap halfBytes)
  | .move t a d => some (0x10, t, [a, d])
  | .stop t a => some (0x11, t, [a])
  | .levelStart t m => some (0x14, t, [m])
  | .levelCancel t => some (0x15, t, [])
  | .jackMove t m d => some (0x16, t, [m, d])
  | .jacksStow t => some (0x17, t, [])
  | .faultClear t a => some (0x18, t, [a])
  | .fenceSet t c j => some (0x19, t, [c, j])
  | .fenceClear t c j => some (0x1A, t, [c, j])
  | .inhibitSet t m => some (0x1C, t, halfBytes m)
  | .inhibitClear t m => some (0x1D, t, halfBytes m)
  | .attentionClear t m => some (0x1E, t, halfBytes m)
  | .reportEnable t m => some (0x1F, t, halfBytes m)
  | .reportDisable t m => some (0x20, t, halfBytes m)
  | .serviceEnter t => some (0x28, t, [])
  | .serviceLeave t => some (0x29, t, [])
  | .learnStroke t a m => some (0x2A, t, [a, m])
  | .strokeSet t c n => some (0x2B, t, c :: halfBytes n)
  | .tiltZeroLearn t => some (0x2C, t, [])
  | .profileWrite t ps => some (0x2D, t, ps.flatMap (fun x => halfBytes x.1 ++ halfBytes x.2))
  | .profileCommit t => some (0x2E, t, [])
  | .sleep t => some (0x30, t, [])
  | .restart t => some (0x31, t, [])
  | _ => none

end Sys2Proof
end

