-- ==== Sys2Proof/Config.lean ====
section
/-! DEFINITION. What the part fixes (durations and counts that no profile field sets) and the free values. -/

namespace Sys2Proof.Config

/-- Milliseconds as a `Time`. -/
def ms (n : Nat) : Time := 1000 * n

/-- Seconds as a `Time`. -/
def sec (n : Nat) : Time := 1000000 * n

/-- The part's finest sampling period (R11), one step on an empty queue (log 3). -/
def tick : Time := 125

/-- The reversal dwell (R37) and the dwell before a pending retract (R127). -/
def dwell : Time := ms 500

/-- The least time in STOPPING (R23). -/
def stopTime : Time := ms 100

/-- The pump's DWELL (R61). -/
def pumpDwell : Time := ms 300

/-- The duty update period (R7). -/
def dutyPeriod : Time := ms 10

/-- The stroke sampling period (R71). -/
def strokePeriod : Time := ms 10

/-- One block of eight tilt samples (R86). -/
def blockPeriod : Time := ms 40

/-- The wind and speed gates (R131, R153). -/
def gate : Time := sec 1

/-- One half of the SLOW pattern (R165). -/
def alertHalf : Time := ms 500

/-- The longest scan before a grounded flag is settled (R68). -/
def scanSettle : Time := ms 500

/-- The period of one bank of the pressure switches (R70). -/
def bankPeriod : Time := ms 5

/-- Stroke samples that cover 500 ms (R68, R73; log 18). -/
def retractSamples : Nat := 50

/-- Service times of the store jobs (R191). -/
def checkpointService : Time := ms 5
def learnedService : Time := ms 10
def commitService : Time := ms 80

/-- The longest reading of storage (R192). -/
def loadTime : Time := ms 20

/-- Places of the outbound queue (R181). -/
def outPlaces : Nat := 16

/-- A report is appended when the queue holds this many frames or fewer (R181). -/
def reportRoom : Nat := 13

/-- The upper end of the link activity timer, in seconds (R176). -/
def linkMax : Nat := 3600

/-- Device code and design revision of IDENT (Section 12.1, note 2). -/
def deviceCode : Half := 0x4620
def revision : Byte := 1

/-- Free value: the place, in the order of Section 11.2, of the section being written when a reset cuts a commit
(R190 names no moment for each section; log 8). -/
opaque freeCommitSection : Nat → Fin 6

/-- Free value: the sections that did not read back, when the model's own clock ends a commit (R190; log 8). -/
opaque freeCommitFailed : Nat → BitVec 6

/-- Free value: the time a commit takes, used up to the bound of R190 (log 8). -/
opaque freeCommitTime : Nat → Nat

end Sys2Proof.Config
end

