-- ==== Sys2Proof/Machine/State.lean ====
section
/-! DEFINITION. The state of the part as plain data, block by block, and the state right after reset. -/

namespace Sys2Proof.Machine

/-! ## Names the manual fixes (codes in Section 12.6) -/

/-- Start-up (R192): RESET# asserted, before step 5, between steps 5 and 6, after step 6. -/
inductive Stage where
  | held | loading | settling | complete
  deriving DecidableEq, Repr

inductive Mode where
  | normal | service | unconfigured
  deriving DecidableEq, Repr

inductive ResetCause where
  | power | pin | restart
  deriving DecidableEq, Repr

inductive Power where
  | active | standby | dormant
  deriving DecidableEq, Repr

inductive Role where
  | roomLeader | roomFollower | awning | unused
  deriving DecidableEq, Repr

inductive ChanState where
  | idle | queued | moving | retryWait | faulted
  deriving DecidableEq, Repr

inductive Phase where
  | starting | ramp | run | approach | stopping
  deriving DecidableEq, Repr

inductive Bridge where
  | driveOut | driveIn | brake | coast
  deriving DecidableEq, Repr

inductive Seat where
  | inSeated | outSeated | between
  deriving DecidableEq, Repr

inductive Source where
  | link | panel | auto
  deriving DecidableEq, Repr

/-- Duty profile of a motion (Section 1.3). -/
inductive MotionProfile where
  | normal | learn | homing
  deriving DecidableEq, Repr

/-- End causes of a motion or of a queued entry (R22, R148). -/
inductive Cause where
  | seated | released | stopped | inhibited | fenced | fault | positionLost | reversed | budgetTimeout
  | leaseExpired | superseded | overcurrentBus
  deriving DecidableEq, Repr

inductive LockKind where
  | obstruction | openLoad | noPulse | overspeed | overcurrent | range | racked
  deriving DecidableEq, Repr

/-- Lock policies and the actions LOCK events carry (R19, R20). -/
inductive Policy where
  | latchCoast | latchBrake | retry | reportOnly | ignore
  deriving DecidableEq, Repr

inductive Activity where
  | idle | queued | starting | moving | retryWait | stopping | dwell
  deriving DecidableEq, Repr

inductive ClaimKind where
  | move | learn | oneTouch | hold | retract
  deriving DecidableEq, Repr

inductive Purpose where
  | wind | travel
  deriving DecidableEq, Repr

inductive Sync where
  | off | inBand | trimLeader | trimFollower | seating | homing | racked
  deriving DecidableEq, Repr

inductive LearnMethod where
  | endToEnd | refine
  deriving DecidableEq, Repr

inductive JackState where
  | retracted | retracting | extending | lifting | grounded | held | faulted
  deriving DecidableEq, Repr

inductive JackFault where
  | noGround | strokeSensor | retractTimeout
  deriving DecidableEq, Repr

inductive Pump where
  | off | running | dwell | rest
  deriving DecidableEq, Repr

inductive ActKind where
  | level | manual | stow
  deriving DecidableEq, Repr

inductive ActPhase where
  | waiting | running | idlePump
  deriving DecidableEq, Repr

inductive LevelPhase where
  | idle | waiting | touchdown | levelling | stabilize | settling
  deriving DecidableEq, Repr

inductive LevelMode where
  | level | ground
  deriving DecidableEq, Repr

/-- The pending flag of a levelling pass (Section 5.1). -/
inductive PendFlag where
  | twist | range | timeout
  deriving DecidableEq, Repr

inductive SettleTest where
  | waiting | judging
  deriving DecidableEq, Repr

/-- Outcomes of hydraulic activities and levelling procedures (Section 12.6). -/
inductive EndOutcome where
  | none | level | grounded | notLevel | twistLimit | outOfRange | timeout | jackFault | cancelled | inhibited
  | tiltFault | pumpOverrun | overcurrent | budgetTimeout | complete | stowed | incomplete | leaseExpired
  deriving DecidableEq, Repr

inductive LearnOutcome where
  | learned | outOfTolerance | aborted
  deriving DecidableEq, Repr

inductive Travel where
  | inMotion | travelReady | deployed
  deriving DecidableEq, Repr

inductive Alert where
  | off | slow | steady
  deriving DecidableEq, Repr

/-- The six classes of movement (Section 8.2). -/
inductive MoveClass where
  | so | si | je | jr | ao | ai
  deriving DecidableEq, Repr

/-! ## Records of the blocks -/

/-- The motion record (Section 1.3). `serial` and `written` tie the store's written-report to its motion (R5, R6). -/
structure Motion where
  serial     : Nat
  target     : MoverId
  source     : Source
  dir        : Dir
  profile    : MotionProfile
  phase      : Phase := .starting
  rampStart  : Time := 0
  rampDuty   : Nat := 0
  lastPulse  : Option Time := none
  stopTime   : Option Time := none
  cause      : Option Cause := none
  correction : Option Int := none
  partner    : Option ChanId := none
  written    : Bool := false
  deriving DecidableEq, Repr

/-- A two-sample pulse filter (R11): the filtered level and the latest sample, absent before the first samples. -/
structure Filter where
  level : Option Bool := none
  prev  : Option Bool := none
  deriving DecidableEq, Repr

/-- The channel record (Section 1.1, R1). The learned stroke is held in the LEARNED record, the effective stroke is
computed (R14). `lastEdge` is the time of the latest accepted hall edge, which outlives a motion: a motion record takes its
last pulse time from it (Section 1.3, R23). -/
structure Channel where
  role      : Role := .unused
  state     : ChanState := .idle
  fenced    : Bool := false
  pos       : Int := 0
  known     : Bool := false
  seat      : Seat := .between
  lastDir   : Dir := .inward
  duty      : Nat := 0
  bridge    : Bridge := .coast
  current   : Nat := 0
  window    : List Nat := []
  ocRun     : Nat := 0
  osRun     : Nat := 0
  prevCount : Option Time := none
  lastJudge : Option Time := none
  reported  : List LockKind := []
  retry     : Nat := 0
  retryEnd  : Option Time := none
  fault     : Option LockKind := none
  lastLock  : Option (LockKind × Policy) := none
  rackLatch : Bool := false
  motion    : Option Motion := none
  hall      : Filter := {}
  lastEdge  : Option Time := none
  dutyAt    : Option Time := none
  deriving DecidableEq, Repr

/-- The claim a room or the awning is serving (Sections 2.1 and 6.1). -/
structure Claim where
  source  : Source
  dir     : Dir
  kind    : ClaimKind
  purpose : Option Purpose := none
  lease   : Option Time := none
  deriving DecidableEq, Repr

/-- A pending reversal (R37). -/
structure Reversal where
  source : Source
  dir    : Dir
  lease  : Option Time := none
  deriving DecidableEq, Repr

/-- A stroke learning run (R54..R56): `held` is the held stroke, from the hand-over of the first leg on; the measured
strokes are those of the leader and the follower. -/
structure LearnRun where
  method : LearnMethod
  leg    : Dir
  held   : Option Nat := none
  leader : Option Int := none
  follower : Option Int := none
  deriving DecidableEq, Repr

/-- A motion as its owning unit follows it to its end (R47, R49): the first cause other than SEATED, the leader's final
count and correction, the first-seat mark of the continuing motor, whether a reversal dwell follows (R37), and for a pair
the last lock that halted it: its channel, its action and its moment (R28; log 33). -/
structure Run where
  dir        : Dir
  firstCause : Option Cause := none
  leaderEnd  : Option (Int × Option Int) := none
  firstSeat  : Option (ChanId × Int) := none
  dwellAfter : Bool := false
  lock       : Option (ChanId × Policy × Time) := none
  deriving DecidableEq, Repr

/-- One panel switch (R29, R40): settled, debounced level, spent flag, and the debouncer's count of 1 ms samples. -/
structure Switch where
  settled : Bool := false
  pressed : Bool := false
  spent   : Bool := false
  cand    : Bool := false
  count   : Nat := 0
  deriving DecidableEq, Repr

/-- A room of the room table, or the awning record (Sections 2.1 and 6.1). -/
structure Mover where
  present     : Bool := false
  leader      : Option ChanId := none
  follower    : Option ChanId := none
  claim       : Option Claim := none
  pendRev     : Option Reversal := none
  holdOff     : Option (Dir × Time) := none
  dwellEnd    : Option Time := none
  sync        : Sync := .off
  learn       : Option LearnRun := none
  pendRetract : Option Purpose := none
  run         : Option Run := none
  swIn        : Switch := {}
  swOut       : Switch := {}
  deriving DecidableEq, Repr

/-- A set of jacks, one flag per jack. -/
abbrev JackSet := Vector Bool 6

/-- The hydraulic activity record (Section 3.3); its outcome is handed on at its end (R66). -/
structure HydActivity where
  kind    : ActKind
  dir     : Dir
  jackSet : JackSet
  openSet : JackSet
  phase   : ActPhase := .waiting
  lease   : Option Time := none
  start   : Option Time := none
  deriving DecidableEq, Repr

/-- The Hydraulic Unit (Sections 3.1..3.3). -/
structure Hyd where
  pump         : Pump := .off
  pdir         : Dir := .inward
  runStart     : Option Time := none
  runHeld      : Time := 0
  dwellEnd     : Option Time := none
  restEnd      : Option Time := none
  pendingStart : Bool := false
  current      : Nat := 0
  window       : List Nat := []
  activity     : Option HydActivity := none
  lastKind     : Option ActKind := none
  lastOutcome  : EndOutcome := .none
  bankB        : Bool := false
  scanAt       : Time := 0
  deriving DecidableEq, Repr

/-- A jack record (Section 3.4, R68); presence and geometry are COACH values in force, the state is computed (R69). -/
structure Jack where
  stroke      : Nat := 0
  valid       : Bool := false
  retracted   : Bool := false
  atLimit     : Bool := false
  grounded    : Bool := false
  fenced      : Bool := false
  fault       : Option JackFault := none
  outOfRange  : Nat := 0
  lowRun      : Nat := 0
  samples     : Nat := 0
  sampleAt    : Option Time := none
  groundRun   : Nat := 0
  latestRead  : Bool := false
  groundSettled  : Bool := false
  strokeSettled  : Bool := false
  retractSettled : Bool := false
  deriving DecidableEq, Repr

/-- A zero learning run (Section 4.4). -/
structure ZeroRun where
  count : Nat := 0
  sumX  : Int := 0
  sumY  : Int := 0
  deriving DecidableEq, Repr

/-- The Tilt Filter (Section 4.1); the zero offsets are held in the LEARNED record. -/
structure Tilt where
  sumX    : Nat := 0
  sumY    : Nat := 0
  count   : Nat := 0
  blockAt : Option Time := none
  railX   : Nat := 0
  railY   : Nat := 0
  good    : Nat := 0
  fault   : Bool := true
  tx      : Int := 0
  ty      : Int := 0
  p       : Int := 0
  q       : Int := 0
  clamped : Bool := false
  zeroRun : Option ZeroRun := none
  lastSample : Option Time := none
  deriving DecidableEq, Repr

/-- The Levelling Engine: the level status record (Section 5.1) and the computed figures (Sections 4.5..4.7). -/
structure Level where
  phase       : LevelPhase := .idle
  mode        : Option LevelMode := none
  pass        : Nat := 0
  pendFlag    : Option PendFlag := none
  limitMark   : Bool := false
  deadline    : Option Time := none
  settleTest  : Option SettleTest := none
  lastOutcome : EndOutcome := .none
  levelHeld   : Bool := false
  drift       : Nat := 0
  heights     : Vector (Option Int) 6 := Vector.replicate 6 none
  demands     : Vector (Option Nat) 6 := Vector.replicate 6 none
  liftSet     : JackSet := Vector.replicate 6 false
  levelRun    : Nat := 0
  twist       : Option Int := none
  twistOver   : Bool := false
  deriving DecidableEq, Repr

/-- The Wind Watch (Section 6.5); `lockout` is the end of the lockout while it is active. Its filter holds no level from a
reset until the first two samples that agree (the model's choice, log 42). -/
structure Wind where
  filter  : Filter := {}
  count   : Nat := 0
  speed   : Nat := 0
  gustRun : Nat := 0
  lockout : Option Time := none
  gateEnd : Option Time := none
  deriving DecidableEq, Repr

/-- The Supply Monitor (Section 7.1). -/
structure Supply where
  window   : List Nat := []
  voltage  : Nat := 0
  low      : Bool := false
  high     : Bool := false
  lowRun   : Nat := 0
  highRun  : Nat := 0
  lowClear : Nat := 0
  highClear : Nat := 0
  busSum   : Nat := 0
  busRun   : Nat := 0
  tripped  : Bool := false
  deriving DecidableEq, Repr

/-- One admitted entry; targets 0..4 are the movers, 5 the hydraulic activity (Section 7.3). -/
structure Admitted where
  target : Fin 6
  draw   : Nat
  since  : Time
  deriving DecidableEq, Repr

/-- One queued entry (Section 7.3); `waitEnd` is the end of the maximum wait in force when it was queued (R147). -/
structure Queued where
  target  : Fin 6
  dir     : Dir
  source  : Source
  purpose : Option Purpose := none
  draw    : Nat
  lease   : Option Time := none
  since   : Time
  waitEnd : Time
  deriving DecidableEq, Repr

/-- The Budget Arbiter (Section 7.3). -/
structure Budget where
  admitted : List Admitted := []
  queue    : List Queued := []
  deriving DecidableEq, Repr

/-- A debounced coach input (R151, R152): `cand` and `count` are the level being timed and its 1 ms samples. -/
structure CoachLevel where
  settled : Bool := false
  level   : Bool := false
  cand    : Bool := false
  count   : Nat := 0
  deriving DecidableEq, Repr

/-- The five debounced inputs (Section 8.1). -/
structure CoachInputs where
  ign  : CoachLevel := {}
  pbrk : CoachLevel := {}
  park : CoachLevel := {}
  eng  : CoachLevel := {}
  wake : CoachLevel := {}
  deriving DecidableEq, Repr

/-- The speed gate (R153). Its filter holds no level from a reset until the first two samples that agree (the model's choice,
log 42). -/
structure Speed where
  filter  : Filter := {}
  count   : Nat := 0
  last    : Nat := 0
  below   : Nat := 0
  moving  : Bool := false
  gateEnd : Option Time := none
  deriving DecidableEq, Repr

/-- A set of profile values: the ids whose value differs from the default, ids strictly rising (R187, Section 11.2). -/
abbrev Profile := List (Nat × Int)

/-- A stored record: its values and its check (Section 11.1). -/
structure Record where
  vals  : List Int
  check : BitVec 16
  deriving DecidableEq, Repr

/-- The contents of a checkpoint (R187). -/
structure Checkpoint where
  inMotion : Bool
  pos      : Int
  known    : Bool
  seat     : Seat
  deriving DecidableEq, Repr

/-- The working LEARNED record (Section 11.4). -/
structure Learned where
  strokes : Vector (Option Nat) 8 := Vector.replicate 8 none
  zero    : Option (Int × Int) := none
  deriving DecidableEq, Repr

/-- A store job (R191); `serial` names the motion whose IN_MOTION checkpoint it is. -/
inductive Job where
  | checkpoint (ch : ChanId) (c : Checkpoint) (serial : Option Nat)
  | learned
  | commit
  deriving DecidableEq, Repr

/-- The job being written: its start, and for a LEARNED job the record as it stood when service began (R191). -/
structure Service where
  job   : Job
  start : Time
  record : Option Record := none
  deriving DecidableEq, Repr

/-- The Profile Store (Chapter 11): working profile, COACH values in force, LEARNED record, storage, jobs, profile note. -/
structure Store where
  working  : Profile := []
  coach    : Profile := []
  learned  : Learned := {}
  sections : Vector (Option Record) 6 := Vector.replicate 6 none
  learnedRec  : Option Record := none
  checkpoints : Vector (Option Record) 8 := Vector.replicate 8 none
  jobs     : List Job := []
  busy     : Option Service := none
  note     : BitVec 7 := 0
  deriving DecidableEq, Repr

/-- The levels at the input pins (Section 1.7): currents in 0.1 A, the converter's raw values, switches true when
pressed, the pressure switch line of each jack (log 6, log 11). -/
structure Pins where
  hall : Vector Bool 8 := Vector.replicate 8 false
  isns : Vector Nat 8 := Vector.replicate 8 0
  ipump : Nat := 0
  stk  : Vector (BitVec 12) 6 := Vector.replicate 6 0
  psw  : Vector Bool 6 := Vector.replicate 6 false
  tx   : BitVec 12 := 0
  ty   : BitVec 12 := 0
  wind : Bool := false
  speed : Bool := false
  ign  : Bool := false
  pbrk : Bool := false
  park : Bool := false
  eng  : Bool := false
  wake : Bool := false
  swIn  : Vector Bool 5 := Vector.replicate 5 false
  swOut : Vector Bool 5 := Vector.replicate 5 false
  reset : Bool := false
  vsup : BitVec 12 := 0
  deriving DecidableEq, Repr

/-- The events of the other chapters that reach the port (R182, Section 12.5). -/
inductive Event where
  | motionEnded (target : MoverId) (cause : Cause) (pos : Int) (correction : Option Int)
  | lock (ch : ChanId) (kind : LockKind) (action : Policy) (retry : Nat)
  | levelPhase (phase : LevelPhase) (mode : Option LevelMode) (pass : Nat)
  | levelEnded (mode : Option LevelMode) (outcome : EndOutcome) (pass : Nat) (p q : Int)
  | levelLost (jackMoved : Bool) (p q : Int)
  | jack (j : JackId) (fault : JackFault)
  | hydraulicEnded (kind : ActKind) (outcome : EndOutcome)
  | wind (speed : Nat) (lockout started : Bool)
  | posture (travel : Travel) (hazard : Bool)
  | inhibit (active became cleared : BitVec 16)
  | supply (low high : Bool) (voltage : Nat) (latch : Bool)
  | busOvercurrent (sum pump : Nat)
  | wake (causes : BitVec 5)
  | store (failed : BitVec 6)
  | learnRoom (room : MoverId) (outcome : LearnOutcome) (v1 v2 : Option Int)
  | learnTilt (outcome : LearnOutcome) (v1 v2 : Option Int)
  deriving DecidableEq, Repr

/-- A frame of the port without LENGTH and CHECK, which R177 computes. -/
structure Frame where
  kind    : Byte
  tag     : Byte
  payload : List Byte
  deriving DecidableEq, Repr

/-- The Link Port (Section 10.1); `linkAt` is the moment the link activity timer last restarted, absent while it is
stopped at 0. -/
structure Port where
  outq     : List Frame := []
  attn     : BitVec 16 := 0
  mask     : BitVec 16 := 0x07FF
  linkAt   : Option Time := none
  selected : Bool := false
  shift    : Option Frame := none
  wakeSel  : Bool := false
  inbound  : List Byte := []
  inCount  : Nat := 0
  deriving DecidableEq, Repr

/-- What the Readiness Monitor alone writes: travel state, hazard, ALERT and TRAVEL_OK (Sections 8.4, 8.5). -/
structure Ready where
  travel    : Travel := .deployed
  hazard    : Bool := false
  alert     : Alert := .off
  alertHigh : Bool := false
  alertAt   : Option Time := none
  travelOk  : Bool := false
  deriving DecidableEq, Repr

/-- The blocks behind the port. `events`, `headDue`, `serial` and `free` are the model's own (log 8, log 10), and so is
`returnedAt`, the moment of a return from STANDBY after which the conditions of R168 have held on (log 34). -/
structure Work where
  now        : Time := 0
  resetAt    : Time := 0
  loadAt     : Time := 0
  stage      : Stage := .loading
  mode       : Mode := .unconfigured
  service    : Bool := false
  resetCause : ResetCause := .power
  power      : Power := .active
  wakeCauses : BitVec 5 := 0
  dormantAt  : Option Time := none
  returnedAt : Option Time := none
  wakePrev   : Option (BitVec 14) := none
  chans      : Vector Channel 8 := Vector.replicate 8 {}
  movers     : Vector Mover 5 := Vector.replicate 5 {}
  hyd        : Hyd := {}
  jacks      : Vector Jack 6 := Vector.replicate 6 {}
  tilt       : Tilt := {}
  lvl        : Level := {}
  wind       : Wind := {}
  sup        : Supply := {}
  bud        : Budget := {}
  inputs     : CoachInputs := {}
  speed      : Speed := {}
  inh        : BitVec 16 := 0x0107
  link       : BitVec 4 := 0
  store      : Store := {}
  pins       : Pins := {}
  events     : List Event := []
  headDue    : Bool := false
  serial     : Nat := 0
  free       : Nat := 0
  deriving DecidableEq, Repr

/-- The state of the part and the queue of commands that wait, first in, first out. -/
structure State where
  pending : List Instr := []
  port    : Port := {}
  ready   : Ready := {}
  work    : Work := {}
  deriving DecidableEq, Repr

/-- Why the block would stop: there is no reason. The manual answers every bad frame, argument or mode with a status and
latches every lock and jack fault in state, so no meaning raises a fault (INVENTORY.md, Faults). -/
inductive Fault where
  deriving DecidableEq, Repr

/-- Why a command is turned away by the model. -/
inductive Refusal where
  /-- Raised by the dispatcher alone, for a row whose meaning is not written; safe, because the block does not go on. -/
  | notModelled (mnemonic : String)
  deriving DecidableEq, Repr

/-- The part right after a power-on reset, before the start-up load, with storage that was never written (R1, R29, R60,
R68, R85, R102, R131, R136, R142, R152, R153, R155, R167, R175, R192; log 5, log 6, log 7). -/
def State.reset : State := {}

end Sys2Proof.Machine
end

