-- ==== Sys2Proof/Machine/Profile.lean ====
section
/-! DEFINITION. The profile: the field table of Section 11.2, reading and writing of values, and the stored records
with their CRC-16 (R187, Section 11.1). -/

namespace Sys2Proof.Machine

/-- One row of the field table: ids base .. base + count - 1, its section (0 COACH, 1 MOTION, 2 LOCKS,
3 HYDRAULIC_LEVEL, 4 AWNING_WIND, 5 SUPPLY), its default, its range, and the values of an enumerated field. -/
structure Field where
  base    : Nat
  count   : Nat := 1
  sect    : Fin 6
  dflt    : Int
  lo      : Int := 0
  hi      : Int := 0
  allowed : List Int := []
  deriving DecidableEq, Repr

/-- The code of an absent index in a profile field (log 14). -/
def noneCode : Int := 255

/-- COACH fields. -/
def coachFields : List Field :=
  [ { base := 0x0100, count := 8, sect := 0, dflt := 3, allowed := [0, 1, 2, 3] },
    { base := 0x0110, count := 4, sect := 0, dflt := noneCode, allowed := [255, 0, 1, 2, 3, 4, 5, 6, 7] },
    { base := 0x0118, count := 4, sect := 0, dflt := noneCode, allowed := [255, 0, 1, 2, 3, 4, 5, 6, 7] },
    { base := 0x0120, sect := 0, dflt := 4, allowed := [4, 6] },
    { base := 0x0130, count := 6, sect := 0, dflt := 0, lo := -1000, hi := 1000 },
    { base := 0x0138, count := 6, sect := 0, dflt := 0, lo := -1000, hi := 1000 },
    { base := 0x0140, sect := 0, dflt := noneCode, allowed := [255, 0, 1, 2, 3] },
    { base := 0x0141, sect := 0, dflt := 1, allowed := [0, 1] },
    { base := 0x0142, sect := 0, dflt := 0, allowed := [0, 1] },
    { base := 0x0143, sect := 0, dflt := 3, lo := 1, hi := 50 } ]

/-- MOTION fields. -/
def motionFields : List Field :=
  [ { base := 0x0200, count := 8, sect := 1, dflt := 64, lo := 0, hi := 255 },
    { base := 0x0208, count := 8, sect := 1, dflt := 400, lo := 50, hi := 2000 },
    { base := 0x0210, count := 8, sect := 1, dflt := 200, lo := 1, hi := 255 },
    { base := 0x0218, count := 8, sect := 1, dflt := 96, lo := 1, hi := 255 },
    { base := 0x0220, count := 8, sect := 1, dflt := 80, lo := 1, hi := 255 },
    { base := 0x0228, count := 8, sect := 1, dflt := 30, lo := 0, hi := 500 },
    { base := 0x0230, count := 8, sect := 1, dflt := 12, lo := 1, hi := 100 },
    { base := 0x0238, count := 8, sect := 1, dflt := 120, lo := 10, hi := 1000 },
    { base := 0x0240, count := 8, sect := 1, dflt := 10, lo := 0, hi := 200 },
    { base := 0x0248, count := 8, sect := 1, dflt := 350, lo := 50, hi := 1000 },
    { base := 0x0250, count := 4, sect := 1, dflt := 1000, lo := 100, hi := 20000 },
    { base := 0x0254, sect := 1, dflt := 1000, lo := 100, hi := 20000 },
    { base := 0x0258, count := 4, sect := 1, dflt := 4, lo := 0, hi := 20 },
    { base := 0x025C, count := 4, sect := 1, dflt := 8, lo := 1, hi := 64 },
    { base := 0x0260, count := 4, sect := 1, dflt := 40, lo := 10, hi := 200 },
    { base := 0x0264, count := 4, sect := 1, dflt := 40, lo := 1, hi := 255 },
    { base := 0x0270, sect := 1, dflt := 250, lo := 100, hi := 1000 },
    { base := 0x0271, sect := 1, dflt := 0, allowed := [0, 1] },
    { base := 0x0272, sect := 1, dflt := 18, lo := 1, hi := 60 },
    { base := 0x0273, sect := 1, dflt := 8, lo := 1, hi := 60 },
    { base := 0x0274, sect := 1, dflt := 85, lo := 20, hi := 150 } ]

/-- The values of a lock policy field. -/
def policyCodes : List Int := [0, 1, 2, 3, 4]

/-- LOCKS fields; the policy defaults are the room column of R19. -/
def locksFields : List Field :=
  [ { base := 0x0300, count := 8, sect := 2, dflt := 1, allowed := policyCodes },
    { base := 0x0308, count := 8, sect := 2, dflt := 0, allowed := policyCodes },
    { base := 0x0310, count := 8, sect := 2, dflt := 1, allowed := policyCodes },
    { base := 0x0318, count := 8, sect := 2, dflt := 3, allowed := policyCodes },
    { base := 0x0320, count := 8, sect := 2, dflt := 0, allowed := policyCodes },
    { base := 0x0328, count := 8, sect := 2, dflt := 1, allowed := policyCodes },
    { base := 0x0330, count := 8, sect := 2, dflt := 1, allowed := policyCodes },
    { base := 0x0340, count := 8, sect := 2, dflt := 2, lo := 1, hi := 5 },
    { base := 0x0348, count := 8, sect := 2, dflt := 2000, lo := 500, hi := 10000 },
    { base := 0x0350, sect := 2, dflt := 300, lo := 100, hi := 2000 },
    { base := 0x0351, sect := 2, dflt := 150, lo := 50, hi := 1000 },
    { base := 0x0352, sect := 2, dflt := 100, lo := 50, hi := 1000 },
    { base := 0x0353, sect := 2, dflt := 2, lo := 1, hi := 20 } ]

/-- HYDRAULIC_LEVEL fields. -/
def hydFields : List Field :=
  [ { base := 0x0400, sect := 3, dflt := 120, lo := 30, hi := 300 },
    { base := 0x0401, sect := 3, dflt := 60, lo := 10, hi := 600 },
    { base := 0x0402, sect := 3, dflt := 40, lo := 10, hi := 120 },
    { base := 0x0403, sect := 3, dflt := 8, lo := 2, hi := 50 },
    { base := 0x0404, sect := 3, dflt := 230, lo := 50, hi := 400 },
    { base := 0x0408, count := 6, sect := 3, dflt := 200, lo := 0, hi := 4095 },
    { base := 0x0410, count := 6, sect := 3, dflt := 32, lo := 1, hi := 1023 },
    { base := 0x0420, sect := 3, dflt := 30, lo := 5, hi := 200 },
    { base := 0x0421, sect := 3, dflt := 17, lo := 5, hi := 100 },
    { base := 0x0422, sect := 3, dflt := 60, lo := 20, hi := 200 },
    { base := 0x0423, sect := 3, dflt := 20, lo := 5, hi := 60 },
    { base := 0x0424, sect := 3, dflt := 90, lo := 30, hi := 300 },
    { base := 0x0425, sect := 3, dflt := 10, lo := 2, hi := 60 },
    { base := 0x0426, sect := 3, dflt := 3, lo := 1, hi := 10 },
    { base := 0x0427, sect := 3, dflt := 3, lo := 1, hi := 5 },
    { base := 0x0428, count := 2, sect := 3, dflt := 96, lo := 1, hi := 1023 } ]

/-- AWNING_WIND fields. -/
def windFields : List Field :=
  [ { base := 0x0500, sect := 4, dflt := 1, allowed := [0, 1] },
    { base := 0x0501, sect := 4, dflt := 1, allowed := [0, 1] },
    { base := 0x0502, sect := 4, dflt := 112, lo := 1, hi := 1023 },
    { base := 0x0503, sect := 4, dflt := 110, lo := 1, hi := 999 },
    { base := 0x0504, sect := 4, dflt := 3, lo := 1, hi := 10 },
    { base := 0x0505, sect := 4, dflt := 150, lo := 1, hi := 999 },
    { base := 0x0506, sect := 4, dflt := 10, lo := 1, hi := 60 } ]

/-- SUPPLY fields (ranges of Section 7.1). -/
def supplyFields : List Field :=
  [ { base := 0x0600, sect := 5, dflt := 1050, lo := 900, hi := 1200 },
    { base := 0x0601, sect := 5, dflt := 1150, lo := 950, hi := 1300 },
    { base := 0x0602, sect := 5, dflt := 1560, lo := 1400, hi := 1800 },
    { base := 0x0603, sect := 5, dflt := 1520, lo := 1350, hi := 1750 },
    { base := 0x0604, sect := 5, dflt := 0, allowed := [0, 1] },
    { base := 0x0605, sect := 5, dflt := 190, lo := 50, hi := 500 },
    { base := 0x0606, sect := 5, dflt := 150, lo := 40, hi := 400 },
    { base := 0x0607, sect := 5, dflt := 10, lo := 1, hi := 30 },
    { base := 0x0608, sect := 5, dflt := 8, lo := 1, hi := 8 },
    { base := 0x0609, sect := 5, dflt := 60, lo := 10, hi := 600 } ]

/-- The whole field table, in the order of Section 11.2. -/
def fields : List Field :=
  coachFields ++ motionFields ++ locksFields ++ hydFields ++ windFields ++ supplyFields

/-- The row that names an id. -/
def fieldOf (id : Nat) : Option Field := fields.find? fun f => f.base ≤ id && id < f.base + f.count

/-- The default of a field (room column of R19 for a lock policy). -/
def dfltOf (id : Nat) : Int :=
  match fieldOf id with
  | some f => f.dflt
  | none => 0

/-- A value a field can hold (R187). -/
def Field.inRange (f : Field) (v : Int) : Bool :=
  match f.allowed with
  | [] => f.lo ≤ v && v ≤ f.hi
  | vs => vs.contains v

/-- The value of a field. -/
def Profile.get (p : Profile) (id : Nat) : Int :=
  match p.find? (fun x => x.1 == id) with
  | some x => x.2
  | none => dfltOf id

/-- Insert at the place of the id, ids rising. -/
def insertField (id : Nat) (v : Int) : List (Nat × Int) → List (Nat × Int)
  | [] => [(id, v)]
  | x :: rest =>
    if id < x.1 then (id, v) :: x :: rest
    else if id = x.1 then (id, v) :: rest
    else x :: insertField id v rest

/-- Write a field, keeping the canonical form: no entry at its default, ids rising. -/
def Profile.set (p : Profile) (id : Nat) (v : Int) : Profile :=
  if v = dfltOf id then p.filter (fun x => x.1 != id) else insertField id v p

/-- The canonical form. -/
def Profile.wf (p : Profile) : Bool :=
  p.all (fun x => x.2 != dfltOf x.1) && decide (List.Pairwise (· < ·) (p.map (·.1)))

/-- The kind and the channel of a lock policy field. -/
def policyField (id : Nat) : Option (Nat × Nat) :=
  if 0x0300 ≤ id ∧ id < 0x0338 then some ((id - 0x0300) / 8, (id - 0x0300) % 8) else none

/-- The clamps of R19: OVERCURRENT takes a latching policy only, RACKED keeps LATCH_BRAKE. The flag says CLAMPED, for RACKED
also where LATCH_BRAKE itself is written, by R19 and not R188: the model's choice, log 47. -/
def clampPolicy (kind : Nat) (v : Int) : Int × Bool :=
  if kind = 6 then (1, true)
  else if kind = 4 ∧ (v = 2 ∨ v = 3 ∨ v = 4) then (0, true)
  else (v, false)

/-- What a PROFILE_WRITE stores for a value, and whether it was changed; none for an id that names no field or an
enumerated value the field does not allow (R188). -/
def acceptValue (id : Nat) (v : Int) : Option (Int × Bool) :=
  match fieldOf id with
  | none => none
  | some f =>
    match f.allowed with
    | [] => let c := max f.lo (min f.hi v); some (c, c != v)
    | vs =>
      if vs.contains v then
        match policyField id with
        | some (k, _) => some (clampPolicy k v)
        | none => some (v, false)
      else none

/-! ## Records and their checks (Section 11.1) -/

/-- One bit of the CRC-16 register. -/
def crc16Shift (c : BitVec 16) : BitVec 16 := if c.msb then (c <<< 1) ^^^ 0x1021 else c <<< 1

/-- One byte, most significant bit first; Section 11.1 gives no bit order and no final inversion, and the model takes those of
the CRC-8 of R177, log 9. -/
def crc16Byte (c : BitVec 16) (b : Byte) : BitVec 16 :=
  crc16Shift (crc16Shift (crc16Shift (crc16Shift (crc16Shift (crc16Shift (crc16Shift (crc16Shift
    (c ^^^ (b.setWidth 16 <<< 8)))))))))

/-- The CRC-16 of a record's values, each a 16-bit number low byte first (log 9). -/
def crc16 (vals : List Int) : BitVec 16 :=
  (vals.flatMap fun v => halfBytes (BitVec.ofInt 16 v)).foldl crc16Byte 0xFFFF

/-- A record written with a fresh check. -/
def Record.fresh (vals : List Int) : Record := { vals := vals, check := crc16 vals }

/-- A record whose write was cut off: its check does not match (R187; log 9). -/
def Record.cut (vals : List Int) : Record := { vals := vals, check := ~~~ crc16 vals }

/-- The check matches the contents. -/
def Record.sound (r : Record) : Bool := r.check == crc16 r.vals

/-- The ids of a section, in the order of Section 11.2. -/
def sectionIds (k : Fin 6) : List Nat :=
  (fields.filter (fun f => f.sect == k)).flatMap fun f => (List.range f.count).map (f.base + ·)

/-- The values of a section of a profile. -/
def sectionVals (p : Profile) (k : Fin 6) : List Int := (sectionIds k).map p.get

/-- A stored section is valid (R187). -/
def sectionValid (k : Fin 6) (r : Option Record) : Bool :=
  match r with
  | none => false
  | some r =>
    let ids := sectionIds k
    r.sound && r.vals.length == ids.length &&
      (ids.zip r.vals).all fun x => match fieldOf x.1 with
        | some f => f.inRange x.2
        | none => false

/-- Put a stored section into a profile. -/
def loadSection (p : Profile) (k : Fin 6) (r : Option Record) : Profile :=
  match r with
  | none => p
  | some r => ((sectionIds k).zip r.vals).foldl (fun p x => p.set x.1 x.2) p

/-- The six sections. -/
def allSections : List (Fin 6) := [0, 1, 2, 3, 4, 5]

/-- The defaults a bad LOCKS section takes: the awning column of R19 for a channel whose role is AWNING (R187). The columns
differ for OBSTRUCTION; for RACKED the awning column shows a dash, which the model reads as LATCH_BRAKE (its choice, log 47). -/
def awningPolicies (p : Profile) : Profile :=
  (List.range 8).foldl (fun p n => if p.get (0x0100 + n) = 2 then p.set (0x0300 + n) 2 else p) p

/-- The sections that do not load, one bit a section. -/
def badSections (secs : Vector (Option Record) 6) : BitVec 7 :=
  allSections.foldl (fun b k => if sectionValid k secs[k] then b else b ||| (1 <<< k.val)) 0

/-- The working profile after the load: valid sections as stored, bad ones at their defaults (R187, R192 step 2). -/
def loadProfile (secs : Vector (Option Record) 6) : Profile :=
  let p := allSections.foldl (fun p k => if sectionValid k secs[k] then loadSection p k secs[k] else p) []
  if sectionValid 2 secs[(2 : Fin 6)] then p else awningPolicies p

/-- The values of the LEARNED record: eight strokes (0 absent), whether the zero is present, P0 and Q0 (log 9). -/
def Learned.vals (l : Learned) : List Int :=
  l.strokes.toList.map (fun s => match s with | some n => (n : Int) | none => 0) ++
    (match l.zero with | some (p, q) => [1, p, q] | none => [0, 0, 0])

/-- One stored stroke is in range. -/
def strokeValOk (v : Int) : Bool := v == 0 || (100 ≤ v && v ≤ 20000)

/-- Read a stored LEARNED record; none when it is bad (R187). -/
def readLearned (r : Option Record) : Option Learned :=
  match r with
  | none => none
  | some r =>
    match r.vals with
    | [a, b, c, d, e, f, g, h, z, p, q] =>
      if r.sound && [a, b, c, d, e, f, g, h].all strokeValOk && (z == 0 || z == 1) &&
          (-600 ≤ p && p ≤ 600) && (-600 ≤ q && q ≤ 600) then
        some { strokes := (#v[a, b, c, d, e, f, g, h]).map fun v => if v = 0 then none else some v.toNat,
               zero := if z = 1 then some (p, q) else none }
      else none
    | _ => none

/-- The seat codes of Section 12.6. -/
def Seat.code : Seat → Nat
  | .inSeated => 0
  | .outSeated => 1
  | .between => 2

/-- The values of a checkpoint: phase, count, status, seat (R187; log 9). -/
def Checkpoint.vals (c : Checkpoint) : List Int :=
  [if c.inMotion then 1 else 0, c.pos, if c.known then 0 else 1, (c.seat.code : Int)]

/-- Read a stored checkpoint; none when it is bad (R187). -/
def readCheckpoint (r : Option Record) : Option Checkpoint :=
  match r with
  | none => none
  | some r =>
    match r.vals with
    | [ph, pos, st, seat] =>
      if r.sound && (ph == 0 || ph == 1) && (-64 ≤ pos && pos ≤ 24064) && (st == 0 || st == 1) &&
          (0 ≤ seat && seat ≤ 2) then
        some { inMotion := ph == 1, pos := pos, known := st == 0,
               seat := if seat = 0 then .inSeated else if seat = 1 then .outSeated else .between }
      else none
    | _ => none

end Sys2Proof.Machine
end

