-- ==== Sys2Proof/Machine/Ops.lean ====
section
/-! DEFINITION. Named operations on the state: reading and writing one record, events, time, profile values in force,
the relation of channels and movers, and the store job queue (R191). -/

namespace Sys2Proof.Machine

/-! ## Indexes -/

def allChans : List ChanId := [0, 1, 2, 3, 4, 5, 6, 7]
def allRooms : List MoverId := [0, 1, 2, 3]
def allMovers : List MoverId := [0, 1, 2, 3, 4]
def allJacks : List JackId := [0, 1, 2, 3, 4, 5]

/-- The awning among the movers. -/
def awn : MoverId := 4

/-! ## One record -/

def Work.ch (w : Work) (c : ChanId) : Channel := w.chans[c]
def Work.setCh (w : Work) (c : ChanId) (x : Channel) : Work := { w with chans := w.chans.set c x }
def Work.mv (w : Work) (m : MoverId) : Mover := w.movers[m]
def Work.setMv (w : Work) (m : MoverId) (x : Mover) : Work := { w with movers := w.movers.set m x }
def Work.jk (w : Work) (j : JackId) : Jack := w.jacks[j]
def Work.setJk (w : Work) (j : JackId) (x : Jack) : Work := { w with jacks := w.jacks.set j x }

/-- Raise an event; the port takes it at the end of the command (log 10). -/
def Work.emit (w : Work) (e : Event) : Work := { w with events := w.events ++ [e] }

/-- The command's moment is no earlier than a given time (log 1). -/
def Work.notBefore (w : Work) (t : Time) : Work := { w with now := max w.now t }

/-! ## Pins: a command that reports what an input shows leaves the input at that level (log 6) -/

def Work.showCurrent (w : Work) (c : ChanId) (v : Nat) : Work :=
  { w with pins := { w.pins with isns := w.pins.isns.set c v } }
def Work.showStroke (w : Work) (j : JackId) (raw : BitVec 12) : Work :=
  { w with pins := { w.pins with stk := w.pins.stk.set j raw } }
def Work.showGround (w : Work) (j : JackId) (b : Bool) : Work :=
  { w with pins := { w.pins with psw := w.pins.psw.set j b } }
def Work.showTilt (w : Work) (x y : BitVec 12) : Work := { w with pins := { w.pins with tx := x, ty := y } }
def Work.showSupply (w : Work) (raw : BitVec 12) : Work := { w with pins := { w.pins with vsup := raw } }
def Work.showSwitch (w : Work) (m : MoverId) (d : Dir) (b : Bool) : Work :=
  { w with pins := match d with
      | .inward => { w.pins with swIn := w.pins.swIn.set m b }
      | .outward => { w.pins with swOut := w.pins.swOut.set m b } }

/-! ## Jack sets -/

def noJacks : JackSet := Vector.replicate 6 false

/-- The set of the jacks a condition picks. -/
def jacksWhere (p : JackId → Bool) : JackSet := #v[p 0, p 1, p 2, p 3, p 4, p 5]

def JackSet.has (s : JackSet) (j : JackId) : Bool := s[j]
def JackSet.without (s : JackSet) (j : JackId) : JackSet := s.set j false
def JackSet.with (s : JackSet) (j : JackId) : JackSet := s.set j true
def JackSet.isEmpty (s : JackSet) : Bool := allJacks.all fun j => !s[j]
def JackSet.size (s : JackSet) : Nat := (allJacks.filter fun j => s[j]).length
def JackSet.inter (s t : JackSet) : JackSet := jacksWhere fun j => s[j] && t[j]

/-- The set as a byte, bit j for jack j. -/
def JackSet.byte (s : JackSet) : Byte :=
  allJacks.foldl (fun b j => if s[j] then b ||| (1 <<< j.val) else b) 0

/-! ## Profile values in force -/

/-- A field outside COACH: in force from the event of its write (R188). -/
def Work.prof (w : Work) (id : Nat) : Int := w.store.working.get id
def Work.profN (w : Work) (id : Nat) : Nat := (w.prof id).toNat

/-- A COACH field as the last start-up load brought it into force (R188, R192). -/
def Work.coach (w : Work) (id : Nat) : Int := w.store.coach.get id

def Work.jackCount (w : Work) : Nat := (w.coach 0x0120).toNat
def Work.jackPresent (w : Work) (j : JackId) : Bool := j.val < w.jackCount
def Work.holdWindow (w : Work) : Time := Config.ms (w.profN 0x0270)
/-- True under STOP_DWELL. -/
def Work.stopDwell (w : Work) : Bool := w.prof 0x0271 == 1
def Work.oneTouch (w : Work) : Bool := w.prof 0x0500 == 1
def Work.travelRetract (w : Work) : Bool := w.prof 0x0501 == 1
def Work.latchPolicy (w : Work) : Bool := w.prof 0x0604 == 1
def Work.budget (w : Work) : Nat := w.profN 0x0606
def Work.queueLimit (w : Work) : Nat := w.profN 0x0608
def Work.maxWait (w : Work) : Time := Config.sec (w.profN 0x0607)
def Work.standbyDelay (w : Work) : Time := Config.sec (w.profN 0x0609)
def Work.startGrace (w : Work) : Time := Config.ms (w.profN 0x0350)
def Work.stallWindow (w : Work) : Time := Config.ms (w.profN 0x0351)
def Work.restWindow (w : Work) : Time := Config.ms (w.profN 0x0352)
def Work.minPulse (w : Work) : Time := Config.ms (w.profN 0x0353)
def Work.deadband (w : Work) : Nat := w.profN 0x0420
def Work.tolerance (w : Work) : Nat := w.profN 0x0421

/-- The neighbour room, when the field names a present room (R126). A field that names an absent room counts as no neighbour,
in the WIND reply too (R121, R135; log 20). -/
def Work.neighbour (w : Work) : Option MoverId :=
  allRooms.find? fun r => w.coach 0x0140 == (r.val : Int) && (w.mv r).present

/-! ## Channels and movers -/

/-- The channels of a mover, the leader first. -/
def Mover.chans (x : Mover) : List ChanId := x.leader.toList ++ x.follower.toList
def Work.chansOf (w : Work) (m : MoverId) : List ChanId := (w.mv m).chans

/-- A paired room (Section 2.1, note 2). -/
def Mover.paired (x : Mover) : Bool := x.follower.isSome

/-- The mover a channel serves. -/
def Work.moverOf (w : Work) (c : ChanId) : Option MoverId :=
  allMovers.find? fun m => (w.mv m).present && (w.mv m).chans.contains c

/-- The channel whose MOTION fields govern a channel: its leader (R7, R44). -/
def Work.leadOf (w : Work) (c : ChanId) : ChanId :=
  match w.moverOf c with
  | some m => (w.mv m).leader.getD c
  | none => c

/-- A MOTION field of a channel, given its base id. -/
def Work.motionField (w : Work) (base : Nat) (c : ChanId) : Nat := w.profN (base + (w.leadOf c).val)

/-- The nominal stroke of a room or the awning. -/
def Work.nominal (w : Work) (m : MoverId) : Nat := w.profN (0x0250 + m.val)

/-- The held stroke of a learning room (R55): the nominal stroke times 6 divided by 5, truncated. -/
def heldStroke (nominal : Nat) : Nat := nominal * 6 / 5

def Work.learned (w : Work) (c : ChanId) : Option Nat := w.store.learned.strokes[c]

/-- The effective stroke (R14, R55); 0 for a channel that serves nothing. -/
def Work.effStroke (w : Work) (c : ChanId) : Nat :=
  match w.moverOf c with
  | none => 0
  | some m =>
    match (w.mv m).learn.bind (·.held) with
    | some h => h
    | none => (w.learned c).getD (w.nominal m)

/-- The upper position limit (R13). -/
def Work.upperLimit (w : Work) (c : ChanId) : Int := (w.effStroke c : Int) + 64

/-- A count above the limit is set to the limit (R14). -/
def Work.clampPos (w : Work) (c : ChanId) : Work :=
  w.setCh c { w.ch c with pos := min (w.ch c).pos (w.upperLimit c) }

def Work.clampAll (w : Work) : Work := allChans.foldl Work.clampPos w

/-! ## The store job queue (R191) -/

/-- The record a job writes. A COMMIT writes sections, not one record. -/
def Work.jobRecord (w : Work) : Job → Option Record
  | .checkpoint _ c _ => some (Record.fresh c.vals)
  | .learned => some (Record.fresh w.store.learned.vals)
  | .commit => none

/-- Begin the service of the head when nothing is being written. -/
def Work.serveNext (w : Work) : Work :=
  match w.store.busy, w.store.jobs with
  | none, j :: rest =>
    { w with store := { w.store with jobs := rest, busy := some { job := j, start := w.now, record := w.jobRecord j } } }
  | _, _ => w

/-- A job of this channel's checkpoint. -/
def Job.isCheckpointOf (c : ChanId) : Job → Bool
  | .checkpoint d _ _ => d == c
  | _ => false

def Job.isLearned : Job → Bool
  | .learned => true
  | _ => false

def Job.isCommit : Job → Bool
  | .commit => true
  | _ => false

/-- A channel's new checkpoint replaces its pending one in place, or joins the tail. -/
def placeCheckpoint (c : ChanId) (j : Job) (jobs : List Job) : List Job :=
  if jobs.any (Job.isCheckpointOf c) then jobs.map fun x => if x.isCheckpointOf c then j else x
  else jobs ++ [j]

/-- The contents of a channel's checkpoint. -/
def Channel.checkpoint (x : Channel) (inMotion : Bool) : Checkpoint :=
  { inMotion := inMotion, pos := x.pos, known := x.known, seat := x.seat }

/-- A channel asks for a checkpoint of its count, status and seat (R5, R17, R21, R23). -/
def Work.askCheckpoint (w : Work) (c : ChanId) (inMotion : Bool) : Work :=
  let serial := if inMotion then (w.ch c).motion.map (·.serial) else none
  let j := Job.checkpoint c ((w.ch c).checkpoint inMotion) serial
  Work.serveNext { w with store := { w.store with jobs := placeCheckpoint c j w.store.jobs } }

/-- A LEARNED request leaves a pending LEARNED job as it stands, or joins the tail. -/
def Work.askLearned (w : Work) : Work :=
  if w.store.jobs.any Job.isLearned then w
  else Work.serveNext { w with store := { w.store with jobs := w.store.jobs ++ [.learned] } }

/-- A COMMIT joins the tail (R190). -/
def Work.askCommit (w : Work) : Work :=
  Work.serveNext { w with store := { w.store with jobs := w.store.jobs ++ [.commit] } }

/-- A COMMIT is pending or being written (R188, R190). -/
def Work.commitInFlight (w : Work) : Bool :=
  w.store.jobs.any Job.isCommit || (match w.store.busy with | some s => s.job.isCommit | none => false)

/-- Some job is pending or being written (R170). -/
def Work.storeBusy (w : Work) : Bool := !w.store.jobs.isEmpty || w.store.busy.isSome

end Sys2Proof.Machine
end

