-- ==== Sys2Proof/Machine/Operands.lean ====
section
/-! DEFINITION. The operand forms of the requests (targets, directions, masks, modes of Section 12.2) and the answers a
block gives to a request (R180, R194). -/

namespace Sys2Proof.Machine

/-- The statuses of R180. -/
inductive Status where
  | done | accepted | queued | clamped | renewed
  | checkError | lengthError | unknownKind | badArgument | badMode | inhibited | faulted | fenced | heldByOther | busy
  | queueFull | positionUnknown | conflict | notReady
  deriving DecidableEq, Repr

/-- The details of BUSY (Section 12.3, note 1). -/
inductive BusyDetail where
  | stopping | hydraulic | roomMoving | pumpRest | store | wind
  deriving DecidableEq, Repr

/-- The details of NOT_READY (Section 12.3, note 2). -/
inductive ReadyDetail where
  | tilt | jacks | notSeated | supply | motion | hazard | awning
  deriving DecidableEq, Repr

/-- The answer of a block: the status, the argument of a refusal, and a query's data. -/
structure Reply where
  status : Status
  arg    : Byte := 0
  data   : List Byte := []
  deriving DecidableEq, Repr

def Status.code : Status → Byte
  | .done => 0
  | .accepted => 1
  | .queued => 2
  | .clamped => 3
  | .renewed => 4
  | .checkError => 16
  | .lengthError => 17
  | .unknownKind => 18
  | .badArgument => 19
  | .badMode => 20
  | .inhibited => 21
  | .faulted => 22
  | .fenced => 23
  | .heldByOther => 24
  | .busy => 25
  | .queueFull => 26
  | .positionUnknown => 27
  | .conflict => 28
  | .notReady => 29

/-- DONE, ACCEPTED, QUEUED, CLAMPED and RENEWED are no refusals (R180). -/
def Status.accepts : Status → Bool
  | .done => true
  | .accepted => true
  | .queued => true
  | .clamped => true
  | .renewed => true
  | _ => false

def BusyDetail.code : BusyDetail → Byte
  | .stopping => 1
  | .hydraulic => 2
  | .roomMoving => 3
  | .pumpRest => 4
  | .store => 5
  | .wind => 6

def ReadyDetail.code : ReadyDetail → Byte
  | .tilt => 1
  | .jacks => 2
  | .notSeated => 3
  | .supply => 4
  | .motion => 5
  | .hazard => 6
  | .awning => 7

def replyDone : Reply := { status := .done }
def replyAccepted : Reply := { status := .accepted }
def replyQueued : Reply := { status := .queued }
def replyClamped : Reply := { status := .clamped }
def replyRenewed : Reply := { status := .renewed }
def replyBadArgument : Reply := { status := .badArgument }
def replyBadMode : Reply := { status := .badMode }
def replyQueueFull : Reply := { status := .queueFull }
def replyConflict : Reply := { status := .conflict }
def replyHeld : Reply := { status := .heldByOther }
def replyBusy (d : BusyDetail) : Reply := { status := .busy, arg := d.code }
def replyNotReady (d : ReadyDetail) : Reply := { status := .notReady, arg := d.code }
def replyInhibited (id : Nat) : Reply := { status := .inhibited, arg := BitVec.ofNat 8 id }

/-- DONE, or CLAMPED when something was changed or disregarded. -/
def replyChanged (clamped : Bool) : Reply := if clamped then replyClamped else replyDone

/-- The payload of a reply (R194). -/
def Reply.payload (r : Reply) : List Byte :=
  if r.status.accepts then r.status.code :: r.data else [r.status.code, r.arg]

/-! ## Operands -/

/-- A direction code: 0 OUT or EXTEND, 1 IN or RETRACT. -/
def decodeDir (b : Byte) : Option Dir :=
  if b = 0 then some .outward else if b = 1 then some .inward else none

/-- A MOVE target: 0..3 the rooms, 4 the awning. -/
def decodeMover (b : Byte) : Option MoverId :=
  if h : b.toNat < 5 then some ⟨b.toNat, h⟩ else none

/-- A room index 0..3, as a mover. -/
def decodeRoom (b : Byte) : Option MoverId :=
  if b.toNat < 4 then decodeMover b else none

/-- The room of an event row, as a mover. -/
def roomMover (r : Fin 4) : MoverId := ⟨r.val, by omega⟩

/-- The targets of STOP. -/
inductive StopTarget where
  | one (m : MoverId)
  | all
  deriving DecidableEq, Repr

def decodeStop (b : Byte) : Option StopTarget :=
  if b = 0xFF then some .all else (decodeMover b).map .one

/-- A channel index 0..7. -/
def decodeChan (b : Byte) : Option ChanId :=
  if h : b.toNat < 8 then some ⟨b.toNat, h⟩ else none

/-- The targets of FAULT_CLEAR (Section 12.2, note 1). -/
inductive ClearTarget where
  | chan (c : ChanId)
  | jack (j : JackId)
  | supply
  deriving DecidableEq, Repr

def decodeClear (b : Byte) : Option ClearTarget :=
  if h : b.toNat < 8 then some (.chan ⟨b.toNat, h⟩)
  else if h : b.toNat - 0x10 < 6 ∧ 0x10 ≤ b.toNat then some (.jack ⟨b.toNat - 0x10, h.1⟩)
  else if b = 0x20 then some .supply
  else none

/-- The mode of LEVEL_START: 1 LEVEL, 2 GROUND. -/
def decodeLevelMode (b : Byte) : Option LevelMode :=
  if b = 1 then some .level else if b = 2 then some .ground else none

/-- The method of LEARN_STROKE: 0 END_TO_END, 1 REFINE. -/
def decodeMethod (b : Byte) : Option LearnMethod :=
  if b = 0 then some .endToEnd else if b = 1 then some .refine else none

/-- The jacks a mask names. -/
def maskJacks (mask : Byte) : JackSet := jacksWhere fun j => mask.getLsbD j.val

/-- A jack mask that is not empty and names present jacks only (R76 check 2). -/
def Work.maskOk (w : Work) (mask : Byte) : Bool :=
  mask != 0 && !mask.getLsbD 6 && !mask.getLsbD 7 &&
    allJacks.all fun j => !mask.getLsbD j.val || w.jackPresent j

end Sys2Proof.Machine
end

