-- ==== Sys2Proof/Machine/Flags.lean ====
section
/-! DEFINITION. Derived conditions: the standing of rooms and the awning (R30, R31, R121), jack states and valves (R62,
R69), STABILIZED (R103), the inhibit set and its classes (R154, R158), supply state, travel state, hazard and ALERT
(R161, R162, R165), and the output pins. -/

namespace Sys2Proof.Machine

/-! ## Channels -/

/-- In RAMP, RUN or APPROACH. -/
def Phase.drives : Phase → Bool
  | .ramp => true
  | .run => true
  | .approach => true
  | _ => false

/-- The channel is MOVING in RAMP, RUN or APPROACH. -/
def Channel.driving (x : Channel) : Bool :=
  match x.motion with
  | some m => x.state == .moving && m.phase.drives
  | none => false

/-- The channel holds a motion in STARTING. -/
def Channel.starting (x : Channel) : Bool :=
  match x.motion with
  | some m => x.state == .moving && m.phase == .starting
  | none => false

/-- The channel holds a motion in STOPPING. -/
def Channel.stopping (x : Channel) : Bool :=
  match x.motion with
  | some m => x.state == .moving && m.phase == .stopping
  | none => false

/-- The channel holds a motion that a stop request can still stop. -/
def Channel.stoppable (x : Channel) : Bool := x.motion.isSome && !x.stopping

/-- The role of a channel serves something (R2). -/
def Channel.used (x : Channel) : Bool := x.role != .unused

/-! ## Rooms and the awning (R30, R31) -/

def Work.allCh (w : Work) (m : MoverId) (p : Channel → Bool) : Bool := (w.chansOf m).all fun c => p (w.ch c)
def Work.anyCh (w : Work) (m : MoverId) (p : Channel → Bool) : Bool := (w.chansOf m).any fun c => p (w.ch c)

/-- Position status KNOWN. -/
def Work.known (w : Work) (m : MoverId) : Bool := w.allCh m (·.known)

/-- The seat state of a room (R30) or the awning, which has that of its channel (R121). -/
def Work.seatOf (w : Work) (m : MoverId) : Seat :=
  if w.allCh m (fun x => x.seat == .inSeated && (m == awn || x.known)) then .inSeated
  else if w.allCh m (fun x => x.seat == .outSeated) then .outSeated
  else .between

def Work.faulted (w : Work) (m : MoverId) : Bool := w.anyCh m (fun x => x.state == .faulted)
def Work.fenced (w : Work) (m : MoverId) : Bool := w.anyCh m (·.fenced)

/-- IN_SEATED with KNOWN position. -/
def Work.isIn (w : Work) (m : MoverId) : Bool := w.seatOf m == .inSeated && w.known m

/-- The awning is STOWED (R121). -/
def Work.stowed (w : Work) : Bool := (w.mv awn).present && w.isIn awn

/-- The leader's position count. -/
def Work.leaderPos (w : Work) (m : MoverId) : Int :=
  match (w.mv m).leader with
  | some c => (w.ch c).pos
  | none => 0

/-- The racking error: leader less follower, absent unless both are KNOWN (R30). -/
def Work.racking (w : Work) (m : MoverId) : Option Int :=
  match (w.mv m).leader, (w.mv m).follower with
  | some a, some b => if (w.ch a).known && (w.ch b).known then some ((w.ch a).pos - (w.ch b).pos) else none
  | _, _ => none

/-- The admission queue holds an entry for a target. -/
def Work.isQueued (w : Work) (t : Fin 6) : Bool := w.bud.queue.any fun q => q.target == t

/-- A mover as a target of the Budget Arbiter. -/
def moverTarget (m : MoverId) : Fin 6 := m.castSucc

/-- The hydraulic activity as a target of the Budget Arbiter. -/
def hydTarget : Fin 6 := 5

/-- The activity of a room or the awning (R31). -/
def Work.activity (w : Work) (m : MoverId) : Activity :=
  if w.isQueued (moverTarget m) then .queued
  else if w.anyCh m Channel.driving then .moving
  else if w.anyCh m (fun x => x.state == .retryWait) then .retryWait
  else if w.anyCh m Channel.starting then .starting
  else if (w.mv m).run.isSome then .stopping
  else if (w.mv m).dwellEnd.isSome then .dwell
  else .idle

/-- The panel switch of a side. -/
def Mover.switch (x : Mover) (d : Dir) : Switch :=
  match d with
  | .inward => x.swIn
  | .outward => x.swOut

def Mover.setSwitch (x : Mover) (d : Dir) (s : Switch) : Mover :=
  match d with
  | .inward => { x with swIn := s }
  | .outward => { x with swOut := s }

/-! ## Jacks (R62, R69, R103) -/

/-- A jack valve output is high (R62). -/
def Work.valve (w : Work) (j : JackId) : Bool :=
  match w.hyd.activity with
  | some a =>
    w.hyd.pump == .running && a.openSet.has j && w.jackPresent j && !(w.jk j).fenced && (w.jk j).fault.isNone &&
      a.dir == w.hyd.pdir
  | none => false

/-- Every sensor of the jack has settled (R68). -/
def Jack.settled (x : Jack) : Bool := x.groundSettled && x.strokeSettled && x.retractSettled

/-- The state of a jack (R69; before it is settled HELD, R68). -/
def Work.jackState (w : Work) (j : JackId) : JackState :=
  let x := w.jk j
  if !w.jackPresent j then .retracted
  else if x.fault.isSome then .faulted
  else if !x.settled then .held
  else if w.valve j then
    if w.hyd.pdir == .inward then .retracting else if x.grounded then .lifting else .extending
  else if x.retracted then .retracted
  else if x.grounded then .grounded
  else .held

/-- Every present jack is RETRACTED. -/
def Work.allRetracted (w : Work) : Bool := allJacks.all fun j => !w.jackPresent j || w.jackState j == .retracted

/-- STABILIZED (R103); it reads false until start-up completes (R102). -/
def Work.stabilized (w : Work) : Bool :=
  w.stage == .complete &&
    (allJacks.any fun j => w.jackPresent j && !(w.jk j).fenced) &&
    allJacks.all fun j => !w.jackPresent j || (w.jk j).fenced || (w.jk j).grounded

/-! ## The inhibit set (R154, R155, R158) -/

/-- A set of ids from its members' conditions, id 0 first. -/
def bits16 (l : List Bool) : BitVec 16 :=
  (l.zipIdx).foldl (fun b x => if x.1 then b ||| (1 <<< x.2) else b) 0

/-- Every present room is IN_SEATED with KNOWN position. -/
def Work.roomsIn (w : Work) : Bool := allRooms.all fun r => !(w.mv r).present || w.isIn r

/-- The active members, derived from their owners (R154, R155). -/
def Work.deriveInh (w : Work) : BitVec 16 :=
  bits16
    [ !w.inputs.ign.settled || w.inputs.ign.level,
      !(w.inputs.pbrk.settled && w.inputs.pbrk.level),
      !(w.inputs.park.settled && w.inputs.park.level),
      w.speed.moving,
      w.sup.low,
      w.sup.high,
      w.wind.lockout.isSome,
      !w.roomsIn,
      w.coach 0x0141 == 1 && !w.stabilized,
      w.coach 0x0142 == 1 && !(w.inputs.eng.settled && w.inputs.eng.level),
      false, false,
      w.link.getLsbD 0, w.link.getLsbD 1, w.link.getLsbD 2, w.link.getLsbD 3 ]

/-- The members that block a class (R154). -/
def MoveClass.mask : MoveClass → BitVec 16
  | .so => 0x313F
  | .si => 0x3030
  | .je => 0x523F
  | .jr => 0x52B0
  | .ao => 0x907F
  | .ai => 0x9030

/-- The lowest-numbered active member that blocks one of the classes. -/
def lowestBlocking (inh : BitVec 16) (cs : List MoveClass) : Option Nat :=
  (List.range 16).find? fun i => inh.getLsbD i && cs.any fun c => c.mask.getLsbD i

/-- The class of a motion of a room or the awning. -/
def moveClass (m : MoverId) (d : Dir) : MoveClass :=
  if m = awn then (match d with | .outward => .ao | .inward => .ai)
  else (match d with | .outward => .so | .inward => .si)

/-- The class of a run of the pump. -/
def jackClass (d : Dir) : MoveClass :=
  match d with
  | .outward => .je
  | .inward => .jr

/-- The classes of a learning run (R52, R158). -/
def learnClasses : LearnMethod → List MoveClass
  | .endToEnd => [.so, .si]
  | .refine => [.so]

/-- The members that apply to an automatic retract (R129, R158): LINK members do not apply to purpose WIND, IGNITION not
to purpose TRAVEL. -/
def retractMask : Purpose → BitVec 16
  | .wind => 0x0030
  | .travel => 0x9030

/-- The members that apply to a learning run in either leg, to its end (R52, R158). -/
def learnMask (k : LearnMethod) : BitVec 16 := (learnClasses k).foldl (fun b x => b ||| x.mask) 0

/-- The members that apply to a claim (R158): for a retract those of its purpose, for every other claim those of its direction.
A LEARN claim comes here only when a RETRY lock has ended its run and left it in RETRY_WAIT: SO or SI by its direction
(log 38). -/
def Claim.mask (c : Claim) (m : MoverId) : BitVec 16 :=
  match c.kind, c.purpose with
  | .retract, some p => retractMask p
  | _, _ => (moveClass m c.dir).mask

/-- The members that apply to the work a mover holds (R158): its learning run, or its claim in motion or queued. -/
def Work.claimMask (w : Work) (m : MoverId) : BitVec 16 :=
  match (w.mv m).learn, (w.mv m).claim with
  | some l, _ => learnMask l.method
  | none, some c => c.mask m
  | none, none => 0

/-! ## Readiness (R161, R162, R165) -/

/-- Supply state codes: 0 NORMAL, 1 LOW, 2 HIGH, 3 LOW_HIGH (Section 7.1, note 2). -/
def supplyCode (low high : Bool) : Byte :=
  match low, high with
  | false, false => 0
  | true, false => 1
  | false, true => 2
  | true, true => 3

/-- Something moves or waits to move (R161, first line). -/
def Work.inMotion (w : Work) : Bool :=
  (allMovers.any fun m => w.activity m != .idle) || (w.mv awn).pendRetract.isSome || !w.bud.queue.isEmpty ||
    w.hyd.activity.isSome || w.lvl.phase != .idle

/-- Everything is put away for the road (R161, second line). -/
def Work.putAway (w : Work) : Bool :=
  w.roomsIn && (!(w.mv awn).present || w.stowed) && w.allRetracted

/-- The travel state (R161). -/
def Work.travel (w : Work) : Travel :=
  if w.inMotion then .inMotion else if w.putAway then .travelReady else .deployed

/-- The hazard, from the inhibit set and a travel state (R162): BRAKE_OFF, NOT_IN_PARK or COACH_MOVING. -/
def hazardOf (inh : BitVec 16) (t : Travel) : Bool := (inh &&& 0x000E) != 0 && t != .travelReady

/-- The conditions of SLOW (R165). -/
def Work.slowCause (w : Work) (t : Travel) : Bool :=
  (w.inputs.ign.settled && w.inputs.ign.level && t != .travelReady) ||
    (allChans.any fun c => (w.ch c).used && (w.ch c).state == .faulted) ||
    (allJacks.any fun j => w.jackPresent j && w.jackState j == .faulted) ||
    w.sup.low || w.sup.high

/-- The ALERT pattern (R165). -/
def Work.alertOf (w : Work) (t : Travel) (hazard : Bool) : Alert :=
  if hazard then .steady else if w.slowCause t then .slow else .off

/-! ## Output pins (Section 1.7) -/

/-- PWMn: the duty while the bridge drives, held low in BRAKE (R3) and, by the model's choice, in COAST (log 35). -/
def Work.outPwm (w : Work) (c : ChanId) : Nat :=
  match (w.ch c).bridge with
  | .driveOut => (w.ch c).duty
  | .driveIn => (w.ch c).duty
  | _ => 0
/-- DIRn: high for OUT while the bridge drives (R3); low in BRAKE and COAST by the model's choice (log 35). -/
def Work.outDir (w : Work) (c : ChanId) : Bool := (w.ch c).bridge == .driveOut
def Work.outEn (w : Work) (c : ChanId) : Bool := (w.ch c).bridge != .coast
def Work.outPump (w : Work) : Bool := w.hyd.pump == .running
def Work.outPdir (w : Work) : Bool := w.hyd.pdir == .outward
def Work.outValve (w : Work) (j : JackId) : Bool := w.valve j
def Work.outBsel (w : Work) : Bool := w.power != .dormant && w.hyd.bankB

/-- The part takes frames: the start-up load is complete (R175). -/
def Stage.loaded : Stage → Bool
  | .settling => true
  | .complete => true
  | _ => false

/-- RDY (R181). -/
def State.outRdy (s : State) : Bool :=
  s.work.stage.loaded && s.work.power != .dormant && !s.port.outq.isEmpty

def State.outTravelOk (s : State) : Bool := s.ready.travelOk

/-- The level of ALERT (R165): held low in DORMANT. -/
def State.outAlert (s : State) : Bool :=
  s.work.power != .dormant &&
    match s.ready.alert with
    | .steady => true
    | .slow => s.ready.alertHigh
    | .off => false

/-- The blocks run: the load is complete and the part is not DORMANT. -/
def Work.awake (w : Work) : Bool := w.stage.loaded && w.power != .dormant

end Sys2Proof.Machine
end

