-- ==== Sys2Proof/Machine/Frames.lean ====
section
/-! DEFINITION. Frames: the CRC-8 and the bytes of a frame (R177), the enumeration codes of Section 12.6, the coding of
absent and saturated fields (R195), and the reports of Section 12.5. -/

namespace Sys2Proof.Machine

/-! ## The frame (R177) -/

/-- One bit of the CRC-8 register. -/
def crc8Shift (c : Byte) : Byte := if c.msb then (c <<< 1) ^^^ 0x07 else c <<< 1

/-- One byte, most significant bit first. -/
def crc8Byte (c b : Byte) : Byte :=
  crc8Shift (crc8Shift (crc8Shift (crc8Shift (crc8Shift (crc8Shift (crc8Shift (crc8Shift (c ^^^ b))))))))

/-- CHECK: CRC-8 of x^8 + x^2 + x + 1, initial value 0. -/
def crc8 (bs : List Byte) : Byte := bs.foldl crc8Byte 0

/-- The bytes CHECK covers. -/
def Frame.body (f : Frame) : List Byte := BitVec.ofNat 8 f.payload.length :: f.kind :: f.tag :: f.payload

/-- A frame as it is shifted out. -/
def Frame.bytes (f : Frame) : List Byte := f.body ++ [crc8 f.body]

/-- Bytes of a frame on the line: LENGTH + 4. -/
def Frame.size (f : Frame) : Nat := f.payload.length + 4

/-- The idle frame. -/
def idleFrame : Frame := { kind := 0, tag := 0, payload := [] }

/-- The reply to a request: its kind plus 0x80 and its TAG. -/
def replyFrame (kind tag : Byte) (r : Reply) : Frame := { kind := kind + 0x80, tag := tag, payload := r.payload }

/-- The general reply, kind 0x80. -/
def generalReply (tag : Byte) (st : Status) : Frame := { kind := 0x80, tag := tag, payload := [st.code, 0] }

/-- SDO in byte `k` of a selection, from 0: the frame taken at its assertion, then bytes of 0x00; none is the high impedance
of a deasserted select line (R175, R176). -/
def State.outSdo (s : State) (k : Nat) : Option Byte :=
  if s.port.selected then some ((s.port.shift.getD idleFrame).bytes.getD k 0) else none

/-! ## Fields (R195) -/

def u8 (n : Nat) : List Byte := [BitVec.ofNat 8 n]

/-- An unsigned 16-bit number, saturated at its limit. -/
def u16 (n : Nat) : List Byte := halfBytes (BitVec.ofNat 16 (min n 65535))

/-- A signed 16-bit number, saturated at -32767..32767. -/
def s16 (v : Int) : List Byte := halfBytes (BitVec.ofInt 16 (max (-32767) (min 32767 v)))

/-- Absent: 0xFF, 0xFFFF and 0x8000. -/
def opt8 (o : Option Nat) : List Byte := match o with | some n => u8 n | none => [0xFF]
def opt16 (o : Option Nat) : List Byte := match o with | some n => u16 n | none => halfBytes 0xFFFF
def optS16 (o : Option Int) : List Byte := match o with | some v => s16 v | none => halfBytes 0x8000

/-- A flag byte, bit 0 first. -/
def flagByte (l : List Bool) : List Byte := [(bits16 l).setWidth 8]

/-- Time left to a deadline in ms: 0 for one that passes now. -/
def msLeft (now t : Time) : Nat := (t - now) / 1000

/-! ## Codes (Section 12.6) -/

def Role.code : Role → Nat
  | .roomLeader => 0 | .roomFollower => 1 | .awning => 2 | .unused => 3
def ChanState.code : ChanState → Nat
  | .idle => 0 | .queued => 1 | .moving => 2 | .retryWait => 3 | .faulted => 4
def Phase.code : Phase → Nat
  | .starting => 0 | .ramp => 1 | .run => 2 | .approach => 3 | .stopping => 4
def Bridge.code : Bridge → Nat
  | .driveOut => 0 | .driveIn => 1 | .brake => 2 | .coast => 3
def dirCode : Dir → Nat
  | .outward => 0 | .inward => 1
def Source.code : Source → Nat
  | .link => 0 | .panel => 1 | .auto => 2
def Cause.code : Cause → Nat
  | .seated => 0 | .released => 1 | .stopped => 2 | .inhibited => 3 | .fenced => 4 | .fault => 5 | .positionLost => 6
  | .reversed => 7 | .budgetTimeout => 8 | .leaseExpired => 9 | .superseded => 10 | .overcurrentBus => 11
def LockKind.code : LockKind → Nat
  | .obstruction => 0 | .openLoad => 1 | .noPulse => 2 | .overspeed => 3 | .overcurrent => 4 | .range => 5 | .racked => 6
def Policy.code : Policy → Nat
  | .latchCoast => 0 | .latchBrake => 1 | .retry => 2 | .reportOnly => 3 | .ignore => 4
def Activity.code : Activity → Nat
  | .idle => 0 | .queued => 1 | .starting => 2 | .moving => 3 | .retryWait => 4 | .stopping => 5 | .dwell => 6
def ClaimKind.code : ClaimKind → Nat
  | .move => 0 | .learn => 1 | .oneTouch => 2 | .hold => 3 | .retract => 4
def Purpose.code : Purpose → Nat
  | .wind => 0 | .travel => 1
def Sync.code : Sync → Nat
  | .off => 0 | .inBand => 1 | .trimLeader => 2 | .trimFollower => 3 | .seating => 4 | .homing => 5 | .racked => 6
def LearnMethod.code : LearnMethod → Nat
  | .endToEnd => 0 | .refine => 1
/-- Learning leg: 0 inward, 1 outward. -/
def legCode : Dir → Nat
  | .inward => 0 | .outward => 1
def JackState.code : JackState → Nat
  | .retracted => 0 | .retracting => 1 | .extending => 2 | .lifting => 3 | .grounded => 4 | .held => 5 | .faulted => 6
def JackFault.code : JackFault → Nat
  | .noGround => 1 | .strokeSensor => 2 | .retractTimeout => 3
def Pump.code : Pump → Nat
  | .off => 0 | .running => 1 | .dwell => 2 | .rest => 3
def ActKind.code : ActKind → Nat
  | .level => 0 | .manual => 1 | .stow => 2
def ActPhase.code : ActPhase → Nat
  | .waiting => 0 | .running => 1 | .idlePump => 2
def LevelPhase.code : LevelPhase → Nat
  | .idle => 0 | .waiting => 1 | .touchdown => 2 | .levelling => 3 | .stabilize => 4 | .settling => 5
/-- Level mode: 0 absent. -/
def levelModeCode : Option LevelMode → Nat
  | none => 0 | some .level => 1 | some .ground => 2
def EndOutcome.code : EndOutcome → Nat
  | .none => 0 | .level => 1 | .grounded => 2 | .notLevel => 3 | .twistLimit => 4 | .outOfRange => 5 | .timeout => 6
  | .jackFault => 7 | .cancelled => 8 | .inhibited => 9 | .tiltFault => 10 | .pumpOverrun => 11 | .overcurrent => 12
  | .budgetTimeout => 13 | .complete => 15 | .stowed => 16 | .incomplete => 17 | .leaseExpired => 18
def LearnOutcome.code : LearnOutcome → Nat
  | .learned => 0 | .outOfTolerance => 1 | .aborted => 2
def Travel.code : Travel → Nat
  | .inMotion => 0 | .travelReady => 1 | .deployed => 2
def Alert.code : Alert → Nat
  | .off => 0 | .slow => 1 | .steady => 2
def Mode.code : Mode → Nat
  | .normal => 0 | .service => 1 | .unconfigured => 2
def ResetCause.code : ResetCause → Nat
  | .power => 0 | .pin => 1 | .restart => 2
def Power.code : Power → Nat
  | .active => 0 | .standby => 1 | .dormant => 2
/-- Position status: 0 KNOWN, 1 UNKNOWN. -/
def statusCode (known : Bool) : Nat := if known then 0 else 1

/-! ## Reports (R182, Section 12.5) -/

/-- Attention positions (Section 12.6). -/
def attnLinkError : BitVec 16 := 0x0800
def attnLinkOverrun : BitVec 16 := 0x1000
def attnReportLost : BitVec 16 := 0x2000
def attnResetSeen : BitVec 16 := 0x4000
def attnWake : BitVec 16 := 0x0100

/-- The attention bit of an event's class. -/
def Event.bit : Event → BitVec 16
  | .motionEnded .. => 0x0001
  | .lock .. => 0x0002
  | .levelPhase .. => 0x0004
  | .levelEnded .. => 0x0004
  | .levelLost .. => 0x0004
  | .jack .. => 0x0008
  | .hydraulicEnded .. => 0x0008
  | .wind .. => 0x0010
  | .posture .. => 0x0020
  | .inhibit .. => 0x0040
  | .supply .. => 0x0080
  | .busOvercurrent .. => 0x0080
  | .wake .. => 0x0100
  | .store .. => 0x0200
  | .learnRoom .. => 0x0400
  | .learnTilt .. => 0x0400

/-- The report kind of an event. -/
def Event.kind : Event → Byte
  | .motionEnded .. => 0xC0
  | .lock .. => 0xC1
  | .levelPhase .. => 0xC2
  | .levelEnded .. => 0xC3
  | .levelLost .. => 0xC4
  | .jack .. => 0xC5
  | .hydraulicEnded .. => 0xC6
  | .wind .. => 0xC7
  | .posture .. => 0xC8
  | .inhibit .. => 0xC9
  | .supply .. => 0xCA
  | .busOvercurrent .. => 0xCB
  | .wake .. => 0xCC
  | .store .. => 0xCD
  | .learnRoom .. => 0xCE
  | .learnTilt .. => 0xCE

/-- The data of an event's report. -/
def Event.data : Event → List Byte
  | .motionEnded t c pos corr => u8 t.val ++ u8 c.code ++ s16 pos ++ optS16 corr
  | .lock c k a n => u8 c.val ++ u8 k.code ++ u8 a.code ++ u8 n
  | .levelPhase ph m n => u8 ph.code ++ u8 (levelModeCode m) ++ u8 n
  | .levelEnded m o n p q => u8 (levelModeCode m) ++ u8 o.code ++ u8 n ++ s16 p ++ s16 q
  | .levelLost moved p q => u8 (if moved then 1 else 0) ++ s16 p ++ s16 q
  | .jack j f => u8 j.val ++ u8 f.code
  | .hydraulicEnded k o => u8 k.code ++ u8 o.code
  | .wind v on started => u16 v ++ flagByte [on, started]
  | .posture t h => u8 t.code ++ u8 (if h then 1 else 0)
  | .inhibit a b c => halfBytes a ++ halfBytes b ++ halfBytes c
  | .supply low high v latch => [supplyCode low high] ++ u16 v ++ u8 (if latch then 1 else 0)
  | .busOvercurrent sum pump => u16 sum ++ u16 pump
  | .wake c => [c.setWidth 8]
  | .store failed => u8 (if failed = 0 then 0 else 1) ++ [failed.setWidth 8]
  | .learnRoom r o a b => u8 r.val ++ u8 o.code ++ optS16 a ++ optS16 b
  | .learnTilt o a b => u8 0x10 ++ u8 o.code ++ optS16 a ++ optS16 b

/-- The report of an event: TAG 0. -/
def Event.frame (e : Event) : Frame := { kind := e.kind, tag := 0, payload := e.data }

/-- An event reaches the port (R181, R182): its bit is set; its report, when the class is enabled, is appended when at
most 13 frames wait, and is lost otherwise. -/
def Port.take (p : Port) (e : Event) : Port :=
  let p := { p with attn := p.attn ||| e.bit }
  if p.mask &&& e.bit = 0 then p
  else if p.outq.length ≤ Config.reportRoom then { p with outq := p.outq ++ [e.frame] }
  else { p with attn := p.attn ||| attnReportLost }

/-- Events reach the port in the order they were raised. -/
def Port.takeAll (p : Port) (es : List Event) : Port := es.foldl Port.take p

/-- A reply joins the tail (R181); `request` gives it a place first (R179). -/
def Port.push (p : Port) (f : Frame) : Port := { p with outq := p.outq ++ [f] }

end Sys2Proof.Machine
end

