-- ==== Sys2Proof/Machine/Motor.lean ====
section
/-! DEFINITION. One motor channel: duty targets and sync trim (R7, R44, R45), the ramp and the 16-step rule (R8, R9,
R10), entry to RAMP, STOPPING and its end (R6, R22, R23), current readings (R16), and the hand-over (R4, R50). -/

namespace Sys2Proof.Machine

/-! ## Targets (R7, R44, R45, R47) -/

/-- Which line of the target table applies. -/
inductive DutyLine where
  | homing | approach | run
  deriving DecidableEq, Repr

/-- The targets the coordinator supplies at an update, and the sync state that results. -/
structure DutyPlan where
  line     : DutyLine
  sync     : Sync
  leader   : Nat
  follower : Nat
  deriving DecidableEq, Repr

/-- The duty setting of a line, from the leader's fields. -/
def Work.dutyOf (w : Work) (c : ChanId) : DutyLine → Nat
  | .homing => w.motionField 0x0220 c
  | .approach => w.motionField 0x0218 c
  | .run => w.motionField 0x0210 c

/-- The end zone (R15, R17). -/
def Work.endZone (w : Work) (c : ChanId) : Nat := w.motionField 0x0230 c

/-- In the slow zone of a direction (R7). -/
def Work.inSlowZone (w : Work) (c : ChanId) (d : Dir) : Bool :=
  let z : Int := w.motionField 0x0228 c
  match d with
  | .outward => (w.effStroke c : Int) - z ≤ (w.ch c).pos
  | .inward => (w.ch c).pos ≤ z

/-- The motion of a mover, as its channels hold it. -/
def Work.motionOf (w : Work) (m : MoverId) : Option Motion := (w.chansOf m).findSome? fun c => (w.ch c).motion

/-- One motor of the pair has seated and the other goes on (R47). -/
def Mover.seatedOnce (x : Mover) : Bool := (x.run.bind (·.firstSeat)).isSome

/-- The target line of a motion before trim (R7, R44; after a first seat R47). -/
def Work.dutyLine (w : Work) (m : MoverId) (mo : Motion) : DutyLine :=
  match (w.mv m).run.bind (·.firstSeat) with
  | some (c, _) => if mo.profile == .homing || !(w.ch c).known then .homing else .approach
  | none =>
  if !w.known m || mo.profile == .homing then .homing
  else if mo.profile == .learn || (w.chansOf m).any (fun c => (w.learned c).isNone || w.inSlowZone c mo.dir) then
    .approach
  else .run

/-- The trimmed target of the motor that is ahead (R45): `band` and `trim` are the room's fields, `floor` its minimum
duty. -/
def trimTarget (d band trim floor mag : Nat) : Nat := max (d - trim * (mag - band)) (min floor d)

/-- The leader is the motor that is ahead (R45). -/
def leaderAhead (d : Dir) (err : Int) : Bool :=
  match d with
  | .outward => 0 < err
  | .inward => err < 0

/-- The trim of one pair of positions (R45): sync state, leader target, follower target. -/
def trimPair (dir : Dir) (d band trim floor : Nat) (err : Int) : Sync × Nat × Nat :=
  if err.natAbs ≤ band then (.inBand, d, d)
  else if leaderAhead dir err then (.trimLeader, trimTarget d band trim floor err.natAbs, d)
  else (.trimFollower, d, trimTarget d band trim floor err.natAbs)

/-- The sync state at an update at which no trim applies (R45): after a first seat SEATING (R47), or HOMING when an inward
position loss came after it (R51; log 15). -/
def Work.idleSync (w : Work) (m : MoverId) (mo : Motion) : Sync :=
  let x := w.mv m
  if x.seatedOnce then (if x.sync == .homing then .homing else .seating)
  else if mo.profile == .homing || (!w.known m && mo.dir == .inward) then .homing else .off

/-- The plan of one update (log 15). -/
def Work.dutyPlan (w : Work) (m : MoverId) (mo : Motion) : DutyPlan :=
  let x := w.mv m
  let line := w.dutyLine m mo
  match x.leader, x.follower with
  | some a, some b =>
    let d := w.dutyOf a line
    if (w.ch a).driving && (w.ch b).driving && w.known m && mo.profile != .homing then
      let t := trimPair mo.dir d (w.profN (0x0258 + m.val)) (w.profN (0x025C + m.val)) (w.profN (0x0264 + m.val))
        ((w.ch a).pos - (w.ch b).pos)
      { line := line, sync := t.1, leader := t.2.1, follower := t.2.2 }
    else
      { line := line, sync := w.idleSync m mo, leader := d, follower := d }
  | some a, none => let d := w.dutyOf a line; { line := line, sync := .off, leader := d, follower := d }
  | none, _ => { line := line, sync := .off, leader := 0, follower := 0 }

/-! ## The duty (R8, R9, R10) -/

/-- The ramp (R8): `elapsed` of `total`, the quotient truncated toward zero. -/
def rampDutyAt (start target elapsed total : Nat) : Nat :=
  if total ≤ elapsed then target
  else ((start : Int) + (((target : Int) - start) * elapsed).tdiv total).toNat

/-- The 16-step rule (R9). -/
def stepDuty (duty target : Nat) : Nat :=
  if target < duty then max target (duty - 16) else min target (duty + 16)

/-- The phase an update leaves (R10). -/
def DutyLine.phase : DutyLine → Phase
  | .homing => .approach
  | .approach => .approach
  | .run => .run

/-- One update of one channel: its duty and phase. -/
def Channel.update (x : Channel) (line : DutyLine) (target : Nat) (now rampTime : Time) : Channel :=
  match x.motion with
  | none => x
  | some mo =>
    if x.driving then
      if mo.phase = .ramp then
        let elapsed := now - mo.rampStart
        { x with duty := rampDutyAt mo.rampDuty target elapsed rampTime,
                 motion := some (if rampTime ≤ elapsed then { mo with phase := line.phase } else mo) }
      else { x with duty := stepDuty x.duty target, motion := some { mo with phase := line.phase } }
    else x

/-- The bridge that drives a direction (R3). -/
def driveBridge : Dir → Bridge
  | .outward => .driveOut
  | .inward => .driveIn

/-- Entry to RAMP (R8): the start duty, or the target when the start exceeds it; detectors and stall timer cleared. The
channel's 10 ms update period begins here (log 3). -/
def Channel.enterRamp (x : Channel) (start target : Nat) (now : Time) : Channel :=
  match x.motion with
  | none => x
  | some mo =>
    { x with state := .moving, duty := min start target, bridge := driveBridge mo.dir, seat := .between,
             ocRun := 0, osRun := 0, prevCount := none, lastJudge := none, retryEnd := none, dutyAt := some now,
             motion := some { mo with phase := .ramp, rampStart := now, rampDuty := min start target } }

/-! ## Stops (R6, R22, R23) -/

/-- Entry to STOPPING (R22); a motion already in STOPPING stays as it is. -/
def Channel.stopWith (x : Channel) (cause : Cause) (coast : Bool) (now : Time) : Channel :=
  match x.motion with
  | none => x
  | some mo =>
    if x.stopping then x
    else { x with state := .moving, duty := 0, bridge := if coast then .coast else .brake, retryEnd := none,
                  motion := some { mo with phase := .stopping, stopTime := some now, cause := some cause } }

/-- A stop in STARTING ends the motion (R6); cause FAULT comes from RACKED alone. -/
def Channel.endStarting (x : Channel) (cause : Cause) : Channel :=
  let x := { x with motion := none, duty := 0, bridge := .brake, retry := 0 }
  if cause = .fault then { x with state := .faulted, fault := some .racked } else { x with state := .idle }

/-- The end of a motion in STOPPING (R23); a RACKED lock that reached it on its way latches it now (R46). -/
def Channel.endStopping (x : Channel) (cause : Cause) : Channel :=
  let y := { x with motion := none, duty := 0, retry := 0, rackLatch := false }
  if x.rackLatch then { y with state := .faulted, fault := some .racked, bridge := .brake }
  else if cause = .fault then { y with state := .faulted }
  else { y with state := .idle, bridge := .brake }

/-- The earliest end of a motion in STOPPING (R23). -/
def Motion.earliestEnd (mo : Motion) (rest : Time) : Time :=
  max ((mo.stopTime.getD 0) + Config.stopTime) (match mo.lastPulse with | some t => t + rest | none => 0)

/-! ## Currents (R16) -/

/-- The mean of a window, truncated. -/
def mean (l : List Nat) : Nat := l.sum / l.length

/-- A window of the last eight samples. -/
def push8 (l : List Nat) (v : Nat) : List Nat := (l ++ [v]).drop ((l.length + 1) - 8)

/-- One 1 ms sample of a channel's current. -/
def Channel.sampleCurrent (x : Channel) (v : Nat) : Channel :=
  let l := push8 x.window v
  { x with window := l, current := min 1000 (mean l) }

/-- A measured reading, as an operand gives it: the window holds it throughout (log 11). -/
def Channel.withReading (x : Channel) (v : Nat) : Channel :=
  { x with window := List.replicate 8 v, current := min 1000 v }

/-! ## Hand-over (R4, R50) -/

/-- The other channel of a pair. -/
def Mover.partnerOf (x : Mover) (c : ChanId) : Option ChanId :=
  if x.leader = some c then x.follower else x.leader

/-- A channel takes a motion record (R4), whose last pulse time is that of the latest accepted hall edge (Section 1.3,
R23); a homing motion presets an UNKNOWN count to the top of its range (R50). -/
def Channel.handOver (x : Channel) (mo : Motion) (top : Int) : Channel :=
  { x with state := .moving, motion := some { mo with lastPulse := x.lastEdge }, lastDir := mo.dir, retry := 0, retryEnd := none, duty := 0,
           bridge := .brake, ocRun := 0, osRun := 0, prevCount := none, lastJudge := none, reported := [],
           rackLatch := false,
           pos := if mo.profile = .homing ∧ x.known = false then top else x.pos }

/-- Hand every channel of a mover a motion in STARTING and ask for its IN_MOTION checkpoint (R4, R5). At a pair the leader
asks first, then the follower: the model's choice, log 10 (after a reset between the two writes the leader's record alone
reads IN_MOTION). -/
def Work.handOver (w : Work) (m : MoverId) (source : Source) (dir : Dir) (profile : MotionProfile) : Work :=
  let x := w.mv m
  let serial := w.serial + 1
  let w := { w with serial := serial }
  let w := w.setMv m { x with run := some { dir := dir }, dwellEnd := none }
  x.chans.foldl (fun w c =>
    let mo : Motion := { serial := serial, target := m, source := source, dir := dir, profile := profile,
                         partner := if x.paired then x.partnerOf c else none }
    Work.askCheckpoint (w.setCh c ((w.ch c).handOver mo (w.upperLimit c))) c true) w

end Sys2Proof.Machine
end

