-- ==== Sys2Proof/Machine/Movers.lean ====
section
/-! DEFINITION. Rooms and the awning as units: presentation of motions to the Budget Arbiter (R143, R144, R145), the end
of a motion (R49, R56, R130), stop requests and removals (R22, R38, R148), locks (R20, R21, R46, R48), hall counts (R12,
R13, R15) and the stall judgement (R17). -/

namespace Sys2Proof.Machine

/-! ## Presentation (R143..R145) -/

/-- The sum of the admitted draws. -/
def Budget.sum (b : Budget) : Nat := (b.admitted.map (·.draw)).sum

/-- The entries counted against the queue limit: all but automatic retracts (R145). -/
def Budget.counted (b : Budget) : Nat := (b.queue.filter fun q => q.source != .auto).length

/-- The draw of a mover (R143): a pair is charged twice the motor draw. -/
def Work.moverDraw (w : Work) (m : MoverId) : Nat :=
  if m = awn then w.profN 0x0273
  else if (w.mv m).paired then 2 * w.profN 0x0272 else w.profN 0x0272

def Work.fits (w : Work) (draw : Nat) : Bool := draw + w.bud.sum ≤ w.budget

/-- An entry joins the end of the admitted list. -/
def Budget.enlist (b : Budget) (t : Fin 6) (draw : Nat) (now : Time) : Budget :=
  { b with admitted := b.admitted ++ [{ target := t, draw := draw, since := now }] }

/-- The channels of a mover follow the admission queue (R4). -/
def Work.setQueued (w : Work) (m : MoverId) (q : Bool) : Work :=
  (w.chansOf m).foldl (fun w c =>
    let x := w.ch c
    if q then (if x.state = .idle then w.setCh c { x with state := .queued } else w)
    else (if x.state = .queued then w.setCh c { x with state := .idle } else w)) w

/-- The table of R144. The answer is ACCEPTED, QUEUED or QUEUE_FULL. -/
def Work.presentEntry (w : Work) (q : Queued) : Work × Status :=
  if w.bud.queue.isEmpty && w.fits q.draw then ({ w with bud := w.bud.enlist q.target q.draw w.now }, .accepted)
  else if w.bud.counted < w.queueLimit then ({ w with bud := { w.bud with queue := w.bud.queue ++ [q] } }, .queued)
  else (w, .queueFull)

/-- The queue entry of a mover's claim. -/
def Work.moverEntry (w : Work) (m : MoverId) (c : Claim) : Queued :=
  { target := moverTarget m, dir := c.dir, source := c.source, purpose := c.purpose, draw := w.moverDraw m,
    lease := c.lease, since := w.now, waitEnd := w.now + w.maxWait }

/-- The channels of a mover become UNKNOWN and BETWEEN before the first leg of an END_TO_END run (R54). -/
def Work.forgetPosition (w : Work) (m : MoverId) : Work :=
  (w.chansOf m).foldl (fun w c => w.setCh c { w.ch c with known := false, seat := .between }) w

/-- The counts of a mover are brought under the limit in force (R14). -/
def Work.clampMover (w : Work) (m : MoverId) : Work := (w.chansOf m).foldl Work.clampPos w

/-- The first leg of a learning run (R54, R55, R56): the held stroke begins, with its limit (R14), and an END_TO_END run forgets
the position. -/
def Work.beginLearn (w : Work) (m : MoverId) (l : LearnRun) : Work :=
  let w := (w.setMv m { w.mv m with learn := some { l with held := some (heldStroke (w.nominal m)) } }).clampMover m
  match l.method with
  | .endToEnd => w.forgetPosition m
  | .refine => w

/-- The owning unit is told of an admission and hands the motion over (R33, R41, R54, R56, R122, R128). -/
def Work.admitMover (w : Work) (m : MoverId) : Work :=
  match (w.mv m).claim with
  | none => w
  | some c =>
    match (w.mv m).learn with
    | some l =>
      let w := w.beginLearn m l
      w.handOver m c.source l.leg (if l.leg = .inward then .homing else .learn)
    | none => w.handOver m c.source c.dir (if w.known m then .normal else .homing)

/-- A claim that has passed its checks goes to admission (check 9 of R32 and R122). -/
def Work.presentClaim (w : Work) (m : MoverId) (c : Claim) (learn : Option LearnRun) : Work × Reply :=
  let w1 := w.setMv m { w.mv m with claim := some c, learn := learn }
  match w1.presentEntry (w1.moverEntry m c) with
  | (w2, .accepted) => (w2.admitMover m, replyAccepted)
  | (w2, .queued) => (w2.setQueued m true, replyQueued)
  | _ => (w, replyQueueFull)

/-- MOTION_ENDED of a pending retract that is discarded (R130): nothing has moved. -/
def Work.dropRetract (w : Work) (cause : Cause) : Work :=
  let x := w.mv awn
  match x.pendRetract with
  | none => w
  | some _ =>
    (w.setMv awn { x with pendRetract := none, dwellEnd := none }).emit (.motionEnded awn cause (w.leaderPos awn) none)

/-- Place a retract at the head of the admission queue (R145). -/
def Work.queueHead (w : Work) (q : Queued) : Work := { w with bud := { w.bud with queue := q :: w.bud.queue } }

/-- A retract is presented (R128, R145). -/
def Work.presentRetract (w : Work) (p : Purpose) : Work :=
  if w.stowed then w.setMv awn { w.mv awn with pendRetract := none, dwellEnd := none }
  else
    let w := w.setMv awn { w.mv awn with pendRetract := some p }
    if w.fenced awn then w.dropRetract .fenced
    else if w.faulted awn then w.dropRetract .fault
    else if w.inh &&& retractMask p != 0 then w.dropRetract .inhibited
    else
      let c : Claim := { source := .auto, dir := .inward, kind := .retract, purpose := some p }
      let w := w.setMv awn { w.mv awn with pendRetract := none, dwellEnd := none, claim := some c }
      let q := w.moverEntry awn c
      if w.fits q.draw then
        Work.admitMover { w with bud := w.bud.enlist q.target q.draw w.now } awn
      else (w.queueHead q).setQueued awn true

/-! ## Claims that end (R38) -/

/-- The claim becomes absent, and the switch that held it is spent if still held. -/
def Work.endClaim (w : Work) (m : MoverId) : Work :=
  let x := w.mv m
  match x.claim with
  | none => w
  | some c =>
    let x := { x with claim := none }
    if c.source = .panel ∧ c.kind ≠ .oneTouch ∧ (x.switch c.dir).pressed = true then
      w.setMv m (x.setSwitch c.dir { x.switch c.dir with spent := true })
    else w.setMv m x

/-- A learning run ends ABORTED (R57): the LEARN event, and the end of the held stroke (R55; log 24). -/
def Work.abortLearn (w : Work) (m : MoverId) : Work :=
  match (w.mv m).learn with
  | none => w
  | some _ =>
    ((w.setMv m { w.mv m with learn := none }).emit (.learnRoom m .aborted none none)).clampMover m

/-- The first cause other than SEATED that a channel of the room entered STOPPING with (R49). -/
def Work.noteCause (w : Work) (m : MoverId) (cause : Cause) : Work :=
  let x := w.mv m
  match x.run with
  | none => w
  | some r =>
    if cause = .seated then w
    else w.setMv m { x with run := some { r with firstCause := some (r.firstCause.getD cause) } }

/-! ## The end of a motion (R49, R54, R56, R130) -/

/-- The draw of a target leaves the admitted list; the head is judged at the end of the event (R146). -/
def Work.release (w : Work) (t : Fin 6) : Work :=
  { w with bud := { w.bud with admitted := w.bud.admitted.filter fun a => a.target != t }, headDue := true }

/-- What the awning or a room does after MOTION_ENDED: DWELL (R37, R127, R130), or a retract at once. Whether a REVERSED motion is
followed by DWELL was settled at its reversal; the reversal mode in force at its end is not asked for, the model's choice,
log 50. -/
def Work.afterMotion (w : Work) (m : MoverId) (r : Run) : Work :=
  let x := w.mv m
  if m = awn then
    match x.pendRetract, x.pendRev with
    | some p, _ =>
      if r.dir = .outward then w.setMv m { x with dwellEnd := some (w.now + Config.dwell) } else w.presentRetract p
    | none, some _ => w.setMv m { x with dwellEnd := some (w.now + Config.dwell) }
    | none, none => w
  else if r.dwellAfter then w.setMv m { x with dwellEnd := some (w.now + Config.dwell) }
  else w

/-- MOTION_ENDED and the release of the draw (R49, R130). Until then the sync state is the one last given, also in STOPPING
and RETRY_WAIT (log 15). -/
def Work.closeMotion (w : Work) (m : MoverId) (r : Run) (cause : Cause) : Work :=
  let fin := r.leaderEnd.getD (w.leaderPos m, none)
  let w := w.endClaim m
  let x := w.mv m
  let w := w.setMv m { x with run := none, sync := if x.sync = .racked then .racked else .off }
  let w := (w.emit (.motionEnded m cause fin.1 fin.2)).release (moverTarget m)
  w.afterMotion m r

/-- A measured stroke is accepted (R56). -/
def strokeAccepted (nominal : Nat) (s : Int) : Bool :=
  100 ≤ s && s ≤ 20000 && 4 * (nominal : Int) ≤ 5 * s && 5 * s ≤ 6 * (nominal : Int)

/-- Write one learned stroke. -/
def Work.setLearned (w : Work) (c : ChanId) (s : Option Nat) : Work :=
  { w with store := { w.store with learned := { w.store.learned with strokes := w.store.learned.strokes.set c s } } }

/-- The judgement of the measured strokes (R56). -/
def Work.finishLearn (w : Work) (m : MoverId) (l : LearnRun) : Work :=
  let x := w.mv m
  let w := w.setMv m { x with learn := none }
  let ms := [(x.leader, l.leader)] ++ (if x.paired then [(x.follower, l.follower)] else [])
  if ms.all (fun z => match z with | (some _, some s) => strokeAccepted (w.nominal m) s | _ => false) then
    let w := ms.foldl (fun w z => match z with | (some c, some s) => w.setLearned c (some s.toNat) | _ => w) w
    ((w.clampMover m).askLearned).emit (.learnRoom m .learned l.leader l.follower)
  else (w.clampMover m).emit (.learnRoom m .outOfTolerance l.leader l.follower)

/-- The outward leg of an END_TO_END run (R54): no MOTION_ENDED, the draw is kept. The LEARN claim turns outward with its leg
(log 36). -/
def Work.outwardLeg (w : Work) (m : MoverId) (l : LearnRun) : Work :=
  let x := w.mv m
  let w := w.setMv m { x with learn := some { l with leg := .outward },
                              claim := x.claim.map fun c => { c with dir := .outward }, sync := .off }
  w.handOver m .link .outward .learn

/-- Every channel of the mover has ended (log 24). -/
def Work.moverEnd (w : Work) (m : MoverId) : Work :=
  match (w.mv m).run with
  | none => w
  | some r =>
    let cause := r.firstCause.getD .seated
    match (w.mv m).learn with
    | none => w.closeMotion m r cause
    | some l =>
      if cause = .seated then
        if l.leg = .inward then w.outwardLeg m l else (w.closeMotion m r cause).finishLearn m l
      else (w.abortLearn m).closeMotion m r cause

/-- The leader's final count and correction (R49). -/
def Work.recordEnd (w : Work) (c : ChanId) (corr : Option Int) : Work :=
  match w.moverOf c with
  | none => w
  | some m =>
    let x := w.mv m
    match x.run with
    | some r =>
      if x.leader = some c then w.setMv m { x with run := some { r with leaderEnd := some ((w.ch c).pos, corr) } } else w
    | none => w

/-- No channel of the mover holds a motion. -/
def Work.atRest (w : Work) (m : MoverId) : Bool := !w.anyCh m (·.motion.isSome)

/-- End the mover's motion when no channel holds one any more. -/
def Work.endIfAtRest (w : Work) (m : MoverId) : Work := if w.atRest m then w.moverEnd m else w

/-! ## Stop requests (R6, R22, R24, R38, R148) -/

/-- A stop request at one channel. -/
def Work.stopChan (w : Work) (cause : Cause) (c : ChanId) : Work :=
  let x := w.ch c
  if x.starting then
    ((w.setCh c (x.endStarting cause)).recordEnd c none).askCheckpoint c false
  else w.setCh c (x.stopWith cause false w.now)

/-- A stop request at a mover's motion. A learning run ends with it (R57), whatever leg it is in. -/
def Work.stopMover (w : Work) (m : MoverId) (cause : Cause) : Work :=
  let w := if (w.mv m).learn.isSome then (w.abortLearn m).endClaim m else w
  if w.anyCh m Channel.stoppable then
    let w := (w.endClaim m).noteCause m cause
    ((w.chansOf m).foldl (Work.stopChan · cause) w).endIfAtRest m
  else w

/-- An entry leaves the admission queue. -/
def Work.dequeue (w : Work) (t : Fin 6) : Work :=
  { w with bud := { w.bud with queue := w.bud.queue.filter fun q => q.target != t }, headDue := true }

/-- The queued entry of a mover is removed (R148): MOTION_ENDED with the count as it stands. -/
def Work.removeQueued (w : Work) (m : MoverId) (cause : Cause) : Work :=
  if w.isQueued (moverTarget m) then
    let w := ((w.dequeue (moverTarget m)).setQueued m false).abortLearn m
    (w.emit (.motionEnded m cause (w.leaderPos m) none)).endClaim m
  else w

/-- A stop request at whatever the mover holds: its queued entry or its motion. -/
def Work.haltMover (w : Work) (m : MoverId) (cause : Cause) : Work :=
  if w.isQueued (moverTarget m) then w.removeQueued m cause else w.stopMover m cause

/-! ## Locks (R20, R21, R46, R48) -/

/-- The policy of a channel for a lock kind. -/
def Work.policyOf (w : Work) (c : ChanId) (k : LockKind) : Policy :=
  match (w.prof (0x0300 + 8 * k.code + c.val)).toNat with
  | 0 => .latchCoast
  | 1 => .latchBrake
  | 2 => .retry
  | 3 => .reportOnly
  | _ => .ignore

def Work.retryLimit (w : Work) (c : ChanId) : Nat := w.profN (0x0340 + c.val)
def Work.retryWait (w : Work) (c : ChanId) : Time := Config.ms (w.profN (0x0348 + c.val))

/-- The last lock is recorded and a LOCK event raised (R20), with the retry count after the action. -/
def Work.noteLock (w : Work) (c : ChanId) (k : LockKind) (a : Policy) (retry : Nat) : Work :=
  (w.setCh c { w.ch c with lastLock := some (k, a) }).emit (.lock c k a retry)

/-- The coordinator of a pair receives a lock whose action halts the pair, and keeps that action: a latch, a retry, or the stop
that a position loss brings in an OUT motion, under IGNORE too (R28, R48, R51; log 33). A lock that lets the pair drive on halts
nothing, so a later stop of another cause is none of its doing. -/
def Work.receiveLock (w : Work) (m : MoverId) (c : ChanId) (a : Policy) : Work :=
  let x := w.mv m
  match x.run with
  | some r => if x.paired then w.setMv m { x with run := some { r with lock := some (c, a, w.now) } } else w
  | none => w

/-- A motion that a lock suspended or stopped at a moment: in RETRY_WAIT, or in STOPPING from that moment with a cause that a
lock gives, FAULT or POSITION_LOST (R22). No other motion in STOPPING judges (R18). -/
def Channel.haltedAt (x : Channel) (t : Time) : Bool :=
  match x.motion with
  | some mo => x.state == .retryWait ||
      (x.stopping && mo.stopTime == some t && (mo.cause == some .fault || mo.cause == some .positionLost))
  | none => false

/-- The action of the partner's lock of this very moment, which halted the channel (R28; log 33). -/
def Work.partnerLock (w : Work) (c : ChanId) : Option Policy :=
  match w.moverOf c with
  | none => none
  | some m =>
    match (w.mv m).run.bind (·.lock) with
    | some (a, p, t) =>
      if (w.mv m).paired && a != c && t == w.now && (w.ch c).haltedAt w.now then some p else none
    | none => none

/-- The channel's detectors judge: it is not fenced (R18, R25), and drives, or drove until the partner's lock of this very moment
(R28; log 33). -/
def Work.judged (w : Work) (c : ChanId) : Bool :=
  !(w.ch c).fenced && ((w.ch c).driving || (w.partnerLock c).isSome)

/-- Position loss (R21). -/
def Work.losePosition (w : Work) (c : ChanId) : Work :=
  (w.setCh c { w.ch c with known := false, seat := .between }).askCheckpoint c false

/-- A learning run and the claim end with a lock that ends or suspends the motion (R38, R57). -/
def Work.endWork (w : Work) (m : MoverId) : Work := (w.abortLearn m).endClaim m

/-- A latching policy at one channel that still drives (R20, R48). -/
def Work.latchChan (w : Work) (k : LockKind) (coast : Bool) (c : ChanId) : Work :=
  let x := w.ch c
  if x.driving then w.setCh c { x.stopWith .fault coast w.now with fault := some k } else w

/-- A latching policy acts on every channel that still drives (R48). -/
def Work.latchMover (w : Work) (m : MoverId) (k : LockKind) (coast : Bool) : Work :=
  (w.chansOf m).foldl (Work.latchChan · k coast) ((w.endWork m).noteCause m .fault)

/-- RETRY at one channel that still drives (R24). -/
def Channel.suspend (x : Channel) (retry : Nat) (until_ : Time) : Channel :=
  if x.driving then
    { x with state := .retryWait, duty := 0, bridge := .coast, retry := retry, retryEnd := some until_ }
  else x

/-- RETRY acts on every channel that still drives, with the locking channel's new count (R24, R48). Neither rule names the
channel whose retry wait a pair waits: both motors wait the locking channel's, the model's choice, log 44. The claim stays, a
learning run ends (R57). -/
def Work.retryMover (w : Work) (m : MoverId) (c : ChanId) : Work :=
  let n := (w.ch c).retry + 1
  let t := w.now + w.retryWait c
  (w.chansOf m).foldl (fun w d => w.setCh d ((w.ch d).suspend n t)) (w.abortLearn m)

/-- The duty is cut at once to the homing duty (R9, R51; log 15). -/
def Channel.cutDuty (x : Channel) (homing : Nat) : Channel :=
  if x.driving then
    { x with duty := min x.duty homing,
             motion := x.motion.map fun mo => { mo with rampDuty := min mo.rampDuty homing } }
  else x

/-- The motion record of a channel takes the profile HOMING (R51). -/
def Channel.toHoming (x : Channel) : Channel :=
  { x with motion := x.motion.map fun mo => { mo with profile := .homing } }

/-- An IN motion that lost its position is a homing motion from the lock on, whatever the policy that lets it continue: the
motion records of the mover take the profile HOMING and a pair the sync state HOMING, also after a first seat (R21, R51;
log 15). -/
def Work.makeHoming (w : Work) (m : MoverId) : Work :=
  let x := w.mv m
  let w := if x.paired then w.setMv m { x with sync := .homing } else w
  (w.chansOf m).foldl (fun w c => w.setCh c (w.ch c).toHoming) w

/-- An IN motion that lost its position drives on as a homing motion, its duty cut at once (R9, R21, R51). -/
def Work.turnHoming (w : Work) (m : MoverId) : Work :=
  let w := w.makeHoming m
  (w.chansOf m).foldl (fun w c => w.setCh c ((w.ch c).cutDuty (w.dutyOf c .homing))) w

/-- A motion that goes on after a lock under REPORT_ONLY or IGNORE, or ends with POSITION_LOST when an OUT motion has lost its
position (R21, R51). -/
def Work.goOn (w : Work) (m : MoverId) (c : ChanId) (a : Policy) (lossy : Bool) (d : Dir) : Work :=
  if lossy then
    match d with
    | .outward => (w.receiveLock m c a).stopMover m .positionLost
    | .inward => w.turnHoming m
  else w

/-- NO_PULSE and OVERSPEED lose the position (R20). -/
def LockKind.lossy : LockKind → Bool
  | .noPulse => true
  | .overspeed => true
  | _ => false

/-- A lock of a channel in RAMP, RUN or APPROACH by its policy (R20, R21, R48, R51; log 17). Under RETRY a retry count above
the locking channel's N, which R20 does not name, is treated as one equal to N: the model's choice, log 44. The reported kinds are
those that REPORT_ONLY has reported: a kind raised before in the motion under RETRY or IGNORE is reported at its first raise under
REPORT_ONLY, the model's choice, log 49. -/
def Work.actOnLock (w : Work) (m : MoverId) (c : ChanId) (k : LockKind) (d : Dir) : Work :=
  let w := if k.lossy then w.losePosition c else w
  let x := w.ch c
  match w.policyOf c k with
  | .latchCoast => ((w.receiveLock m c .latchCoast).noteLock c k .latchCoast x.retry).latchMover m k true
  | .latchBrake => ((w.receiveLock m c .latchBrake).noteLock c k .latchBrake x.retry).latchMover m k false
  | .retry =>
    if x.retry < w.retryLimit c then
      let w := w.receiveLock m c .retry
      if k.lossy && d == .outward then (w.noteLock c k .retry x.retry).stopMover m .positionLost
      else
        let w := w.noteLock c k .retry (x.retry + 1)
        (if k.lossy then w.makeHoming m else w).retryMover m c
    else ((w.receiveLock m c .latchCoast).noteLock c k .latchCoast x.retry).latchMover m k true
  | .reportOnly =>
    let w := if x.reported.contains k then w
      else (w.setCh c { x with reported := x.reported ++ [k] }).noteLock c k .reportOnly x.retry
    w.goOn m c .reportOnly k.lossy d
  | .ignore => w.goOn m c .ignore k.lossy d

/-- A lock raised on a channel. The second lock of a pair, on a channel that the first one has halted, is recorded with the
first one's action and does nothing more (R28; log 33). -/
def Work.raiseLock (w : Work) (c : ChanId) (k : LockKind) : Work :=
  match w.moverOf c, (w.ch c).motion with
  | some m, some mo =>
    match w.partnerLock c with
    | some a => w.setCh c { w.ch c with lastLock := some (k, a) }
    | none => w.actOnLock m c k mo.dir
  | _, _ => w

/-- RACKED reaches one channel of the pair (R46; log 15). -/
def Work.rackChan (w : Work) (c : ChanId) : Work :=
  let x := w.ch c
  match x.motion with
  | none => if x.state = .faulted then w
            else w.setCh c { x with state := .faulted, fault := some .racked, bridge := .brake }
  | some _ =>
    if x.starting then w.stopChan .fault c
    else if x.stopping then w.setCh c { x with rackLatch := true }
    else (w.setCh c { x.stopWith .fault false w.now with fault := some .racked }).noteLock c .racked .latchBrake x.retry

/-- The RACKED lock on both channels (R46). -/
def Work.rackLock (w : Work) (m : MoverId) : Work :=
  let w := (w.endWork m).noteCause m .fault
  let w := (w.chansOf m).foldl Work.rackChan w
  (w.setMv m { w.mv m with sync := .racked }).endIfAtRest m

/-- The magnitude of the racking error exceeds the rack limit (R46). -/
def Work.rackExceeded (w : Work) (m : MoverId) : Bool :=
  match w.racking m with
  | some e => w.profN (0x0260 + m.val) < e.natAbs
  | none => false

/-- The continuing motor has travelled more than the rack limit since the first seat, in a motion that is no homing
motion (R47); every HOMING profile is exempt, also when the continuing motor is KNOWN (log 15). -/
def Work.seatTravelExceeded (w : Work) (m : MoverId) : Bool :=
  match (w.mv m).run.bind (·.firstSeat) with
  | some (c, p0) =>
    match (w.ch c).motion with
    | some mo =>
      (w.ch c).driving && mo.profile != .homing && (w.ch c).known &&
        decide (w.profN (0x0260 + m.val) < ((w.ch c).pos - p0).natAbs)
    | none => false
  | none => false

/-- The racking judgement at a change of a count (R46, R47). -/
def Work.judgeRack (w : Work) (m : MoverId) : Work :=
  if (w.mv m).paired && w.anyCh m Channel.driving && (w.rackExceeded m || w.seatTravelExceeded m) then w.rackLock m
  else w

/-- Both channels of a pair, or the one of another mover, enter RAMP (R5, R24, R44, R48), unless the pair is racked
(R46). -/
def Work.enterRamp (w : Work) (m : MoverId) (p : Channel → Bool) : Work :=
  if (w.mv m).paired && w.rackExceeded m then w.rackLock m
  else
    match w.motionOf m with
    | none => w
    | some mo =>
      let line := w.dutyLine m mo
      (w.chansOf m).foldl (fun w c =>
        if p (w.ch c) then w.setCh c ((w.ch c).enterRamp (w.motionField 0x0200 c) (w.dutyOf c line) w.now) else w) w

/-! ## Hall counts (R12, R13, R15, R18) -/

/-- The seat state after a count outside any motion (R15). -/
def seatAfterCount (seat : Seat) (pos eff zone : Int) : Seat :=
  match seat with
  | .inSeated => if zone < pos then .between else .inSeated
  | .outSeated => if pos < eff - zone then .between else .outSeated
  | .between => .between

/-- The count within its limits (R12, R13). -/
def countedPos (pos upper : Int) (d : Dir) : Int :=
  match d with
  | .outward => min upper (pos + 1)
  | .inward => max (-64) (pos - 1)

/-- One accepted rising edge at a channel record. The OUT_SEATED test of R15 takes the effective stroke in force, the held
stroke in a learning run, and the end zone of the profile (log 36). -/
def Work.countChan (w : Work) (c : ChanId) : Work :=
  let x := w.ch c
  let live := w.judged c
  let pos := countedPos x.pos (w.upperLimit c) x.lastDir
  let seat := if x.motion.isSome then x.seat else seatAfterCount x.seat pos (w.effStroke c) (w.endZone c)
  let fast := match x.prevCount with | some t => decide (w.now - t < w.minPulse) | none => false
  let run := if live then (if fast then x.osRun + 1 else 0) else x.osRun
  w.setCh c { x with pos := pos, seat := seat, osRun := run,
                     prevCount := if live then some w.now else x.prevCount,
                     lastEdge := some w.now,
                     motion := x.motion.map fun mo => { mo with lastPulse := some w.now } }

/-- RANGE (R13; log 16). -/
def Work.judgeRange (w : Work) (c : ChanId) : Work :=
  let x := w.ch c
  if w.judged c && (x.pos == -64 || x.pos == w.upperLimit c) then w.raiseLock c .range else w

/-- OVERSPEED (R18): the run of 8. -/
def Work.judgeOverspeed (w : Work) (c : ChanId) : Work :=
  let x := w.ch c
  if w.judged c && 8 ≤ x.osRun then (w.setCh c { x with osRun := 0 }).raiseLock c .overspeed else w

/-- One hall count: the count, then RANGE, OVERSPEED and RACKED while the channel still drives (log 10). -/
def Work.hallCount (w : Work) (c : ChanId) : Work :=
  match w.moverOf c with
  | none => w
  | some m =>
    if (w.ch c).used then (((w.countChan c).judgeRange c).judgeOverspeed c).judgeRack m else w

/-! ## Seats (R17, R38, R47) -/

/-- What the seat of one channel does to its mover: another channel that drives goes on alone, or the claim ends. -/
def Work.afterSeat (w : Work) (m : MoverId) : Work :=
  let x := w.mv m
  match (w.chansOf m).find? fun d => (w.ch d).driving with
  | some d =>
    match x.run with
    | some r => w.setMv m { x with run := some { r with firstSeat := some (d, (w.ch d).pos) }, sync := .seating }
    | none => w
  | none =>
    match x.learn with
    | some l => if l.leg = .inward then w else w.endClaim m
    | none => w.endClaim m

/-- Seat IN (R17). -/
def Work.seatIn (w : Work) (m : MoverId) (c : ChanId) : Work :=
  let x := w.ch c
  let y := { x with pos := 0, known := true, seat := .inSeated,
                    motion := x.motion.map fun mo => { mo with correction := some x.pos } }
  let w := (w.setCh c y).askCheckpoint c false
  ((w.setCh c ((w.ch c).stopWith .seated false w.now)).afterSeat m).judgeRack m

/-- The measured stroke of a learning run is the count at the seat OUT (R54). -/
def Work.measure (w : Work) (m : MoverId) (c : ChanId) : Work :=
  let x := w.mv m
  match x.learn with
  | none => w
  | some l =>
    if x.leader = some c then w.setMv m { x with learn := some { l with leader := some (w.ch c).pos } }
    else w.setMv m { x with learn := some { l with follower := some (w.ch c).pos } }

/-- Seat OUT (R17). -/
def Work.seatOut (w : Work) (m : MoverId) (c : ChanId) : Work :=
  let w := w.measure m c
  let x := w.ch c
  (w.setCh c ({ x with seat := .outSeated }.stopWith .seated false w.now)).afterSeat m

/-- The results of a stall judgement (R17). -/
inductive StallResult where
  | seatIn | seatOut | lock (k : LockKind)
  deriving DecidableEq, Repr

/-- The table of R17. -/
def stallResult (current stall openLoad : Nat) (d : Dir) (known held : Bool) (pos eff zoneIn zoneOut : Int) : StallResult :=
  if stall ≤ current then
    match d with
    | .inward => if known = false ∨ pos ≤ zoneIn then .seatIn else .lock .obstruction
    | .outward => if held = true ∨ eff - zoneOut ≤ pos then .seatOut else .lock .obstruction
  else if current < openLoad then .lock .openLoad
  else .lock .noPulse

/-- A stall judgement of a channel that drives (R17); a channel that the partner's lock has halted can only lock (R28). -/
def Work.judgeStall (w : Work) (m : MoverId) (c : ChanId) (mo : Motion) : Work :=
  let x := w.ch c
  let zone : Int := w.endZone c
  let zoneOut := if (w.learned c).isNone then 2 * zone else zone
  let held := ((w.mv m).learn.bind (·.held)).isSome
  let w := w.setCh c { x with lastJudge := some w.now }
  match stallResult x.current (w.motionField 0x0238 c) (w.motionField 0x0240 c) mo.dir x.known held x.pos
      (w.effStroke c) zone zoneOut with
  | .seatIn => if x.driving then w.seatIn m c else w
  | .seatOut => if x.driving then w.seatOut m c else w
  | .lock k => w.raiseLock c k

/-- The earliest stall judgement of a channel (R17). -/
def Work.stallDue (w : Work) (x : Channel) (mo : Motion) : Time :=
  max (max (mo.rampStart + w.startGrace) ((max mo.rampStart (mo.lastPulse.getD 0)) + w.stallWindow))
    (match x.lastJudge with | some t => t + w.stallWindow | none => 0)

/-- A stall judgement may be made on a channel: it drives with some duty, or the partner's lock has halted it at this moment,
at which its own judgement was due (R17, R28; log 33). -/
def Work.stallJudged (w : Work) (c : ChanId) (mo : Motion) : Bool :=
  let x := w.ch c
  !x.fenced && if x.driving then decide (0 < x.duty) else (w.partnerLock c).isSome && decide (w.stallDue x mo ≤ w.now)

/-- OVERCURRENT (R18): two consecutive readings at or above the trip current. -/
def Work.judgeOvercurrent (w : Work) (c : ChanId) : Work :=
  let x := w.ch c
  if w.judged c then
    if w.motionField 0x0248 c ≤ x.current then
      if 2 ≤ x.ocRun + 1 then (w.setCh c { x with ocRun := 0 }).raiseLock c .overcurrent
      else w.setCh c { x with ocRun := x.ocRun + 1 }
    else w.setCh c { x with ocRun := 0 }
  else w

/-! ## The end of STOPPING, of STARTING and of a retry wait -/

/-- A channel's motion in STOPPING ends (R23). -/
def Work.endChan (w : Work) (m : MoverId) (c : ChanId) (mo : Motion) : Work :=
  let x := w.ch c
  let w := (w.setCh c (x.endStopping (mo.cause.getD .stopped))).recordEnd c mo.correction
  (w.askCheckpoint c false).endIfAtRest m

/-- Every channel of the mover that starts has its IN_MOTION checkpoint written (R5). -/
def Work.allWritten (w : Work) (m : MoverId) : Bool :=
  w.allCh m fun x => match x.motion with | some mo => !x.starting || mo.written | none => true

/-- The store reports an IN_MOTION checkpoint written (R5); a report whose motion has ended is disregarded (R6). -/
def Work.reportWritten (w : Work) (c : ChanId) (serial : Option Nat) : Work :=
  let x := w.ch c
  match w.moverOf c, x.motion, serial with
  | some m, some mo, some n =>
    if x.starting && mo.serial == n then
      let w := w.setCh c { x with motion := some { mo with written := true } }
      if w.allWritten m then w.enterRamp m Channel.starting else w
    else w
  | _, _, _ => w

/-- The claim is still alive at the end of a retry wait, or the cause with which the motion ends (R24, R57; log 25). -/
def Work.aliveCause (w : Work) (m : MoverId) : Option Cause :=
  match (w.mv m).claim with
  | none => some .stopped
  | some c =>
    match c.kind with
    | .learn => some .stopped
    | .oneTouch => none
    | .retract => none
    | _ =>
      match c.source with
      | .panel => if ((w.mv m).switch c.dir).pressed then none else some .released
      | _ => match c.lease with
        | some t => if w.now < t then none else some .leaseExpired
        | none => none

/-- A retry wait ends (R24, R48). -/
def Work.endRetry (w : Work) (m : MoverId) : Work :=
  match w.aliveCause m with
  | none => w.enterRamp m (fun x => x.state == .retryWait)
  | some cause => w.stopMover m cause

end Sys2Proof.Machine
end

