-- ==== Sys2Proof/Machine/Circuit.lean ====
section
/-! DEFINITION. The hydraulic circuit and what it serves: pump (R61, R63), the end of an activity (R66), jack faults and
fences (R74, R82), the phases of the levelling procedure (R105..R117), the pump start (R61, R78, R80), presentation and
admission of pump runs (R65), and the judgement of the admission queue's head (R146). -/

namespace Sys2Proof.Machine

/-! ## The pump (R61) -/

def Work.restTime (w : Work) : Time := Config.sec (w.profN 0x0401)

/-- A pump stop (R61). The overrun of R63 enters REST, whose end the rest time in force at the entry fixes (log 37). -/
def Work.pumpStop (w : Work) (toRest : Bool) : Work :=
  let h := w.hyd
  match h.pump with
  | .running =>
    let h := { h with runHeld := w.now - h.runStart.getD w.now, runStart := none }
    let h := if toRest then { h with pump := .rest, restEnd := some (w.now + w.restTime) }
      else { h with pump := .dwell, dwellEnd := some (w.now + Config.pumpDwell) }
    Work.release { w with hyd := h } hydTarget
  | .dwell =>
    if h.pendingStart then Work.release { w with hyd := { h with pendingStart := false } } hydTarget else w
  | _ => w

/-- An activity ends (R66): pump stop, its queued entry removed, the last kind and outcome, HYDRAULIC_ENDED for MANUAL
and STOW. -/
def Work.endActivity (w : Work) (outcome : EndOutcome) (toRest : Bool) : Work :=
  match w.hyd.activity with
  | none => w
  | some a =>
    let w := w.pumpStop toRest
    let w := if w.isQueued hydTarget then w.dequeue hydTarget else w
    let w := { w with hyd := { w.hyd with activity := none, lastKind := some a.kind, lastOutcome := outcome } }
    match a.kind with
    | .level => w
    | k => w.emit (.hydraulicEnded k outcome)

/-- Replace the jack set and the open set of the activity. -/
def Work.setJacks (w : Work) (jackSet openSet : JackSet) : Work :=
  { w with hyd := { w.hyd with activity := w.hyd.activity.map fun a =>
      { a with jackSet := jackSet, openSet := openSet } } }

/-- The open set becomes the named set less any jack outside the jack set (R75). -/
def Work.setOpen (w : Work) (s : JackSet) : Work :=
  { w with hyd := { w.hyd with activity := w.hyd.activity.map fun a => { a with openSet := s.inter a.jackSet } } }

/-- The phase of the activity. -/
def Work.setActPhase (w : Work) (p : ActPhase) : Work :=
  let act : Option HydActivity := w.hyd.activity.map fun (a : HydActivity) => { a with phase := p }
  { w with hyd := { w.hyd with activity := act } }

/-- The jack set of the activity. -/
def Work.actJacks (w : Work) : JackSet :=
  match w.hyd.activity with
  | some a => a.jackSet
  | none => noJacks

/-! ## The levelling procedure (R105..R117) -/

def Work.setLvl (w : Work) (l : Level) : Work := { w with lvl := l }

/-- A procedure ends (R114). -/
def Work.endLevel (w : Work) (outcome : EndOutcome) (toRest : Bool) : Work :=
  if w.lvl.phase = .idle then w
  else
    let w := w.endActivity outcome toRest
    let l := w.lvl
    let w := w.setLvl { l with phase := .idle, liftSet := noJacks, deadline := none, settleTest := none,
                               pendFlag := none, lastOutcome := outcome,
                               levelHeld := outcome == .level, drift := if outcome = .level then 0 else l.drift }
    w.emit (.levelEnded l.mode outcome l.pass w.tilt.p w.tilt.q)

/-- A change of phase to a value other than IDLE raises LEVEL_PHASE (R105). -/
def Work.enterPhase (w : Work) (l : Level) : Work :=
  (w.setLvl l).emit (.levelPhase l.phase l.mode l.pass)

/-- The jacks of the set whose grounded flag is clear. -/
def Work.ungrounded (w : Work) : JackSet := jacksWhere fun j => w.actJacks.has j && !(w.jk j).grounded

/-- Every jack of the set is grounded. -/
def Work.allGrounded (w : Work) : Bool := w.ungrounded.isEmpty

def Work.touchdownTime (w : Work) : Time := Config.sec (w.profN 0x0423)
def Work.levellingTime (w : Work) : Time := Config.sec (w.profN 0x0424)
def Work.stabilizeTime (w : Work) : Time := Config.sec (w.profN 0x0425)
def Work.settleTime (w : Work) : Time := Config.sec (w.profN 0x0426)
def Work.passLimit (w : Work) : Nat := w.profN 0x0427

/-- SETTLING (R106, R110, R111, R113): the pump stops and the wait begins. -/
def Work.enterSettling (w : Work) : Work :=
  let w := (w.pumpStop false).setOpen noJacks
  let w := w.setActPhase .idlePump
  w.enterPhase { w.lvl with phase := .settling, settleTest := some .waiting, deadline := some (w.now + w.settleTime) }

/-- STABILIZE (R110), which may end at its entry. -/
def Work.enterStabilize (w : Work) (flag : Option PendFlag) : Work :=
  let w := w.enterPhase { w.lvl with phase := .stabilize, pendFlag := flag, liftSet := noJacks,
                                     deadline := some (w.now + w.stabilizeTime) }
  let w := w.setOpen w.ungrounded
  if w.allGrounded then w.enterSettling else w

/-- LEVELLING (R108). -/
def Work.enterLevelling (w : Work) (pass : Nat) : Work :=
  let w := w.enterPhase { w.lvl with phase := .levelling, pass := pass, levelRun := 0, limitMark := false,
                                     liftSet := noJacks, deadline := some (w.now + w.levellingTime) }
  w.setOpen noJacks

/-- TOUCHDOWN and STABILIZE end when every jack of the set is grounded (R106, R110). -/
def Work.checkGrounded (w : Work) : Work :=
  if w.allGrounded then
    match w.lvl.phase, w.lvl.mode with
    | .touchdown, some .ground => w.enterSettling
    | .touchdown, _ => w.enterLevelling 1
    | .stabilize, _ => w.enterSettling
    | _, _ => w
  else w

/-- The open set follows the grounded flags in TOUCHDOWN and STABILIZE (R106, R110). -/
def Work.followGround (w : Work) : Work :=
  if w.lvl.phase = .touchdown ∨ w.lvl.phase = .stabilize then (w.setOpen w.ungrounded).checkGrounded else w

/-- TOUCHDOWN (R106), which may end at its entry. -/
def Work.enterTouchdown (w : Work) : Work :=
  (w.enterPhase { w.lvl with phase := .touchdown, deadline := some (w.now + w.touchdownTime) }).followGround

/-- The lift set as the open set (R96, R97). -/
def Work.setLift (w : Work) (s : JackSet) : Work := (w.setLvl { w.lvl with liftSet := s }).setOpen s

/-- A jack leaves the lift set between tilt samples (R97); the set it empties ends the phase (R109). -/
def Work.leaveLift (w : Work) (j : JackId) : Work :=
  if w.lvl.phase = .levelling ∧ w.lvl.liftSet.has j = true then
    let w := w.setLift (w.lvl.liftSet.without j)
    if w.lvl.liftSet.isEmpty then w.enterStabilize (if w.lvl.limitMark then some .range else none) else w
  else w

/-- The watch over the result of levelling ends because jacks move (R119). -/
def Work.jacksMove (w : Work) : Work :=
  if w.lvl.levelHeld then
    (w.setLvl { w.lvl with levelHeld := false }).emit (.levelLost true w.tilt.p w.tilt.q)
  else w

/-! ## Jacks leaving an activity (R74, R78, R80, R82) -/

/-- The outcome of a stow at its end (R80). -/
def Work.stowOutcome (w : Work) : EndOutcome := if w.allRetracted then .stowed else .incomplete

/-- The work of a MANUAL or STOW activity is complete (R78, R80). -/
def Work.checkWork (w : Work) : Work :=
  match w.hyd.activity with
  | none => w
  | some a =>
    match a.kind with
    | .level => w
    | .manual => if a.jackSet.isEmpty then w.endActivity .complete false else w
    | .stow =>
      if allJacks.all fun j => !a.jackSet.has j || (w.jk j).retracted && !w.valve j then
        w.endActivity w.stowOutcome false
      else w

/-- A jack leaves the jack set and the open set of the activity. -/
def Work.dropJack (w : Work) (j : JackId) : Work :=
  match w.hyd.activity with
  | none => w
  | some a => w.setJacks (a.jackSet.without j) (a.openSet.without j)

/-- A fault kind is given to a jack, with its JACK event (R74); a FAULTED jack keeps its first fault. -/
def Work.giveFault (w : Work) (j : JackId) (k : JackFault) : Work :=
  if (w.jk j).fault.isSome then w
  else ((w.setJk j { w.jk j with fault := some k }).dropJack j).emit (.jack j k)

/-- A jack takes a fault and the activity it leaves acts on it (R74, R78, R80, R117); one outside the jack set leaves the lift
set (R97). -/
def Work.faultJack (w : Work) (j : JackId) (k : JackFault) : Work :=
  if (w.jk j).fault.isSome then w
  else
    let member := w.actJacks.has j
    let w := w.giveFault j k
    if w.lvl.phase ≠ .idle then (if member then w.endLevel .jackFault false else w.leaveLift j) else w.checkWork

/-- A fence is set on a jack (R82, R97, R117). Counting stops with the count at 0, from which it starts after FENCE_CLEAR
(log 37). -/
def Work.fenceJack (w : Work) (j : JackId) : Work :=
  let member := w.actJacks.has j
  let x := w.jk j
  let w := (w.setJk j { x with fenced := true, outOfRange := 0 }).dropJack j
  if w.lvl.phase ≠ .idle then
    if member then
      if w.actJacks.size < 3 then w.endLevel .cancelled false
      else (w.leaveLift j).followGround
    else w.leaveLift j
  else if member then w.checkWork else w

/-! ## Pump start and admission (R61, R65, R78, R80, R105, R146) -/

/-- What the activity does at its pump start: LEVEL leaves WAITING; MANUAL and STOW drop the jacks already at their stop
before the valves open. -/
def Work.atPumpStart (w : Work) (a : HydActivity) : Work :=
  match a.kind with
  | .level => if w.lvl.pass = 0 then w.enterTouchdown else w.enterLevelling w.lvl.pass
  | .manual =>
    let left := jacksWhere fun j => a.jackSet.has j &&
      !(match a.dir with | .outward => (w.jk j).atLimit | .inward => (w.jk j).retracted)
    ((w.jacksMove).setJacks left left).checkWork
  | .stow =>
    let left := jacksWhere fun j => a.jackSet.has j && !(w.jk j).retracted
    ((w.jacksMove).setJacks a.jackSet left).checkWork

/-- A start taken in OFF (R61). -/
def Work.pumpRun (w : Work) : Work :=
  match w.hyd.activity with
  | none => { w with hyd := { w.hyd with pendingStart := false } }
  | some a =>
    let a := { a with start := some w.now, phase := .running }
    let w := { w with hyd := { w.hyd with pump := .running, pdir := a.dir, runStart := some w.now, runHeld := 0,
                                          pendingStart := false, activity := some a } }
    w.atPumpStart a

/-- The activity's run is admitted: phase RUNNING, and the start of R61, pending while the pump is not OFF. -/
def Work.admitPump (w : Work) : Work :=
  let w := w.setActPhase .running
  match w.hyd.pump with
  | .off => w.pumpRun
  | _ => { w with hyd := { w.hyd with pendingStart := true } }

/-- The queue entry of a pump run (R65, R143). -/
def Work.pumpEntry (w : Work) (a : HydActivity) : Queued :=
  { target := hydTarget, dir := a.dir, source := .link, draw := w.profN 0x0274, lease := a.lease, since := w.now,
    waitEnd := w.now + w.maxWait }

/-- The run of the activity is presented for admission (R65). -/
def Work.presentPump (w : Work) : Work × Status :=
  match w.hyd.activity with
  | none => (w, .queueFull)
  | some a =>
    let w := { w with hyd := { w.hyd with activity := some { a with phase := .waiting } } }
    match w.presentEntry (w.pumpEntry a) with
    | (w2, .accepted) => (w2.admitPump, .accepted)
    | r => r

/-- The owning unit of a target is told of its admission (R146). -/
def Work.admitTarget (w : Work) (t : Fin 6) : Work :=
  if h : t.val < 5 then w.admitMover ⟨t.val, h⟩ else w.admitPump

/-- The head leaves the queue and joins the admitted list. -/
def Work.admitHead (w : Work) (q : Queued) (rest : List Queued) : Work :=
  Work.admitTarget { w with bud := { w.bud with queue := rest }.enlist q.target q.draw w.now } q.target

/-- Admission from the head (R146), again while the new head fits; each admission takes one entry of the at most eight
and none is added. -/
def Work.admitHeads : Nat → Work → Work
  | 0, w => w
  | n + 1, w =>
    match w.bud.queue with
    | [] => w
    | q :: rest => if w.fits q.draw then (w.admitHead q rest).admitHeads n else w

/-- The head is judged when a release, a removal or a new budget asks for it. -/
def Work.judgeHead (w : Work) : Work :=
  if w.headDue then { (Work.admitHeads 16 w) with headDue := false } else w

end Sys2Proof.Machine
end

