-- ==== Sys2Proof/Machine/Sensing.lean ====
section
/-! DEFINITION. What samples do: pressure switches (R68, R70), strokes (R71, R72, R73), the tilt filter and zero learning
(R87, R88, R89, R92), corner heights, demands, lift set, twist and level run (R94..R99), the steps of a tilt sample
(R108, R109, R111, R112, R118). -/

namespace Sys2Proof.Machine

/-! ## Pressure switches (R68, R70) -/

/-- One read at a jack record: settling at four agreeing reads, afterwards a change at four reads against the flag. -/
def Jack.read (x : Jack) (level : Bool) : Jack :=
  let x' := { x with latestRead := level }
  if x.groundSettled then
    if level = x.grounded then { x' with groundRun := 0 }
    else if 4 ≤ x.groundRun + 1 then { x' with grounded := level, groundRun := 0 }
    else { x' with groundRun := x.groundRun + 1 }
  else
    let run := if x.groundRun = 0 ∨ level ≠ x.latestRead then 1 else x.groundRun + 1
    if 4 ≤ run then { x' with grounded := level, groundSettled := true, groundRun := 0 }
    else { x' with groundRun := run }

/-- One read of a present jack's switch; a change is followed by the procedure (R106, R110). -/
def Work.readSwitch (w : Work) (j : JackId) (level : Bool) : Work :=
  if w.jackPresent j then
    let before := (w.jk j).grounded
    let w := w.setJk j ((w.jk j).read level)
    if (w.jk j).grounded = before then w else w.followGround
  else w

/-! ## Strokes (R71..R73) -/

def strokeInRange (raw : Nat) : Bool := 32 ≤ raw && raw ≤ 4063

/-- Conversion (R71): truncated toward zero, clamped to 0..400. -/
def strokeOf (raw : Nat) (zero scale : Int) : Nat := (max 0 (min 400 ((((raw : Int) - zero) * scale).tdiv 256))).toNat

/-- An in-range sample at a jack record. The stroke of a jack FAULTED with STROKE_SENSOR stays not valid, also when the jack is
fenced (R72; log 37). -/
def Jack.inSample (x : Jack) (stroke threshold limit : Nat) (now : Time) : Jack :=
  let valid := x.fault != some .strokeSensor
  let low := valid && stroke ≤ threshold
  let run := if low then min Config.retractSamples (x.lowRun + 1) else 0
  let n := min Config.retractSamples (x.samples + 1)
  { x with stroke := stroke, valid := valid, outOfRange := 0, strokeSettled := true,
           lowRun := run, retracted := low && (x.retracted || run == Config.retractSamples),
           atLimit := if valid then decide (limit ≤ stroke + 5) else x.atLimit,
           samples := n, retractSettled := x.retractSettled || n == Config.retractSamples, sampleAt := some now }

/-- An out-of-range sample at a jack record; a fenced jack and one FAULTED with STROKE_SENSOR count nothing. -/
def Jack.outSample (x : Jack) (now : Time) : Jack :=
  let n := min Config.retractSamples (x.samples + 1)
  let x' := { x with lowRun := 0, retracted := false, samples := n,
                     retractSettled := x.retractSettled || n == Config.retractSamples, sampleAt := some now }
  if x.fenced then { x' with valid := false }
  else if x.fault = some .strokeSensor then x'
  else { x' with outOfRange := min 3 (x.outOfRange + 1) }

/-- AT_LIMIT becomes set (R78, R97, R107, R110). TOUCHDOWN and STABILIZE judge it at this change alone; a jack whose AT_LIMIT
stands when it joins the open set ungrounded waits for the deadline: the model's choice, log 45. -/
def Work.atLimitSet (w : Work) (j : JackId) : Work :=
  match w.hyd.activity with
  | none => w
  | some a =>
    match a.kind with
    | .manual =>
      if a.dir = .outward ∧ a.phase = .running ∧ a.jackSet.has j = true then (w.dropJack j).checkWork else w
    | .stow => w
    | .level =>
      match w.lvl.phase with
      | .levelling =>
        if w.lvl.liftSet.has j then (w.setLvl { w.lvl with limitMark := true }).leaveLift j else w
      | .touchdown => if a.jackSet.has j && !(w.jk j).grounded then w.faultJack j .noGround else w
      | .stabilize => if a.jackSet.has j && !(w.jk j).grounded then w.faultJack j .noGround else w
      | _ => w

/-- The retracted indicator becomes true (R78, R80). -/
def Work.retractedSet (w : Work) (j : JackId) : Work :=
  match w.hyd.activity with
  | none => w
  | some a =>
    match a.kind with
    | .manual =>
      if a.dir = .inward ∧ a.phase = .running ∧ a.jackSet.has j = true then (w.dropJack j).checkWork else w
    | .stow => (if a.start.isSome then w.setOpen (a.openSet.without j) else w).checkWork
    | .level => w

/-- STROKE_SENSOR at the third consecutive out-of-range sample (R72); a jack whose first three samples are out of range is
settled so (R68). The stroke of a jack FAULTED with another kind becomes not valid too (log 37). -/
def Work.judgeStrokeSensor (w : Work) (j : JackId) : Work :=
  let x := w.jk j
  if 3 ≤ x.outOfRange && x.fault.isNone then
    let settle := !x.strokeSettled
    let w := w.setJk j { x with valid := false, outOfRange := 0, strokeSettled := true,
                                retractSettled := x.retractSettled || settle }
    w.faultJack j .strokeSensor
  else if 3 ≤ x.outOfRange then w.setJk j { x with valid := false }
  else w

/-- One stroke sample of a present jack. -/
def Work.sampleStroke (w : Work) (j : JackId) (raw : Nat) : Work :=
  if w.jackPresent j then
    let x := w.jk j
    if strokeInRange raw then
      let w := w.setJk j (x.inSample (strokeOf raw (w.prof (0x0408 + j.val)) (w.prof (0x0410 + j.val)))
        (w.profN 0x0403) (w.profN 0x0404) w.now)
      let y := w.jk j
      let w := if y.atLimit && !x.atLimit then w.atLimitSet j else w
      if y.retracted && !x.retracted then w.retractedSet j else w
    else (w.setJk j (x.outSample w.now)).judgeStrokeSensor j
  else w

/-! ## Corner heights, demands, lift set, level test, twist (R94..R99) -/

/-- Divided by 100 and rounded to the nearest integer, ties away from zero (R94). -/
def roundHundred (v : Int) : Int := if 0 ≤ v then (v + 50).tdiv 100 else (v - 50).tdiv 100

/-- The corner height of a jack at (x, y) cm (R94). -/
def cornerHeight (x y p q : Int) : Int := roundHundred (x * p + y * q)

/-- The heights of the present unfenced jacks (R94). -/
def Work.computeHeights (w : Work) : Vector (Option Int) 6 :=
  Vector.ofFn fun j : JackId =>
    if w.jackPresent j && !(w.jk j).fenced then
      some (cornerHeight (w.coach (0x0130 + j.val)) (w.coach (0x0138 + j.val)) w.tilt.p w.tilt.q)
    else none

/-- The greatest height (R95). -/
def topHeight (hs : Vector (Option Int) 6) : Option Int :=
  allJacks.foldl (fun t j => match t, hs[j] with
    | some a, some b => some (max a b)
    | none, h => h
    | t, none => t) none

/-- The demands (R95). -/
def demandsOf (hs : Vector (Option Int) 6) : Vector (Option Nat) 6 :=
  match topHeight hs with
  | none => Vector.replicate 6 none
  | some top => hs.map fun h => h.map fun v => min 9999 (top - v).toNat

/-- Membership of one jack in the lift set after a tilt sample (R96). -/
def liftMember (member : Bool) (demand : Option Nat) (deadband : Nat) (atLimit faulted : Bool) : Bool :=
  match demand with
  | none => false
  | some d => if member then deadband / 2 < d else deadband < d && !atLimit && !faulted

/-- The lift set after a tilt sample (R96). -/
def Work.nextLift (w : Work) : JackSet :=
  jacksWhere fun j => liftMember (w.lvl.liftSet.has j) w.lvl.demands[j] w.deadband (w.jk j).atLimit (w.jk j).fault.isSome

/-- A level sample (R98). -/
def isLevel (p q : Int) (tol : Nat) : Bool := p.natAbs ≤ tol && q.natAbs ≤ tol

/-- The twist, when the four corner strokes are valid (R99). -/
def Work.computeTwist (w : Work) : Option Int :=
  if (w.jk 0).valid && (w.jk 1).valid && (w.jk 2).valid && (w.jk 3).valid then
    some (((w.jk 0).stroke : Int) + (w.jk 3).stroke - ((w.jk 1).stroke + (w.jk 2).stroke))
  else none

/-- The twist and its limit (R99). -/
def Work.withTwist (w : Work) : Work :=
  let t := w.computeTwist
  w.setLvl { w.lvl with twist := t, twistOver := match t with | some v => decide (w.profN 0x0422 < v.natAbs) | none => false }

/-! ## The procedure at a tilt sample (R108, R109, R111, R112, R118) -/

/-- A further pass (R112; log 26). -/
def Work.furtherPass (w : Work) : Work :=
  let l := w.lvl
  let w := w.enterPhase { l with phase := .waiting, pass := l.pass + 1, settleTest := none, pendFlag := none, deadline := none }
  w.presentPump.1

/-- The end of LEVELLING at a tilt sample (R109). -/
def Work.judgeLevelling (w : Work) : Work :=
  let l := w.lvl
  if l.twistOver then w.enterStabilize (some .twist)
  else if 5 ≤ l.levelRun then w.enterStabilize none
  else if l.liftSet.isEmpty then w.enterStabilize (if l.limitMark then some .range else none)
  else w

/-- The level test of SETTLING at a tilt sample (R111). -/
def Work.judgeSettling (w : Work) (level : Bool) : Work :=
  if level then (if 5 ≤ w.lvl.levelRun then w.endLevel .level false else w)
  else if w.lvl.pass < w.passLimit then w.furtherPass
  else w.endLevel .notLevel false

/-- The level watch (R118). -/
def Work.levelWatch (w : Work) : Work :=
  let l := w.lvl
  if l.levelHeld then
    if isLevel w.tilt.p w.tilt.q (3 * w.tolerance) then w.setLvl { l with drift := 0 }
    else if 50 ≤ l.drift + 1 then
      (w.setLvl { l with levelHeld := false, drift := 0 }).emit (.levelLost false w.tilt.p w.tilt.q)
    else w.setLvl { l with drift := l.drift + 1 }
  else w

/-- A tilt sample at the Levelling Engine (R108). Level run and twist follow each sample (R98, R99), also the one that a LEVELLING
deadline taken first leaves behind, which by R109 does no more than compute heights and demands: the model's choice between those
rules, log 51. -/
def Work.tiltSample (w : Work) : Work :=
  let hs := w.computeHeights
  let w := w.setLvl { w.lvl with heights := hs, demands := demandsOf hs }
  let lifting := w.lvl.phase == .levelling
  let w := if lifting then w.setLift w.nextLift else w
  let w := w.withTwist
  let level := isLevel w.tilt.p w.tilt.q w.tolerance
  let w := w.levelWatch
  let w := w.setLvl { w.lvl with levelRun := if level then min 255 (w.lvl.levelRun + 1) else 0 }
  if lifting then w.judgeLevelling
  else if w.lvl.phase = .settling ∧ w.lvl.settleTest = some .judging then w.judgeSettling level
  else w

/-! ## The Tilt Filter (R87, R88, R89, R92, R93) -/

def railSum (s : Nat) : Bool := s < 128 || 32632 < s

/-- Conversion of a block sum (R89). -/
def tiltOf (s : Nat) (gain : Int) : Int := (((s : Int) - 16384) * gain).tdiv 256

def clampTilt (v : Int) : Int := max (-2600) (min 2600 v)

/-- The zero offsets in force: 0 when absent (R85). -/
def Work.zero (w : Work) : Int × Int := w.store.learned.zero.getD (0, 0)

def railNext (s : Nat) (run : Nat) : Nat := if railSum s then min 3 (run + 1) else 0

/-- A zero learning run ends ABORTED (R93). -/
def Work.abortZero (w : Work) : Work :=
  match w.tilt.zeroRun with
  | none => w
  | some _ => { w with tilt := { w.tilt with zeroRun := none } }.emit (.learnTilt .aborted none none)

/-- One sample of a zero learning run (R92). -/
def Work.zeroSample (w : Work) : Work :=
  match w.tilt.zeroRun with
  | none => w
  | some z =>
    let z := { count := z.count + 1, sumX := z.sumX + w.tilt.tx, sumY := z.sumY + w.tilt.ty : ZeroRun }
    if z.count < 25 then { w with tilt := { w.tilt with zeroRun := some z } }
    else
      let a := z.sumX.tdiv 25
      let b := z.sumY.tdiv 25
      let w := { w with tilt := { w.tilt with zeroRun := none } }
      if 600 < a.natAbs ∨ 600 < b.natAbs then w.emit (.learnTilt .outOfTolerance (some a) (some b))
      else
        let w := { w with store := { w.store with learned := { w.store.learned with zero := some (a, b) } } }
        (w.askLearned).emit (.learnTilt .learned (some a) (some b))

/-- TILT_FAULT becomes set (R88). -/
def Work.setTiltFault (w : Work) : Work :=
  let w := { w with tilt := { w.tilt with fault := true } }
  ((w.setLvl { w.lvl with levelRun := 0 }).endLevel .tiltFault false).abortZero

/-- The conversion of a good filtered sample (R89). -/
def Tilt.convert (t : Tilt) (sx sy : Nat) (gx gy p0 q0 : Int) : Tilt :=
  let tx := tiltOf sx gx
  let ty := tiltOf sy gy
  { t with tx := tx, ty := ty, p := clampTilt (tx - p0), q := clampTilt (ty - q0),
           clamped := clampTilt (tx - p0) != tx - p0 || clampTilt (ty - q0) != ty - q0 }

/-- One filtered sample (R87, R88, R89): a new block begins. -/
def Work.filteredSample (w : Work) (sx sy : Nat) : Work :=
  let t := { w.tilt with sumX := 0, sumY := 0, count := 0, blockAt := some w.now,
                         railX := railNext sx w.tilt.railX, railY := railNext sy w.tilt.railY }
  if railSum sx || railSum sy then
    let w := { w with tilt := { t with good := 0 } }
    if !t.fault && (t.railX == 3 || t.railY == 3) then w.setTiltFault else w
  else
    let good := min 25 (t.good + 1)
    let t := { t with good := good, fault := t.fault && good != 25 }
    let z := w.zero
    let w := { w with tilt := t.convert sx sy (w.prof 0x0428) (w.prof 0x0429) z.1 z.2 }
    if w.tilt.fault then w
    else ({ w with tilt := { w.tilt with lastSample := some w.now } }.tiltSample).zeroSample

end Sys2Proof.Machine
end

