-- ==== Sys2Proof/Machine/Claims.lean ====
section
/-! DEFINITION. Claims: their checks (R32, R122, R126), renewal, contention and reversal (R34..R37, R53, R123, R124, R129),
panel switches (R40..R43), stops of everything a mover holds (R39, R125), the start of a retract (R126, R127), and the
arrival of an inhibit (R159). -/

namespace Sys2Proof.Machine

/-! ## Checks -/

/-- The start-up is between steps 5 and 6 (R192). -/
def Work.settlingStage (w : Work) : Bool := w.stage == .settling

/-- The neighbour rule (R126). -/
def Work.conflict (w : Work) (m : MoverId) : Bool :=
  if m = awn then
    match w.neighbour with
    | some r => w.activity r != .idle
    | none => false
  else
    w.neighbour == some m && (w.mv awn).present && (w.activity awn != .idle || (w.mv awn).pendRetract.isSome)

/-- The Levelling Engine works, or a stow exists (check 6 of R32 and R122). -/
def Work.hydBlocks (w : Work) : Bool :=
  w.lvl.phase != .idle || (match w.hyd.activity with | some a => a.kind == .stow | none => false)

/-- Checks 3 to 8 of R32 and R122, in order; `checkPos` asks for check 5. -/
def Work.claimRefusal (w : Work) (m : MoverId) (d : Dir) (checkPos : Bool) (cs : List MoveClass) : Option Reply :=
  if w.fenced m then some { status := .fenced }
  else if w.faulted m then some { status := .faulted }
  else if checkPos && d == .outward && !w.known m then some { status := .positionUnknown }
  else if w.hydBlocks then some (replyBusy .hydraulic)
  else
    match lowestBlocking w.inh cs with
    | some id => some (replyInhibited id)
    | none => if w.conflict m then some replyConflict else none

/-- The mover already rests at the end the claim asks for. -/
def Work.atEnd (w : Work) (m : MoverId) (d : Dir) : Bool :=
  match d with
  | .outward => w.seatOf m == .outSeated
  | .inward => w.isIn m

/-- The kind of a claim: rooms MOVE; the awning ONE_TOUCH or HOLD by the operation in force (R123, R124). -/
def Work.claimKind (w : Work) (m : MoverId) : ClaimKind :=
  if m = awn then (if w.oneTouch then .oneTouch else .hold) else .move

/-- A claim with its lease: a LINK claim but a one-touch one carries the hold window (R33, R123, R124). -/
def Work.newClaim (w : Work) (m : MoverId) (src : Source) (d : Dir) (lease : Option Time) : Claim :=
  { source := src, dir := d, kind := w.claimKind m, lease := if w.claimKind m = .oneTouch then none else lease }

/-- A new claim from check 3 on (R32, R122). -/
def Work.claimFrom3 (w : Work) (m : MoverId) (src : Source) (d : Dir) (lease : Option Time) : Work × Reply :=
  match w.claimRefusal m d true [moveClass m d] with
  | some r => (w, r)
  | none =>
    if w.atEnd m d then (w, replyDone) else w.presentClaim m (w.newClaim m src d lease) none

/-- The lease of a new LINK claim; none for the panel. -/
def Work.leaseFor (w : Work) (src : Source) : Option Time :=
  match src with
  | .link => some (w.now + w.holdWindow)
  | _ => none

/-! ## Renewal and reversal (R34, R36, R37) -/

/-- The lease of a claim, and of its queued entry, is moved (R34, R147). -/
def Work.renew (w : Work) (m : MoverId) : Work :=
  let t := w.now + w.holdWindow
  let x := w.mv m
  let w := w.setMv m { x with claim := x.claim.map fun (c : Claim) => { c with lease := some t } }
  let q := w.bud.queue.map fun (e : Queued) => if e.target = moverTarget m then { e with lease := some t } else e
  { w with bud := { w.bud with queue := q } }

/-- The switch of a side is spent. -/
def Work.spend (w : Work) (m : MoverId) (d : Dir) : Work :=
  let x := w.mv m
  w.setMv m (x.setSwitch d { x.switch d with spent := true })

/-- Under STOP_DWELL the motion in progress is followed by DWELL (R37), also one that is already STOPPING with cause SEATED,
the outward leg of a learning run (log 36). A change of the reversal mode before its end moves nothing: the model's choice,
log 50. -/
def Work.markDwell (w : Work) (m : MoverId) : Work :=
  let x := w.mv m
  w.setMv m { x with run := x.run.map fun (r : Run) => { r with dwellAfter := true } }

/-- An opposite claim (R36, R37). -/
def Work.reverse (w : Work) (m : MoverId) (src : Source) (d : Dir) : Work × Reply :=
  if w.stopDwell then
    if w.isQueued (moverTarget m) then
      ((w.removeQueued m .reversed).judgeHead).claimFrom3 m src d (w.leaseFor src)
    else
      let w := w.markDwell m
      let w := w.setMv m { w.mv m with pendRev := some { source := src, dir := d, lease := w.leaseFor src } }
      (w.stopMover m .reversed, replyAccepted)
  else
    let w := w.haltMover m .reversed
    match src with
    | .link => (w.setMv m { w.mv m with holdOff := some (d, w.now + w.holdWindow) }, replyDone)
    | _ => (w.spend m d, replyDone)

/-! ## Contention (R35, R53, R123, R129) -/

/-- The purpose of the retract the awning holds: pending, queued or moving (R127). -/
def Work.holdsRetract (w : Work) : Option Purpose :=
  match (w.mv awn).pendRetract with
  | some p => some p
  | none =>
    match (w.mv awn).claim with
    | some c => if c.kind = .retract then c.purpose else none
    | none => none

/-- A retract is stopped: a pending one is discarded, another one is stopped or removed (R129, R130). -/
def Work.stopRetract (w : Work) (cause : Cause) : Work :=
  if (w.mv awn).pendRetract.isSome then w.dropRetract cause else w.haltMover awn cause

/-- Arrivals at an awning that holds a retract (R129). -/
def Work.contendRetract (w : Work) (p : Purpose) (src : Source) (d : Dir) : Work × Reply :=
  match p, src, d with
  | .wind, _, _ => (w, replyBusy .wind)
  | .travel, .panel, _ => (w.stopRetract .stopped, replyBusy .stopping)
  | .travel, _, .inward => (w, replyRenewed)
  | .travel, _, .outward => (w.stopRetract .stopped, replyDone)

/-- Arrivals at a mover without a live claim that is STOPPING or in DWELL: a renewal of the pending reversal, or BUSY. A
pending reversal of the awning that HOLD operation recorded is renewed so also after the one-touch flag was written on (the
model's choice, log 40). -/
def Work.contendStopping (w : Work) (m : MoverId) (src : Source) (d : Dir) : Work × Reply :=
  match (w.mv m).pendRev with
  | some r =>
    if r.source = src ∧ r.dir = d ∧ src = .link then
      (w.setMv m { w.mv m with pendRev := some { r with lease := some (w.now + w.holdWindow) } }, replyRenewed)
    else (w, replyBusy .stopping)
  | none => (w, replyBusy .stopping)

/-- Arrivals at a mover that is not IDLE and holds no learning run (R35, R123). A PANEL claim has no lease to move: its switch is
held already (R35). A LEARN claim whose run a RETRY lock has ended waits in RETRY_WAIT for its end; no MOVE renews it
(log 38). -/
def Work.contend (w : Work) (m : MoverId) (src : Source) (d : Dir) : Work × Reply :=
  match (w.mv m).claim with
  | none => w.contendStopping m src d
  | some c =>
    match c.kind with
    | .oneTouch =>
      match src with
      | .panel => (w.haltMover m .stopped, replyBusy .stopping)
      | _ => if c.dir = d then (w, replyRenewed) else (w.haltMover m .stopped, replyDone)
    | .learn => (w, replyBusy .stopping)
    | _ =>
      if c.dir = d ∧ c.source = src then (if src = .link then w.renew m else w, replyRenewed)
      else if w.activity m = .retryWait then (w, replyBusy .stopping)
      else if c.dir = d then (w, replyHeld)
      else w.reverse m src d

/-- The direction of a reversal hold-off that stands (R36). -/
def Mover.holdOffDir (x : Mover) : Option Dir := x.holdOff.map (·.1)

/-- Arrivals at a room that holds a learning run (R53). -/
def Work.contendLearn (w : Work) (m : MoverId) (l : LearnRun) (src : Source) (d : Dir) : Work × Reply :=
  if l.leg = d then (w, replyHeld) else w.reverse m src d

/-- A mover holds a ONE_TOUCH claim, whose own table settles every arrival (R123). -/
def Work.holdsOneTouch (w : Work) (m : MoverId) : Bool :=
  match (w.mv m).claim with
  | some c => c.kind == .oneTouch
  | none => false

/-- A MOVE or a press that has passed checks 1 and 2 (R33, R35, R122, R123, R124, R129). A reversal hold-off (R36) turns a
LINK MOVE away unless the awning holds a ONE_TOUCH claim; one left from HOLD operation does so after the one-touch flag has been
written on, too (log 40). -/
def Work.claimMove (w : Work) (m : MoverId) (src : Source) (d : Dir) : Work × Reply :=
  match (if m = awn then w.holdsRetract else none), (w.mv m).learn with
  | some p, _ => w.contendRetract p src d
  | none, some l => w.contendLearn m l src d
  | none, none =>
    if src = .link ∧ (w.mv m).holdOffDir = some d ∧ w.holdsOneTouch m = false then
      (w.setMv m { w.mv m with holdOff := some (d, w.now + w.holdWindow) }, replyBusy .stopping)
    else if w.activity m = .idle ∧ (w.mv m).pendRev = none then w.claimFrom3 m src d (w.leaseFor src)
    else w.contend m src d

/-! ## Panel switches (R40..R43, R123) -/

/-- The status of a panel claim that leaves its switch held: it was admitted or queued, or kept as a pending reversal. -/
def Reply.keepsSwitch (r : Reply) : Bool := r.status == .accepted || r.status == .queued || r.status == .renewed

/-- Both switches of a pair pressed (R43, R123, R129). -/
def Work.bothPressed (w : Work) (m : MoverId) : Work :=
  let x := w.mv m
  let w := w.setMv m { x with swIn := { x.swIn with spent := true }, swOut := { x.swOut with spent := true },
                              pendRev := none }
  match if m = awn then w.holdsRetract else none with
  | some .wind => w
  | some .travel => w.stopRetract .stopped
  | none => w.haltMover m .stopped

/-- A press that R40 takes as a claim (R41, R122): a claim that is not kept leaves its switch spent. -/
def Work.pressClaim (w : Work) (m : MoverId) (d : Dir) : Work :=
  if w.mode = .unconfigured ∨ w.settlingStage = true ∨ (w.mv m).present = false then w.spend m d
  else
    let r := w.claimMove m .panel d
    if r.2.keepsSwitch then r.1 else r.1.spend m d

/-- The debounced level becomes pressed (R40). -/
def Work.pressSwitch (w : Work) (m : MoverId) (d : Dir) : Work :=
  let x := w.mv m
  let w := w.setMv m (x.setSwitch d { x.switch d with pressed := true, count := 0 })
  if (x.switch d.flip).pressed then w.bothPressed m
  else if (x.switch d).spent then w
  else w.pressClaim m d

/-- The debounced level becomes released (R42): the spent flag clears; the claim or pending reversal it held ends. -/
def Work.releaseSwitch (w : Work) (m : MoverId) (d : Dir) : Work :=
  let x := w.mv m
  let x := x.setSwitch d { x.switch d with pressed := false, spent := false, count := 0 }
  let held : Bool := match x.pendRev with | some r => r.source == .panel && r.dir == d | none => false
  let w := w.setMv m (if held then { x with pendRev := none } else x)
  match x.claim with
  | some c => if c.source = .panel ∧ c.dir = d ∧ c.kind ≠ .oneTouch then w.haltMover m .released else w
  | none => w

/-! ## STOP (R39, R125) -/

/-- Everything a mover holds ends with cause STOPPED. -/
def Work.stopAllOf (w : Work) (m : MoverId) : Work :=
  let x := w.mv m
  let w := w.setMv m { x with pendRev := none, holdOff := none, dwellEnd := none }
  w.haltMover m .stopped

/-- STOP at the awning (R125, R129): a WIND retract is not stopped; the flag says it was refused. -/
def Work.stopAwning (w : Work) : Work × Bool :=
  match w.holdsRetract with
  | some .wind => (w, true)
  | some .travel => ((w.stopRetract .stopped).stopAllOf awn, false)
  | none => (w.stopAllOf awn, false)

/-- The hydraulic work ends CANCELLED (R67, R115). -/
def Work.cancelHyd (w : Work) : Work :=
  if w.lvl.phase ≠ .idle then w.endLevel .cancelled false else w.endActivity .cancelled false

/-! ## Dwell ends (R37) -/

/-- A pending reversal is taken as a fresh claim from check 3 (R37); one that HOLD operation recorded for the awning is taken as
a ONE_TOUCH claim where the one-touch flag has been written on since (the model's choice, log 40). -/
def Work.takeReversal (w : Work) (m : MoverId) : Work :=
  match (w.mv m).pendRev with
  | none => w
  | some r =>
    let w := w.setMv m { w.mv m with pendRev := none }
    let alive := match r.source with
      | .panel => ((w.mv m).switch r.dir).pressed
      | _ => match r.lease with | some t => decide (w.now < t) | none => true
    if alive then
      let z := w.claimFrom3 m r.source r.dir r.lease
      if r.source = .panel ∧ z.2.keepsSwitch = false then z.1.spend m r.dir else z.1
    else w

/-! ## The start of a retract (R126, R127) -/

/-- The neighbour room gives way (R126). -/
def Work.superseded (w : Work) : Work :=
  match w.neighbour with
  | none => w
  | some r =>
    let w := w.haltMover r .superseded
    if w.activity r = .dwell then w.setMv r { w.mv r with pendRev := none } else w

/-- A WIND trigger that meets a TRAVEL retract changes its purpose in place (R127). -/
def Work.turnWind (w : Work) : Work :=
  let x := w.mv awn
  let w := w.setMv awn { x with pendRetract := x.pendRetract.map fun _ => .wind,
                                claim := x.claim.map fun (c : Claim) => { c with purpose := c.purpose.map fun _ => .wind } }
  let q := w.bud.queue.map fun (e : Queued) => { e with purpose := e.purpose.map fun _ => .wind }
  { w with bud := { w.bud with queue := q } }

/-- The conditions of a start (R127). -/
def Work.retractMayStart (w : Work) (p : Purpose) : Bool :=
  w.stage == .complete && w.mode != .unconfigured && (w.mv awn).present && !w.stowed && !w.fenced awn &&
    !w.faulted awn && w.inh &&& retractMask p == 0

/-- The steps of the start, at one event (R127). -/
def Work.startRetract (w : Work) (p : Purpose) : Work :=
  let w := w.superseded
  match w.activity awn with
  | .queued => (w.removeQueued awn .superseded).presentRetract p
  | .idle => w.presentRetract p
  | _ => (w.setMv awn { w.mv awn with pendRetract := some p, pendRev := none }).stopMover awn .superseded

/-- A trigger (R127); the flag says that a retract was started. -/
def Work.retractTrigger (w : Work) (p : Purpose) : Work × Bool :=
  match w.holdsRetract, p with
  | some .travel, .wind => (w.turnWind, false)
  | some _, _ => (w, false)
  | none, p => if w.retractMayStart p then (w.startRetract p, true) else (w, false)

/-! ## The arrival of an inhibit (R158, R159) -/

/-- The members that became active reach one mover. -/
def Work.arriveMover (became : BitVec 16) (w : Work) (m : MoverId) : Work :=
  if became &&& w.claimMask m ≠ 0 then w.haltMover m .inhibited else w

/-- They reach a pending retract. -/
def Work.arriveRetract (became : BitVec 16) (w : Work) : Work :=
  match (w.mv awn).pendRetract with
  | some p => if became &&& retractMask p ≠ 0 then w.dropRetract .inhibited else w
  | none => w

/-- They reach the hydraulic activity or the levelling procedure (R67, R116). -/
def Work.arriveHyd (became : BitVec 16) (w : Work) : Work :=
  if w.lvl.phase ≠ .idle then
    if became &&& MoveClass.je.mask ≠ 0 then w.endLevel .inhibited false else w
  else
    match w.hyd.activity with
    | some a => if became &&& (jackClass a.dir).mask ≠ 0 then w.endActivity .inhibited false else w
    | none => w

/-- Newly active members act on every piece of work they apply to. -/
def Work.arrive (became : BitVec 16) (w : Work) : Work :=
  Work.arriveHyd became (Work.arriveRetract became (allMovers.foldl (Work.arriveMover became) w))

end Sys2Proof.Machine
end

