-- ==== Sys2Proof/Machine/Settle.lean ====
section
/-! DEFINITION. How a command ends: the head of the admission queue, the inhibit set and its arrivals (R154..R160), the
posture (R161..R165), the return to ACTIVE and the entry to STANDBY (R168, R169), and the delivery of the reply and the
events to the port (R179, R181). -/

namespace Sys2Proof.Machine

/-- What a command answers. -/
abbrev Result := Host.Outcome State Fault Refusal

/-! ## Inhibits (R154, R157, R159) -/

/-- The head is judged, the set is derived again, and members that became active act; what they stop can change the set
once more. -/
def Work.settleLoop : Nat → Work → Work
  | 0, w => w.judgeHead
  | n + 1, w =>
    let w := w.judgeHead
    let new := w.deriveInh
    let became := new &&& ~~~ w.inh
    let w := { w with inh := new }
    if became = 0 then w else Work.settleLoop n (Work.arrive became w)

/-- The settled state: nothing waits to be judged, the set is the one its owners give. -/
def Work.settled (w : Work) : Work :=
  let w := Work.settleLoop 4 w
  { w with inh := w.deriveInh, headDue := false }

/-- The INHIBIT event of a change, after start-up (R157). -/
def inhibitEvents (was : Bool) (old new : BitVec 16) : List Event :=
  if was ∧ old ≠ new then [.inhibit new (new &&& ~~~ old) (old &&& ~~~ new)] else []

/-- Settle, the INHIBIT event standing before the events of what it stopped (log 10). -/
def Work.settleEvents (w : Work) (was : Bool) (old : BitVec 16) : Work :=
  let w := w.judgeHead
  let z := Work.settled { w with events := [] }
  { z with events := w.events ++ inhibitEvents was old z.inh ++ z.events }

/-! ## Start-up (R192 step 6) -/

/-- Every present jack is settled (R68). -/
def Work.jacksSettled (w : Work) : Bool := allJacks.all fun j => !w.jackPresent j || (w.jk j).settled

/-- The start-up sequence is complete when every present jack is settled, at least 500 ms after the load. -/
def Work.startupCheck (w : Work) : Work :=
  if w.stage = .settling ∧ w.jacksSettled = true ∧ w.loadAt + Config.scanSettle ≤ w.now then
    { w with stage := .complete }
  else w

/-! ## The posture (R161..R165) -/

/-- A change to SLOW starts with its high half; SLOW left as SLOW is not restarted (R165; log 27). -/
def Ready.withAlert (r : Ready) (a : Alert) (now : Time) : Ready :=
  if a = r.alert then r
  else { r with alert := a, alertHigh := a == .slow, alertAt := if a = .slow then some now else none }

/-- The posture derived anew from the settled blocks. -/
def Work.nextReady (w : Work) (r : Ready) : Ready :=
  let t := w.travel
  let h := hazardOf w.inh t
  Ready.withAlert { r with travel := t, hazard := h, travelOk := t == .travelReady } (w.alertOf t h) w.now

/-- The POSTURE event (R163). -/
def postureEvents (was : Bool) (old new : Ready) : List Event :=
  if was ∧ (old.travel ≠ new.travel ∨ old.hazard ≠ new.hazard) then [.posture new.travel new.hazard] else []

/-! ## Power (R168, R169) -/

/-- The return from STANDBY: the stopped samplers restart (R16, R64, R86), and its moment is kept (log 34). -/
def Work.returnActive (w : Work) : Work :=
  { w with power := .active, returnedAt := some w.now, chans := w.chans.map fun (x : Channel) => { x with window := [] },
           hyd := { w.hyd with window := [] },
           tilt := { w.tilt with sumX := 0, sumY := 0, count := 0, blockAt := some w.now } }

/-- A block that returns the part from STANDBY when work has started (R169, last case). -/
def Work.returnOnMotion (w : Work) (t : Travel) : Work :=
  if w.power = .standby ∧ t = .inMotion then w.returnActive else w

/-- The part is made ACTIVE by an event of R169. -/
def Work.toActive (w : Work) : Work := if w.power = .standby then w.returnActive else w

/-- What stops at the entry to STANDBY (R86, R93, R140). A zero learning run ends ABORTED here, as R93 and R168 say, and does
not stand as R86 says: the model's choice between the two, log 41. -/
def Work.enterStandby (w : Work) : Work :=
  let w := w.abortZero
  { w with power := .standby, tilt := { w.tilt with sumX := 0, sumY := 0, count := 0, blockAt := none },
           sup := { w.sup with busRun := 0, tripped := false } }

/-- The link activity timer (R176): 0 while stopped, held at 3600 s. -/
def Port.linkTimer (p : Port) (now : Time) : Time :=
  match p.linkAt with
  | some t => min (now - t) (Config.sec Config.linkMax)
  | none => 0

/-- The link activity timer as it stands: stopped in DORMANT (R176). -/
def State.linkTimer (s : State) : Time :=
  s.port.linkTimer (if s.work.power = .dormant then s.work.dormantAt.getD s.work.now else s.work.now)

/-- The four conditions of R168, in a part that has started. -/
def State.quiet (s : State) : Bool :=
  s.work.stage == .complete && s.ready.travel != .inMotion && s.work.bud.queue.isEmpty && s.port.outq.isEmpty &&
    decide (s.work.standbyDelay < s.linkTimer)

/-- The part has returned from STANDBY since the last selection, and no condition of R168 has changed since: there is no event
at which R168 judges (R168, R169; log 34). -/
def State.returnStands (s : State) : Bool :=
  match s.work.returnedAt, s.port.linkAt with
  | some t, some l => decide (l < t)
  | some _, none => true
  | none, _ => false

/-- The part enters STANDBY (R168). -/
def State.standbyDue (s : State) : Bool := s.work.power == .active && s.quiet && !s.returnStands

/-- The events raised so far go to the port. -/
def State.deliver (s : State) : State :=
  { s with port := s.port.takeAll s.work.events, work := { s.work with events := [] } }

/-- The entry to STANDBY at the first event at which its conditions hold (R168); one that does not hold ends the standing
return. -/
def State.standbyCheck (s : State) : State :=
  if s.standbyDue then State.deliver { s with work := s.work.enterStandby }
  else if s.quiet then s
  else { s with work := { s.work with returnedAt := none } }

/-! ## The end of a command -/

/-- The reply, when there is one, and then the events join the outbound queue (R179, R181). -/
def Port.deliver (p : Port) (reply : Option Frame) (es : List Event) : Port :=
  match reply with
  | some f => (p.push f).takeAll es
  | none => p.takeAll es

/-- A command has done its work `w`: settle it, derive the posture, deliver reply and events. -/
def finish (s : State) (w : Work) (reply : Option Frame) : State :=
  let was := s.work.stage == .complete
  let w := (w.startupCheck).settleEvents was s.work.inh
  let r := if w.stage = .complete then w.nextReady s.ready else s.ready
  let w := w.returnOnMotion r.travel
  State.standbyCheck
    { s with port := s.port.deliver reply (w.events ++ postureEvents was s.ready r), ready := r,
             work := { w with events := [] } }

/-- An event that the blocks take while they run; it changes nothing before the load and in DORMANT (log 23). -/
def event (s : State) (f : Work → Work) : State := if s.work.awake then finish s (f s.work) none else s

/-- LINK_OVERRUN (R179). -/
def State.overrun (s : State) : State := { s with port := { s.port with attn := s.port.attn ||| attnLinkOverrun } }

/-- The part takes a frame in the power state the selection left: ACTIVE (R178; log 4). -/
def State.toActive (s : State) : State := { s with work := s.work.toActive }

/-- A request at line 7 of R178: it needs a place for its reply (R179); the owning block acts and answers. -/
def request (s : State) (kind tag : Byte) (h : State → Work × Reply) : State :=
  if s.work.awake then
    if Config.outPlaces ≤ s.port.outq.length then s.toActive.overrun
    else
      let s := s.toActive
      let r := h s
      finish s r.1 (some (replyFrame kind tag r.2))
  else s

/-- A request that only reads (the queries and NOP), or acts on the port alone. -/
def portRequest (s : State) (kind tag : Byte) (h : State → State × Reply) : State :=
  if s.work.awake then
    if Config.outPlaces ≤ s.port.outq.length then s.toActive.overrun
    else
      let r := h s.toActive
      { r.1 with port := r.1.port.push (replyFrame kind tag r.2) }
  else s

end Sys2Proof.Machine
end

