-- ==== Sys2Proof/Machine/Channels.lean ====
section
/-! DEFINITION. The commands of the motor channels (Chapter 1) and of the store jobs (R190, R191). -/

namespace Sys2Proof.Machine

/-! ## Motor channels -/

/-- HALL_COUNT (R12): an accepted rising edge, `elapsed` microseconds after the present moment. -/
def execHallCount (c : ChanId) (elapsed : Nat) (s : State) : Result :=
  .next (event s fun w => if (w.moverOf c).isSome then (w.notBefore (w.now + elapsed)).hallCount c else w)

/-- One update of every channel of a mover that drives (R7, R44, R45). -/
def Work.updateMover (w : Work) (m : MoverId) (mo : Motion) : Work :=
  let p := w.dutyPlan m mo
  let x := w.mv m
  let w := w.setMv m { x with sync := p.sync }
  x.chans.foldl (fun w c =>
    w.setCh c ((w.ch c).update p.line (if x.leader = some c then p.leader else p.follower) w.now
      (Config.ms (w.motionField 0x0208 c)))) w

/-- The next update of a mover, 10 ms after the last one of its leader (R7, R44); the period begins anew at each entry to
RAMP (log 3). -/
def Work.updateDue (w : Work) (c : ChanId) : Time :=
  match (w.ch (w.leadOf c)).dutyAt with
  | some t => t + Config.dutyPeriod
  | none => 0

/-- The update instant of the leader. -/
def Work.markUpdate (w : Work) (c : ChanId) : Work :=
  let l := w.leadOf c
  w.setCh l { w.ch l with dutyAt := some w.now }

/-- The duty update of a channel's mover, when one of its channels drives. -/
def Work.dutyUpdate (w : Work) (c : ChanId) : Work :=
  match w.moverOf c with
  | none => w
  | some m =>
    match w.motionOf m with
    | none => w
    | some mo =>
      if w.anyCh m Channel.driving then
        ((w.notBefore (w.updateDue c)).markUpdate c).updateMover m mo
      else w

/-- DUTY_UPDATE (R7): the 10 ms update. -/
def execDutyUpdate (c : ChanId) (s : State) : Result := .next (event s fun w => w.dutyUpdate c)

/-- A stall judgement, with the current reading at that moment (R17). -/
def Work.stallAt (w : Work) (c : ChanId) (current : Nat) : Work :=
  let x := w.ch c
  match w.moverOf c, x.motion with
  | some m, some mo =>
    if w.stallJudged c mo then
      let w := w.notBefore (w.stallDue x mo)
      ((w.showCurrent c current).setCh c (x.withReading current)).judgeStall m c mo
    else w
  | _, _ => w

/-- STALL_JUDGEMENT (R17): the stall window has passed without a count. -/
def execStallJudgement (c : ChanId) (current : Nat) (s : State) : Result :=
  .next (event s fun w => w.stallAt c current)

/-- The sample that can bring the overcurrent run to 2 (R18; log 2). -/
def Work.overcurrentAt (w : Work) (c : ChanId) (current : Nat) : Work :=
  let x := w.ch c
  if w.judged c then
    ((w.showCurrent c current).setCh c { x.withReading current with ocRun := max 1 x.ocRun }).judgeOvercurrent c
  else w

/-- OVERCURRENT_LOCK (R18): the second consecutive reading. -/
def execOvercurrentLock (c : ChanId) (current : Nat) (s : State) : Result :=
  .next (event s fun w => w.overcurrentAt c current)

/-- The count that can bring the overspeed run to 8 (R18; log 2). -/
def Work.overspeedAt (w : Work) (c : ChanId) (elapsed : Nat) : Work :=
  let x := w.ch c
  if w.judged c then
    let w := w.setCh c { x with osRun := max 7 x.osRun, prevCount := some w.now }
    (w.notBefore (w.now + elapsed)).hallCount c
  else w

/-- OVERSPEED_LOCK (R18): a further count, `elapsed` microseconds after the previous one. -/
def execOverspeedLock (c : ChanId) (elapsed : Nat) (s : State) : Result :=
  .next (event s fun w => w.overspeedAt c elapsed)

/-- The retry wait of a channel's motion ends. -/
def Work.retryExpiry (w : Work) (c : ChanId) : Work :=
  let x := w.ch c
  match w.moverOf c with
  | some m => if x.state = .retryWait then (w.notBefore (x.retryEnd.getD 0)).endRetry m else w
  | none => w

/-- RETRY_WAIT_EXPIRY (R24). -/
def execRetryWaitExpiry (c : ChanId) (s : State) : Result := .next (event s fun w => w.retryExpiry c)

/-- A channel's motion in STOPPING has come to rest. -/
def Work.stoppingEnd (w : Work) (c : ChanId) : Work :=
  let x := w.ch c
  match w.moverOf c, x.motion with
  | some m, some mo =>
    if x.stopping then (w.notBefore (mo.earliestEnd w.restWindow)).endChan m c mo else w
  | _, _ => w

/-- STOPPING_END (R23). -/
def execStoppingEnd (c : ChanId) (s : State) : Result := .next (event s fun w => w.stoppingEnd c)

/-! ## Store jobs (R190, R191) -/

/-- The record a COMMIT leaves for one section. -/
def commitRecord (p : Profile) (k : Fin 6) (bad : Bool) : Record :=
  if bad then Record.cut (sectionVals p k) else Record.fresh (sectionVals p k)

/-- Storage as a job leaves it. A COMMIT writes each section from the working profile; a failed one is stored bad. -/
def Store.write (st : Store) (job : Service) (failed : BitVec 6) : Store :=
  match job.job with
  | .checkpoint c _ _ => { st with checkpoints := st.checkpoints.set c job.record }
  | .learned => { st with learnedRec := job.record }
  | .commit => { st with sections := Vector.ofFn fun k : Fin 6 => some (commitRecord st.working k (failed.getLsbD k.val)) }

/-- The job being written ends; its channel is told (R5), and the next job is served. -/
def Work.endJob (w : Work) (job : Service) (failed : BitVec 6) : Work :=
  let st := w.store.write job failed
  let w := { w with store := { st with busy := none } }
  match job.job with
  | .checkpoint c _ serial => (w.reportWritten c serial).serveNext
  | .learned => w.serveNext
  | .commit => (w.emit (.store failed)).serveNext

/-- The end of a checkpoint job of one channel. -/
def Work.checkpointWritten (w : Work) (c : ChanId) : Work :=
  match w.store.busy with
  | some j =>
    if j.job.isCheckpointOf c then (w.notBefore (j.start + Config.checkpointService)).endJob j 0 else w
  | none => w

/-- CHECKPOINT_WRITTEN (R5, R191). -/
def execCheckpointWritten (c : ChanId) (s : State) : Result := .next (event s fun w => w.checkpointWritten c)

/-- The end of a LEARNED job. -/
def Work.learnedWritten (w : Work) : Work :=
  match w.store.busy with
  | some j => if j.job.isLearned then (w.notBefore (j.start + Config.learnedService)).endJob j 0 else w
  | none => w

/-- LEARNED_WRITTEN (R191). -/
def execLearnedWritten (s : State) : Result := .next (event s Work.learnedWritten)

/-- The end of a COMMIT job with the sections that did not read back. -/
def Work.commitComplete (w : Work) (failed : BitVec 6) : Work :=
  match w.store.busy with
  | some j => if j.job.isCommit then w.endJob j failed else w
  | none => w

/-- COMMIT_COMPLETE (R190). -/
def execCommitComplete (failed : BitVec 6) (s : State) : Result := .next (event s fun w => w.commitComplete failed)

end Sys2Proof.Machine
end

