-- ==== Sys2Proof/Machine/Coach.lean ====
section
/-! DEFINITION. The commands of the coach inputs, the speed gate, the inhibit set and ALERT (Chapter 8). -/

namespace Sys2Proof.Machine

/-! ## The debounced inputs (R151, R152) -/

def CoachInputs.get (x : CoachInputs) : CoachInput → CoachLevel
  | .ign => x.ign
  | .pbrk => x.pbrk
  | .park => x.park
  | .eng => x.eng
  | .wake => x.wake

def CoachInputs.put (x : CoachInputs) (i : CoachInput) (l : CoachLevel) : CoachInputs :=
  match i with
  | .ign => { x with ign := l }
  | .pbrk => { x with pbrk := l }
  | .park => { x with park := l }
  | .eng => { x with eng := l }
  | .wake => { x with wake := l }

/-- The pin of a coach input. -/
def Pins.putCoach (x : Pins) (i : CoachInput) (b : Bool) : Pins :=
  match i with
  | .ign => { x with ign := b }
  | .pbrk => { x with pbrk := b }
  | .park => { x with park := b }
  | .eng => { x with eng := b }
  | .wake => { x with wake := b }

/-- The debounced level takes a value, the pin having held it. -/
def Work.putLevel (w : Work) (i : CoachInput) (b : Bool) : Work :=
  { w with inputs := w.inputs.put i { settled := true, level := b, cand := b, count := 0 },
           pins := w.pins.putCoach i b }

/-- Power Control is handed IGN and PBRK either way and WAKE becoming asserted (R151, R169). -/
def Work.handToPower (w : Work) (i : CoachInput) (b : Bool) : Work :=
  match i, b with
  | .ign, _ => w.toActive
  | .pbrk, _ => w.toActive
  | .wake, true => w.toActive
  | _, _ => w

/-- IGN becoming asserted is the trigger of a TRAVEL retract (R127). -/
def Work.ignTrigger (w : Work) (i : CoachInput) (b : Bool) : Work :=
  if i = .ign ∧ b = true ∧ w.travelRetract = true then (w.retractTrigger .travel).1 else w

/-- A debounced change (R151). -/
def Work.inputChange (w : Work) (i : CoachInput) (b : Bool) : Work :=
  let l := w.inputs.get i
  if l.settled && l.level != b then ((w.putLevel i b).handToPower i b).ignTrigger i b else w

/-- COACH_INPUT_CHANGE (R151). -/
def execCoachInputChange (i : CoachInput) (b : Bool) (s : State) : Result := .next (event s fun w => w.inputChange i b)

/-- The first 50 ms of stable input settle an input (R152); an asserted IGN is no trigger and no change. -/
def Work.inputSettled (w : Work) (i : CoachInput) (b : Bool) : Work :=
  if (w.inputs.get i).settled then w
  else
    let w := (w.notBefore (w.loadAt + Config.ms 50)).putLevel i b
    if i = .ign ∧ b = true then w else w.handToPower i b

/-- COACH_INPUT_SETTLED (R152). -/
def execCoachInputSettled (i : CoachInput) (b : Bool) (s : State) : Result := .next (event s fun w => w.inputSettled i b)

/-! ## The speed gate (R153) -/

/-- The flag and the below run after a gate. A gate below the threshold raises the run also while the flag is clear, as the text
of R153 says; its table shows a run of 0 after such a gate (the model's choice, log 43). -/
def speedJudge (count threshold below : Nat) (moving : Bool) : Bool × Nat :=
  if threshold ≤ count then (true, 0)
  else if 2 ≤ below + 1 then (false, 0)
  else (moving, below + 1)

/-- The speed gate closes with a count. -/
def Work.speedGate (w : Work) (count : Nat) : Work :=
  let w := w.notBefore (w.speed.gateEnd.getD 0)
  let r := speedJudge count (w.coach 0x0143).toNat w.speed.below w.speed.moving
  { w with speed := { w.speed with count := 0, last := min 65535 count, moving := r.1, below := r.2,
                                   gateEnd := some (w.now + Config.gate) } }

/-- SPEED_GATE (R153). -/
def execSpeedGate (count : Nat) (s : State) : Result := .next (event s fun w => w.speedGate count)

/-! ## INHIBIT_SET and INHIBIT_CLEAR (R156) -/

/-- The bits of a mask that name LINK members. -/
def linkBits (mask : Half) : BitVec 4 := (mask >>> 12).setWidth 4

/-- The mask names ids 0 to 11, which are disregarded. -/
def linkClamped (mask : Half) : Bool := mask &&& 0x0FFF != 0

/-- INHIBIT_SET (R156). -/
def execInhibitSet (tag : Byte) (mask : Half) (s : State) : Result :=
  .next (request s 0x1C tag fun s =>
    ({ s.work with link := s.work.link ||| linkBits mask }, replyChanged (linkClamped mask)))

/-- INHIBIT_CLEAR (R156). -/
def execInhibitClear (tag : Byte) (mask : Half) (s : State) : Result :=
  .next (request s 0x1D tag fun s =>
    ({ s.work with link := s.work.link &&& ~~~ linkBits mask }, replyChanged (linkClamped mask)))

/-! ## ALERT (R165) -/

/-- The next half of the SLOW pattern. -/
def State.toggleAlert (s : State) : State :=
  match s.ready.alertAt with
  | none => s
  | some t =>
    let w := s.work.notBefore (t + Config.alertHalf)
    { s with work := w, ready := { s.ready with alertHigh := !s.ready.alertHigh, alertAt := some w.now } }

/-- ALERT_SLOW_TOGGLE (R165). -/
def execAlertSlowToggle (s : State) : Result :=
  .next (if s.work.awake && s.ready.alert == .slow then s.toggleAlert else s)

end Sys2Proof.Machine
end

