-- ==== Sys2Proof/Machine/Hydraulic.lean ====
section
/-! DEFINITION. The commands of the Hydraulic Unit and the jacks (Chapter 3). -/

namespace Sys2Proof.Machine

/-! ## JACK_MOVE (R76, R77) -/

/-- A jack is away from its stop (R76 check 7). -/
def Work.awayFromStop (w : Work) (d : Dir) (j : JackId) : Bool :=
  match d with
  | .outward => !(w.jk j).atLimit
  | .inward => w.jackState j != .retracted

/-- The jacks of a mask that are away from their stop. -/
def Work.movable (w : Work) (mask : Byte) (d : Dir) : JackSet :=
  jacksWhere fun j => mask.getLsbD j.val && w.awayFromStop d j

/-- Checks 3 and 4 of R76. -/
def Work.maskRefusal (w : Work) (mask : Byte) : Option Reply :=
  if allJacks.any fun j => mask.getLsbD j.val && (w.jk j).fenced then some { status := .fenced }
  else if allJacks.any fun j => mask.getLsbD j.val && (w.jk j).fault.isSome then some { status := .faulted }
  else none

/-- A class check, answering with the lowest-numbered blocking member. -/
def Work.classRefusal (w : Work) (c : MoveClass) : Option Reply := (lowestBlocking w.inh [c]).map replyInhibited

/-- Create an activity and present its pump run; on QUEUE_FULL nothing is kept (R76, R79). -/
def Work.startActivity (w : Work) (a : HydActivity) : Work × Reply :=
  match Work.presentPump { w with hyd := { w.hyd with activity := some a } } with
  | (w2, .accepted) => (w2, replyAccepted)
  | (w2, .queued) => (w2, replyQueued)
  | _ => (w, replyQueueFull)

/-- A new manual move (R76 checks 2 to 8). -/
def Work.newMove (w : Work) (mask : Byte) (d : Dir) : Work × Reply :=
  if w.maskOk mask then
    match w.maskRefusal mask with
    | some r => (w, r)
    | none =>
      if w.hyd.pump = .rest then (w, replyBusy .pumpRest)
      else
        match w.classRefusal (jackClass d) with
        | some r => (w, r)
        | none =>
          let set := w.movable mask d
          if set.isEmpty then (w, replyDone)
          else w.startActivity { kind := .manual, dir := d, jackSet := set, openSet := set,
                                 lease := some (w.now + w.holdWindow) }
  else (w, replyBadArgument)

/-- The lease of the MANUAL activity and of its queued entry moves, and its jacks are replaced (R77). -/
def Work.renewMove (w : Work) (set : JackSet) : Work :=
  let t := w.now + w.holdWindow
  let act : Option HydActivity := w.hyd.activity.map fun (a : HydActivity) =>
    { a with lease := some t, jackSet := set, openSet := set }
  let q := w.bud.queue.map fun (e : Queued) => if e.target = hydTarget then { e with lease := some t } else e
  Work.checkWork { w with hyd := { w.hyd with activity := act }, bud := { w.bud with queue := q } }

/-- JACK_MOVE that reaches an existing MANUAL activity (R77). -/
def Work.moveAgain (w : Work) (a : HydActivity) (mask : Byte) (d : Dir) : Work × Reply :=
  if d = a.dir then
    if w.maskOk mask then
      match w.maskRefusal mask, w.classRefusal (jackClass d) with
      | some r, _ => (w, r)
      | none, some r => (w, r)
      | none, none => (w.renewMove (w.movable mask d), replyRenewed)
    else (w, replyBadArgument)
  else (w, replyConflict)

/-- JACK_MOVE after mode and start-up (log 13). -/
def Work.jackRequest (w : Work) (mask : Byte) (dir : Option Dir) : Work × Reply :=
  match w.hyd.activity, dir with
  | some a, some d => if a.kind = .manual then w.moveAgain a mask d else (w, replyBusy .hydraulic)
  | some a, none => (w, if a.kind = .manual then replyBadArgument else replyBusy .hydraulic)
  | none, some d => w.newMove mask d
  | none, none => (w, replyBadArgument)

/-- The answer to JACK_MOVE. -/
def Work.doJackMove (w : Work) (mask dir : Byte) : Work × Reply :=
  if w.mode = .unconfigured then (w, replyBadMode)
  else if w.settlingStage then (w, replyNotReady .jacks)
  else w.jackRequest mask (decodeDir dir)

/-- JACK_MOVE (R76). -/
def execJackMove (tag mask dir : Byte) (s : State) : Result :=
  .next (request s 0x16 tag fun s => s.work.doJackMove mask dir)

/-! ## JACKS_STOW (R79, R80) -/

/-- The jacks a stow works on. -/
def Work.stowSet (w : Work) : JackSet :=
  jacksWhere fun j => w.jackPresent j && w.jackState j != .retracted && !(w.jk j).fenced && (w.jk j).fault.isNone

/-- Checks 3 to 7 of R79. -/
def Work.stowRequest (w : Work) : Work × Reply :=
  if w.hyd.pump = .rest then (w, replyBusy .pumpRest)
  else
    match w.classRefusal .jr with
    | some r => (w, r)
    | none =>
      if w.allRetracted then (w, replyDone)
      else if w.stowSet.isEmpty then (w, replyNotReady .jacks)
      else w.startActivity { kind := .stow, dir := .inward, jackSet := w.stowSet, openSet := w.stowSet }

/-- The answer to JACKS_STOW. -/
def Work.doStow (w : Work) : Work × Reply :=
  if w.mode = .unconfigured then (w, replyBadMode)
  else if w.settlingStage then (w, replyNotReady .jacks)
  else if w.hyd.activity.isSome then (w, replyBusy .hydraulic)
  else w.stowRequest

/-- JACKS_STOW (R79). -/
def execJacksStow (tag : Byte) (s : State) : Result := .next (request s 0x17 tag fun s => s.work.doStow)

/-! ## The pump and its activity in time (R61, R63, R67, R80) -/

/-- DWELL ends: the pump passes through OFF and takes a pending start (R61). -/
def Work.pumpDwellEnd (w : Work) : Work :=
  if w.hyd.pump = .dwell then
    let w := w.notBefore (w.hyd.dwellEnd.getD 0)
    let w := { w with hyd := { w.hyd with pump := .off, dwellEnd := none } }
    if w.hyd.pendingStart then w.pumpRun else w
  else w

/-- PUMP_DWELL_END (R61). -/
def execPumpDwellEnd (s : State) : Result := .next (event s Work.pumpDwellEnd)

/-- REST ends (R63). -/
def Work.pumpRestEnd (w : Work) : Work :=
  if w.hyd.pump = .rest then
    let w := w.notBefore (w.hyd.restEnd.getD 0)
    { w with hyd := { w.hyd with pump := .off, restEnd := none } }
  else w

/-- PUMP_REST_END (R63). -/
def execPumpRestEnd (s : State) : Result := .next (event s Work.pumpRestEnd)

def Work.runLimit (w : Work) : Time := Config.sec (w.profN 0x0400)

/-- The overrun: a stop into REST, and the end of the activity (R63, R67, R116). -/
def Work.overrunStop (w : Work) : Work :=
  if w.lvl.phase ≠ .idle then w.endLevel .pumpOverrun true else w.endActivity .pumpOverrun true

/-- The run timer of a RUNNING pump reaches the run limit. -/
def Work.pumpOverrun (w : Work) : Work :=
  match w.hyd.pump, w.hyd.runStart with
  | .running, some t => (w.notBefore (t + w.runLimit)).overrunStop
  | _, _ => w

/-- PUMP_OVERRUN (R63). -/
def execPumpOverrun (s : State) : Result := .next (event s Work.pumpOverrun)

def Work.stowLimit (w : Work) : Time := Config.sec (w.profN 0x0402)

/-- RETRACT_TIMEOUT of one jack of the set that is not retracted (R80). -/
def Work.stowTimeoutJack (w : Work) (j : JackId) : Work :=
  if w.actJacks.has j && !(w.jk j).retracted then w.giveFault j .retractTimeout else w

/-- The stow timeout passes (R80), as the field in force then gives it (the model's choice, log 37). -/
def Work.stowTimeout (w : Work) : Work :=
  match w.hyd.activity with
  | none => w
  | some a =>
    match a.kind, a.start with
    | .stow, some t => (allJacks.foldl Work.stowTimeoutJack (w.notBefore (t + w.stowLimit))).checkWork
    | _, _ => w

/-- STOW_TIMEOUT (R80). -/
def execStowTimeout (s : State) : Result := .next (event s Work.stowTimeout)

/-- The lease of a MANUAL activity passes (R67, R77). -/
def Work.manualExpiry (w : Work) : Work :=
  match w.hyd.activity with
  | none => w
  | some a =>
    match a.lease with
    | some t => (w.notBefore t).endActivity .leaseExpired false
    | none => w

/-- MANUAL_LEASE_EXPIRY (R77). -/
def execManualLeaseExpiry (s : State) : Result := .next (event s Work.manualExpiry)

/-! ## The jacks' sensors (R68, R70..R73) -/

/-- The fourth agreeing read (R68, R70; log 2); the sensors of an absent jack are disregarded. -/
def Work.groundChange (w : Work) (j : JackId) (level : Bool) : Work :=
  if w.jackPresent j then
    let x := w.jk j
    let x := if x.groundSettled && level == x.grounded then x else { x with groundRun := 3, latestRead := level }
    ((w.showGround j level).setJk j x).readSwitch j level
  else w

/-- GROUNDED_FLAG_CHANGE (R70). -/
def execGroundedFlagChange (j : JackId) (level : Bool) (s : State) : Result :=
  .next (event s fun w => w.groundChange j level)

/-- 500 ms of scan have passed: an unsettled flag takes the level of its latest read (R68). -/
def Work.scanTimeout (w : Work) (j : JackId) (level : Bool) : Work :=
  let x := w.jk j
  if w.jackPresent j && !x.groundSettled then
    (((w.notBefore (w.loadAt + Config.scanSettle)).showGround j level).setJk j
      { x with grounded := level, latestRead := level, groundSettled := true, groundRun := 0 })
  else w

/-- JACK_SCAN_SETTLE_TIMEOUT (R68). -/
def execJackScanSettleTimeout (j : JackId) (level : Bool) (s : State) : Result :=
  .next (event s fun w => w.scanTimeout j level)

/-- A stroke sample, 10 ms after the jack's last one (R71). -/
def Work.strokeAt (w : Work) (j : JackId) (raw : BitVec 12) : Work :=
  if w.jackPresent j then
    let w := w.notBefore (match (w.jk j).sampleAt with | some t => t + Config.strokePeriod | none => 0)
    (w.showStroke j raw).sampleStroke j raw.toNat
  else w

/-- STROKE_SAMPLE (R71). -/
def execStrokeSample (j : JackId) (raw : BitVec 12) (s : State) : Result := .next (event s fun w => w.strokeAt j raw)

/-- The sample that can be the third out of range (R72; log 2). -/
def Work.thirdOutOfRange (w : Work) (j : JackId) (raw : BitVec 12) : Work :=
  let x := w.jk j
  let x := if x.fenced || x.fault == some .strokeSensor then x else { x with outOfRange := max 2 x.outOfRange }
  (w.setJk j x).strokeAt j raw

/-- STROKE_SENSOR_FAULT (R72). -/
def execStrokeSensorFault (j : JackId) (raw : BitVec 12) (s : State) : Result :=
  .next (event s fun w => if w.jackPresent j then w.thirdOutOfRange j raw else w)

/-- The sample that can complete 500 ms at or below the threshold (R73; log 2). -/
def Work.lastLowSample (w : Work) (j : JackId) (raw : BitVec 12) : Work :=
  let x := w.jk j
  let w := if x.retractSettled then w else w.notBefore (w.loadAt + Config.scanSettle)
  (w.setJk j { x with lowRun := 49, samples := max 49 x.samples }).strokeAt j raw

/-- RETRACTED_INDICATOR_SET (R73). -/
def execRetractedIndicatorSet (j : JackId) (raw : BitVec 12) (s : State) : Result :=
  .next (event s fun w => if w.jackPresent j then w.lastLowSample j raw else w)

end Sys2Proof.Machine
end

