-- ==== Sys2Proof/Machine/Levelling.lean ====
section
/-! DEFINITION. The commands of the Levelling Engine and the Tilt Filter (Chapters 4 and 5). -/

namespace Sys2Proof.Machine

/-! ## LEVEL_START and LEVEL_CANCEL (R104, R105, R115) -/

/-- Every present room is IDLE and the awning holds no motion, no claim and no queued entry (R104 check 5). An awning in DWELL,
whose retract or reversal is still pending, passes by the words of that check, though R120 calls the awning idle then: the
model's choice, log 48. -/
def Work.roomsIdle (w : Work) : Bool :=
  (allRooms.all fun r => !(w.mv r).present || w.activity r == .idle) &&
    (w.mv awn).run.isNone && (w.mv awn).claim.isNone && !w.isQueued (moverTarget awn)

/-- The present jacks that are not fenced. -/
def Work.unfencedJacks (w : Work) : JackSet := jacksWhere fun j => w.jackPresent j && !(w.jk j).fenced

/-- At least three present jacks are not fenced, and none of those is FAULTED (R104 check 8). -/
def Work.jacksReady (w : Work) : Bool :=
  decide (3 ≤ w.unfencedJacks.size) && allJacks.all fun j => !w.unfencedJacks.has j || (w.jk j).fault.isNone

/-- Checks 3 to 8 of R104. -/
def Work.levelRefusal (w : Work) : Option Reply :=
  if w.hyd.activity.isSome then some (replyBusy .hydraulic)
  else if w.hyd.pump = .rest then some (replyBusy .pumpRest)
  else if !w.roomsIdle then some (replyBusy .roomMoving)
  else
    match w.classRefusal .je with
    | some r => some r
    | none =>
      if w.tilt.fault then some (replyNotReady .tilt)
      else if !w.jacksReady then some (replyNotReady .jacks)
      else none

/-- The acceptance of a procedure (R75, R105). -/
def Work.acceptLevel (w : Work) (mode : LevelMode) : Work × Reply :=
  let set := jacksWhere fun j => w.jackPresent j && !(w.jk j).fenced && (w.jk j).fault.isNone
  let w1 := w.enterPhase { w.lvl with phase := .waiting, mode := some mode, pass := 0, pendFlag := none,
                                      limitMark := false, settleTest := none, deadline := none,
                                      levelHeld := false, drift := 0 }
  let r := w1.startActivity { kind := .level, dir := .outward, jackSet := set, openSet := noJacks }
  if r.2.status = .queueFull then (w, r.2) else r

/-- The answer to LEVEL_START. -/
def Work.doLevelStart (w : Work) (mode : Byte) : Work × Reply :=
  if w.mode = .unconfigured then (w, replyBadMode)
  else if w.settlingStage then (w, replyNotReady .jacks)
  else
    match decodeLevelMode mode with
    | none => (w, replyBadArgument)
    | some k =>
      match w.levelRefusal with
      | some r => (w, r)
      | none => w.acceptLevel k

/-- LEVEL_START (R104). -/
def execLevelStart (tag mode : Byte) (s : State) : Result :=
  .next (request s 0x14 tag fun s => s.work.doLevelStart mode)

/-- The answer to LEVEL_CANCEL. -/
def Work.doLevelCancel (w : Work) : Work × Reply :=
  if w.mode = .unconfigured then (w, replyBadMode) else (w.cancelHyd, replyDone)

/-- LEVEL_CANCEL (R115). -/
def execLevelCancel (tag : Byte) (s : State) : Result := .next (request s 0x15 tag fun s => s.work.doLevelCancel)

/-! ## Filtered samples (R86..R89) -/

/-- The end of a block, 40 ms after the last one; sampling runs in ACTIVE only (R86). -/
def Work.blockEnd (w : Work) (sx sy : BitVec 15) : Work :=
  if w.power = .active then
    ((w.notBefore (match w.tilt.blockAt with | some t => t + Config.blockPeriod | none => 0)).showTilt
      ((sx >>> 3).setWidth 12) ((sy >>> 3).setWidth 12)).filteredSample sx.toNat sy.toNat
  else w

/-- FILTERED_SAMPLE (R86). -/
def execFilteredSample (sx sy : BitVec 15) (s : State) : Result := .next (event s fun w => w.blockEnd sx sy)

/-- The third rail sample in a row, for the axes that rail (R88; log 2). -/
def Work.thirdRail (w : Work) (sx sy : BitVec 15) : Work :=
  { w with tilt := { w.tilt with
      railX := if railSum sx.toNat then max 2 w.tilt.railX else w.tilt.railX,
      railY := if railSum sy.toNat then max 2 w.tilt.railY else w.tilt.railY } }

/-- TILT_FAULT_SET (R88). -/
def execTiltFaultSet (sx sy : BitVec 15) (s : State) : Result :=
  .next (event s fun w => if w.power = .active then (w.thirdRail sx sy).blockEnd sx sy else w)

/-- The 25th good sample in a row (R88; log 2). -/
def Work.lastGood (w : Work) : Work := { w with tilt := { w.tilt with good := max 24 w.tilt.good } }

/-- TILT_FAULT_CLEAR (R88). -/
def execTiltFaultClear (sx sy : BitVec 15) (s : State) : Result :=
  .next (event s fun w => if w.power = .active then (w.lastGood).blockEnd sx sy else w)

/-- ZERO_LEARN_COMPLETE (R92): a sample of the run; the 25th completes it. -/
def execZeroLearnComplete (sx sy : BitVec 15) (s : State) : Result := .next (event s fun w => w.blockEnd sx sy)

/-- The 50th sample of a drift while the level is held (R118; log 2). -/
def Work.lastDrift (w : Work) : Work :=
  if w.lvl.levelHeld then w.setLvl { w.lvl with drift := max 49 w.lvl.drift } else w

/-- LEVEL_LOST (R118). -/
def execLevelLost (sx sy : BitVec 15) (s : State) : Result :=
  .next (event s fun w => if w.power = .active then (w.lastDrift).blockEnd sx sy else w)

/-! ## Deadlines of the procedure (R107, R109, R110, R111, R113) -/

/-- Every jack of the set that is not grounded takes NO_GROUND, and the procedure ends (R107, R110). -/
def Work.noGround (w : Work) : Work :=
  (allJacks.foldl (fun w j => if w.actJacks.has j && !(w.jk j).grounded then w.giveFault j .noGround else w) w).endLevel
    .jackFault false

/-- The deadline of a phase passes. -/
def Work.atDeadline (w : Work) (p : LevelPhase) (f : Work → Work) : Work :=
  match w.lvl.deadline with
  | some t => if w.lvl.phase = p then f (w.notBefore t) else w
  | none => w

/-- TOUCHDOWN_DEADLINE (R107). -/
def execTouchdownDeadline (s : State) : Result := .next (event s fun w => w.atDeadline .touchdown Work.noGround)

/-- LEVELLING_DEADLINE (R109). -/
def execLevellingDeadline (s : State) : Result :=
  .next (event s fun w => w.atDeadline .levelling fun w => w.enterStabilize (some .timeout))

/-- STABILIZE_DEADLINE (R110). -/
def execStabilizeDeadline (s : State) : Result := .next (event s fun w => w.atDeadline .stabilize Work.noGround)

/-- The outcome a pending flag gives (R111). -/
def PendFlag.outcome : PendFlag → EndOutcome
  | .twist => .twistLimit
  | .range => .outOfRange
  | .timeout => .timeout

/-- The settle time has passed (R111, R113). -/
def Work.settleEnd (w : Work) : Work :=
  match w.lvl.mode, w.lvl.pendFlag with
  | some .ground, _ => w.endLevel .grounded false
  | _, some f => w.endLevel f.outcome false
  | _, none => w.setLvl { w.lvl with settleTest := some .judging, levelRun := 0, deadline := none }

/-- SETTLE_TIME_END (R111). -/
def execSettleTimeEnd (s : State) : Result := .next (event s fun w => w.atDeadline .settling Work.settleEnd)

/-! ## TILT_ZERO_LEARN (R91) -/

/-- The answer to TILT_ZERO_LEARN. -/
def Work.doZeroLearn (w : Work) : Work × Reply :=
  if w.mode ≠ .service then (w, replyBadMode)
  else if w.tilt.zeroRun.isSome then (w, replyConflict)
  else if w.tilt.fault then (w, replyNotReady .tilt)
  else ({ w with tilt := { w.tilt with zeroRun := some {} } }, replyAccepted)

/-- TILT_ZERO_LEARN (R91). -/
def execTiltZeroLearn (tag : Byte) (s : State) : Result := .next (request s 0x2C tag fun s => s.work.doZeroLearn)

end Sys2Proof.Machine
end

