-- ==== Sys2Proof/Machine/Power.lean ====
section
/-! DEFINITION. Power Control: SLEEP and the entry to DORMANT (R170, R171), the wake (R172, R173), the entry to STANDBY
(R168). -/

namespace Sys2Proof.Machine

/-! ## SLEEP and the entry to DORMANT (R170, R171) -/

/-- What stops at the entry to DORMANT (R86, R93, R134, R136, R140, R153, R171). A zero learning run ends ABORTED here, as R93
and R171 say, and does not stand as R86 says: the model's choice between the two, log 41. -/
def Work.enterDormant (w : Work) : Work :=
  let w := w.abortZero
  { w with
    power := .dormant, dormantAt := some w.now, wakePrev := none,
    tilt := { w.tilt with sumX := 0, sumY := 0, count := 0, blockAt := none },
    sup := { w.sup with window := [], lowRun := 0, highRun := 0, lowClear := 0, highClear := 0, busRun := 0,
                        tripped := false },
    wind := { w.wind with count := 0, gustRun := 0, gateEnd := none },
    speed := { w.speed with count := 0, below := 0, gateEnd := none },
    hyd := { w.hyd with bankB := false } }

/-- The reason to refuse SLEEP, in the order of R170; before step 6 of the start-up NOT_READY with detail JACKS (R192). -/
def State.sleepRefusal (s : State) : Option Reply :=
  let w := s.work
  if w.stage = .settling then some (replyNotReady .jacks)
  else if s.ready.travel = .inMotion then some (replyNotReady .motion)
  else if s.ready.hazard then some (replyNotReady .hazard)
  else if (w.mv awn).present && !w.stowed then some (replyNotReady .awning)
  else if w.storeBusy then some (replyBusy .store)
  else none

/-- The answer to SLEEP. -/
def State.doSleep (s : State) : Work × Reply :=
  match s.sleepRefusal with
  | some r => (s.work, r)
  | none => (s.work.enterDormant, replyDone)

/-- SLEEP (R170). -/
def execSleep (tag : Byte) (s : State) : Result := .next (request s 0x30 tag State.doSleep)

/-! ## Wake (R172, R173) -/

/-- The causes of a wake (Section 12.6): 0 SEL, 1 IGN, 2 PBRK, 3 PANEL, 4 WAKE. -/
structure WakeSigns where
  sel   : Bool
  ign   : Bool
  pbrk  : Bool
  wake  : Bool
  panel : BitVec 10
  deriving DecidableEq, Repr

def WakeSigns.causes (x : WakeSigns) : BitVec 5 :=
  (bits16 [x.sel, x.ign, x.pbrk, x.panel != 0, x.wake]).setWidth 5

/-- The levels at the pins that a wake shows (log 29). -/
def Pins.showWake (p : Pins) (x : WakeSigns) (ign pbrk : Bool) : Pins :=
  { p with ign := if x.ign then !ign else p.ign, pbrk := if x.pbrk then !pbrk else p.pbrk,
           wake := x.wake || p.wake,
           swIn := Vector.ofFn fun m : MoverId => x.panel.getLsbD m.val || p.swIn[m],
           swOut := Vector.ofFn fun m : MoverId => x.panel.getLsbD (5 + m.val) || p.swOut[m] }

/-- A switch that woke the part stands pressed and spent (R40, R172). -/
def Switch.woke (x : Switch) (pressed : Bool) : Switch :=
  if pressed then { settled := true, pressed := true, spent := true, cand := true, count := 0 } else { x with count := 0 }

/-- A mover at the wake: its switches, and a hold-off whose deadline has passed (R171). -/
def Mover.woke (x : Mover) (inPressed outPressed : Bool) (now : Time) : Mover :=
  { x with swIn := x.swIn.woke inPressed, swOut := x.swOut.woke outPressed,
           holdOff := match x.holdOff with | some (d, t) => if t ≤ now then none else some (d, t) | none => none }

/-- A debouncer resumes from the level that stood (R152). -/
def CoachLevel.restart (x : CoachLevel) : CoachLevel := { x with count := 0 }

def CoachInputs.restart (x : CoachInputs) : CoachInputs :=
  { ign := x.ign.restart, pbrk := x.pbrk.restart, park := x.park.restart, eng := x.eng.restart, wake := x.wake.restart }

/-- A frozen deadline resumes from its remaining time (R133, R134, R171). -/
def resumed (d : Time) (t : Option Time) : Option Time := t.map fun x => x + d

/-- The samplers restart at the return from DORMANT (R11, R16, R64, R70, R71, R86, R134, R153). -/
def Work.restartSamplers (w : Work) : Work :=
  { w with
    chans := w.chans.map fun (x : Channel) => { x with window := [], hall := {} },
    jacks := w.jacks.map fun (x : Jack) => { x with groundRun := 0, lowRun := 0 },
    hyd := { w.hyd with window := [], bankB := false, scanAt := w.now },
    tilt := { w.tilt with blockAt := some w.now },
    wind := { w.wind with filter := {}, gateEnd := if (w.mv awn).present then some (w.now + Config.gate) else none },
    speed := { w.speed with filter := {}, gateEnd := some (w.now + Config.gate) },
    inputs := w.inputs.restart }

/-- The timers that DORMANT froze go on after `d` (R134, R171). -/
def Work.thaw (w : Work) (d : Time) : Work :=
  { w with hyd := { w.hyd with dwellEnd := resumed d w.hyd.dwellEnd, restEnd := resumed d w.hyd.restEnd },
           wind := { w.wind with lockout := resumed d w.wind.lockout } }

/-- The wake of the blocks, with its WAKE event (R172). -/
def Work.wakeUp (w : Work) (x : WakeSigns) : Work :=
  let w := (w.thaw (w.now - w.dormantAt.getD w.now)).restartSamplers
  let w := { w with
    power := .active, dormantAt := none, wakePrev := none, wakeCauses := w.wakeCauses ||| x.causes,
    pins := w.pins.showWake x w.inputs.ign.level w.inputs.pbrk.level,
    movers := Vector.ofFn fun m : MoverId =>
      w.movers[m].woke (x.panel.getLsbD m.val) (x.panel.getLsbD (5 + m.val)) w.now }
  w.emit (.wake x.causes)

/-- SLOW goes on with the time its half had left (R171, R172; log 27). -/
def Ready.thaw (r : Ready) (d : Time) : Ready := { r with alertAt := resumed d r.alertAt }

/-- The wake of the part: the link timer restarts, and the selection that woke it carries no request (R172, R173). The inbound
buffer keeps the bytes of the last selection (the model's choice, log 46). -/
def State.wakeUp (s : State) (x : WakeSigns) : State :=
  let d := s.work.now - s.work.dormantAt.getD s.work.now
  let s := { s with
    ready := s.ready.thaw d,
    port := { s.port with linkAt := some s.work.now, selected := x.sel || s.port.selected,
                          wakeSel := x.sel, shift := if x.sel then none else s.port.shift } }
  finish s (s.work.wakeUp x) none

/-- The part is DORMANT and loaded: it watches its wake inputs. -/
def Work.asleep (w : Work) : Bool := w.stage.loaded && w.power == .dormant

/-- DORMANT_WAKE (R172). -/
def execDormantWake (sel ign pbrk wake : Bool) (panel : BitVec 10) (s : State) : Result :=
  let x : WakeSigns := { sel := sel, ign := ign, pbrk := pbrk, wake := wake, panel := panel }
  .next (if s.work.asleep && x.causes != 0 then s.wakeUp x else s)

/-! ## STANDBY (R168) -/

/-- The moment at which the link activity timer first exceeds the standby delay. -/
def State.quietAt (s : State) : Time :=
  match s.port.linkAt with
  | some t => t + s.work.standbyDelay + 1
  | none => 0

/-- STANDBY_ENTRY (R168): the delay has expired. -/
def execStandbyEntry (s : State) : Result :=
  let t := { s with work := s.work.notBefore s.quietAt }
  .next (if t.standbyDue then t.standbyCheck else s)

end Sys2Proof.Machine
end

