-- ==== Sys2Proof/Machine/Rooms.lean ====
section
/-! DEFINITION. MOVE and STOP, stroke learning and setting, and the commands of the rooms and the panel (Chapter 2). -/

namespace Sys2Proof.Machine

/-! ## MOVE (R33, R35, R122, R123, R124, R129) -/

/-- MOVE after its operands are read: mode, start-up, presence, then contention or the claim checks. -/
def Work.moveRequest (w : Work) (m : MoverId) (d : Dir) : Work × Reply :=
  if w.mode = .unconfigured then (w, replyBadMode)
  else if w.settlingStage then (w, replyNotReady .jacks)
  else if (w.mv m).present then w.claimMove m .link d
  else (w, replyBadArgument)

/-- The answer to MOVE. A target or a direction that names nothing is refused before any check (R33), but the direction at
the awning in check 2 (R122; log 12, log 13). -/
def Work.doMove (w : Work) (target dir : Byte) : Work × Reply :=
  match decodeMover target, decodeDir dir with
  | some m, some d => w.moveRequest m d
  | some m, none =>
    if m ≠ awn then (w, replyBadArgument)
    else if w.mode = .unconfigured then (w, replyBadMode)
    else if w.settlingStage then (w, replyNotReady .jacks)
    else (w, replyBadArgument)
  | none, _ => (w, replyBadArgument)

/-- MOVE (R33). -/
def execMove (tag target dir : Byte) (s : State) : Result :=
  .next (request s 0x10 tag fun s => s.work.doMove target dir)

/-! ## STOP (R39, R115, R125) -/

/-- STOP of ALL at the awning (R125): a WIND retract goes on, with its dwell; pending reversal and hold-off are discarded. -/
def Work.stopAwningOfAll (w : Work) : Work :=
  let r := w.stopAwning
  if r.2 then w.setMv awn { w.mv awn with pendRev := none, holdOff := none } else r.1

/-- STOP of ALL: every room, the awning but for a WIND retract, and the hydraulic work. -/
def Work.stopEverything (w : Work) : Work := ((allRooms.foldl Work.stopAllOf w).stopAwningOfAll).cancelHyd

/-- The answer to STOP. -/
def Work.doStop (w : Work) (target : Byte) : Work × Reply :=
  match decodeStop target with
  | none => (w, replyBadArgument)
  | some .all => (w.stopEverything, replyDone)
  | some (.one m) =>
    if (w.mv m).present then
      if m = awn then
        let r := w.stopAwning
        (r.1, if r.2 then replyBusy .wind else replyDone)
      else (w.stopAllOf m, replyDone)
    else (w, replyBadArgument)

/-- STOP (R39). -/
def execStop (tag target : Byte) (s : State) : Result := .next (request s 0x11 tag fun s => s.work.doStop target)

/-! ## LEARN_STROKE (R52, R53) -/

/-- LEARN_STROKE on a room that holds no learning run and is not free (R53). -/
def Work.learnBusy (w : Work) (m : MoverId) : Option Reply :=
  let x := w.mv m
  if w.activity m = .idle ∧ x.pendRev = none ∧ x.holdOff = none then none
  else if x.claim.isSome && w.activity m != .retryWait then some replyHeld
  else some (replyBusy .stopping)

/-- A new learning run (R52). Its claim carries the direction of the present leg (log 36). -/
def Work.learnClaim (w : Work) (m : MoverId) (method : LearnMethod) : Work × Reply :=
  match w.learnBusy m with
  | some r => (w, r)
  | none =>
    if method = .refine ∧ w.isIn m = false then (w, replyNotReady .notSeated)
    else
      match w.claimRefusal m .outward false (learnClasses method) with
      | some r => (w, r)
      | none =>
        let leg := match method with | .endToEnd => Dir.inward | .refine => Dir.outward
        w.presentClaim m { source := .link, dir := leg, kind := .learn, lease := some (w.now + w.holdWindow) }
          (some { method := method, leg := leg })

/-- LEARN_STROKE on a present room. RENEWED holds for the whole run, also after the last seat OUT, when R38 has ended claim and
lease and there is no lease to move (log 36). -/
def Work.learnRequest (w : Work) (m : MoverId) (method : LearnMethod) : Work × Reply :=
  match (w.mv m).learn with
  | some l => if l.method = method then (w.renew m, replyRenewed) else (w, replyConflict)
  | none => w.learnClaim m method

/-- The answer to LEARN_STROKE. -/
def Work.doLearn (w : Work) (target method : Byte) : Work × Reply :=
  if w.mode ≠ .service then (w, replyBadMode)
  else if w.settlingStage then (w, replyNotReady .jacks)
  else
    match decodeRoom target, decodeMethod method with
    | some m, some k => if (w.mv m).present then w.learnRequest m k else (w, replyBadArgument)
    | _, _ => (w, replyBadArgument)

/-- LEARN_STROKE (R52). -/
def execLearnStroke (tag target method : Byte) (s : State) : Result :=
  .next (request s 0x2A tag fun s => s.work.doLearn target method)

/-! ## STROKE_SET (R58) -/

/-- The channel belongs to a room in a learning run. -/
def Work.learning (w : Work) (c : ChanId) : Bool :=
  match w.moverOf c with
  | some m => (w.mv m).learn.isSome
  | none => false

/-- Set or clear one learned stroke: working record, limits, LEARNED job. A count that its limit cuts is a change that racking
is judged at (R46). -/
def Work.applyStroke (w : Work) (c : ChanId) (v : Option Nat) : Work :=
  let w := ((w.setLearned c v).clampPos c).askLearned
  match w.moverOf c with
  | some m => w.judgeRack m
  | none => w

/-- The answer to STROKE_SET. -/
def Work.doStrokeSet (w : Work) (index : Byte) (counts : Half) : Work × Reply :=
  if w.mode ≠ .service then (w, replyBadMode)
  else
    match decodeChan index with
    | none => (w, replyBadArgument)
    | some c =>
      if (w.ch c).used then
        if w.learning c then (w, replyConflict)
        else if counts = 0 then (w.applyStroke c none, replyDone)
        else
          let v := max 100 (min 20000 counts.toNat)
          (w.applyStroke c (some v), replyChanged (v != counts.toNat))
      else (w, replyBadArgument)

/-- STROKE_SET (R58). -/
def execStrokeSet (tag index : Byte) (counts : Half) (s : State) : Result :=
  .next (request s 0x2B tag fun s => s.work.doStrokeSet index counts)

/-! ## Leases, hold-offs, dwells -/

/-- The lease of a claim passes (R34, R147). -/
def Work.leaseExpiry (w : Work) (m : MoverId) : Work :=
  match (w.mv m).claim.bind (·.lease) with
  | some t => (w.notBefore t).haltMover m .leaseExpired
  | none => w

/-- ROOM_LEASE_EXPIRY (R34; for the awning R124). -/
def execRoomLeaseExpiry (m : MoverId) (s : State) : Result := .next (event s fun w => w.leaseExpiry m)

/-- A hold-off's deadline passes. -/
def Work.holdOffExpiry (w : Work) (m : MoverId) : Work :=
  match (w.mv m).holdOff with
  | some (_, t) => (w.notBefore t).setMv m { w.mv m with holdOff := none }
  | none => w

/-- HOLD_OFF_EXPIRY (R36). -/
def execHoldOffExpiry (m : MoverId) (s : State) : Result := .next (event s fun w => w.holdOffExpiry m)

/-- The lease of a pending reversal passes. -/
def Work.reversalExpiry (w : Work) (m : MoverId) : Work :=
  match (w.mv m).pendRev.bind (·.lease) with
  | some t => (w.notBefore t).setMv m { w.mv m with pendRev := none }
  | none => w

/-- PENDING_REVERSAL_EXPIRY (R37). -/
def execPendingReversalExpiry (m : MoverId) (s : State) : Result := .next (event s fun w => w.reversalExpiry m)

/-- A room's dwell ends. -/
def Work.roomDwellEnd (w : Work) (m : MoverId) : Work :=
  match (w.mv m).dwellEnd with
  | some t => ((w.notBefore t).setMv m { w.mv m with dwellEnd := none }).takeReversal m
  | none => w

/-- ROOM_DWELL_END (R37). -/
def execRoomDwellEnd (r : Fin 4) (s : State) : Result := .next (event s fun w => w.roomDwellEnd (roomMover r))

/-! ## Panel switches (R29, R40..R43) -/

/-- A debounced press of a switch that stood released (R40); it returns the part from STANDBY (R169). -/
def Work.press (w : Work) (m : MoverId) (d : Dir) : Work :=
  let sw := (w.mv m).switch d
  if sw.settled && !sw.pressed then (w.toActive.showSwitch m d true).pressSwitch m d else w

/-- A debounced release of a switch that stood pressed (R40). -/
def Work.unpress (w : Work) (m : MoverId) (d : Dir) : Work :=
  if ((w.mv m).switch d).pressed then (w.showSwitch m d false).releaseSwitch m d else w

/-- PANEL_PRESS (R41). -/
def execPanelPress (r : Fin 4) (d : Dir) (s : State) : Result := .next (event s fun w => w.press (roomMover r) d)

/-- PANEL_RELEASE (R42). -/
def execPanelRelease (r : Fin 4) (d : Dir) (s : State) : Result := .next (event s fun w => w.unpress (roomMover r) d)

/-- The first 20 ms of stable input settle a switch; found pressed, it is spent (R29, R121). -/
def Work.settleSwitch (w : Work) (m : MoverId) (d : Dir) (pressed : Bool) : Work :=
  let x := w.mv m
  if (x.switch d).settled then w
  else ((w.notBefore (w.loadAt + Config.ms 20)).showSwitch m d pressed).setMv m
    (x.setSwitch d { settled := true, pressed := pressed, spent := pressed, cand := pressed, count := 0 })

/-- PANEL_SWITCH_SETTLED (R29, R121). -/
def execPanelSwitchSettled (m : MoverId) (d : Dir) (pressed : Bool) (s : State) : Result :=
  .next (event s fun w => w.settleSwitch m d pressed)

end Sys2Proof.Machine
end

