-- ==== Sys2Proof/Machine/Awning.lean ====
section
/-! DEFINITION. The commands of the awning and the Wind Watch (Chapter 6). -/

namespace Sys2Proof.Machine

/-- AWNING_PANEL_PRESS (R122, R123, R124, R129). -/
def execAwningPanelPress (d : Dir) (s : State) : Result := .next (event s fun w => w.press awn d)

/-- AWNING_PANEL_RELEASE (R123, R124). -/
def execAwningPanelRelease (d : Dir) (s : State) : Result := .next (event s fun w => w.unpress awn d)

/-- The awning's dwell ends: the pending retract is presented, or the pending reversal taken (R127, R37). -/
def Work.awningDwellEnd (w : Work) : Work :=
  match (w.mv awn).dwellEnd with
  | none => w
  | some t =>
    let w := (w.notBefore t).setMv awn { w.mv awn with dwellEnd := none }
    match (w.mv awn).pendRetract with
    | some p => w.presentRetract p
    | none => w.takeReversal awn

/-- AWNING_DWELL_END (R127). -/
def execAwningDwellEnd (s : State) : Result := .next (event s Work.awningDwellEnd)

/-! ## The Wind Watch (R131..R133) -/

def Work.windScale (w : Work) : Nat := w.profN 0x0502
def Work.gustThreshold (w : Work) : Nat := w.profN 0x0503
def Work.gustCount (w : Work) : Nat := w.profN 0x0504
def Work.hardThreshold (w : Work) : Nat := w.profN 0x0505
def Work.lockoutTime (w : Work) : Time := Config.sec (60 * w.profN 0x0506)

/-- The speed of a gate (R131): count times scale divided by 16, clamped to 999. -/
def windSpeed (count scale : Nat) : Nat := min 999 (count * scale / 16)

/-- The gust run after a gate (R132). -/
def nextGustRun (speed threshold run : Nat) : Nat := if threshold ≤ speed then min 255 (run + 1) else 0

/-- The gate is a gust (R132): the run has just become equal to the gust count, or the speed is hard. -/
def isGust (speed threshold count hard run : Nat) : Bool :=
  (decide (threshold ≤ speed) && nextGustRun speed threshold run == count) || decide (hard ≤ speed)

/-- The lockout timer starts or restarts (R133). -/
def Work.startLockout (w : Work) : Work := { w with wind := { w.wind with lockout := some (w.now + w.lockoutTime) } }

/-- A gust (R132; log 30). -/
def Work.gust (w : Work) (speed : Nat) : Work :=
  let r := (w.startLockout).retractTrigger .wind
  r.1.emit (.wind speed true r.2)

/-- The wind gate closes with a count (R131, R132). -/
def Work.windGate (w : Work) (count : Nat) : Work :=
  if (w.mv awn).present then
    let w := w.notBefore (w.wind.gateEnd.getD 0)
    let speed := windSpeed (min 65535 count) w.windScale
    let run := w.wind.gustRun
    let w := { w with wind := { w.wind with count := 0, speed := speed, gateEnd := some (w.now + Config.gate),
                                            gustRun := nextGustRun speed w.gustThreshold run } }
    if isGust speed w.gustThreshold w.gustCount w.hardThreshold run then w.gust speed
    else if w.gustThreshold ≤ speed ∧ w.wind.lockout.isSome = true then w.startLockout
    else w
  else w

/-- WIND_GATE (R131). -/
def execWindGate (count : Nat) (s : State) : Result := .next (event s fun w => w.windGate count)

/-- The lockout timer expires (R133). -/
def Work.lockoutExpiry (w : Work) : Work :=
  match w.wind.lockout with
  | none => w
  | some t =>
    let w := w.notBefore t
    { w with wind := { w.wind with lockout := none } }.emit (.wind w.wind.speed false false)

/-- LOCKOUT_EXPIRY (R133). -/
def execLockoutExpiry (s : State) : Result := .next (event s Work.lockoutExpiry)

end Sys2Proof.Machine
end

