-- ==== Sys2Proof/Machine/Supply.lean ====
section
/-! DEFINITION. The commands of the Supply Monitor and the Budget Arbiter (Chapter 7). -/

namespace Sys2Proof.Machine

/-! ## The flags (R136..R139) -/

def Work.lowThreshold (w : Work) : Nat := w.profN 0x0600
def Work.highThreshold (w : Work) : Nat := w.profN 0x0602

/-- The restarts in force (R138). -/
def Work.lowRestart (w : Work) : Nat := max (w.profN 0x0601) (w.lowThreshold + 10)
def Work.highRestart (w : Work) : Nat := min (w.profN 0x0603) (w.highThreshold - 10)

/-- A run of consecutive values, held at 50. -/
def run50 (holds : Bool) (n : Nat) : Nat := if holds then min 50 (n + 1) else 0

/-- The runs after one filtered value (R137, R138). -/
def Work.supplyRuns (w : Work) (v : Nat) : Supply :=
  { w.sup with voltage := v,
               lowRun := run50 (v < w.lowThreshold) w.sup.lowRun, highRun := run50 (w.highThreshold < v) w.sup.highRun,
               lowClear := run50 (w.lowRestart ≤ v) w.sup.lowClear,
               highClear := run50 (v ≤ w.highRestart) w.sup.highClear }

/-- The SUPPLY event of a change (R139). -/
def Work.supplyEvent (w : Work) : Work := w.emit (.supply w.sup.low w.sup.high w.sup.voltage w.latchPolicy)

/-- Set one flag to a level; a change raises its event. -/
def Work.setLow (w : Work) (b : Bool) : Work :=
  if w.sup.low = b then w else { w with sup := { w.sup with low := b } }.supplyEvent
def Work.setHigh (w : Work) (b : Bool) : Work :=
  if w.sup.high = b then w else { w with sup := { w.sup with high := b } }.supplyEvent

/-- One filtered value: the clearings of R138 before the settings of R137. A value that changes both flags raises two SUPPLY
events, one a change, the low flag's first (log 39). -/
def Work.judgeVoltage (w : Work) (v : Nat) : Work :=
  let w := { w with sup := w.supplyRuns v }
  let auto := !w.latchPolicy
  let w := if auto && w.sup.lowClear == 50 then w.setLow false else w
  let w := if auto && w.sup.highClear == 50 then w.setHigh false else w
  let w := if w.sup.lowRun = 50 then w.setLow true else w
  if w.sup.highRun = 50 then w.setHigh true else w

/-- Conversion of a raw value to 10 mV (R136). -/
def voltsOf (raw : Nat) : Nat := raw * 125 / 256

/-- The least raw value that converts to a voltage. -/
def rawOf (v : Nat) : BitVec 12 := BitVec.ofNat 12 (min 4095 ((v * 256 + 124) / 125))

/-- One sample of VSUP (R136). -/
def Work.sampleSupply (w : Work) (raw : Nat) : Work :=
  let l := push8 w.sup.window (voltsOf raw)
  Work.judgeVoltage { w with sup := { w.sup with window := l } } (mean l)

/-- A filtered value as an operand gives it: the window holds it throughout (log 11). -/
def Work.withVoltage (w : Work) (v : Nat) : Work :=
  let w := w.showSupply (rawOf v)
  Work.judgeVoltage { w with sup := { w.sup with window := List.replicate 8 v } } v

/-- The value that can bring a run of a side to 50 (R137; log 2). -/
def Work.lastLowVoltage (w : Work) (side : SupplySide) : Work :=
  match side with
  | .low => { w with sup := { w.sup with lowRun := max 49 w.sup.lowRun } }
  | .high => { w with sup := { w.sup with highRun := max 49 w.sup.highRun } }

/-- SUPPLY_FLAG_SET (R137). -/
def execSupplyFlagSet (side : SupplySide) (v : Nat) (s : State) : Result :=
  .next (event s fun w => (w.lastLowVoltage side).withVoltage v)

/-- The value that can bring a clear run of a side to 50 (R138; log 2). -/
def Work.lastClearVoltage (w : Work) (side : SupplySide) : Work :=
  match side with
  | .low => { w with sup := { w.sup with lowClear := max 49 w.sup.lowClear } }
  | .high => { w with sup := { w.sup with highClear := max 49 w.sup.highClear } }

/-- SUPPLY_FLAG_CLEAR (R138). -/
def execSupplyFlagClear (side : SupplySide) (v : Nat) (s : State) : Result :=
  .next (event s fun w => (w.lastClearVoltage side).withVoltage v)

/-- FAULT_CLEAR naming SUPPLY (R138). Where both flags are set it raises two SUPPLY events, the low flag's first with state HIGH
(R139; log 39). -/
def Work.clearSupply (w : Work) : Work × Reply :=
  let v := w.sup.voltage
  if (!w.sup.low || decide (w.lowRestart ≤ v)) && (!w.sup.high || decide (v ≤ w.highRestart)) then
    ((w.setLow false).setHigh false, replyDone)
  else (w, replyNotReady .supply)

/-! ## The bus (R140, R141) -/

/-- The bus trip in 0.1 A. -/
def Work.busLimit (w : Work) : Nat := 10 * w.profN 0x0605

/-- The stops of a bus trip at one mover. -/
def Work.tripMover (w : Work) (m : MoverId) : Work := w.haltMover m .overcurrentBus

/-- The stops of a bus trip at the hydraulic work. -/
def Work.tripHyd (w : Work) : Work :=
  if w.lvl.phase ≠ .idle then w.endLevel .overcurrent false else w.endActivity .overcurrent false

/-- A bus trip (R141). -/
def Work.busTrip (w : Work) (sum : Nat) : Work :=
  let w := { w with sup := { w.sup with tripped := true, busRun := 0 } }
  let w := ((allMovers.foldl Work.tripMover w).dropRetract .overcurrentBus).tripHyd
  w.emit (.busOvercurrent sum w.hyd.current)

/-- One millisecond of the bus detector (R140). -/
def Work.judgeBus (w : Work) (sum : Nat) : Work :=
  let above := decide (w.busLimit < sum)
  let w := { w with sup := { w.sup with busSum := sum } }
  let run := if above != w.sup.tripped then w.sup.busRun + 1 else 0
  if 20 ≤ run then
    if w.sup.tripped then { w with sup := { w.sup with tripped := false, busRun := 0 } } else w.busTrip sum
  else { w with sup := { w.sup with busRun := run } }

/-- The bus sum (R140): the eight channel readings and the pump's. -/
def Work.busTotal (w : Work) : Nat := (allChans.map fun c => (w.ch c).current).sum + w.hyd.current

/-- The millisecond that can bring the bus run to 20, the detector being in a given state (R140; log 2). -/
def Work.lastBus (w : Work) (tripped : Bool) : Work :=
  if w.sup.tripped = tripped then { w with sup := { w.sup with busRun := max 19 w.sup.busRun } } else w

/-- BUS_OVERCURRENT_TRIP (R141). -/
def execBusOvercurrentTrip (sum : Nat) (s : State) : Result :=
  .next (event s fun w => if w.power = .active then (w.lastBus false).judgeBus sum else w)

/-- BUS_DETECTOR_REARM (R140). -/
def execBusDetectorRearm (sum : Nat) (s : State) : Result :=
  .next (event s fun w => if w.power = .active then (w.lastBus true).judgeBus sum else w)

/-! ## The maximum wait (R147) -/

/-- The end of the maximum wait of a queued entry. -/
def Work.maxWaitEnd (w : Work) (t : Fin 6) : Work :=
  match w.bud.queue.find? fun q => q.target == t with
  | none => w
  | some q =>
    let w := w.notBefore q.waitEnd
    if h : t.val < 5 then w.removeQueued ⟨t.val, h⟩ .budgetTimeout
    else if w.lvl.phase ≠ .idle then w.endLevel .budgetTimeout false
    else w.endActivity .budgetTimeout false

/-- QUEUE_MAX_WAIT (R147). -/
def execQueueMaxWait (t : Fin 6) (s : State) : Result := .next (event s fun w => w.maxWaitEnd t)

end Sys2Proof.Machine
end

