-- ==== Sys2Proof/Machine/Queries.lean ====
section
/-! DEFINITION. The queries and NOP: what each reply carries (R27, R59, R84, R101, R135, R149, R150, R166, R186, R189),
in the layouts of Section 12.4 with the absent encodings of R195 (log 20). -/

namespace Sys2Proof.Machine

/-- A query answered DONE with its data (R194). -/
def replyData (d : List Byte) : Reply := { status := .done, data := d }

/-- A query that always answers DONE. -/
def query (s : State) (kind tag : Byte) (data : State → List Byte) : State :=
  portRequest s kind tag fun s => (s, replyData (data s))

/-! ## The port (R186) -/

/-- NOP (R186). -/
def execNop (tag : Byte) (s : State) : Result := .next (query s 0x01 tag fun _ => [])

/-- The data of IDENT. -/
def State.identData (s : State) : List Byte :=
  let w := s.work
  halfBytes Config.deviceCode ++ [Config.revision] ++ u8 w.mode.code ++ flagByte [w.service] ++ u8 w.resetCause.code ++
    [w.store.note.setWidth 8] ++ u8 w.power.code ++ [w.wakeCauses.setWidth 8] ++ halfBytes s.port.attn ++
    u16 (s.linkTimer / 1000000)

/-- IDENT (R186). -/
def execIdent (tag : Byte) (s : State) : Result := .next (query s 0x02 tag State.identData)

/-- The data of ATTENTION; the reply itself is not counted. -/
def State.attentionData (s : State) : List Byte :=
  halfBytes s.port.attn ++ halfBytes s.port.mask ++ [s.work.wakeCauses.setWidth 8] ++ u8 s.port.outq.length

/-- ATTENTION (R186). -/
def execAttention (tag : Byte) (s : State) : Result := .next (query s 0x03 tag State.attentionData)

/-! ## POSTURE (R161, R166) -/

/-- A position in percent of a stroke (R161). -/
def percentOf (pos : Int) (stroke : Nat) : Nat := (max 0 (min 100 ((pos * 100).tdiv stroke))).toNat

/-- The room's position in percent, absent when its status is UNKNOWN (R161). -/
def Work.percent (w : Work) (m : MoverId) : Option Nat :=
  match (w.mv m).leader with
  | some c => if w.known m then some (percentOf (w.ch c).pos (w.effStroke c)) else none
  | none => none

/-- The posture of one room; an absent one reads 0. -/
def Work.roomPosture (w : Work) (m : MoverId) : List Byte :=
  if (w.mv m).present then flagByte [true, w.known m] ++ u8 (w.seatOf m).code ++ opt8 (w.percent m) else [0, 0, 0]

/-- The posture of the awning. -/
def Work.awningPosture (w : Work) : List Byte :=
  if (w.mv awn).present then u8 (1 + (if w.stowed then 2 else 0) + 4 * (w.seatOf awn).code) else [0]

/-- The data of POSTURE. -/
def State.postureData (s : State) : List Byte :=
  let w := s.work
  let i := w.inputs
  u8 s.ready.travel.code ++
    flagByte [s.ready.hazard, s.ready.travelOk, w.allRetracted, w.stabilized, w.lvl.levelHeld, w.speed.moving] ++
    u8 s.ready.alert.code ++ halfBytes w.inh ++
    flagByte [i.ign.level, i.pbrk.level, i.park.level, i.eng.level, i.wake.level] ++
    flagByte [i.ign.settled, i.pbrk.settled, i.park.settled, i.eng.settled, i.wake.settled] ++
    u16 w.speed.last ++ u8 w.speed.below ++ allRooms.flatMap w.roomPosture ++ w.awningPosture ++
    u8 w.lvl.lastOutcome.code ++ [supplyCode w.sup.low w.sup.high]

/-- POSTURE (R166). -/
def execPosture (tag : Byte) (s : State) : Result := .next (query s 0x04 tag State.postureData)

/-! ## CHANNEL (R27) -/

/-- The record of an UNUSED channel: the values of R2 (role, count 0, UNKNOWN, BETWEEN, COAST, its current reading) and every
other field 0 (R27, R195). -/
def Channel.unusedData (x : Channel) : List Byte :=
  u8 x.role.code ++ List.replicate 5 0 ++ s16 0 ++ u8 Seat.between.code ++ List.replicate 3 0 ++ u8 Bridge.coast.code ++
    u16 x.current ++ List.replicate 4 0

/-- The data of CHANNEL. -/
def Work.channelData (w : Work) (c : ChanId) : List Byte :=
  let x := w.ch c
  if x.used then
    u8 x.role.code ++ u8 x.state.code ++ opt8 (x.motion.map (·.phase.code)) ++
      opt8 (x.motion.map fun m => dirCode m.dir) ++ opt8 (x.motion.map (·.source.code)) ++
      flagByte [x.fenced, x.known, (w.learned c).isSome] ++ s16 x.pos ++ u8 x.seat.code ++ u16 (w.effStroke c) ++
      u8 x.duty ++ u8 x.bridge.code ++ u16 x.current ++ u8 x.retry ++ opt8 (x.fault.map LockKind.code) ++
      opt8 (x.lastLock.map fun l => l.1.code) ++ opt8 (x.lastLock.map fun l => l.2.code)
  else x.unusedData

/-- CHANNEL (R27). -/
def execChannel (tag index : Byte) (s : State) : Result :=
  .next (portRequest s 0x05 tag fun s =>
    (s, match decodeChan index with
        | some c => replyData (s.work.channelData c)
        | none => replyBadArgument))

/-! ## ROOM (R59) -/

/-- Time left on a lease in ms, absent without one. -/
def leaseLeft (now : Time) (t : Option Time) : List Byte := opt16 (t.map (msLeft now))

/-- The levels of a switch pair: bit 0 IN, bit 1 OUT. -/
def Mover.switchByte (x : Mover) : List Byte := flagByte [x.swIn.pressed, x.swOut.pressed]

/-- Position and effective stroke of one channel of a room. The position of the follower that a single-motor room does not
have reads 8000H, the absent code of a signed item, although its layout row does not say 'signed' (the model's choice,
log 20). -/
def Work.placeData (w : Work) (c : Option ChanId) : List Byte :=
  optS16 (c.map fun c => (w.ch c).pos) ++ opt16 (c.map w.effStroke)

/-- The data of ROOM for a present room. -/
def Work.roomData (w : Work) (m : MoverId) : List Byte :=
  let x := w.mv m
  flagByte [true, w.known m, w.faulted m, w.fenced m] ++ u8 (w.seatOf m).code ++ opt8 (x.leader.map (·.val)) ++
    opt8 (x.follower.map (·.val)) ++ u16 (w.nominal m) ++ u8 (w.activity m).code ++
    opt8 (x.claim.map (·.source.code)) ++ opt8 (x.claim.map fun c => dirCode c.dir) ++
    opt8 (x.claim.map (·.kind.code)) ++ leaseLeft w.now (x.claim.bind (·.lease)) ++
    opt8 (x.pendRev.map (·.source.code)) ++ opt8 (x.pendRev.map fun r => dirCode r.dir) ++
    opt8 (x.holdOffDir.map dirCode) ++ w.placeData x.leader ++ w.placeData x.follower ++ optS16 (w.racking m) ++
    u8 x.sync.code ++ opt8 (x.learn.map (·.method.code)) ++ opt8 (x.learn.map fun l => legCode l.leg) ++ x.switchByte

/-- The answer to ROOM: an absent room reads 0 in all its 29 bytes. -/
def Work.roomReply (w : Work) (index : Byte) : Reply :=
  match decodeRoom index with
  | some m => replyData (if (w.mv m).present then w.roomData m else List.replicate 29 0)
  | none => replyBadArgument

/-- ROOM (R59). -/
def execRoom (tag index : Byte) (s : State) : Result :=
  .next (portRequest s 0x06 tag fun s => (s, s.work.roomReply index))

/-! ## JACKS (R84) -/

/-- The run time of a RUNNING pump in seconds; absent in every other pump state, where R84 gives none although the run timer of
R60 reads 0 after a reset (the model's choice, log 20). -/
def Work.runSeconds (w : Work) : Option Nat :=
  match w.hyd.pump with
  | .running => w.hyd.runStart.map fun t => (w.now - t) / 1000000
  | _ => none

/-- The time left in DWELL or REST, in 100 ms. -/
def Work.pumpLeft (w : Work) : Option Nat :=
  match w.hyd.pump with
  | .dwell => w.hyd.dwellEnd.map fun t => (t - w.now) / 100000
  | .rest => w.hyd.restEnd.map fun t => (t - w.now) / 100000
  | _ => none

/-- The lease left of a MANUAL activity in ms, or the seconds since the pump start of a STOW. -/
def Work.activityTime (w : Work) (a : HydActivity) : Option Nat :=
  match a.kind with
  | .manual => a.lease.map (msLeft w.now)
  | .stow => a.start.map fun t => (w.now - t) / 1000000
  | .level => none

/-- One jack; an absent one reads 0. -/
def Work.jackData (w : Work) (j : JackId) : List Byte :=
  let x := w.jk j
  if w.jackPresent j then
    u8 ((w.jackState j).code + 16 * (match x.fault with | some f => f.code | none => 0)) ++
      flagByte [true, x.valid, x.grounded, x.retracted, x.atLimit, x.fenced] ++ u16 x.stroke
  else [0, 0, 0, 0]

/-- The activity of the JACKS reply: kind, direction, phase, jack set, open set, time. With no activity both sets read 0, the
empty set, and the other items carry their absent codes (R84, R195; log 20). -/
def Work.activityData (w : Work) : List Byte :=
  match w.hyd.activity with
  | some a => u8 a.kind.code ++ u8 (dirCode a.dir) ++ u8 a.phase.code ++ [a.jackSet.byte, a.openSet.byte] ++
      opt16 (w.activityTime a)
  | none => [0xFF, 0xFF, 0xFF, 0, 0] ++ opt16 none

/-- The data of JACKS. -/
def State.jacksData (s : State) : List Byte :=
  let w := s.work
  let h := w.hyd
  u8 w.jackCount ++ u8 h.pump.code ++ u8 (dirCode h.pdir) ++ u16 h.current ++ opt16 w.runSeconds ++ opt16 w.pumpLeft ++
    w.activityData ++ u8 (match h.lastKind with | some k => k.code | none => 3) ++ u8 h.lastOutcome.code ++
    allJacks.flatMap w.jackData

/-- JACKS (R84). -/
def execJacks (tag : Byte) (s : State) : Result := .next (query s 0x07 tag State.jacksData)

/-! ## LEVEL_STATUS (R101) -/

/-- The time since the latest tilt sample, in ms; absent before the first sample since reset, where R101 names no value (the
model's choice, log 20). -/
def Work.tiltAge (w : Work) : Option Nat := w.tilt.lastSample.map fun t => (w.now - t) / 1000

/-- The data of LEVEL_STATUS. -/
def State.levelData (s : State) : List Byte :=
  let w := s.work
  let l := w.lvl
  let t := w.tilt
  let z := w.zero
  let zp := w.store.learned.zero.isSome
  u8 (l.phase.code + 8 * levelModeCode l.mode + (if l.levelHeld then 32 else 0) + (if w.stabilized then 64 else 0) +
      (if t.fault then 128 else 0)) ++
    u8 l.lastOutcome.code ++ u8 (t.good + 32 * l.pass) ++ flagByte [t.clamped, zp, zp, l.twistOver] ++
    s16 t.tx ++ s16 t.ty ++ s16 z.1 ++ s16 z.2 ++ s16 t.p ++ s16 t.q ++ opt16 w.tiltAge ++
    opt8 (t.zeroRun.map (·.count)) ++ l.heights.toList.flatMap optS16 ++ l.demands.toList.flatMap opt16 ++
    [l.liftSet.byte] ++ u8 l.levelRun ++ optS16 l.twist

/-- LEVEL_STATUS (R101). -/
def execLevelStatus (tag : Byte) (s : State) : Result := .next (query s 0x08 tag State.levelData)

/-! ## WIND (R135) -/

/-- The seconds left of the lockout; 0 when it is not active. -/
def Work.lockoutLeft (w : Work) : Nat :=
  match w.wind.lockout with
  | some t => (t - w.now) / 1000000
  | none => 0

/-- The Wind Watch in the WIND reply. -/
def Work.watchData (w : Work) : List Byte :=
  u16 w.wind.speed ++ u16 w.wind.count ++ u8 w.wind.gustRun ++ u16 w.lockoutLeft ++ u16 w.gustThreshold ++
    u8 w.gustCount ++ u16 w.hardThreshold ++ u8 (w.profN 0x0506)

/-- The awning's claim in the WIND reply. -/
def Work.awningClaim (w : Work) : List Byte :=
  let x := w.mv awn
  opt8 (x.claim.map (·.source.code)) ++ opt8 (x.claim.map fun c => dirCode c.dir) ++ opt8 (x.claim.map (·.kind.code)) ++
    opt8 ((x.claim.bind (·.purpose)).map Purpose.code) ++ leaseLeft w.now (x.claim.bind (·.lease)) ++
    opt8 (x.pendRetract.map Purpose.code) ++ opt8 (x.pendRev.map fun r => dirCode r.dir) ++ opt8 (x.holdOffDir.map dirCode)

/-- The awning channel in the WIND reply. -/
def Work.awningPlace (w : Work) (c : ChanId) : List Byte :=
  s16 (w.ch c).pos ++ u8 (statusCode (w.ch c).known) ++ u8 (w.seatOf awn).code ++ u16 (w.effStroke c)

/-- The data of WIND; with the awning absent every one of its 33 bytes reads 0. The neighbour room reads absent also when the
COACH field names a room that is not present (log 20). -/
def State.windData (s : State) : List Byte :=
  let w := s.work
  let x := w.mv awn
  match x.leader with
  | some c =>
    flagByte [true, w.wind.lockout.isSome, true, w.stowed, w.faulted awn, w.fenced awn, w.oneTouch, w.travelRetract] ++
      w.watchData ++ u8 c.val ++ opt8 (w.neighbour.map (·.val)) ++ u8 (w.activity awn).code ++ w.awningClaim ++
      w.awningPlace c ++ x.switchByte
  | none => List.replicate 33 0

/-- WIND (R135). -/
def execWind (tag : Byte) (s : State) : Result := .next (query s 0x09 tag State.windData)

/-! ## SUPPLY and QUEUE (R149, R150) -/

/-- The data of SUPPLY. -/
def State.supplyData (s : State) : List Byte :=
  let w := s.work
  let x := w.sup
  u16 x.voltage ++ u8 x.window.length ++ flagByte [x.low, x.high, w.latchPolicy, x.tripped] ++ [supplyCode x.low x.high] ++
    u8 x.lowRun ++ u8 x.highRun ++ u8 x.lowClear ++ u8 x.highClear ++ u16 w.lowThreshold ++ u16 w.highThreshold ++
    u16 w.lowRestart ++ u16 w.highRestart ++ u16 x.busSum ++ u8 x.busRun ++ u16 (w.profN 0x0605) ++ u16 w.budget ++
    u16 w.bud.sum ++ u16 (w.budget - w.bud.sum)

/-- SUPPLY (R149). -/
def execSupply (tag : Byte) (s : State) : Result := .next (query s 0x0A tag State.supplyData)

/-- The target of an entry byte: a pump run is given as the kind of its activity (Section 12.4, note 1). -/
def Work.entryTarget (w : Work) (t : Fin 6) : Nat :=
  if t.val < 5 then t.val
  else match w.hyd.activity with
    | some a => 5 + a.kind.code
    | none => 5

/-- The source of an entry byte (Section 12.4, note 1). -/
def entrySource (src : Source) (p : Option Purpose) : Nat :=
  match src, p with
  | .link, _ => 0
  | .panel, _ => 1
  | .auto, some .travel => 3
  | .auto, _ => 2

/-- One admitted entry. -/
def Work.admittedData (w : Work) (e : Admitted) : List Byte :=
  u8 (w.entryTarget e.target) ++ u8 e.draw ++ u16 ((w.now - e.since) / 1000)

/-- One queued entry. -/
def Work.queuedData (w : Work) (e : Queued) : List Byte :=
  u8 (w.entryTarget e.target + 8 * dirCode e.dir + 16 * entrySource e.source e.purpose) ++ u8 e.draw ++
    leaseLeft w.now e.lease ++ u16 (msLeft w.now e.waitEnd)

/-- The data of QUEUE. -/
def State.queueData (s : State) : List Byte :=
  let w := s.work
  u16 w.budget ++ u16 w.bud.sum ++ u8 w.queueLimit ++ u8 (w.profN 0x0607) ++ u8 w.bud.admitted.length ++
    w.bud.admitted.flatMap w.admittedData ++ w.bud.queue.flatMap w.queuedData

/-- QUEUE (R150). -/
def execQueue (tag : Byte) (s : State) : Result := .next (query s 0x0B tag State.queueData)

/-! ## PROFILE_READ (R189) -/

/-- The answer to PROFILE_READ: the working values, or BAD_ARGUMENT when an id names no field. -/
def Work.readReply (w : Work) (ids : List Half) : Reply :=
  if ids.all fun i => (fieldOf i.toNat).isSome then
    replyData (ids.flatMap fun i => halfBytes (BitVec.ofInt 16 (w.prof i.toNat)))
  else replyBadArgument

/-- PROFILE_READ (R189). -/
def execProfileRead (tag : Byte) (ids : List Half) (s : State) : Result :=
  .next (portRequest s 0x0C tag fun s => (s, s.work.readReply ids))

end Sys2Proof.Machine
end

