-- ==== Sys2Proof/Machine/Service.lean ====
section
/-! DEFINITION. FAULT_CLEAR, fences, service mode, and the requests of the profile (R25, R26, R82, R83, R138, R184, R185,
R188..R190). -/

namespace Sys2Proof.Machine

/-! ## FAULT_CLEAR (R26, R83, R138) -/

/-- The sync state leaves RACKED when the pair is at rest and neither channel is FAULTED (R46). -/
def Work.unrack (w : Work) (m : MoverId) : Work :=
  let x := w.mv m
  if x.sync = .racked ∧ w.faulted m = false ∧ w.atRest m = true then w.setMv m { x with sync := .off } else w

/-- A FAULTED channel returns to IDLE (R26). -/
def Work.clearChan (w : Work) (c : ChanId) : Work :=
  let x := w.ch c
  if x.state = .faulted then
    let w := w.setCh c { x with state := .idle, fault := none, lastLock := none, bridge := .brake }
    match w.moverOf c with
    | some m => w.unrack m
    | none => w
  else w

/-- The fault of a jack is removed (R83). -/
def Work.clearJack (w : Work) (j : JackId) : Work :=
  let x := w.jk j
  if x.fault.isSome then w.setJk j { x with fault := none, outOfRange := 0 } else w

/-- The answer to FAULT_CLEAR. -/
def Work.doFaultClear (w : Work) (target : Byte) : Work × Reply :=
  if w.mode = .unconfigured then (w, replyBadMode)
  else
    match decodeClear target with
    | none => (w, replyBadArgument)
    | some .supply => w.clearSupply
    | some (.chan c) => if (w.ch c).used then (w.clearChan c, replyDone) else (w, replyBadArgument)
    | some (.jack j) => if w.jackPresent j then (w.clearJack j, replyDone) else (w, replyBadArgument)

/-- FAULT_CLEAR (R26). -/
def execFaultClear (tag target : Byte) (s : State) : Result :=
  .next (request s 0x18 tag fun s => s.work.doFaultClear target)

/-! ## Fences (R25, R82) -/

/-- A fence at one channel: the flag, the runs cleared, and what its mover holds is stopped (R25). -/
def Work.fenceChan (w : Work) (c : ChanId) : Work :=
  let w := w.setCh c { w.ch c with fenced := true, ocRun := 0, osRun := 0, prevCount := none, lastJudge := none }
  match w.moverOf c with
  | none => w
  | some m =>
    let w := if m = awn then w.dropRetract .fenced else w
    w.haltMover m .fenced

/-- FENCE_SET at the channels and jacks of the masks, one after another in rising index: the work that a fence reaches judges
after each (R25, R82, R117; log 10). -/
def Work.setFences (w : Work) (cm jm : Byte) : Work :=
  let w := allChans.foldl (fun w c => if cm.getLsbD c.val && (w.ch c).used then w.fenceChan c else w) w
  allJacks.foldl (fun w j => if jm.getLsbD j.val && w.jackPresent j then w.fenceJack j else w) w

/-- FENCE_CLEAR at the channels and jacks of the masks. -/
def Work.clearFences (w : Work) (cm jm : Byte) : Work :=
  let w := allChans.foldl (fun w c =>
    if cm.getLsbD c.val && (w.ch c).used then w.setCh c { w.ch c with fenced := false } else w) w
  allJacks.foldl (fun w j =>
    if jm.getLsbD j.val && w.jackPresent j then w.setJk j { w.jk j with fenced := false } else w) w

/-- A bit names an UNUSED channel, an absent jack, or nothing (R25, R82). -/
def Work.fenceClamped (w : Work) (cm jm : Byte) : Bool :=
  (allChans.any fun c => cm.getLsbD c.val && !(w.ch c).used) ||
    (allJacks.any fun j => jm.getLsbD j.val && !w.jackPresent j) || jm.getLsbD 6 || jm.getLsbD 7

/-- FENCE_SET (R25). -/
def execFenceSet (tag cm jm : Byte) (s : State) : Result :=
  .next (request s 0x19 tag fun s =>
    if s.work.mode = .unconfigured then (s.work, replyBadMode)
    else (s.work.setFences cm jm, replyChanged (s.work.fenceClamped cm jm)))

/-- FENCE_CLEAR (R25). -/
def execFenceClear (tag cm jm : Byte) (s : State) : Result :=
  .next (request s 0x1A tag fun s =>
    if s.work.mode = .unconfigured then (s.work, replyBadMode)
    else (s.work.clearFences cm jm, replyChanged (s.work.fenceClamped cm jm)))

/-! ## SERVICE_ENTER and SERVICE_LEAVE (R184, R185) -/

/-- The detail of a refused SERVICE_ENTER (R184). -/
def Work.motionDetail (w : Work) : BusyDetail :=
  if w.hyd.activity.isSome || w.lvl.phase != .idle then .hydraulic else .roomMoving

/-- The answer to SERVICE_ENTER. -/
def doServiceEnter (w : Work) (t : Travel) : Work × Reply :=
  match w.mode with
  | .service => (w, replyDone)
  | .unconfigured => ({ w with service := true }, replyDone)
  | .normal =>
    if w.settlingStage then (w, replyNotReady .jacks)
    else if t = .inMotion then (w, replyBusy w.motionDetail)
    else ({ w with mode := .service, service := true }, replyDone)

/-- SERVICE_ENTER (R184). -/
def execServiceEnter (tag : Byte) (s : State) : Result :=
  .next (request s 0x28 tag fun s => doServiceEnter s.work s.ready.travel)

/-- Learning runs end with the service mode (R57, R93, R185). -/
def Work.endService (w : Work) : Work :=
  let w := allRooms.foldl (fun w r => if (w.mv r).learn.isSome then w.haltMover r .stopped else w) w
  { (w.abortZero) with mode := .normal, service := false }

/-- The answer to SERVICE_LEAVE. -/
def Work.doServiceLeave (w : Work) : Work × Reply :=
  match w.mode with
  | .service => (w.endService, replyDone)
  | .unconfigured => ({ w with service := false }, replyDone)
  | .normal => (w, replyDone)

/-- SERVICE_LEAVE (R185). -/
def execServiceLeave (tag : Byte) (s : State) : Result :=
  .next (request s 0x29 tag fun s => s.work.doServiceLeave)

/-! ## PROFILE_WRITE and PROFILE_COMMIT (R143, R188, R190) -/

/-- The profile may be written and committed (R188, R190). -/
def Work.mayWrite (w : Work) : Bool :=
  w.mode == .service || (w.mode == .unconfigured && w.service)

/-- An id of the SUPPLY section. -/
def isSupplyId (id : Half) : Bool := 0x0600 ≤ id.toNat && id.toNat ≤ 0x0609

/-- Write one accepted pair; the flag says that some value was changed. -/
def writePair (r : Profile × Bool) (x : Half × Half) : Profile × Bool :=
  match acceptValue x.1.toNat x.2.toInt with
  | some v => (r.1.set x.1.toNat v.1, r.2 || v.2)
  | none => r

/-- Every pair names a field and, for an enumerated field, a value it allows. -/
def pairsOk (ps : List (Half × Half)) : Bool := ps.all fun x => (acceptValue x.1.toNat x.2.toInt).isSome

/-- The only admitted work is a pump run (R143), or the only work admitted or queued is pump runs (R190). -/
def onlyPump (ts : List (Fin 6)) : BusyDetail := if ts.all (· == hydTarget) then .hydraulic else .roomMoving

/-- What follows a write at its event: limits move (R14), racking is judged on the counts and the rack limits they leave (R46),
a new budget is judged (R143), a lowered run limit acts (R63). -/
def Work.afterWrite (w : Work) : Work :=
  let w := { allRooms.foldl Work.judgeRack w.clampAll with headDue := true }
  match w.hyd.pump, w.hyd.runStart with
  | .running, some t => if t + w.runLimit ≤ w.now then w.overrunStop else w
  | _, _ => w

/-- The answer to PROFILE_WRITE. -/
def Work.doWrite (w : Work) (ps : List (Half × Half)) : Work × Reply :=
  if w.mayWrite = false then (w, replyBadMode)
  else if w.commitInFlight then (w, replyBusy .store)
  else if pairsOk ps = false then (w, replyBadArgument)
  else if (ps.any fun x => isSupplyId x.1) && !w.bud.admitted.isEmpty then
    (w, replyBusy (onlyPump (w.bud.admitted.map (·.target))))
  else
    let r := ps.foldl writePair (w.store.working, false)
    (Work.afterWrite { w with store := { w.store with working := r.1 } }, replyChanged r.2)

/-- PROFILE_WRITE (R188). -/
def execProfileWrite (tag : Byte) (ps : List (Half × Half)) (s : State) : Result :=
  .next (request s 0x2D tag fun s => s.work.doWrite ps)

/-- The answer to PROFILE_COMMIT. -/
def Work.doCommit (w : Work) : Work × Reply :=
  let ts := w.bud.admitted.map (·.target) ++ w.bud.queue.map (·.target)
  if w.mayWrite = false then (w, replyBadMode)
  else if w.commitInFlight then (w, replyBusy .store)
  else if ts.isEmpty then (w.askCommit, replyAccepted)
  else (w, replyBusy (onlyPump ts))

/-- PROFILE_COMMIT (R190). -/
def execProfileCommit (tag : Byte) (s : State) : Result := .next (request s 0x2E tag fun s => s.work.doCommit)

/-! ## Requests of the port (R182, R183) -/

/-- ATTENTION_CLEAR at the port and the wake-cause set (R174, R182). -/
def State.clearAttention (s : State) (mask : Half) : State :=
  { s with port := { s.port with attn := s.port.attn &&& ~~~ (mask &&& 0x7FFF) },
           work := if mask &&& attnWake = 0 then s.work else { s.work with wakeCauses := 0 } }

/-- ATTENTION_CLEAR (R182). -/
def execAttentionClear (tag : Byte) (mask : Half) (s : State) : Result :=
  .next (portRequest s 0x1E tag fun s => (s.clearAttention mask, replyChanged (mask &&& 0x8000 != 0)))

/-- The eleven report classes. -/
def classBits : BitVec 16 := 0x07FF

/-- REPORT_ENABLE (R183). -/
def execReportEnable (tag : Byte) (mask : Half) (s : State) : Result :=
  .next (portRequest s 0x1F tag fun s =>
    ({ s with port := { s.port with mask := s.port.mask ||| (mask &&& classBits) } },
      replyChanged (mask &&& ~~~ classBits != 0)))

/-- REPORT_DISABLE (R183). -/
def execReportDisable (tag : Byte) (mask : Half) (s : State) : Result :=
  .next (portRequest s 0x20 tag fun s =>
    ({ s with port := { s.port with mask := s.port.mask &&& ~~~ (mask &&& classBits) } },
      replyChanged (mask &&& ~~~ classBits != 0)))

end Sys2Proof.Machine
end

