-- ==== Sys2Proof/Machine/Startup.lean ====
section
/-! DEFINITION. Reset and start-up (R1, R29, R121, R175, R187, R192, R193). -/

namespace Sys2Proof.Machine

/-! ## Reset (R192 step 1) -/

/-- The sections a commit that is cut leaves (R190): those before place `k` fresh, `k` bad, later ones as they were. -/
def Store.cutCommit (st : Store) (k : Fin 6) : Store :=
  { st with sections := Vector.ofFn fun i : Fin 6 =>
      if i < k then some (Record.fresh (sectionVals st.working i))
      else if i = k then some (Record.cut (sectionVals st.working i))
      else st.sections[i] }

/-- A record whose write is cut (R191). -/
def cutRecord (r : Option Record) : Option Record := r.map fun x => Record.cut x.vals

/-- Storage as a reset finds it: a job being written leaves its record bad (R190, R191); `free` is the counter of the free
values (log 8). -/
def Store.cut (st : Store) (free : Nat) : Store :=
  match st.busy with
  | none => st
  | some j =>
    match j.job with
    | .checkpoint c _ _ => { st with checkpoints := st.checkpoints.set c (cutRecord j.record) }
    | .learned => { st with learnedRec := cutRecord j.record }
    | .commit => st.cutCommit (Config.freeCommitSection free)

/-- What a reset keeps of the store: storage. -/
def Store.afterReset (st : Store) : Store :=
  { sections := st.sections, learnedRec := st.learnedRec, checkpoints := st.checkpoints }

/-- The state of step 1 of R192: every block at its reset values; storage, pins and the model's clock and counters stay. -/
def State.resetTo (s : State) (stage : Stage) (cause : ResetCause) : State :=
  let w := s.work
  { pending := s.pending,
    work := { now := w.now, resetAt := w.now, stage := stage, resetCause := cause,
              store := (w.store.cut w.free).afterReset, pins := w.pins, serial := w.serial, free := w.free + 1 } }

/-- The stage a reset leaves: the part stays in step 1 while RESET# is asserted. -/
def Pins.resetStage (p : Pins) : Stage := if p.reset then .held else .loading

/-- POWER_ON_RESET (R192). -/
def execPowerOnReset (s : State) : Result := .next (s.resetTo s.work.pins.resetStage .power)

/-- RESET# goes to a level. -/
def State.setResetPin (s : State) (b : Bool) : State :=
  { s with work := { s.work with pins := { s.work.pins with reset := b } } }

/-- RESET_PIN_ASSERTED (R192; log 21). -/
def execResetPinAsserted (s : State) : Result := .next ((s.setResetPin true).resetTo .held s.work.resetCause)

/-- RESET_PIN_RELEASED (R192): a release that follows an assertion. -/
def execResetPinReleased (s : State) : Result :=
  .next (if s.work.pins.reset then (s.setResetPin false).resetTo .loading .pin else s)

/-- RESTART (R193): no place, no reply. -/
def execRestart (_tag : Byte) (s : State) : Result :=
  .next (if s.work.awake then s.resetTo s.work.pins.resetStage .restart else s)

/-! ## The COACH section (R187) -/

/-- A channel index in a COACH field. -/
def chanOf (v : Int) : Option ChanId := decodeChan (if 0 ≤ v ∧ v < 8 then BitVec.ofNat 8 v.toNat else 0xFF)

/-- The role a COACH field names. -/
def roleOf (v : Int) : Role :=
  if v = 0 then .roomLeader else if v = 1 then .roomFollower else if v = 2 then .awning else .unused

/-- The role the COACH section gives a channel. -/
def Profile.role (p : Profile) (c : ChanId) : Role := roleOf (p.get (0x0100 + c.val))

/-- The leader of a room, when it names a channel of role ROOM_LEADER. -/
def Profile.leader (p : Profile) (r : MoverId) : Option ChanId :=
  (chanOf (p.get (0x0110 + r.val))).filter fun c => p.role c == .roomLeader

/-- The follower of a room; one that names a channel of any other role is taken as absent. -/
def Profile.follower (p : Profile) (r : MoverId) : Option ChanId :=
  (chanOf (p.get (0x0118 + r.val))).filter fun c => p.role c == .roomFollower

/-- The channels a room with a leader names (log 19). -/
def Profile.named (p : Profile) (r : MoverId) : List ChanId :=
  match p.leader r with
  | none => []
  | some c => c :: (p.follower r).toList

/-- A room is present: it has a leader, and no lower-numbered room names one of its channels. -/
def Profile.roomPresent (p : Profile) (r : MoverId) : Bool :=
  (p.leader r).isSome &&
    allRooms.all fun q => !decide (q < r) || (p.named r).all fun c => !(p.named q).contains c

/-- The awning channel: the lowest-numbered channel of role AWNING. -/
def Profile.awningChan (p : Profile) : Option ChanId := allChans.find? fun c => p.role c == .awning

/-- The channels of a mover as the COACH section gives them, the leader first. -/
def Profile.moverChans (p : Profile) (m : MoverId) : Option ChanId × Option ChanId :=
  if m = awn then (p.awningChan, none)
  else if p.roomPresent m then (p.leader m, p.follower m)
  else (none, none)

/-- The room table and the awning record (R29, R121). -/
def Profile.mover (p : Profile) (m : MoverId) : Mover :=
  let x := p.moverChans m
  { present := x.1.isSome, leader := x.1, follower := x.2 }

/-- The role a channel acts in: UNUSED when it serves nothing (R2; log 19). -/
def Profile.actingRole (p : Profile) (c : ChanId) : Role :=
  if allMovers.any fun m => (p.moverChans m).1 == some c || (p.moverChans m).2 == some c then p.role c else .unused

/-! ## The load (R192 steps 2 to 5) -/

/-- A channel record at the load, before its checkpoint is read; a channel in use goes to BRAKE (R1). -/
def Profile.channel (p : Profile) (c : ChanId) : Channel :=
  { role := p.actingRole c, bridge := if p.actingRole c = .unused then .coast else .brake }

/-- A valid AT_REST checkpoint restores count, status and seat (R1, R192 step 4). -/
def Channel.restore (x : Channel) (cp : Option Checkpoint) (limit : Int) : Channel :=
  match cp with
  | some k =>
    if x.used && !k.inMotion then { x with pos := min k.pos limit, known := k.known, seat := k.seat } else x
  | none => x

/-- Restore one channel from its stored checkpoint. -/
def Work.restoreChan (w : Work) (c : ChanId) : Work :=
  w.setCh c ((w.ch c).restore (readCheckpoint w.store.checkpoints[c]) (w.upperLimit c))

/-- The store after the load: working profile, COACH values in force, LEARNED record, profile note. -/
def Store.load (st : Store) : Store :=
  let p := loadProfile st.sections
  let bad := badSections st.sections
  { st with working := p, coach := p.filter fun x => x.1 < 0x0200, learned := (readLearned st.learnedRec).getD {},
            note := if (readLearned st.learnedRec).isSome then bad else bad ||| 0x40 }

/-- The blocks after the load, before the checkpoints. -/
def Work.formed (w : Work) : Work :=
  let st := w.store.load
  { w with
    store := st, stage := .settling, loadAt := w.now,
    mode := if st.note.getLsbD 0 then .unconfigured else .normal,
    chans := Vector.ofFn fun c : ChanId => st.working.channel c,
    movers := Vector.ofFn fun m : MoverId => st.working.mover m,
    hyd := { w.hyd with scanAt := w.now },
    tilt := { w.tilt with blockAt := some w.now },
    wind := { w.wind with gateEnd := if (st.working.mover awn).present then some (w.now + Config.gate) else none },
    speed := { w.speed with gateEnd := some (w.now + Config.gate) } }

/-- The start-up load. -/
def Work.load (w : Work) : Work :=
  let w := allChans.foldl Work.restoreChan w.formed
  { w with inh := w.deriveInh }

/-- The load completes (R175, R192 step 5). -/
def State.load (s : State) : State :=
  { s with work := s.work.load, port := { s.port with attn := attnResetSeen, linkAt := some s.work.now } }

/-- STARTUP_LOAD_COMPLETE (R192). -/
def execStartupLoadComplete (s : State) : Result := .next (if s.work.stage = .loading then s.load else s)

/-! ## The end of the start-up (R68, R192 step 6) -/

/-- A jack whose sensors have settled (log 28). -/
def Jack.settle (x : Jack) : Jack :=
  { x with grounded := if x.groundSettled then x.grounded else x.latestRead,
           groundRun := if x.groundSettled then x.groundRun else 0,
           groundSettled := true, strokeSettled := true, retractSettled := true }

/-- Every present jack is settled, 500 ms after the load. -/
def Work.settleJacks (w : Work) : Work :=
  let w := w.notBefore (w.loadAt + Config.scanSettle)
  { w with jacks := Vector.ofFn fun j : JackId => if w.jackPresent j then (w.jk j).settle else w.jk j }

/-- STARTUP_COMPLETE (R192). -/
def execStartupComplete (s : State) : Result :=
  .next (if s.work.stage = .settling then finish s s.work.settleJacks none else s)

end Sys2Proof.Machine
end

