-- ==== Sys2Proof/Machine/Link.lean ====
section
/-! DEFINITION. The Link Port: selections (R173, R175, R176) and the judgement of the inbound frame (R178, R179). -/

namespace Sys2Proof.Machine

/-! ## SELECT_ASSERTED (R169, R172, R173, R176) -/

/-- A selection of a part that takes frames: the head is taken to shift out and the link timer restarts. -/
def State.select (s : State) : State :=
  let s := s.toActive
  { s with port := { s.port with selected := true, wakeSel := false, shift := s.port.outq.head?,
                                 linkAt := some s.work.now, inbound := [], inCount := 0 } }

/-- A selection before the load completes shifts out the idle frame (R175). -/
def State.selectEarly (s : State) : State :=
  { s with port := { s.port with selected := true, wakeSel := false, shift := none, inbound := [], inCount := 0 } }

/-- The wake that a selection brings: cause SEL alone (R172, R173; log 29). -/
def selWake : WakeSigns := { sel := true, ign := false, pbrk := false, wake := false, panel := 0 }

/-- SELECT_ASSERTED (R176; log 30). In DORMANT it wakes the part at the assertion itself (R173; log 29). -/
def execSelectAsserted (s : State) : Result :=
  .next (if s.port.selected then s
    else if s.work.awake then s.select
    else if s.work.asleep then s.wakeUp selWake
    else s.selectEarly)

/-! ## SELECTION_END (R176, R178, R179) -/

/-- The head leaves when it was shifted out in full (R176 step 1). -/
def Port.collect (p : Port) (clocked : Nat) : Port :=
  match p.shift with
  | some f => if f.size ≤ clocked then { p with outq := p.outq.tail } else p
  | none => p

/-- The selection ends: what was received stays in the inbound buffer, at most 52 bytes of it (R176), until the next assertion
empties it (the model's choice, log 46). -/
def Port.endSelection (p : Port) (rx : List Byte) : Port :=
  { p with selected := false, wakeSel := false, shift := none, inbound := rx.take 52, inCount := rx.length }

/-- The frame that is not the head's: a general reply, when it has a place (R179). -/
def State.answer (s : State) (f : Frame) : State :=
  if Config.outPlaces ≤ s.port.outq.length then s.overrun else { s with port := s.port.push f }

/-- LINK_ERROR (R178, R179). -/
def State.linkError (s : State) : State := { s with port := { s.port with attn := s.port.attn ||| attnLinkError } }

/-- What the judgement of R178 makes of the bytes received. -/
inductive Judgement where
  | dropped
  | lengthError (tag : Byte)
  | checkError
  | idle
  | unknownKind (tag : Byte)
  | badLength (kind tag : Byte)
  | request (i : Instr)
  deriving DecidableEq, Repr

/-- Lines 3 to 7 of R178, on a frame that is all there. -/
def judgeFrame (kind tag : Byte) (payload : List Byte) (covered : List Byte) (check : Byte) : Judgement :=
  if crc8 covered ≠ check then .checkError
  else if kind = 0 ∧ tag = 0 ∧ payload = [] then .idle
  else
    match decodeRequest kind tag payload with
    | .unknownKind => .unknownKind tag
    | .badLength => .badLength kind tag
    | .request i => .request i

/-- The table of R178. -/
def judge (rx : List Byte) : Judgement :=
  match rx with
  | len :: kind :: tag :: rest =>
    if rest = [] then .dropped
    else if 48 < len.toNat ∨ rest.length < len.toNat + 1 then .lengthError tag
    else judgeFrame kind tag (rest.take len.toNat) (len :: kind :: tag :: rest.take len.toNat) (rest.getD len.toNat 0)
  | _ => .dropped

/-- Line 7 of R178: the request goes to the block that owns what it names. -/
def runRequest (i : Instr) (s : State) : Result :=
  match i with
  | .nop tag => execNop tag s
  | .ident tag => execIdent tag s
  | .attention tag => execAttention tag s
  | .posture tag => execPosture tag s
  | .channel tag index => execChannel tag index s
  | .room tag index => execRoom tag index s
  | .jacks tag => execJacks tag s
  | .levelStatus tag => execLevelStatus tag s
  | .wind tag => execWind tag s
  | .supply tag => execSupply tag s
  | .queue tag => execQueue tag s
  | .profileRead tag ids => execProfileRead tag ids s
  | .move tag target dir => execMove tag target dir s
  | .stop tag target => execStop tag target s
  | .levelStart tag mode => execLevelStart tag mode s
  | .levelCancel tag => execLevelCancel tag s
  | .jackMove tag mask dir => execJackMove tag mask dir s
  | .jacksStow tag => execJacksStow tag s
  | .faultClear tag target => execFaultClear tag target s
  | .fenceSet tag chanMask jackMask => execFenceSet tag chanMask jackMask s
  | .fenceClear tag chanMask jackMask => execFenceClear tag chanMask jackMask s
  | .inhibitSet tag mask => execInhibitSet tag mask s
  | .inhibitClear tag mask => execInhibitClear tag mask s
  | .attentionClear tag mask => execAttentionClear tag mask s
  | .reportEnable tag mask => execReportEnable tag mask s
  | .reportDisable tag mask => execReportDisable tag mask s
  | .serviceEnter tag => execServiceEnter tag s
  | .serviceLeave tag => execServiceLeave tag s
  | .learnStroke tag target method => execLearnStroke tag target method s
  | .strokeSet tag index counts => execStrokeSet tag index counts s
  | .tiltZeroLearn tag => execTiltZeroLearn tag s
  | .profileWrite tag pairs => execProfileWrite tag pairs s
  | .profileCommit tag => execProfileCommit tag s
  | .sleep tag => execSleep tag s
  | .restart tag => execRestart tag s
  | _ => .next s

/-- The result of a judgement. -/
def State.act (s : State) (j : Judgement) : Result :=
  match j with
  | .dropped => .next s.standbyCheck
  | .idle => .next s.standbyCheck
  | .lengthError tag => .next (s.answer (generalReply tag .lengthError))
  | .checkError => .next (s.linkError.answer (generalReply 0 .checkError))
  | .unknownKind tag => .next (s.answer (generalReply tag .unknownKind))
  | .badLength kind tag => .next (s.answer (replyFrame kind tag { status := .lengthError }))
  | .request i => runRequest i s

/-- SELECTION_END (R176): step 1, then step 2. The selection that woke the part, and one before the load, is discarded
(R173, R175). Whether the load is complete is asked at the end alone, so a selection that began before it and ends after it is
judged: the model's choice, log 46. -/
def execSelectionEnd (rx : List Byte) (s : State) : Result :=
  if s.port.selected then
    if s.work.awake && !s.port.wakeSel then
      State.act { s with port := (s.port.collect rx.length).endSelection rx } (judge rx)
    else .next { s with port := s.port.endSelection rx }
  else .next s

end Sys2Proof.Machine
end

