-- ==== Sys2Proof/Machine/Dispatch.lean ====
section
/-! DEFINITION. The dispatcher: one arm per command, each one call of its meaning. -/

namespace Sys2Proof.Machine

def exec (i : Instr) (s : State) : Host.Outcome State Fault Refusal :=
  match i with
  | .nop tag => Sys2Proof.Machine.execNop tag s
  | .ident tag => Sys2Proof.Machine.execIdent tag s
  | .attention tag => Sys2Proof.Machine.execAttention tag s
  | .posture tag => Sys2Proof.Machine.execPosture tag s
  | .channel tag index => Sys2Proof.Machine.execChannel tag index s
  | .room tag index => Sys2Proof.Machine.execRoom tag index s
  | .jacks tag => Sys2Proof.Machine.execJacks tag s
  | .levelStatus tag => Sys2Proof.Machine.execLevelStatus tag s
  | .wind tag => Sys2Proof.Machine.execWind tag s
  | .supply tag => Sys2Proof.Machine.execSupply tag s
  | .queue tag => Sys2Proof.Machine.execQueue tag s
  | .profileRead tag ids => Sys2Proof.Machine.execProfileRead tag ids s
  | .move tag target dir => Sys2Proof.Machine.execMove tag target dir s
  | .stop tag target => Sys2Proof.Machine.execStop tag target s
  | .levelStart tag mode => Sys2Proof.Machine.execLevelStart tag mode s
  | .levelCancel tag => Sys2Proof.Machine.execLevelCancel tag s
  | .jackMove tag mask dir => Sys2Proof.Machine.execJackMove tag mask dir s
  | .jacksStow tag => Sys2Proof.Machine.execJacksStow tag s
  | .faultClear tag target => Sys2Proof.Machine.execFaultClear tag target s
  | .fenceSet tag chanMask jackMask => Sys2Proof.Machine.execFenceSet tag chanMask jackMask s
  | .fenceClear tag chanMask jackMask => Sys2Proof.Machine.execFenceClear tag chanMask jackMask s
  | .inhibitSet tag mask => Sys2Proof.Machine.execInhibitSet tag mask s
  | .inhibitClear tag mask => Sys2Proof.Machine.execInhibitClear tag mask s
  | .attentionClear tag mask => Sys2Proof.Machine.execAttentionClear tag mask s
  | .reportEnable tag mask => Sys2Proof.Machine.execReportEnable tag mask s
  | .reportDisable tag mask => Sys2Proof.Machine.execReportDisable tag mask s
  | .serviceEnter tag => Sys2Proof.Machine.execServiceEnter tag s
  | .serviceLeave tag => Sys2Proof.Machine.execServiceLeave tag s
  | .learnStroke tag target method => Sys2Proof.Machine.execLearnStroke tag target method s
  | .strokeSet tag index counts => Sys2Proof.Machine.execStrokeSet tag index counts s
  | .tiltZeroLearn tag => Sys2Proof.Machine.execTiltZeroLearn tag s
  | .profileWrite tag pairs => Sys2Proof.Machine.execProfileWrite tag pairs s
  | .profileCommit tag => Sys2Proof.Machine.execProfileCommit tag s
  | .sleep tag => Sys2Proof.Machine.execSleep tag s
  | .restart tag => Sys2Proof.Machine.execRestart tag s
  | .selectAsserted => Sys2Proof.Machine.execSelectAsserted s
  | .selectionEnd rx => Sys2Proof.Machine.execSelectionEnd rx s
  | .powerOnReset => Sys2Proof.Machine.execPowerOnReset s
  | .resetPinAsserted => Sys2Proof.Machine.execResetPinAsserted s
  | .resetPinReleased => Sys2Proof.Machine.execResetPinReleased s
  | .startupLoadComplete => Sys2Proof.Machine.execStartupLoadComplete s
  | .startupComplete => Sys2Proof.Machine.execStartupComplete s
  | .panelSwitchSettled pair side pressed => Sys2Proof.Machine.execPanelSwitchSettled pair side pressed s
  | .coachInputSettled input level => Sys2Proof.Machine.execCoachInputSettled input level s
  | .standbyEntry => Sys2Proof.Machine.execStandbyEntry s
  | .dormantWake sel ign pbrk wake panel => Sys2Proof.Machine.execDormantWake sel ign pbrk wake panel s
  | .hallCount ch elapsed => Sys2Proof.Machine.execHallCount ch elapsed s
  | .dutyUpdate ch => Sys2Proof.Machine.execDutyUpdate ch s
  | .stallJudgement ch current => Sys2Proof.Machine.execStallJudgement ch current s
  | .overcurrentLock ch current => Sys2Proof.Machine.execOvercurrentLock ch current s
  | .overspeedLock ch elapsed => Sys2Proof.Machine.execOverspeedLock ch elapsed s
  | .retryWaitExpiry ch => Sys2Proof.Machine.execRetryWaitExpiry ch s
  | .stoppingEnd ch => Sys2Proof.Machine.execStoppingEnd ch s
  | .checkpointWritten ch => Sys2Proof.Machine.execCheckpointWritten ch s
  | .learnedWritten => Sys2Proof.Machine.execLearnedWritten s
  | .commitComplete failed => Sys2Proof.Machine.execCommitComplete failed s
  | .roomLeaseExpiry m => Sys2Proof.Machine.execRoomLeaseExpiry m s
  | .holdOffExpiry m => Sys2Proof.Machine.execHoldOffExpiry m s
  | .pendingReversalExpiry m => Sys2Proof.Machine.execPendingReversalExpiry m s
  | .roomDwellEnd room => Sys2Proof.Machine.execRoomDwellEnd room s
  | .panelPress room side => Sys2Proof.Machine.execPanelPress room side s
  | .panelRelease room side => Sys2Proof.Machine.execPanelRelease room side s
  | .awningPanelPress side => Sys2Proof.Machine.execAwningPanelPress side s
  | .awningPanelRelease side => Sys2Proof.Machine.execAwningPanelRelease side s
  | .awningDwellEnd => Sys2Proof.Machine.execAwningDwellEnd s
  | .windGate count => Sys2Proof.Machine.execWindGate count s
  | .lockoutExpiry => Sys2Proof.Machine.execLockoutExpiry s
  | .pumpDwellEnd => Sys2Proof.Machine.execPumpDwellEnd s
  | .pumpRestEnd => Sys2Proof.Machine.execPumpRestEnd s
  | .pumpOverrun => Sys2Proof.Machine.execPumpOverrun s
  | .groundedFlagChange jack level => Sys2Proof.Machine.execGroundedFlagChange jack level s
  | .jackScanSettleTimeout jack level => Sys2Proof.Machine.execJackScanSettleTimeout jack level s
  | .strokeSample jack raw => Sys2Proof.Machine.execStrokeSample jack raw s
  | .strokeSensorFault jack raw => Sys2Proof.Machine.execStrokeSensorFault jack raw s
  | .retractedIndicatorSet jack raw => Sys2Proof.Machine.execRetractedIndicatorSet jack raw s
  | .stowTimeout => Sys2Proof.Machine.execStowTimeout s
  | .manualLeaseExpiry => Sys2Proof.Machine.execManualLeaseExpiry s
  | .filteredSample sx sy => Sys2Proof.Machine.execFilteredSample sx sy s
  | .tiltFaultSet sx sy => Sys2Proof.Machine.execTiltFaultSet sx sy s
  | .tiltFaultClear sx sy => Sys2Proof.Machine.execTiltFaultClear sx sy s
  | .zeroLearnComplete sx sy => Sys2Proof.Machine.execZeroLearnComplete sx sy s
  | .touchdownDeadline => Sys2Proof.Machine.execTouchdownDeadline s
  | .levellingDeadline => Sys2Proof.Machine.execLevellingDeadline s
  | .stabilizeDeadline => Sys2Proof.Machine.execStabilizeDeadline s
  | .settleTimeEnd => Sys2Proof.Machine.execSettleTimeEnd s
  | .levelLost sx sy => Sys2Proof.Machine.execLevelLost sx sy s
  | .supplyFlagSet side voltage => Sys2Proof.Machine.execSupplyFlagSet side voltage s
  | .supplyFlagClear side voltage => Sys2Proof.Machine.execSupplyFlagClear side voltage s
  | .busOvercurrentTrip sum => Sys2Proof.Machine.execBusOvercurrentTrip sum s
  | .busDetectorRearm sum => Sys2Proof.Machine.execBusDetectorRearm sum s
  | .queueMaxWait target => Sys2Proof.Machine.execQueueMaxWait target s
  | .coachInputChange input level => Sys2Proof.Machine.execCoachInputChange input level s
  | .speedGate count => Sys2Proof.Machine.execSpeedGate count s
  | .alertSlowToggle => Sys2Proof.Machine.execAlertSlowToggle s

end Sys2Proof.Machine
end

