-- ==== Sys2Proof/Machine/Clock.lean ====
section
/-! DEFINITION. The passing of time: one 125 us sampling instant of the part, which runs the samplers on the input pins
and the time-driven commands that are due (log 3). -/

namespace Sys2Proof.Machine

/-! ## Helpers -/

/-- A period's boundary lies in the instant that has just passed. -/
def crosses (period : Time) (now : Time) : Bool := now / period != (now - Config.tick) / period

/-- A time-driven command acts. -/
def State.fire (i : Instr) (s : State) : State :=
  match exec i s with
  | .next t => t
  | _ => s

/-- A time-driven command acts when a condition holds. -/
def State.fireIf (b : Bool) (i : Instr) (s : State) : State := if b then s.fire i else s

/-- A deadline has come. -/
def due (t : Option Time) (now : Time) : Bool :=
  match t with
  | some t => decide (t ≤ now)
  | none => false

/-- A function on each element of a list, in order. -/
def State.each {α : Type} (l : List α) (f : α → State → State) (s : State) : State := l.foldl (fun s x => f x s) s

/-! ## Samplers -/

/-- One sample of a two-sample filter (R11): the filter after it, and whether a rising edge was accepted. The starting
level counts no edge: R1 for a hall input, and after a reset the model's choice for WIND and SPEED (log 42). -/
def Filter.sample (f : Filter) (b : Bool) : Filter × Bool :=
  match f.level with
  | none => (if f.prev = some b then { level := some b, prev := some b } else { f with prev := some b }, false)
  | some l =>
    if b ≠ l ∧ f.prev = some b then ({ level := some b, prev := some b }, b) else ({ f with prev := some b }, false)

/-- The hall input of a channel, every 125 us (R11, R12). -/
def State.sampleHall (c : ChanId) (s : State) : State :=
  let r := (s.work.ch c).hall.sample s.work.pins.hall[c]
  let s := { s with work := s.work.setCh c { s.work.ch c with hall := r.1 } }
  s.fireIf r.2 (.hallCount c 0)

/-- The currents of channels and pump, every 1 ms (R16, R64). -/
def Work.sampleCurrents (w : Work) : Work :=
  let w := allChans.foldl (fun w c => w.setCh c ((w.ch c).sampleCurrent w.pins.isns[c])) w
  let l := push8 w.hyd.window w.pins.ipump
  { w with hyd := { w.hyd with window := l, current := min 1000 (mean l) } }

/-- The judgements on currents, every 1 ms in ACTIVE (R18, R140). -/
def State.judgeCurrents (s : State) : State :=
  let s := State.each allChans (fun c s => event s fun w => w.judgeOvercurrent c) s
  event s fun w => if w.power = .active then w.judgeBus w.busTotal else w

/-- The WIND input, every 1 ms while the awning is present (R131). -/
def Work.sampleWind (w : Work) : Work :=
  if (w.mv awn).present then
    let r := w.wind.filter.sample w.pins.wind
    { w with wind := { w.wind with filter := r.1, count := min 65535 (w.wind.count + if r.2 then 1 else 0) } }
  else w

/-- The SPEED input, every 1 ms (R153). -/
def Work.sampleSpeed (w : Work) : Work :=
  let r := w.speed.filter.sample w.pins.speed
  { w with speed := { w.speed with filter := r.1, count := min 65535 (w.speed.count + if r.2 then 1 else 0) } }

/-- The coach inputs. -/
def allInputs : List CoachInput := [.ign, .pbrk, .park, .eng, .wake]

/-- The pin of a coach input. -/
def Pins.coach (p : Pins) : CoachInput → Bool
  | .ign => p.ign
  | .pbrk => p.pbrk
  | .park => p.park
  | .eng => p.eng
  | .wake => p.wake

/-- One 1 ms sample of a debounced coach input (R151, R152): its level being timed and how many samples have held it. -/
def CoachLevel.sample (x : CoachLevel) (b : Bool) : CoachLevel :=
  if x.settled then { x with cand := b, count := if b = x.level then 0 else x.count + 1 }
  else { x with cand := b, count := if b = x.cand then x.count + 1 else 1 }

/-- A coach input, every 1 ms; 50 samples settle or change it (log 18), the first no earlier than 50 ms after the load. -/
def State.sampleInput (i : CoachInput) (s : State) : State :=
  let b := s.work.pins.coach i
  let l := (s.work.inputs.get i).sample b
  let s := { s with work := { s.work with inputs := s.work.inputs.put i l } }
  if l.settled then s.fireIf (50 ≤ l.count) (.coachInputChange i b)
  else s.fireIf (50 ≤ l.count && decide (s.work.loadAt + Config.ms 50 ≤ s.work.now)) (.coachInputSettled i b)

/-- One 1 ms sample of a panel switch (R29, R40). -/
def Switch.sample (x : Switch) (b : Bool) : Switch :=
  if x.settled then { x with cand := b, count := if b = x.pressed then 0 else x.count + 1 }
  else { x with cand := b, count := if b = x.cand then x.count + 1 else 1 }

/-- The pin of a panel switch. -/
def Pins.panel (p : Pins) (m : MoverId) : Dir → Bool
  | .inward => p.swIn[m]
  | .outward => p.swOut[m]

/-- A panel switch whose 20 samples are complete; it settles no earlier than 20 ms after the load. -/
def Work.switchHeld (w : Work) (m : MoverId) (d : Dir) (b : Bool) : Work :=
  if ((w.mv m).switch d).settled then (if b then w.press m d else w.unpress m d)
  else if w.loadAt + Config.ms 20 ≤ w.now then w.settleSwitch m d b
  else w

/-- A panel switch, every 1 ms; 20 samples settle or change it (log 18). -/
def State.sampleSwitch (m : MoverId) (d : Dir) (s : State) : State :=
  let b := s.work.pins.panel m d
  let x := s.work.mv m
  let sw := (x.switch d).sample b
  let s := { s with work := s.work.setMv m (x.setSwitch d sw) }
  if 20 ≤ sw.count then event s fun w => w.switchHeld m d b else s

/-- What is sampled every 1 ms. -/
def State.everyMs (s : State) : State :=
  let s := if s.work.power = .active then State.judgeCurrents { s with work := s.work.sampleCurrents } else s
  let s := { s with work := s.work.sampleWind.sampleSpeed }
  let s := State.each allInputs State.sampleInput s
  State.each allMovers (fun m s => (s.sampleSwitch m .inward).sampleSwitch m .outward) s

/-- One tilt sample, every 5 ms of a block (R86); the eighth completes it. -/
def State.sampleTilt (s : State) : State :=
  let t := s.work.tilt
  let at_ := t.blockAt.map fun b => b + Config.ms 5 * (t.count + 1)
  if s.work.power = .active ∧ due at_ s.work.now = true then
    let t := { t with sumX := t.sumX + s.work.pins.tx.toNat, sumY := t.sumY + s.work.pins.ty.toNat,
                      count := t.count + 1 }
    let s := { s with work := { s.work with tilt := t } }
    s.fireIf (8 ≤ t.count) (.filteredSample (BitVec.ofNat 15 t.sumX) (BitVec.ofNat 15 t.sumY))
  else s

/-- The jacks of a bank (R70). -/
def bankJacks (b : Bool) : List JackId := if b then [3, 4, 5] else [0, 1, 2]

/-- The end of a bank's 5 ms: its jacks are read and the other bank is selected (R70). -/
def Work.scanBank (w : Work) : Work :=
  let w := (bankJacks w.hyd.bankB).foldl (fun w j => w.readSwitch j w.pins.psw[j]) w
  { w with hyd := { w.hyd with bankB := !w.hyd.bankB, scanAt := w.now } }

def State.sampleBank (s : State) : State :=
  if s.work.hyd.scanAt + Config.bankPeriod ≤ s.work.now then event s Work.scanBank else s

/-- The next stroke sample of a jack (R71). -/
def Work.strokeDue (w : Work) (j : JackId) : Bool :=
  w.jackPresent j && decide ((w.jk j).sampleAt.getD w.loadAt + Config.strokePeriod ≤ w.now)

def State.sampleJack (j : JackId) (s : State) : State :=
  s.fireIf (s.work.strokeDue j) (.strokeSample j s.work.pins.stk[j])

/-- VSUP, every 10 ms (R136). -/
def State.sampleVsup (s : State) : State :=
  if crosses (Config.ms 10) s.work.now then event s fun w => w.sampleSupply w.pins.vsup.toNat else s

/-- Every sampler that is due. -/
def State.sampleAll (s : State) : State :=
  let s := State.each allChans State.sampleHall s
  let s := if crosses (Config.ms 1) s.work.now then s.everyMs else s
  State.sampleVsup (State.each allJacks State.sampleJack s.sampleTilt.sampleBank)

/-! ## Store jobs (R190, R191) -/

/-- The time a job takes; a commit takes a free time up to 80 ms. -/
def Work.jobTime (w : Work) (j : Job) : Time :=
  match j with
  | .checkpoint _ _ _ => Config.checkpointService
  | .learned => Config.learnedService
  | .commit => min Config.commitService (Config.freeCommitTime w.free)

/-- The command that ends a job. -/
def Work.jobEnd (w : Work) (j : Job) : Instr :=
  match j with
  | .checkpoint c _ _ => .checkpointWritten c
  | .learned => .learnedWritten
  | .commit => .commitComplete (Config.freeCommitFailed w.free)

/-- The job being written ends when its time has passed. -/
def State.runStore (s : State) : State :=
  match s.work.store.busy with
  | none => s
  | some j =>
    if j.start + s.work.jobTime j.job ≤ s.work.now then
      let t := s.fire (s.work.jobEnd j.job)
      if j.job.isCommit then { t with work := { t.work with free := t.work.free + 1 } } else t
    else s

/-! ## Deadlines -/

/-- The stall judgement of a channel (R17), on its reading as it stands. -/
def State.stallNow (c : ChanId) (s : State) : State :=
  let x := s.work.ch c
  match s.work.moverOf c, x.motion with
  | some m, some mo =>
    if s.work.stallJudged c mo && decide (s.work.stallDue x mo ≤ s.work.now) then
      event s fun w => w.judgeStall m c mo
    else s
  | _, _ => s

/-- The deadlines of one channel. -/
def State.chanTimers (c : ChanId) (s : State) : State :=
  let s := s.fireIf (s.work.leadOf c == c && decide (s.work.updateDue c ≤ s.work.now)) (.dutyUpdate c)
  let s := s.stallNow c
  let s := s.fireIf ((s.work.ch c).state == .retryWait && due (s.work.ch c).retryEnd s.work.now) (.retryWaitExpiry c)
  let rest := s.work.restWindow
  s.fireIf ((s.work.ch c).stopping && due ((s.work.ch c).motion.map fun mo => mo.earliestEnd rest) s.work.now)
    (.stoppingEnd c)

/-- A dwell end of a mover. -/
def dwellRow (m : MoverId) : Instr := if h : m.val < 4 then .roomDwellEnd ⟨m.val, h⟩ else .awningDwellEnd

/-- The deadlines of one room or the awning. -/
def State.moverTimers (m : MoverId) (s : State) : State :=
  let s := s.fireIf (due ((s.work.mv m).claim.bind (·.lease)) s.work.now) (.roomLeaseExpiry m)
  let s := s.fireIf (due ((s.work.mv m).holdOff.map (·.2)) s.work.now) (.holdOffExpiry m)
  let s := s.fireIf (due ((s.work.mv m).pendRev.bind (·.lease)) s.work.now) (.pendingReversalExpiry m)
  s.fireIf (due (s.work.mv m).dwellEnd s.work.now) (dwellRow m)

/-- The stow timeout's moment. The field is read as it stands, so a write moves the timeout of a running stow: the model's
choice, log 37. -/
def Work.stowEnd (w : Work) : Option Time :=
  match w.hyd.activity with
  | some a => if a.kind = .stow then a.start.map (· + w.stowLimit) else none
  | none => none

/-- The run limit's moment. -/
def Work.overrunAt (w : Work) : Option Time :=
  match w.hyd.pump with
  | .running => w.hyd.runStart.map (· + w.runLimit)
  | _ => none

/-- The deadlines of the hydraulic unit. -/
def State.hydTimers (s : State) : State :=
  let s := s.fireIf (s.work.hyd.pump == .dwell && due s.work.hyd.dwellEnd s.work.now) .pumpDwellEnd
  let s := s.fireIf (s.work.hyd.pump == .rest && due s.work.hyd.restEnd s.work.now) .pumpRestEnd
  let s := s.fireIf (due s.work.overrunAt s.work.now) .pumpOverrun
  let s := s.fireIf (due s.work.stowEnd s.work.now) .stowTimeout
  s.fireIf (due (s.work.hyd.activity.bind (·.lease)) s.work.now) .manualLeaseExpiry

/-- The row of a phase's deadline. -/
def phaseRow : LevelPhase → Option Instr
  | .touchdown => some .touchdownDeadline
  | .levelling => some .levellingDeadline
  | .stabilize => some .stabilizeDeadline
  | .settling => some .settleTimeEnd
  | _ => none

/-- The deadline of the procedure. -/
def State.levelTimer (s : State) : State :=
  match phaseRow s.work.lvl.phase with
  | some i => s.fireIf (due s.work.lvl.deadline s.work.now) i
  | none => s

/-- The targets of the admission queue. -/
def allTargets : List (Fin 6) := [0, 1, 2, 3, 4, 5]

/-- The maximum wait of a target's entry (R147). -/
def State.waitTimer (t : Fin 6) (s : State) : State :=
  s.fireIf (due ((s.work.bud.queue.find? fun q => q.target == t).map (·.waitEnd)) s.work.now) (.queueMaxWait t)

/-- The gates and the lockout (R131, R133, R153). -/
def State.gateTimers (s : State) : State :=
  let s := s.fireIf (due s.work.wind.gateEnd s.work.now) (.windGate s.work.wind.count)
  let s := s.fireIf (due s.work.wind.lockout s.work.now) .lockoutExpiry
  s.fireIf (due s.work.speed.gateEnd s.work.now) (.speedGate s.work.speed.count)

/-- The 500 ms of scan of a jack (R68). -/
def State.scanTimer (j : JackId) (s : State) : State :=
  s.fireIf (s.work.jackPresent j && !(s.work.jk j).groundSettled &&
    decide (s.work.loadAt + Config.scanSettle ≤ s.work.now)) (.jackScanSettleTimeout j (s.work.jk j).latestRead)

/-- The end of the start-up, the SLOW pattern and STANDBY (R165, R168, R192). -/
def State.partTimers (s : State) : State :=
  let s := s.fireIf (s.work.stage == .settling && s.work.jacksSettled &&
    decide (s.work.loadAt + Config.scanSettle ≤ s.work.now)) .startupComplete
  let s := s.fireIf (s.ready.alert == .slow && due (s.ready.alertAt.map (· + Config.alertHalf)) s.work.now)
    .alertSlowToggle
  s.fireIf s.standbyDue .standbyEntry

/-- Every deadline that has come. -/
def State.timers (s : State) : State :=
  let s := State.each allChans State.chanTimers s.runStore
  let s := State.each allMovers State.moverTimers s
  let s := State.each allTargets State.waitTimer s.hydTimers.levelTimer
  State.partTimers (State.each allJacks State.scanTimer s.gateTimers)

/-! ## The instant -/

/-- The signs of the wake inputs at one sample (R172). -/
def Work.wakeSample (w : Work) : WakeSigns :=
  { sel := false, ign := w.pins.ign != w.inputs.ign.level, pbrk := w.pins.pbrk != w.inputs.pbrk.level,
    wake := w.pins.wake,
    panel := (bits16 (w.pins.swIn.toList ++ w.pins.swOut.toList)).setWidth 10 }

def WakeSigns.bits (x : WakeSigns) : BitVec 14 :=
  (bits16 [x.sel, x.ign, x.pbrk, x.wake]).setWidth 14 ||| (x.panel.setWidth 14 <<< 4)

/-- A sign stands when two consecutive samples show it (log 29). -/
def WakeSigns.confirmed (x : WakeSigns) (prev : BitVec 14) : WakeSigns :=
  let b := x.bits &&& prev
  { sel := b.getLsbD 0, ign := b.getLsbD 1, pbrk := b.getLsbD 2, wake := b.getLsbD 3, panel := (b >>> 4).setWidth 10 }

/-- One 1 ms sample of the wake inputs in DORMANT (R172). -/
def State.watchWake (s : State) : State :=
  let x := s.work.wakeSample
  let y := x.confirmed (s.work.wakePrev.getD 0)
  if y.causes = 0 then { s with work := { s.work with wakePrev := some x.bits } } else s.wakeUp y

/-- The clock goes on by one instant. -/
def State.advance (s : State) : State := { s with work := { s.work with now := s.work.now + Config.tick } }

/-- One instant: what runs depends on the stage and the power state (R167, R171, R192). -/
def tick (s : State) : Result :=
  let s := s.advance
  .next (match s.work.stage with
    | .held => s
    | .loading => s.fireIf (decide (s.work.resetAt + Config.loadTime ≤ s.work.now)) .startupLoadComplete
    | _ =>
      if s.work.power = .dormant then (if crosses (Config.ms 1) s.work.now then s.watchWake else s)
      else s.sampleAll.timers)

end Sys2Proof.Machine
end

