-- ==== Sys2Proof/Safety.lean ====
section
/-! DEFINITION. What a safe state is: the laws the manual gives for every moment, and the terms the statements use. -/

namespace Sys2Proof.Safety

open Sys2Proof.Machine

/-! ## The port -/

/-- A report (R177). -/
def isReport (f : Frame) : Bool := 0xC0 ≤ f.kind.toNat

/-- The outbound queue holds at most 16 frames, of which at most 14 are reports (R181). -/
abbrev QueueBounded (s : State) : Prop := s.port.outq.length ≤ 16 ∧ (s.port.outq.filter isReport).length ≤ 14

/-- A request is heard and finds a place for its reply (R175, R179). -/
abbrev Takes (s : State) : Prop := s.work.awake = true ∧ s.port.outq.length < 16

/-- The state after a request that left the blocks as `w` and answered `r`. -/
def answered (s : State) (kind tag : Byte) (w : Work) (r : Reply) : State :=
  finish s.toActive w (some (replyFrame kind tag r))

/-- The state after a request of the port, which answers `r` and leaves everything else of `t` as it is. -/
def replied (t : State) (kind tag : Byte) (r : Reply) : State := { t with port := t.port.push (replyFrame kind tag r) }

/-- A direction as a payload byte (Section 12.6). -/
def dirByte : Dir → Byte
  | .outward => 0
  | .inward => 1

/-! ## Between commands -/

/-- Between commands the inhibit set is the one its owners give, no admission is owed and no event waits (R146, R154,
R181). -/
abbrev Settled (s : State) : Prop := s.work.inh = s.work.deriveInh ∧ s.work.headDue = false ∧ s.work.events = []

/-- Once start-up is complete the posture is the one of the coach; before that it is as reset formed it (R161, R162, R164,
R165). -/
abbrev PostureTrue (s : State) : Prop :=
  if s.work.stage = .complete then
    s.ready.travel = s.work.travel ∧ s.ready.travelOk = (s.work.travel == .travelReady) ∧
      s.ready.hazard = hazardOf s.work.inh s.work.travel ∧ s.ready.alert = s.work.alertOf s.work.travel s.ready.hazard
  else s.ready = {}

/-- The state is coherent: settled, with a true posture. -/
abbrev Coherent (s : State) : Prop := Settled s ∧ PostureTrue s

/-! ## Driving -/

/-- A channel that does not drive has no duty and its bridge is not driven (R3, R10). -/
abbrev atEase (x : Machine.Channel) : Prop :=
  x.driving = true ∨ (x.duty = 0 ∧ (x.bridge = .brake ∨ x.bridge = .coast))

/-- No motor is driven outside RAMP, RUN and APPROACH (R10). -/
abbrev DrivesOnlyInMotion (s : State) : Prop := ∀ c : ChanId, atEase (s.work.ch c)

/-! ## The law of the drive (R10), with what every command keeps so that it holds -/

/-- The room table and the channels agree: a channel of a mover serves that mover, and one that serves none holds no motion. -/
abbrev Wired (w : Work) : Prop :=
  (∀ m : MoverId, ∀ c ∈ w.chansOf m, w.moverOf c = some m) ∧ ∀ c : ChanId, w.moverOf c = none → (w.ch c).motion = none

/-- A channel moves or waits for a retry exactly while it holds a motion (R4, R22, R24), and is at ease unless it drives. -/
abbrev ChannelLaw (x : Machine.Channel) : Prop :=
  atEase x ∧ (x.motion.isSome = true ↔ x.state = .moving ∨ x.state = .retryWait)

/-- The motors of a mover that can still be stopped are in one phase (R28, R48). -/
abbrev InStep (w : Work) (m : MoverId) : Prop :=
  ∀ c ∈ w.chansOf m, ∀ d ∈ w.chansOf m, (w.ch c).stoppable = true → (w.ch d).stoppable = true →
    (w.ch c).starting = (w.ch d).starting ∧ (w.ch c).driving = (w.ch d).driving

/-- A mover holds a motion only as a unit, a live one only with a claim, and waits or dwells only at rest (R31, R33, R38). -/
abbrev HeldAsOne (w : Work) (m : MoverId) : Prop :=
  (w.atRest m = false → (w.mv m).run.isSome = true) ∧
    (w.anyCh m Channel.stoppable = true → (w.mv m).claim.isSome = true) ∧
    (w.isQueued (moverTarget m) = true → w.atRest m = true ∧ (w.mv m).dwellEnd = none ∧
      (w.bud.queue.filter fun q => q.target == moverTarget m).length ≤ 1) ∧
    ((w.mv m).dwellEnd.isSome = true → w.atRest m = true)

/-- A learning run is a room's, goes with a claim of its leg, and a REFINE run goes outward (R52, R54). -/
abbrev LearnLaw (w : Work) (m : MoverId) : Prop :=
  ∀ l, (w.mv m).learn = some l → m ≠ awn ∧ (l.method = .refine → l.leg = .outward) ∧
    (l.leg = .inward → (w.mv m).claim.isSome = true) ∧
    ∀ c, (w.mv m).claim = some c → c.kind = .learn ∧ c.dir = l.leg

/-- What a mover can still do is neither fenced nor inhibited (R25, R158, R159). -/
abbrev Allowed (w : Work) (m : MoverId) : Prop :=
  (w.anyCh m Channel.stoppable = true ∨ w.isQueued (moverTarget m) = true ∨ (w.mv m).learn.isSome = true) →
    w.fenced m = false ∧ w.inh &&& w.claimMask m = 0

/-- The law of the drive. -/
abbrev DriveLaw (s : State) : Prop :=
  Wired s.work ∧ (∀ c : ChanId, ChannelLaw (s.work.ch c)) ∧
    ∀ m : MoverId, InStep s.work m ∧ HeldAsOne s.work m ∧ LearnLaw s.work m ∧ Allowed s.work m

/-- A channel with a duty holds a motion in RAMP, RUN or APPROACH, is neither fenced nor FAULTED, and no active inhibit
applies to that motion (R10). -/
abbrev DutyAllowed (w : Work) (c : ChanId) : Prop :=
  (w.ch c).duty ≠ 0 → (w.ch c).driving = true ∧ (w.ch c).fenced = false ∧ (w.ch c).state ≠ .faulted ∧
    ∃ m, w.moverOf c = some m ∧ (w.mv m).claim.isSome = true ∧ w.inh &&& w.claimMask m = 0

/-! ## The law of the hydraulic circuit (R62), with what every command keeps so that it holds -/

/-- The jacks that an activity may open belong to its jack set, and those are present, neither fenced nor FAULTED (R74, R75,
R82). -/
abbrev SoundSets (w : Work) (a : HydActivity) : Prop :=
  ∀ j : JackId, (a.openSet.has j = true → a.jackSet.has j = true) ∧
    (a.jackSet.has j = true → w.jackPresent j = true ∧ (w.jk j).fenced = false ∧ (w.jk j).fault = none)

/-- The pump serves the phase of the activity (R61, R65): a waiting or idle one finds it stopped with no pending start, a
running one finds it RUNNING in its direction, or in DWELL with its start pending. -/
abbrev PumpServes (h : Hyd) (a : HydActivity) : Prop :=
  (a.phase ≠ .running → (h.pump = .off ∨ h.pump = .dwell) ∧ h.pendingStart = false) ∧
    (a.phase = .running →
      (h.pump = .running ∧ h.pendingStart = false ∧ h.pdir = a.dir) ∨ (h.pump = .dwell ∧ h.pendingStart = true))

/-- The activity serves the phase of the procedure (R75, R105, R113): LEVEL alone has one, which idles the pump in SETTLING and
has it RUNNING in TOUCHDOWN, LEVELLING and STABILIZE. -/
abbrev ProcedureServed (w : Work) (a : HydActivity) : Prop :=
  (w.lvl.phase = .idle ↔ a.kind ≠ .level) ∧ (w.lvl.phase = .settling ↔ a.phase = .idlePump) ∧
    (w.lvl.phase = .waiting → w.hyd.pump ≠ .running) ∧
    ((w.lvl.phase = .touchdown ∨ w.lvl.phase = .levelling ∨ w.lvl.phase = .stabilize) → w.hyd.pump = .running)

/-- Without an activity nothing is pumped, pending, queued or levelled; with one, sets, pump and procedure agree with it, a
procedure extends, a stow retracts, a lease is a manual move's, and its one queued entry waits (R62, R65, R66, R75). -/
abbrev HydraulicLaw (s : State) : Prop :=
  let w := s.work
  (w.hyd.activity = none →
    w.hyd.pump ≠ .running ∧ w.hyd.pendingStart = false ∧ w.isQueued hydTarget = false ∧ w.lvl.phase = .idle) ∧
  (∀ a, w.hyd.activity = some a → w.stage.loaded = true ∧ SoundSets w a ∧ PumpServes w.hyd a ∧ ProcedureServed w a ∧
    (a.kind = .level → a.dir = .outward) ∧ (a.kind = .stow → a.dir = .inward) ∧ (a.lease.isSome = true → a.kind = .manual) ∧
    (w.isQueued hydTarget = true → a.phase = .waiting)) ∧
  (w.bud.queue.filter fun q => q.target == hydTarget).length ≤ 1

/-- A valve is open exactly for a jack of the open set while the pump is RUNNING, which then has the direction of the activity,
and such a jack is present, neither fenced nor FAULTED (R62). -/
abbrev ValvesAllowed (w : Work) : Prop :=
  (∀ j : JackId, w.valve j = true → ∃ a, w.hyd.activity = some a ∧ w.hyd.pump = .running ∧ w.hyd.pdir = a.dir ∧
    a.openSet.has j = true ∧ a.jackSet.has j = true ∧ w.jackPresent j = true ∧ (w.jk j).fenced = false ∧
    (w.jk j).fault = none) ∧
  (∀ (a : HydActivity) (j : JackId), w.hyd.activity = some a → w.hyd.pump = .running → a.openSet.has j = true →
    w.valve j = true)

/-! ## The law of the budget (R142, R144), with what every command keeps so that it holds -/

/-- The targets of the admitted list and of the admission queue, in order. -/
def targetsOf (b : Budget) : List (Fin 6) := b.admitted.map (·.target) ++ b.queue.map (·.target)

/-- The admitted draws stay within the budget, and a target has one entry at most, admitted or queued (R65, R142, R144).
Nothing is held before the load; a mover is admitted while it holds a motion, is queued with a claim, and moves in no dwell;
the pump is admitted while it runs or a start is pending (R49, R61). -/
abbrev BudgetLaw (s : State) : Prop :=
  let w := s.work
  w.bud.sum ≤ w.budget ∧ (targetsOf w.bud).Nodup ∧
  (w.stage.loaded = false → w.bud.admitted = [] ∧ w.bud.queue = []) ∧
  (∀ m : MoverId, (moverTarget m ∈ w.bud.admitted.map (·.target) ↔ (w.mv m).run.isSome = true) ∧
    (w.isQueued (moverTarget m) = true → (w.mv m).claim.isSome = true) ∧
    ((w.mv m).run.isSome = true → (w.mv m).dwellEnd = none)) ∧
  (hydTarget ∈ w.bud.admitted.map (·.target) ↔ w.hyd.pump = .running ∨ w.hyd.pendingStart = true)

/-! ## The profile -/

/-- Every field holds a value of its range (R187, R188). -/
abbrev ProfileInRange (p : Profile) : Prop := ∀ i f, fieldOf i = some f → f.inRange (p.get i) = true

/-- The values of the working profile and the COACH values in force. -/
abbrev ProfilesInRange (s : State) : Prop := ProfileInRange s.work.store.working ∧ ProfileInRange s.work.store.coach

/-! ## The end of a command -/

/-- Members that become active apply to no work in progress, queued or pending (R158). -/
abbrev ReachesNothing (w : Work) (became : BitVec 16) : Prop :=
  (∀ m : MoverId, became &&& w.claimMask m = 0) ∧
    (∀ p, (w.mv awn).pendRetract = some p → became &&& retractMask p = 0) ∧
    (w.lvl.phase ≠ .idle → became &&& MoveClass.je.mask = 0) ∧
    (w.lvl.phase = .idle → ∀ a, w.hyd.activity = some a → became &&& (jackClass a.dir).mask = 0)

/-- The entries that wait, but for the automatic retracts, which the queue limit does not count (R145). -/
abbrev waiting (w : Work) : Nat := (w.bud.queue.filter fun q => q.source != .auto).length

/-! ## Terms of the statements about movers -/

/-- A mover with the one channel `c`. -/
abbrev Lone (w : Work) (m : MoverId) (c : ChanId) : Prop :=
  (w.mv m).leader = some c ∧ (w.mv m).follower = none ∧ w.moverOf c = some m

/-- A paired room with leader `a` and follower `b`. -/
abbrev Pair (w : Work) (m : MoverId) (a b : ChanId) : Prop :=
  (w.mv m).leader = some a ∧ (w.mv m).follower = some b ∧ a ≠ b ∧ w.moverOf a = some m ∧ w.moverOf b = some m

/-- The mover is present and holds nothing: no motion, queued entry, dwell, pending reversal, learning run or
retract. -/
abbrev Free (w : Work) (m : MoverId) : Prop :=
  (w.mv m).present = true ∧ w.activity m = .idle ∧ (w.mv m).pendRev = none ∧ (w.mv m).learn = none ∧
    (m = awn → w.holdsRetract = none)

/-- Checks 3 to 8 of R32 and R122 all pass for a direction. -/
abbrev Cleared (w : Work) (m : MoverId) (d : Dir) : Prop :=
  w.fenced m = false ∧ w.faulted m = false ∧ (d = .outward → w.known m = true) ∧ w.lvl.phase = .idle ∧
    w.hyd.activity.map (·.kind) ≠ some .stow ∧ w.inh &&& (moveClass m d).mask = 0 ∧ w.conflict m = false

/-- A draw finds its place at once (R144, first line). -/
abbrev Fits (w : Work) (draw : Nat) : Prop := w.bud.queue = [] ∧ draw + w.bud.sum ≤ w.budget

/-- The work with a draw on the end of the admitted list. -/
def admitted (w : Work) (t : Fin 6) (draw : Nat) : Work :=
  { w with bud := { w.bud with admitted := w.bud.admitted ++ [{ target := t, draw := draw, since := w.now }] } }

/-- The work with an entry on the end of the admission queue. -/
def queued (w : Work) (q : Queued) : Work := { w with bud := { w.bud with queue := w.bud.queue ++ [q] } }

/-- The claim a LINK or panel motion of a mover carries (R33, R41, R122, R124). -/
def claimOf (w : Work) (m : MoverId) (src : Source) (d : Dir) : Claim :=
  if m = awn ∧ w.oneTouch = true then { source := src, dir := d, kind := .oneTouch, lease := none }
  else { source := src, dir := d, kind := if m = awn then .hold else .move,
         lease := if src = .link then some (w.now + w.holdWindow) else none }

/-- The queue entry of a claim (Section 7.3). -/
def entryOf (w : Work) (m : MoverId) (c : Claim) : Queued :=
  { target := moverTarget m, dir := c.dir, source := c.source, purpose := c.purpose, draw := w.moverDraw m,
    lease := c.lease, since := w.now, waitEnd := w.now + w.maxWait }

/-- The profile of a motion: homing while the position is UNKNOWN. -/
def profileOf (w : Work) (m : MoverId) : MotionProfile := if w.known m then .normal else .homing

/-- A channel that entered STOPPING. -/
def stopping (x : Machine.Channel) (mo : Motion) (cause : Cause) (bridge : Bridge) (now : Time) : Machine.Channel :=
  { x with state := .moving, duty := 0, bridge := bridge, retryEnd := none,
           motion := some { mo with phase := .stopping, stopTime := some now, cause := some cause } }

/-- A mover after STOP names it: its pending reversal, hold-off and dwell are discarded, and its motion or queued entry stops
(R39, R125). -/
def released (w : Work) (m : MoverId) : Work :=
  (w.setMv m { w.mv m with pendRev := none, holdOff := none, dwellEnd := none }).haltMover m .stopped

/-- The awning after a STOP of its TRAVEL retract, pending, queued or moving (R125, R129). -/
def withoutTravel (w : Work) : Work :=
  if (w.mv awn).pendRetract.isSome then
    (w.setMv awn { w.mv awn with pendRetract := none, dwellEnd := none }).emit
      (.motionEnded awn .stopped (w.leaderPos awn) none)
  else w.haltMover awn .stopped

/-- The press and the release of a switch of a mover. -/
def pressOf (m : MoverId) (d : Dir) : Instr :=
  if h : m.val < 4 then .panelPress ⟨m.val, h⟩ d else .awningPanelPress d
def releaseOf (m : MoverId) (d : Dir) : Instr :=
  if h : m.val < 4 then .panelRelease ⟨m.val, h⟩ d else .awningPanelRelease d

/-- The end of the dwell of a mover. -/
def dwellEndOf (m : MoverId) : Instr := if h : m.val < 4 then .roomDwellEnd ⟨m.val, h⟩ else .awningDwellEnd

/-- The lowest-numbered active member of a mask. -/
abbrev LowestOf (inh mask : BitVec 16) (id : Nat) : Prop :=
  id < 16 ∧ inh.getLsbD id = true ∧ mask.getLsbD id = true ∧
    ∀ k, k < id → ¬(inh.getLsbD k = true ∧ mask.getLsbD k = true)

/-- The id that INHIBITED names for a class: the lowest-numbered active member that blocks it (R32, R158). -/
abbrev LowestBlocking (inh : BitVec 16) (c : MoveClass) (id : Nat) : Prop := LowestOf inh c.mask id

/-- The members that block a learning run: those of SO, and of SI for an END_TO_END run (R52). -/
def learnBlockers : LearnMethod → BitVec 16
  | .endToEnd => MoveClass.so.mask ||| MoveClass.si.mask
  | .refine => MoveClass.so.mask

/-! ## Terms of the statements about the hydraulic circuit and the procedure -/

/-- The open set of the activity becomes a set. -/
def withOpen (w : Work) (a : HydActivity) (set : JackSet) : Work :=
  { w with hyd := { w.hyd with activity := some { a with openSet := set } } }

/-- The entry to LEVELLING in a pass (R108): nothing is open, and deadline, level run, limit mark and lift set start anew. -/
def enteredLevelling (w : Work) (a : HydActivity) (pass : Nat) : Work :=
  { withOpen w a noJacks with
    lvl := { w.lvl with phase := .levelling, pass := pass, levelRun := 0, limitMark := false, liftSet := noJacks,
                        deadline := some (w.now + Config.sec (w.profN 0x0424)) },
    events := w.events ++ [.levelPhase .levelling w.lvl.mode pass] }

/-- The entry to SETTLING from a pump that runs since `t` (R113): it stops into DWELL and releases its draw, nothing is open, and
the settle time begins. -/
def enteredSettling (w : Work) (a : HydActivity) (t : Time) : Work :=
  { w with
    hyd := { w.hyd with pump := .dwell, dwellEnd := some (w.now + 300000), runStart := none, runHeld := w.now - t,
                        activity := some { a with openSet := noJacks, phase := .idlePump } },
    bud := { w.bud with admitted := w.bud.admitted.filter fun e => e.target != hydTarget }, headDue := true,
    lvl := { w.lvl with phase := .settling, settleTest := some .waiting,
                        deadline := some (w.now + Config.sec (w.profN 0x0426)) },
    events := w.events ++ [.levelPhase .settling w.lvl.mode w.lvl.pass] }

/-- The entry to TOUCHDOWN (R106), before its open set is formed. -/
def enteredTouchdown (w : Work) : Work :=
  { w with
    lvl := { w.lvl with phase := .touchdown, deadline := some (w.now + Config.sec (w.profN 0x0423)) },
    events := w.events ++ [.levelPhase .touchdown w.lvl.mode w.lvl.pass] }

/-! ## What motion commands leave alone -/

/-- The commands of motion, hydraulics, levelling, supply and budget. -/
def motionCommand : Instr → Bool
  | .move .. | .stop .. | .levelStart .. | .levelCancel .. | .jackMove .. | .jacksStow .. | .faultClear ..
  | .fenceSet .. | .fenceClear .. | .learnStroke .. | .strokeSet .. | .tiltZeroLearn ..
  | .panelSwitchSettled .. | .startupComplete
  | .hallCount .. | .dutyUpdate .. | .stallJudgement .. | .overcurrentLock .. | .overspeedLock .. | .retryWaitExpiry ..
  | .stoppingEnd .. | .roomLeaseExpiry .. | .holdOffExpiry .. | .pendingReversalExpiry .. | .roomDwellEnd ..
  | .panelPress .. | .panelRelease .. | .awningPanelPress .. | .awningPanelRelease .. | .awningDwellEnd
  | .pumpDwellEnd | .pumpRestEnd | .pumpOverrun | .groundedFlagChange .. | .jackScanSettleTimeout .. | .strokeSample ..
  | .strokeSensorFault .. | .retractedIndicatorSet .. | .stowTimeout | .manualLeaseExpiry
  | .filteredSample .. | .tiltFaultSet .. | .tiltFaultClear .. | .zeroLearnComplete .. | .touchdownDeadline
  | .levellingDeadline | .stabilizeDeadline | .settleTimeEnd | .levelLost ..
  | .supplyFlagSet .. | .supplyFlagClear .. | .busOvercurrentTrip .. | .busDetectorRearm .. | .queueMaxWait ..
  | .alertSlowToggle => true
  | _ => false

/-- The parts of the machine that only their own commands write: mode, power causes, coach inputs, speed gate, LINK members,
the profile and the storage. -/
structure Kept where
  mode : Mode
  service : Bool
  resetCause : ResetCause
  wakeCauses : BitVec 5
  wind : Wind
  inputs : CoachInputs
  speed : Speed
  link : BitVec 4
  working : Profile
  coach : Profile
  sections : Vector (Option Record) 6
  learnedRec : Option Record
  checkpoints : Vector (Option Record) 8
  note : BitVec 7

def kept (w : Work) : Kept :=
  { mode := w.mode, service := w.service, resetCause := w.resetCause, wakeCauses := w.wakeCauses, wind := w.wind,
    inputs := w.inputs, speed := w.speed, link := w.link, working := w.store.working, coach := w.store.coach,
    sections := w.store.sections, learnedRec := w.store.learnedRec, checkpoints := w.store.checkpoints,
    note := w.store.note }

end Sys2Proof.Safety
end

