-- ==== Sys2Proof/Certificates/Slice0/Obligations.lean ====
section
/-! DEFINITION. The statements for the provers: what each command does, how a command ends, and the laws of every step. -/

open Sys2Proof Sys2Proof.Machine Sys2Proof.Safety

/-! ## The step and how a command ends -/

/-- A step takes the command at the front of the queue and runs its meaning on the queue's rest. -/
def Obligations.StepRunsFrontCommand : Prop :=
  ∀ (c : Instr) (rest : List Instr) (s : State),
    step { s with pending := c :: rest } = exec c { s with pending := rest }

/-- Every step answers a next state, whatever the state; on an empty queue one instant of 125 us passes and no command is
made (the model's choice, log 3). -/
def Obligations.EveryStepCompletes : Prop :=
  (∀ s : State, ∃ t, step s = .next t) ∧
  (∀ (s : State) (t : State), s.pending = [] → step s = .next t →
    t.pending = [] ∧ t.work.now = s.work.now + 125 ∧
      (s.work.stage = .held → t = { s with work := { s.work with now := s.work.now + 125 } }))

/-- How a command ends (R154, R161, R164, R179, R181): the inhibit set is the one its owners give; the frames that waited,
then the reply, stand at the front of the outbound queue; report mask, link timer and selection stay; once start-up is
complete the travel state and TRAVEL_OK are those of the blocks. After start-up a changed set raises one INHIBIT event, a
changed travel state or hazard one POSTURE event (R157, R163), in the order of log 10; and members that become active stop
what they apply to (R158, R159): motions enter STOPPING INHIBITED or end in STARTING, queued entries and pending retracts go
with MOTION_ENDED, learning runs with LEARN, the hydraulic activity or the procedure ends INHIBITED. -/
def Obligations.CommandEndDerivesAndDelivers : Prop :=
  (∀ (s : State) (w : Work) (r : Option Frame),
    (finish s w r).work.inh = (finish s w r).work.deriveInh ∧
    s.port.outq ++ r.toList <+: (finish s w r).port.outq ∧
    (finish s w r).port.mask = s.port.mask ∧ (finish s w r).port.linkAt = s.port.linkAt ∧
    (finish s w r).port.selected = s.port.selected ∧ (finish s w r).pending = s.pending ∧
    ((finish s w r).work.stage = .complete →
      (finish s w r).ready.travel = (finish s w r).work.travel ∧
      (finish s w r).ready.travelOk = ((finish s w r).work.travel == .travelReady))) ∧
  (∀ (s : State) (w : Work) (r : Option Frame), s.work.stage = .complete → w.stage = .complete → w.headDue = false →
    w.events = [] → w.tilt.zeroRun = none →
    let new := w.deriveInh
    let h := hazardOf new w.travel
    ReachesNothing w (new &&& ~~~ w.inh) →
      (finish s w r).ready.hazard = h ∧
      (finish s w r).port = (
        (if s.work.inh = new then [] else [Event.inhibit new (new &&& ~~~ s.work.inh) (s.work.inh &&& ~~~ new)]) ++
        (if s.ready.travel = w.travel ∧ s.ready.hazard = h then [] else [Event.posture w.travel h])).foldl Port.take
          (match r with | some f => s.port.push f | none => s.port)) ∧
  (∀ (s : State) (w : Work) (r : Option Frame), w.stage = .complete → w.headDue = false → w.power = .active → Wired w →
    let became := w.deriveInh &&& ~~~ w.inh
    let t := finish s w r
    (∀ m : MoverId, became &&& w.claimMask m ≠ 0 →
      ((w.mv m).learn = none → w.isQueued (moverTarget m) = false →
        (∀ c ∈ w.chansOf m, (w.ch c).stoppable = true ∧ (w.ch c).starting = false) → w.chansOf m ≠ [] →
        (∀ c ∈ w.chansOf m, ∃ mo, (w.ch c).motion = some mo ∧
          t.work.ch c = stopping (w.ch c) mo .inhibited .brake w.now) ∧ (t.work.mv m).claim = none) ∧
      (w.isQueued (moverTarget m) = false → m ≠ awn → (∀ c ∈ w.chansOf m, (w.ch c).starting = true) →
        ∀ c ∈ w.chansOf m, (t.work.ch c).motion = none ∧ (t.work.ch c).state = .idle ∧ (t.work.ch c).duty = 0) ∧
      (w.isQueued (moverTarget m) = true → t.work.isQueued (moverTarget m) = false ∧ (t.work.mv m).claim = none ∧
        t.port.attn.getLsbD 0 = true) ∧
      ((w.mv m).learn.isSome = true → (t.work.mv m).learn = none ∧ (t.work.mv m).claim = none ∧
        t.port.attn.getLsbD 10 = true)) ∧
    (∀ p, (w.mv awn).pendRetract = some p → became &&& retractMask p ≠ 0 →
      (t.work.mv awn).pendRetract = none ∧ t.port.attn.getLsbD 0 = true) ∧
    (w.lvl.phase ≠ .idle → became &&& MoveClass.je.mask ≠ 0 →
      t.work.lvl.phase = .idle ∧ t.work.lvl.lastOutcome = .inhibited ∧ t.work.hyd.activity = none ∧
        t.port.attn.getLsbD 2 = true) ∧
    (∀ a, w.lvl.phase = .idle → w.hyd.activity = some a → became &&& (jackClass a.dir).mask ≠ 0 →
      t.work.hyd.activity = none ∧ t.work.hyd.lastKind = some a.kind ∧ t.work.hyd.lastOutcome = .inhibited))

/-- What the end of a command leaves alone: mode, wake causes, coach inputs, gates, LINK members, profile, storage, pins and
clock always; and, when nothing is owed to the admission queue, no inhibit changes and the part is started and ACTIVE, every
channel, room, jack, admitted or queued entry, and the levelling, as the command left them. What a release, a removal or a
new budget owes to the queue is judged first (R146): the head stays while its draw does not fit; one that fits leaves the
queue, joins the end of the admitted list, and its owner hands the motion over or takes the pump start. -/
def Obligations.CommandEndFrame : Prop :=
  (∀ (s : State) (w : Work) (r : Option Frame),
    kept (finish s w r).work = kept w ∧ (finish s w r).work.now = w.now ∧ (finish s w r).work.pins = w.pins ∧
    (w.headDue = false → w.inh = w.deriveInh → w.stage = .complete → w.power = .active →
      (finish s w r).work.chans = w.chans ∧ (finish s w r).work.movers = w.movers ∧ (finish s w r).work.hyd = w.hyd ∧
      (finish s w r).work.jacks = w.jacks ∧ (finish s w r).work.bud = w.bud ∧ (finish s w r).work.lvl = w.lvl ∧
      (finish s w r).work.store = w.store)) ∧
  (∀ (s : State) (w : Work) (r : Option Frame), w.stage = .complete → finish s w r = finish s w.judgeHead r) ∧
  (∀ w : Work, (w.headDue = false → w.judgeHead = w) ∧
    (w.bud.queue = [] → w.judgeHead = { w with headDue := false }) ∧
    (∀ (q : Queued) (rest : List Queued), w.bud.queue = q :: rest →
      (w.budget < q.draw + w.bud.sum → w.judgeHead = { w with headDue := false }) ∧
      (w.headDue = true → q.draw + w.bud.sum ≤ w.budget →
        (∀ n ∈ rest.head?, w.budget < n.draw + (w.bud.sum + q.draw)) →
        let w1 := admitted { w with bud := { w.bud with queue := rest } } q.target q.draw
        (∀ (m : MoverId) (c : Claim), q.target = moverTarget m → (w.mv m).claim = some c → (w.mv m).learn = none →
          w.judgeHead = { w1.handOver m c.source c.dir (profileOf w m) with headDue := false }) ∧
        (∀ a, q.target = hydTarget → w.hyd.activity = some a → w.hyd.pump = .dwell →
          w.judgeHead = { w1 with headDue := false, hyd := { w.hyd with
            pendingStart := true, activity := some { a with phase := .running } } }) ∧
        (∀ a, q.target = hydTarget → w.hyd.activity = some a → w.hyd.pump = .off → rest = [] →
          let a : HydActivity := { a with phase := .running, start := some w.now }
          w.judgeHead = { Work.atPumpStart { w1 with hyd := { w.hyd with
            pump := .running, pdir := a.dir, runStart := some w.now, runHeld := 0, pendingStart := false,
            activity := some a } } a with headDue := false }))))

/-! ## Laws of every step -/

/-- The outbound queue never holds more than 16 frames nor more than 14 reports. -/
def Obligations.StepKeepsOutboundBound : Prop :=
  ∀ s t : State, QueueBounded s → step s = .next t → QueueBounded t

/-- Between commands the inhibit set, the travel state, TRAVEL_OK, the hazard and ALERT always follow from the blocks. So
when TRAVEL_OK is asserted, start-up is complete, every room is in, the awning stowed, every jack retracted and nothing moves
or waits; the hazard is then false. -/
def Obligations.StepKeepsCoherence : Prop :=
  (∀ s t : State, Coherent s → step s = .next t → Coherent t) ∧
  (∀ s : State, Coherent s → s.outTravelOk = true →
    s.work.stage = .complete ∧ s.work.inMotion = false ∧ s.work.roomsIn = true ∧ s.work.allRetracted = true ∧
      ((s.work.mv awn).present = true → s.work.stowed = true) ∧ s.ready.hazard = false)

/-- No motor is driven outside RAMP, RUN and APPROACH; and the law of the drive (R10): a channel with a duty holds a motion in
RAMP, RUN or APPROACH, is neither fenced nor FAULTED, and no active inhibit applies to its motion; kept with what every
command keeps of movers, claims, queue and learning runs. -/
def Obligations.StepKeepsDriveLaw : Prop :=
  (∀ s t : State, DrivesOnlyInMotion s → step s = .next t → DrivesOnlyInMotion t) ∧
  (∀ s t : State, DriveLaw s → step s = .next t → DriveLaw t) ∧
  (∀ s : State, DriveLaw s → ∀ c : ChanId, DutyAllowed s.work c)

/-- The law of the hydraulic circuit (R62): a valve is open only while the pump is RUNNING in the direction of the activity,
for a jack of its open set that is present, neither fenced nor FAULTED, and then it is open; while the pump stays RUNNING its
direction stays. Kept with what every command keeps of activity, pump, procedure and queue. -/
def Obligations.StepKeepsHydraulicLaw : Prop :=
  (∀ s t : State, HydraulicLaw s → step s = .next t → HydraulicLaw t) ∧
  (∀ s : State, HydraulicLaw s → ValvesAllowed s.work) ∧
  (∀ s t : State, HydraulicLaw s → step s = .next t → s.work.hyd.pump = .running → t.work.hyd.pump = .running →
    t.work.hyd.pdir = s.work.hyd.pdir)

/-- The law of the budget (R142, R144): the sum of the admitted draws never exceeds the budget, and no target has two entries
in the admitted list and the queue together. Kept, beside the laws of the drive and of the hydraulic circuit, with what every
command keeps of motions, claims and the pump's start. -/
def Obligations.StepKeepsBudgetLaw : Prop :=
  ∀ s t : State, DriveLaw s → HydraulicLaw s → BudgetLaw s → step s = .next t → BudgetLaw t

/-- Every field of the working profile and of the COACH values in force holds a value of its range. -/
def Obligations.StepKeepsProfilesInRange : Prop :=
  ∀ s t : State, ProfilesInRange s → step s = .next t → ProfilesInRange t

/-! ## Reset and start-up -/

/-- What stands right after a reset: the values the spec gives, and an inhibit set in which SLIDES_NOT_IN is clear because no
room is present before the load (log 5). The laws of every step hold there. -/
def Obligations.ResetValuesAndLaws : Prop :=
  QueueBounded State.reset ∧ Coherent State.reset ∧ DrivesOnlyInMotion State.reset ∧ DriveLaw State.reset ∧
  ProfilesInRange State.reset ∧ HydraulicLaw State.reset ∧ BudgetLaw State.reset ∧
  State.reset.port.outq = [] ∧ State.reset.port.mask = 0x07FF ∧ State.reset.port.linkAt = none ∧
  State.reset.work.service = false ∧ State.reset.work.power = .active ∧ State.reset.work.wakeCauses = 0 ∧
  State.reset.work.bud.admitted = [] ∧ State.reset.work.bud.queue = [] ∧ State.reset.work.bud.sum = 0 ∧
  State.reset.work.hyd.pump = .off ∧ State.reset.work.hyd.pdir = .inward ∧ State.reset.work.hyd.activity = none ∧
  State.reset.work.tilt.fault = true ∧ State.reset.work.tilt.good = 0 ∧ State.reset.work.lvl.phase = .idle ∧
  State.reset.work.lvl.lastOutcome = .none ∧ State.reset.work.lvl.levelHeld = false ∧
  State.reset.work.wind.lockout = none ∧ State.reset.work.sup.low = false ∧ State.reset.work.sup.high = false ∧
  State.reset.work.sup.tripped = false ∧ State.reset.work.speed.moving = false ∧ State.reset.work.inh = 0x0107 ∧
  State.reset.ready.travel = .deployed ∧ State.reset.ready.hazard = false ∧ State.reset.outTravelOk = false ∧
  State.reset.outAlert = false ∧ State.reset.outRdy = false ∧ State.reset.work.store.jobs = [] ∧
  ∀ c : ChanId, (State.reset.work.ch c).state = .idle ∧ (State.reset.work.ch c).bridge = .coast ∧
    (State.reset.work.ch c).duty = 0 ∧ (State.reset.work.ch c).fenced = false ∧ (State.reset.work.ch c).motion = none ∧
    (State.reset.work.ch c).fault = none ∧ (State.reset.work.ch c).lastDir = .inward

/-- Every reset leaves the state of step 1 of the start-up, with its cause, and every register of the blocks at its value of
reset, which log 5 names where the spec gives none; the level of the RESET# pin is that of log 6 and log 21. Storage stays,
but for what was being written: a checkpoint or LEARNED record that a reset, of any of the four kinds, cut does not pass its
check afterwards; a commit that it cut leaves one section bad (which one is free, log 8), those before it as the commit
writes them and those after it as they were. -/
def Obligations.ResetCommandsStartOver : Prop :=
  (∀ s : State,
    let fresh (t : State) (stage : Stage) (cause : ResetCause) : Prop :=
      t.pending = s.pending ∧ t.port = {} ∧ t.ready = {} ∧ t.work.stage = stage ∧ t.work.resetCause = cause ∧
      t.work.power = .active ∧ t.work.wakeCauses = 0 ∧ t.work.mode = .unconfigured ∧ t.work.service = false ∧
      t.work.bud = {} ∧ t.work.hyd = {} ∧ t.work.lvl = {} ∧ t.work.tilt = {} ∧ t.work.wind = {} ∧ t.work.sup = {} ∧
      t.work.inputs = {} ∧ t.work.speed = {} ∧ t.work.inh = 0x0107 ∧ t.work.returnedAt = none ∧ t.work.wakePrev = none ∧
      t.work.link = 0 ∧ t.work.store.jobs = [] ∧ t.work.store.busy = none ∧ t.work.store.working = [] ∧
      t.work.store.coach = [] ∧ t.work.store.learned = {} ∧ t.work.store.note = 0 ∧
      (∀ c, t.work.ch c = {}) ∧ (∀ m, t.work.mv m = {}) ∧ (∀ j, t.work.jk j = {}) ∧
      (s.work.store.busy = none → t.work.store.sections = s.work.store.sections ∧
        t.work.store.learnedRec = s.work.store.learnedRec ∧ t.work.store.checkpoints = s.work.store.checkpoints)
    (∃ t, exec .powerOnReset s = .next t ∧ fresh t (if s.work.pins.reset then .held else .loading) .power) ∧
    (∃ t, exec .resetPinAsserted s = .next t ∧ fresh t .held s.work.resetCause ∧ t.work.pins.reset = true) ∧
    (s.work.pins.reset = true →
      ∃ t, exec .resetPinReleased s = .next t ∧ fresh t .loading .pin ∧ t.work.pins.reset = false) ∧
    (s.work.awake = true → s.work.pins.reset = false →
      ∀ tag, ∃ t, exec (.restart tag) s = .next t ∧ fresh t .loading .restart)) ∧
  (∀ (s t : State) (sv : Service),
    (exec .powerOnReset s = .next t ∨ exec .resetPinAsserted s = .next t ∨
      s.work.pins.reset = true ∧ exec .resetPinReleased s = .next t ∨
      s.work.awake = true ∧ ∃ tag, exec (.restart tag) s = .next t) →
    s.work.store.busy = some sv →
    let st := s.work.store
    let st' := t.work.store
    (∀ c cp n, sv.job = .checkpoint c cp n → readCheckpoint st'.checkpoints[c] = none ∧
      (∀ d : ChanId, d ≠ c → st'.checkpoints[d] = st.checkpoints[d]) ∧ st'.sections = st.sections ∧
      st'.learnedRec = st.learnedRec) ∧
    (sv.job = .learned → readLearned st'.learnedRec = none ∧ st'.sections = st.sections ∧
      st'.checkpoints = st.checkpoints) ∧
    (sv.job = .commit → st'.learnedRec = st.learnedRec ∧ st'.checkpoints = st.checkpoints ∧
      ∃ k : Fin 6, sectionValid k st'.sections[k] = false ∧
        (∀ i : Fin 6, i < k → st'.sections[i] = some (Record.fresh (sectionVals st.working i))) ∧
        (∀ i : Fin 6, k < i → st'.sections[i] = st.sections[i])))

/-- The load completes: valid sections enter the working profile, a bad COACH section means UNCONFIGURED, the channels in
use go to BRAKE at rest, RESET_SEEN is the only attention bit and the link timer starts. A channel in use takes count,
status and seat from a valid AT_REST checkpoint, the count cut at its limit; any other leaves it UNKNOWN, BETWEEN and at 0.
The start-up completes when the jacks are settled, no earlier than 500 ms after the load (log 28); the posture is then
derived. -/
def Obligations.StartupLoadsAndCompletes : Prop :=
  (∀ s : State, s.work.stage = .loading →
    ∃ t, exec .startupLoadComplete s = .next t ∧ t.work.stage = .settling ∧ t.work.loadAt = s.work.now ∧
      t.port.attn = attnResetSeen ∧ t.port.linkAt = some s.work.now ∧ t.port.outq = s.port.outq ∧
      t.work.store.working = loadProfile s.work.store.sections ∧
      (t.work.mode = if sectionValid 0 s.work.store.sections[(0 : Fin 6)] then .normal else .unconfigured) ∧
      (∀ c : ChanId, (t.work.ch c).state = .idle ∧ (t.work.ch c).duty = 0 ∧ (t.work.ch c).motion = none ∧
        (t.work.ch c).bridge = if (t.work.ch c).role = .unused then .coast else .brake) ∧
      t.work.inh = t.work.deriveInh) ∧
  (∀ s t : State, s.work.stage = .loading → exec .startupLoadComplete s = .next t →
    ∀ c : ChanId, (t.work.ch c).role ≠ .unused →
      (∀ k, readCheckpoint s.work.store.checkpoints[c] = some k → k.inMotion = false →
        (t.work.ch c).pos = min k.pos (t.work.upperLimit c) ∧ (t.work.ch c).known = k.known ∧
          (t.work.ch c).seat = k.seat) ∧
      ((readCheckpoint s.work.store.checkpoints[c] = none ∨
          ∃ k, readCheckpoint s.work.store.checkpoints[c] = some k ∧ k.inMotion = true) →
        (t.work.ch c).pos = 0 ∧ (t.work.ch c).known = false ∧ (t.work.ch c).seat = .between)) ∧
  (∀ s : State, s.work.stage = .settling →
    ∃ t, exec .startupComplete s = .next t ∧ t.work.stage = .complete ∧ t.work.loadAt + 500000 ≤ t.work.now ∧
      t.ready.travel = t.work.travel ∧ t.ready.travelOk = (t.work.travel == .travelReady) ∧
      t.ready.hazard = hazardOf t.work.inh t.work.travel)

/-- Inputs settle once: a panel switch from its first 20 ms after the load, spent when found pressed (R29, R121); a coach input
from its first 50 ms, at the level found, and its inhibit member follows (R152, R154). -/
def Obligations.InputsSettle : Prop :=
  ∀ s : State, s.work.awake = true →
    (∀ m d b, ((s.work.mv m).switch d).settled = false →
      exec (.panelSwitchSettled m d b) s = .next (finish s
        (((s.work.notBefore (s.work.loadAt + 20000)).showSwitch m d b).setMv m ((s.work.mv m).setSwitch d
          { settled := true, pressed := b, spent := b, cand := b, count := 0 })) none)) ∧
    (∀ i b, (s.work.inputs.get i).settled = false →
      ∃ t, exec (.coachInputSettled i b) s = .next t ∧ (t.work.inputs.get i).settled = true ∧
        (t.work.inputs.get i).level = b ∧ s.work.loadAt + 50000 ≤ t.work.now ∧
        (∀ k, k ≠ i → t.work.inputs.get k = s.work.inputs.get k) ∧ t.work.inh = t.work.deriveInh)

/-! ## The Link Port -/

/-- Every well-formed request, sent as a frame, is judged at line 7 as that request, with every operand as it was sent,
whatever bytes follow the frame. -/
def Obligations.FramesCarryRequests : Prop :=
  ∀ (i : Instr) (k t : Byte) (p more : List Byte), i.wf = true → encodeRequest i = some (k, t, p) →
    judge (Frame.bytes { kind := k, tag := t, payload := p } ++ more) = .request i

/-- SEL# asserted: the head of the outbound queue is taken to shift out, the link timer restarts and a part in STANDBY
becomes ACTIVE; before the load the idle frame is shifted out. SEL# deasserted: the head leaves when all its bytes were
clocked; then the table of R178 is followed, an answer that finds 16 frames sets LINK_OVERRUN instead (R179), and a request
does what the command of its name does. Before the load, and in the selection that wakes the part, the frame is discarded. That
the end of the selection decides which of the two holds, and what the inbound buffer keeps between selections, is the model's
choice (log 46). -/
def Obligations.SelectionsBeginAndEnd : Prop :=
  (∀ s : State, s.port.selected = false →
    (s.work.awake = true → exec .selectAsserted s = .next
      { s.toActive with port := { s.port with selected := true, wakeSel := false, shift := s.port.outq.head?,
                                              linkAt := some s.work.now, inbound := [], inCount := 0 } }) ∧
    (s.work.stage.loaded = false → exec .selectAsserted s = .next
      { s with port := { s.port with selected := true, wakeSel := false, shift := none, inbound := [], inCount := 0 } })) ∧
  (∀ (s : State) (rx : List Byte), s.work.awake = true → s.port.selected = true → s.port.wakeSel = false →
    let q := match s.port.shift with
      | some f => if f.payload.length + 4 ≤ rx.length then s.port.outq.tail else s.port.outq
      | none => s.port.outq
    let a : State := { s with port := { s.port with outq := q, selected := false, wakeSel := false, shift := none,
                                                    inbound := rx.take 52, inCount := rx.length } }
    let answer (a : State) (f : Frame) : State := if 16 ≤ a.port.outq.length
      then { a with port := { a.port with attn := a.port.attn ||| attnLinkOverrun } } else { a with port := a.port.push f }
    let err : State := { a with port := { a.port with attn := a.port.attn ||| attnLinkError } }
    (rx.length < 4 → exec (.selectionEnd rx) s = .next a.standbyCheck) ∧
    (∀ n k t rest, rx = n :: k :: t :: rest → 4 ≤ rx.length → (48 < n.toNat ∨ rx.length < n.toNat + 4) →
      exec (.selectionEnd rx) s = .next (answer a (generalReply t .lengthError))) ∧
    (∀ n k t rest c, rx = n :: k :: t :: rest → n.toNat ≤ 48 → rest[n.toNat]? = some c →
      let p := rest.take n.toNat
      (c ≠ crc8 (n :: k :: t :: p) → exec (.selectionEnd rx) s = .next (answer err (generalReply 0 .checkError))) ∧
      (c = crc8 (n :: k :: t :: p) →
        (n = 0 → k = 0 → t = 0 → exec (.selectionEnd rx) s = .next a.standbyCheck) ∧
        (¬(n = 0 ∧ k = 0 ∧ t = 0) →
          (decodeRequest k t p = .unknownKind →
            exec (.selectionEnd rx) s = .next (answer a (generalReply t .unknownKind))) ∧
          (decodeRequest k t p = .badLength →
            exec (.selectionEnd rx) s = .next (answer a (replyFrame k t { status := .lengthError }))) ∧
          (∀ i, decodeRequest k t p = .request i → exec (.selectionEnd rx) s = exec i a))))) ∧
  (∀ (s : State) (rx : List Byte), s.port.selected = true → (s.work.stage.loaded = false ∨ s.port.wakeSel = true) →
    exec (.selectionEnd rx) s = .next
      { s with port := { s.port with selected := false, wakeSel := false, shift := none, inbound := rx.take 52,
                                     inCount := rx.length } })

/-- The selection whose assertion wakes the part carries no request. -/
def Obligations.WakingSelectionCarriesNoRequest : Prop :=
  ∀ s : State, s.work.stage.loaded = true → s.work.power = .dormant → s.port.selected = false →
    ∃ t, exec .selectAsserted s = .next t ∧ t.port.selected = true ∧ t.port.shift = none ∧
      s.port.outq <+: t.port.outq ∧ t.port.linkAt = some s.work.now ∧ t.work.power = .active ∧
      ∀ rx, ∃ u, exec (.selectionEnd rx) t = .next u ∧ u.port.outq = t.port.outq ∧ u.port.attn = t.port.attn ∧
        u.work = t.work ∧ u.ready = t.ready ∧ u.port.selected = false ∧
        ∃ v, exec .selectAsserted u = .next v ∧ v.port.shift = u.port.outq.head? ∧ v.work.power = .active ∧
          (∀ f, s.port.outq.head? = some f → v.port.shift = some f)

/-- The queries and NOP answer DONE with their data, an index that names nothing BAD_ARGUMENT without data, and change
nothing else, beyond the return from STANDBY that the selection made; the data of the layouts of Section 12.4 has its length
and, where named here, its bytes at their places; an UNUSED channel reads R2's values and 0 (R195), an absent awning 0. -/
def Obligations.QueriesAnswerAndChangeNothing : Prop :=
  (∀ (s : State) (tag : Byte), Takes s →
    let a := s.toActive
    let done (kind : Byte) (data : List Byte) : State := replied a kind tag { status := .done, data := data }
    exec (.nop tag) s = .next (done 0x01 []) ∧
    exec (.ident tag) s = .next (done 0x02 a.identData) ∧
    exec (.attention tag) s = .next (done 0x03
      (halfBytes s.port.attn ++ halfBytes s.port.mask ++
        [s.work.wakeCauses.setWidth 8, BitVec.ofNat 8 s.port.outq.length])) ∧
    exec (.posture tag) s = .next (done 0x04 a.postureData) ∧
    (∀ c : ChanId, exec (.channel tag (BitVec.ofNat 8 c.val)) s = .next (done 0x05 (a.work.channelData c))) ∧
    (∀ m : MoverId, m ≠ awn → (s.work.mv m).present = true →
      exec (.room tag (BitVec.ofNat 8 m.val)) s = .next (done 0x06 (a.work.roomData m))) ∧
    (∀ m : MoverId, m ≠ awn → (s.work.mv m).present = false →
      exec (.room tag (BitVec.ofNat 8 m.val)) s = .next (done 0x06 (List.replicate 29 0))) ∧
    exec (.jacks tag) s = .next (done 0x07 a.jacksData) ∧
    exec (.levelStatus tag) s = .next (done 0x08 a.levelData) ∧
    exec (.wind tag) s = .next (done 0x09 a.windData) ∧
    exec (.supply tag) s = .next (done 0x0A a.supplyData) ∧
    exec (.queue tag) s = .next (done 0x0B a.queueData) ∧
    (∀ n : Byte, 8 ≤ n.toNat → exec (.channel tag n) s = .next (replied a 0x05 tag { status := .badArgument })) ∧
    (∀ n : Byte, 4 ≤ n.toNat → exec (.room tag n) s = .next (replied a 0x06 tag { status := .badArgument })) ∧
    ({ status := .badArgument : Reply }).payload = [19, 0]) ∧
  (∀ s : State, s.identData.length = 13 ∧ s.attentionData.length = 6 ∧ s.postureData.length = 25 ∧
    (∀ c, (s.work.channelData c).length = 19) ∧ (∀ m, (s.work.roomData m).length = 29) ∧ s.jacksData.length = 42 ∧
    s.levelData.length = 47 ∧ s.windData.length = 33 ∧ s.supplyData.length = 28 ∧
    s.queueData.length = 7 + 4 * s.work.bud.admitted.length + 6 * s.work.bud.queue.length) ∧
  (∀ s : State,
    let w := s.work
    let at8 (d : List Byte) (k n : Nat) : Prop := d[k]? = some (BitVec.ofNat 8 n)
    let at16 (d : List Byte) (k n : Nat) : Prop :=
      at8 d k (min n 65535) ∧ at8 d (k + 1) (min n 65535 / 256)
    let signed (d : List Byte) (k : Nat) (v : Int) : Prop := -32767 ≤ v → v ≤ 32767 →
      d[k]? = some (BitVec.ofInt 8 v) ∧ d[k + 1]? = some (BitVec.ofInt 8 (v / 256))
    let bit (b : Bool) (k : Nat) : Nat := if b then 2 ^ k else 0
    (at8 s.identData 0 0x20 ∧ at8 s.identData 1 0x46 ∧
      at8 s.identData 3 (match w.mode with | .normal => 0 | .service => 1 | .unconfigured => 2) ∧
      at8 s.identData 4 (bit w.service 0) ∧ at8 s.identData 8 w.wakeCauses.toNat ∧
      at16 s.identData 9 s.port.attn.toNat ∧ at16 s.identData 11 (s.linkTimer / 1000000)) ∧
    (at8 s.postureData 0 (match s.ready.travel with | .inMotion => 0 | .travelReady => 1 | .deployed => 2) ∧
      at8 s.postureData 1 (bit s.ready.hazard 0 + bit s.ready.travelOk 1 + bit w.allRetracted 2 + bit w.stabilized 3 +
        bit w.lvl.levelHeld 4 + bit w.speed.moving 5) ∧
      at8 s.postureData 2 (match s.ready.alert with | .off => 0 | .slow => 1 | .steady => 2) ∧
      at16 s.postureData 3 w.inh.toNat ∧ at8 s.postureData 9 w.speed.below ∧
      ∀ r : Fin 4, at8 s.postureData (10 + 3 * r.val) (if (w.mv (roomMover r)).present then
        1 + bit (w.known (roomMover r)) 1 else 0)) ∧
    (∀ c : ChanId,
      let x := w.ch c
      let d := w.channelData c
      (x.role = .unused → d = [3, 0, 0, 0, 0, 0, 0, 0, 2, 0, 0, 0, 3] ++ halfBytes (BitVec.ofNat 16 (min x.current 65535)) ++
        [0, 0, 0, 0]) ∧
      (x.role ≠ .unused →
        at8 d 0 (match x.role with | .roomLeader => 0 | .roomFollower => 1 | .awning => 2 | .unused => 3) ∧
        at8 d 1 (match x.state with | .idle => 0 | .queued => 1 | .moving => 2 | .retryWait => 3 | .faulted => 4) ∧
        (x.motion = none → at8 d 2 0xFF ∧ at8 d 3 0xFF ∧ at8 d 4 0xFF) ∧
        (∀ mo, x.motion = some mo →
          at8 d 2 (match mo.phase with | .starting => 0 | .ramp => 1 | .run => 2 | .approach => 3 | .stopping => 4) ∧
          at8 d 3 (match mo.dir with | .outward => 0 | .inward => 1) ∧
          at8 d 4 (match mo.source with | .link => 0 | .panel => 1 | .auto => 2)) ∧
        at8 d 5 (bit x.fenced 0 + bit x.known 1 + bit (w.learned c).isSome 2) ∧ signed d 6 x.pos ∧
        at8 d 8 (match x.seat with | .inSeated => 0 | .outSeated => 1 | .between => 2) ∧ at16 d 9 (w.effStroke c) ∧
        at8 d 11 x.duty ∧ at8 d 12 (match x.bridge with | .driveOut => 0 | .driveIn => 1 | .brake => 2 | .coast => 3) ∧
        at16 d 13 x.current ∧ at8 d 15 x.retry ∧ (x.fault = none → at8 d 16 0xFF) ∧
        (x.lastLock = none → at8 d 17 0xFF ∧ at8 d 18 0xFF))) ∧
    (∀ m : MoverId,
      let d := w.roomData m
      at8 d 0 (1 + bit (w.known m) 1 + bit (w.faulted m) 2 + bit (w.fenced m) 3) ∧
      (∀ c, (w.mv m).leader = some c → at8 d 2 c.val ∧ signed d 15 (w.ch c).pos ∧ at16 d 17 (w.effStroke c)) ∧
      ((w.mv m).follower = none → at8 d 3 0xFF ∧ at16 d 19 0x8000 ∧ at16 d 21 0xFFFF ∧ at16 d 23 0x8000) ∧
      at16 d 4 (w.nominal m) ∧
      ((w.mv m).claim = none → at8 d 7 0xFF ∧ at8 d 8 0xFF ∧ at8 d 9 0xFF ∧ at16 d 10 0xFFFF) ∧
      at8 d 28 (bit (w.mv m).swIn.pressed 0 + bit (w.mv m).swOut.pressed 1)) ∧
    (at8 s.jacksData 0 w.jackCount ∧
      at8 s.jacksData 1 (match w.hyd.pump with | .off => 0 | .running => 1 | .dwell => 2 | .rest => 3) ∧
      at8 s.jacksData 2 (match w.hyd.pdir with | .outward => 0 | .inward => 1) ∧ at16 s.jacksData 3 w.hyd.current ∧
      (w.hyd.activity = none → at8 s.jacksData 9 0xFF ∧ at8 s.jacksData 10 0xFF ∧ at8 s.jacksData 11 0xFF ∧
        at16 s.jacksData 14 0xFFFF) ∧
      ∀ j : JackId, let x := w.jk j
        (w.jackPresent j = true → at8 s.jacksData (19 + 4 * j.val) (1 + bit x.valid 1 + bit x.grounded 2 +
          bit x.retracted 3 + bit x.atLimit 4 + bit x.fenced 5) ∧ at16 s.jacksData (20 + 4 * j.val) x.stroke) ∧
        (w.jackPresent j = false → at16 s.jacksData (18 + 4 * j.val) 0 ∧ at16 s.jacksData (20 + 4 * j.val) 0)) ∧
    (signed s.levelData 4 w.tilt.tx ∧ signed s.levelData 6 w.tilt.ty ∧ signed s.levelData 12 w.tilt.p ∧
      signed s.levelData 14 w.tilt.q ∧ at8 s.levelData 44 w.lvl.levelRun ∧
      (∀ j : JackId, w.lvl.heights[j] = none → at16 s.levelData (19 + 2 * j.val) 0x8000) ∧
      (∀ j : JackId, ∀ v, w.lvl.demands[j] = some v → at16 s.levelData (31 + 2 * j.val) v)) ∧
    ((w.mv awn).leader = none → s.windData = List.replicate 33 0) ∧
    (∀ c, (w.mv awn).leader = some c → at16 s.windData 1 w.wind.speed ∧ at16 s.windData 3 w.wind.count ∧
      at8 s.windData 5 w.wind.gustRun ∧ at8 s.windData 14 c.val ∧ signed s.windData 26 (w.ch c).pos ∧
      at8 s.windData 28 (if (w.ch c).known then 0 else 1)) ∧
    (at16 s.supplyData 0 w.sup.voltage ∧
      at8 s.supplyData 3 (bit w.sup.low 0 + bit w.sup.high 1 + bit w.latchPolicy 2 + bit w.sup.tripped 3) ∧
      at8 s.supplyData 4 (bit w.sup.low 0 + bit w.sup.high 1) ∧ at16 s.supplyData 17 w.sup.busSum ∧
      at16 s.supplyData 22 w.budget ∧ at16 s.supplyData 24 w.bud.sum ∧ at16 s.supplyData 26 (w.budget - w.bud.sum)) ∧
    (at16 s.queueData 0 w.budget ∧ at16 s.queueData 2 w.bud.sum ∧ at8 s.queueData 4 w.queueLimit ∧
      at8 s.queueData 6 w.bud.admitted.length ∧
      ∀ a rest, w.bud.admitted = a :: rest → at8 s.queueData 8 a.draw ∧
        at16 s.queueData 9 ((w.now - a.since) / 1000)))

/-- PROFILE_READ answers the working values in request order, or BAD_ARGUMENT when some id names no field. -/
def Obligations.ProfileReadAnswersWorkingValues : Prop :=
  ∀ (s : State) (tag : Byte) (ids : List Half), Takes s → 1 ≤ ids.length → ids.length ≤ 12 →
    ((∀ i ∈ ids, (fieldOf i.toNat).isSome = true) →
      exec (.profileRead tag ids) s = .next (replied s.toActive 0x0C tag
        { status := .done, data := ids.flatMap fun i => halfBytes (BitVec.ofInt 16 (s.work.store.working.get i.toNat)) })) ∧
    ((∃ i ∈ ids, (fieldOf i.toNat).isSome = false) →
      exec (.profileRead tag ids) s = .next (replied s.toActive 0x0C tag { status := .badArgument }))

/-- ATTENTION_CLEAR, REPORT_ENABLE and REPORT_DISABLE act on the masked positions alone, CLAMPED when a position is
disregarded; an event sets the bit of its class, its report joins the tail when the class is enabled and at most 13 frames
wait, and is lost, with REPORT_LOST, when 14 or more wait; a request that finds the queue full is discarded unexecuted, no
block sees it, and only LINK_OVERRUN is set (RESTART needs no place). -/
def Obligations.MasksPlacesAndReports : Prop :=
  ((∀ (s : State) (tag : Byte) (mask : Half), Takes s →
    let a := s.toActive
    exec (.attentionClear tag mask) s = .next (replied
      { a with port := { a.port with attn := a.port.attn &&& ~~~ (mask &&& 0x7FFF) },
               work := if mask.getLsbD 8 then { a.work with wakeCauses := 0 } else a.work } 0x1E tag
      { status := if mask.getLsbD 15 then .clamped else .done }) ∧
    exec (.reportEnable tag mask) s = .next (replied
      { a with port := { a.port with mask := a.port.mask ||| (mask &&& 0x07FF) } } 0x1F tag
      { status := if mask &&& 0xF800 = 0 then .done else .clamped }) ∧
    exec (.reportDisable tag mask) s = .next (replied
      { a with port := { a.port with mask := a.port.mask &&& ~~~ (mask &&& 0x07FF) } } 0x20 tag
      { status := if mask &&& 0xF800 = 0 then .done else .clamped })) ∧
  (∀ (p : Port) (e : Event),
    (p.mask &&& e.bit = 0 → p.take e = { p with attn := p.attn ||| e.bit }) ∧
    (p.mask &&& e.bit ≠ 0 → p.outq.length ≤ 13 →
      p.take e = { p with attn := p.attn ||| e.bit, outq := p.outq ++ [e.frame] }) ∧
    (p.mask &&& e.bit ≠ 0 → 14 ≤ p.outq.length →
      p.take e = { p with attn := p.attn ||| e.bit ||| attnReportLost }))) ∧
  (∀ (s : State) (i : Instr), s.work.awake = true → s.work.power = .active → 16 ≤ s.port.outq.length →
    (encodeRequest i).isSome = true → (∀ tag, i ≠ .restart tag) →
      exec i s = .next { s with port := { s.port with attn := s.port.attn ||| attnLinkOverrun } })

/-! ## Power -/

/-- SLEEP is refused in the order of its table; otherwise the reply is placed and the part is DORMANT at the same event, a zero
run gone: R86 lets the run stand and R93 ends it, and the model follows R93, its own choice (log 41). -/
def Obligations.SleepEntersDormant : Prop :=
  ∀ (s : State) (tag : Byte), Takes s → s.work.stage = .complete →
    let a := s.toActive
    (s.ready.travel = .inMotion →
      exec (.sleep tag) s = .next (answered s 0x30 tag a.work { status := .notReady, arg := 5 })) ∧
    (s.ready.travel ≠ .inMotion → s.ready.hazard = true →
      exec (.sleep tag) s = .next (answered s 0x30 tag a.work { status := .notReady, arg := 6 })) ∧
    (s.ready.travel ≠ .inMotion → s.ready.hazard = false → (s.work.mv awn).present = true → a.work.stowed = false →
      exec (.sleep tag) s = .next (answered s 0x30 tag a.work { status := .notReady, arg := 7 })) ∧
    (s.ready.travel ≠ .inMotion → s.ready.hazard = false → ((s.work.mv awn).present = true → a.work.stowed = true) →
      s.work.storeBusy = true →
      exec (.sleep tag) s = .next (answered s 0x30 tag a.work { status := .busy, arg := 5 })) ∧
    (s.ready.travel ≠ .inMotion → s.ready.hazard = false → ((s.work.mv awn).present = true → a.work.stowed = true) →
      s.work.storeBusy = false →
      ∃ t, exec (.sleep tag) s = .next t ∧
        s.port.outq ++ [replyFrame 0x30 tag { status := .done }] <+: t.port.outq ∧ t.outRdy = false ∧ t.outAlert = false ∧
        t.work.power = .dormant ∧ t.work.dormantAt = some s.work.now ∧ t.work.tilt.zeroRun = none ∧
        t.work.sup.low = s.work.sup.low ∧ t.work.sup.high = s.work.sup.high ∧
        (s.work.inh = s.work.deriveInh → s.work.headDue = false →
          t.work.chans = a.work.chans ∧ t.work.jacks = s.work.jacks))

/-- A wake makes the part ACTIVE, adds its causes, restarts the link timer and raises WAKE; the wind lockout and the pump's
times resume with what they had left (R133, R171). The entry to STANDBY comes when nothing moves, waits or is owed to the host
and the link timer exceeds the delay; it stops the tilt sampler and the bus detector, which it leaves ARMED (R140), and raises
nothing but the LEARN event of a zero run it ends (log 41); a part that is not ACTIVE, moves, holds a queued entry or owes a
frame stays, and so does one that has returned from STANDBY since the last selection with no condition changed (log 34), as
after a debounced IGN, PBRK or WAKE becoming asserted. -/
def Obligations.WakeAndStandbyEntry : Prop :=
  (∀ (s : State) (sel ign pbrk wake : Bool) (panel : BitVec 10),
    s.work.stage.loaded = true → s.work.power = .dormant → (sel || ign || pbrk || wake || panel != 0) = true →
      let asleep : Time := s.work.now - s.work.dormantAt.getD s.work.now
      ∃ t, exec (.dormantWake sel ign pbrk wake panel) s = .next t ∧ t.work.power = .active ∧
        t.work.wakeCauses = s.work.wakeCauses |||
          ((bits16 [sel, ign, pbrk, panel != 0, wake]).setWidth 5 : BitVec 5) ∧
        t.port.attn.getLsbD 8 = true ∧
        t.port.linkAt = some s.work.now ∧ s.port.outq <+: t.port.outq ∧ t.work.now = s.work.now ∧
        t.work.wind.lockout = s.work.wind.lockout.map (· + asleep) ∧
        t.work.wind.count = s.work.wind.count ∧ t.work.speed.moving = s.work.speed.moving ∧
        (Settled s → t.work.hyd.dwellEnd = s.work.hyd.dwellEnd.map (· + asleep) ∧
          t.work.hyd.restEnd = s.work.hyd.restEnd.map (· + asleep) ∧ t.work.hyd.pump = s.work.hyd.pump)) ∧
  (∀ (s : State) (t0 : Time), s.work.stage = .complete → s.work.power = .active → s.ready.travel ≠ .inMotion →
    s.work.bud.queue = [] → s.port.outq = [] → s.port.linkAt = some t0 → s.work.events = [] →
    ProfileInRange s.work.store.working → (∀ r, s.work.returnedAt = some r → r ≤ t0) →
    ∃ t, exec .standbyEntry s = .next t ∧ t.work.power = .standby ∧ t.work.now = max s.work.now (t0 + s.work.standbyDelay + 1) ∧
      t.work.tilt.count = 0 ∧ t.work.tilt.zeroRun = none ∧ t.work.sup.busRun = 0 ∧ t.work.sup.tripped = false ∧
      t.work.chans = s.work.chans ∧ t.work.movers = s.work.movers ∧ t.work.store = s.work.store ∧
      (s.work.tilt.zeroRun = none → t.port = s.port)) ∧
  (∀ s : State, (s.work.power ≠ .active ∨ s.ready.travel = .inMotion ∨ s.work.bud.queue ≠ [] ∨ s.port.outq ≠ [] ∨
      ∃ t0 r, s.port.linkAt = some t0 ∧ s.work.returnedAt = some r ∧ t0 < r) →
    exec .standbyEntry s = .next s) ∧
  (∀ (s : State) (i : CoachInput) (b : Bool), s.work.awake = true → s.work.power = .standby →
    (i = .ign ∨ i = .pbrk ∨ (i = .wake ∧ b = true)) → (s.work.inputs.get i).settled = true →
    (s.work.inputs.get i).level ≠ b →
    ∃ t, exec (.coachInputChange i b) s = .next t ∧ t.work.power = .active ∧ (t.work.inputs.get i).level = b)

/-- The wake-cause set is sticky (R174): each wake adds its causes, that of a selection SEL and nothing else (the model's choice,
log 29); ATTENTION_CLEAR with the WAKE bit empties it and clears that bit, one without leaves it; every reset empties it; every
other command leaves it. -/
def Obligations.WakeCausesAreSticky : Prop :=
  (∀ (s t : State) (sel ign pbrk wake : Bool) (panel : BitVec 10),
    exec (.dormantWake sel ign pbrk wake panel) s = .next t → s.work.wakeCauses &&& t.work.wakeCauses = s.work.wakeCauses) ∧
  (∀ (s : State) (sel ign pbrk wake : Bool) (panel : BitVec 10), s.work.stage.loaded = true → s.work.power = .dormant →
    ∃ t, exec (.dormantWake sel ign pbrk wake panel) s = .next t ∧ t.work.wakeCauses = s.work.wakeCauses |||
      ((bits16 [sel, ign, pbrk, panel != 0, wake]).setWidth 5 : BitVec 5)) ∧
  (∀ (s : State) (tag : Byte) (mask : Half), Takes s →
    ∃ t, exec (.attentionClear tag mask) s = .next t ∧
      (mask.getLsbD 8 = true → t.work.wakeCauses = 0 ∧ t.port.attn.getLsbD 8 = false) ∧
      (mask.getLsbD 8 = false → t.work.wakeCauses = s.work.wakeCauses)) ∧
  (∀ (s : State) (i : Instr), i ∈ [Instr.powerOnReset, Instr.resetPinAsserted] ∨
      (i = .resetPinReleased ∧ s.work.pins.reset = true) ∨ (∃ tag, i = .restart tag ∧ s.work.awake = true) →
    ∃ t, exec i s = .next t ∧ t.work.wakeCauses = 0) ∧
  (∀ s : State, ∃ t, exec .selectAsserted s = .next t ∧
    t.work.wakeCauses = if s.work.stage.loaded = true ∧ s.work.power = .dormant ∧ s.port.selected = false
      then s.work.wakeCauses ||| 1 else s.work.wakeCauses) ∧
  (∀ (s t : State) (rx : List Byte), (∀ tag m, judge rx ≠ .request (.attentionClear tag m)) →
    (∀ tag, judge rx ≠ .request (.restart tag)) → exec (.selectionEnd rx) s = .next t →
      t.work.wakeCauses = s.work.wakeCauses) ∧
  (∀ (s t : State) (i : Instr), (∀ tag m, i ≠ .attentionClear tag m) → (∀ rx, i ≠ .selectionEnd rx) →
    i ∉ [Instr.powerOnReset, Instr.resetPinAsserted, Instr.resetPinReleased, Instr.selectAsserted] →
    (∀ tag, i ≠ .restart tag) → (∀ a b c d e, i ≠ .dormantWake a b c d e) →
    exec i s = .next t → t.work.wakeCauses = s.work.wakeCauses)

/-! ## Modes, inhibits and the profile -/

/-- SERVICE_ENTER and SERVICE_LEAVE by the mode. SERVICE_LEAVE stops every learning run with cause STOPPED (what that does is
`LearningRunsEndAborted`) and ends a zero run ABORTED before the mode changes. That the runs of S0 to S3 end one after the other
and the zero run last, and so the order of their reports, is the model's order (log 10). -/
def Obligations.ServiceModeFollowsRequests : Prop :=
  ∀ (s : State) (tag : Byte), Takes s →
    let w := s.toActive.work
    (s.work.mode = .service → exec (.serviceEnter tag) s = .next (answered s 0x28 tag w { status := .done })) ∧
    (s.work.mode = .unconfigured →
      exec (.serviceEnter tag) s = .next (answered s 0x28 tag { w with service := true } { status := .done }) ∧
      exec (.serviceLeave tag) s = .next (answered s 0x29 tag { w with service := false } { status := .done })) ∧
    (s.work.mode = .normal → s.work.stage = .complete → s.ready.travel ≠ .inMotion →
      exec (.serviceEnter tag) s = .next (answered s 0x28 tag { w with mode := .service, service := true }
        { status := .done })) ∧
    (s.work.mode = .normal → s.work.stage = .complete → s.ready.travel = .inMotion →
      exec (.serviceEnter tag) s = .next (answered s 0x28 tag w
        { status := .busy, arg := if w.hyd.activity.isSome ∨ w.lvl.phase ≠ .idle then 2 else 3 })) ∧
    (s.work.mode = .normal → exec (.serviceLeave tag) s = .next (answered s 0x29 tag w { status := .done })) ∧
    (s.work.mode = .service →
      let leaves (v : Work) : Prop := exec (.serviceLeave tag) s =
        .next (answered s 0x29 tag { v with mode := .normal, service := false } { status := .done })
      let stop (v : Work) (r : MoverId) : Work := if (v.mv r).learn.isSome then v.haltMover r .stopped else v
      let v := stop (stop (stop (stop w 0) 1) 2) 3
      ((∀ r ∈ allRooms, (s.work.mv r).learn = none) → s.work.tilt.zeroRun = none → leaves w) ∧
      (s.work.tilt.zeroRun = none → leaves v) ∧
      (∀ r, s.work.tilt.zeroRun = some r →
        leaves (({ v with tilt := { v.tilt with zeroRun := none } } : Work).emit (.learnTilt .aborted none none))))

/-- INHIBIT_SET and INHIBIT_CLEAR act on the LINK members of the mask alone; bits that name other members are disregarded
with CLAMPED (R156). The members of the inhibit set follow their owners (R154, R155). -/
def Obligations.InhibitsFollowOwnersAndMasks : Prop :=
  (∀ (s : State) (tag : Byte) (mask : Half), Takes s →
    let r : Reply := { status := if mask &&& 0x0FFF = 0 then .done else .clamped }
    (∃ t, exec (.inhibitSet tag mask) s = .next t ∧ t.work.link = s.work.link ||| (mask >>> 12).setWidth 4 ∧
      s.port.outq ++ [replyFrame 0x1C tag r] <+: t.port.outq ∧
      (∀ k < 4, t.work.inh.getLsbD (12 + k) = (s.work.link.getLsbD k || mask.getLsbD (12 + k)))) ∧
    (∃ t, exec (.inhibitClear tag mask) s = .next t ∧ t.work.link = s.work.link &&& ~~~ (mask >>> 12).setWidth 4 ∧
      s.port.outq ++ [replyFrame 0x1D tag r] <+: t.port.outq ∧
      (∀ k < 4, t.work.inh.getLsbD (12 + k) = (s.work.link.getLsbD k && !mask.getLsbD (12 + k))))) ∧
  (∀ (w : Work),
    (w.deriveInh.getLsbD 0 = true ↔ (w.inputs.ign.settled = false ∨ w.inputs.ign.level = true)) ∧
    (w.deriveInh.getLsbD 1 = true ↔ (w.inputs.pbrk.settled = false ∨ w.inputs.pbrk.level = false)) ∧
    (w.deriveInh.getLsbD 2 = true ↔ (w.inputs.park.settled = false ∨ w.inputs.park.level = false)) ∧
    (w.deriveInh.getLsbD 3 = w.speed.moving) ∧ (w.deriveInh.getLsbD 4 = w.sup.low) ∧
    (w.deriveInh.getLsbD 5 = w.sup.high) ∧ (w.deriveInh.getLsbD 6 = w.wind.lockout.isSome) ∧
    (w.deriveInh.getLsbD 7 = true ↔ ∃ r ∈ allRooms, (w.mv r).present = true ∧ w.isIn r = false) ∧
    (w.deriveInh.getLsbD 8 = true ↔ (w.coach 0x0141 = 1 ∧ w.stabilized = false)) ∧
    (w.deriveInh.getLsbD 9 = true ↔
      (w.coach 0x0142 = 1 ∧ (w.inputs.eng.settled = false ∨ w.inputs.eng.level = false))) ∧
    w.deriveInh.getLsbD 10 = false ∧ w.deriveInh.getLsbD 11 = false ∧
    (∀ k < 4, w.deriveInh.getLsbD (12 + k) = w.link.getLsbD k))

/-- PROFILE_WRITE: refused as a whole, by the first line that applies, it writes nothing; taken, each value goes to the
working profile in request order, clamped, COACH values in force and storage stay, CLAMPED when a value was changed, and for
every write of a RACKED policy (log 47); and a value written is the value read. -/
def Obligations.ProfileWritesAsAWhole : Prop :=
  (∀ (s : State) (tag : Byte) (ps : List (Half × Half)), Takes s →
    let w := s.toActive.work
    let may : Prop := s.work.mode = .service ∨ (s.work.mode = .unconfigured ∧ s.work.service = true)
    let good (x : Half × Half) : Prop := (acceptValue x.1.toNat x.2.toInt).isSome = true
    let acc (x : Half × Half) : Int × Bool := (acceptValue x.1.toNat x.2.toInt).getD (0, false)
    let no (r : Reply) : Prop := exec (.profileWrite tag ps) s = .next (answered s 0x2D tag w r)
    (¬may → no { status := .badMode }) ∧
    (may → s.work.commitInFlight = true → no { status := .busy, arg := 5 }) ∧
    (may → s.work.commitInFlight = false → (∃ x ∈ ps, ¬good x) → no { status := .badArgument }) ∧
    (may → s.work.commitInFlight = false → (∀ x ∈ ps, good x) →
      (∃ x ∈ ps, 0x0600 ≤ x.1.toNat ∧ x.1.toNat ≤ 0x0609) → s.work.bud.admitted ≠ [] →
      no { status := .busy, arg := if s.work.bud.admitted.all (fun e => e.target == 5) then 2 else 3 }) ∧
    (may → s.work.commitInFlight = false → (∀ x ∈ ps, good x) →
      ((∀ x ∈ ps, x.1.toNat < 0x0600 ∨ 0x0609 < x.1.toNat) ∨ s.work.bud.admitted = []) →
      ∃ t, exec (.profileWrite tag ps) s = .next t ∧
        t.work.store.working = ps.foldl (fun p x => p.set x.1.toNat (acc x).1) s.work.store.working ∧
        t.work.store.coach = s.work.store.coach ∧ t.work.store.sections = s.work.store.sections ∧
        s.port.outq ++ [replyFrame 0x2D tag { status := if ps.any fun x => (acc x).2 then .clamped else .done }] <+:
          t.port.outq)) ∧
  (∀ (p : Profile) (i j : Nat) (v : Int), Profile.wf p = true →
    (p.set i v).get i = v ∧ (i ≠ j → (p.set i v).get j = p.get j) ∧ Profile.wf (p.set i v) = true)

/-- PROFILE_COMMIT is refused outside SERVICE with BAD_MODE, while a commit is in flight with BUSY STORE, and with work
admitted or queued with the detail of R190; otherwise it joins the store job queue and is answered ACCEPTED. A channel's new
checkpoint replaces its pending one in place and joins the tail otherwise. A store job ends: a checkpoint or LEARNED job
leaves the record it carried in storage, a COMMIT leaves each of the six sections fresh or, where it failed, bad, with a
STORE event; and the next job is served from that moment, carrying its record as it then stands (a written checkpoint stated
where its channel does not wait for it in STARTING). -/
def Obligations.StoreJobsAreQueuedAndWritten : Prop :=
  (∀ (s : State) (tag : Byte), Takes s →
    let w := s.toActive.work
    let may : Prop := s.work.mode = .service ∨ (s.work.mode = .unconfigured ∧ s.work.service = true)
    let ts := s.work.bud.admitted.map (·.target) ++ s.work.bud.queue.map (·.target)
    let gives (w' : Work) (r : Reply) : Prop := exec (.profileCommit tag) s = .next (answered s 0x2E tag w' r)
    (¬may → gives w { status := .badMode }) ∧
    (may → s.work.commitInFlight = true → gives w { status := .busy, arg := 5 }) ∧
    (may → s.work.commitInFlight = false →
      (ts = [] → s.work.store.busy ≠ none →
        gives { w with store := { w.store with jobs := w.store.jobs ++ [.commit] } } { status := .accepted }) ∧
      (ts = [] → s.work.store.busy = none → s.work.store.jobs = [] →
        gives { w with store := { w.store with busy := some { job := .commit, start := w.now, record := none } } }
          { status := .accepted }) ∧
      (∀ j rest, ts = [] → s.work.store.busy = none → s.work.store.jobs = j :: rest →
        gives { w with store := { w.store with jobs := rest ++ [.commit],
                                               busy := some { job := j, start := w.now, record := w.jobRecord j } } }
          { status := .accepted }) ∧
      (ts ≠ [] → gives w { status := .busy, arg := if ts.all (· == 5) then 2 else 3 }))) ∧
  (∀ (jobs : List Job) (c : ChanId) (cp : Checkpoint) (n : Option Nat),
    let j := Job.checkpoint c cp n
    let r := placeCheckpoint c j jobs
    ((jobs.filter (Job.isCheckpointOf c)).length ≤ 1 → (r.filter (Job.isCheckpointOf c)) = [j]) ∧
    (∀ d, d ≠ c → r.filter (Job.isCheckpointOf d) = jobs.filter (Job.isCheckpointOf d)) ∧
    (jobs.any (Job.isCheckpointOf c) = true → r.length = jobs.length) ∧
    (jobs.any (Job.isCheckpointOf c) = false → r = jobs ++ [j])) ∧
  (∀ (s : State), s.work.awake = true →
    let served (t : State) : Prop :=
      t.work.store.jobs = s.work.store.jobs.tail ∧
        t.work.store.busy = s.work.store.jobs.head?.map fun j =>
          { job := j, start := t.work.now, record := t.work.jobRecord j }
    (∀ c cp n st r, s.work.store.busy = some { job := .checkpoint c cp n, start := st, record := some r } →
      ∃ t, exec (.checkpointWritten c) s = .next t ∧ t.work.store.checkpoints[c] = some r ∧
        (∀ d : ChanId, d ≠ c → t.work.store.checkpoints[d] = s.work.store.checkpoints[d]) ∧
        t.work.store.sections = s.work.store.sections ∧ t.work.store.learnedRec = s.work.store.learnedRec ∧
        t.work.now = max s.work.now (st + 5000) ∧
        (Settled s → (s.work.ch c).starting = false → served t)) ∧
    (∀ st r, s.work.store.busy = some { job := .learned, start := st, record := some r } →
      ∃ t, exec .learnedWritten s = .next t ∧ t.work.store.learnedRec = some r ∧
        t.work.store.sections = s.work.store.sections ∧ t.work.store.checkpoints = s.work.store.checkpoints ∧
        t.work.now = max s.work.now (st + 10000) ∧ (Settled s → served t)) ∧
    (∀ st r failed, s.work.store.busy = some { job := .commit, start := st, record := r } →
      ∃ t, exec (.commitComplete failed) s = .next t ∧ t.work.store.working = s.work.store.working ∧
        t.work.store.learnedRec = s.work.store.learnedRec ∧ t.work.store.checkpoints = s.work.store.checkpoints ∧
        (∀ k : Fin 6, failed.getLsbD k.val = false →
          t.work.store.sections[k] = some (Record.fresh (sectionVals s.work.store.working k))) ∧
        (∀ k : Fin 6, failed.getLsbD k.val = true → sectionValid k t.work.store.sections[k] = false) ∧
        t.port.attn &&& 0x0200 = 0x0200 ∧ (Settled s → served t)))

/-! ## Requests that move a room or the awning -/

/-- MOVE at a mover that holds nothing and passes checks 3 to 8: DONE at its end; else ACCEPTED with the motion handed over,
QUEUED, or QUEUE_FULL with nothing kept. -/
def Obligations.MoveClaimsAFreeMover : Prop :=
  ∀ (s : State) (tag : Byte) (m : MoverId) (d : Dir), Takes s →
    let w := s.toActive.work
    let c := claimOf w m .link d
    let w1 := w.setMv m { w.mv m with claim := some c }
    let cmd := Instr.move tag (BitVec.ofNat 8 m.val) (dirByte d)
    w.mode ≠ .unconfigured → w.stage = .complete → Free w m → (w.mv m).holdOffDir ≠ some d → Cleared w m d →
    (w.atEnd m d = true → exec cmd s = .next (answered s 0x10 tag w { status := .done })) ∧
    (w.atEnd m d = false → Fits w (w.moverDraw m) →
      exec cmd s = .next (answered s 0x10 tag
        ((admitted w1 (moverTarget m) (w.moverDraw m)).handOver m .link d (profileOf w m)) { status := .accepted })) ∧
    (w.atEnd m d = false → ¬Fits w (w.moverDraw m) → waiting w < w.queueLimit →
      exec cmd s = .next (answered s 0x10 tag ((queued w1 (entryOf w m c)).setQueued m true) { status := .queued })) ∧
    (w.atEnd m d = false → ¬Fits w (w.moverDraw m) → w.queueLimit ≤ waiting w →
      exec cmd s = .next (answered s 0x10 tag w { status := .queueFull }))

/-- MOVE refused: the first check that fails gives the status, and nothing changes. -/
def Obligations.MoveRefusedInOrder : Prop :=
  ∀ (s : State) (tag target dir : Byte), Takes s →
    let w := s.toActive.work
    let no (r : Reply) : Prop := exec (.move tag target dir) s = .next (answered s 0x10 tag w r)
    (5 ≤ target.toNat → no { status := .badArgument }) ∧
    (target.toNat < 4 → 2 ≤ dir.toNat → no { status := .badArgument }) ∧
    ∀ (m : MoverId) (d : Dir), target = BitVec.ofNat 8 m.val → dir = dirByte d →
      (w.mode = .unconfigured → no { status := .badMode }) ∧
      (w.mode ≠ .unconfigured → w.stage = .settling → no { status := .notReady, arg := 2 }) ∧
      (w.mode ≠ .unconfigured → w.stage = .complete → (w.mv m).present = false → no { status := .badArgument }) ∧
      (w.mode ≠ .unconfigured → w.stage = .complete → Free w m → (w.mv m).holdOffDir ≠ some d →
        (w.fenced m = true → no { status := .fenced }) ∧
        (w.fenced m = false → w.faulted m = true → no { status := .faulted }) ∧
        (w.fenced m = false → w.faulted m = false →
          (d = .outward → w.known m = false → no { status := .positionUnknown }) ∧
          ((d = .outward → w.known m = true) →
            ((w.lvl.phase ≠ .idle ∨ ∃ a, w.hyd.activity = some a ∧ a.kind = .stow) → no { status := .busy, arg := 2 }) ∧
            (w.lvl.phase = .idle → (∀ a, w.hyd.activity = some a → a.kind ≠ .stow) →
              (∀ id, LowestBlocking w.inh (moveClass m d) id → no { status := .inhibited, arg := BitVec.ofNat 8 id }) ∧
              (w.inh &&& (moveClass m d).mask = 0 → w.conflict m = true → no { status := .conflict })))))

/-- MOVE at a room, or the awning, that is not IDLE and holds a hold-to-run claim: renewal, BUSY in RETRY_WAIT,
HELD_BY_OTHER, the reversal of STOP_ONLY with its hold-off, or that of STOP_DWELL with its pending reversal; without a
claim, the renewal of a pending reversal or BUSY. At a ONE_TOUCH claim MOVE is RENEWED or stops it, also while a hold-off
stands; MOVE in a held-off direction is otherwise BUSY and moves the hold-off, at the awning also after the one-touch flag was
written on (log 40); at a retract it is BUSY WIND, RENEWED, or stops a TRAVEL one. Where STOP_DWELL meets a queued entry, the
queue's head is judged before the new claim (log 10), which `MoverTimersExpire` follows from check 3 on. A learning run is in
`LearningRunsSettleArrivals`. -/
def Obligations.MoveAtABusyRoom : Prop :=
  ∀ (s : State) (tag : Byte) (m : MoverId) (d : Dir), Takes s →
    let w := s.toActive.work
    let x := w.mv m
    let till := w.now + w.holdWindow
    let no (w' : Work) (r : Reply) : Prop :=
      exec (.move tag (BitVec.ofNat 8 m.val) (dirByte d)) s = .next (answered s 0x10 tag w' r)
    w.mode ≠ .unconfigured → w.stage = .complete → x.present = true →
    (x.learn = none → (m = awn → w.holdsRetract = none) → w.activity m ≠ .idle →
      ∀ c, x.claim = some c → c.kind = .oneTouch →
        (c.dir = d → no w { status := .renewed }) ∧ (c.dir ≠ d → no (w.haltMover m .stopped) { status := .done })) ∧
    (x.learn = none → (m = awn → w.holdsRetract = none) → x.holdOffDir ≠ some d → w.activity m ≠ .idle →
      (∀ c, x.claim = some c → (c.kind = .move ∨ c.kind = .hold) →
        (c.dir = d → c.source = .link → no
          { w with movers := w.movers.set m { x with claim := some { c with lease := some till } },
                   bud := { w.bud with queue := w.bud.queue.map fun (e : Queued) =>
                     if e.target = moverTarget m then { e with lease := some till } else e } } { status := .renewed }) ∧
        (¬(c.dir = d ∧ c.source = .link) → w.activity m = .retryWait → no w { status := .busy, arg := 1 }) ∧
        (w.activity m ≠ .retryWait → c.dir = d → c.source ≠ .link → no w { status := .heldByOther }) ∧
        (w.activity m ≠ .retryWait → c.dir ≠ d → w.stopDwell = false →
          let h := w.haltMover m .reversed
          no (h.setMv m { h.mv m with holdOff := some (d, h.now + h.holdWindow) }) { status := .done }) ∧
        (w.activity m ≠ .retryWait → c.dir ≠ d → w.stopDwell = true → w.isQueued (moverTarget m) = false →
          no (Work.haltMover (w.setMv m { x with
              run := x.run.map fun (r : Run) => { r with dwellAfter := true },
              pendRev := some { source := .link, dir := d, lease := some till } }) m .reversed) { status := .accepted }) ∧
        (w.activity m ≠ .retryWait → c.dir ≠ d → w.stopDwell = true → w.isQueued (moverTarget m) = true →
          let z := ((w.haltMover m .reversed).judgeHead).claimFrom3 m .link d (some till)
          no z.1 z.2)) ∧
      (x.claim = none → x.pendRev = none → no w { status := .busy, arg := 1 }) ∧
      (∀ r, x.claim = none → x.pendRev = some r →
        (r.source = .link → r.dir = d →
          no (w.setMv m { x with pendRev := some { r with lease := some till } }) { status := .renewed }) ∧
        (¬(r.source = .link ∧ r.dir = d) → no w { status := .busy, arg := 1 }))) ∧
    (x.learn = none → (m = awn → w.holdsRetract = none) → x.holdOffDir = some d → x.claim.map (·.kind) ≠ some .oneTouch →
      no (w.setMv m { x with holdOff := some (d, till) }) { status := .busy, arg := 1 }) ∧
    (m = awn →
      (w.holdsRetract = some .wind → no w { status := .busy, arg := 6 }) ∧
      (w.holdsRetract = some .travel →
        (d = .inward → no w { status := .renewed }) ∧
        (d = .outward → x.pendRetract = none → no (w.haltMover awn .stopped) { status := .done }) ∧
        (d = .outward → x.pendRetract.isSome = true →
          no ((w.setMv awn { x with pendRetract := none, dwellEnd := none }).emit
            (.motionEnded awn .stopped (w.leaderPos awn) none)) { status := .done })))

/-- A hand-over gives every channel of the mover one motion in STARTING, at BRAKE with duty 0, its last pulse time that of
the channel's latest accepted hall edge, and asks for its IN_MOTION checkpoint; a homing motion presets an UNKNOWN count to
the top of its range; nothing else moves. -/
def Obligations.HandOverStartsMotion : Prop :=
  ∀ (w : Work) (m : MoverId) (src : Source) (d : Dir) (p : MotionProfile), (w.chansOf m).Nodup →
    let z := w.handOver m src d p
    (∀ c ∈ w.chansOf m, (z.ch c).state = .moving ∧ (z.ch c).duty = 0 ∧ (z.ch c).bridge = .brake ∧ (z.ch c).lastDir = d ∧
      (z.ch c).known = (w.ch c).known ∧ (z.ch c).seat = (w.ch c).seat ∧ (z.ch c).retry = 0 ∧
      (z.ch c).pos = (if p = .homing ∧ (w.ch c).known = false then w.upperLimit c else (w.ch c).pos) ∧
      (∃ mo, (z.ch c).motion = some mo ∧ mo.target = m ∧ mo.source = src ∧ mo.dir = d ∧ mo.profile = p ∧
        mo.phase = .starting ∧ mo.cause = none ∧ mo.correction = none ∧ mo.lastPulse = (w.ch c).lastEdge ∧
        (∀ e ∈ w.chansOf m, e ≠ c → mo.partner = some e) ∧ (w.chansOf m = [c] → mo.partner = none)) ∧
      ∃ n, let j := Job.checkpoint c ((z.ch c).checkpoint true) n
        j ∈ z.store.jobs ∨ ∃ sv, z.store.busy = some sv ∧ sv.job = j) ∧
    (∀ c, c ∉ w.chansOf m → z.ch c = w.ch c) ∧ (∀ n, n ≠ m → z.mv n = w.mv n) ∧
    (z.mv m).claim = (w.mv m).claim ∧ (z.mv m).dwellEnd = none ∧
    z.bud = w.bud ∧ z.hyd = w.hyd ∧ z.jacks = w.jacks ∧ z.events = w.events

/-- STOP ends whatever the named mover holds, a TRAVEL retract too, with cause STOPPED and discards pending reversal,
hold-off and dwell; a WIND retract is not stopped: STOP of the awning is BUSY WIND, and ALL then discards its pending
reversal and hold-off alone (R125); ALL also ends the hydraulic work (R67, R115); a target that names nothing present is
BAD_ARGUMENT, an absent awning too. What a stop does to a learning run is in `LearningRunsEndAborted`. -/
def Obligations.StopEndsWhatAMoverHolds : Prop :=
  ∀ (s : State) (tag : Byte), Takes s →
    let w := s.toActive.work
    let gives (t : Byte) (w' : Work) (r : Reply) : Prop := exec (.stop tag t) s = .next (answered s 0x11 tag w' r)
    (∀ m : MoverId, (w.mv m).present = true → (m = awn → w.holdsRetract = none) →
      gives (BitVec.ofNat 8 m.val) (released w m) { status := .done }) ∧
    ((w.mv awn).present = true → w.holdsRetract = some .wind → gives 4 w { status := .busy, arg := 6 }) ∧
    ((w.mv awn).present = true → w.holdsRetract = some .travel →
      gives 4 (released (withoutTravel w) awn) { status := .done }) ∧
    (let v := released (released (released (released w 0) 1) 2) 3
      let all (z : Work) : Prop := gives 0xFF
        (if z.lvl.phase ≠ .idle then z.endLevel .cancelled false else z.endActivity .cancelled false) { status := .done }
      (v.holdsRetract = none → all (released v awn)) ∧
      (v.holdsRetract = some .travel → all (released (withoutTravel v) awn)) ∧
      (v.holdsRetract = some .wind → all (v.setMv awn { v.mv awn with pendRev := none, holdOff := none }))) ∧
    (∀ m : MoverId, (w.mv m).present = false → gives (BitVec.ofNat 8 m.val) w { status := .badArgument }) ∧
    (∀ t : Byte, 5 ≤ t.toNat → t ≠ 0xFF → gives t w { status := .badArgument })

/-- A stop request at a mover: a queued entry is removed with MOTION_ENDED; channels that drive or wait in RETRY_WAIT enter
STOPPING with duty 0 and BRAKE, the stop time and the cause (R22), and the claim ends; a motion in STARTING ends at once and
releases its draw; a mover with nothing to stop stays. A learning run is in `LearningRunsEndAborted`. -/
def Obligations.StopRequestEndsMotion : Prop :=
  ∀ (w : Work) (m : MoverId) (cause : Cause), (w.mv m).learn = none → cause ≠ .seated → cause ≠ .fault →
    let z := w.haltMover m cause
    (w.isQueued (moverTarget m) = true →
      z.bud.queue = w.bud.queue.filter (fun q => q.target != moverTarget m) ∧ z.bud.admitted = w.bud.admitted ∧
      (z.mv m).claim = none ∧ z.events = w.events ++ [.motionEnded m cause (w.leaderPos m) none]) ∧
    (w.isQueued (moverTarget m) = false → w.chansOf m ≠ [] → (w.chansOf m).Nodup →
      (∀ c ∈ w.chansOf m, (w.ch c).stoppable = true ∧ (w.ch c).starting = false) →
      (∀ c ∈ w.chansOf m, ∃ mo, (w.ch c).motion = some mo ∧ z.ch c = stopping (w.ch c) mo cause .brake w.now) ∧
      (∀ c, c ∉ w.chansOf m → z.ch c = w.ch c) ∧ (z.mv m).claim = none ∧ z.events = w.events ∧ z.bud = w.bud) ∧
    (∀ c r, w.isQueued (moverTarget m) = false → Lone w m c → (w.ch c).starting = true → m ≠ awn →
      (w.mv m).run = some r → r.dwellAfter = false → r.firstCause = none →
      z.ch c = { w.ch c with motion := none, duty := 0, bridge := .brake, retry := 0, state := .idle } ∧
      (z.mv m).claim = none ∧ (z.mv m).run = none ∧ z.headDue = true ∧
      z.bud.admitted = w.bud.admitted.filter (fun a => a.target != moverTarget m) ∧
      z.events = w.events ++ [.motionEnded m cause (w.ch c).pos none]) ∧
    (w.isQueued (moverTarget m) = false → w.anyCh m Channel.stoppable = false → z = w)

/-- The commands of motion, hydraulics, levelling, supply and budget leave mode, wake causes, Wind Watch, coach inputs,
speed gate, LINK members, profile and storage as they are. -/
def Obligations.MotionCommandsKeepSlowState : Prop :=
  ∀ (s t : State) (i : Instr), motionCommand i = true → exec i s = .next t → kept t.work = kept s.work

/-! ## Hydraulics and levelling -/

/-- LEVEL_START by the checks of R104: accepted with the pump started when it is OFF (pending while it is in DWELL), queued,
QUEUE_FULL with nothing kept, or refused by the first check that fails. Check 5 asks for every present room IDLE and an awning
without a motion, a claim or a queued entry; an awning in DWELL passes it, the model's choice (log 48). LEVEL_CANCEL ends the work
CANCELLED. -/
def Obligations.LevelRequests : Prop :=
  ∀ (s : State) (tag : Byte), Takes s →
    let w := s.toActive.work
    let draw := w.profN 0x0274
    let set : JackSet := jacksWhere fun j => w.jackPresent j && !(w.jk j).fenced && (w.jk j).fault.isNone
    let gives (b : Byte) (w' : Work) (r : Reply) : Prop := exec (.levelStart tag b) s = .next (answered s 0x14 tag w' r)
    let stops (w' : Work) (r : Reply) : Prop := exec (.levelCancel tag) s = .next (answered s 0x15 tag w' r)
    (w.roomsIdle = true ↔ (∀ m : MoverId, m ≠ awn → (w.mv m).present = true → w.activity m = .idle) ∧
      (w.mv awn).run = none ∧ (w.mv awn).claim = none ∧ w.isQueued (moverTarget awn) = false) ∧
    (w.mode = .unconfigured → (∀ b, gives b w { status := .badMode }) ∧ stops w { status := .badMode }) ∧
    (w.mode ≠ .unconfigured → w.lvl.phase = .idle → stops (w.endActivity .cancelled false) { status := .done }) ∧
    (w.mode ≠ .unconfigured → w.lvl.phase ≠ .idle → stops (w.endLevel .cancelled false) { status := .done }) ∧
    (w.mode ≠ .unconfigured → w.stage = .settling → ∀ b, gives b w { status := .notReady, arg := 2 }) ∧
    (w.mode ≠ .unconfigured → w.stage = .complete → ∀ b, b ≠ 1 → b ≠ 2 → gives b w { status := .badArgument }) ∧
    (w.mode ≠ .unconfigured → w.stage = .complete → ∀ (k : LevelMode) (b : Byte),
      b = (match k with | .level => 1 | .ground => 2) →
      (w.hyd.activity.isSome = true → gives b w { status := .busy, arg := 2 }) ∧
      (w.hyd.activity = none → w.hyd.pump = .rest → gives b w { status := .busy, arg := 4 }) ∧
      (w.hyd.activity = none → w.hyd.pump ≠ .rest → w.roomsIdle = false → gives b w { status := .busy, arg := 3 }) ∧
      (w.hyd.activity = none → w.hyd.pump ≠ .rest → w.roomsIdle = true →
        (∀ id, LowestBlocking w.inh .je id → gives b w { status := .inhibited, arg := BitVec.ofNat 8 id }) ∧
        (w.inh &&& MoveClass.je.mask = 0 → w.tilt.fault = true → gives b w { status := .notReady, arg := 1 }) ∧
        (w.inh &&& MoveClass.je.mask = 0 → w.tilt.fault = false → w.jacksReady = false →
          gives b w { status := .notReady, arg := 2 }) ∧
        (w.inh &&& MoveClass.je.mask = 0 → w.tilt.fault = false → w.jacksReady = true →
          let a : HydActivity := { kind := .level, dir := .outward, jackSet := set, openSet := noJacks }
          let w1 : Work := { w with
            lvl := { w.lvl with phase := .waiting, mode := some k, pass := 0, pendFlag := none, limitMark := false,
                                settleTest := none, deadline := none, levelHeld := false, drift := 0 },
            events := w.events ++ [.levelPhase .waiting (some k) 0] }
          let w2 := admitted w1 hydTarget draw
          (Fits w draw → w.hyd.pump = .off → gives b
            (Work.enterTouchdown { w2 with
              hyd := { w.hyd with pump := .running, pdir := .outward, runStart := some w.now, runHeld := 0,
                                  pendingStart := false,
                                  activity := some { a with phase := .running, start := some w.now } } })
            { status := .accepted }) ∧
          (Fits w draw → w.hyd.pump = .dwell → gives b
            { w2 with hyd := { w.hyd with pendingStart := true, activity := some { a with phase := .running } } }
            { status := .accepted }) ∧
          (¬Fits w draw → waiting w < w.queueLimit → gives b
            (queued { w1 with hyd := { w.hyd with activity := some a } }
              { target := hydTarget, dir := .outward, source := .link, draw := draw, since := w.now,
                waitEnd := w.now + w.maxWait }) { status := .queued }) ∧
          (¬Fits w draw → w.queueLimit ≤ waiting w → gives b w { status := .queueFull }))))

/-- JACK_MOVE and JACKS_STOW with no activity: refused by the first check that fails, DONE with nothing to do, accepted with
the pump started when it is OFF (pending while it is in DWELL), queued, or QUEUE_FULL with nothing kept; JACK_MOVE again is
refused by its own checks or renews the lease and replaces the jacks, and with none left to move the activity ends COMPLETE. -/
def Obligations.JackRequests : Prop :=
  ∀ (s : State) (tag mask : Byte) (d : Dir), Takes s →
    let w := s.toActive.work
    let draw := w.profN 0x0274
    let gives (w' : Work) (r : Reply) : Prop :=
      exec (.jackMove tag mask (dirByte d)) s = .next (answered s 0x16 tag w' r)
    let stow (w' : Work) (r : Reply) : Prop := exec (.jacksStow tag) s = .next (answered s 0x17 tag w' r)
    let run (a : HydActivity) : Work :=
      let a : HydActivity := { a with phase := .running, start := some w.now }
      let w1 := admitted w hydTarget draw
      Work.atPumpStart { w1 with
        hyd := { w.hyd with pump := .running, pdir := a.dir, runStart := some w.now, runHeld := 0, pendingStart := false,
                            activity := some a } } a
    let begins (answers : Work → Reply → Prop) (a : HydActivity) : Prop :=
      (Fits w draw → w.hyd.pump = .off → answers (run a) { status := .accepted }) ∧
      (Fits w draw → w.hyd.pump = .dwell → answers
        { admitted w hydTarget draw with
          hyd := { w.hyd with pendingStart := true, activity := some { a with phase := .running } } }
        { status := .accepted }) ∧
      (¬Fits w draw → waiting w < w.queueLimit → answers
        (queued { w with hyd := { w.hyd with activity := some a } }
          { target := hydTarget, dir := a.dir, source := .link, draw := draw, lease := a.lease, since := w.now,
            waitEnd := w.now + w.maxWait }) { status := .queued }) ∧
      (¬Fits w draw → w.queueLimit ≤ waiting w → answers w { status := .queueFull })
    (w.mode = .unconfigured → gives w { status := .badMode } ∧ stow w { status := .badMode }) ∧
    (w.mode ≠ .unconfigured → w.stage = .settling →
      gives w { status := .notReady, arg := 2 } ∧ stow w { status := .notReady, arg := 2 }) ∧
    (w.mode ≠ .unconfigured → w.stage = .complete → w.hyd.activity = none →
      (w.maskOk mask = false → gives w { status := .badArgument }) ∧
      (w.maskOk mask = true → (∃ j : JackId, mask.getLsbD j.val = true ∧ (w.jk j).fenced = true) →
        gives w { status := .fenced }) ∧
      (w.maskOk mask = true → (∀ j : JackId, mask.getLsbD j.val = true → (w.jk j).fenced = false) →
        ((∃ j : JackId, mask.getLsbD j.val = true ∧ (w.jk j).fault.isSome = true) → gives w { status := .faulted }) ∧
        ((∀ j : JackId, mask.getLsbD j.val = true → (w.jk j).fault = none) →
          (w.hyd.pump = .rest → gives w { status := .busy, arg := 4 }) ∧
          (w.hyd.pump ≠ .rest →
            (∀ id, LowestBlocking w.inh (jackClass d) id → gives w { status := .inhibited, arg := BitVec.ofNat 8 id }) ∧
            (w.inh &&& (jackClass d).mask = 0 →
              ((w.movable mask d).isEmpty = true → gives w { status := .done }) ∧
              ((w.movable mask d).isEmpty = false →
                begins gives { kind := .manual, dir := d, jackSet := w.movable mask d, openSet := w.movable mask d,
                               lease := some (w.now + w.holdWindow) }))))) ∧
      (w.hyd.pump = .rest → stow w { status := .busy, arg := 4 }) ∧
      (w.hyd.pump ≠ .rest →
        (∀ id, LowestBlocking w.inh .jr id → stow w { status := .inhibited, arg := BitVec.ofNat 8 id }) ∧
        (w.inh &&& MoveClass.jr.mask = 0 →
          (w.allRetracted = true → stow w { status := .done }) ∧
          (w.allRetracted = false → w.stowSet.isEmpty = true → stow w { status := .notReady, arg := 2 }) ∧
          (w.allRetracted = false → w.stowSet.isEmpty = false →
            begins stow { kind := .stow, dir := .inward, jackSet := w.stowSet, openSet := w.stowSet })))) ∧
    (w.mode ≠ .unconfigured → w.stage = .complete → ∀ a, w.hyd.activity = some a →
      stow w { status := .busy, arg := 2 } ∧ (a.kind ≠ .manual → gives w { status := .busy, arg := 2 }) ∧
      (a.kind = .manual → a.dir ≠ d → gives w { status := .conflict }) ∧
      (a.kind = .manual → a.dir = d → w.maskOk mask = false → gives w { status := .badArgument }) ∧
      (a.kind = .manual → a.dir = d → w.maskOk mask = true →
        (∃ j : JackId, mask.getLsbD j.val = true ∧ (w.jk j).fenced = true) → gives w { status := .fenced }) ∧
      (a.kind = .manual → a.dir = d → w.maskOk mask = true →
        (∀ j : JackId, mask.getLsbD j.val = true → (w.jk j).fenced = false) →
        (∃ j : JackId, mask.getLsbD j.val = true ∧ (w.jk j).fault.isSome = true) → gives w { status := .faulted }) ∧
      (a.kind = .manual → a.dir = d → w.maskOk mask = true →
        (∀ j : JackId, mask.getLsbD j.val = true → (w.jk j).fenced = false ∧ (w.jk j).fault = none) →
        (∀ id, LowestBlocking w.inh (jackClass d) id → gives w { status := .inhibited, arg := BitVec.ofNat 8 id }) ∧
        (w.inh &&& (jackClass d).mask = 0 →
          let till := w.now + w.holdWindow
          let u : Work := { w with
            hyd := { w.hyd with activity := some { a with
              lease := some till, jackSet := w.movable mask d, openSet := w.movable mask d } },
            bud := { w.bud with queue := w.bud.queue.map fun (e : Queued) =>
              if e.target = hydTarget then { e with lease := some till } else e } }
          ((w.movable mask d).isEmpty = false → gives u { status := .renewed }) ∧
          ((w.movable mask d).isEmpty = true → gives (u.endActivity .complete false) { status := .renewed }))))

/-- The pump and the activity in time: DWELL and REST end at OFF, a pending start is taken, the overrun rests the pump and
ends the work, and a manual lease ends it. The stow timeout faults every jack of the set that is not retracted, with its JACK
event, in rising index (log 10); each leaves the sets, and the stow, its other jacks retracted and closed, ends by R80; its
moment is given by the field as it then stands (log 37). At the pump start LEVEL passes from WAITING to TOUCHDOWN, or in a
further pass to LEVELLING; MANUAL and STOW end the level watch with LEVEL_LOST (JACK_MOVED) where a level is held, and drop the
jacks already at their stop, MANUAL from both sets, STOW from the open set: with none left the activity ends at once. -/
def Obligations.PumpAndActivityInTime : Prop :=
  (∀ (w : Work) (a : HydActivity), w.hyd.activity = some a →
    let z := w.atPumpStart a
    let moved : Work := if w.lvl.levelHeld = true then
      { w with lvl := { w.lvl with levelHeld := false },
               events := w.events ++ [.levelLost true w.tilt.p w.tilt.q] } else w
    let keeps (js os : JackSet) : Work :=
      { moved with hyd := { w.hyd with activity := some { a with jackSet := js, openSet := os } } }
    (a.kind = .level → z = if w.lvl.pass = 0 then w.enterTouchdown else w.enterLevelling w.lvl.pass) ∧
    (∀ left : JackSet, a.kind = .manual →
      (∀ j, left.has j = true ↔ a.jackSet.has j = true ∧
        ((a.dir = .outward ∧ (w.jk j).atLimit = false) ∨ (a.dir = .inward ∧ (w.jk j).retracted = false))) →
      (left.isEmpty = false → z = keeps left left) ∧
      (left.isEmpty = true → z = (keeps left left).endActivity .complete false)) ∧
    (∀ left : JackSet, a.kind = .stow →
      (∀ j, left.has j = true ↔ a.jackSet.has j = true ∧ (w.jk j).retracted = false) →
      (left.isEmpty = false → z = keeps a.jackSet left) ∧
      (left.isEmpty = true →
        z = (keeps a.jackSet left).endActivity
          (if (keeps a.jackSet left).allRetracted then .stowed else .incomplete) false))) ∧
  ∀ (s : State), s.work.awake = true →
    let w := s.work
    (∀ t, w.hyd.pump = .dwell → w.hyd.dwellEnd = some t →
      let z : Work := { w with now := max w.now t, hyd := { w.hyd with pump := .off, dwellEnd := none } }
      (w.hyd.pendingStart = false → exec .pumpDwellEnd s = .next (finish s z none)) ∧
      (∀ a, w.hyd.pendingStart = true → w.hyd.activity = some a →
        let b : HydActivity := { a with start := some z.now, phase := .running }
        exec .pumpDwellEnd s = .next (finish s (Work.atPumpStart
          { z with hyd := { z.hyd with pump := .running, pdir := a.dir, runStart := some z.now, runHeld := 0,
                                       pendingStart := false, activity := some b } } b) none))) ∧
    (∀ t, w.hyd.pump = .rest → w.hyd.restEnd = some t →
      exec .pumpRestEnd s = .next (finish s
        { w with now := max w.now t, hyd := { w.hyd with pump := .off, restEnd := none } } none)) ∧
    (∀ t, w.hyd.pump = .running → w.hyd.runStart = some t →
      let z := w.notBefore (t + Config.sec (w.profN 0x0400))
      exec .pumpOverrun s = .next (finish s
        (if w.lvl.phase = .idle then z.endActivity .pumpOverrun true else z.endLevel .pumpOverrun true) none)) ∧
    (∀ a t, w.hyd.activity = some a → a.lease = some t →
      exec .manualLeaseExpiry s = .next (finish s ((w.notBefore t).endActivity .leaseExpired false) none)) ∧
    (∀ a t, w.hyd.activity = some a → a.kind = .stow → a.start = some t →
      let z := w.notBefore (t + Config.sec (w.profN 0x0402))
      let hit (j : JackId) : Bool := a.jackSet.has j && !(w.jk j).retracted
      (∃ u, exec .stowTimeout s = .next u ∧ u.work.now = z.now ∧
        (∀ j, hit j = true → (w.jk j).fault = none → u.work.jk j = { w.jk j with fault := some .retractTimeout }) ∧
        (∀ j, hit j = false → u.work.jk j = w.jk j)) ∧
      ((∀ j, a.jackSet.has j = true → (w.jk j).fault = none ∧ ((w.jk j).retracted = true → a.openSet.has j = false)) →
        let y : Work := { z with
          jacks := Vector.ofFn fun j : JackId =>
            if hit j then { w.jk j with fault := some .retractTimeout } else w.jk j,
          hyd := { w.hyd with activity := some { a with
            jackSet := Vector.ofFn fun j : JackId => a.jackSet.has j && !hit j,
            openSet := Vector.ofFn fun j : JackId => a.openSet.has j && !hit j } },
          events := w.events ++ (allJacks.filter hit).map fun j => .jack j .retractTimeout }
        exec .stowTimeout s = .next (finish s (y.endActivity (if y.allRetracted then .stowed else .incomplete) false) none)))

/-- The end of an activity stops the pump into DWELL for 300 ms, or into REST at an overrun, whose end the rest time then in
force fixes (log 37), releases its draw, and records
kind and outcome, with HYDRAULIC_ENDED for MANUAL and STOW; the end of a procedure also leaves LEVEL_ENDED. -/
def Obligations.ActivityEndsStopThePump : Prop :=
  ∀ (w : Work) (o : EndOutcome) (toRest : Bool) (a : HydActivity) (t0 : Time), w.hyd.activity = some a →
    w.hyd.pump = .running → w.hyd.runStart = some t0 → w.isQueued hydTarget = false →
    let z := w.endActivity o toRest
    let y := w.endLevel o toRest
    let ended (z : Work) : Prop :=
      z.hyd.activity = none ∧ z.hyd.lastKind = some a.kind ∧ z.hyd.lastOutcome = o ∧ z.hyd.runStart = none ∧
      z.hyd.runHeld = w.now - t0 ∧ (∀ j, z.valve j = false) ∧ z.headDue = true ∧
      z.bud.admitted = w.bud.admitted.filter (fun e => e.target != hydTarget) ∧
      (toRest = false → z.hyd.pump = .dwell ∧ z.hyd.dwellEnd = some (w.now + 300000)) ∧
      (toRest = true → z.hyd.pump = .rest ∧ z.hyd.restEnd = some (w.now + Config.sec (w.profN 0x0401)))
    ended z ∧ z.lvl = w.lvl ∧
    (a.kind = .level → z.events = w.events) ∧ (a.kind ≠ .level → z.events = w.events ++ [.hydraulicEnded a.kind o]) ∧
    (a.kind = .level → w.lvl.phase ≠ .idle →
      ended y ∧ y.lvl.phase = .idle ∧ y.lvl.lastOutcome = o ∧ y.lvl.levelHeld = (o == .level) ∧
      y.lvl.liftSet = noJacks ∧ y.lvl.pendFlag = none ∧
      y.events = w.events ++ [.levelEnded w.lvl.mode o w.lvl.pass w.tilt.p w.tilt.q])

/-- The sensors of a present jack: a settled change of the grounded flag, which TOUCHDOWN and STABILIZE follow (R106, R110; what
`followGround` does is in LevellingDeadlines), the 500 ms settling (R68), a stroke sample, the third
out-of-range sample and the 500 ms at or below the threshold. With no activity they only read. A jack that reaches its stop
leaves the sets of a MANUAL activity, whose last one ends COMPLETE, or the open set of a STOW, which ends when all have
retracted; a sensor fault takes the jack out of either, which goes on or ends likewise, and ends a procedure JACK_FAULT (R117).
In a procedure a sample that sets AT_LIMIT gives an ungrounded jack of the set NO_GROUND in TOUCHDOWN and STABILIZE, which ends
it, and in LEVELLING takes a jack out of the lift set and sets the limit mark; AT_LIMIT that stands already does nothing more
(log 45). -/
def Obligations.JackSensorsFollowSamples : Prop :=
  ∀ (s : State) (j : JackId), s.work.awake = true → s.work.jackPresent j = true →
    let w := s.work
    let x := w.jk j
    let z (raw : BitVec 12) : Work :=
      (w.notBefore (match x.sampleAt with | some t => t + 10000 | none => 0)).showStroke j raw
    (∀ b, x.groundSettled = true → b ≠ x.grounded →
      exec (.groundedFlagChange j b) s = .next (finish s
        ((w.showGround j b).setJk j { x with grounded := b, groundRun := 0, latestRead := b }).followGround none)) ∧
    (∀ b, x.groundSettled = false →
      exec (.jackScanSettleTimeout j b) s = .next (finish s
        (((w.notBefore (w.loadAt + 500000)).showGround j b).setJk j
          { x with grounded := b, latestRead := b, groundSettled := true, groundRun := 0 }) none)) ∧
    (w.hyd.activity = none → ∀ raw : BitVec 12,
      let v : Nat := (max 0 (min 400 ((((raw.toNat : Int) - w.prof (0x0408 + j.val)) * w.prof (0x0410 + j.val)).tdiv 256))).toNat
      (32 ≤ raw.toNat → raw.toNat ≤ 4063 → x.fault ≠ some .strokeSensor →
        ∃ y : Jack, exec (.strokeSample j raw) s = .next (finish s ((z raw).setJk j y) none) ∧
          y.stroke = v ∧ y.valid = true ∧ y.outOfRange = 0 ∧ y.sampleAt = some (z raw).now ∧
          y.atLimit = decide (w.profN 0x0404 ≤ v + 5) ∧ y.grounded = x.grounded ∧ y.fenced = x.fenced ∧
          y.fault = x.fault ∧ (w.profN 0x0403 < v → y.retracted = false ∧ y.lowRun = 0) ∧
          (v ≤ w.profN 0x0403 → y.lowRun = min 50 (x.lowRun + 1))) ∧
      (32 ≤ raw.toNat → raw.toNat ≤ 4063 → x.fault ≠ some .strokeSensor → v ≤ w.profN 0x0403 → x.retractSettled = true →
        ∃ y : Jack, exec (.retractedIndicatorSet j raw) s = .next (finish s ((z raw).setJk j y) none) ∧
          y.retracted = true ∧ y.stroke = v ∧ y.valid = true) ∧
      ((raw.toNat < 32 ∨ 4063 < raw.toNat) → x.fenced = false → x.fault = none → w.lvl.phase = .idle →
        ∃ (y : Jack), exec (.strokeSensorFault j raw) s = .next (finish s
            (((z raw).setJk j y).emit (.jack j .strokeSensor)) none) ∧
          y.fault = some .strokeSensor ∧ y.valid = false ∧ y.stroke = x.stroke ∧ y.retracted = false ∧
          y.grounded = x.grounded)) ∧
    (∀ (a : HydActivity) (raw : BitVec 12), w.hyd.activity = some a → a.jackSet.has j = true →
      let v : Nat := (max 0 (min 400 ((((raw.toNat : Int) - w.prof (0x0408 + j.val)) * w.prof (0x0410 + j.val)).tdiv 256))).toNat
      let left := a.jackSet.without j
      let sets (y : Jack) (js os : JackSet) : Work :=
        { (z raw).setJk j y with hyd := { w.hyd with activity := some { a with jackSet := js, openSet := os } } }
      let gives (i : Instr) (u : Work) : Prop := exec i s = .next (finish s u none)
      let inRange : Prop := 32 ≤ raw.toNat ∧ raw.toNat ≤ 4063 ∧ x.fault ≠ some .strokeSensor
      let lastOfStow : Prop := ∀ i : JackId, i ≠ j → a.jackSet.has i = true →
        (w.jk i).retracted = true ∧ a.openSet.has i = false
      let oneMoves : Prop := ∃ i : JackId, i ≠ j ∧ a.jackSet.has i = true ∧ (w.jk i).retracted = false
      (w.lvl.phase = .idle → a.kind = .manual → a.phase = .running → a.dir = .outward → inRange → x.atLimit = false →
        w.profN 0x0404 ≤ v + 5 →
        ∃ y : Jack, y.atLimit = true ∧ y.stroke = v ∧ y.valid = true ∧
          (let u := sets y left (a.openSet.without j)
          (left.isEmpty = false → gives (.strokeSample j raw) u) ∧
          (left.isEmpty = true → gives (.strokeSample j raw) (u.endActivity .complete false)))) ∧
      (w.lvl.phase = .idle → a.kind = .manual → a.phase = .running → a.dir = .inward → inRange → x.retracted = false →
        x.retractSettled = true → v ≤ w.profN 0x0403 →
        ∃ y : Jack, y.retracted = true ∧ y.stroke = v ∧ y.valid = true ∧
          (let u := sets y left (a.openSet.without j)
          (left.isEmpty = false → gives (.retractedIndicatorSet j raw) u) ∧
          (left.isEmpty = true → gives (.retractedIndicatorSet j raw) (u.endActivity .complete false)))) ∧
      (w.lvl.phase = .idle → a.kind = .stow → a.start.isSome = true → inRange → x.retracted = false →
        x.retractSettled = true → v ≤ w.profN 0x0403 →
        ∃ y : Jack, y.retracted = true ∧ y.stroke = v ∧ y.valid = true ∧
          (let u := sets y a.jackSet ((a.openSet.without j).inter a.jackSet)
          (oneMoves → gives (.retractedIndicatorSet j raw) u) ∧
          (lastOfStow → gives (.retractedIndicatorSet j raw)
            (u.endActivity (if u.allRetracted then .stowed else .incomplete) false)))) ∧
      ((raw.toNat < 32 ∨ 4063 < raw.toNat) → x.fenced = false → x.fault = none →
        ∃ y : Jack, y.fault = some .strokeSensor ∧ y.valid = false ∧ y.stroke = x.stroke ∧ y.grounded = x.grounded ∧
          (let u := (sets y left (a.openSet.without j)).emit (.jack j .strokeSensor)
          (w.lvl.phase = .idle → a.kind = .manual →
            (left.isEmpty = false → gives (.strokeSensorFault j raw) u) ∧
            (left.isEmpty = true → gives (.strokeSensorFault j raw) (u.endActivity .complete false))) ∧
          (w.lvl.phase = .idle → a.kind = .stow →
            (oneMoves → gives (.strokeSensorFault j raw) u) ∧
            (lastOfStow → gives (.strokeSensorFault j raw) (u.endActivity .incomplete false))) ∧
          (w.lvl.phase ≠ .idle → gives (.strokeSensorFault j raw) (u.endLevel .jackFault false))))) ∧
    (∀ (a : HydActivity) (raw : BitVec 12), w.hyd.activity = some a → a.kind = .level →
      32 ≤ raw.toNat → raw.toNat ≤ 4063 → x.fault ≠ some .strokeSensor →
      let v : Nat := (max 0 (min 400 ((((raw.toNat : Int) - w.prof (0x0408 + j.val)) * w.prof (0x0410 + j.val)).tdiv 256))).toNat
      let gives (u : Work) : Prop := exec (.strokeSample j raw) s = .next (finish s u none)
      let ground : Prop := w.lvl.phase = .touchdown ∨ w.lvl.phase = .stabilize
      ∃ y : Jack, y.stroke = v ∧ y.valid = true ∧ y.atLimit = decide (w.profN 0x0404 ≤ v + 5) ∧ y.grounded = x.grounded ∧
        y.fault = x.fault ∧
        (let u := (z raw).setJk j y
        ((x.atLimit = true ∨ y.atLimit = false) → gives u) ∧
        (x.atLimit = false → y.atLimit = true →
          (ground → a.jackSet.has j = true → x.grounded = false → x.fault = none →
            gives ((({ u.setJk j { y with fault := some .noGround } with hyd := { w.hyd with activity := some { a with
              jackSet := a.jackSet.without j, openSet := a.openSet.without j } } } : Work).emit
                (.jack j .noGround)).endLevel .jackFault false)) ∧
          (ground → (a.jackSet.has j = false ∨ x.grounded = true) → gives u) ∧
          (w.lvl.phase = .levelling → w.lvl.liftSet.has j = true →
            gives (({ u with lvl := { w.lvl with limitMark := true } } : Work).leaveLift j)) ∧
          (w.lvl.phase = .levelling → w.lvl.liftSet.has j = false → gives u) ∧
          ((w.lvl.phase = .waiting ∨ w.lvl.phase = .settling) → gives u))))

/-- A filtered sample of a part that is ACTIVE. With no rail P, Q and the figures of the Levelling Engine are computed anew;
the 25th good one clears TILT_FAULT, the 50th of a drift loses the level; in LEVELLING a sample sets the lift set, which is the
open set, and the first of twist, level run and empty lift set passes to STABILIZE with its flag; in the level test of SETTLING
it ends the procedure LEVEL or NOT_LEVEL, or begins a further pass (which a full admission queue leaves in WAITING: log 26). A
rail on either axis holds the readings; the third in a row on an axis sets TILT_FAULT, which ends a procedure and a zero run. A
zero run takes each good sample beside whatever else the sample does, a procedure too, and its 25th ends it. While a level is
held a sample beyond three times the tolerance raises the drift run and one within it sets the run to 0; a sample that finds the
run at 49 is the 50th. The level run follows each sample (R98), also the one that a LEVELLING
deadline taken first leaves behind, against R109: the model's choice (log 51). -/
def Obligations.TiltSamplesAreFiltered : Prop :=
  ∀ (s : State) (sx sy : BitVec 15), s.work.awake = true → s.work.power = .active →
    let w := s.work
    let now' := max w.now (match w.tilt.blockAt with | some t => t + 40000 | none => 0)
    let o := w.store.learned.zero.getD (0, 0)
    let tx := (((sx.toNat : Int) - 16384) * w.prof 0x0428).tdiv 256
    let ty := (((sy.toNat : Int) - 16384) * w.prof 0x0429).tdiv 256
    let p := max (-2600) (min 2600 (tx - o.1))
    let q := max (-2600) (min 2600 (ty - o.2))
    let good (v : BitVec 15) : Prop := 128 ≤ v.toNat ∧ v.toNat ≤ 32632
    let level : Prop := p.natAbs ≤ w.profN 0x0421 ∧ q.natAbs ≤ w.profN 0x0421
    let near : Prop := p.natAbs ≤ 3 * w.profN 0x0421 ∧ q.natAbs ≤ 3 * w.profN 0x0421
    (good sx → good sy → w.tilt.fault = false → w.lvl.phase ≠ .levelling → w.lvl.settleTest ≠ some .judging →
      (w.lvl.levelHeld = true → near ∨ w.lvl.drift < 49) → w.tilt.zeroRun = none →
      ∃ z, exec (.filteredSample sx sy) s = .next (finish s z none) ∧ z.now = now' ∧ z.tilt.p = p ∧ z.tilt.q = q ∧
        z.tilt.tx = tx ∧ z.tilt.ty = ty ∧ z.tilt.fault = false ∧ z.tilt.railX = 0 ∧ z.tilt.railY = 0 ∧
        z.tilt.good = min 25 (w.tilt.good + 1) ∧ z.tilt.lastSample = some now' ∧ z.events = w.events ∧
        z.chans = w.chans ∧ z.hyd = w.hyd ∧ z.store = w.store ∧
        (level → z.lvl.levelRun = min 255 (w.lvl.levelRun + 1)) ∧ (¬level → z.lvl.levelRun = 0) ∧
        z.lvl.levelHeld = w.lvl.levelHeld ∧ (w.lvl.levelHeld = false → z.lvl.drift = w.lvl.drift) ∧
        (w.lvl.levelHeld = true → near → z.lvl.drift = 0) ∧
        (w.lvl.levelHeld = true → ¬near → z.lvl.drift = w.lvl.drift + 1) ∧
        (∀ j, w.jackPresent j = true → (w.jk j).fenced = false →
          z.lvl.heights[j] = some (cornerHeight (w.coach (0x0130 + j.val)) (w.coach (0x0138 + j.val)) p q)) ∧
        z.lvl.demands = demandsOf z.lvl.heights) ∧
    (good sx → good sy → w.tilt.fault = true → w.lvl.phase = .idle → w.tilt.zeroRun = none →
      ∃ z, exec (.tiltFaultClear sx sy) s = .next (finish s z none) ∧ z.tilt.fault = false ∧ z.tilt.good = 25 ∧
        z.tilt.p = p ∧ z.tilt.q = q) ∧
    ((¬good sx ∨ ¬good sy) →
      let holds (z : Work) : Prop := z.now = now' ∧ z.tilt.good = 0 ∧ z.tilt.p = w.tilt.p ∧ z.tilt.q = w.tilt.q ∧
        z.tilt.tx = w.tilt.tx ∧ z.tilt.ty = w.tilt.ty ∧ z.tilt.lastSample = w.tilt.lastSample
      let axis (g : Prop) (run old : Nat) : Prop := (g → run = 0) ∧ (¬g → run = min 3 (old + 1))
      (w.tilt.fault = false → (¬good sx → w.tilt.railX < 2) → (¬good sy → w.tilt.railY < 2) →
        ∃ z, exec (.filteredSample sx sy) s = .next (finish s z none) ∧ holds z ∧ z.tilt.fault = false ∧
          axis (good sx) z.tilt.railX w.tilt.railX ∧ axis (good sy) z.tilt.railY w.tilt.railY ∧
          z.tilt.zeroRun = w.tilt.zeroRun ∧ z.lvl = w.lvl ∧ z.hyd = w.hyd ∧ z.events = w.events) ∧
      (w.tilt.fault = true →
        ∃ z, exec (.filteredSample sx sy) s = .next (finish s z none) ∧ holds z ∧ z.tilt.fault = true ∧
          z.tilt.zeroRun = w.tilt.zeroRun ∧ z.lvl = w.lvl ∧ z.hyd = w.hyd ∧ z.events = w.events) ∧
      ((¬good sx → 2 ≤ w.tilt.railX) → (¬good sy → 2 ≤ w.tilt.railY) →
        exec (.filteredSample sx sy) s = exec (.tiltFaultSet sx sy) s) ∧
      (w.tilt.fault = false →
        ∃ z, exec (.tiltFaultSet sx sy) s = .next (finish s z none) ∧ holds z ∧ z.tilt.fault = true ∧
          z.tilt.zeroRun = none ∧ (good sx → z.tilt.railX = 0) ∧ (¬good sx → z.tilt.railX = 3) ∧
          (good sy → z.tilt.railY = 0) ∧ (¬good sy → z.tilt.railY = 3) ∧ z.lvl.levelRun = 0 ∧
          (w.lvl.phase = .idle → z.lvl = { w.lvl with levelRun := 0 } ∧ z.hyd = w.hyd ∧
            z.events = w.events ++ (if w.tilt.zeroRun = none then [] else [.learnTilt .aborted none none])) ∧
          (∀ a, w.hyd.activity = some a → w.lvl.phase ≠ .idle → z.lvl.phase = .idle ∧ z.lvl.lastOutcome = .tiltFault ∧
            z.hyd.activity = none ∧ z.hyd.lastOutcome = .tiltFault ∧
            (a.kind = .level → z.events = w.events ++
              [.levelEnded w.lvl.mode .tiltFault w.lvl.pass w.tilt.p w.tilt.q] ++
              (if w.tilt.zeroRun = none then [] else [.learnTilt .aborted none none]))))) ∧
    (∀ r, good sx → good sy → w.tilt.fault = false → w.tilt.zeroRun = some r →
      let a := (r.sumX + tx).tdiv 25
      let b := (r.sumY + ty).tdiv 25
      let plain : State := { s with work := { w with tilt := { w.tilt with zeroRun := none } } }
      ∀ i : Instr, i = .filteredSample sx sy ∨ i = .zeroLearnComplete sx sy →
      ∃ z, exec (.filteredSample sx sy) plain = .next (finish plain z none) ∧ z.tilt.zeroRun = none ∧
        (r.count + 1 < 25 → exec i s = .next (finish s { z with tilt := { z.tilt with
          zeroRun := some { count := r.count + 1, sumX := r.sumX + tx, sumY := r.sumY + ty } } } none)) ∧
        (r.count = 24 → a.natAbs ≤ 600 ∧ b.natAbs ≤ 600 → exec i s = .next (finish s
          ((Work.askLearned { z with store := { z.store with learned := { z.store.learned with zero := some (a, b) } } }).emit
            (.learnTilt .learned (some a) (some b))) none)) ∧
        (r.count = 24 → ¬(a.natAbs ≤ 600 ∧ b.natAbs ≤ 600) → exec i s = .next (finish s
          (z.emit (.learnTilt .outOfTolerance (some a) (some b))) none))) ∧
    (good sx → good sy → w.tilt.fault = false → w.lvl.phase = .idle → w.lvl.levelHeld = true → w.tilt.zeroRun = none →
      (3 * w.profN 0x0421 < p.natAbs ∨ 3 * w.profN 0x0421 < q.natAbs) →
      ∃ z, exec (.levelLost sx sy) s = .next (finish s z none) ∧ z.lvl.levelHeld = false ∧ z.lvl.drift = 0 ∧
        z.events = w.events ++ [.levelLost false p q]) ∧
    (w.lvl.levelHeld = true → 49 ≤ w.lvl.drift → exec (.filteredSample sx sy) s = exec (.levelLost sx sy) s) ∧
    (∀ (a : HydActivity) (run : Nat), w.hyd.activity = some a → good sx → good sy → w.tilt.fault = false →
      w.lvl.levelHeld = false → w.tilt.zeroRun = none →
      (level → run = min 255 (w.lvl.levelRun + 1)) → (¬level → run = 0) →
      let heights : Vector (Option Int) 6 := Vector.ofFn fun j : JackId =>
        if w.jackPresent j && !(w.jk j).fenced then
          some (cornerHeight (w.coach (0x0130 + j.val)) (w.coach (0x0138 + j.val)) p q) else none
      let demands := demandsOf heights
      let twist : Option Int :=
        if (w.jk 0).valid && (w.jk 1).valid && (w.jk 2).valid && (w.jk 3).valid then
          some (((w.jk 0).stroke + (w.jk 3).stroke : Int) - ((w.jk 1).stroke + (w.jk 2).stroke)) else none
      let twisted : Bool := match twist with | some v => decide (w.profN 0x0422 < v.natAbs) | none => false
      let sampled (z : Work) (lift : JackSet) (hyd : Hyd) : Prop :=
        z.now = now' ∧ z.tilt.p = p ∧ z.tilt.q = q ∧ z.hyd = hyd ∧ z.jacks = w.jacks ∧ z.bud = w.bud ∧
        z.chans = w.chans ∧ z.movers = w.movers ∧ z.store = w.store ∧ z.events = w.events ∧
        z.lvl = { w.lvl with heights := heights, demands := demands, liftSet := lift, twist := twist, twistOver := twisted,
                             levelRun := run }
      let gives (u : Work) : Prop := exec (.filteredSample sx sy) s = .next (finish s u none)
      (w.lvl.phase = .levelling → ∀ lift : JackSet,
        (∀ j : JackId, lift.has j = true ↔ ∃ d, demands[j] = some d ∧
          if w.lvl.liftSet.has j then w.profN 0x0420 / 2 < d
          else w.profN 0x0420 < d ∧ (w.jk j).atLimit = false ∧ (w.jk j).fault = none) →
        ∃ z, sampled z lift { w.hyd with activity := some { a with openSet := lift.inter a.jackSet } } ∧
          (twisted = true → gives (z.enterStabilize (some .twist))) ∧
          (twisted = false → 5 ≤ run → gives (z.enterStabilize none)) ∧
          (twisted = false → run < 5 → lift.isEmpty = true →
            gives (z.enterStabilize (if w.lvl.limitMark then some .range else none))) ∧
          (twisted = false → run < 5 → lift.isEmpty = false → gives z)) ∧
      (w.lvl.phase = .settling → w.lvl.settleTest = some .judging → a.kind = .level →
        ∃ z, sampled z w.lvl.liftSet w.hyd ∧
          (level → 5 ≤ run → gives (z.endLevel .level false)) ∧ (level → run < 5 → gives z) ∧
          (¬level → w.profN 0x0427 ≤ w.lvl.pass → gives (z.endLevel .notLevel false)) ∧
          (¬level → w.lvl.pass < w.profN 0x0427 →
            let draw := w.profN 0x0274
            let pass := w.lvl.pass + 1
            let a : HydActivity := { a with phase := .waiting }
            let y : Work := { z with
              lvl := { z.lvl with phase := .waiting, pass := pass, settleTest := none, pendFlag := none, deadline := none },
              hyd := { w.hyd with activity := some a }, events := w.events ++ [.levelPhase .waiting w.lvl.mode pass] }
            (Fits w draw → w.hyd.pump = .off → gives (Work.enterLevelling { admitted y hydTarget draw with
              hyd := { w.hyd with pump := .running, pdir := a.dir, runStart := some now', runHeld := 0,
                                  pendingStart := false,
                                  activity := some { a with phase := .running, start := some now' } } } pass)) ∧
            (Fits w draw → w.hyd.pump = .dwell → gives { admitted y hydTarget draw with
              hyd := { w.hyd with pendingStart := true, activity := some { a with phase := .running } } }) ∧
            (¬Fits w draw → waiting w < w.queueLimit → gives (queued y
              { target := hydTarget, dir := a.dir, source := .link, draw := draw, lease := a.lease, since := now',
                waitEnd := now' + w.maxWait })) ∧
            (¬Fits w draw → w.queueLimit ≤ waiting w → gives y))))

/-- The deadlines of a procedure: NO_GROUND for every jack of the set that is not grounded ends it JACK_FAULT; LEVELLING
passes to STABILIZE with flag TIMEOUT; the settle time ends GROUND, ends by a pending flag, or begins the level test. The
entry to STABILIZE empties the lift set and opens the jacks of the set that are not grounded; with none it passes at once to
SETTLING, the pump stopped and its draw released. TOUCHDOWN is entered with its deadline and opens the jacks of the set that
are not grounded, also those at AT_LIMIT already (log 45); there and in STABILIZE the open set follows the grounded flags, and
in every other phase a flag changes nothing: with no jack left TOUCHDOWN passes to LEVELLING pass 1 in mode LEVEL and to SETTLING in mode GROUND, at its entry too,
STABILIZE to SETTLING. LEVELLING is entered with its pass number and deadline, nothing open, its level run and limit mark
cleared; a jack that leaves the lift set between samples leaves the open set, and the last one passes to STABILIZE. -/
def Obligations.LevellingDeadlines : Prop :=
  (∀ (w : Work) (a : HydActivity), w.hyd.activity = some a →
    (∀ pass, w.enterLevelling pass = enteredLevelling w a pass) ∧
    (w.lvl.phase ≠ .touchdown → w.lvl.phase ≠ .stabilize → w.followGround = w) ∧
    (∀ openSet : JackSet, (∀ j, openSet.has j = true ↔ a.jackSet.has j = true ∧ (w.jk j).grounded = false) →
      (openSet.isEmpty = false →
        ((w.lvl.phase = .touchdown ∨ w.lvl.phase = .stabilize) → w.followGround = withOpen w a openSet) ∧
        w.enterTouchdown = withOpen (enteredTouchdown w) a openSet) ∧
      (openSet.isEmpty = true → w.lvl.mode = some .level →
        (w.lvl.phase = .touchdown → w.followGround = enteredLevelling w a 1) ∧
        w.enterTouchdown = enteredLevelling (enteredTouchdown w) a 1) ∧
      (∀ t, openSet.isEmpty = true → w.hyd.pump = .running → w.hyd.runStart = some t →
        (w.lvl.phase = .stabilize → w.followGround = enteredSettling w a t) ∧
        (w.lvl.mode = some .ground →
          (w.lvl.phase = .touchdown → w.followGround = enteredSettling w a t) ∧
          w.enterTouchdown = enteredSettling (enteredTouchdown w) a t))) ∧
    (∀ j : JackId,
      (w.lvl.phase ≠ .levelling ∨ w.lvl.liftSet.has j = false → w.leaveLift j = w) ∧
      (w.lvl.phase = .levelling → w.lvl.liftSet.has j = true →
        let lift := w.lvl.liftSet.without j
        let v : Work := { withOpen w a (lift.inter a.jackSet) with lvl := { w.lvl with liftSet := lift } }
        (lift.isEmpty = false → w.leaveLift j = v) ∧
        (lift.isEmpty = true → w.leaveLift j = v.enterStabilize (if w.lvl.limitMark then some .range else none))))) ∧
  (∀ (w : Work) (flag : Option PendFlag) (a : HydActivity), w.hyd.activity = some a →
    let z := w.enterStabilize flag
    z.lvl.pendFlag = flag ∧ z.lvl.liftSet = noJacks ∧ z.lvl.pass = w.lvl.pass ∧ z.lvl.mode = w.lvl.mode ∧
      z.jacks = w.jacks ∧ z.chans = w.chans ∧ z.movers = w.movers ∧
    (∀ openSet : JackSet, (∀ j, openSet.has j = true ↔ a.jackSet.has j = true ∧ (w.jk j).grounded = false) →
      (openSet.isEmpty = false → z.lvl.phase = .stabilize ∧
        z.lvl.deadline = some (w.now + Config.sec (w.profN 0x0425)) ∧
        z.hyd = { w.hyd with activity := some { a with openSet := openSet } } ∧ z.bud = w.bud ∧
        z.events = w.events ++ [.levelPhase .stabilize w.lvl.mode w.lvl.pass]) ∧
      (∀ t, openSet.isEmpty = true → w.hyd.pump = .running → w.hyd.runStart = some t →
        z.lvl.phase = .settling ∧ z.lvl.settleTest = some .waiting ∧
        z.lvl.deadline = some (w.now + Config.sec (w.profN 0x0426)) ∧
        z.hyd = { w.hyd with
          pump := .dwell, dwellEnd := some (w.now + 300000), runStart := none, runHeld := w.now - t,
          activity := some { a with openSet := noJacks, phase := .idlePump } } ∧
        z.bud.admitted = w.bud.admitted.filter (fun e => e.target != hydTarget) ∧ z.headDue = true ∧
        z.events = w.events ++ [.levelPhase .stabilize w.lvl.mode w.lvl.pass,
                                .levelPhase .settling w.lvl.mode w.lvl.pass]))) ∧
  ∀ (s : State) (t : Time), s.work.awake = true → s.work.lvl.deadline = some t →
    let w := s.work
    let z := w.notBefore t
    (∀ a, (w.lvl.phase = .touchdown ∨ w.lvl.phase = .stabilize) → w.hyd.activity = some a →
      ∃ u, exec (if w.lvl.phase = .touchdown then .touchdownDeadline else .stabilizeDeadline) s =
          .next (finish s u none) ∧ u.now = z.now ∧ u.lvl.phase = .idle ∧ u.lvl.lastOutcome = .jackFault ∧
        u.hyd.activity = none ∧ u.hyd.lastOutcome = .jackFault ∧
        (∀ j, a.jackSet.has j = true → (w.jk j).grounded = false → (w.jk j).fault = none →
          u.jk j = { w.jk j with fault := some .noGround }) ∧
        (∀ j, (a.jackSet.has j = false ∨ (w.jk j).grounded = true) → u.jk j = w.jk j)) ∧
    (w.lvl.phase = .levelling →
      exec .levellingDeadline s = .next (finish s (z.enterStabilize (some .timeout)) none)) ∧
    (w.lvl.phase = .settling →
      (w.lvl.mode = some .ground → exec .settleTimeEnd s = .next (finish s (z.endLevel .grounded false) none)) ∧
      (w.lvl.mode = some .level → w.lvl.pendFlag = some .twist →
        exec .settleTimeEnd s = .next (finish s (z.endLevel .twistLimit false) none)) ∧
      (w.lvl.mode = some .level → w.lvl.pendFlag = some .range →
        exec .settleTimeEnd s = .next (finish s (z.endLevel .outOfRange false) none)) ∧
      (w.lvl.mode = some .level → w.lvl.pendFlag = some .timeout →
        exec .settleTimeEnd s = .next (finish s (z.endLevel .timeout false) none)) ∧
      (w.lvl.mode = some .level → w.lvl.pendFlag = none →
        exec .settleTimeEnd s = .next (finish s { z with lvl :=
          { w.lvl with settleTest := some .judging, levelRun := 0, deadline := none } } none)))

/-! ## Faults, fences and learning -/

/-- FAULT_CLEAR removes the fault of a channel, a jack or the supply, and leaves the rest; FENCE_SET fences exactly the
channels in use and the jacks present that its masks name, FENCE_CLEAR lifts them; CLAMPED tells of a disregarded bit. A
fence on one channel clears its runs and stops its mover, moving or queued, with cause FENCED, after a pending retract of
the awning has been discarded (R130); a fence on one jack takes it out of the hydraulic work: a MANUAL one ends with its last
jack, a STOW when its other jacks are retracted and closed, a procedure with fewer than three, and else goes on. Both supply
flags cleared by one request raise two SUPPLY events (log 39). -/
def Obligations.FaultsAndFences : Prop :=
  ∀ (s : State) (tag : Byte), Takes s →
    let w := s.toActive.work
    let clears (t : Byte) (w' : Work) (r : Reply) : Prop := exec (.faultClear tag t) s = .next (answered s 0x18 tag w' r)
    (w.mode = .unconfigured → (∀ t, clears t w { status := .badMode }) ∧
      ∀ cm jm, exec (.fenceSet tag cm jm) s = .next (answered s 0x19 tag w { status := .badMode }) ∧
        exec (.fenceClear tag cm jm) s = .next (answered s 0x1A tag w { status := .badMode })) ∧
    (w.mode ≠ .unconfigured →
      (∀ c : ChanId,
        ((w.ch c).used = false → clears (BitVec.ofNat 8 c.val) w { status := .badArgument }) ∧
        ((w.ch c).used = true → (w.ch c).state ≠ .faulted → clears (BitVec.ofNat 8 c.val) w { status := .done }) ∧
        (∀ m, (w.ch c).used = true → (w.ch c).state = .faulted → w.moverOf c = some m → (w.mv m).sync ≠ .racked →
          clears (BitVec.ofNat 8 c.val) (w.setCh c { w.ch c with state := .idle, fault := none, lastLock := none,
                                                                 bridge := .brake }) { status := .done })) ∧
      (∀ j : JackId,
        (w.jackPresent j = false → clears (BitVec.ofNat 8 (16 + j.val)) w { status := .badArgument }) ∧
        (w.jackPresent j = true → (w.jk j).fault = none → clears (BitVec.ofNat 8 (16 + j.val)) w { status := .done }) ∧
        (w.jackPresent j = true → (w.jk j).fault.isSome = true → clears (BitVec.ofNat 8 (16 + j.val))
          (w.setJk j { w.jk j with fault := none, outOfRange := 0 }) { status := .done })) ∧
      ((w.sup.low = true ∧ w.sup.voltage < w.lowRestart ∨ w.sup.high = true ∧ w.highRestart < w.sup.voltage) →
        clears 0x20 w { status := .notReady, arg := 4 }) ∧
      (w.sup.low = true → w.sup.high = false → w.lowRestart ≤ w.sup.voltage → clears 0x20
        (({ w with sup := { w.sup with low := false } } : Work).emit (.supply false false w.sup.voltage w.latchPolicy))
        { status := .done }) ∧
      (w.sup.low = false → w.sup.high = true → w.sup.voltage ≤ w.highRestart → clears 0x20
        (({ w with sup := { w.sup with high := false } } : Work).emit (.supply false false w.sup.voltage w.latchPolicy))
        { status := .done }) ∧
      (w.sup.low = true → w.sup.high = true → w.lowRestart ≤ w.sup.voltage → w.sup.voltage ≤ w.highRestart → clears 0x20
        ((({ w with sup := { w.sup with low := false, high := false } } : Work).emit
          (.supply false true w.sup.voltage w.latchPolicy)).emit (.supply false false w.sup.voltage w.latchPolicy))
        { status := .done }) ∧
      (w.sup.low = false → w.sup.high = false → clears 0x20 w { status := .done }) ∧
      ∀ cm jm : Byte,
        let odd : Bool := (allChans.any fun c => cm.getLsbD c.val && !(w.ch c).used) ||
          (allJacks.any fun j => jm.getLsbD j.val && !w.jackPresent j) || jm.getLsbD 6 || jm.getLsbD 7
        let onC (c : ChanId) : Bool := cm.getLsbD c.val && (w.ch c).used
        let onJ (j : JackId) : Bool := jm.getLsbD j.val && w.jackPresent j
        (∃ z, exec (.fenceSet tag cm jm) s = .next (answered s 0x19 tag z { status := if odd then .clamped else .done }) ∧
          (∀ c, (z.ch c).fenced = (onC c || (w.ch c).fenced)) ∧ (∀ j, (z.jk j).fenced = (onJ j || (w.jk j).fenced)) ∧
          z.tilt = w.tilt ∧ z.sup = w.sup) ∧
        (∃ z, exec (.fenceClear tag cm jm) s = .next (answered s 0x1A tag z { status := if odd then .clamped else .done }) ∧
          (∀ c, z.ch c = if onC c = true then { w.ch c with fenced := false } else w.ch c) ∧
          (∀ j, z.jk j = if onJ j = true then { w.jk j with fenced := false } else w.jk j) ∧
          z = { w with chans := z.chans, jacks := z.jacks })) ∧
    (w.mode ≠ .unconfigured →
      (∀ (c : ChanId) (m : MoverId), (w.ch c).used = true → w.moverOf c = some m →
        let y := w.setCh c { w.ch c with fenced := true, ocRun := 0, osRun := 0, prevCount := none, lastJudge := none }
        let gives (z : Work) : Prop :=
          exec (.fenceSet tag (1 <<< c.val) 0) s = .next (answered s 0x19 tag z { status := .done })
        ((m ≠ awn ∨ (w.mv awn).pendRetract = none) → gives (y.haltMover m .fenced)) ∧
        (m = awn → (w.mv awn).pendRetract.isSome = true →
          gives (Work.haltMover ((y.setMv awn { w.mv awn with pendRetract := none, dwellEnd := none }).emit
            (.motionEnded awn .fenced (w.leaderPos awn) none)) awn .fenced))) ∧
      (∀ j : JackId, w.jackPresent j = true →
        let y := w.setJk j { w.jk j with fenced := true, outOfRange := 0 }
        let gives (z : Work) : Prop :=
          exec (.fenceSet tag 0 (1 <<< j.val)) s = .next (answered s 0x19 tag z { status := .done })
        (w.hyd.activity = none → w.lvl.phase = .idle → gives y) ∧
        (∀ a, w.hyd.activity = some a →
          let b : HydActivity := { a with jackSet := a.jackSet.without j, openSet := a.openSet.without j }
          let v : Work := { y with hyd := { w.hyd with activity := some b } }
          (a.kind = .manual → a.jackSet.has j = true → w.lvl.phase = .idle →
            gives (if b.jackSet.isEmpty then v.endActivity .complete false else v)) ∧
          (a.kind = .stow → a.jackSet.has j = true → w.lvl.phase = .idle →
            ((∃ i : JackId, i ≠ j ∧ a.jackSet.has i = true ∧ (w.jk i).retracted = false) → gives v) ∧
            ((∀ i : JackId, i ≠ j → a.jackSet.has i = true → (w.jk i).retracted = true ∧ a.openSet.has i = false) →
              gives (v.endActivity (if v.allRetracted then .stowed else .incomplete) false))) ∧
          (a.jackSet.has j = true → w.lvl.phase ≠ .idle →
            (b.jackSet.size < 3 → gives (v.endLevel .cancelled false)) ∧
            (3 ≤ b.jackSet.size → gives ((v.leaveLift j).followGround)) ∧
            (3 ≤ b.jackSet.size → (w.lvl.phase = .waiting ∨ w.lvl.phase = .settling) → gives v)) ∧
          (a.jackSet.has j = false → w.lvl.phase ≠ .idle → gives (v.leaveLift j)) ∧
          (a.jackSet.has j = false → w.lvl.phase = .idle → gives v))))

/-- The learning requests in SERVICE: LEARN_STROKE on a free room that passes the checks of R52 begins the run, its counts brought
under the limit of the held stroke, and hands its first leg over, or is QUEUED, or QUEUE_FULL with nothing kept; its claim carries the direction of the leg (log 36). The first check that
fails refuses it and changes nothing: NOT_READY during the start-up, before every check but the mode (log 12), a bad operand or
an absent room, a REFINE run of a room that is not seated in, then fence, fault, hydraulic work, the lowest member that blocks a
class of its method, and the neighbour rule; the position is not asked for. What reaches a room that is not free is in
`LearningRunsSettleArrivals`. STROKE_SET writes one stroke, clamped, and is BAD_ARGUMENT at a channel that is no channel or
UNUSED; TILT_ZERO_LEARN begins a zero run; outside SERVICE all answer BAD_MODE. -/
def Obligations.LearningRequests : Prop :=
  ∀ (s : State) (tag : Byte), Takes s →
    let w := s.toActive.work
    (w.mode ≠ .service → ∀ (a b : Byte) (n : Half),
      exec (.learnStroke tag a b) s = .next (answered s 0x2A tag w { status := .badMode }) ∧
      exec (.strokeSet tag a n) s = .next (answered s 0x2B tag w { status := .badMode }) ∧
      exec (.tiltZeroLearn tag) s = .next (answered s 0x2C tag w { status := .badMode })) ∧
    (w.mode = .service →
      let method (k : LearnMethod) : Byte := match k with | .endToEnd => 0 | .refine => 1
      let no (a b : Byte) (r : Reply) : Prop := exec (.learnStroke tag a b) s = .next (answered s 0x2A tag w r)
      (∀ a b : Byte, (w.stage = .settling → no a b { status := .notReady, arg := 2 }) ∧
        (w.stage = .complete → 4 ≤ a.toNat ∨ 2 ≤ b.toNat → no a b { status := .badArgument })) ∧
      (∀ (m : MoverId) (k : LearnMethod), m ≠ awn → w.stage = .complete →
        let no (r : Reply) : Prop := no (BitVec.ofNat 8 m.val) (method k) r
        ((w.mv m).present = false → no { status := .badArgument }) ∧
        (Free w m → (w.mv m).holdOff = none →
          (k = .refine → w.isIn m = false → no { status := .notReady, arg := 3 }) ∧
          ((k = .refine → w.isIn m = true) →
            (w.fenced m = true → no { status := .fenced }) ∧
            (w.fenced m = false → w.faulted m = true → no { status := .faulted }) ∧
            (w.fenced m = false → w.faulted m = false →
              ((w.lvl.phase ≠ .idle ∨ ∃ a, w.hyd.activity = some a ∧ a.kind = .stow) → no { status := .busy, arg := 2 }) ∧
              (w.lvl.phase = .idle → (∀ a, w.hyd.activity = some a → a.kind ≠ .stow) →
                (∀ id, LowestOf w.inh (learnBlockers k) id → no { status := .inhibited, arg := BitVec.ofNat 8 id }) ∧
                (w.inh &&& learnBlockers k = 0 → w.conflict m = true → no { status := .conflict })))))) ∧
      (∀ (m : MoverId) (k : LearnMethod), m ≠ awn → w.stage = .complete → Free w m → (w.mv m).holdOff = none →
        w.fenced m = false → w.faulted m = false → w.lvl.phase = .idle →
        (∀ a, w.hyd.activity = some a → a.kind ≠ .stow) → w.conflict m = false → w.inh &&& MoveClass.so.mask = 0 →
        let leg : Dir := match k with | .endToEnd => .inward | .refine => .outward
        let run : LearnRun := { method := k, leg := leg, held := some (heldStroke (w.nominal m)) }
        let claim : Claim := { source := .link, dir := leg, kind := .learn, lease := some (w.now + w.holdWindow) }
        let w1 := admitted (w.setMv m { w.mv m with claim := some claim, learn := some run }) (moverTarget m) (w.moverDraw m)
        let gives (w' : Work) (r : Reply) : Prop :=
          exec (.learnStroke tag (BitVec.ofNat 8 m.val) (method k)) s = .next (answered s 0x2A tag w' r)
        (k = .refine → w.isIn m = true → Fits w (w.moverDraw m) →
          gives ((w1.clampMover m).handOver m .link .outward .learn) { status := .accepted }) ∧
        (k = .endToEnd → w.inh &&& MoveClass.si.mask = 0 → Fits w (w.moverDraw m) →
          gives (((w1.clampMover m).forgetPosition m).handOver m .link .inward .homing) { status := .accepted }) ∧
        (¬Fits w (w.moverDraw m) → (k = .refine → w.isIn m = true) →
          (k = .endToEnd → w.inh &&& MoveClass.si.mask = 0) →
          (waiting w < w.queueLimit → gives ((queued
            (w.setMv m { w.mv m with claim := some claim, learn := some { method := k, leg := leg } })
            (entryOf w m claim)).setQueued m true) { status := .queued }) ∧
          (w.queueLimit ≤ waiting w → gives w { status := .queueFull }))) ∧
      (∀ (c : ChanId) (n : Half), (w.ch c).used = true → w.learning c = false →
        let v : Option Nat := if n = 0 then none else some (max 100 (min 20000 n.toNat))
        let z := ((w.setLearned c v).clampPos c).askLearned
        exec (.strokeSet tag (BitVec.ofNat 8 c.val) n) s = .next (answered s 0x2B tag
          (match w.moverOf c with | some m => z.judgeRack m | none => z)
          { status := if n = 0 ∨ (100 ≤ n.toNat ∧ n.toNat ≤ 20000) then .done else .clamped })) ∧
      (∀ (c : ChanId) (n : Half), (w.ch c).used = true → w.learning c = true →
        exec (.strokeSet tag (BitVec.ofNat 8 c.val) n) s = .next (answered s 0x2B tag w { status := .conflict })) ∧
      (∀ (a : Byte) (n : Half), (8 ≤ a.toNat ∨ ∃ c : ChanId, a = BitVec.ofNat 8 c.val ∧ (w.ch c).used = false) →
        exec (.strokeSet tag a n) s = .next (answered s 0x2B tag w { status := .badArgument })) ∧
      (w.tilt.zeroRun.isSome = true → exec (.tiltZeroLearn tag) s = .next (answered s 0x2C tag w { status := .conflict })) ∧
      (w.tilt.zeroRun = none → w.tilt.fault = true →
        exec (.tiltZeroLearn tag) s = .next (answered s 0x2C tag w { status := .notReady, arg := 1 })) ∧
      (w.tilt.zeroRun = none → w.tilt.fault = false →
        exec (.tiltZeroLearn tag) s = .next (answered s 0x2C tag
          { w with tilt := { w.tilt with zeroRun := some { count := 0, sumX := 0, sumY := 0 } } } { status := .accepted })))

/-- What reaches a room in a learning run (R53): LEARN_STROKE of the same method renews the lease, queued or moving, of the other
method is CONFLICT; MOVE along the leg is HELD_BY_OTHER and a press along it is ignored and spent; MOVE or a press against it is
the reversal of STOP_ONLY or STOP_DWELL (what ends the run: `LearningRunsEndAborted`; a queued run: the queue's head first,
log 10, then the claim from check 3 on: `MoverTimersExpire`). LEARN_STROKE at a room without a run that is not free is
HELD_BY_OTHER at a claim outside RETRY_WAIT, else BUSY. A press leaves the pin of its switch at the level of the event (log 6),
and a reversal of STOP_DWELL is kept, with a dwell to come, also where the leg is already STOPPING SEATED (log 36): both are the
model's choices. -/
def Obligations.LearningRunsSettleArrivals : Prop :=
  (∀ (s : State) (tag : Byte) (m : MoverId), Takes s →
    let w := s.toActive.work
    let x := w.mv m
    let till := w.now + w.holdWindow
    let learns (k : LearnMethod) (w' : Work) (r : Reply) : Prop :=
      exec (.learnStroke tag (BitVec.ofNat 8 m.val) (match k with | .endToEnd => 0 | .refine => 1)) s =
        .next (answered s 0x2A tag w' r)
    let moves (d : Dir) (w' : Work) (r : Reply) : Prop :=
      exec (.move tag (BitVec.ofNat 8 m.val) (dirByte d)) s = .next (answered s 0x10 tag w' r)
    m ≠ awn → w.mode = .service → w.stage = .complete → x.present = true →
    (∀ l, x.learn = some l →
      learns l.method
        { w with movers := w.movers.set m { x with claim := x.claim.map fun (c : Claim) => { c with lease := some till } },
                 bud := { w.bud with queue := w.bud.queue.map fun (e : Queued) =>
                   if e.target = moverTarget m then { e with lease := some till } else e } } { status := .renewed } ∧
      (∀ k, k ≠ l.method → learns k w { status := .conflict }) ∧ moves l.leg w { status := .heldByOther } ∧
      (∀ d, d ≠ l.leg →
        (w.stopDwell = false →
          let h := w.haltMover m .reversed
          moves d (h.setMv m { h.mv m with holdOff := some (d, h.now + h.holdWindow) }) { status := .done }) ∧
        (w.stopDwell = true → w.isQueued (moverTarget m) = false →
          moves d (Work.haltMover (w.setMv m { x with
            run := x.run.map fun (r : Run) => { r with dwellAfter := true },
            pendRev := some { source := .link, dir := d, lease := some till } }) m .reversed) { status := .accepted }) ∧
        (w.stopDwell = true → w.isQueued (moverTarget m) = true →
          let z := ((w.haltMover m .reversed).judgeHead).claimFrom3 m .link d (some till)
          moves d z.1 z.2))) ∧
    (x.learn = none → (w.activity m ≠ .idle ∨ x.pendRev.isSome = true ∨ x.holdOff.isSome = true) → ∀ k,
      (x.claim.isSome = true → w.activity m ≠ .retryWait → learns k w { status := .heldByOther }) ∧
      ((x.claim = none ∨ w.activity m = .retryWait) → learns k w { status := .busy, arg := 1 }))) ∧
  (∀ (s : State) (m : MoverId) (d : Dir) (l : LearnRun), s.work.awake = true → m ≠ awn →
    let w := s.work.toActive.showSwitch m d true
    let x := w.mv m
    let sw := x.switch d
    let y : Mover := x.setSwitch d { sw with pressed := true, count := 0 }
    let w1 := w.setMv m y
    let spent (w : Work) : Work := w.setMv m ((w.mv m).setSwitch d { (w.mv m).switch d with spent := true })
    let gives (z : Work) : Prop := exec (pressOf m d) s = .next (finish s z none)
    x.learn = some l → x.present = true → w.mode ≠ .unconfigured → w.stage = .complete → sw.settled = true →
    sw.pressed = false → sw.spent = false → (x.switch d.flip).pressed = false →
    (d = l.leg → gives (spent w1)) ∧
    (d ≠ l.leg →
      (w.stopDwell = false → gives (spent (w1.haltMover m .reversed))) ∧
      (w.stopDwell = true → w.isQueued (moverTarget m) = false →
        gives (Work.haltMover (w.setMv m { y with
          run := y.run.map fun (r : Run) => { r with dwellAfter := true },
          pendRev := some { source := .panel, dir := d, lease := none } }) m .reversed)) ∧
      (w.stopDwell = true → w.isQueued (moverTarget m) = true →
        let z := ((w1.haltMover m .reversed).judgeHead).claimFrom3 m .panel d none
        gives (if z.2.status = .accepted ∨ z.2.status = .queued then z.1 else spent z.1))))

/-- The course of a learning run (R54, R55, R56): admitted from the queue, it holds its stroke, brings every count
above the new upper limit down to it (R14), and takes its first leg, an END_TO_END run with its position forgotten. A seat IN of the inward leg keeps the claim, a stall of the outward leg is a seat
OUT at any count, which is measured. When the inward leg of every channel has ended SEATED, the outward leg follows with no
MOTION_ENDED and the draw kept, its claim turned outward (log 36); after the outward leg MOTION_ENDED comes first, then LEARN:
LEARNED with the strokes written and a LEARNED job where every stroke lies within the bounds, else OUT_OF_TOLERANCE with none
written. A leg that ends otherwise than SEATED ends the run ABORTED. -/
def Obligations.LearningRunsTakeTheirLegs : Prop :=
  (∀ (w : Work) (q : Queued) (rest : List Queued) (m : MoverId) (c : Claim) (l : LearnRun),
    w.bud.queue = q :: rest → w.headDue = true → q.draw + w.bud.sum ≤ w.budget →
    (∀ n ∈ rest.head?, w.budget < n.draw + (w.bud.sum + q.draw)) → q.target = moverTarget m →
    (w.mv m).claim = some c → (w.mv m).learn = some l →
    let w1 := ((admitted { w with bud := { w.bud with queue := rest } } q.target q.draw).setMv m
      { w.mv m with learn := some { l with held := some (heldStroke (w.nominal m)) } }).clampMover m
    (l.method = .refine → w.judgeHead = { w1.handOver m c.source l.leg (if l.leg = .inward then .homing else .learn) with
      headDue := false }) ∧
    (l.method = .endToEnd → w.judgeHead = { (w1.forgetPosition m).handOver m c.source l.leg
      (if l.leg = .inward then .homing else .learn) with headDue := false })) ∧
  (∀ (w : Work) (m : MoverId), (w.chansOf m).Nodup →
    let z := w.forgetPosition m
    (∀ c ∈ w.chansOf m, z.ch c = { w.ch c with known := false, seat := .between }) ∧
    (∀ c, c ∉ w.chansOf m → z.ch c = w.ch c) ∧ z = { w with chans := z.chans }) ∧
  (∀ (w : Work) (m : MoverId), (w.chansOf m).Nodup →
    let z := w.clampMover m
    (∀ c ∈ w.chansOf m, z.ch c = { w.ch c with pos := min (w.ch c).pos ((w.effStroke c : Int) + 64) }) ∧
    (∀ c l h, w.moverOf c = some m → (w.mv m).learn = some l → l.held = some h → w.effStroke c = h) ∧
    (∀ c, c ∉ w.chansOf m → z.ch c = w.ch c) ∧ z = { w with chans := z.chans }) ∧
  (∀ (w : Work) (m : MoverId) (r : Run) (l : LearnRun), (w.mv m).run = some r → (w.mv m).learn = some l →
    (r.firstCause = none → l.leg = .inward → w.moverEnd m = (w.setMv m { w.mv m with
      learn := some { l with leg := .outward }, sync := .off,
      claim := (w.mv m).claim.map fun (c : Claim) => { c with dir := .outward } }).handOver m .link .outward .learn) ∧
    (r.firstCause = none → l.leg = .outward → w.moverEnd m = (w.closeMotion m r .seated).finishLearn m l) ∧
    (∀ k, r.firstCause = some k → k ≠ .seated → w.moverEnd m =
      (((w.setMv m { w.mv m with learn := none }).emit (.learnRoom m .aborted none none)).clampMover m).closeMotion m r k)) ∧
  (∀ (s : State) (c : ChanId) (m : MoverId) (mo : Motion) (r : Run) (l : LearnRun) (t : Time), s.work.awake = true →
    Lone s.work m c → (s.work.ch c).motion = some mo → (s.work.ch c).stopping = true → mo.stopTime = some t →
    mo.cause = some .seated → (s.work.ch c).rackLatch = false → (s.work.mv m).run = some r → (s.work.mv m).learn = some l →
    let w := s.work
    let x := w.ch c
    let now' := max w.now (max (t + 100000) (match mo.lastPulse with | some p => p + w.restWindow | none => 0))
    let r' : Run := { r with leaderEnd := some (x.pos, mo.correction) }
    let z := ((({ w with now := now' } : Work).setCh c { x with
      motion := none, duty := 0, retry := 0, state := .idle, bridge := .brake }).setMv m { w.mv m with
        run := some r' }).askCheckpoint c false
    let gives (u : Work) : Prop := exec (.stoppingEnd c) s = .next (finish s u none)
    (r.firstCause = none → l.leg = .inward → gives ((z.setMv m { w.mv m with
      run := some r', learn := some { l with leg := .outward }, sync := .off,
      claim := (w.mv m).claim.map fun (c : Claim) => { c with dir := .outward } }).handOver m .link .outward .learn)) ∧
    (r.firstCause = none → l.leg = .outward → gives ((z.closeMotion m r' .seated).finishLearn m l))) ∧
  (∀ (w : Work) (m : MoverId) (l : LearnRun),
    let z := w.finishLearn m l
    let old := w.store.learned.strokes
    let ok (v : Int) : Prop :=
      100 ≤ v ∧ v ≤ 20000 ∧ 4 * (w.nominal m : Int) ≤ 5 * v ∧ 5 * v ≤ 6 * (w.nominal m : Int)
    let good (v : Option Int) : Prop := ∃ u, v = some u ∧ ok u
    let learned : Prop := z.events = w.events ++ [.learnRoom m .learned l.leader l.follower] ∧
      (.learned ∈ z.store.jobs ∨ ∃ sv, z.store.busy = some sv ∧ sv.job = .learned)
    let refused : Prop := z.events = w.events ++ [.learnRoom m .outOfTolerance l.leader l.follower] ∧ z.store = w.store
    (∀ c, Lone w m c →
      (∀ v, l.leader = some v → ok v → learned ∧ z.store.learned.strokes = old.set c (some v.toNat) ∧
        z.ch c = { w.ch c with pos := min (w.ch c).pos (v + 64) }) ∧
      (¬good l.leader → refused ∧
        z.ch c = { w.ch c with pos := min (w.ch c).pos (((w.learned c).getD (w.nominal m) : Nat) + 64) })) ∧
    (∀ a b, Pair w m a b →
      (∀ u v, l.leader = some u → l.follower = some v → ok u → ok v → learned ∧
        z.store.learned.strokes = (old.set a (some u.toNat)).set b (some v.toNat) ∧
        z.ch a = { w.ch a with pos := min (w.ch a).pos (u + 64) } ∧
        z.ch b = { w.ch b with pos := min (w.ch b).pos (v + 64) }) ∧
      (¬(good l.leader ∧ good l.follower) → refused)) ∧
    (z.mv m).learn = none ∧ z.bud = w.bud) ∧
  (∀ (s : State) (c : ChanId) (m : MoverId) (mo : Motion) (v : Nat) (l : LearnRun), s.work.awake = true →
    Lone s.work m c → (s.work.ch c).motion = some mo → (s.work.ch c).driving = true → 0 < (s.work.ch c).duty →
    (s.work.ch c).fenced = false → (s.work.mv m).learn = some l → l.held.isSome = true → mo.dir = l.leg →
    let w := s.work
    let x := w.ch c
    let z := (w.notBefore (w.stallDue x mo)).showCurrent c v
    let y : Machine.Channel := { x with window := List.replicate 8 v, current := min 1000 v, lastJudge := some z.now }
    let stalled : Prop := w.profN (0x0238 + c.val) ≤ min 1000 v
    let zone : Int := w.profN (0x0230 + c.val)
    let gives (u : Work) : Prop := exec (.stallJudgement c v) s = .next (finish s u none)
    (stalled → l.leg = .inward → (x.known = false ∨ x.pos ≤ zone) →
      let y1 : Machine.Channel := { y with pos := 0, known := true, seat := .inSeated,
                                           motion := some { mo with correction := some x.pos } }
      gives (((z.setCh c y1).askCheckpoint c false).setCh c
        (stopping y1 { mo with correction := some x.pos } .seated .brake z.now))) ∧
    (stalled → l.leg = .outward → gives (((z.setMv m { w.mv m with learn := some { l with leader := some x.pos } }).setCh c
      (stopping { y with seat := .outSeated } mo .seated .brake z.now)).endClaim m)) ∧
    (stalled → l.leg = .inward → x.known = true → zone < x.pos → gives ((z.setCh c y).raiseLock c .obstruction)) ∧
    (¬stalled → min 1000 v < w.profN (0x0240 + c.val) → gives ((z.setCh c y).raiseLock c .openLoad)) ∧
    (¬stalled → w.profN (0x0240 + c.val) ≤ min 1000 v → gives ((z.setCh c y).raiseLock c .noPulse)))

/-- The end of a learning run ABORTED (R57). A stop request, whatever asks for it, raises LEARN ABORTED before any MOTION_ENDED
(log 24), ends claim and held stroke, cuts the counts at their limits and leaves the learned strokes: a queued entry is removed,
a driving or waiting motion enters STOPPING with the cause, one in STARTING ends, one already STOPPING goes on. A lock ends the
run after its LOCK event: a latch and an OUT motion's position loss with the claim, RETRY with the claim left to the wait's end,
which stops the motion STOPPED; a lock under REPORT_ONLY or IGNORE that leaves the motion driving leaves the run. RETRY with the
count above its limit latches (log 44), and a kind raised before under another policy is still reported at its first raise under
REPORT_ONLY (log 49). -/
def Obligations.LearningRunsEndAborted : Prop :=
  (∀ (w : Work) (m : MoverId) (l : LearnRun) (cause : Cause), m ≠ awn → (w.mv m).learn = some l → cause ≠ .seated →
    cause ≠ .fault →
    let z := w.haltMover m cause
    let cut (c : ChanId) : Int := min (w.ch c).pos (((w.learned c).getD (w.nominal m) : Nat) + 64)
    (z.mv m).learn = none ∧ (z.mv m).claim = none ∧ z.store.learned = w.store.learned ∧
    (∀ c, w.isQueued (moverTarget m) = true → (w.mv m).leader = some c → (∀ e ∈ w.chansOf m, w.moverOf e = some m) →
      (w.chansOf m).Nodup → z.bud.queue = w.bud.queue.filter (fun q => q.target != moverTarget m) ∧
      z.bud.admitted = w.bud.admitted ∧
      z.events = w.events ++ [.learnRoom m .aborted none none, .motionEnded m cause (cut c) none]) ∧
    (w.isQueued (moverTarget m) = false → w.chansOf m ≠ [] → (w.chansOf m).Nodup →
      (∀ c ∈ w.chansOf m, w.moverOf c = some m ∧ (w.ch c).stoppable = true ∧ (w.ch c).starting = false) →
      (∀ c ∈ w.chansOf m, ∃ mo, (w.ch c).motion = some mo ∧
        z.ch c = stopping { w.ch c with pos := cut c } mo cause .brake w.now) ∧
      z.bud = w.bud ∧ z.events = w.events ++ [.learnRoom m .aborted none none]) ∧
    (∀ c r, w.isQueued (moverTarget m) = false → Lone w m c → (w.ch c).starting = true → (w.mv m).run = some r →
      r.dwellAfter = false → r.firstCause = none →
      z.ch c = { w.ch c with pos := cut c, motion := none, duty := 0, bridge := .brake, retry := 0, state := .idle } ∧
      (z.mv m).run = none ∧ z.headDue = true ∧
      z.bud.admitted = w.bud.admitted.filter (fun a => a.target != moverTarget m) ∧
      z.events = w.events ++ [.learnRoom m .aborted none none, .motionEnded m cause (cut c) none]) ∧
    (w.isQueued (moverTarget m) = false → w.anyCh m Channel.stoppable = false →
      (∀ c, (z.ch c).motion = (w.ch c).motion) ∧ (z.mv m).run = (w.mv m).run ∧ z.bud = w.bud ∧
      z.events = w.events ++ [.learnRoom m .aborted none none])) ∧
  (∀ (w : Work) (c : ChanId) (m : MoverId) (mo : Motion) (k : LockKind) (l : LearnRun), Lone w m c →
    (w.ch c).motion = some mo → (w.ch c).driving = true → (w.mv m).learn = some l →
    let x := w.ch c
    let z := w.raiseLock c k
    let p := w.policyOf c k
    let ended (a : Policy) (n : Nat) : Prop := (z.mv m).learn = none ∧ z.store.learned = w.store.learned ∧
      z.events = w.events ++ [.lock c k a n, .learnRoom m .aborted none none]
    let latched (a : Policy) (b : Bridge) : Prop := ended a x.retry ∧ (z.mv m).claim = none ∧ (z.ch c).stopping = true ∧
      (z.ch c).duty = 0 ∧ (z.ch c).bridge = b ∧ (z.ch c).fault = some k ∧ (z.ch c).lastLock = some (k, a)
    let lost : Prop := (z.mv m).claim = none ∧ (z.ch c).stopping = true ∧ (z.ch c).duty = 0 ∧ (z.ch c).bridge = .brake ∧
      (z.ch c).motion.bind (·.cause) = some .positionLost ∧ (z.ch c).known = false
    (p = .latchCoast → latched .latchCoast .coast) ∧ (p = .latchBrake → latched .latchBrake .brake) ∧
    (p = .retry → w.retryLimit c ≤ x.retry → latched .latchCoast .coast) ∧
    (p = .retry → x.retry < w.retryLimit c → (k.lossy = false ∨ mo.dir = .inward) → ended .retry (x.retry + 1) ∧
      (z.mv m).claim = (w.mv m).claim ∧ z.bud = w.bud ∧ (z.ch c).state = .retryWait ∧ (z.ch c).duty = 0 ∧
      (z.ch c).bridge = .coast ∧ (z.ch c).retry = x.retry + 1 ∧
      (z.ch c).retryEnd = some (w.now + Config.ms (w.profN (0x0348 + c.val)))) ∧
    (p = .retry → x.retry < w.retryLimit c → k.lossy = true → mo.dir = .outward → ended .retry x.retry ∧ lost) ∧
    (p = .reportOnly → k.lossy = false → k ∉ x.reported →
      z = (w.setCh c { x with reported := x.reported ++ [k], lastLock := some (k, .reportOnly) }).emit
        (.lock c k .reportOnly x.retry)) ∧
    (p = .reportOnly → k.lossy = false → k ∈ x.reported → z = w) ∧ (p = .ignore → k.lossy = false → z = w) ∧
    ((p = .reportOnly ∨ p = .ignore) → k.lossy = true →
      (mo.dir = .inward → (z.mv m).learn = some l ∧ (z.mv m).claim = (w.mv m).claim ∧ (z.ch c).driving = true ∧
        (z.ch c).known = false) ∧
      (mo.dir = .outward → lost ∧ (z.mv m).learn = none ∧ Event.learnRoom m .aborted none none ∈ z.events))) ∧
  (∀ (s : State) (c : ChanId) (m : MoverId) (cl : Claim) (t : Time), s.work.awake = true → Lone s.work m c →
    (s.work.ch c).state = .retryWait → (s.work.ch c).retryEnd = some t → (s.work.mv m).claim = some cl → cl.kind = .learn →
    exec (.retryWaitExpiry c) s = .next (finish s ((s.work.notBefore t).stopMover m .stopped) none))

/-! ## Motor channels -/

/-- A hall count moves the position one count in the last driven direction, held within -64 and the effective stroke plus
64; outside a motion a count far enough from the seat makes it BETWEEN; in STARTING, STOPPING and RETRY_WAIT, and on a
fenced channel, it is counted and raises no lock; in RAMP, RUN and APPROACH one that reaches a limit raises RANGE (of a mover
with one channel). -/
def Obligations.HallCountsMoveThePosition : Prop :=
  ∀ (s : State) (c : ChanId) (m : MoverId) (e : Nat), s.work.awake = true → s.work.moverOf c = some m →
    (s.work.ch c).used = true →
    let w := s.work
    let x := w.ch c
    let z := { w with now := w.now + e }
    let top : Int := (w.effStroke c : Int) + 64
    let pos : Int := match x.lastDir with | .outward => min top (x.pos + 1) | .inward => max (-64) (x.pos - 1)
    let zone : Int := w.endZone c
    (x.motion = none → w.anyCh m Channel.driving = false →
      exec (.hallCount c e) s = .next (finish s (z.setCh c { x with pos := pos, lastEdge := some z.now, seat :=
        if x.seat = .inSeated ∧ zone < pos ∨ x.seat = .outSeated ∧ pos < (w.effStroke c : Int) - zone then .between
        else x.seat }) none)) ∧
    (∀ mo, x.motion = some mo → x.driving = true → (w.mv m).follower = none → x.fenced = false → pos ≠ -64 → pos ≠ top →
      (∀ t, x.prevCount = some t → w.minPulse ≤ z.now - t) →
      exec (.hallCount c e) s = .next (finish s (z.setCh c { x with
        pos := pos, osRun := 0, prevCount := some z.now, lastEdge := some z.now,
        motion := some { mo with lastPulse := some z.now } }) none)) ∧
    (∀ mo, x.motion = some mo → (x.driving = false ∨ x.fenced = true) → (w.mv m).follower = none →
      exec (.hallCount c e) s = .next (finish s (z.setCh c { x with
        pos := pos, lastEdge := some z.now, motion := some { mo with lastPulse := some z.now } }) none)) ∧
    (∀ mo, x.motion = some mo → x.driving = true → (w.mv m).follower = none → x.fenced = false → (pos = -64 ∨ pos = top) →
      (∀ t, x.prevCount = some t → w.minPulse ≤ z.now - t) →
      exec (.hallCount c e) s = .next (finish s ((z.setCh c { x with
        pos := pos, osRun := 0, prevCount := some z.now, lastEdge := some z.now,
        motion := some { mo with lastPulse := some z.now } }).raiseLock
          c .range) none)) ∧
    (∀ mo, x.motion = some mo → x.driving = true → (w.mv m).follower = none → x.fenced = false → pos ≠ -64 → pos ≠ top →
      e < w.minPulse →
      exec (.overspeedLock c e) s = .next (finish s (((z.setCh c { x with
        pos := pos, osRun := 0, prevCount := some z.now, lastEdge := some z.now,
        motion := some { mo with lastPulse := some z.now } }).raiseLock
          c .overspeed).judgeRack m) none))

/-- The 10 ms update of a mover with one channel: in RAMP the duty is the ramp start duty plus the share of the difference
that the elapsed ramp time gives, until the ramp time has passed; afterwards it moves to the target by at most 16. -/
def Obligations.DutyFollowsRampAndSteps : Prop :=
  ∀ (s : State) (c : ChanId) (m : MoverId) (mo : Motion) (t0 : Time), s.work.awake = true → Lone s.work m c →
    (s.work.ch c).motion = some mo → (s.work.ch c).driving = true → (s.work.ch c).dutyAt = some t0 →
    (s.work.mv m).seatedOnce = false →
    let w := s.work
    let x := w.ch c
    let now' := max w.now (t0 + 10000)
    let slow : Prop := match mo.dir with
      | .outward => (w.effStroke c : Int) - (w.profN (0x0228 + c.val) : Int) ≤ x.pos
      | .inward => x.pos ≤ (w.profN (0x0228 + c.val) : Int)
    let homing : Prop := x.known = false ∨ mo.profile = .homing
    let approach : Prop := ¬homing ∧ (mo.profile = .learn ∨ w.learned c = none ∨ slow)
    ∀ (target : Nat) (phase : Phase),
      (homing → target = w.profN (0x0220 + c.val) ∧ phase = .approach) →
      (approach → target = w.profN (0x0218 + c.val) ∧ phase = .approach) →
      (¬homing → ¬approach → target = w.profN (0x0210 + c.val) ∧ phase = .run) →
      let z : Work := { w with now := now', movers := w.movers.set m { w.mv m with sync := .off } }
      let ramp := 1000 * w.profN (0x0208 + c.val)
      let elapsed := now' - mo.rampStart
      (mo.phase = .ramp → elapsed < ramp → exec (.dutyUpdate c) s = .next (finish s (z.setCh c { x with
        dutyAt := some now',
        duty := ((mo.rampDuty : Int) + (((target : Int) - mo.rampDuty) * elapsed).tdiv ramp).toNat }) none)) ∧
      (mo.phase = .ramp → ramp ≤ elapsed → exec (.dutyUpdate c) s = .next (finish s (z.setCh c { x with
        dutyAt := some now', duty := target, motion := some { mo with phase := phase } }) none)) ∧
      (mo.phase ≠ .ramp → exec (.dutyUpdate c) s = .next (finish s (z.setCh c { x with
        dutyAt := some now', motion := some { mo with phase := phase },
        duty := if target < x.duty then max target (x.duty - 16) else min target (x.duty + 16) }) none))

/-- The stall judgement of a mover with one channel: a seat IN sets the count to 0 and the position KNOWN, a seat OUT keeps
the count, both stop with cause SEATED and end the claim; any other result raises its lock. The reading is left at the
channel's current pin and in its whole window (log 6, log 11); a learning run is in `LearningRunsTakeTheirLegs`. -/
def Obligations.StallJudgementSeatsOrLocks : Prop :=
  ∀ (s : State) (c : ChanId) (m : MoverId) (mo : Motion) (v : Nat), s.work.awake = true → Lone s.work m c →
    (s.work.ch c).motion = some mo → (s.work.ch c).driving = true → 0 < (s.work.ch c).duty →
    (s.work.ch c).fenced = false → (s.work.mv m).learn = none →
    let w := s.work
    let x := w.ch c
    let z := (w.notBefore (w.stallDue x mo)).showCurrent c v
    let y : Machine.Channel := { x with window := List.replicate 8 v, current := min 1000 v, lastJudge := some z.now }
    let stalled : Prop := w.profN (0x0238 + c.val) ≤ min 1000 v
    let zone : Int := w.profN (0x0230 + c.val)
    let zoneOut : Int := if w.learned c = none then 2 * zone else zone
    let seatIn : Prop := mo.dir = .inward ∧ (x.known = false ∨ x.pos ≤ zone)
    let seatOut : Prop := mo.dir = .outward ∧ (w.effStroke c : Int) - zoneOut ≤ x.pos
    let lock (k : LockKind) : Prop :=
      exec (.stallJudgement c v) s = .next (finish s ((z.setCh c y).raiseLock c k) none)
    (stalled → seatIn →
      let y1 : Machine.Channel := { y with pos := 0, known := true, seat := .inSeated,
                                           motion := some { mo with correction := some x.pos } }
      exec (.stallJudgement c v) s = .next (finish s
        (((((z.setCh c y1).askCheckpoint c false).setCh c
          (stopping y1 { mo with correction := some x.pos } .seated .brake z.now)).endClaim m)) none)) ∧
    (stalled → seatOut → exec (.stallJudgement c v) s = .next (finish s
      ((z.setCh c (stopping { y with seat := .outSeated } mo .seated .brake z.now)).endClaim m) none)) ∧
    (stalled → ¬seatIn → ¬seatOut → lock .obstruction) ∧
    (¬stalled → min 1000 v < w.profN (0x0240 + c.val) → lock .openLoad) ∧
    (¬stalled → w.profN (0x0240 + c.val) ≤ min 1000 v → lock .noPulse)

/-- A lock of a mover with one channel acts by the policy of its kind, with the last lock and a LOCK event; NO_PULSE and
OVERSPEED lose the position: where the policy does not end the motion, an OUT motion stops POSITION_LOST without a retry, an
IN one goes on as a homing motion, its duty cut to the homing duty, or after its retry; the second reading at the trip
current raises OVERCURRENT, the reading being left at the current pin and in the whole window (log 6, log 11). A learning
run is in `LearningRunsEndAborted`. RETRY with the count above its limit latches as at the limit (log 44). A kind raised before in the
motion under another policy is still reported at its first raise under REPORT_ONLY (log 49). -/
def Obligations.LocksActByPolicy : Prop :=
  (∀ (w : Work) (c : ChanId) (m : MoverId) (mo : Motion) (k : LockKind), Lone w m c → (w.ch c).motion = some mo →
    (w.ch c).driving = true → (w.mv m).learn = none →
    let x := w.ch c
    let z := w.raiseLock c k
    let p := w.policyOf c k
    let latched (a : Policy) (b : Bridge) : Prop :=
      (z.ch c).state = .moving ∧ (z.ch c).stopping = true ∧ (z.ch c).duty = 0 ∧ (z.ch c).bridge = b ∧
        (z.ch c).fault = some k ∧ (z.ch c).lastLock = some (k, a) ∧ (z.mv m).claim = none ∧
        z.events = w.events ++ [.lock c k a x.retry]
    (k.lossy = true → (z.ch c).known = false ∧ (z.ch c).seat = .between) ∧
    (k.lossy = false → (z.ch c).known = x.known ∧ (z.ch c).seat = x.seat) ∧ (z.ch c).pos = x.pos ∧
    (p = .latchCoast → latched .latchCoast .coast) ∧ (p = .latchBrake → latched .latchBrake .brake) ∧
    (p = .retry → w.retryLimit c ≤ x.retry → latched .latchCoast .coast) ∧
    (p = .retry → x.retry < w.retryLimit c → (k.lossy = false ∨ mo.dir = .inward) →
      (z.ch c).state = .retryWait ∧ (z.ch c).duty = 0 ∧ (z.ch c).bridge = .coast ∧ (z.ch c).retry = x.retry + 1 ∧
        (z.ch c).retryEnd = some (w.now + Config.ms (w.profN (0x0348 + c.val))) ∧ (z.ch c).lastLock = some (k, .retry) ∧
        (z.ch c).motion = some (if k.lossy then { mo with profile := .homing } else mo) ∧
        (z.mv m).claim = (w.mv m).claim ∧ z.bud = w.bud ∧ z.events = w.events ++ [.lock c k .retry (x.retry + 1)]) ∧
    (p = .reportOnly → k.lossy = false → k ∉ x.reported →
      z = (w.setCh c { x with reported := x.reported ++ [k], lastLock := some (k, .reportOnly) }).emit
        (.lock c k .reportOnly x.retry)) ∧
    (p = .reportOnly → k.lossy = false → k ∈ x.reported → z = w) ∧ (p = .ignore → k.lossy = false → z = w) ∧
    (k.lossy = true →
      let y : Machine.Channel := { x with known := false, seat := .between }
      let noted : Machine.Channel := { y with reported := x.reported ++ [k], lastLock := some (k, .reportOnly) }
      let homing := w.profN (0x0220 + c.val)
      let goesOn (y : Machine.Channel) (es : List Event) : Prop :=
        (mo.dir = .outward → z.ch c = stopping y mo .positionLost .brake w.now ∧ (z.mv m).claim = none) ∧
        (mo.dir = .inward → z.ch c = { y with
            duty := min x.duty homing, motion := some { mo with rampDuty := min mo.rampDuty homing, profile := .homing } } ∧
          (z.mv m).claim = (w.mv m).claim) ∧
        z.events = w.events ++ es
      (p = .reportOnly → k ∉ x.reported → goesOn noted [.lock c k .reportOnly x.retry]) ∧
      (p = .reportOnly → k ∈ x.reported → goesOn y []) ∧ (p = .ignore → goesOn y []) ∧
      (p = .retry → x.retry < w.retryLimit c → mo.dir = .outward →
        z.ch c = stopping { y with lastLock := some (k, .retry) } mo .positionLost .brake w.now ∧
          (z.mv m).claim = none ∧ z.events = w.events ++ [.lock c k .retry x.retry]))) ∧
  (∀ (s : State) (c : ChanId) (v : Nat), s.work.awake = true → (s.work.ch c).driving = true → (s.work.ch c).fenced = false →
    let w := s.work
    let y := (w.showCurrent c v).setCh c { w.ch c with window := List.replicate 8 v, current := min 1000 v, ocRun := 0 }
    (w.motionField 0x0248 c ≤ min 1000 v →
      exec (.overcurrentLock c v) s = .next (finish s (y.raiseLock c .overcurrent) none)) ∧
    (min 1000 v < w.motionField 0x0248 c → exec (.overcurrentLock c v) s = .next (finish s y none)))

/-- The 10 ms update of a pair whose motors both drive in RUN or APPROACH with KNOWN positions: one target D from the
leader's settings; within the sync band both are supplied D, beyond it the motor that is ahead is supplied D less the trim,
floored; the duties follow by at most 16. -/
def Obligations.PairedDutyIsTrimmed : Prop :=
  ∀ (s : State) (m : MoverId) (a b c : ChanId) (ma mb : Motion) (t0 : Time), s.work.awake = true → Pair s.work m a b →
    (c = a ∨ c = b) → (s.work.ch a).motion = some ma → (s.work.ch b).motion = some mb →
    (s.work.ch a).driving = true → (s.work.ch b).driving = true → ma.phase ≠ .ramp → mb.phase ≠ .ramp →
    (s.work.ch a).known = true → (s.work.ch b).known = true → ma.profile ≠ .homing →
    (s.work.ch a).dutyAt = some t0 → (s.work.mv m).seatedOnce = false →
    let w := s.work
    let x := w.ch a
    let y := w.ch b
    let now' := max w.now (t0 + 10000)
    let zone : Int := w.profN (0x0228 + a.val)
    let slow (d : ChanId) : Prop := match ma.dir with
      | .outward => (w.effStroke d : Int) - zone ≤ (w.ch d).pos
      | .inward => (w.ch d).pos ≤ zone
    let approach : Prop := ma.profile = .learn ∨ w.learned a = none ∨ w.learned b = none ∨ slow a ∨ slow b
    let err := x.pos - y.pos
    let ahead : Prop := match ma.dir with
      | .outward => 0 < err
      | .inward => err < 0
    let band := w.profN (0x0258 + m.val)
    ∀ (target : Nat) (phase : Phase),
      (approach → target = w.profN (0x0218 + a.val) ∧ phase = .approach) →
      (¬approach → target = w.profN (0x0210 + a.val) ∧ phase = .run) →
      let cut := max (target - w.profN (0x025C + m.val) * (err.natAbs - band)) (min (w.profN (0x0264 + m.val)) target)
      let follow (duty goal : Nat) : Nat := if goal < duty then max goal (duty - 16) else min goal (duty + 16)
      let gives (sync : Sync) (ga gb : Nat) : Prop :=
        let z : Work := { w with now := now', movers := w.movers.set m { w.mv m with sync := sync } }
        exec (.dutyUpdate c) s = .next (finish s
          ((z.setCh a { x with dutyAt := some now', duty := follow x.duty ga, motion := some { ma with phase := phase } }).setCh
            b { y with duty := follow y.duty gb, motion := some { mb with phase := phase } }) none)
      (err.natAbs ≤ band → gives .inBand target target) ∧
      (band < err.natAbs → ahead → gives .trimLeader cut target) ∧
      (band < err.natAbs → ¬ahead → gives .trimFollower target cut)

/-- The two motors of a pair act together: a count that brings the racking error beyond the rack limit raises RACKED on both
(leader, then follower, and after the other effects of the count: log 10), which stops both with LATCH_BRAKE; a seat of one,
OUT or IN, while the other drives, lets the other go on in SEATING whatever the profile (log 15); a lock of one acts on both
by the policy of its channel, with the position lost on its channel alone: a loss that lets an IN motion go on makes it a
homing motion, also after a first seat (log 15), one in an OUT motion stops both POSITION_LOST. Where the first lock halted
both, a second one on the partner at that moment is recorded there with the first one's action and does no more (log 33). Retry
limit and retry wait are the locking channel's, and at the limit as above it a lock under RETRY latches both motors in COAST
(above it, and both fields of a pair: log 44). -/
def Obligations.PairedMotorsActTogether : Prop :=
  (∀ (s : State) (m : MoverId) (a b c : ChanId) (mo : Motion) (e : Nat), s.work.awake = true → Pair s.work m a b →
    (c = a ∨ c = b) → (s.work.ch c).motion = some mo → (s.work.ch c).driving = true → (s.work.ch c).used = true →
    (s.work.mv m).seatedOnce = false →
    let w := s.work
    let x := w.ch c
    let top : Int := (w.effStroke c : Int) + 64
    let pos : Int := match x.lastDir with | .outward => min top (x.pos + 1) | .inward => max (-64) (x.pos - 1)
    let z := ({ w with now := w.now + e } : Work).setCh c { x with
      pos := pos, osRun := if x.fenced then x.osRun else 0, lastEdge := some (w.now + e),
      prevCount := if x.fenced then x.prevCount else some (w.now + e),
      motion := some { mo with lastPulse := some (w.now + e) } }
    let apart : Prop := w.profN (0x0260 + m.val) < ((z.ch a).pos - (z.ch b).pos).natAbs
    let known : Prop := (w.ch a).known = true ∧ (w.ch b).known = true
    pos ≠ -64 → pos ≠ top → (∀ t, x.prevCount = some t → w.minPulse ≤ w.now + e - t) →
    (known → apart → exec (.hallCount c e) s = .next (finish s (z.rackLock m) none)) ∧
    (¬(known ∧ apart) → exec (.hallCount c e) s = .next (finish s z none))) ∧
  (∀ (w : Work) (m : MoverId) (a b : ChanId) (ma mb : Motion), Pair w m a b → (w.ch a).motion = some ma →
    (w.ch b).motion = some mb → (w.ch a).driving = true → (w.ch b).driving = true → (w.mv m).learn = none →
    let x := w.ch a
    let y := w.ch b
    let racked (x : Machine.Channel) (mo : Motion) : Machine.Channel :=
      { stopping x mo .fault .brake w.now with fault := some .racked, lastLock := some (.racked, .latchBrake) }
    let z := w.rackLock m
    (z.ch a = racked x ma ∧ z.ch b = racked y mb ∧ (z.mv m).sync = .racked ∧ (z.mv m).claim = none ∧
      z.events = w.events ++ [.lock a .racked .latchBrake x.retry, .lock b .racked .latchBrake y.retry]) ∧
    (∀ (c d : ChanId) (mo : Motion) (r : Run), (c = a ∧ d = b ∨ c = b ∧ d = a) → (w.ch c).motion = some mo →
      (w.mv m).run = some r →
      let z := w.seatOut m c
      z.ch c = stopping { w.ch c with seat := .outSeated } mo .seated .brake w.now ∧ z.ch d = w.ch d ∧
        (z.mv m).sync = .seating ∧ (z.mv m).claim = (w.mv m).claim ∧ z.events = w.events ∧
        (z.mv m).run = some { r with firstSeat := some (d, (w.ch d).pos) }) ∧
    (∀ (c d : ChanId) (mo : Motion) (r : Run), (c = a ∧ d = b ∨ c = b ∧ d = a) → (w.ch c).motion = some mo →
      (w.mv m).run = some r →
      let z := w.seatIn m c
      ((w.ch d).known = true → (w.ch d).pos.natAbs ≤ w.profN (0x0260 + m.val)) →
        z.ch c = stopping { w.ch c with pos := 0, known := true, seat := .inSeated }
          { mo with correction := some (w.ch c).pos } .seated .brake w.now ∧ z.ch d = w.ch d ∧
        (z.mv m).sync = .seating ∧ (z.mv m).claim = (w.mv m).claim ∧ z.events = w.events ∧
        (z.mv m).run = some { r with firstSeat := some (d, (w.ch d).pos) }) ∧
    (∀ (c d : ChanId) (k : LockKind), (c = a ∧ d = b ∨ c = b ∧ d = a) →
      let z := w.raiseLock c k
      let p := w.policyOf c k
      let ends (e : ChanId) (br : Bridge) : Prop :=
        (z.ch e).stopping = true ∧ (z.ch e).duty = 0 ∧ (z.ch e).bridge = br ∧ (z.ch e).fault = some k
      (z.ch d).known = (w.ch d).known ∧ ((z.ch c).known = if k.lossy then false else (w.ch c).known) ∧
      (p = .latchCoast → ends c .coast ∧ ends d .coast ∧ (z.mv m).claim = none ∧
        z.events = w.events ++ [.lock c k .latchCoast (w.ch c).retry]) ∧
      (p = .latchBrake → ends c .brake ∧ ends d .brake ∧ (z.mv m).claim = none ∧
        z.events = w.events ++ [.lock c k .latchBrake (w.ch c).retry]) ∧
      (p = .retry → w.retryLimit c ≤ (w.ch c).retry → ends c .coast ∧ ends d .coast ∧ (z.mv m).claim = none ∧
        z.events = w.events ++ [.lock c k .latchCoast (w.ch c).retry]) ∧
      (p = .retry → (w.ch c).retry < w.retryLimit c → (k.lossy = false ∨ ma.dir = .inward ∧ mb.dir = .inward) →
        (∀ e, (e = c ∨ e = d) → (z.ch e).state = .retryWait ∧ (z.ch e).duty = 0 ∧ (z.ch e).bridge = .coast ∧
          (z.ch e).retry = (w.ch c).retry + 1 ∧
          (z.ch e).retryEnd = some (w.now + Config.ms (w.profN (0x0348 + c.val)))) ∧
        (k.lossy = true → (z.mv m).sync = .homing ∧
          ∀ e, (e = c ∨ e = d) → (z.ch e).motion.map (·.profile) = some .homing) ∧
        (z.mv m).claim = (w.mv m).claim ∧ z.events = w.events ++ [.lock c k .retry ((w.ch c).retry + 1)]) ∧
      (p = .reportOnly ∨ p = .ignore → k.lossy = false → z.ch d = w.ch d ∧ (z.ch c).motion = (w.ch c).motion ∧
        (z.ch c).duty = (w.ch c).duty ∧ (z.ch c).bridge = (w.ch c).bridge ∧ (z.mv m).sync = (w.mv m).sync ∧
        (z.mv m).claim = (w.mv m).claim) ∧
      (p = .reportOnly ∨ p = .ignore → k.lossy = true → ma.dir = .inward → mb.dir = .inward →
        (∀ e, (e = c ∨ e = d) → (z.ch e).driving = true ∧
          (z.ch e).duty = min (w.ch e).duty (w.profN (0x0220 + a.val)) ∧
          (z.ch e).motion.map (·.profile) = some .homing) ∧
        (z.mv m).sync = .homing ∧ (z.mv m).claim = (w.mv m).claim) ∧
      (p = .reportOnly ∨ p = .ignore ∨ p = .retry ∧ (w.ch c).retry < w.retryLimit c → k.lossy = true →
        ma.dir = .outward → mb.dir = .outward →
        (∀ e, (e = c ∨ e = d) → (z.ch e).stopping = true ∧ (z.ch e).duty = 0 ∧ (z.ch e).bridge = .brake ∧
          (z.ch e).motion.bind (·.cause) = some .positionLost) ∧
        (z.mv m).claim = none) ∧
      (∀ k2 : LockKind, (w.mv m).run.isSome = true → (z.ch c).driving = false → (z.ch d).driving = false →
        z.raiseLock d k2 = z.setCh d { z.ch d with
          lastLock := some (k2, if p = .retry ∧ w.retryLimit c ≤ (w.ch c).retry then .latchCoast else p) }))) ∧
  (∀ (w : Work) (m : MoverId) (a b c : ChanId) (mo : Motion) (k : LockKind), Pair w m a b → (c = a ∨ c = b) →
    (w.ch c).motion = some mo → (w.ch c).driving = true → mo.dir = .inward → k.lossy = true →
    (w.policyOf c k = .reportOnly ∨ w.policyOf c k = .ignore) →
    let z := w.raiseLock c k
    (z.ch c).driving = true ∧ (z.ch c).known = false ∧ (z.ch c).pos = (w.ch c).pos ∧
      (z.ch c).duty = min (w.ch c).duty (w.profN (0x0220 + a.val)) ∧
      (z.ch c).motion.map (·.profile) = some .homing ∧ (z.mv m).sync = .homing)

/-- The phases of a motion with one channel: the IN_MOTION checkpoint written, it enters RAMP, from which its 10 ms update
period runs (log 3); the retry wait of a LINK MOVE claim over, it enters RAMP while its lease stands and stops LEASE_EXPIRED
otherwise; come to rest, with no learning run and no RACKED latch, it is IDLE in BRAKE, or FAULTED, and ends. The end of a
mover's motion is one MOTION_ENDED with its first cause, the leader's final count and correction; the draw is released and
the claim is gone. A DWELL after it was settled at the reversal, whatever the reversal mode then in force: the model's choice
(log 50). -/
def Obligations.MotionPhasesEnd : Prop :=
  (∀ (s : State) (c : ChanId) (m : MoverId) (mo : Motion), s.work.awake = true → Lone s.work m c →
    (s.work.ch c).motion = some mo →
    let w := s.work
    let x := w.ch c
    let start (line : DutyLine) : Nat := min (w.profN (0x0200 + c.val)) (w.dutyOf c line)
    let ramp (now : Time) (mo : Motion) : Machine.Channel :=
      { x with state := .moving, duty := start (w.dutyLine m mo), seat := .between, ocRun := 0, osRun := 0,
               bridge := (match mo.dir with | .outward => .driveOut | .inward => .driveIn),
               prevCount := none, lastJudge := none, retryEnd := none, dutyAt := some now,
               motion := some { mo with phase := .ramp, rampStart := now, rampDuty := start (w.dutyLine m mo) } }
    (∀ k t r, x.starting = true → w.store.busy = some { job := .checkpoint c k (some mo.serial), start := t, record := r } →
      let now' := max w.now (t + 5000)
      let st : Store := { w.store with busy := none, checkpoints := w.store.checkpoints.set c r }
      exec (.checkpointWritten c) s = .next (finish s
        ((({ w with now := now', store := st } : Work).setCh c (ramp now' { mo with written := true })).serveNext) none)) ∧
    (∀ t cl, x.state = .retryWait → x.retryEnd = some t → (w.mv m).claim = some cl → cl.kind = .move → cl.source = .link →
      let now' := max w.now t
      ((∃ d, cl.lease = some d ∧ now' < d) →
        exec (.retryWaitExpiry c) s = .next (finish s (({ w with now := now' } : Work).setCh c (ramp now' mo)) none)) ∧
      ((∃ d, cl.lease = some d ∧ d ≤ now') → exec (.retryWaitExpiry c) s = .next (finish s
        (({ w with now := now' } : Work).stopMover m .leaseExpired) none))) ∧
    (∀ r t, x.stopping = true → mo.stopTime = some t → (w.mv m).run = some r → (w.mv m).learn = none →
      x.rackLatch = false →
      let now' := max w.now (max (t + 100000) (match mo.lastPulse with | some p => p + w.restWindow | none => 0))
      let y : Machine.Channel := { x with motion := none, duty := 0, retry := 0,
                                          state := if mo.cause = some .fault then .faulted else .idle,
                                          bridge := if mo.cause = some .fault then x.bridge else .brake }
      let r' : Run := { r with leaderEnd := some (x.pos, mo.correction) }
      exec (.stoppingEnd c) s = .next (finish s
        ((((({ w with now := now' } : Work).setCh c y).setMv m { w.mv m with run := some r' }).askCheckpoint c
          false).closeMotion m r' (r.firstCause.getD .seated)) none))) ∧
  (∀ (w : Work) (m : MoverId) (r : Run) (cause : Cause) (f : Int × Option Int), r.leaderEnd = some f →
    (m = awn → (w.mv m).pendRetract = none) →
    let z := w.closeMotion m r cause
    z.events = w.events ++ [.motionEnded m cause f.1 f.2] ∧ (z.mv m).claim = none ∧ (z.mv m).run = none ∧
    z.bud.admitted = w.bud.admitted.filter (fun a => a.target != moverTarget m) ∧ z.bud.queue = w.bud.queue ∧
    z.headDue = true ∧ z.chans = w.chans ∧
    ((z.mv m).dwellEnd = if m = awn then (if (w.mv m).pendRev = none then (w.mv m).dwellEnd else some (w.now + 500000))
      else if r.dwellAfter then some (w.now + 500000) else (w.mv m).dwellEnd))

/-! ## Leases, dwells and the panel -/

/-- A lease, a hold-off, a pending reversal and a dwell of a mover end at their time: the lease stops what it kept, the
others are gone; a dwell without pending work leaves the mover free. At the end of a dwell a pending reversal is a fresh claim
from check 3 on (R37), a LINK one while its lease runs, a PANEL one while its switch is pressed, which a claim that is not
admitted or queued leaves spent; otherwise it is gone. From check 3 on a claim is refused by the first of the checks 3 to 8 of
R32 and R122 that fails, DONE at the end it asks for, and else admitted, queued or QUEUE_FULL with nothing kept. -/
def Obligations.MoverTimersExpire : Prop :=
  (∀ (w : Work) (m : MoverId) (src : Source) (d : Dir) (lease : Option Time),
    let draw := w.moverDraw m
    let c : Claim := { claimOf w m src d with lease := if m = awn ∧ w.oneTouch = true then none else lease }
    let w1 := w.setMv m { w.mv m with claim := some c, learn := none }
    let gives (w' : Work) (r : Reply) : Prop := w.claimFrom3 m src d lease = (w', r)
    (w.fenced m = true → gives w { status := .fenced }) ∧
    (w.fenced m = false → w.faulted m = true → gives w { status := .faulted }) ∧
    (w.fenced m = false → w.faulted m = false →
      (d = .outward → w.known m = false → gives w { status := .positionUnknown }) ∧
      ((d = .outward → w.known m = true) →
        ((w.lvl.phase ≠ .idle ∨ ∃ a, w.hyd.activity = some a ∧ a.kind = .stow) → gives w { status := .busy, arg := 2 }) ∧
        (w.lvl.phase = .idle → (∀ a, w.hyd.activity = some a → a.kind ≠ .stow) →
          (∀ id, LowestBlocking w.inh (moveClass m d) id → gives w { status := .inhibited, arg := BitVec.ofNat 8 id }) ∧
          (w.inh &&& (moveClass m d).mask = 0 → w.conflict m = true → gives w { status := .conflict })))) ∧
    (Cleared w m d → w.atEnd m d = true → gives w { status := .done }) ∧
    (Cleared w m d → w.atEnd m d = false →
      (Fits w draw →
        gives ((admitted w1 (moverTarget m) draw).handOver m src d (profileOf w m)) { status := .accepted }) ∧
      (¬Fits w draw → waiting w < w.queueLimit →
        gives ((queued w1 (entryOf w m c)).setQueued m true) { status := .queued }) ∧
      (¬Fits w draw → w.queueLimit ≤ waiting w → gives w { status := .queueFull }))) ∧
  ∀ (s : State) (m : MoverId) (t : Time), s.work.awake = true →
    let w := s.work
    let x := w.mv m
    let z := w.notBefore t
    (∀ c, x.claim = some c → c.lease = some t →
      exec (.roomLeaseExpiry m) s = .next (finish s (z.haltMover m .leaseExpired) none)) ∧
    (∀ d, x.holdOff = some (d, t) →
      exec (.holdOffExpiry m) s = .next (finish s (z.setMv m { x with holdOff := none }) none)) ∧
    (∀ r, x.pendRev = some r → r.lease = some t →
      exec (.pendingReversalExpiry m) s = .next (finish s (z.setMv m { x with pendRev := none }) none)) ∧
    (x.dwellEnd = some t → x.pendRetract = none → x.pendRev = none →
      exec (dwellEndOf m) s = .next (finish s (z.setMv m { x with dwellEnd := none }) none)) ∧
    (∀ r d, x.dwellEnd = some t → x.pendRetract = none → x.pendRev = some r → r.source = .link → r.lease = some d →
      d ≤ z.now →
      exec (dwellEndOf m) s = .next (finish s (z.setMv m { x with dwellEnd := none, pendRev := none }) none)) ∧
    (∀ r d, x.dwellEnd = some t → x.pendRetract = none → x.pendRev = some r → r.source = .link → r.lease = some d →
      z.now < d → exec (dwellEndOf m) s = .next (finish s
        ((z.setMv m { x with dwellEnd := none, pendRev := none }).claimFrom3 m .link r.dir (some d)).1 none)) ∧
    (∀ r, x.dwellEnd = some t → x.pendRetract = none → x.pendRev = some r → r.source = .panel →
      let y : Mover := { x with dwellEnd := none, pendRev := none }
      let u := (z.setMv m y).claimFrom3 m .panel r.dir r.lease
      let kept : Prop := u.2.status = .accepted ∨ u.2.status = .queued
      ((x.switch r.dir).pressed = false → exec (dwellEndOf m) s = .next (finish s (z.setMv m y) none)) ∧
      ((x.switch r.dir).pressed = true →
        (kept → exec (dwellEndOf m) s = .next (finish s u.1 none)) ∧
        (¬kept → exec (dwellEndOf m) s = .next (finish s
          (u.1.setMv m ((u.1.mv m).setSwitch r.dir { (u.1.mv m).switch r.dir with spent := true })) none)))) ∧
    (∀ p, m = awn → x.dwellEnd = some t → x.pendRetract = some p →
      exec (dwellEndOf m) s = .next (finish s ((z.setMv awn { x with dwellEnd := none }).presentRetract p) none))

/-- A press that is taken as a claim (R40, R41, R122): at a free mover it hands a PANEL motion over, is queued, or, refused at a
check, at its end or at a full queue, is spent; with no mover in use it is spent. At a mover that is not IDLE, or holds a pending
reversal, it stops a ONE_TOUCH claim (R123); along another source's claim, in RETRY_WAIT, STOPPING or DWELL it is ignored, also at
a LEARN claim that a RETRY lock left without its run (log 38); against a claim it is the reversal of STOP_ONLY, or of STOP_DWELL
with its pending reversal, a queued motion giving way to the claim from check 3 on, which `MoverTimersExpire` follows, once the
queue's head is judged (log 10); a WIND retract ignores it, a TRAVEL one it stops (R129). A press that is ignored, refused or
turned into a stop is spent. A spent switch claims nothing. Both switches pressed stop the mover, but no WIND retract, and are
spent (R43). A release ends the hold-to-run claim of its switch and discards its pending reversal (R42); any other claim, a
ONE_TOUCH one too, it leaves. A press in a learning run is in `LearningRunsSettleArrivals`. The switch's pin keeps the level of the
event (log 6). -/
def Obligations.PanelSwitchesClaimAndStop : Prop :=
  ∀ (s : State) (m : MoverId) (d : Dir), s.work.awake = true →
    (let w := s.work.toActive.showSwitch m d true
    let x := w.mv m
    let sw := x.switch d
    let y : Mover := x.setSwitch d { sw with pressed := true, count := 0 }
    let w1 := w.setMv m y
    let spent (z : Work) : Work := z.setMv m ((z.mv m).setSwitch d { (z.mv m).switch d with spent := true })
    let gives (z : Work) : Prop := exec (pressOf m d) s = .next (finish s z none)
    sw.settled = true → sw.pressed = false →
    ((x.switch d.flip).pressed = true →
      let both := w.setMv m { y with
        pendRev := none, swIn := { y.swIn with spent := true }, swOut := { y.swOut with spent := true } }
      ((m = awn → w.holdsRetract = none) → gives (both.haltMover m .stopped)) ∧
      (m = awn → w.holdsRetract = some .wind → gives both) ∧
      (m = awn → w.holdsRetract = some .travel → gives (withoutTravel both))) ∧
    ((x.switch d.flip).pressed = false → sw.spent = true → gives w1) ∧
    ((x.switch d.flip).pressed = false → sw.spent = false →
      (w.mode = .unconfigured ∨ w.stage = .settling ∨ x.present = false → gives (spent w1)) ∧
      (w.mode ≠ .unconfigured → w.stage = .complete → x.present = true →
        (Free w m →
          let c := claimOf w m .panel d
          let claims := w.setMv m { y with claim := some c }
          (Cleared w m d → w.atEnd m d = false →
            (Fits w (w.moverDraw m) →
              gives ((admitted claims (moverTarget m) (w.moverDraw m)).handOver m .panel d (profileOf w m))) ∧
            (¬Fits w (w.moverDraw m) → waiting w < w.queueLimit →
              gives ((queued claims (entryOf w m c)).setQueued m true)) ∧
            (¬Fits w (w.moverDraw m) → w.queueLimit ≤ waiting w → gives (spent w1))) ∧
          (¬Cleared w m d ∨ w.atEnd m d = true → gives (spent w1))) ∧
        (m = awn →
          (w.holdsRetract = some .wind → gives (spent w1)) ∧
          (w.holdsRetract = some .travel → gives (spent (withoutTravel w1)))) ∧
        (x.learn = none → (m = awn → w.holdsRetract = none) → w.activity m ≠ .idle ∨ x.pendRev.isSome = true →
          (x.claim = none → gives (spent w1)) ∧
          (∀ c, x.claim = some c →
            (c.kind = .oneTouch → gives (spent (w1.haltMover m .stopped))) ∧
            (c.kind = .learn → gives (spent w1)) ∧
            (c.kind = .move ∨ c.kind = .hold →
              (c.dir = d → c.source = .panel → gives w1) ∧
              (c.dir = d → c.source ≠ .panel → gives (spent w1)) ∧
              (c.dir ≠ d → w.activity m = .retryWait → gives (spent w1)) ∧
              (c.dir ≠ d → w.activity m ≠ .retryWait →
                (w.stopDwell = false → gives (spent (w1.haltMover m .reversed))) ∧
                (w.stopDwell = true → w.isQueued (moverTarget m) = false →
                  gives (Work.haltMover (w.setMv m { y with
                    run := y.run.map fun (r : Run) => { r with dwellAfter := true },
                    pendRev := some { source := .panel, dir := d, lease := none } }) m .reversed)) ∧
                (w.stopDwell = true → w.isQueued (moverTarget m) = true →
                  let z := ((w1.haltMover m .reversed).judgeHead).claimFrom3 m .panel d none
                  let kept : Prop := z.2.status = .accepted ∨ z.2.status = .queued
                  (kept → gives z.1) ∧ (¬kept → gives (spent z.1)))))))))) ∧
    (let w := s.work.showSwitch m d false
    let x := s.work.mv m
    let y : Mover := { x.setSwitch d { x.switch d with pressed := false, spent := false, count := 0 } with
      pendRev := x.pendRev.filter fun r => !(r.source == .panel && r.dir == d) }
    let gives (z : Work) : Prop := exec (releaseOf m d) s = .next (finish s z none)
    (x.switch d).pressed = true →
    (∀ c, x.claim = some c → c.source = .panel → c.dir = d → c.kind ≠ .oneTouch →
      gives ((w.setMv m y).haltMover m .released)) ∧
    ((∀ c, x.claim = some c → c.source ≠ .panel ∨ c.dir ≠ d ∨ c.kind = .oneTouch) → gives (w.setMv m y)))

/-! ## The Wind Watch -/

/-- The wind gate: the speed, the gust run, the lockout of a gust and its restart, the WIND event of a gust, which starts a
WIND retract of an awning that is out (presented at once when it is at rest, pending behind the stop of a motion), turns a
TRAVEL retract into a WIND one, and starts nothing at a STOWED awning, at a WIND retract or where the conditions of R127
fail; the lockout ends with a WIND event. The start of a retract of either purpose: it asks for the conditions of R127; the
neighbour room gives way SUPERSEDED, a room in DWELL losing its pending reversal; then an awning at rest presents the retract,
one that waits for admission presents it in place of its entry, and one that moves, stops or dwells holds it pending, its
motion stopped SUPERSEDED and its pending reversal discarded. -/
def Obligations.WindGateAndLockout : Prop :=
  (∀ (w : Work) (p : Purpose),
    let x := w.mv awn
    let z := w.retractTrigger p
    let starts : Prop := w.stage = .complete ∧ w.mode ≠ .unconfigured ∧ x.present = true ∧ w.stowed = false ∧
      w.fenced awn = false ∧ w.faulted awn = false ∧ w.inh &&& (match p with | .wind => 0x0030 | .travel => 0x9030) = 0
    (∀ q, w.holdsRetract = some q → (q = .wind ∨ p = .travel) → z = (w, false)) ∧
    (w.holdsRetract = some .travel → p = .wind → z = ({ w with
      movers := w.movers.set awn { x with
        pendRetract := x.pendRetract.map fun _ => .wind,
        claim := x.claim.map fun (c : Claim) => { c with purpose := c.purpose.map fun _ => .wind } },
      bud := { w.bud with queue := w.bud.queue.map fun (e : Queued) =>
        { e with purpose := e.purpose.map fun _ => .wind } } }, false)) ∧
    (w.holdsRetract = none → ¬starts → z = (w, false)) ∧
    (w.holdsRetract = none → starts → ∀ v : Work,
      (w.neighbour = none → v = w) →
      (∀ r, w.neighbour = some r → let h := w.haltMover r .superseded
        v = if h.activity r = .dwell then h.setMv r { h.mv r with pendRev := none } else h) →
      (v.activity awn = .idle → z = (v.presentRetract p, true)) ∧
      (v.activity awn = .queued → z = ((v.haltMover awn .superseded).presentRetract p, true)) ∧
      (v.activity awn ≠ .idle → v.activity awn ≠ .queued →
        z = ((v.setMv awn { v.mv awn with pendRetract := some p, pendRev := none }).haltMover awn .superseded, true)))) ∧
  ∀ (s : State) (n : Nat), s.work.awake = true →
    let w := s.work
    let now' := max w.now (w.wind.gateEnd.getD 0)
    let v := min 999 (min 65535 n * w.profN 0x0502 / 16)
    let windy : Prop := w.profN 0x0503 ≤ v
    let run : Nat := if w.profN 0x0503 ≤ v then min 255 (w.wind.gustRun + 1) else 0
    let gust : Prop := (windy ∧ run = w.profN 0x0504) ∨ w.profN 0x0505 ≤ v
    let u : Wind := { w.wind with count := 0, speed := v, gateEnd := some (now' + 1000000), gustRun := run }
    let till := now' + 60000000 * w.profN 0x0506
    (∀ t, w.wind.lockout = some t → exec .lockoutExpiry s = .next (finish s
      (({ w with now := max w.now t, wind := { w.wind with lockout := none } } : Work).emit
        (.wind w.wind.speed false false)) none)) ∧
    ((w.mv awn).present = false → exec (.windGate n) s = .next (finish s w none)) ∧
    ((w.mv awn).present = true →
      (¬gust → ¬(windy ∧ w.wind.lockout.isSome = true) →
        exec (.windGate n) s = .next (finish s { w with now := now', wind := u } none)) ∧
      (¬gust → windy → w.wind.lockout.isSome = true →
        exec (.windGate n) s = .next (finish s { w with now := now', wind := { u with lockout := some till } } none)) ∧
      (gust → w.stowed = true → w.holdsRetract = none → exec (.windGate n) s = .next (finish s
        (({ w with now := now', wind := { u with lockout := some till } } : Work).emit (.wind v true false)) none)) ∧
      (gust →
        let y : Work := { w with now := now', wind := { u with lockout := some till } }
        let x := w.mv awn
        let ends (z : Work) (started : Bool) : Prop :=
          exec (.windGate n) s = .next (finish s (z.emit (.wind v true started)) none)
        let starts : Prop := w.stage = .complete ∧ w.mode ≠ .unconfigured ∧ w.stowed = false ∧ w.fenced awn = false ∧
          w.faulted awn = false ∧ w.inh &&& 0x0030 = 0
        let alone : Prop := ∀ r, w.neighbour = some r → w.isQueued (moverTarget r) = false ∧ (w.mv r).learn = none ∧
          w.anyCh r Channel.stoppable = false ∧ w.activity r ≠ .dwell
        ends (y.retractTrigger .wind).1 (y.retractTrigger .wind).2 ∧
        (w.holdsRetract = none → starts → alone → w.activity awn = .idle → ends (y.presentRetract .wind) true) ∧
        (w.holdsRetract = none → starts → alone → w.activity awn ≠ .idle → w.activity awn ≠ .queued →
          ends (Work.stopMover (y.setMv awn { x with pendRetract := some .wind, pendRev := none }) awn .superseded) true) ∧
        (w.holdsRetract = none → ¬starts → ends y false) ∧ (w.holdsRetract = some .wind → ends y false) ∧
        (w.holdsRetract = some .travel → ends { y with
          movers := w.movers.set awn { x with
            pendRetract := x.pendRetract.map fun _ => .wind,
            claim := x.claim.map fun (c : Claim) => { c with purpose := c.purpose.map fun _ => .wind } },
          bud := { w.bud with queue := w.bud.queue.map fun (e : Queued) =>
            { e with purpose := e.purpose.map fun _ => .wind } } } false)))

/-- A retract presented (R128, R145): at a STOWED awning it is discarded without an event; a fence, a fault or an inhibit ends it before it starts; else it is admitted when its
draw fits, ahead of every queued entry, and placed at the head of the queue when it does not. -/
def Obligations.RetractGoesFirst : Prop :=
  (∀ (w : Work) (p : Purpose), w.stowed = true →
    w.presentRetract p = w.setMv awn { w.mv awn with pendRetract := none, dwellEnd := none }) ∧
  ∀ (w : Work) (p : Purpose), w.stowed = false →
    let x := w.mv awn
    let z := w.presentRetract p
    let c : Claim := { source := .auto, dir := .inward, kind := .retract, purpose := some p }
    let y : Mover := { x with pendRetract := none, dwellEnd := none }
    let dropped (cause : Cause) : Prop := z = (w.setMv awn y).emit (.motionEnded awn cause (w.leaderPos awn) none)
    (w.fenced awn = true → dropped .fenced) ∧ (w.fenced awn = false → w.faulted awn = true → dropped .fault) ∧
    (w.fenced awn = false → w.faulted awn = false → w.inh &&& retractMask p ≠ 0 → dropped .inhibited) ∧
    (w.fenced awn = false → w.faulted awn = false → w.inh &&& retractMask p = 0 → x.learn = none →
      let w1 := w.setMv awn { y with claim := some c }
      (w.profN 0x0273 + w.bud.sum ≤ w.budget →
        z = (admitted w1 (moverTarget awn) (w.profN 0x0273)).handOver awn .auto .inward (profileOf w awn)) ∧
      (w.budget < w.profN 0x0273 + w.bud.sum →
        z = ({ w1 with bud := { w.bud with queue := entryOf w awn c :: w.bud.queue } } : Work).setQueued awn true))

/-! ## Supply, budget, coach inputs -/

/-- The supply flags: the 50th value beyond a threshold sets the flag, the 50th at its restart clears it under AUTO_CLEAR,
and each change raises SUPPLY. The 49 values before the row's are taken as seen (log 2), its value fills the window (log 11) and
is left at the VSUP pin (log 6). What a filtered value does from any runs and flags, by R137 and R138: each run counts on, held
at 50, or returns to 0; under AUTO_CLEAR alone a clear run of 50 clears its flag, under LATCH no run does; a run of 50 sets its
flag; and each change has its event with the flags as they then stand, the clearings first, the low flag's before the high
flag's (log 39). -/
def Obligations.SupplyFlagsFollowRuns : Prop :=
  (∀ (w : Work) (v : Nat),
    let count (holds : Bool) (n : Nat) : Nat := if holds then min 50 (n + 1) else 0
    let u : Supply := { w.sup with
      voltage := v,
      lowRun := count (decide (v < w.profN 0x0600)) w.sup.lowRun,
      highRun := count (decide (w.profN 0x0602 < v)) w.sup.highRun,
      lowClear := count (decide (max (w.profN 0x0601) (w.profN 0x0600 + 10) ≤ v)) w.sup.lowClear,
      highClear := count (decide (v ≤ min (w.profN 0x0603) (w.profN 0x0602 - 10))) w.sup.highClear }
    let latch := w.prof 0x0604 == 1
    let lowOff := !latch && w.sup.low && u.lowClear == 50
    let highOff := !latch && w.sup.high && u.highClear == 50
    let low := w.sup.low && !lowOff
    let high := w.sup.high && !highOff
    let lowOn := !low && u.lowRun == 50
    let highOn := !high && u.highRun == 50
    let told (changes a b : Bool) : List Event := if changes then [.supply a b v latch] else []
    w.judgeVoltage v = { w with
      sup := { u with low := low || lowOn, high := high || highOn },
      events := w.events ++ told lowOff false w.sup.high ++ told highOff low false ++ told lowOn true high ++
        told highOn (low || lowOn) true }) ∧
  (∀ (s : State) (v : Nat), s.work.awake = true →
    let w := s.work
    let judged (x : Supply) : Result := .next (finish s (Work.judgeVoltage
      { w with pins := (w.showSupply (rawOf v)).pins, sup := { x with window := List.replicate 8 v } } v) none)
    exec (.supplyFlagSet .low v) s = judged { w.sup with lowRun := max 49 w.sup.lowRun } ∧
    exec (.supplyFlagSet .high v) s = judged { w.sup with highRun := max 49 w.sup.highRun } ∧
    exec (.supplyFlagClear .low v) s = judged { w.sup with lowClear := max 49 w.sup.lowClear } ∧
    exec (.supplyFlagClear .high v) s = judged { w.sup with highClear := max 49 w.sup.highClear }) ∧
  ∀ (s : State) (v : Nat), s.work.awake = true →
    let w := s.work
    let low := w.profN 0x0600
    let high := w.profN 0x0602
    let u : Supply := { w.sup with window := List.replicate 8 v, voltage := v }
    let next (side : SupplySide) (sets : Bool) (x : Supply) (low high latch : Bool) : Prop :=
      exec (if sets then .supplyFlagSet side v else .supplyFlagClear side v) s = .next (finish s
        (({ w with pins := (w.showSupply (rawOf v)).pins, sup := x } : Work).emit (.supply low high v latch)) none)
    (w.sup.low = false → w.sup.high = false → v < low → v ≤ high →
      ∃ k, next .low true { u with low := true, lowRun := 50, highRun := 0, lowClear := 0, highClear := k } true false
        (w.prof 0x0604 == 1)) ∧
    (w.sup.low = false → w.sup.high = false → high < v → low ≤ v →
      ∃ k, next .high true { u with high := true, lowRun := 0, highRun := 50, lowClear := k, highClear := 0 } false true
        (w.prof 0x0604 == 1)) ∧
    (w.sup.low = true → w.sup.high = false → w.prof 0x0604 ≠ 1 → w.lowRestart ≤ v → v ≤ high →
      ∃ k, next .low false { u with low := false, lowRun := 0, highRun := 0, lowClear := 50, highClear := k } false false
        false) ∧
    (w.sup.low = false → w.sup.high = true → w.prof 0x0604 ≠ 1 → v ≤ w.highRestart → low ≤ v → v ≤ high →
      ∃ k, next .high false { u with high := false, lowRun := 0, highRun := 0, lowClear := k, highClear := 50 } false false
        false)

/-- The bus detector trips on the 20th millisecond above the limit and stops everything admitted or queued, with
BUS_OVERCURRENT; it re-arms on the 20th at or below. The maximum wait of a queued entry removes it. -/
def Obligations.BusTripAndMaximumWait : Prop :=
  ∀ (s : State) (sum : Nat), s.work.awake = true →
    let w := s.work
    (w.power = .active → w.sup.tripped = false → 10 * w.profN 0x0605 < sum →
      let z : Work := { w with sup := { w.sup with busSum := sum, tripped := true, busRun := 0 } }
      let z := (allMovers.foldl (fun z m => z.haltMover m .overcurrentBus) z).dropRetract .overcurrentBus
      exec (.busOvercurrentTrip sum) s = .next (finish s
        ((if z.lvl.phase ≠ .idle then z.endLevel .overcurrent false else z.endActivity .overcurrent false).emit
          (.busOvercurrent sum
            (if z.lvl.phase ≠ .idle then z.endLevel .overcurrent false else z.endActivity .overcurrent false).hyd.current))
        none)) ∧
    (w.power = .active → w.sup.tripped = true → sum ≤ 10 * w.profN 0x0605 →
      exec (.busDetectorRearm sum) s = .next (finish s
        { w with sup := { w.sup with busSum := sum, tripped := false, busRun := 0 } } none)) ∧
    (∀ (m : MoverId) (q : Queued), (w.bud.queue.find? fun e => e.target == moverTarget m) = some q →
      exec (.queueMaxWait (moverTarget m)) s = .next (finish s
        ((w.notBefore q.waitEnd).removeQueued m .budgetTimeout) none)) ∧
    (∀ q : Queued, (w.bud.queue.find? fun e => e.target == hydTarget) = some q →
      let z := w.notBefore q.waitEnd
      exec (.queueMaxWait hydTarget) s = .next (finish s
        (if w.lvl.phase ≠ .idle then z.endLevel .budgetTimeout false else z.endActivity .budgetTimeout false) none))

/-- A debounced change of a coach input takes its level, at which its pin is left (log 6), returns the part from STANDBY for
IGN, PBRK and a WAKE that becomes asserted, and is the trigger of a TRAVEL retract for IGN, whose outcome WindGateAndLockout
gives; the speed gate, its count held at 65535 (log 30), and the SLOW half follow their rules. A gate below the threshold raises
the below run also while the moving flag is clear: the text of R153 against gate 1 of its table, the model's choice (log 43). -/
def Obligations.CoachInputsSpeedAndAlert : Prop :=
  ∀ (s : State), s.work.awake = true →
    let w := s.work
    (∀ (i : CoachInput) (b : Bool), (w.inputs.get i).settled = true → (w.inputs.get i).level ≠ b →
      let z : Work := { w with inputs := w.inputs.put i { settled := true, level := b, cand := b, count := 0 },
                               pins := w.pins.putCoach i b }
      let y := if i = .ign ∨ i = .pbrk ∨ (i = .wake ∧ b = true) then z.toActive else z
      exec (.coachInputChange i b) s = .next (finish s
        (if i = .ign ∧ b = true ∧ w.prof 0x0501 = 1 then (y.retractTrigger .travel).1 else y) none)) ∧
    (∀ n : Nat,
      let now' := max w.now (w.speed.gateEnd.getD 0)
      let limit := (w.coach 0x0143).toNat
      let u : Speed := { w.speed with count := 0, last := min 65535 n, gateEnd := some (now' + 1000000) }
      (limit ≤ n → exec (.speedGate n) s = .next (finish s
        { w with now := now', speed := { u with moving := true, below := 0 } } none)) ∧
      (n < limit → 1 ≤ w.speed.below → exec (.speedGate n) s = .next (finish s
        { w with now := now', speed := { u with moving := false, below := 0 } } none)) ∧
      (n < limit → w.speed.below = 0 → exec (.speedGate n) s = .next (finish s
        { w with now := now', speed := { u with below := 1 } } none))) ∧
    (∀ t, s.ready.alert = .slow → s.ready.alertAt = some t →
      let now' := max w.now (t + 500000)
      exec .alertSlowToggle s = .next { s with
        work := { w with now := now' },
        ready := { s.ready with alertHigh := !s.ready.alertHigh, alertAt := some now' } })
end

