-- ==== Sys2Proof/Laws/State.lean ====
section
/-! SUPPORT. One lemma per field per update: what each named update of `Work` and `State` leaves as it was. -/

namespace Sys2Proof.Machine

set_option Elab.async false

/-! ## setCh -/

@[simp] theorem Work.setCh_now (w : Work) (c : ChanId) (x : Channel) : (w.setCh c x).now = w.now := rfl
@[simp] theorem Work.setCh_resetAt (w : Work) (c : ChanId) (x : Channel) : (w.setCh c x).resetAt = w.resetAt := rfl
@[simp] theorem Work.setCh_loadAt (w : Work) (c : ChanId) (x : Channel) : (w.setCh c x).loadAt = w.loadAt := rfl
@[simp] theorem Work.setCh_stage (w : Work) (c : ChanId) (x : Channel) : (w.setCh c x).stage = w.stage := rfl
@[simp] theorem Work.setCh_mode (w : Work) (c : ChanId) (x : Channel) : (w.setCh c x).mode = w.mode := rfl
@[simp] theorem Work.setCh_service (w : Work) (c : ChanId) (x : Channel) : (w.setCh c x).service = w.service := rfl
@[simp] theorem Work.setCh_resetCause (w : Work) (c : ChanId) (x : Channel) : (w.setCh c x).resetCause = w.resetCause := rfl
@[simp] theorem Work.setCh_power (w : Work) (c : ChanId) (x : Channel) : (w.setCh c x).power = w.power := rfl
@[simp] theorem Work.setCh_wakeCauses (w : Work) (c : ChanId) (x : Channel) : (w.setCh c x).wakeCauses = w.wakeCauses := rfl
@[simp] theorem Work.setCh_dormantAt (w : Work) (c : ChanId) (x : Channel) : (w.setCh c x).dormantAt = w.dormantAt := rfl
@[simp] theorem Work.setCh_returnedAt (w : Work) (c : ChanId) (x : Channel) : (w.setCh c x).returnedAt = w.returnedAt := rfl
@[simp] theorem Work.setCh_wakePrev (w : Work) (c : ChanId) (x : Channel) : (w.setCh c x).wakePrev = w.wakePrev := rfl
@[simp] theorem Work.setCh_movers (w : Work) (c : ChanId) (x : Channel) : (w.setCh c x).movers = w.movers := rfl
@[simp] theorem Work.setCh_hyd (w : Work) (c : ChanId) (x : Channel) : (w.setCh c x).hyd = w.hyd := rfl
@[simp] theorem Work.setCh_jacks (w : Work) (c : ChanId) (x : Channel) : (w.setCh c x).jacks = w.jacks := rfl
@[simp] theorem Work.setCh_tilt (w : Work) (c : ChanId) (x : Channel) : (w.setCh c x).tilt = w.tilt := rfl
@[simp] theorem Work.setCh_lvl (w : Work) (c : ChanId) (x : Channel) : (w.setCh c x).lvl = w.lvl := rfl
@[simp] theorem Work.setCh_wind (w : Work) (c : ChanId) (x : Channel) : (w.setCh c x).wind = w.wind := rfl
@[simp] theorem Work.setCh_sup (w : Work) (c : ChanId) (x : Channel) : (w.setCh c x).sup = w.sup := rfl
@[simp] theorem Work.setCh_bud (w : Work) (c : ChanId) (x : Channel) : (w.setCh c x).bud = w.bud := rfl
@[simp] theorem Work.setCh_inputs (w : Work) (c : ChanId) (x : Channel) : (w.setCh c x).inputs = w.inputs := rfl
@[simp] theorem Work.setCh_speed (w : Work) (c : ChanId) (x : Channel) : (w.setCh c x).speed = w.speed := rfl
@[simp] theorem Work.setCh_inh (w : Work) (c : ChanId) (x : Channel) : (w.setCh c x).inh = w.inh := rfl
@[simp] theorem Work.setCh_link (w : Work) (c : ChanId) (x : Channel) : (w.setCh c x).link = w.link := rfl
@[simp] theorem Work.setCh_store (w : Work) (c : ChanId) (x : Channel) : (w.setCh c x).store = w.store := rfl
@[simp] theorem Work.setCh_pins (w : Work) (c : ChanId) (x : Channel) : (w.setCh c x).pins = w.pins := rfl
@[simp] theorem Work.setCh_events (w : Work) (c : ChanId) (x : Channel) : (w.setCh c x).events = w.events := rfl
@[simp] theorem Work.setCh_headDue (w : Work) (c : ChanId) (x : Channel) : (w.setCh c x).headDue = w.headDue := rfl
@[simp] theorem Work.setCh_serial (w : Work) (c : ChanId) (x : Channel) : (w.setCh c x).serial = w.serial := rfl
@[simp] theorem Work.setCh_free (w : Work) (c : ChanId) (x : Channel) : (w.setCh c x).free = w.free := rfl

/-! ## setMv -/

@[simp] theorem Work.setMv_now (w : Work) (m : MoverId) (x : Mover) : (w.setMv m x).now = w.now := rfl
@[simp] theorem Work.setMv_resetAt (w : Work) (m : MoverId) (x : Mover) : (w.setMv m x).resetAt = w.resetAt := rfl
@[simp] theorem Work.setMv_loadAt (w : Work) (m : MoverId) (x : Mover) : (w.setMv m x).loadAt = w.loadAt := rfl
@[simp] theorem Work.setMv_stage (w : Work) (m : MoverId) (x : Mover) : (w.setMv m x).stage = w.stage := rfl
@[simp] theorem Work.setMv_mode (w : Work) (m : MoverId) (x : Mover) : (w.setMv m x).mode = w.mode := rfl
@[simp] theorem Work.setMv_service (w : Work) (m : MoverId) (x : Mover) : (w.setMv m x).service = w.service := rfl
@[simp] theorem Work.setMv_resetCause (w : Work) (m : MoverId) (x : Mover) : (w.setMv m x).resetCause = w.resetCause := rfl
@[simp] theorem Work.setMv_power (w : Work) (m : MoverId) (x : Mover) : (w.setMv m x).power = w.power := rfl
@[simp] theorem Work.setMv_wakeCauses (w : Work) (m : MoverId) (x : Mover) : (w.setMv m x).wakeCauses = w.wakeCauses := rfl
@[simp] theorem Work.setMv_dormantAt (w : Work) (m : MoverId) (x : Mover) : (w.setMv m x).dormantAt = w.dormantAt := rfl
@[simp] theorem Work.setMv_returnedAt (w : Work) (m : MoverId) (x : Mover) : (w.setMv m x).returnedAt = w.returnedAt := rfl
@[simp] theorem Work.setMv_wakePrev (w : Work) (m : MoverId) (x : Mover) : (w.setMv m x).wakePrev = w.wakePrev := rfl
@[simp] theorem Work.setMv_chans (w : Work) (m : MoverId) (x : Mover) : (w.setMv m x).chans = w.chans := rfl
@[simp] theorem Work.setMv_hyd (w : Work) (m : MoverId) (x : Mover) : (w.setMv m x).hyd = w.hyd := rfl
@[simp] theorem Work.setMv_jacks (w : Work) (m : MoverId) (x : Mover) : (w.setMv m x).jacks = w.jacks := rfl
@[simp] theorem Work.setMv_tilt (w : Work) (m : MoverId) (x : Mover) : (w.setMv m x).tilt = w.tilt := rfl
@[simp] theorem Work.setMv_lvl (w : Work) (m : MoverId) (x : Mover) : (w.setMv m x).lvl = w.lvl := rfl
@[simp] theorem Work.setMv_wind (w : Work) (m : MoverId) (x : Mover) : (w.setMv m x).wind = w.wind := rfl
@[simp] theorem Work.setMv_sup (w : Work) (m : MoverId) (x : Mover) : (w.setMv m x).sup = w.sup := rfl
@[simp] theorem Work.setMv_bud (w : Work) (m : MoverId) (x : Mover) : (w.setMv m x).bud = w.bud := rfl
@[simp] theorem Work.setMv_inputs (w : Work) (m : MoverId) (x : Mover) : (w.setMv m x).inputs = w.inputs := rfl
@[simp] theorem Work.setMv_speed (w : Work) (m : MoverId) (x : Mover) : (w.setMv m x).speed = w.speed := rfl
@[simp] theorem Work.setMv_inh (w : Work) (m : MoverId) (x : Mover) : (w.setMv m x).inh = w.inh := rfl
@[simp] theorem Work.setMv_link (w : Work) (m : MoverId) (x : Mover) : (w.setMv m x).link = w.link := rfl
@[simp] theorem Work.setMv_store (w : Work) (m : MoverId) (x : Mover) : (w.setMv m x).store = w.store := rfl
@[simp] theorem Work.setMv_pins (w : Work) (m : MoverId) (x : Mover) : (w.setMv m x).pins = w.pins := rfl
@[simp] theorem Work.setMv_events (w : Work) (m : MoverId) (x : Mover) : (w.setMv m x).events = w.events := rfl
@[simp] theorem Work.setMv_headDue (w : Work) (m : MoverId) (x : Mover) : (w.setMv m x).headDue = w.headDue := rfl
@[simp] theorem Work.setMv_serial (w : Work) (m : MoverId) (x : Mover) : (w.setMv m x).serial = w.serial := rfl
@[simp] theorem Work.setMv_free (w : Work) (m : MoverId) (x : Mover) : (w.setMv m x).free = w.free := rfl

/-! ## setJk -/

@[simp] theorem Work.setJk_now (w : Work) (j : JackId) (x : Jack) : (w.setJk j x).now = w.now := rfl
@[simp] theorem Work.setJk_resetAt (w : Work) (j : JackId) (x : Jack) : (w.setJk j x).resetAt = w.resetAt := rfl
@[simp] theorem Work.setJk_loadAt (w : Work) (j : JackId) (x : Jack) : (w.setJk j x).loadAt = w.loadAt := rfl
@[simp] theorem Work.setJk_stage (w : Work) (j : JackId) (x : Jack) : (w.setJk j x).stage = w.stage := rfl
@[simp] theorem Work.setJk_mode (w : Work) (j : JackId) (x : Jack) : (w.setJk j x).mode = w.mode := rfl
@[simp] theorem Work.setJk_service (w : Work) (j : JackId) (x : Jack) : (w.setJk j x).service = w.service := rfl
@[simp] theorem Work.setJk_resetCause (w : Work) (j : JackId) (x : Jack) : (w.setJk j x).resetCause = w.resetCause := rfl
@[simp] theorem Work.setJk_power (w : Work) (j : JackId) (x : Jack) : (w.setJk j x).power = w.power := rfl
@[simp] theorem Work.setJk_wakeCauses (w : Work) (j : JackId) (x : Jack) : (w.setJk j x).wakeCauses = w.wakeCauses := rfl
@[simp] theorem Work.setJk_dormantAt (w : Work) (j : JackId) (x : Jack) : (w.setJk j x).dormantAt = w.dormantAt := rfl
@[simp] theorem Work.setJk_returnedAt (w : Work) (j : JackId) (x : Jack) : (w.setJk j x).returnedAt = w.returnedAt := rfl
@[simp] theorem Work.setJk_wakePrev (w : Work) (j : JackId) (x : Jack) : (w.setJk j x).wakePrev = w.wakePrev := rfl
@[simp] theorem Work.setJk_chans (w : Work) (j : JackId) (x : Jack) : (w.setJk j x).chans = w.chans := rfl
@[simp] theorem Work.setJk_movers (w : Work) (j : JackId) (x : Jack) : (w.setJk j x).movers = w.movers := rfl
@[simp] theorem Work.setJk_hyd (w : Work) (j : JackId) (x : Jack) : (w.setJk j x).hyd = w.hyd := rfl
@[simp] theorem Work.setJk_tilt (w : Work) (j : JackId) (x : Jack) : (w.setJk j x).tilt = w.tilt := rfl
@[simp] theorem Work.setJk_lvl (w : Work) (j : JackId) (x : Jack) : (w.setJk j x).lvl = w.lvl := rfl
@[simp] theorem Work.setJk_wind (w : Work) (j : JackId) (x : Jack) : (w.setJk j x).wind = w.wind := rfl
@[simp] theorem Work.setJk_sup (w : Work) (j : JackId) (x : Jack) : (w.setJk j x).sup = w.sup := rfl
@[simp] theorem Work.setJk_bud (w : Work) (j : JackId) (x : Jack) : (w.setJk j x).bud = w.bud := rfl
@[simp] theorem Work.setJk_inputs (w : Work) (j : JackId) (x : Jack) : (w.setJk j x).inputs = w.inputs := rfl
@[simp] theorem Work.setJk_speed (w : Work) (j : JackId) (x : Jack) : (w.setJk j x).speed = w.speed := rfl
@[simp] theorem Work.setJk_inh (w : Work) (j : JackId) (x : Jack) : (w.setJk j x).inh = w.inh := rfl
@[simp] theorem Work.setJk_link (w : Work) (j : JackId) (x : Jack) : (w.setJk j x).link = w.link := rfl
@[simp] theorem Work.setJk_store (w : Work) (j : JackId) (x : Jack) : (w.setJk j x).store = w.store := rfl
@[simp] theorem Work.setJk_pins (w : Work) (j : JackId) (x : Jack) : (w.setJk j x).pins = w.pins := rfl
@[simp] theorem Work.setJk_events (w : Work) (j : JackId) (x : Jack) : (w.setJk j x).events = w.events := rfl
@[simp] theorem Work.setJk_headDue (w : Work) (j : JackId) (x : Jack) : (w.setJk j x).headDue = w.headDue := rfl
@[simp] theorem Work.setJk_serial (w : Work) (j : JackId) (x : Jack) : (w.setJk j x).serial = w.serial := rfl
@[simp] theorem Work.setJk_free (w : Work) (j : JackId) (x : Jack) : (w.setJk j x).free = w.free := rfl

/-! ## emit -/

@[simp] theorem Work.emit_now (w : Work) (e : Event) : (w.emit e).now = w.now := rfl
@[simp] theorem Work.emit_resetAt (w : Work) (e : Event) : (w.emit e).resetAt = w.resetAt := rfl
@[simp] theorem Work.emit_loadAt (w : Work) (e : Event) : (w.emit e).loadAt = w.loadAt := rfl
@[simp] theorem Work.emit_stage (w : Work) (e : Event) : (w.emit e).stage = w.stage := rfl
@[simp] theorem Work.emit_mode (w : Work) (e : Event) : (w.emit e).mode = w.mode := rfl
@[simp] theorem Work.emit_service (w : Work) (e : Event) : (w.emit e).service = w.service := rfl
@[simp] theorem Work.emit_resetCause (w : Work) (e : Event) : (w.emit e).resetCause = w.resetCause := rfl
@[simp] theorem Work.emit_power (w : Work) (e : Event) : (w.emit e).power = w.power := rfl
@[simp] theorem Work.emit_wakeCauses (w : Work) (e : Event) : (w.emit e).wakeCauses = w.wakeCauses := rfl
@[simp] theorem Work.emit_dormantAt (w : Work) (e : Event) : (w.emit e).dormantAt = w.dormantAt := rfl
@[simp] theorem Work.emit_returnedAt (w : Work) (e : Event) : (w.emit e).returnedAt = w.returnedAt := rfl
@[simp] theorem Work.emit_wakePrev (w : Work) (e : Event) : (w.emit e).wakePrev = w.wakePrev := rfl
@[simp] theorem Work.emit_chans (w : Work) (e : Event) : (w.emit e).chans = w.chans := rfl
@[simp] theorem Work.emit_movers (w : Work) (e : Event) : (w.emit e).movers = w.movers := rfl
@[simp] theorem Work.emit_hyd (w : Work) (e : Event) : (w.emit e).hyd = w.hyd := rfl
@[simp] theorem Work.emit_jacks (w : Work) (e : Event) : (w.emit e).jacks = w.jacks := rfl
@[simp] theorem Work.emit_tilt (w : Work) (e : Event) : (w.emit e).tilt = w.tilt := rfl
@[simp] theorem Work.emit_lvl (w : Work) (e : Event) : (w.emit e).lvl = w.lvl := rfl
@[simp] theorem Work.emit_wind (w : Work) (e : Event) : (w.emit e).wind = w.wind := rfl
@[simp] theorem Work.emit_sup (w : Work) (e : Event) : (w.emit e).sup = w.sup := rfl
@[simp] theorem Work.emit_bud (w : Work) (e : Event) : (w.emit e).bud = w.bud := rfl
@[simp] theorem Work.emit_inputs (w : Work) (e : Event) : (w.emit e).inputs = w.inputs := rfl
@[simp] theorem Work.emit_speed (w : Work) (e : Event) : (w.emit e).speed = w.speed := rfl
@[simp] theorem Work.emit_inh (w : Work) (e : Event) : (w.emit e).inh = w.inh := rfl
@[simp] theorem Work.emit_link (w : Work) (e : Event) : (w.emit e).link = w.link := rfl
@[simp] theorem Work.emit_store (w : Work) (e : Event) : (w.emit e).store = w.store := rfl
@[simp] theorem Work.emit_pins (w : Work) (e : Event) : (w.emit e).pins = w.pins := rfl
@[simp] theorem Work.emit_headDue (w : Work) (e : Event) : (w.emit e).headDue = w.headDue := rfl
@[simp] theorem Work.emit_serial (w : Work) (e : Event) : (w.emit e).serial = w.serial := rfl
@[simp] theorem Work.emit_free (w : Work) (e : Event) : (w.emit e).free = w.free := rfl

/-! ## notBefore -/

@[simp] theorem Work.notBefore_resetAt (w : Work) (t : Time) : (w.notBefore t).resetAt = w.resetAt := rfl
@[simp] theorem Work.notBefore_loadAt (w : Work) (t : Time) : (w.notBefore t).loadAt = w.loadAt := rfl
@[simp] theorem Work.notBefore_stage (w : Work) (t : Time) : (w.notBefore t).stage = w.stage := rfl
@[simp] theorem Work.notBefore_mode (w : Work) (t : Time) : (w.notBefore t).mode = w.mode := rfl
@[simp] theorem Work.notBefore_service (w : Work) (t : Time) : (w.notBefore t).service = w.service := rfl
@[simp] theorem Work.notBefore_resetCause (w : Work) (t : Time) : (w.notBefore t).resetCause = w.resetCause := rfl
@[simp] theorem Work.notBefore_power (w : Work) (t : Time) : (w.notBefore t).power = w.power := rfl
@[simp] theorem Work.notBefore_wakeCauses (w : Work) (t : Time) : (w.notBefore t).wakeCauses = w.wakeCauses := rfl
@[simp] theorem Work.notBefore_dormantAt (w : Work) (t : Time) : (w.notBefore t).dormantAt = w.dormantAt := rfl
@[simp] theorem Work.notBefore_returnedAt (w : Work) (t : Time) : (w.notBefore t).returnedAt = w.returnedAt := rfl
@[simp] theorem Work.notBefore_wakePrev (w : Work) (t : Time) : (w.notBefore t).wakePrev = w.wakePrev := rfl
@[simp] theorem Work.notBefore_chans (w : Work) (t : Time) : (w.notBefore t).chans = w.chans := rfl
@[simp] theorem Work.notBefore_movers (w : Work) (t : Time) : (w.notBefore t).movers = w.movers := rfl
@[simp] theorem Work.notBefore_hyd (w : Work) (t : Time) : (w.notBefore t).hyd = w.hyd := rfl
@[simp] theorem Work.notBefore_jacks (w : Work) (t : Time) : (w.notBefore t).jacks = w.jacks := rfl
@[simp] theorem Work.notBefore_tilt (w : Work) (t : Time) : (w.notBefore t).tilt = w.tilt := rfl
@[simp] theorem Work.notBefore_lvl (w : Work) (t : Time) : (w.notBefore t).lvl = w.lvl := rfl
@[simp] theorem Work.notBefore_wind (w : Work) (t : Time) : (w.notBefore t).wind = w.wind := rfl
@[simp] theorem Work.notBefore_sup (w : Work) (t : Time) : (w.notBefore t).sup = w.sup := rfl
@[simp] theorem Work.notBefore_bud (w : Work) (t : Time) : (w.notBefore t).bud = w.bud := rfl
@[simp] theorem Work.notBefore_inputs (w : Work) (t : Time) : (w.notBefore t).inputs = w.inputs := rfl
@[simp] theorem Work.notBefore_speed (w : Work) (t : Time) : (w.notBefore t).speed = w.speed := rfl
@[simp] theorem Work.notBefore_inh (w : Work) (t : Time) : (w.notBefore t).inh = w.inh := rfl
@[simp] theorem Work.notBefore_link (w : Work) (t : Time) : (w.notBefore t).link = w.link := rfl
@[simp] theorem Work.notBefore_store (w : Work) (t : Time) : (w.notBefore t).store = w.store := rfl
@[simp] theorem Work.notBefore_pins (w : Work) (t : Time) : (w.notBefore t).pins = w.pins := rfl
@[simp] theorem Work.notBefore_events (w : Work) (t : Time) : (w.notBefore t).events = w.events := rfl
@[simp] theorem Work.notBefore_headDue (w : Work) (t : Time) : (w.notBefore t).headDue = w.headDue := rfl
@[simp] theorem Work.notBefore_serial (w : Work) (t : Time) : (w.notBefore t).serial = w.serial := rfl
@[simp] theorem Work.notBefore_free (w : Work) (t : Time) : (w.notBefore t).free = w.free := rfl

/-! ## setLvl -/

@[simp] theorem Work.setLvl_now (w : Work) (l : Level) : (w.setLvl l).now = w.now := rfl
@[simp] theorem Work.setLvl_resetAt (w : Work) (l : Level) : (w.setLvl l).resetAt = w.resetAt := rfl
@[simp] theorem Work.setLvl_loadAt (w : Work) (l : Level) : (w.setLvl l).loadAt = w.loadAt := rfl
@[simp] theorem Work.setLvl_stage (w : Work) (l : Level) : (w.setLvl l).stage = w.stage := rfl
@[simp] theorem Work.setLvl_mode (w : Work) (l : Level) : (w.setLvl l).mode = w.mode := rfl
@[simp] theorem Work.setLvl_service (w : Work) (l : Level) : (w.setLvl l).service = w.service := rfl
@[simp] theorem Work.setLvl_resetCause (w : Work) (l : Level) : (w.setLvl l).resetCause = w.resetCause := rfl
@[simp] theorem Work.setLvl_power (w : Work) (l : Level) : (w.setLvl l).power = w.power := rfl
@[simp] theorem Work.setLvl_wakeCauses (w : Work) (l : Level) : (w.setLvl l).wakeCauses = w.wakeCauses := rfl
@[simp] theorem Work.setLvl_dormantAt (w : Work) (l : Level) : (w.setLvl l).dormantAt = w.dormantAt := rfl
@[simp] theorem Work.setLvl_returnedAt (w : Work) (l : Level) : (w.setLvl l).returnedAt = w.returnedAt := rfl
@[simp] theorem Work.setLvl_wakePrev (w : Work) (l : Level) : (w.setLvl l).wakePrev = w.wakePrev := rfl
@[simp] theorem Work.setLvl_chans (w : Work) (l : Level) : (w.setLvl l).chans = w.chans := rfl
@[simp] theorem Work.setLvl_movers (w : Work) (l : Level) : (w.setLvl l).movers = w.movers := rfl
@[simp] theorem Work.setLvl_hyd (w : Work) (l : Level) : (w.setLvl l).hyd = w.hyd := rfl
@[simp] theorem Work.setLvl_jacks (w : Work) (l : Level) : (w.setLvl l).jacks = w.jacks := rfl
@[simp] theorem Work.setLvl_tilt (w : Work) (l : Level) : (w.setLvl l).tilt = w.tilt := rfl
@[simp] theorem Work.setLvl_wind (w : Work) (l : Level) : (w.setLvl l).wind = w.wind := rfl
@[simp] theorem Work.setLvl_sup (w : Work) (l : Level) : (w.setLvl l).sup = w.sup := rfl
@[simp] theorem Work.setLvl_bud (w : Work) (l : Level) : (w.setLvl l).bud = w.bud := rfl
@[simp] theorem Work.setLvl_inputs (w : Work) (l : Level) : (w.setLvl l).inputs = w.inputs := rfl
@[simp] theorem Work.setLvl_speed (w : Work) (l : Level) : (w.setLvl l).speed = w.speed := rfl
@[simp] theorem Work.setLvl_inh (w : Work) (l : Level) : (w.setLvl l).inh = w.inh := rfl
@[simp] theorem Work.setLvl_link (w : Work) (l : Level) : (w.setLvl l).link = w.link := rfl
@[simp] theorem Work.setLvl_store (w : Work) (l : Level) : (w.setLvl l).store = w.store := rfl
@[simp] theorem Work.setLvl_pins (w : Work) (l : Level) : (w.setLvl l).pins = w.pins := rfl
@[simp] theorem Work.setLvl_events (w : Work) (l : Level) : (w.setLvl l).events = w.events := rfl
@[simp] theorem Work.setLvl_headDue (w : Work) (l : Level) : (w.setLvl l).headDue = w.headDue := rfl
@[simp] theorem Work.setLvl_serial (w : Work) (l : Level) : (w.setLvl l).serial = w.serial := rfl
@[simp] theorem Work.setLvl_free (w : Work) (l : Level) : (w.setLvl l).free = w.free := rfl

@[simp] theorem Work.emit_events (w : Work) (e : Event) : (w.emit e).events = w.events ++ [e] := rfl
@[simp] theorem Work.notBefore_now (w : Work) (t : Time) : (w.notBefore t).now = max w.now t := rfl
@[simp] theorem Work.setLvl_lvl (w : Work) (l : Level) : (w.setLvl l).lvl = l := rfl

/-! ## One record -/

@[simp] theorem Work.ch_setCh_self (w : Work) (c : ChanId) (x : Channel) : (w.setCh c x).ch c = x := by
  simp [Work.ch, Work.setCh]

theorem Work.ch_setCh_ne (w : Work) (c d : ChanId) (x : Channel) (h : d ≠ c) : (w.setCh c x).ch d = w.ch d := by
  have h' : (c : Nat) ≠ d := fun e => h (Fin.ext e.symm)
  simp [Work.ch, Work.setCh, Vector.getElem_set_ne, h']

@[simp] theorem Work.mv_setMv_self (w : Work) (m : MoverId) (x : Mover) : (w.setMv m x).mv m = x := by
  simp [Work.mv, Work.setMv]

theorem Work.mv_setMv_ne (w : Work) (m n : MoverId) (x : Mover) (h : n ≠ m) : (w.setMv m x).mv n = w.mv n := by
  have h' : (m : Nat) ≠ n := fun e => h (Fin.ext e.symm)
  simp [Work.mv, Work.setMv, Vector.getElem_set_ne, h']

@[simp] theorem Work.jk_setJk_self (w : Work) (j : JackId) (x : Jack) : (w.setJk j x).jk j = x := by
  simp [Work.jk, Work.setJk]

theorem Work.jk_setJk_ne (w : Work) (j k : JackId) (x : Jack) (h : k ≠ j) : (w.setJk j x).jk k = w.jk k := by
  have h' : (j : Nat) ≠ k := fun e => h (Fin.ext e.symm)
  simp [Work.jk, Work.setJk, Vector.getElem_set_ne, h']

@[simp] theorem Work.ch_setMv (w : Work) (m : MoverId) (x : Mover) (d : ChanId) : (w.setMv m x).ch d = w.ch d := rfl
@[simp] theorem Work.ch_setJk (w : Work) (j : JackId) (x : Jack) (d : ChanId) : (w.setJk j x).ch d = w.ch d := rfl
@[simp] theorem Work.ch_emit (w : Work) (e : Event) (d : ChanId) : (w.emit e).ch d = w.ch d := rfl
@[simp] theorem Work.ch_notBefore (w : Work) (t : Time) (d : ChanId) : (w.notBefore t).ch d = w.ch d := rfl
@[simp] theorem Work.ch_setLvl (w : Work) (l : Level) (d : ChanId) : (w.setLvl l).ch d = w.ch d := rfl
@[simp] theorem Work.mv_setCh (w : Work) (c : ChanId) (x : Channel) (n : MoverId) : (w.setCh c x).mv n = w.mv n := rfl
@[simp] theorem Work.mv_setJk (w : Work) (j : JackId) (x : Jack) (n : MoverId) : (w.setJk j x).mv n = w.mv n := rfl
@[simp] theorem Work.mv_emit (w : Work) (e : Event) (n : MoverId) : (w.emit e).mv n = w.mv n := rfl
@[simp] theorem Work.mv_notBefore (w : Work) (t : Time) (n : MoverId) : (w.notBefore t).mv n = w.mv n := rfl
@[simp] theorem Work.mv_setLvl (w : Work) (l : Level) (n : MoverId) : (w.setLvl l).mv n = w.mv n := rfl
@[simp] theorem Work.jk_setCh (w : Work) (c : ChanId) (x : Channel) (k : JackId) : (w.setCh c x).jk k = w.jk k := rfl
@[simp] theorem Work.jk_setMv (w : Work) (m : MoverId) (x : Mover) (k : JackId) : (w.setMv m x).jk k = w.jk k := rfl
@[simp] theorem Work.jk_emit (w : Work) (e : Event) (k : JackId) : (w.emit e).jk k = w.jk k := rfl
@[simp] theorem Work.jk_notBefore (w : Work) (t : Time) (k : JackId) : (w.notBefore t).jk k = w.jk k := rfl
@[simp] theorem Work.jk_setLvl (w : Work) (l : Level) (k : JackId) : (w.setLvl l).jk k = w.jk k := rfl

/-! ## The part -/

@[simp] theorem State.overrun_work (s : State) : s.overrun.work = s.work := rfl
@[simp] theorem State.overrun_ready (s : State) : s.overrun.ready = s.ready := rfl
@[simp] theorem State.overrun_pending (s : State) : s.overrun.pending = s.pending := rfl
@[simp] theorem State.overrun_outq (s : State) : s.overrun.port.outq = s.port.outq := rfl
@[simp] theorem State.toActive_work (s : State) : s.toActive.work = s.work.toActive := rfl
@[simp] theorem State.toActive_port (s : State) : s.toActive.port = s.port := rfl
@[simp] theorem State.toActive_ready (s : State) : s.toActive.ready = s.ready := rfl
@[simp] theorem State.toActive_pending (s : State) : s.toActive.pending = s.pending := rfl
@[simp] theorem State.deliver_ready (s : State) : s.deliver.ready = s.ready := rfl
@[simp] theorem State.deliver_pending (s : State) : s.deliver.pending = s.pending := rfl
@[simp] theorem State.deliver_events (s : State) : s.deliver.work.events = [] := rfl

end Sys2Proof.Machine
end

