-- ==== Sys2Proof/Laws/Blocks.lean ====
section
/-! SUPPORT. What the operations on jack sets, on the entry to SETTLING and on the supply flags answer: one lemma an operation. -/

namespace Sys2Proof.Machine

set_option Elab.async false

/-! ## Jack sets -/

theorem mem_allJacks (j : JackId) : j ∈ allJacks := by revert j; decide

theorem JackSet.eq_of_has {s t : JackSet} (h : ∀ j : JackId, s.has j = t.has j) : s = t :=
  Vector.ext fun i hi => h ⟨i, hi⟩

@[simp] theorem JackSet.has_noJacks (j : JackId) : noJacks.has j = false := by revert j; decide

@[simp] theorem JackSet.has_jacksWhere (p : JackId → Bool) (j : JackId) : (jacksWhere p).has j = p j := by
  match j with
  | 0 | 1 | 2 | 3 | 4 | 5 => rfl

@[simp] theorem JackSet.has_inter (s t : JackSet) (j : JackId) : (s.inter t).has j = (s.has j && t.has j) :=
  JackSet.has_jacksWhere _ j

theorem JackSet.inter_of_subset {s t : JackSet} (h : ∀ j, s.has j = true → t.has j = true) : s.inter t = s := by
  refine JackSet.eq_of_has fun j => ?_
  rw [JackSet.has_inter]
  cases hs : s.has j
  · rfl
  · rw [h j hs]; rfl

theorem JackSet.isEmpty_iff (s : JackSet) : s.isEmpty = true ↔ ∀ j, s.has j = false := by
  simp only [JackSet.isEmpty, List.all_eq_true, Bool.not_eq_true']
  exact ⟨fun h j => h j (mem_allJacks j), fun h j _ => h j⟩

/-! ## The entry to SETTLING (R113) -/

/-- From a RUNNING pump it is the pump stop, with nothing open and the settle time begun. -/
theorem Work.enterSettling_of_running {w : Work} {a : HydActivity} {t : Time} (ha : w.hyd.activity = some a)
    (hp : w.hyd.pump = .running) (ht : w.hyd.runStart = some t) :
    w.enterSettling = { w with
      hyd := { w.hyd with pump := .dwell, dwellEnd := some (w.now + Config.pumpDwell), runStart := none,
                          runHeld := w.now - t, activity := some { a with openSet := noJacks, phase := .idlePump } },
      bud := { w.bud with admitted := w.bud.admitted.filter fun e => e.target != hydTarget }, headDue := true,
      lvl := { w.lvl with phase := .settling, settleTest := some .waiting, deadline := some (w.now + w.settleTime) },
      events := w.events ++ [.levelPhase .settling w.lvl.mode w.lvl.pass] } := by
  have h : noJacks.inter a.jackSet = noJacks := JackSet.inter_of_subset fun j hj => by simp at hj
  simp [Work.enterSettling, Work.pumpStop, Work.release, Work.setActPhase, Work.enterPhase, Work.setLvl, Work.emit,
    Work.setOpen, ha, hp, ht, h, Work.settleTime, Work.profN, Work.prof]

/-! ## The supply flags (R139) -/

/-- A flag takes the level, and a change raises one event. -/
theorem Work.setLow_eq (w : Work) (b : Bool) : w.setLow b = { w with
    sup := { w.sup with low := b },
    events := w.events ++ if w.sup.low = b then [] else [.supply b w.sup.high w.sup.voltage w.latchPolicy] } := by
  unfold Work.setLow
  split
  · next h => subst h; simp
  · rfl

theorem Work.setHigh_eq (w : Work) (b : Bool) : w.setHigh b = { w with
    sup := { w.sup with high := b },
    events := w.events ++ if w.sup.high = b then [] else [.supply w.sup.low b w.sup.voltage w.latchPolicy] } := by
  unfold Work.setHigh
  split
  · next h => subst h; simp
  · rfl

end Sys2Proof.Machine
end

