-- ==== Sys2Proof/Laws/Port.lean ====
section
/-! SUPPORT. What the port does with replies and events (R179, R181, R182): one lemma per operation. -/

namespace Sys2Proof.Machine

set_option Elab.async false

/-- The parts of the port that neither a reply nor an event touches. -/
def Port.rest (p : Port) : BitVec 16 × Option Time × Bool × Option Frame × Bool × List Byte × Nat :=
  (p.mask, p.linkAt, p.selected, p.shift, p.wakeSel, p.inbound, p.inCount)

/-- An event leaves the queue as it was, or appends its report when at most 13 frames wait. -/
theorem Port.take_outq (p : Port) (e : Event) :
    (p.take e).outq = p.outq ∨ ((p.take e).outq = p.outq ++ [e.frame] ∧ p.outq.length ≤ Config.reportRoom) := by
  simp only [Port.take]
  split
  · exact Or.inl rfl
  · split
    · exact Or.inr ⟨rfl, by assumption⟩
    · exact Or.inl rfl

@[simp] theorem Port.take_rest (p : Port) (e : Event) : (p.take e).rest = p.rest := by
  simp only [Port.take]; split <;> [rfl; (split <;> rfl)]

/-- The bit of the event's class is set; only REPORT_LOST may be set with it. -/
theorem Port.take_attn (p : Port) (e : Event) :
    (p.take e).attn = p.attn ||| e.bit ∨ (p.take e).attn = p.attn ||| e.bit ||| attnReportLost := by
  simp only [Port.take]; split <;> [exact Or.inl rfl; (split <;> [exact Or.inl rfl; exact Or.inr rfl])]

@[simp] theorem Port.takeAll_nil (p : Port) : p.takeAll [] = p := rfl
theorem Port.takeAll_cons (p : Port) (e : Event) (es : List Event) : p.takeAll (e :: es) = (p.take e).takeAll es := rfl

@[simp] theorem Port.takeAll_rest (p : Port) (es : List Event) : (p.takeAll es).rest = p.rest := by
  induction es generalizing p with
  | nil => rfl
  | cons e es ih => rw [Port.takeAll_cons, ih, Port.take_rest]

/-- Frames are never reordered, merged or replaced: what waited stays in front (R181). -/
theorem Port.takeAll_prefix (p : Port) (es : List Event) : p.outq <+: (p.takeAll es).outq := by
  induction es generalizing p with
  | nil => exact List.prefix_refl _
  | cons e es ih =>
    rw [Port.takeAll_cons]
    refine List.IsPrefix.trans ?_ (ih _)
    rcases p.take_outq e with h | h
    · rw [h]
    · rw [h.1]; exact List.prefix_append _ _

/-- Reports fill the queue to at most 14 frames (R181). -/
theorem Port.takeAll_length (p : Port) (es : List Event) : (p.takeAll es).outq.length ≤ max p.outq.length 14 := by
  induction es generalizing p with
  | nil => exact Nat.le_max_left _ _
  | cons e es ih =>
    rw [Port.takeAll_cons]
    refine Nat.le_trans (ih _) ?_
    rcases p.take_outq e with h | ⟨h, hl⟩
    · rw [h]
    · have : Config.reportRoom = 13 := rfl
      rw [h, List.length_append]; simp; omega

@[simp] theorem Port.push_outq (p : Port) (f : Frame) : (p.push f).outq = p.outq ++ [f] := rfl
@[simp] theorem Port.push_attn (p : Port) (f : Frame) : (p.push f).attn = p.attn := rfl
@[simp] theorem Port.push_rest (p : Port) (f : Frame) : (p.push f).rest = p.rest := rfl

@[simp] theorem Port.deliver_rest (p : Port) (r : Option Frame) (es : List Event) : (p.deliver r es).rest = p.rest := by
  cases r <;> simp [Port.deliver]

/-- The reply stands in front of the reports of the same command (R179). -/
theorem Port.deliver_prefix (p : Port) (r : Option Frame) (es : List Event) :
    p.outq ++ r.toList <+: (p.deliver r es).outq := by
  cases r with
  | none => simpa [Port.deliver] using p.takeAll_prefix es
  | some f => simpa [Port.deliver] using (p.push f).takeAll_prefix es

theorem Port.deliver_length (p : Port) (r : Option Frame) (es : List Event) :
    (p.deliver r es).outq.length ≤ max (p.outq.length + r.toList.length) 14 := by
  cases r with
  | none => simpa [Port.deliver] using p.takeAll_length es
  | some f => simpa [Port.deliver] using (p.push f).takeAll_length es

end Sys2Proof.Machine
end

