-- ==== Sys2Proof/Laws/Still.lean ====
section
/-! SUPPORT. What the work on claims, motions, locks, the pump and the admission queue never touches: the clock, mode and
power, the coach inputs, the Supply Monitor, the Wind Watch, the Tilt Filter, the profile and the storage. One lemma an
operation, and with them the same for the settling of a command. -/

namespace Sys2Proof.Machine

set_option Elab.async false

/-- The parts of the state that only their own commands change. -/
structure Still where
  now : Time
  resetAt : Time
  loadAt : Time
  stage : Stage
  mode : Mode
  service : Bool
  resetCause : ResetCause
  power : Power
  wakeCauses : BitVec 5
  dormantAt : Option Time
  wakePrev : Option (BitVec 14)
  tilt : Tilt
  wind : Wind
  sup : Supply
  inputs : CoachInputs
  speed : Speed
  link : BitVec 4
  working : Profile
  coach : Profile
  sections : Vector (Option Record) 6
  learnedRec : Option Record
  checkpoints : Vector (Option Record) 8
  note : BitVec 7
  pins : Pins
  free : Nat

def Work.still (w : Work) : Still :=
  { now := w.now, resetAt := w.resetAt, loadAt := w.loadAt, stage := w.stage, mode := w.mode, service := w.service,
    resetCause := w.resetCause, power := w.power, wakeCauses := w.wakeCauses, dormantAt := w.dormantAt,
    wakePrev := w.wakePrev, tilt := w.tilt, wind := w.wind, sup := w.sup, inputs := w.inputs, speed := w.speed,
    link := w.link, working := w.store.working, coach := w.store.coach, sections := w.store.sections,
    learnedRec := w.store.learnedRec, checkpoints := w.store.checkpoints, note := w.store.note, pins := w.pins,
    free := w.free }

theorem foldl_still {α : Type} (l : List α) (f : Work → α → Work) (h : ∀ w x, (f w x).still = w.still) (w : Work) :
    (l.foldl f w).still = w.still := by
  induction l generalizing w with
  | nil => rfl
  | cons a l ih => rw [List.foldl_cons, ih, h]

@[simp] theorem Work.setCh_still (w : Work) (c : ChanId) (x : Channel) : (w.setCh c x).still = w.still := rfl
@[simp] theorem Work.setMv_still (w : Work) (m : MoverId) (x : Mover) : (w.setMv m x).still = w.still := rfl
@[simp] theorem Work.setJk_still (w : Work) (j : JackId) (x : Jack) : (w.setJk j x).still = w.still := rfl
@[simp] theorem Work.emit_still (w : Work) (e : Event) : (w.emit e).still = w.still := rfl
@[simp] theorem Work.setLvl_still (w : Work) (l : Level) : (w.setLvl l).still = w.still := rfl
@[simp] theorem Work.clampPos_still (w : Work) (c : ChanId) : (w.clampPos c).still = w.still := rfl
@[simp] theorem Work.setLearned_still (w : Work) (c : ChanId) (s : Option Nat) : (w.setLearned c s).still = w.still := rfl
@[simp] theorem Work.release_still (w : Work) (t : Fin 6) : (w.release t).still = w.still := rfl
@[simp] theorem Work.dequeue_still (w : Work) (t : Fin 6) : (w.dequeue t).still = w.still := rfl

@[simp] theorem Work.serveNext_still (w : Work) : w.serveNext.still = w.still := by
  simp only [Work.serveNext]; split <;> rfl

@[simp] theorem Work.askCheckpoint_still (w : Work) (c : ChanId) (b : Bool) : (w.askCheckpoint c b).still = w.still := by
  simp only [Work.askCheckpoint, Work.serveNext_still]; rfl

@[simp] theorem Work.askLearned_still (w : Work) : w.askLearned.still = w.still := by
  simp only [Work.askLearned]; split
  · rfl
  · simp only [Work.serveNext_still]; rfl

/-! ## Motions -/

@[simp] theorem Work.handOver_still (w : Work) (m : MoverId) (s : Source) (d : Dir) (p : MotionProfile) :
    (w.handOver m s d p).still = w.still := by
  simp only [Work.handOver]
  rw [foldl_still _ _ (fun w c => by simp)]; rfl

@[simp] theorem Work.setQueued_still (w : Work) (m : MoverId) (q : Bool) : (w.setQueued m q).still = w.still := by
  simp only [Work.setQueued]
  exact foldl_still _ _ (fun w c => by split <;> split <;> simp) w

@[simp] theorem Work.presentEntry_still (w : Work) (q : Queued) : (w.presentEntry q).1.still = w.still := by
  simp only [Work.presentEntry]; split <;> [rfl; (split <;> rfl)]

@[simp] theorem Work.forgetPosition_still (w : Work) (m : MoverId) : (w.forgetPosition m).still = w.still := by
  simp only [Work.forgetPosition]; exact foldl_still _ _ (fun w c => by simp) w

@[simp] theorem Work.clampMover_still (w : Work) (m : MoverId) : (w.clampMover m).still = w.still := by
  simp only [Work.clampMover]; exact foldl_still _ _ (fun w c => by simp) w

@[simp] theorem Work.beginLearn_still (w : Work) (m : MoverId) (l : LearnRun) : (w.beginLearn m l).still = w.still := by
  simp only [Work.beginLearn]; split <;> simp

@[simp] theorem Work.admitMover_still (w : Work) (m : MoverId) : (w.admitMover m).still = w.still := by
  simp only [Work.admitMover]; split <;> [rfl; (split <;> simp)]

@[simp] theorem Work.presentClaim_still (w : Work) (m : MoverId) (c : Claim) (l : Option LearnRun) :
    (w.presentClaim m c l).1.still = w.still := by
  simp only [Work.presentClaim]
  have h := Work.presentEntry_still (w.setMv m { w.mv m with claim := some c, learn := l })
    ((w.setMv m { w.mv m with claim := some c, learn := l }).moverEntry m c)
  split <;> (try rename_i h'; rw [h'] at h) <;> simp_all

@[simp] theorem Work.dropRetract_still (w : Work) (c : Cause) : (w.dropRetract c).still = w.still := by
  simp only [Work.dropRetract]; split <;> simp

@[simp] theorem Work.queueHead_still (w : Work) (q : Queued) : (w.queueHead q).still = w.still := rfl

@[simp] theorem Work.presentRetract_still (w : Work) (p : Purpose) : (w.presentRetract p).still = w.still := by
  simp only [Work.presentRetract]
  repeat' split
  all_goals first
    | rfl
    | (rw [Work.admitMover_still]; rfl)
    | simp

@[simp] theorem Work.endClaim_still (w : Work) (m : MoverId) : (w.endClaim m).still = w.still := by
  simp only [Work.endClaim]; split <;> [rfl; (split <;> simp)]

@[simp] theorem Work.abortLearn_still (w : Work) (m : MoverId) : (w.abortLearn m).still = w.still := by
  simp only [Work.abortLearn]; split <;> simp

@[simp] theorem Work.noteCause_still (w : Work) (m : MoverId) (c : Cause) : (w.noteCause m c).still = w.still := by
  simp only [Work.noteCause]; split <;> [rfl; (split <;> simp)]

@[simp] theorem Work.afterMotion_still (w : Work) (m : MoverId) (r : Run) : (w.afterMotion m r).still = w.still := by
  simp only [Work.afterMotion]; repeat' split
  all_goals simp

@[simp] theorem Work.closeMotion_still (w : Work) (m : MoverId) (r : Run) (c : Cause) :
    (w.closeMotion m r c).still = w.still := by
  simp [Work.closeMotion]

@[simp] theorem Work.finishLearn_still (w : Work) (m : MoverId) (l : LearnRun) : (w.finishLearn m l).still = w.still := by
  simp only [Work.finishLearn]
  rw [apply_ite Work.still]
  simp only [Work.emit_still, Work.askLearned_still, Work.clampMover_still]
  rw [foldl_still _ _ (fun w c => by split <;> simp)]
  exact ite_self _

@[simp] theorem Work.outwardLeg_still (w : Work) (m : MoverId) (l : LearnRun) : (w.outwardLeg m l).still = w.still := by
  simp [Work.outwardLeg]

@[simp] theorem Work.moverEnd_still (w : Work) (m : MoverId) : (w.moverEnd m).still = w.still := by
  simp only [Work.moverEnd]; repeat' split
  all_goals simp

@[simp] theorem Work.recordEnd_still (w : Work) (c : ChanId) (x : Option Int) : (w.recordEnd c x).still = w.still := by
  simp only [Work.recordEnd]; repeat' split
  all_goals simp

@[simp] theorem Work.endIfAtRest_still (w : Work) (m : MoverId) : (w.endIfAtRest m).still = w.still := by
  simp only [Work.endIfAtRest]; split <;> simp

@[simp] theorem Work.stopChan_still (w : Work) (c : Cause) (d : ChanId) : (w.stopChan c d).still = w.still := by
  simp only [Work.stopChan]; split <;> simp

@[simp] theorem Work.stopMover_still (w : Work) (m : MoverId) (c : Cause) : (w.stopMover m c).still = w.still := by
  simp only [Work.stopMover]
  split <;> split <;> (try simp only [Work.endIfAtRest_still]) <;> (try rw [foldl_still _ _ (fun w d => by simp)]) <;> simp

@[simp] theorem Work.removeQueued_still (w : Work) (m : MoverId) (c : Cause) : (w.removeQueued m c).still = w.still := by
  simp only [Work.removeQueued]; split <;> simp

@[simp] theorem Work.haltMover_still (w : Work) (m : MoverId) (c : Cause) : (w.haltMover m c).still = w.still := by
  simp only [Work.haltMover]; split <;> simp

/-! ## The hydraulic circuit -/

@[simp] theorem Work.pumpStop_still (w : Work) (b : Bool) : (w.pumpStop b).still = w.still := by
  simp only [Work.pumpStop]; repeat' split
  all_goals rfl

@[simp] theorem Work.endActivity_still (w : Work) (o : EndOutcome) (b : Bool) : (w.endActivity o b).still = w.still := by
  simp only [Work.endActivity]
  split
  · rfl
  · split <;> split <;> (try rw [Work.emit_still]) <;> exact Work.pumpStop_still w b

@[simp] theorem Work.setJacks_still (w : Work) (a b : JackSet) : (w.setJacks a b).still = w.still := rfl
@[simp] theorem Work.setOpen_still (w : Work) (a : JackSet) : (w.setOpen a).still = w.still := rfl
@[simp] theorem Work.setActPhase_still (w : Work) (p : ActPhase) : (w.setActPhase p).still = w.still := rfl

@[simp] theorem Work.endLevel_still (w : Work) (o : EndOutcome) (b : Bool) : (w.endLevel o b).still = w.still := by
  simp only [Work.endLevel]; split <;> simp

@[simp] theorem Work.enterPhase_still (w : Work) (l : Level) : (w.enterPhase l).still = w.still := rfl

@[simp] theorem Work.enterSettling_still (w : Work) : w.enterSettling.still = w.still := by
  simp [Work.enterSettling]

@[simp] theorem Work.enterStabilize_still (w : Work) (f : Option PendFlag) : (w.enterStabilize f).still = w.still := by
  simp only [Work.enterStabilize]; split <;> simp

@[simp] theorem Work.enterLevelling_still (w : Work) (n : Nat) : (w.enterLevelling n).still = w.still := by
  simp [Work.enterLevelling]

@[simp] theorem Work.checkGrounded_still (w : Work) : w.checkGrounded.still = w.still := by
  simp only [Work.checkGrounded]; repeat' split
  all_goals simp

@[simp] theorem Work.followGround_still (w : Work) : w.followGround.still = w.still := by
  simp only [Work.followGround]; split <;> simp

@[simp] theorem Work.enterTouchdown_still (w : Work) : w.enterTouchdown.still = w.still := by
  simp [Work.enterTouchdown]

@[simp] theorem Work.jacksMove_still (w : Work) : w.jacksMove.still = w.still := by
  simp only [Work.jacksMove]; split <;> simp

@[simp] theorem Work.checkWork_still (w : Work) : w.checkWork.still = w.still := by
  simp only [Work.checkWork]; repeat' split
  all_goals simp

@[simp] theorem Work.atPumpStart_still (w : Work) (a : HydActivity) : (w.atPumpStart a).still = w.still := by
  simp only [Work.atPumpStart]; repeat' split
  all_goals simp

@[simp] theorem Work.pumpRun_still (w : Work) : w.pumpRun.still = w.still := by
  simp only [Work.pumpRun]; split
  · rfl
  · rw [Work.atPumpStart_still]; rfl

@[simp] theorem Work.admitPump_still (w : Work) : w.admitPump.still = w.still := by
  simp only [Work.admitPump]; split <;> (first | rfl | simp)

@[simp] theorem Work.admitTarget_still (w : Work) (t : Fin 6) : (w.admitTarget t).still = w.still := by
  simp only [Work.admitTarget]; split <;> simp

@[simp] theorem Work.admitHead_still (w : Work) (q : Queued) (r : List Queued) : (w.admitHead q r).still = w.still := by
  simp only [Work.admitHead, Work.admitTarget_still]; rfl

@[simp] theorem Work.admitHeads_still (n : Nat) (w : Work) : (Work.admitHeads n w).still = w.still := by
  induction n generalizing w with
  | zero => rfl
  | succ n ih =>
    simp only [Work.admitHeads]; split <;> [rfl; (split <;> [(rw [ih]; simp); rfl])]

@[simp] theorem Work.judgeHead_still (w : Work) : w.judgeHead.still = w.still := by
  simp only [Work.judgeHead]; split
  · exact Work.admitHeads_still 16 w
  · rfl

/-! ## Arrivals and the settling of a command -/

@[simp] theorem Work.arriveMover_still (b : BitVec 16) (w : Work) (m : MoverId) :
    (Work.arriveMover b w m).still = w.still := by
  simp only [Work.arriveMover]; split <;> simp

@[simp] theorem Work.arriveRetract_still (b : BitVec 16) (w : Work) : (Work.arriveRetract b w).still = w.still := by
  simp only [Work.arriveRetract]; repeat' split
  all_goals simp

@[simp] theorem Work.arriveHyd_still (b : BitVec 16) (w : Work) : (Work.arriveHyd b w).still = w.still := by
  simp only [Work.arriveHyd]; repeat' split
  all_goals simp

@[simp] theorem Work.arrive_still (b : BitVec 16) (w : Work) : (Work.arrive b w).still = w.still := by
  simp only [Work.arrive, Work.arriveHyd_still, Work.arriveRetract_still]
  exact foldl_still _ _ (fun w m => by simp) w

@[simp] theorem Work.settleLoop_still (n : Nat) (w : Work) : (Work.settleLoop n w).still = w.still := by
  induction n generalizing w with
  | zero => simp [Work.settleLoop]
  | succ n ih =>
    simp only [Work.settleLoop]
    split
    · exact Work.judgeHead_still w
    · rw [ih, Work.arrive_still]; exact Work.judgeHead_still w

@[simp] theorem Work.settled_still (w : Work) : w.settled.still = w.still := Work.settleLoop_still 4 w

@[simp] theorem Work.settleEvents_still (w : Work) (b : Bool) (old : BitVec 16) : (w.settleEvents b old).still = w.still := by
  have h := Work.settled_still { w.judgeHead with events := [] }
  exact h.trans (Work.judgeHead_still w)

end Sys2Proof.Machine
end

