-- ==== Sys2Proof/Laws/Finish.lean ====
section
/-! SUPPORT. What the end of a command does (`finish`, `event`, `request`, `portRequest`, `standbyCheck`): the inhibit set
and the posture are derived anew, the reply and the events reach the port, and the rest of the port and of the machine's
slow parts stay as the command left them. -/

namespace Sys2Proof.Machine

set_option Elab.async false

/-! ## The return to ACTIVE and the entry to STANDBY leave the derived conditions as they are -/

theorem Work.ch_returnActive (w : Work) (c : ChanId) : w.returnActive.ch c = { w.ch c with window := [] } := by
  simp [Work.returnActive, Work.ch]

@[simp] theorem Work.mv_returnActive (w : Work) (m : MoverId) : w.returnActive.mv m = w.mv m := rfl

@[simp] theorem Work.allCh_returnActive (w : Work) (m : MoverId) (p : Channel → Bool)
    (h : ∀ x : Channel, p { x with window := [] } = p x) : w.returnActive.allCh m p = w.allCh m p := by
  simp [Work.allCh, Work.chansOf, Work.ch_returnActive, h]

@[simp] theorem Work.anyCh_returnActive (w : Work) (m : MoverId) (p : Channel → Bool)
    (h : ∀ x : Channel, p { x with window := [] } = p x) : w.returnActive.anyCh m p = w.anyCh m p := by
  simp [Work.anyCh, Work.chansOf, Work.ch_returnActive, h]

@[simp] theorem Work.seatOf_returnActive (w : Work) (m : MoverId) : w.returnActive.seatOf m = w.seatOf m := by
  simp [Work.seatOf]

@[simp] theorem Work.isIn_returnActive (w : Work) (m : MoverId) : w.returnActive.isIn m = w.isIn m := by
  simp [Work.isIn, Work.known]

@[simp] theorem Work.roomsIn_returnActive (w : Work) : w.returnActive.roomsIn = w.roomsIn := by
  simp [Work.roomsIn]

@[simp] theorem Work.deriveInh_returnActive (w : Work) : w.returnActive.deriveInh = w.deriveInh := by
  simp only [Work.deriveInh, Work.roomsIn_returnActive]; rfl

@[simp] theorem Work.activity_returnActive (w : Work) (m : MoverId) : w.returnActive.activity m = w.activity m := by
  simp only [Work.activity]
  rw [Work.anyCh_returnActive _ _ _ (fun _ => rfl), Work.anyCh_returnActive _ _ _ (fun _ => rfl),
    Work.anyCh_returnActive _ _ _ (fun _ => rfl)]
  rfl

@[simp] theorem Work.travel_returnActive (w : Work) : w.returnActive.travel = w.travel := by
  simp only [Work.travel, Work.inMotion, Work.putAway, Work.stowed, Work.roomsIn_returnActive, Work.isIn_returnActive,
    Work.activity_returnActive]
  rfl

/-- What the entry to STANDBY leaves: everything but power, tilt, supply and events. -/
theorem Work.enterStandby_eq (w : Work) :
    ∃ (t : Tilt) (e : List Event), w.enterStandby =
      { w with power := .standby, tilt := t, sup := { w.sup with busRun := 0, tripped := false }, events := e } := by
  simp only [Work.enterStandby, Work.abortZero]
  split
  · exact ⟨_, w.events, rfl⟩
  · exact ⟨_, _, rfl⟩

/-! ## `standbyCheck` -/

/-- The parts of the machine that neither the end of a command nor the entry to STANDBY touches. -/
structure Calm where
  now : Time
  resetAt : Time
  loadAt : Time
  mode : Mode
  service : Bool
  resetCause : ResetCause
  wakeCauses : BitVec 5
  dormantAt : Option Time
  wakePrev : Option (BitVec 14)
  wind : Wind
  inputs : CoachInputs
  speed : Speed
  link : BitVec 4
  working : Profile
  coach : Profile
  sections : Vector (Option Record) 6
  learnedRec : Option Record
  checkpoints : Vector (Option Record) 8
  note : BitVec 7
  pins : Pins
  free : Nat

def Still.calm (w : Still) : Calm :=
  { now := w.now, resetAt := w.resetAt, loadAt := w.loadAt, mode := w.mode, service := w.service,
    resetCause := w.resetCause, wakeCauses := w.wakeCauses, dormantAt := w.dormantAt, wakePrev := w.wakePrev,
    wind := w.wind, inputs := w.inputs, speed := w.speed, link := w.link, working := w.working, coach := w.coach,
    sections := w.sections, learnedRec := w.learnedRec, checkpoints := w.checkpoints, note := w.note, pins := w.pins,
    free := w.free }

def Work.calm (w : Work) : Calm := w.still.calm

theorem Work.calm_of_still {w z : Work} (h : w.still = z.still) : w.calm = z.calm := congrArg Still.calm h

@[simp] theorem Work.returnActive_calm (w : Work) : w.returnActive.calm = w.calm := rfl

@[simp] theorem Work.returnOnMotion_calm (w : Work) (t : Travel) : (w.returnOnMotion t).calm = w.calm := by
  simp only [Work.returnOnMotion]; split <;> rfl

@[simp] theorem Work.toActive_calm (w : Work) : w.toActive.calm = w.calm := by
  simp only [Work.toActive]; split <;> rfl

@[simp] theorem Work.enterStandby_calm (w : Work) : w.enterStandby.calm = w.calm := by
  obtain ⟨t, e, h⟩ := w.enterStandby_eq; rw [h]; rfl

/-- Everything `standbyCheck` can do: the entry to STANDBY with its events delivered; nothing, while the conditions hold and
a return stands or the part is not ACTIVE; or the end of a standing return. -/
theorem State.standbyCheck_cases (s : State) :
    (s.standbyDue = true ∧
      s.standbyCheck = { s with port := s.port.takeAll s.work.enterStandby.events,
                                work := { s.work.enterStandby with events := [] } }) ∨
    (s.quiet = true ∧ s.standbyCheck = s) ∨
    (s.quiet = false ∧ s.standbyCheck = { s with work := { s.work with returnedAt := none } }) := by
  by_cases h : s.standbyDue = true
  · exact Or.inl ⟨h, by simp only [State.standbyCheck, h, if_true, State.deliver]⟩
  · cases q : s.quiet
    · exact Or.inr (Or.inr ⟨rfl, by simp only [State.standbyCheck, h, q, if_false, Bool.false_eq_true]⟩)
    · exact Or.inr (Or.inl ⟨rfl, by simp only [State.standbyCheck, h, q, if_false, if_true, Bool.false_eq_true]⟩)

@[simp] theorem State.standbyCheck_pending (s : State) : s.standbyCheck.pending = s.pending := by
  rcases s.standbyCheck_cases with ⟨_, h⟩ | ⟨_, h⟩ | ⟨_, h⟩ <;> rw [h]

@[simp] theorem State.standbyCheck_ready (s : State) : s.standbyCheck.ready = s.ready := by
  rcases s.standbyCheck_cases with ⟨_, h⟩ | ⟨_, h⟩ | ⟨_, h⟩ <;> rw [h]

@[simp] theorem State.standbyCheck_calm (s : State) : s.standbyCheck.work.calm = s.work.calm := by
  rcases s.standbyCheck_cases with ⟨_, h⟩ | ⟨_, h⟩ | ⟨_, h⟩ <;> rw [h]
  · exact Work.enterStandby_calm s.work
  · rfl

@[simp] theorem State.standbyCheck_rest (s : State) : s.standbyCheck.port.rest = s.port.rest := by
  rcases s.standbyCheck_cases with ⟨_, h⟩ | ⟨_, h⟩ | ⟨_, h⟩ <;> rw [h]
  exact Port.takeAll_rest _ _

theorem State.standbyCheck_prefix (s : State) : s.port.outq <+: s.standbyCheck.port.outq := by
  rcases s.standbyCheck_cases with ⟨_, h⟩ | ⟨_, h⟩ | ⟨_, h⟩ <;> rw [h]
  exact Port.takeAll_prefix _ _

theorem State.standbyCheck_length (s : State) : s.standbyCheck.port.outq.length ≤ max s.port.outq.length 14 := by
  rcases s.standbyCheck_cases with ⟨_, h⟩ | ⟨_, h⟩ | ⟨_, h⟩ <;> rw [h]
  · exact Port.takeAll_length _ _
  · exact Nat.le_max_left _ _
  · exact Nat.le_max_left _ _

@[simp] theorem State.standbyCheck_inh (s : State) : s.standbyCheck.work.inh = s.work.inh := by
  rcases s.standbyCheck_cases with ⟨_, h⟩ | ⟨_, h⟩ | ⟨_, h⟩ <;> rw [h]
  obtain ⟨t, e, h⟩ := s.work.enterStandby_eq; rw [h]

@[simp] theorem State.standbyCheck_headDue (s : State) : s.standbyCheck.work.headDue = s.work.headDue := by
  rcases s.standbyCheck_cases with ⟨_, h⟩ | ⟨_, h⟩ | ⟨_, h⟩ <;> rw [h]
  obtain ⟨t, e, h⟩ := s.work.enterStandby_eq; rw [h]

@[simp] theorem State.standbyCheck_stage (s : State) : s.standbyCheck.work.stage = s.work.stage := by
  rcases s.standbyCheck_cases with ⟨_, h⟩ | ⟨_, h⟩ | ⟨_, h⟩ <;> rw [h]
  obtain ⟨t, e, h⟩ := s.work.enterStandby_eq; rw [h]

theorem Work.enterStandby_deriveInh (w : Work) : w.enterStandby.deriveInh = w.deriveInh := by
  obtain ⟨t, e, h⟩ := w.enterStandby_eq; rw [h]; rfl

theorem Work.enterStandby_travel (w : Work) : w.enterStandby.travel = w.travel := by
  obtain ⟨t, e, h⟩ := w.enterStandby_eq; rw [h]; rfl

@[simp] theorem State.standbyCheck_deriveInh (s : State) : s.standbyCheck.work.deriveInh = s.work.deriveInh := by
  rcases s.standbyCheck_cases with ⟨_, h⟩ | ⟨_, h⟩ | ⟨_, h⟩ <;> rw [h]
  · exact s.work.enterStandby_deriveInh
  · rfl

@[simp] theorem State.standbyCheck_travel (s : State) : s.standbyCheck.work.travel = s.work.travel := by
  rcases s.standbyCheck_cases with ⟨_, h⟩ | ⟨_, h⟩ | ⟨_, h⟩ <;> rw [h]
  · exact s.work.enterStandby_travel
  · rfl

theorem State.standbyCheck_events (s : State) (h : s.work.events = []) : s.standbyCheck.work.events = [] := by
  rcases s.standbyCheck_cases with ⟨_, h'⟩ | ⟨_, h'⟩ | ⟨_, h'⟩ <;> rw [h']
  all_goals exact h

/-! ## `finish` -/

/-- The blocks after a command has settled. -/
def finishWork (s : State) (w : Work) : Work :=
  w.startupCheck.settleEvents (s.work.stage == .complete) s.work.inh

/-- The posture after it. -/
def finishReady (s : State) (w : Work) : Ready :=
  if (finishWork s w).stage = .complete then (finishWork s w).nextReady s.ready else s.ready

/-- `finish` before the entry to STANDBY is judged. -/
def finishState (s : State) (w : Work) (reply : Option Frame) : State :=
  { s with port := s.port.deliver reply ((finishWork s w).events ++
             postureEvents (s.work.stage == .complete) s.ready (finishReady s w)),
           ready := finishReady s w,
           work := { (finishWork s w).returnOnMotion (finishReady s w).travel with events := [] } }

theorem finish_eq (s : State) (w : Work) (reply : Option Frame) :
    finish s w reply = (finishState s w reply).standbyCheck := by
  have he : ((finishWork s w).returnOnMotion (finishReady s w).travel).events = (finishWork s w).events := by
    simp only [Work.returnOnMotion]; split <;> rfl
  simp only [finishState, ← he]
  rfl

@[simp] theorem finish_pending (s : State) (w : Work) (r : Option Frame) : (finish s w r).pending = s.pending := by
  rw [finish_eq, State.standbyCheck_pending]; rfl

/-- The reply stands in front of the reports of the same command, behind what waited (R179, R181). -/
theorem finish_prefix (s : State) (w : Work) (r : Option Frame) :
    s.port.outq ++ r.toList <+: (finish s w r).port.outq := by
  rw [finish_eq]
  exact (Port.deliver_prefix s.port r _).trans (State.standbyCheck_prefix (finishState s w r))

theorem finish_length (s : State) (w : Work) (r : Option Frame) :
    (finish s w r).port.outq.length ≤ max (s.port.outq.length + r.toList.length) 14 := by
  rw [finish_eq]
  refine Nat.le_trans (State.standbyCheck_length _) ?_
  have := Port.deliver_length s.port r
    ((finishWork s w).events ++ postureEvents (s.work.stage == .complete) s.ready (finishReady s w))
  exact Nat.max_le.mpr ⟨this, Nat.le_max_right _ _⟩

@[simp] theorem finish_rest (s : State) (w : Work) (r : Option Frame) : (finish s w r).port.rest = s.port.rest := by
  rw [finish_eq, State.standbyCheck_rest]; exact Port.deliver_rest _ _ _

@[simp] theorem Work.startupCheck_calm (w : Work) : w.startupCheck.calm = w.calm := by
  simp only [Work.startupCheck]; split <;> rfl

theorem finishWork_calm (s : State) (w : Work) : (finishWork s w).calm = w.calm :=
  (Work.calm_of_still (Work.settleEvents_still _ _ _)).trans w.startupCheck_calm

/-- Mode, inputs, gates, LINK members, profile, storage and clock stay as the command left them. -/
@[simp] theorem finish_calm (s : State) (w : Work) (r : Option Frame) : (finish s w r).work.calm = w.calm := by
  rw [finish_eq, State.standbyCheck_calm]
  exact (Work.returnOnMotion_calm _ _).trans (finishWork_calm s w)

theorem Work.settled_inh (w : Work) : w.settled.inh = w.settled.deriveInh := rfl

theorem Work.returnOnMotion_inh (w : Work) (t : Travel) (h : w.inh = w.deriveInh) :
    (w.returnOnMotion t).inh = (w.returnOnMotion t).deriveInh := by
  simp only [Work.returnOnMotion]
  split
  · rw [Work.deriveInh_returnActive]; exact h
  · exact h

/-- The inhibit set is the one its owners give (R154). -/
theorem finish_inh (s : State) (w : Work) (r : Option Frame) :
    (finish s w r).work.inh = (finish s w r).work.deriveInh := by
  rw [finish_eq, State.standbyCheck_inh, State.standbyCheck_deriveInh]
  exact Work.returnOnMotion_inh (finishWork s w) _ rfl

@[simp] theorem finish_events (s : State) (w : Work) (r : Option Frame) : (finish s w r).work.events = [] := by
  rw [finish_eq]; exact State.standbyCheck_events _ rfl

@[simp] theorem finish_headDue (s : State) (w : Work) (r : Option Frame) : (finish s w r).work.headDue = false := by
  rw [finish_eq, State.standbyCheck_headDue]
  show ((finishWork s w).returnOnMotion _).headDue = false
  simp only [Work.returnOnMotion]; split <;> rfl

/-- The posture is the one of the state a command leaves, once start-up is complete (R161, R164). -/
theorem finish_travel (s : State) (w : Work) (r : Option Frame) (h : (finish s w r).work.stage = .complete) :
    (finish s w r).ready.travel = (finish s w r).work.travel ∧
      (finish s w r).ready.travelOk = ((finish s w r).work.travel == .travelReady) := by
  rw [finish_eq, State.standbyCheck_stage] at h
  rw [finish_eq, State.standbyCheck_ready, State.standbyCheck_travel]
  have hs : (finishWork s w).stage = .complete := by
    have e : (finishState s w r).work.stage = (finishWork s w).stage := by
      show ((finishWork s w).returnOnMotion _).stage = _
      simp only [Work.returnOnMotion]; split <;> rfl
    rw [← e]; exact h
  have ht : (finishState s w r).work.travel = (finishWork s w).travel := by
    show ((finishWork s w).returnOnMotion _).travel = _
    simp only [Work.returnOnMotion]; split
    · exact Work.travel_returnActive _
    · rfl
  have hr : (finishState s w r).ready = (finishWork s w).nextReady s.ready := by
    show finishReady s w = _
    simp only [finishReady, hs, if_true]
  rw [ht, hr]
  simp only [Work.nextReady, Ready.withAlert]
  split <;> exact ⟨rfl, rfl⟩

/-! ## `event`, `request` and `portRequest` -/

/-- An event changes nothing while the blocks do not run; else it is `finish`. -/
theorem event_cases (s : State) (f : Work → Work) :
    (s.work.awake = false ∧ event s f = s) ∨ (s.work.awake = true ∧ event s f = finish s (f s.work) none) := by
  cases h : s.work.awake <;> simp [event, h]

/-- A request is not heard, or finds no place (R179), or is answered. -/
theorem request_cases (s : State) (kind tag : Byte) (h : State → Work × Reply) :
    (s.work.awake = false ∧ request s kind tag h = s) ∨
    (s.work.awake = true ∧ 16 ≤ s.port.outq.length ∧ request s kind tag h = s.toActive.overrun) ∨
    (s.work.awake = true ∧ s.port.outq.length < 16 ∧
      request s kind tag h =
        finish s.toActive (h s.toActive).1 (some (replyFrame kind tag (h s.toActive).2))) := by
  cases ha : s.work.awake
  · exact Or.inl ⟨rfl, by simp [request, ha]⟩
  · by_cases hq : Config.outPlaces ≤ s.port.outq.length
    · exact Or.inr (Or.inl ⟨rfl, hq, by simp [request, ha, hq]⟩)
    · exact Or.inr (Or.inr ⟨rfl, Nat.lt_of_not_le hq, by simp [request, ha, hq]⟩)

theorem portRequest_cases (s : State) (kind tag : Byte) (h : State → State × Reply) :
    (s.work.awake = false ∧ portRequest s kind tag h = s) ∨
    (s.work.awake = true ∧ 16 ≤ s.port.outq.length ∧ portRequest s kind tag h = s.toActive.overrun) ∨
    (s.work.awake = true ∧ s.port.outq.length < 16 ∧
      portRequest s kind tag h =
        { (h s.toActive).1 with port := (h s.toActive).1.port.push (replyFrame kind tag (h s.toActive).2) }) := by
  cases ha : s.work.awake
  · exact Or.inl ⟨rfl, by simp [portRequest, ha]⟩
  · by_cases hq : Config.outPlaces ≤ s.port.outq.length
    · exact Or.inr (Or.inl ⟨rfl, hq, by simp [portRequest, ha, hq]⟩)
    · exact Or.inr (Or.inr ⟨rfl, Nat.lt_of_not_le hq, by simp [portRequest, ha, hq]⟩)

end Sys2Proof.Machine
end

