-- ==== Sys2Proof/Laws/Quiet.lean ====
section
/-! SUPPORT. The frame of Laws/Still.lean for the remaining operations: locks, racking, counts, seats, retries, claims,
panel switches, retracts, jack sensors and pump events. One lemma an operation; and when the detectors of a channel judge. -/

namespace Sys2Proof.Machine

set_option Elab.async false

/-! ## Locks and racking -/

@[simp] theorem Work.noteLock_still (w : Work) (c : ChanId) (k : LockKind) (a : Policy) (n : Nat) :
    (w.noteLock c k a n).still = w.still := rfl

@[simp] theorem Work.receiveLock_still (w : Work) (m : MoverId) (c : ChanId) (a : Policy) :
    (w.receiveLock m c a).still = w.still := by
  simp only [Work.receiveLock]; repeat' split
  all_goals simp

@[simp] theorem Work.losePosition_still (w : Work) (c : ChanId) : (w.losePosition c).still = w.still := by
  simp [Work.losePosition]

@[simp] theorem Work.endWork_still (w : Work) (m : MoverId) : (w.endWork m).still = w.still := by
  simp [Work.endWork]

@[simp] theorem Work.latchChan_still (w : Work) (k : LockKind) (b : Bool) (c : ChanId) :
    (w.latchChan k b c).still = w.still := by
  simp only [Work.latchChan]; split <;> rfl

@[simp] theorem Work.latchMover_still (w : Work) (m : MoverId) (k : LockKind) (b : Bool) :
    (w.latchMover m k b).still = w.still := by
  simp only [Work.latchMover]
  rw [foldl_still _ _ (fun w c => by simp)]
  simp

@[simp] theorem Work.retryMover_still (w : Work) (m : MoverId) (c : ChanId) : (w.retryMover m c).still = w.still := by
  simp only [Work.retryMover]
  rw [foldl_still _ _ (fun w c => by simp)]
  simp

@[simp] theorem Work.makeHoming_still (w : Work) (m : MoverId) : (w.makeHoming m).still = w.still := by
  simp only [Work.makeHoming]
  rw [foldl_still _ _ (fun w c => by simp)]
  split <;> simp

@[simp] theorem Work.turnHoming_still (w : Work) (m : MoverId) : (w.turnHoming m).still = w.still := by
  simp only [Work.turnHoming]
  rw [foldl_still _ _ (fun w c => by simp)]
  simp

@[simp] theorem Work.goOn_still (w : Work) (m : MoverId) (c : ChanId) (a : Policy) (b : Bool) (d : Dir) :
    (w.goOn m c a b d).still = w.still := by
  simp only [Work.goOn]; repeat' split
  all_goals simp

@[simp] theorem Work.actOnLock_still (w : Work) (m : MoverId) (c : ChanId) (k : LockKind) (d : Dir) :
    (w.actOnLock m c k d).still = w.still := by
  simp only [Work.actOnLock]
  repeat' split
  all_goals simp

@[simp] theorem Work.raiseLock_still (w : Work) (c : ChanId) (k : LockKind) : (w.raiseLock c k).still = w.still := by
  simp only [Work.raiseLock]
  repeat' split
  all_goals simp

@[simp] theorem Work.rackChan_still (w : Work) (c : ChanId) : (w.rackChan c).still = w.still := by
  simp only [Work.rackChan]; repeat' split
  all_goals simp

@[simp] theorem Work.rackLock_still (w : Work) (m : MoverId) : (w.rackLock m).still = w.still := by
  simp only [Work.rackLock, Work.endIfAtRest_still, Work.setMv_still]
  rw [foldl_still _ _ (fun w c => by simp)]
  simp

@[simp] theorem Work.judgeRack_still (w : Work) (m : MoverId) : (w.judgeRack m).still = w.still := by
  simp only [Work.judgeRack]; split <;> simp

@[simp] theorem Work.enterRamp_still (w : Work) (m : MoverId) (p : Channel → Bool) : (w.enterRamp m p).still = w.still := by
  simp only [Work.enterRamp]
  split
  · simp
  · split
    · rfl
    · exact foldl_still _ _ (fun w c => by split <;> simp) w

/-! ## Counts, seats, judgements and ends -/

@[simp] theorem Work.countChan_still (w : Work) (c : ChanId) : (w.countChan c).still = w.still := rfl

@[simp] theorem Work.judgeRange_still (w : Work) (c : ChanId) : (w.judgeRange c).still = w.still := by
  simp only [Work.judgeRange]; split <;> simp

@[simp] theorem Work.judgeOverspeed_still (w : Work) (c : ChanId) : (w.judgeOverspeed c).still = w.still := by
  simp only [Work.judgeOverspeed]; split <;> simp

@[simp] theorem Work.hallCount_still (w : Work) (c : ChanId) : (w.hallCount c).still = w.still := by
  simp only [Work.hallCount]; repeat' split
  all_goals simp

@[simp] theorem Work.afterSeat_still (w : Work) (m : MoverId) : (w.afterSeat m).still = w.still := by
  simp only [Work.afterSeat]; repeat' split
  all_goals simp

@[simp] theorem Work.seatIn_still (w : Work) (m : MoverId) (c : ChanId) : (w.seatIn m c).still = w.still := by
  simp [Work.seatIn]

@[simp] theorem Work.measure_still (w : Work) (m : MoverId) (c : ChanId) : (w.measure m c).still = w.still := by
  simp only [Work.measure]; repeat' split
  all_goals simp

@[simp] theorem Work.seatOut_still (w : Work) (m : MoverId) (c : ChanId) : (w.seatOut m c).still = w.still := by
  simp [Work.seatOut]

@[simp] theorem Work.judgeStall_still (w : Work) (m : MoverId) (c : ChanId) (mo : Motion) :
    (w.judgeStall m c mo).still = w.still := by
  simp only [Work.judgeStall]; repeat' split
  all_goals simp

@[simp] theorem Work.judgeOvercurrent_still (w : Work) (c : ChanId) : (w.judgeOvercurrent c).still = w.still := by
  simp only [Work.judgeOvercurrent]; repeat' split
  all_goals simp

@[simp] theorem Work.endChan_still (w : Work) (m : MoverId) (c : ChanId) (mo : Motion) :
    (w.endChan m c mo).still = w.still := by
  simp [Work.endChan]

@[simp] theorem Work.reportWritten_still (w : Work) (c : ChanId) (n : Option Nat) : (w.reportWritten c n).still = w.still := by
  simp only [Work.reportWritten]; repeat' split
  all_goals simp

@[simp] theorem Work.endRetry_still (w : Work) (m : MoverId) : (w.endRetry m).still = w.still := by
  simp only [Work.endRetry]; split <;> simp

@[simp] theorem Work.updateMover_still (w : Work) (m : MoverId) (mo : Motion) : (w.updateMover m mo).still = w.still := by
  simp only [Work.updateMover]
  exact foldl_still _ _ (fun w c => by simp) _

@[simp] theorem Work.markUpdate_still (w : Work) (c : ChanId) : (w.markUpdate c).still = w.still := rfl

/-! ## Claims -/

@[simp] theorem Work.claimFrom3_still (w : Work) (m : MoverId) (s : Source) (d : Dir) (l : Option Time) :
    (w.claimFrom3 m s d l).1.still = w.still := by
  simp only [Work.claimFrom3]; repeat' split
  all_goals simp

@[simp] theorem Work.renew_still (w : Work) (m : MoverId) : (w.renew m).still = w.still := rfl
@[simp] theorem Work.spend_still (w : Work) (m : MoverId) (d : Dir) : (w.spend m d).still = w.still := rfl
@[simp] theorem Work.markDwell_still (w : Work) (m : MoverId) : (w.markDwell m).still = w.still := rfl

@[simp] theorem Work.reverse_still (w : Work) (m : MoverId) (s : Source) (d : Dir) : (w.reverse m s d).1.still = w.still := by
  simp only [Work.reverse]; repeat' split
  all_goals simp

@[simp] theorem Work.stopRetract_still (w : Work) (c : Cause) : (w.stopRetract c).still = w.still := by
  simp only [Work.stopRetract]; split <;> simp

@[simp] theorem Work.contendRetract_still (w : Work) (p : Purpose) (s : Source) (d : Dir) :
    (w.contendRetract p s d).1.still = w.still := by
  simp only [Work.contendRetract]; split <;> simp

@[simp] theorem Work.contendStopping_still (w : Work) (m : MoverId) (s : Source) (d : Dir) :
    (w.contendStopping m s d).1.still = w.still := by
  simp only [Work.contendStopping]; repeat' split
  all_goals simp

@[simp] theorem Work.contend_still (w : Work) (m : MoverId) (s : Source) (d : Dir) : (w.contend m s d).1.still = w.still := by
  simp only [Work.contend]; repeat' split
  all_goals simp

@[simp] theorem Work.contendLearn_still (w : Work) (m : MoverId) (l : LearnRun) (s : Source) (d : Dir) :
    (w.contendLearn m l s d).1.still = w.still := by
  simp only [Work.contendLearn]; split <;> simp

@[simp] theorem Work.claimMove_still (w : Work) (m : MoverId) (s : Source) (d : Dir) :
    (w.claimMove m s d).1.still = w.still := by
  simp only [Work.claimMove]
  generalize (if m = awn then w.holdsRetract else none) = r
  cases r <;> cases (w.mv m).learn <;> simp only [Work.contendRetract_still, Work.contendLearn_still]
  repeat' split
  all_goals simp

@[simp] theorem Work.bothPressed_still (w : Work) (m : MoverId) : (w.bothPressed m).still = w.still := by
  simp only [Work.bothPressed]
  generalize (if m = awn then _ else none) = r
  split <;> simp

@[simp] theorem Work.pressClaim_still (w : Work) (m : MoverId) (d : Dir) : (w.pressClaim m d).still = w.still := by
  simp only [Work.pressClaim]; repeat' split
  all_goals simp

@[simp] theorem Work.pressSwitch_still (w : Work) (m : MoverId) (d : Dir) : (w.pressSwitch m d).still = w.still := by
  simp only [Work.pressSwitch]; repeat' split
  all_goals simp

@[simp] theorem Work.releaseSwitch_still (w : Work) (m : MoverId) (d : Dir) : (w.releaseSwitch m d).still = w.still := by
  simp only [Work.releaseSwitch]
  split
  · split <;> split <;> simp
  · split <;> simp

@[simp] theorem Work.stopAllOf_still (w : Work) (m : MoverId) : (w.stopAllOf m).still = w.still := by
  simp [Work.stopAllOf]

@[simp] theorem Work.stopAwning_still (w : Work) : w.stopAwning.1.still = w.still := by
  simp only [Work.stopAwning]; split <;> simp

@[simp] theorem Work.stopAwningOfAll_still (w : Work) : w.stopAwningOfAll.still = w.still := by
  simp only [Work.stopAwningOfAll]; split <;> simp

@[simp] theorem Work.cancelHyd_still (w : Work) : w.cancelHyd.still = w.still := by
  simp only [Work.cancelHyd]; split <;> simp

@[simp] theorem Work.takeReversal_still (w : Work) (m : MoverId) : (w.takeReversal m).still = w.still := by
  simp only [Work.takeReversal]; repeat' split
  all_goals simp

@[simp] theorem Work.superseded_still (w : Work) : w.superseded.still = w.still := by
  simp only [Work.superseded]; repeat' split
  all_goals simp

@[simp] theorem Work.turnWind_still (w : Work) : w.turnWind.still = w.still := rfl

@[simp] theorem Work.startRetract_still (w : Work) (p : Purpose) : (w.startRetract p).still = w.still := by
  simp only [Work.startRetract]; split <;> simp

@[simp] theorem Work.retractTrigger_still (w : Work) (p : Purpose) : (w.retractTrigger p).1.still = w.still := by
  simp only [Work.retractTrigger]; repeat' split
  all_goals simp

/-! ## Jacks and the activity -/

@[simp] theorem Work.setLift_still (w : Work) (s : JackSet) : (w.setLift s).still = w.still := rfl

@[simp] theorem Work.leaveLift_still (w : Work) (j : JackId) : (w.leaveLift j).still = w.still := by
  simp only [Work.leaveLift]; repeat' split
  all_goals simp

@[simp] theorem Work.dropJack_still (w : Work) (j : JackId) : (w.dropJack j).still = w.still := by
  simp only [Work.dropJack]; split <;> rfl

@[simp] theorem Work.giveFault_still (w : Work) (j : JackId) (k : JackFault) : (w.giveFault j k).still = w.still := by
  simp only [Work.giveFault]; split <;> simp

@[simp] theorem Work.faultJack_still (w : Work) (j : JackId) (k : JackFault) : (w.faultJack j k).still = w.still := by
  simp only [Work.faultJack]; repeat' split
  all_goals simp

@[simp] theorem Work.fenceJack_still (w : Work) (j : JackId) : (w.fenceJack j).still = w.still := by
  simp only [Work.fenceJack]; repeat' split
  all_goals simp

@[simp] theorem Work.presentPump_still (w : Work) : w.presentPump.1.still = w.still := by
  simp only [Work.presentPump]
  split
  · rfl
  · rename_i a _
    have h := Work.presentEntry_still { w with hyd := { w.hyd with activity := some { a with phase := .waiting } } }
      (Work.pumpEntry { w with hyd := { w.hyd with activity := some { a with phase := .waiting } } } a)
    split
    · rename_i h'
      rw [h'] at h
      rw [Work.admitPump_still]; exact h
    · exact h

@[simp] theorem Work.readSwitch_still (w : Work) (j : JackId) (b : Bool) : (w.readSwitch j b).still = w.still := by
  simp only [Work.readSwitch]; repeat' split
  all_goals simp

@[simp] theorem Work.atLimitSet_still (w : Work) (j : JackId) : (w.atLimitSet j).still = w.still := by
  simp only [Work.atLimitSet]; repeat' split
  all_goals simp

@[simp] theorem Work.retractedSet_still (w : Work) (j : JackId) : (w.retractedSet j).still = w.still := by
  simp only [Work.retractedSet]; repeat' split
  all_goals simp

@[simp] theorem Work.judgeStrokeSensor_still (w : Work) (j : JackId) : (w.judgeStrokeSensor j).still = w.still := by
  simp only [Work.judgeStrokeSensor]; repeat' split
  all_goals simp

@[simp] theorem Work.sampleStroke_still (w : Work) (j : JackId) (n : Nat) : (w.sampleStroke j n).still = w.still := by
  simp only [Work.sampleStroke]; repeat' split
  all_goals simp

@[simp] theorem Work.startActivity_still (w : Work) (a : HydActivity) : (w.startActivity a).1.still = w.still := by
  simp only [Work.startActivity]
  have h := Work.presentPump_still { w with hyd := { w.hyd with activity := some a } }
  split
  · rename_i h'; rw [h'] at h; exact h
  · rename_i h'; rw [h'] at h; exact h
  · rfl

@[simp] theorem Work.noGround_still (w : Work) : w.noGround.still = w.still := by
  simp only [Work.noGround, Work.endLevel_still]
  exact foldl_still _ _ (fun w j => by split <;> simp) w

@[simp] theorem Work.settleEnd_still (w : Work) : w.settleEnd.still = w.still := by
  simp only [Work.settleEnd]; split <;> simp

/-! ## The tilt sample at the Levelling Engine -/

@[simp] theorem Work.withTwist_still (w : Work) : w.withTwist.still = w.still := rfl

@[simp] theorem Work.furtherPass_still (w : Work) : w.furtherPass.still = w.still := by
  simp [Work.furtherPass]

@[simp] theorem Work.judgeLevelling_still (w : Work) : w.judgeLevelling.still = w.still := by
  simp only [Work.judgeLevelling]; repeat' split
  all_goals simp

@[simp] theorem Work.judgeSettling_still (w : Work) (b : Bool) : (w.judgeSettling b).still = w.still := by
  simp only [Work.judgeSettling]; repeat' split
  all_goals simp

@[simp] theorem Work.levelWatch_still (w : Work) : w.levelWatch.still = w.still := by
  simp only [Work.levelWatch]; repeat' split
  all_goals simp

@[simp] theorem Work.tiltSample_still (w : Work) : w.tiltSample.still = w.still := by
  simp only [Work.tiltSample]
  repeat' split
  all_goals simp

/-! ## Requests -/

@[simp] theorem Work.moveRequest_still (w : Work) (m : MoverId) (d : Dir) : (w.moveRequest m d).1.still = w.still := by
  simp only [Work.moveRequest]; repeat' split
  all_goals simp

@[simp] theorem Work.doMove_still (w : Work) (a b : Byte) : (w.doMove a b).1.still = w.still := by
  simp only [Work.doMove]; repeat' split
  all_goals simp

@[simp] theorem Work.doStop_still (w : Work) (a : Byte) : (w.doStop a).1.still = w.still := by
  simp only [Work.doStop]
  repeat' split
  all_goals first | rfl | (simp [Work.stopEverything]; exact foldl_still _ _ (fun w m => by simp) w) | simp

@[simp] theorem Work.clearChan_still (w : Work) (c : ChanId) : (w.clearChan c).still = w.still := by
  simp only [Work.clearChan, Work.unrack]; repeat' split
  all_goals simp

@[simp] theorem Work.clearJack_still (w : Work) (j : JackId) : (w.clearJack j).still = w.still := by
  simp only [Work.clearJack]; split <;> simp

@[simp] theorem Work.fenceChan_still (w : Work) (c : ChanId) : (w.fenceChan c).still = w.still := by
  simp only [Work.fenceChan]; repeat' split
  all_goals simp

@[simp] theorem Work.setFences_still (w : Work) (a b : Byte) : (w.setFences a b).still = w.still := by
  simp only [Work.setFences]
  rw [foldl_still _ _ (fun w j => by split <;> simp), foldl_still _ _ (fun w c => by split <;> simp)]

@[simp] theorem Work.clearFences_still (w : Work) (a b : Byte) : (w.clearFences a b).still = w.still := by
  simp only [Work.clearFences]
  rw [foldl_still _ _ (fun w j => by split <;> simp), foldl_still _ _ (fun w c => by split <;> simp)]

@[simp] theorem Work.learnClaim_still (w : Work) (m : MoverId) (k : LearnMethod) : (w.learnClaim m k).1.still = w.still := by
  simp only [Work.learnClaim]; repeat' split
  all_goals simp

@[simp] theorem Work.doLearn_still (w : Work) (a b : Byte) : (w.doLearn a b).1.still = w.still := by
  simp only [Work.doLearn, Work.learnRequest]; repeat' split
  all_goals simp

@[simp] theorem Work.applyStroke_still (w : Work) (c : ChanId) (v : Option Nat) : (w.applyStroke c v).still = w.still := by
  simp only [Work.applyStroke]; split <;> simp

@[simp] theorem Work.doStrokeSet_still (w : Work) (a : Byte) (n : Half) : (w.doStrokeSet a n).1.still = w.still := by
  simp only [Work.doStrokeSet]; repeat' split
  all_goals simp

@[simp] theorem Work.doLevelStart_still (w : Work) (b : Byte) : (w.doLevelStart b).1.still = w.still := by
  simp only [Work.doLevelStart, Work.acceptLevel]; repeat' split
  all_goals simp

@[simp] theorem Work.doLevelCancel_still (w : Work) : w.doLevelCancel.1.still = w.still := by
  simp only [Work.doLevelCancel]; split <;> simp

@[simp] theorem Work.renewMove_still (w : Work) (s : JackSet) : (w.renewMove s).still = w.still := by
  simp only [Work.renewMove, Work.checkWork_still]; rfl

@[simp] theorem Work.doJackMove_still (w : Work) (a b : Byte) : (w.doJackMove a b).1.still = w.still := by
  simp only [Work.doJackMove, Work.jackRequest, Work.newMove, Work.moveAgain]; repeat' split
  all_goals simp

@[simp] theorem Work.doStow_still (w : Work) : w.doStow.1.still = w.still := by
  simp only [Work.doStow, Work.stowRequest]; repeat' split
  all_goals simp

/-! ## When the detectors of a channel judge (R18, R25, R28) -/

theorem Work.judged_of_fenced {w : Work} {c : ChanId} (h : (w.ch c).fenced = true) : w.judged c = false := by
  simp [Work.judged, h]

theorem Work.judged_of_driving {w : Work} {c : ChanId} (hd : (w.ch c).driving = true) :
    w.judged c = !(w.ch c).fenced := by
  simp [Work.judged, hd]

/-- A mover with one channel has no partner whose lock could be recorded. -/
theorem Work.partnerLock_of_unpaired {w : Work} {c : ChanId} {m : MoverId} (hm : w.moverOf c = some m)
    (hf : (w.mv m).follower = none) : w.partnerLock c = none := by
  simp only [Work.partnerLock, hm, Mover.paired, hf]
  split <;> simp

theorem Work.judged_of_unpaired {w : Work} {c : ChanId} {m : MoverId} (hm : w.moverOf c = some m)
    (hf : (w.mv m).follower = none) : w.judged c = (!(w.ch c).fenced && (w.ch c).driving) := by
  simp [Work.judged, Work.partnerLock_of_unpaired hm hf]

theorem Work.judgeRange_of_not_judged {w : Work} {c : ChanId} (h : w.judged c = false) : w.judgeRange c = w := by
  simp [Work.judgeRange, h]

theorem Work.judgeOverspeed_of_not_judged {w : Work} {c : ChanId} (h : w.judged c = false) : w.judgeOverspeed c = w := by
  simp [Work.judgeOverspeed, h]

theorem Work.judgeOvercurrent_of_not_judged {w : Work} {c : ChanId} (h : w.judged c = false) :
    w.judgeOvercurrent c = w := by
  simp [Work.judgeOvercurrent, h]

end Sys2Proof.Machine
end

