-- ==== Sys2Proof/Laws/Kept.lean ====
section
/-! SUPPORT. What the commands of motion, hydraulics, tilt and supply keep (`Safety.kept`): one lemma for the work of each
command, from the frames of its operations. -/

namespace Sys2Proof.Safety

set_option Elab.async false

open Sys2Proof.Machine

theorem kept_of_calm {w z : Work} (h : w.calm = z.calm) : kept w = kept z := by
  simp only [Work.calm, Still.calm, Work.still, Calm.mk.injEq] at h
  simp [kept, h]

theorem kept_of_still {w z : Work} (h : w.still = z.still) : kept w = kept z := kept_of_calm (Work.calm_of_still h)

/-- Moving the clock on, showing pins, supply and tilt are not among what is kept. -/
theorem kept_notBefore (w : Work) (t : Time) : kept (w.notBefore t) = kept w := rfl

@[simp] theorem kept_toActive (w : Work) : kept w.toActive = kept w := kept_of_calm w.toActive_calm

@[simp] theorem kept_finish (s : State) (w : Work) (r : Option Frame) : kept (finish s w r).work = kept w :=
  kept_of_calm (finish_calm s w r)

theorem kept_event (s : State) (f : Work → Work) (h : kept (f s.work) = kept s.work) :
    kept (event s f).work = kept s.work := by
  rcases event_cases s f with ⟨_, e⟩ | ⟨_, e⟩ <;> rw [e]
  rw [kept_finish, h]

theorem kept_request (s : State) (k g : Byte) (f : State → Work × Reply) (h : ∀ s, kept (f s).1 = kept s.work) :
    kept (request s k g f).work = kept s.work := by
  have ha : kept s.toActive.work = kept s.work := kept_toActive s.work
  rcases request_cases s k g f with ⟨_, e⟩ | ⟨_, _, e⟩ | ⟨_, _, e⟩ <;> rw [e]
  · exact ha
  · rw [kept_finish, h, ha]

/-! ## Motor channels, rooms, panel -/

@[simp] theorem kept_dutyUpdate (w : Work) (c : ChanId) : kept (w.dutyUpdate c) = kept w := by
  simp only [Work.dutyUpdate]; repeat' split
  all_goals first | rfl | (rw [kept_of_still (Work.updateMover_still _ _ _)]; rfl)

@[simp] theorem kept_stallAt (w : Work) (c : ChanId) (n : Nat) : kept (w.stallAt c n) = kept w := by
  simp only [Work.stallAt]; repeat' split
  all_goals first | rfl | (rw [kept_of_still (Work.judgeStall_still _ _ _ _)]; rfl)

@[simp] theorem kept_overcurrentAt (w : Work) (c : ChanId) (n : Nat) : kept (w.overcurrentAt c n) = kept w := by
  simp only [Work.overcurrentAt]; split
  · rw [kept_of_still (Work.judgeOvercurrent_still _ _)]; rfl
  · rfl

@[simp] theorem kept_overspeedAt (w : Work) (c : ChanId) (n : Nat) : kept (w.overspeedAt c n) = kept w := by
  simp only [Work.overspeedAt]; split
  · rw [kept_of_still (Work.hallCount_still _ _)]; rfl
  · rfl

@[simp] theorem kept_retryExpiry (w : Work) (c : ChanId) : kept (w.retryExpiry c) = kept w := by
  simp only [Work.retryExpiry]; repeat' split
  all_goals first | rfl | (rw [kept_of_still (Work.endRetry_still _ _)]; rfl)

@[simp] theorem kept_stoppingEnd (w : Work) (c : ChanId) : kept (w.stoppingEnd c) = kept w := by
  simp only [Work.stoppingEnd]; repeat' split
  all_goals first | rfl | (rw [kept_of_still (Work.endChan_still _ _ _ _)]; rfl)

@[simp] theorem kept_leaseExpiry (w : Work) (m : MoverId) : kept (w.leaseExpiry m) = kept w := by
  simp only [Work.leaseExpiry]; split
  · rw [kept_of_still (Work.haltMover_still _ _ _)]; rfl
  · rfl

@[simp] theorem kept_holdOffExpiry (w : Work) (m : MoverId) : kept (w.holdOffExpiry m) = kept w := by
  simp only [Work.holdOffExpiry]; split <;> rfl

@[simp] theorem kept_reversalExpiry (w : Work) (m : MoverId) : kept (w.reversalExpiry m) = kept w := by
  simp only [Work.reversalExpiry]; split <;> rfl

@[simp] theorem kept_roomDwellEnd (w : Work) (m : MoverId) : kept (w.roomDwellEnd m) = kept w := by
  simp only [Work.roomDwellEnd]; split
  · rw [kept_of_still (Work.takeReversal_still _ _)]; rfl
  · rfl

@[simp] theorem kept_press (w : Work) (m : MoverId) (d : Dir) : kept (w.press m d) = kept w := by
  simp only [Work.press]; split
  · rw [kept_of_still (Work.pressSwitch_still _ _ _)]; exact kept_toActive w
  · rfl

@[simp] theorem kept_unpress (w : Work) (m : MoverId) (d : Dir) : kept (w.unpress m d) = kept w := by
  simp only [Work.unpress]; split
  · rw [kept_of_still (Work.releaseSwitch_still _ _ _)]; rfl
  · rfl

@[simp] theorem kept_settleSwitch (w : Work) (m : MoverId) (d : Dir) (b : Bool) : kept (w.settleSwitch m d b) = kept w := by
  simp only [Work.settleSwitch]; split <;> rfl

@[simp] theorem kept_awningDwellEnd (w : Work) : kept w.awningDwellEnd = kept w := by
  simp only [Work.awningDwellEnd]; split
  · rfl
  · split
    · rw [kept_of_still (Work.presentRetract_still _ _)]; rfl
    · rw [kept_of_still (Work.takeReversal_still _ _)]; rfl

/-! ## Hydraulics -/

@[simp] theorem kept_pumpDwellEnd (w : Work) : kept w.pumpDwellEnd = kept w := by
  simp only [Work.pumpDwellEnd]; repeat' split
  all_goals first | rfl | (rw [kept_of_still (Work.pumpRun_still _)]; rfl)

@[simp] theorem kept_pumpRestEnd (w : Work) : kept w.pumpRestEnd = kept w := by
  simp only [Work.pumpRestEnd]; split <;> rfl

@[simp] theorem kept_overrunStop (w : Work) : kept w.overrunStop = kept w := by
  simp only [Work.overrunStop]; split
  · exact kept_of_still (Work.endLevel_still _ _ _)
  · exact kept_of_still (Work.endActivity_still _ _ _)

@[simp] theorem kept_pumpOverrun (w : Work) : kept w.pumpOverrun = kept w := by
  simp only [Work.pumpOverrun]; split
  · rw [kept_overrunStop]; rfl
  · rfl

@[simp] theorem kept_stowTimeout (w : Work) : kept w.stowTimeout = kept w := by
  simp only [Work.stowTimeout]; repeat' split
  all_goals first
    | rfl
    | (rw [kept_of_still (Work.checkWork_still _),
        kept_of_still (foldl_still _ _ (fun w j => by simp only [Work.stowTimeoutJack]; split <;> simp) _)]; rfl)

@[simp] theorem kept_manualExpiry (w : Work) : kept w.manualExpiry = kept w := by
  simp only [Work.manualExpiry]; repeat' split
  all_goals first | rfl | (rw [kept_of_still (Work.endActivity_still _ _ _)]; rfl)

@[simp] theorem kept_groundChange (w : Work) (j : JackId) (b : Bool) : kept (w.groundChange j b) = kept w := by
  simp only [Work.groundChange]; split
  · rw [kept_of_still (Work.readSwitch_still _ _ _)]; rfl
  · rfl

@[simp] theorem kept_scanTimeout (w : Work) (j : JackId) (b : Bool) : kept (w.scanTimeout j b) = kept w := by
  simp only [Work.scanTimeout]; split <;> rfl

@[simp] theorem kept_strokeAt (w : Work) (j : JackId) (r : BitVec 12) : kept (w.strokeAt j r) = kept w := by
  simp only [Work.strokeAt]; split
  · rw [kept_of_still (Work.sampleStroke_still _ _ _)]; rfl
  · rfl

@[simp] theorem kept_thirdOutOfRange (w : Work) (j : JackId) (r : BitVec 12) :
    kept (w.thirdOutOfRange j r) = kept w := by
  simp only [Work.thirdOutOfRange, kept_strokeAt]; rfl

@[simp] theorem kept_lastLowSample (w : Work) (j : JackId) (r : BitVec 12) : kept (w.lastLowSample j r) = kept w := by
  simp only [Work.lastLowSample, kept_strokeAt]; split <;> rfl

/-! ## Tilt and levelling -/

@[simp] theorem kept_abortZero (w : Work) : kept w.abortZero = kept w := by
  simp only [Work.abortZero]; split <;> rfl

@[simp] theorem kept_zeroSample (w : Work) : kept w.zeroSample = kept w := by
  simp only [Work.zeroSample]; repeat' split
  all_goals first | rfl | (refine Eq.trans (kept_of_still ((Work.emit_still _ _).trans (Work.askLearned_still _))) ?_; rfl)

@[simp] theorem kept_filteredSample (w : Work) (x y : Nat) : kept (w.filteredSample x y) = kept w := by
  simp only [Work.filteredSample]
  repeat' split
  all_goals first
    | rfl
    | (rw [kept_zeroSample, kept_of_still (Work.tiltSample_still _)]; rfl)
    | (simp only [Work.setTiltFault, kept_abortZero]; rw [kept_of_still (Work.endLevel_still _ _ _)]; rfl)

@[simp] theorem kept_blockEnd (w : Work) (x y : BitVec 15) : kept (w.blockEnd x y) = kept w := by
  simp only [Work.blockEnd]; split
  · rw [kept_filteredSample]; rfl
  · rfl

@[simp] theorem kept_atDeadline (w : Work) (p : LevelPhase) (f : Work → Work) (h : ∀ w, kept (f w) = kept w) :
    kept (w.atDeadline p f) = kept w := by
  simp only [Work.atDeadline]; repeat' split
  all_goals first | rfl | (rw [h]; rfl)

@[simp] theorem kept_doZeroLearn (w : Work) : kept w.doZeroLearn.1 = kept w := by
  simp only [Work.doZeroLearn]; repeat' split
  all_goals rfl

@[simp] theorem kept_settleJacks (w : Work) : kept w.settleJacks = kept w := rfl

/-! ## Supply and budget -/

@[simp] theorem kept_setLow (w : Work) (b : Bool) : kept (w.setLow b) = kept w := by
  simp only [Work.setLow]; split <;> rfl

@[simp] theorem kept_setHigh (w : Work) (b : Bool) : kept (w.setHigh b) = kept w := by
  simp only [Work.setHigh]; split <;> rfl

theorem kept_ite (b : Prop) [Decidable b] (w : Work) (f : Work → Work) (h : ∀ w, kept (f w) = kept w) :
    kept (if b then f w else w) = kept w := by
  split
  · exact h w
  · rfl

@[simp] theorem kept_judgeVoltage (w : Work) (v : Nat) : kept (w.judgeVoltage v) = kept w := by
  simp only [Work.judgeVoltage]
  refine (kept_ite _ _ (fun w => w.setHigh true) (by simp)).trans ?_
  refine (kept_ite _ _ (fun w => w.setLow true) (by simp)).trans ?_
  refine (kept_ite _ _ (fun w => w.setHigh false) (by simp)).trans ?_
  exact kept_ite _ _ (fun w => w.setLow false) (by simp)

@[simp] theorem kept_clearSupply (w : Work) : kept w.clearSupply.1 = kept w := by
  simp only [Work.clearSupply]; split <;> simp

@[simp] theorem kept_busTrip (w : Work) (n : Nat) : kept (w.busTrip n) = kept w := by
  have h : ∀ w : Work, w.tripHyd.still = w.still := by
    intro w; simp only [Work.tripHyd]; split <;> simp
  refine Eq.trans (kept_of_still ((Work.emit_still _ _).trans ((h _).trans (Work.dropRetract_still _ _)))) ?_
  rw [kept_of_still (foldl_still _ _ (fun w m => by simp [Work.tripMover]) _)]
  rfl

@[simp] theorem kept_judgeBus (w : Work) (n : Nat) : kept (w.judgeBus n) = kept w := by
  simp only [Work.judgeBus, apply_ite kept, kept_busTrip]
  refine Eq.trans (if_congr Iff.rfl (ite_self _) rfl) ?_
  exact ite_self _

@[simp] theorem kept_lastBus (w : Work) (b : Bool) : kept (w.lastBus b) = kept w := by
  simp only [Work.lastBus]; split <;> rfl

@[simp] theorem kept_maxWaitEnd (w : Work) (t : Fin 6) : kept (w.maxWaitEnd t) = kept w := by
  simp only [Work.maxWaitEnd]; split
  · rfl
  · split
    · rw [kept_of_still (Work.removeQueued_still _ _ _)]; rfl
    · split
      · rw [kept_of_still (Work.endLevel_still _ _ _)]; rfl
      · rw [kept_of_still (Work.endActivity_still _ _ _)]; rfl

end Sys2Proof.Safety
end

