-- ==== Sys2Proof/Laws/PerInstr.lean ====
section
/-! SUPPORT. Statements about every command as syntax, one lemma per constructor: a well-formed request is read back from
its kind, TAG and payload (Section 12.2). -/

namespace Sys2Proof.Laws.Wire

set_option Elab.async false

/-- What a well-formed command that has a frame spells is read back as that command, by a request kind and a payload that
fits a frame (R177). -/
def Statement (i : Instr) : Prop :=
  i.wf = true → ∀ k t p, encodeRequest i = some (k, t, p) →
    decodeRequest k t p = .request i ∧ p.length ≤ 48 ∧ 1 ≤ k.toNat ∧ k.toNat ≤ 0x3F

theorem half_halfBytes (h : Half) : half (h.setWidth 8) ((h >>> 8).setWidth 8) = h := by
  apply BitVec.eq_of_getLsbD_eq
  intro i hi
  simp only [half, BitVec.getLsbD_append, BitVec.getLsbD_setWidth, BitVec.getLsbD_ushiftRight]
  by_cases h8 : i < 8
  · simp [h8]
  · have h1 : i - 8 < 8 := by omega
    have h2 : 8 + (i - 8) = i := by omega
    simp [h8, h1, h2]

theorem decodeIds_flatMap (ids : List Half) : decodeIds (ids.flatMap halfBytes) = some ids := by
  induction ids with
  | nil => rfl
  | cons h t ih =>
    rw [List.flatMap_cons]
    show (decodeIds (t.flatMap halfBytes)).map _ = _
    rw [ih, half_halfBytes]; rfl

theorem decodePairs_flatMap (ps : List (Half × Half)) :
    decodePairs (ps.flatMap fun x => halfBytes x.1 ++ halfBytes x.2) = some ps := by
  induction ps with
  | nil => rfl
  | cons h t ih =>
    rw [List.flatMap_cons]
    show (decodePairs (t.flatMap fun x => halfBytes x.1 ++ halfBytes x.2)).map _ = _
    rw [ih, half_halfBytes, half_halfBytes]; rfl

theorem length_ids (ids : List Half) : (ids.flatMap halfBytes).length = 2 * ids.length := by
  induction ids with
  | nil => rfl
  | cons h t ih => rw [List.flatMap_cons, List.length_append, ih]; simp [halfBytes]; omega

theorem length_pairs (ps : List (Half × Half)) :
    (ps.flatMap fun x => halfBytes x.1 ++ halfBytes x.2).length = 4 * ps.length := by
  induction ps with
  | nil => rfl
  | cons h t ih => rw [List.flatMap_cons, List.length_append, ih]; simp [halfBytes]; omega

theorem nop (tag : Byte) : Statement (Instr.nop tag) := by
  intro _ k t p h
  cases h
  exact ⟨rfl, by simp, by decide, by decide⟩

theorem ident (tag : Byte) : Statement (Instr.ident tag) := by
  intro _ k t p h
  cases h
  exact ⟨rfl, by simp, by decide, by decide⟩

theorem attention (tag : Byte) : Statement (Instr.attention tag) := by
  intro _ k t p h
  cases h
  exact ⟨rfl, by simp, by decide, by decide⟩

theorem posture (tag : Byte) : Statement (Instr.posture tag) := by
  intro _ k t p h
  cases h
  exact ⟨rfl, by simp, by decide, by decide⟩

theorem channel (tag : Byte) (index : Byte) : Statement (Instr.channel tag index) := by
  intro _ k t p h
  cases h
  exact ⟨rfl, by simp, by decide, by decide⟩

theorem room (tag : Byte) (index : Byte) : Statement (Instr.room tag index) := by
  intro _ k t p h
  cases h
  exact ⟨rfl, by simp, by decide, by decide⟩

theorem jacks (tag : Byte) : Statement (Instr.jacks tag) := by
  intro _ k t p h
  cases h
  exact ⟨rfl, by simp, by decide, by decide⟩

theorem levelStatus (tag : Byte) : Statement (Instr.levelStatus tag) := by
  intro _ k t p h
  cases h
  exact ⟨rfl, by simp, by decide, by decide⟩

theorem wind (tag : Byte) : Statement (Instr.wind tag) := by
  intro _ k t p h
  cases h
  exact ⟨rfl, by simp, by decide, by decide⟩

theorem supply (tag : Byte) : Statement (Instr.supply tag) := by
  intro _ k t p h
  cases h
  exact ⟨rfl, by simp, by decide, by decide⟩

theorem queue (tag : Byte) : Statement (Instr.queue tag) := by
  intro _ k t p h
  cases h
  exact ⟨rfl, by simp, by decide, by decide⟩

theorem profileRead (tag : Byte) (ids : List Half) : Statement (Instr.profileRead tag ids) := by
  intro hw k t p h
  cases h
  simp only [Instr.wf, Bool.and_eq_true, decide_eq_true_eq] at hw
  refine ⟨?_, by rw [length_ids]; omega, by decide, by decide⟩
  simp [decodeRequest, decodeIds_flatMap, hw]

theorem move (tag : Byte) (target dir : Byte) : Statement (Instr.move tag target dir) := by
  intro _ k t p h
  cases h
  exact ⟨rfl, by simp, by decide, by decide⟩

theorem stop (tag : Byte) (target : Byte) : Statement (Instr.stop tag target) := by
  intro _ k t p h
  cases h
  exact ⟨rfl, by simp, by decide, by decide⟩

theorem levelStart (tag : Byte) (mode : Byte) : Statement (Instr.levelStart tag mode) := by
  intro _ k t p h
  cases h
  exact ⟨rfl, by simp, by decide, by decide⟩

theorem levelCancel (tag : Byte) : Statement (Instr.levelCancel tag) := by
  intro _ k t p h
  cases h
  exact ⟨rfl, by simp, by decide, by decide⟩

theorem jackMove (tag : Byte) (mask dir : Byte) : Statement (Instr.jackMove tag mask dir) := by
  intro _ k t p h
  cases h
  exact ⟨rfl, by simp, by decide, by decide⟩

theorem jacksStow (tag : Byte) : Statement (Instr.jacksStow tag) := by
  intro _ k t p h
  cases h
  exact ⟨rfl, by simp, by decide, by decide⟩

theorem faultClear (tag : Byte) (target : Byte) : Statement (Instr.faultClear tag target) := by
  intro _ k t p h
  cases h
  exact ⟨rfl, by simp, by decide, by decide⟩

theorem fenceSet (tag : Byte) (chanMask jackMask : Byte) : Statement (Instr.fenceSet tag chanMask jackMask) := by
  intro _ k t p h
  cases h
  exact ⟨rfl, by simp, by decide, by decide⟩

theorem fenceClear (tag : Byte) (chanMask jackMask : Byte) : Statement (Instr.fenceClear tag chanMask jackMask) := by
  intro _ k t p h
  cases h
  exact ⟨rfl, by simp, by decide, by decide⟩

theorem inhibitSet (tag : Byte) (mask : Half) : Statement (Instr.inhibitSet tag mask) := by
  intro _ k t p h
  cases h
  exact ⟨congrArg _ (congrArg _ (half_halfBytes _)), by simp [halfBytes], by decide, by decide⟩

theorem inhibitClear (tag : Byte) (mask : Half) : Statement (Instr.inhibitClear tag mask) := by
  intro _ k t p h
  cases h
  exact ⟨congrArg _ (congrArg _ (half_halfBytes _)), by simp [halfBytes], by decide, by decide⟩

theorem attentionClear (tag : Byte) (mask : Half) : Statement (Instr.attentionClear tag mask) := by
  intro _ k t p h
  cases h
  exact ⟨congrArg _ (congrArg _ (half_halfBytes _)), by simp [halfBytes], by decide, by decide⟩

theorem reportEnable (tag : Byte) (mask : Half) : Statement (Instr.reportEnable tag mask) := by
  intro _ k t p h
  cases h
  exact ⟨congrArg _ (congrArg _ (half_halfBytes _)), by simp [halfBytes], by decide, by decide⟩

theorem reportDisable (tag : Byte) (mask : Half) : Statement (Instr.reportDisable tag mask) := by
  intro _ k t p h
  cases h
  exact ⟨congrArg _ (congrArg _ (half_halfBytes _)), by simp [halfBytes], by decide, by decide⟩

theorem serviceEnter (tag : Byte) : Statement (Instr.serviceEnter tag) := by
  intro _ k t p h
  cases h
  exact ⟨rfl, by simp, by decide, by decide⟩

theorem serviceLeave (tag : Byte) : Statement (Instr.serviceLeave tag) := by
  intro _ k t p h
  cases h
  exact ⟨rfl, by simp, by decide, by decide⟩

theorem learnStroke (tag : Byte) (target method : Byte) : Statement (Instr.learnStroke tag target method) := by
  intro _ k t p h
  cases h
  exact ⟨rfl, by simp, by decide, by decide⟩

theorem strokeSet (tag : Byte) (index : Byte) (counts : Half) : Statement (Instr.strokeSet tag index counts) := by
  intro _ k t p h
  cases h
  exact ⟨congrArg _ (congrArg _ (half_halfBytes _)), by simp [halfBytes], by decide, by decide⟩

theorem tiltZeroLearn (tag : Byte) : Statement (Instr.tiltZeroLearn tag) := by
  intro _ k t p h
  cases h
  exact ⟨rfl, by simp, by decide, by decide⟩

theorem profileWrite (tag : Byte) (pairs : List (Half × Half)) : Statement (Instr.profileWrite tag pairs) := by
  intro hw k t p h
  cases h
  simp only [Instr.wf, Bool.and_eq_true, decide_eq_true_eq] at hw
  refine ⟨?_, by rw [length_pairs]; omega, by decide, by decide⟩
  simp [decodeRequest, decodePairs_flatMap, hw]

theorem profileCommit (tag : Byte) : Statement (Instr.profileCommit tag) := by
  intro _ k t p h
  cases h
  exact ⟨rfl, by simp, by decide, by decide⟩

theorem sleep (tag : Byte) : Statement (Instr.sleep tag) := by
  intro _ k t p h
  cases h
  exact ⟨rfl, by simp, by decide, by decide⟩

theorem restart (tag : Byte) : Statement (Instr.restart tag) := by
  intro _ k t p h
  cases h
  exact ⟨rfl, by simp, by decide, by decide⟩

theorem selectAsserted : Statement (Instr.selectAsserted) := by
  intro _ k t p h
  cases h

theorem selectionEnd (rx : List Byte) : Statement (Instr.selectionEnd rx) := by
  intro _ k t p h
  cases h

theorem powerOnReset : Statement (Instr.powerOnReset) := by
  intro _ k t p h
  cases h

theorem resetPinAsserted : Statement (Instr.resetPinAsserted) := by
  intro _ k t p h
  cases h

theorem resetPinReleased : Statement (Instr.resetPinReleased) := by
  intro _ k t p h
  cases h

theorem startupLoadComplete : Statement (Instr.startupLoadComplete) := by
  intro _ k t p h
  cases h

theorem startupComplete : Statement (Instr.startupComplete) := by
  intro _ k t p h
  cases h

theorem panelSwitchSettled (pair : MoverId) (side : Dir) (pressed : Bool) : Statement (Instr.panelSwitchSettled pair side pressed) := by
  intro _ k t p h
  cases h

theorem coachInputSettled (input : CoachInput) (level : Bool) : Statement (Instr.coachInputSettled input level) := by
  intro _ k t p h
  cases h

theorem standbyEntry : Statement (Instr.standbyEntry) := by
  intro _ k t p h
  cases h

theorem dormantWake (sel ign pbrk wake : Bool) (panel : BitVec 10) : Statement (Instr.dormantWake sel ign pbrk wake panel) := by
  intro _ k t p h
  cases h

theorem hallCount (ch : ChanId) (elapsed : Nat) : Statement (Instr.hallCount ch elapsed) := by
  intro _ k t p h
  cases h

theorem dutyUpdate (ch : ChanId) : Statement (Instr.dutyUpdate ch) := by
  intro _ k t p h
  cases h

theorem stallJudgement (ch : ChanId) (current : Nat) : Statement (Instr.stallJudgement ch current) := by
  intro _ k t p h
  cases h

theorem overcurrentLock (ch : ChanId) (current : Nat) : Statement (Instr.overcurrentLock ch current) := by
  intro _ k t p h
  cases h

theorem overspeedLock (ch : ChanId) (elapsed : Nat) : Statement (Instr.overspeedLock ch elapsed) := by
  intro _ k t p h
  cases h

theorem retryWaitExpiry (ch : ChanId) : Statement (Instr.retryWaitExpiry ch) := by
  intro _ k t p h
  cases h

theorem stoppingEnd (ch : ChanId) : Statement (Instr.stoppingEnd ch) := by
  intro _ k t p h
  cases h

theorem checkpointWritten (ch : ChanId) : Statement (Instr.checkpointWritten ch) := by
  intro _ k t p h
  cases h

theorem learnedWritten : Statement (Instr.learnedWritten) := by
  intro _ k t p h
  cases h

theorem commitComplete (failed : BitVec 6) : Statement (Instr.commitComplete failed) := by
  intro _ k t p h
  cases h

theorem roomLeaseExpiry (m : MoverId) : Statement (Instr.roomLeaseExpiry m) := by
  intro _ k t p h
  cases h

theorem holdOffExpiry (m : MoverId) : Statement (Instr.holdOffExpiry m) := by
  intro _ k t p h
  cases h

theorem pendingReversalExpiry (m : MoverId) : Statement (Instr.pendingReversalExpiry m) := by
  intro _ k t p h
  cases h

theorem roomDwellEnd (room : Fin 4) : Statement (Instr.roomDwellEnd room) := by
  intro _ k t p h
  cases h

theorem panelPress (room : Fin 4) (side : Dir) : Statement (Instr.panelPress room side) := by
  intro _ k t p h
  cases h

theorem panelRelease (room : Fin 4) (side : Dir) : Statement (Instr.panelRelease room side) := by
  intro _ k t p h
  cases h

theorem awningPanelPress (side : Dir) : Statement (Instr.awningPanelPress side) := by
  intro _ k t p h
  cases h

theorem awningPanelRelease (side : Dir) : Statement (Instr.awningPanelRelease side) := by
  intro _ k t p h
  cases h

theorem awningDwellEnd : Statement (Instr.awningDwellEnd) := by
  intro _ k t p h
  cases h

theorem windGate (count : Nat) : Statement (Instr.windGate count) := by
  intro _ k t p h
  cases h

theorem lockoutExpiry : Statement (Instr.lockoutExpiry) := by
  intro _ k t p h
  cases h

theorem pumpDwellEnd : Statement (Instr.pumpDwellEnd) := by
  intro _ k t p h
  cases h

theorem pumpRestEnd : Statement (Instr.pumpRestEnd) := by
  intro _ k t p h
  cases h

theorem pumpOverrun : Statement (Instr.pumpOverrun) := by
  intro _ k t p h
  cases h

theorem groundedFlagChange (jack : JackId) (level : Bool) : Statement (Instr.groundedFlagChange jack level) := by
  intro _ k t p h
  cases h

theorem jackScanSettleTimeout (jack : JackId) (level : Bool) : Statement (Instr.jackScanSettleTimeout jack level) := by
  intro _ k t p h
  cases h

theorem strokeSample (jack : JackId) (raw : BitVec 12) : Statement (Instr.strokeSample jack raw) := by
  intro _ k t p h
  cases h

theorem strokeSensorFault (jack : JackId) (raw : BitVec 12) : Statement (Instr.strokeSensorFault jack raw) := by
  intro _ k t p h
  cases h

theorem retractedIndicatorSet (jack : JackId) (raw : BitVec 12) : Statement (Instr.retractedIndicatorSet jack raw) := by
  intro _ k t p h
  cases h

theorem stowTimeout : Statement (Instr.stowTimeout) := by
  intro _ k t p h
  cases h

theorem manualLeaseExpiry : Statement (Instr.manualLeaseExpiry) := by
  intro _ k t p h
  cases h

theorem filteredSample (sx sy : BitVec 15) : Statement (Instr.filteredSample sx sy) := by
  intro _ k t p h
  cases h

theorem tiltFaultSet (sx sy : BitVec 15) : Statement (Instr.tiltFaultSet sx sy) := by
  intro _ k t p h
  cases h

theorem tiltFaultClear (sx sy : BitVec 15) : Statement (Instr.tiltFaultClear sx sy) := by
  intro _ k t p h
  cases h

theorem zeroLearnComplete (sx sy : BitVec 15) : Statement (Instr.zeroLearnComplete sx sy) := by
  intro _ k t p h
  cases h

theorem touchdownDeadline : Statement (Instr.touchdownDeadline) := by
  intro _ k t p h
  cases h

theorem levellingDeadline : Statement (Instr.levellingDeadline) := by
  intro _ k t p h
  cases h

theorem stabilizeDeadline : Statement (Instr.stabilizeDeadline) := by
  intro _ k t p h
  cases h

theorem settleTimeEnd : Statement (Instr.settleTimeEnd) := by
  intro _ k t p h
  cases h

theorem levelLost (sx sy : BitVec 15) : Statement (Instr.levelLost sx sy) := by
  intro _ k t p h
  cases h

theorem supplyFlagSet (side : SupplySide) (voltage : Nat) : Statement (Instr.supplyFlagSet side voltage) := by
  intro _ k t p h
  cases h

theorem supplyFlagClear (side : SupplySide) (voltage : Nat) : Statement (Instr.supplyFlagClear side voltage) := by
  intro _ k t p h
  cases h

theorem busOvercurrentTrip (sum : Nat) : Statement (Instr.busOvercurrentTrip sum) := by
  intro _ k t p h
  cases h

theorem busDetectorRearm (sum : Nat) : Statement (Instr.busDetectorRearm sum) := by
  intro _ k t p h
  cases h

theorem queueMaxWait (target : Fin 6) : Statement (Instr.queueMaxWait target) := by
  intro _ k t p h
  cases h

theorem coachInputChange (input : CoachInput) (level : Bool) : Statement (Instr.coachInputChange input level) := by
  intro _ k t p h
  cases h

theorem speedGate (count : Nat) : Statement (Instr.speedGate count) := by
  intro _ k t p h
  cases h

theorem alertSlowToggle : Statement (Instr.alertSlowToggle) := by
  intro _ k t p h
  cases h

end Sys2Proof.Laws.Wire
end

