-- ==== Sys2Proof/Tests/Slice0.lean ====
section
/-! SUPPORT. The model's own tests: the checks of `Instr.wf`, figures of the manual's worked examples, a few
single effects, and for every statement with hypotheses a state that meets them. -/

namespace Sys2Proof.Tests

set_option Elab.async false

open Sys2Proof.Machine Sys2Proof.Safety

/-! ## The checks of `Instr.wf`, each with a command it refuses -/

theorem test_wf_profileRead : (Instr.profileRead 0 []).wf = false := by decide
theorem test_wf_profileRead_long : (Instr.profileRead 0 (List.replicate 13 0)).wf = false := by decide
theorem test_wf_profileWrite : (Instr.profileWrite 0 []).wf = false := by decide
theorem test_wf_profileWrite_long : (Instr.profileWrite 0 (List.replicate 11 (0, 0))).wf = false := by decide
theorem test_wf_dormantWake : (Instr.dormantWake false false false false 0).wf = false := by decide
theorem test_wf_stallJudgement : (Instr.stallJudgement 0 1001).wf = false := by decide
theorem test_wf_overcurrentLock : (Instr.overcurrentLock 0 1001).wf = false := by decide
theorem test_wf_windGate : (Instr.windGate 65536).wf = false := by decide
theorem test_wf_speedGate : (Instr.speedGate 65536).wf = false := by decide
theorem test_wf_filteredSample : (Instr.filteredSample 32761 0).wf = false := by decide
theorem test_wf_tiltFaultSet : (Instr.tiltFaultSet 0 32761).wf = false := by decide
theorem test_wf_tiltFaultClear : (Instr.tiltFaultClear 32761 0).wf = false := by decide
theorem test_wf_zeroLearnComplete : (Instr.zeroLearnComplete 0 32761).wf = false := by decide
theorem test_wf_levelLost : (Instr.levelLost 32761 32761).wf = false := by decide
theorem test_wf_supplyFlagSet : (Instr.supplyFlagSet .low 2001).wf = false := by decide
theorem test_wf_supplyFlagClear : (Instr.supplyFlagClear .high 2001).wf = false := by decide
theorem test_wf_busOvercurrentTrip : (Instr.busOvercurrentTrip 9001).wf = false := by decide
theorem test_wf_busDetectorRearm : (Instr.busDetectorRearm 9001).wf = false := by decide

/-! ## Figures of the worked examples -/

/-- Section 10.3, the check byte. -/
theorem test_check_byte : crc8 [0x00, 0x01, 0x2A] = 0xC3 := by decide +kernel
theorem test_idle_frame : judge [0, 0, 0, 0] = .idle := by decide +kernel
theorem test_check_error : judge [0x00, 0x01, 0x2B, 0xC3] = .checkError := by decide +kernel
theorem test_nop_frame : judge [0x00, 0x01, 0x2A, 0xC3] = .request (.nop 0x2A) := by decide +kernel

/-- Section 1.4, the ramp from 64 to 200 in 400 ms. -/
theorem test_ramp : rampDutyAt 64 200 10000 400000 = 67 ∧ rampDutyAt 64 200 200000 400000 = 132 ∧
    rampDutyAt 64 200 400000 400000 = 200 := by decide
theorem test_step_down : stepDuty 200 96 = 184 ∧ stepDuty 104 96 = 96 := by decide

/-- Section 2.4, the sync trim. -/
theorem test_trim : trimPair .outward 200 4 8 40 3 = (.inBand, 200, 200) ∧
    trimPair .outward 200 4 8 40 7 = (.trimLeader, 176, 200) ∧ trimPair .inward 200 4 8 40 7 = (.trimFollower, 200, 176) ∧
    trimPair .outward 200 4 8 40 (-13) = (.trimFollower, 200, 128) ∧
    trimPair .outward 200 4 8 40 25 = (.trimLeader, 40, 200) ∧ trimPair .outward 96 4 8 40 6 = (.trimLeader, 80, 96) := by
  decide

/-- Section 2.6, the kitchen slide. -/
theorem test_held_stroke : heldStroke 880 = 1056 ∧ strokeAccepted 880 884 = true := by decide

/-- Section 4.5, case B. -/
theorem test_heights : cornerHeight 330 125 85 (-40) = 231 ∧ cornerHeight 330 (-125) 85 (-40) = 331 ∧
    cornerHeight (-330) 125 85 (-40) = -331 ∧ cornerHeight (-330) (-125) 85 (-40) = -231 := by decide
theorem test_demands : demandsOf #v[some 231, some 331, some (-331), some (-231), none, none] =
    #v[some 100, some 0, some 662, some 562, none, none] := by decide +kernel

/-! ## A small coach: room 0 on M0, room 1 on M1 and M2, the awning on M3, four jacks; everything in and at rest -/

def profile : Profile := [(0x0140, 1), (0x0141, 0)]

def motor (r : Role) : Machine.Channel := { role := r, bridge := .brake, known := true, seat := .inSeated }

def jack : Jack :=
  { valid := true, retracted := true, groundSettled := true, strokeSettled := true, retractSettled := true }

def level (b : Bool) : CoachLevel := { settled := true, level := b }

def coach : Work :=
  { now := 1000000, stage := .complete, mode := .normal, inh := 0,
    chans := #v[motor .roomLeader, motor .roomLeader, motor .roomFollower, motor .awning, {}, {}, {}, {}],
    movers := #v[{ present := true, leader := some 0 }, { present := true, leader := some 1, follower := some 2 }, {}, {},
                 { present := true, leader := some 3 }],
    jacks := Vector.replicate 6 jack, tilt := { fault := false, good := 25 }, sup := { voltage := 1300 },
    inputs := { ign := level false, pbrk := level true, park := level true, eng := level false, wake := level false },
    store := { working := profile, coach := profile } }

/-- A state with the given blocks, its posture as they give it. -/
def stateOf (w : Work) : State :=
  { work := w, port := { linkAt := some 0 },
    ready := { travel := w.travel, travelOk := w.travel == .travelReady, hazard := hazardOf w.inh w.travel,
               alert := w.alertOf w.travel (hazardOf w.inh w.travel) } }

def ready : State := stateOf coach

/-- The same with the queue, for one step. -/
def nopWaits : State := { ready with pending := [.nop 0] }

/-- A motion of a mover in a phase. -/
def motionOf (m : MoverId) (d : Dir) (p : Phase) : Motion :=
  { serial := 1, target := m, source := .link, dir := d, profile := .normal, phase := p, rampStart := 900000,
    stopTime := if p = .stopping then some 950000 else none, cause := if p = .stopping then some .stopped else none }

/-- One channel of a mover in a phase of a motion. -/
def put (w : Work) (c : ChanId) (mo : Motion) (duty : Nat) : Work :=
  w.setCh c { w.ch c with state := .moving, motion := some mo, duty := duty, bridge := .brake, seat := .between, pos := 500,
                          lastDir := mo.dir, dutyAt := some 995000 }

def claimLink (d : Dir) : Claim := { source := .link, dir := d, kind := .move, lease := some 1100000 }

/-- Room 0 in a phase of an OUT motion, with its claim and draw. -/
def room0 (p : Phase) : Work :=
  admitted ((put coach 0 (motionOf 0 .outward p) (if p = .run then 100 else 0)).setMv 0 { coach.mv 0 with
    claim := some (claimLink .outward), run := some { dir := .outward } }) 0 18

/-- Room 1, the pair, in a phase of an OUT motion. -/
def room1 (p : Phase) : Work :=
  (put (put coach 1 (motionOf 1 .outward p) 100) 2 (motionOf 1 .outward p) 100).setMv 1 { coach.mv 1 with
    claim := some (claimLink .outward), run := some { dir := .outward } }

/-- The pair moves inward, its leader under a policy for OBSTRUCTION and NO_PULSE, with a retry count. -/
def pairInward (p : Int) (retry : Nat) : Work :=
  let w := put (put coach 1 (motionOf 1 .inward .run) 100) 2 (motionOf 1 .inward .run) 100
  let w := (w.setCh 1 { w.ch 1 with retry := retry }).setMv 1 { coach.mv 1 with
    claim := some (claimLink .inward), run := some { dir := .inward } }
  { w with store := { w.store with working := (w.store.working.set 0x0301 p).set 0x0311 p } }

/-- Room 0 waits for admission. -/
def queuedRoom : Work :=
  (queued (coach.setMv 0 { coach.mv 0 with claim := some (claimLink .outward) })
    { target := 0, dir := .outward, source := .link, draw := 18, lease := some 1100000, since := 900000,
      waitEnd := 5000000 }).setQueued 0 true

/-- The pump runs for an activity. -/
def pumping (k : ActKind) : Work :=
  { coach with hyd := { coach.hyd with
      pump := .running, pdir := .outward, runStart := some 500000,
      activity := some { kind := k, dir := .outward, jackSet := Vector.replicate 6 true, openSet := Vector.replicate 6 true,
                         phase := .running, lease := if k = .manual then some 1100000 else none, start := some 500000 } } }

/-- A levelling procedure in a phase. -/
def levelling (p : LevelPhase) (k : LevelMode) (f : Option PendFlag) : Work :=
  { pumping .level with lvl := { phase := p, mode := some k, pass := 1, pendFlag := f, deadline := some 2000000 } }

def service : Work := { coach with mode := .service, service := true }

/-- The store writes a job. -/
def writing (j : Job) (r : Option Record) : Work :=
  { coach with store := { coach.store with busy := some { job := j, start := 999000, record := r } } }

def atRest : Checkpoint := { inMotion := false, pos := 5, known := true, seat := .inSeated }
def moving : Checkpoint := { atRest with inMotion := true }
def anyRecord : Record := { vals := [0, 5], check := 7 }

/-- A command that answers a next state with a property. -/
theorem next_of {o : Result} {P : State → Prop} [∀ t, Decidable (P t)]
    (h : (match o with | .next t => decide (P t) | _ => false) = true) : ∃ t, o = .next t ∧ P t := by
  revert h
  cases o with
  | next t => intro h; exact ⟨t, rfl, of_decide_eq_true h⟩
  | fault r => cases r
  | refused r => intro h; cases h

/-! ## Single effects -/

/-- Section 12.4 and R195: an UNUSED channel reads the values of R2 and 0. -/
theorem test_unused_channel :
    coach.channelData 7 = [3, 0, 0, 0, 0, 0, 0, 0, 2, 0, 0, 0, 3, 0, 0, 0, 0, 0, 0] := by decide +kernel

def selected (f : Option Frame) : State := { ready with port := { ready.port with selected := true, shift := f } }

/-- R176: the frame of the selection on SDO, then bytes of 0x00; high impedance outside a selection. -/
theorem test_sdo :
    (List.range 6).map (selected (some { kind := 1, tag := 0x2A, payload := [] })).outSdo =
      [some 0, some 1, some 0x2A, some 0xC3, some 0, some 0] ∧ ready.outSdo 0 = none := by decide +kernel

/-- R28: a lock on the second motor of a pair that the first lock has halted is recorded with the first one's action. -/
theorem test_second_lock :
    let w := ((room1 .run).raiseLock 1 .obstruction).raiseLock 2 .overspeed
    (w.ch 1).lastLock = some (.obstruction, .latchBrake) ∧ (w.ch 2).lastLock = some (.overspeed, .latchBrake) ∧
      (w.ch 2).fault = some .obstruction ∧ w.events.length = 1 := by decide +kernel

/-- R23: the rest window counts from the latest accepted hall edge, also from one before the hand-over. -/
theorem test_edge_before_the_motion :
    let w := ((coach.setCh 0 { coach.ch 0 with lastEdge := some 990000 }).handOver 0 .link .outward .normal)
    (w.ch 0).motion.map (fun mo => ({ mo with stopTime := some 1000000 } : Motion).earliestEnd 200000) = some 1190000 := by
  decide +kernel

/-- R51: an inward position loss makes the motion of a pair a homing motion at the lock, under RETRY too. -/
theorem test_position_loss_turns_homing :
    let w := (pairInward 2 0).raiseLock 1 .noPulse
    (w.mv 1).sync = .homing ∧ (w.ch 1).state = .retryWait ∧ (w.ch 2).motion.map (·.profile) = some .homing ∧
      (w.ch 1).known = false ∧ (w.ch 2).known = true := by decide +kernel

/-- R51: so does one after the first seat, and the motor left drives on at the homing duty. -/
theorem test_position_loss_after_a_seat :
    let w := ((pairInward 4 0).afterSeat 1).raiseLock 1 .noPulse
    (w.mv 1).sync = .homing ∧ w.idleSync 1 (motionOf 1 .inward .run) = .homing ∧
      (pairInward 4 0 |>.afterSeat 1).idleSync 1 (motionOf 1 .inward .run) = .seating := by decide +kernel

/-- R28: so is one after an ignored first lock whose position loss has stopped the pair outward. -/
theorem test_second_lock_after_an_ignored_one :
    let w := (({ room1 .run with store := (pairInward 4 0).store } : Work).raiseLock 1 .noPulse).raiseLock 2 .obstruction
    (w.ch 2).lastLock = some (.obstruction, .ignore) ∧ (w.ch 1).lastLock = none ∧ (w.ch 2).known = true ∧
      (w.ch 2).motion.bind (·.cause) = some .positionLost ∧ w.events = [] := by decide +kernel

/-! ## States that meet the hypotheses of the statements -/

theorem test_hyp_EveryStepCompletes :
    State.reset.pending = [] ∧ (∃ t, step State.reset = .next t ∧ t.pending = []) ∧
    ({ State.reset with work := { stage := .held } } : State).work.stage = .held :=
  ⟨rfl, next_of (by decide +kernel), rfl⟩

theorem test_hyp_CommandEndFrame :
    (finish ready coach none).work.stage = .complete ∧ coach.headDue = false ∧ coach.inh = coach.deriveInh ∧
    coach.stage = .complete ∧ coach.power = .active := by decide +kernel

/-- A work with LINK members set that its inhibit set does not show yet. -/
def inhibited (w : Work) : Work := { w with link := 0xF }

/-- What becomes active at the end of a command. -/
def became (w : Work) : BitVec 16 := w.deriveInh &&& ~~~w.inh

theorem test_hyp_CommandEnd_reports :
    ready.work.stage = .complete ∧ (inhibited coach).stage = .complete ∧ (inhibited coach).headDue = false ∧
    (inhibited coach).events = [] ∧ (inhibited coach).tilt.zeroRun = none ∧ ready.work.inh ≠ (inhibited coach).deriveInh ∧
    (∀ m : MoverId, became (inhibited coach) &&& (inhibited coach).claimMask m = 0) ∧
    (inhibited coach).lvl.phase = .idle ∧ (inhibited coach).hyd.activity = none ∧
    ((inhibited coach).mv awn).pendRetract = none := by decide +kernel

def learningRoom : Work := coach.setMv 0 { coach.mv 0 with learn := some { method := .refine, leg := .outward } }
def awningOut : Work := coach.setCh 3 { coach.ch 3 with pos := 300, seat := .between }
def retractWaits : Work :=
  awningOut.setMv awn { coach.mv awn with dwellEnd := some 1500000, pendRetract := some .travel }

theorem test_hyp_CommandEnd_arrivals :
    (let w := inhibited (room1 .run)
     w.headDue = false ∧ w.power = .active ∧ Wired w ∧ became w &&& w.claimMask 1 ≠ 0 ∧ (w.mv 1).learn = none ∧
       w.isQueued (moverTarget 1) = false ∧ (∀ c ∈ w.chansOf 1, (w.ch c).stoppable = true ∧ (w.ch c).starting = false) ∧
       w.chansOf 1 ≠ []) ∧
    (let w := inhibited (room0 .starting)
     Wired w ∧ became w &&& w.claimMask 0 ≠ 0 ∧ ∀ c ∈ w.chansOf 0, (w.ch c).starting = true) ∧
    (let w := inhibited queuedRoom
     Wired w ∧ became w &&& w.claimMask 0 ≠ 0 ∧ w.isQueued (moverTarget 0) = true) ∧
    (let w := inhibited learningRoom
     Wired w ∧ became w &&& w.claimMask 0 ≠ 0 ∧ (w.mv 0).learn.isSome = true) ∧
    (let w := inhibited retractWaits
     Wired w ∧ (w.mv awn).pendRetract = some .travel ∧ became w &&& retractMask .travel ≠ 0) ∧
    (let w := inhibited (levelling .touchdown .level none)
     Wired w ∧ w.lvl.phase ≠ .idle ∧ became w &&& MoveClass.je.mask ≠ 0) ∧
    (let w := inhibited (pumping .manual)
     Wired w ∧ w.lvl.phase = .idle ∧ w.hyd.activity.map (·.dir) = some .outward ∧
       became w &&& (jackClass .outward).mask ≠ 0) :=
  ⟨by decide +kernel, by decide +kernel, by decide +kernel, by decide +kernel, by decide +kernel, by decide +kernel,
   by decide +kernel⟩

/-- The pump waits for admission with the pump in a state. -/
def pumpQueued (p : Pump) : Work :=
  queued { pumping .manual with headDue := true, hyd := { (pumping .manual).hyd with pump := p, runStart := none } }
    { target := hydTarget, dir := .outward, source := .link, draw := 85, since := 0, waitEnd := 9000000 }

theorem test_hyp_CommandEnd_heads :
    (coach.bud.queue = [] ∧ queuedRoom.bud.queue.length = 1) ∧
    (∀ q ∈ queuedRoom.bud.queue, q.draw + queuedRoom.bud.sum ≤ queuedRoom.budget ∧ q.target = moverTarget 0) ∧
    ((queuedRoom.mv 0).claim.isSome = true ∧ (queuedRoom.mv 0).learn = none) ∧
    (∀ q ∈ (admitted queuedRoom 3 140).bud.queue, (admitted queuedRoom 3 140).budget < q.draw +
      (admitted queuedRoom 3 140).bud.sum) ∧
    ((pumpQueued .dwell).headDue = true ∧ (pumpQueued .dwell).bud.queue.length = 1 ∧
      (pumpQueued .dwell).hyd.activity.isSome = true ∧ (pumpQueued .dwell).hyd.pump = .dwell ∧
      (pumpQueued .off).hyd.pump = .off) ∧
    ∀ q ∈ (pumpQueued .off).bud.queue, q.draw + (pumpQueued .off).bud.sum ≤ (pumpQueued .off).budget := by decide +kernel

/-- A full outbound queue: 14 reports and two replies. -/
def fullQueued : State :=
  let r : Frame := { kind := 0xC0, tag := 0, payload := [] }
  { ready with port := { outq := List.replicate 14 r ++ List.replicate 2 { r with kind := 0x81 } } }

theorem test_hyp_laws_of_steps :
    (QueueBounded nopWaits ∧ Coherent nopWaits ∧ DrivesOnlyInMotion nopWaits) ∧ (∃ t, step nopWaits = .next t ∧ True) ∧
    QueueBounded fullQueued :=
  ⟨by decide +kernel, next_of (by decide +kernel), by decide +kernel⟩

/-- Without a learning run the law of learning says nothing. -/
theorem no_learning {w : Work} {m : MoverId} (h : (w.mv m).learn = none) : LearnLaw w m := fun l hl => by simp [h] at hl

theorem test_hyp_StepKeepsDriveLaw : DriveLaw nopWaits ∧ DriveLaw (stateOf (room0 .run)) ∧
    (((stateOf (room0 .run)).work.ch 0).duty ≠ 0 ∧ ∃ t, step { stateOf (room0 .run) with pending := [.nop 0] } = .next t ∧
      (t.work.ch 0).duty ≠ 0) := by
  refine ⟨⟨by decide +kernel, by decide +kernel, fun m => ⟨?_, ?_, no_learning ?_, ?_⟩⟩,
    ⟨by decide +kernel, by decide +kernel, fun m => ⟨?_, ?_, no_learning ?_, ?_⟩⟩, by decide +kernel,
    next_of (by decide +kernel)⟩ <;> revert m <;> decide +kernel

/-- A law of the activity, decided at the one it has. -/
theorem at_activity {o : Option HydActivity} {P : HydActivity → Prop} (h : ∀ a ∈ o, P a) : ∀ a, o = some a → P a := h

/-- The pump runs for a MANUAL extension of the first jack, whose valve is open; its draw is admitted. -/
def firstJack : JackSet := jacksWhere fun j => j.val = 0
def extending : State :=
  let w := pumping .manual
  stateOf (admitted { w with hyd := { w.hyd with
    activity := w.hyd.activity.map fun a => { a with jackSet := firstJack, openSet := firstJack } } } hydTarget 85)

theorem test_hyp_StepKeepsHydraulicLaw : HydraulicLaw nopWaits ∧ HydraulicLaw extending ∧
    (extending.work.valve 0 = true ∧ extending.work.valve 1 = false ∧ extending.work.hyd.pump = .running) ∧
    ∃ t, step { extending with pending := [.nop 0] } = .next t ∧ t.work.hyd.pump = .running ∧ t.work.valve 0 = true :=
  ⟨⟨by decide +kernel, at_activity (by decide +kernel), by decide +kernel⟩,
   ⟨by decide +kernel, at_activity (by decide +kernel), by decide +kernel⟩, by decide +kernel, next_of (by decide +kernel)⟩

theorem test_hyp_StepKeepsBudgetLaw :
    (DriveLaw (stateOf (room0 .run)) ∧ HydraulicLaw (stateOf (room0 .run)) ∧ BudgetLaw (stateOf (room0 .run)) ∧
      (room0 .run).bud.sum = 18) ∧ BudgetLaw nopWaits ∧ BudgetLaw extending ∧
    ∃ t, step { stateOf (room0 .run) with pending := [.nop 0] } = .next t ∧ t.work.bud.sum = 18 := by
  refine ⟨⟨test_hyp_StepKeepsDriveLaw.2.1, ⟨?_, at_activity ?_, ?_⟩, ?_, ?_⟩, ?_, ?_, next_of ?_⟩ <;> decide +kernel

theorem defaults_in_range : ∀ f ∈ fields, f.inRange f.dflt = true := by decide +kernel

theorem test_hyp_StepKeepsProfilesInRange : ProfilesInRange nopWaits := by
  have h : ProfileInRange profile := by
    intro i f hf
    have at_id (k : Nat) (hk : (fieldOf k).map (fun f => f.inRange (profile.get k)) = some true) (hi : i = k) :
        f.inRange (profile.get i) = true := by
      subst hi
      simpa [hf] using hk
    by_cases h0 : i = 0x0140
    · exact at_id _ (by decide +kernel) h0
    · by_cases h1 : i = 0x0141
      · exact at_id _ (by decide +kernel) h1
      · have hd : profile.get i = dfltOf i := by
          have e0 : ((0x0140 : Nat) == i) = false := beq_false_of_ne (Ne.symm h0)
          have e1 : ((0x0141 : Nat) == i) = false := beq_false_of_ne (Ne.symm h1)
          simp only [Profile.get, profile, List.find?, e0, e1]
        rw [hd, dfltOf, hf]
        exact defaults_in_range f (List.mem_of_find?_eq_some hf)
  exact ⟨h, h⟩

theorem test_hyp_StepKeepsCoherence : Coherent ready ∧ ready.outTravelOk = true := by decide +kernel

def pinLow : State := { ready with work := { coach with pins := { coach.pins with reset := true } } }

theorem test_hyp_ResetCommandsStartOver :
    ready.work.store.busy = none ∧ pinLow.work.pins.reset = true ∧ ready.work.awake = true ∧
    ready.work.pins.reset = false ∧
    (writing (.checkpoint 0 atRest none) (some anyRecord)).store.busy =
      some { job := .checkpoint 0 atRest none, start := 999000, record := some anyRecord } ∧
    (∃ t, exec .powerOnReset (stateOf (writing (.checkpoint 0 atRest none) (some anyRecord))) = .next t ∧ True) ∧
    (∃ t, exec .powerOnReset (stateOf (writing .learned (some anyRecord))) = .next t ∧ True) :=
  ⟨rfl, rfl, by decide +kernel, rfl, rfl, next_of (by decide +kernel), next_of (by decide +kernel)⟩

/-- A job is being written while RESET# is asserted. -/
def cutUnderPin (j : Job) : State :=
  stateOf { writing j (some anyRecord) with pins := { coach.pins with reset := true } }

theorem test_hyp_ResetCommands_cut :
    (∃ t, exec .resetPinAsserted (stateOf (writing (.checkpoint 0 atRest none) none)) = .next t ∧ True) ∧
    (∃ t, exec .resetPinReleased (cutUnderPin .commit) = .next t ∧ True) ∧
    (∃ t, exec (.restart 3) (stateOf (writing .commit none)) = .next t ∧ True) ∧
    ((cutUnderPin .commit).work.pins.reset = true ∧ (cutUnderPin .commit).work.store.busy.map (·.job) = some .commit) ∧
    ((stateOf (writing .commit none)).work.awake = true ∧ (writing .learned none).store.busy.map (·.job) = some .learned) :=
  ⟨next_of (by decide +kernel), next_of (by decide +kernel), next_of (by decide +kernel), by decide +kernel,
   by decide +kernel⟩

/-- Storage with a COACH section that gives room 0 the channel M0, and the checkpoints of M0. -/
def stored (cp : Option Record) : State :=
  { work := { store := {
      sections := (Vector.replicate 6 none).set 0 (some (Record.fresh (sectionVals [(0x0100, 0), (0x0110, 0)] 0))),
      checkpoints := (Vector.replicate 8 none).set 0 cp } } }

theorem test_hyp_StartupLoadsAndCompletes :
    (stored none).work.stage = .loading ∧ ({ ready with work := { coach with stage := .settling } } : State).work.stage =
      .settling ∧
    (∃ t, exec .startupLoadComplete (stored (some (Record.fresh atRest.vals))) = .next t ∧ (t.work.ch 0).role ≠ .unused ∧
      (readCheckpoint (some (Record.fresh atRest.vals))).map (·.inMotion) = some false) ∧
    (∃ t, exec .startupLoadComplete (stored none) = .next t ∧ (t.work.ch 0).role ≠ .unused) ∧
    (readCheckpoint (some (Record.fresh moving.vals))).map (·.inMotion) = some true :=
  ⟨by decide +kernel, rfl, next_of (by decide +kernel), next_of (by decide +kernel), by decide +kernel⟩

theorem test_hyp_InputsSettle :
    ready.work.awake = true ∧ ((ready.work.mv 0).switch .outward).settled = false ∧
    (({ coach with inputs := {} } : Work).inputs.get .wake).settled = false := by decide +kernel

theorem test_hyp_FramesCarryRequests :
    (Instr.move 1 4 0).wf = true ∧ encodeRequest (.move 1 4 0) = some (0x10, 1, [4, 0]) ∧
    (Instr.profileRead 9 (List.replicate 12 0x0606)).wf = true ∧
    (encodeRequest (.profileRead 9 (List.replicate 12 0x0606))).isSome = true ∧
    (Instr.profileWrite 9 (List.replicate 10 (0x0606, 40))).wf = true := by decide +kernel

def dormant : State := { ready with work := { coach with power := .dormant, dormantAt := some 900000 } }

theorem test_hyp_Selections :
    (ready.port.selected = false ∧ ready.work.awake = true) ∧ State.reset.work.stage.loaded = false ∧
    ((selected none).work.awake = true ∧ (selected none).port.selected = true ∧ (selected none).port.wakeSel = false) ∧
    (dormant.work.stage.loaded = true ∧ dormant.work.power = .dormant ∧ dormant.port.selected = false) ∧
    ([49, 1, 0, 0] : List Byte).length = 4 ∧ 48 < (49 : Byte).toNat ∧
    ([0, 1, 0x2A, 0xC3] : List Byte)[3]? = some (crc8 [0, 1, 0x2A]) ∧
    decodeRequest 0x3F 0 [] = .unknownKind ∧ decodeRequest 0x01 0 [0] = .badLength ∧
    decodeRequest 0x01 0x2A [] = .request (.nop 0x2A) := by decide +kernel

theorem test_hyp_Queries :
    Takes ready ∧ (ready.work.mv 0).present = true ∧ (ready.work.mv 2).present = false ∧ 8 ≤ (8 : Byte).toNat ∧
    4 ≤ (4 : Byte).toNat ∧ (fieldOf 0x0606).isSome = true ∧ (fieldOf 0x0107).isSome = true ∧
    (fieldOf 0x0108).isSome = false := by decide +kernel

theorem test_hyp_MasksPlacesAndReports :
    let p : Port := { mask := 0x0010, outq := List.replicate 13 { kind := 0xC0, tag := 0, payload := [] } }
    p.mask &&& (Event.store 0).bit = 0 ∧ p.mask &&& (Event.wind 1 true true).bit ≠ 0 ∧ p.outq.length ≤ 13 ∧
    14 ≤ (p.outq ++ p.outq).length ∧ ready.work.power = .active ∧
    16 ≤ (List.replicate 16 (0 : Nat)).length ∧ (encodeRequest (.nop 1)).isSome = true := by decide +kernel

/-! ## Power, modes, profile and store -/

theorem test_hyp_SleepEntersDormant :
    (Takes ready ∧ ready.work.stage = .complete ∧ ready.ready.travel ≠ .inMotion ∧ ready.ready.hazard = false ∧
      ready.work.stowed = true ∧ ready.work.storeBusy = false) ∧
    ((stateOf (room0 .run)).ready.travel = .inMotion ∧ Takes (stateOf (room0 .run))) ∧
    (stateOf awningOut).ready.hazard = false ∧ awningOut.stowed = false ∧ (awningOut.mv awn).present = true ∧
    (stateOf { awningOut with inh := 0x0002 }).ready.hazard = true ∧
    (writing .learned none).storeBusy = true := by decide +kernel

theorem test_hyp_Wakes :
    dormant.work.stage.loaded = true ∧ dormant.work.power = .dormant ∧
    (false || false || false || false || (1 : BitVec 10) != 0) = true ∧ (0x0100 : Half).getLsbD 8 = true ∧
    (0xFEFF : Half).getLsbD 8 = false ∧ pinLow.work.pins.reset = true := by decide +kernel

/-- The part in STANDBY, and one that has returned from it at a moment. -/
def standby : State := stateOf { coach with power := .standby }
def returned (t : Time) : State := { ready with work := { coach with returnedAt := some t } }

theorem test_hyp_WakeAndStandbyEntry :
    Settled dormant ∧
    (ready.work.stage = .complete ∧ ready.work.power = .active ∧ ready.ready.travel ≠ .inMotion ∧
      ready.work.bud.queue = [] ∧ ready.port.outq = [] ∧ ready.port.linkAt = some 0 ∧ ready.work.events = [] ∧
      ready.work.tilt.zeroRun = none ∧ ready.work.store.working = profile ∧ ready.work.returnedAt = none) ∧
    ((returned 0).work.returnedAt = some 0 ∧ (returned 0).port.linkAt = some 0) ∧
    ((returned 5).port.linkAt = some 0 ∧ (returned 5).work.returnedAt = some 5 ∧ 0 < 5) ∧
    (standby.work.awake = true ∧ standby.work.power = .standby ∧ (standby.work.inputs.get .wake).settled = true ∧
      (standby.work.inputs.get .wake).level ≠ true ∧ (standby.work.inputs.get .pbrk).level ≠ false) := by decide +kernel

theorem test_hyp_WakeCausesAreSticky :
    (dormant.work.stage.loaded = true ∧ dormant.work.power = .dormant ∧ dormant.port.selected = false) ∧
    ((∃ t, exec (.dormantWake false true false false 0) dormant = .next t ∧ t.work.wakeCauses = 2) ∧
      (∃ t, exec .selectAsserted dormant = .next t ∧ t.work.wakeCauses = 1)) ∧
    (judge [0, 1, 0x2A, 0xC3] = .request (.nop 0x2A) ∧
      ∃ t, exec (.selectionEnd [0, 1, 0x2A, 0xC3]) (selected none) = .next t ∧ t.work.wakeCauses = 0) :=
  ⟨by decide +kernel, ⟨next_of (by decide +kernel), next_of (by decide +kernel)⟩, by decide +kernel,
   next_of (by decide +kernel)⟩

theorem test_hyp_ServiceModeFollowsRequests :
    (stateOf service).work.mode = .service ∧ Takes (stateOf service) ∧ (∀ r ∈ allRooms, (service.mv r).learn = none) ∧
    service.tilt.zeroRun = none ∧ (stateOf { coach with mode := .unconfigured }).work.mode = .unconfigured ∧
    ready.work.mode = .normal ∧ ready.ready.travel ≠ .inMotion ∧ (stateOf (room0 .run)).ready.travel = .inMotion ∧
    (let r : ZeroRun := { count := 3, sumX := 0, sumY := 0 }
     (stateOf { service with tilt := { service.tilt with zeroRun := some r } }).work.tilt.zeroRun = some r) := by
  decide +kernel

theorem test_hyp_ProfileWritesAsAWhole :
    (Takes (stateOf service) ∧ service.mode = .service ∧ service.commitInFlight = false) ∧
    (writing .commit none).commitInFlight = true ∧ (acceptValue 0x0108 0).isSome = false ∧
    (acceptValue 0x0606 400).isSome = true ∧ (0x0600 ≤ 0x0606 ∧ 0x0606 ≤ 0x0609) ∧ (room0 .run).bud.admitted ≠ [] ∧
    service.bud.admitted = [] ∧ Profile.wf profile = true := by decide +kernel

theorem test_hyp_StoreQueueTakesJobs :
    service.bud.admitted = [] ∧ service.bud.queue = [] ∧ service.store.busy = none ∧ service.store.jobs = [] ∧
    (writing .learned none).store.busy ≠ none ∧ (writing .learned none).commitInFlight = false ∧
    (room0 .run).bud.admitted ≠ [] ∧
    ([Job.checkpoint 0 atRest none].filter (Job.isCheckpointOf 0)).length ≤ 1 ∧
    [Job.checkpoint 0 atRest none].any (Job.isCheckpointOf 0) = true ∧
    [Job.learned].any (Job.isCheckpointOf 0) = false := by decide +kernel

def committing (jobs : List Job) : Work :=
  { service with store := { service.store with jobs := jobs } }

theorem test_hyp_StoreJobsAreWritten :
    (ready.work.mode ≠ .service ∧ ready.work.mode ≠ .unconfigured) ∧
    (Takes (stateOf service) ∧ service.mode = .service ∧
      ({ service with store := { service.store with busy := some { job := .commit, start := 0 } } } : Work).commitInFlight =
        true) ∧
    ((committing [.learned]).store.busy = none ∧ (committing [.learned]).commitInFlight = false ∧
      (committing [.learned]).store.jobs = [.learned]) ∧
    (stateOf (writing .learned (some anyRecord))).work.awake = true ∧
    (writing (.checkpoint 0 atRest none) (some anyRecord)).store.busy =
      some { job := .checkpoint 0 atRest none, start := 999000, record := some anyRecord } ∧
    (writing .commit none).store.busy = some { job := .commit, start := 999000, record := none } ∧
    Settled (stateOf (writing (.checkpoint 0 atRest none) (some anyRecord))) ∧ (coach.ch 0).starting = false := by
  decide +kernel

/-! ## Requests that move a room or the awning -/

def fullBudget : Work := admitted coach 3 140
def fullQueue : Work :=
  { fullBudget with bud := { fullBudget.bud with
      queue := List.replicate 8 { target := 3, dir := .outward, source := .link, draw := 18, since := 0, waitEnd := 9000000 } } }

theorem test_hyp_MoveClaimsAFreeMover :
    (Takes ready ∧ coach.mode ≠ .unconfigured ∧ coach.stage = .complete) ∧
    (Free coach 0 ∧ (coach.mv 0).holdOffDir ≠ some .outward ∧ Cleared coach 0 .outward ∧ coach.atEnd 0 .outward = false ∧
      Fits coach (coach.moverDraw 0)) ∧
    (Free coach awn ∧ Cleared coach awn .outward ∧ Fits coach (coach.moverDraw awn)) ∧
    (Cleared coach 0 .inward ∧ coach.atEnd 0 .inward = true) ∧
    (¬Fits fullBudget 18 ∧ Safety.waiting fullBudget < fullBudget.queueLimit ∧ Free fullBudget 0 ∧
      Cleared fullBudget 0 .outward) ∧
    (¬Fits fullQueue 18 ∧ fullQueue.queueLimit ≤ Safety.waiting fullQueue ∧ Free fullQueue 0) :=
  ⟨by decide +kernel, by decide +kernel, by decide +kernel, by decide +kernel, by decide +kernel, by decide +kernel⟩

def fenced0 : Work := coach.setCh 0 { coach.ch 0 with fenced := true }
def faulted0 : Work := coach.setCh 0 { coach.ch 0 with state := .faulted, fault := some .obstruction }
def unknown0 : Work := coach.setCh 0 { coach.ch 0 with known := false, seat := .between }

theorem test_hyp_MoveRefusedInOrder :
    5 ≤ (5 : Byte).toNat ∧ 2 ≤ (2 : Byte).toNat ∧ ({ coach with mode := .unconfigured } : Work).mode = .unconfigured ∧
    ({ coach with stage := .settling } : Work).stage = .settling ∧ (coach.mv 2).present = false ∧
    (Free fenced0 0 ∧ fenced0.fenced 0 = true) ∧ (Free faulted0 0 ∧ faulted0.fenced 0 = false ∧ faulted0.faulted 0 = true) ∧
    (Free unknown0 0 ∧ unknown0.fenced 0 = false ∧ unknown0.faulted 0 = false ∧ unknown0.known 0 = false) ∧
    (Free (levelling .touchdown .level none) 0 ∧ (levelling .touchdown .level none).lvl.phase ≠ .idle) ∧
    LowestBlocking 0x0041 (moveClass awn .outward) 0 ∧ LowestBlocking 0x1010 (moveClass 0 .inward) 4 ∧
    (Free (room1 .run) awn ∧ (room1 .run).conflict awn = true ∧ (room1 .run).inh &&& (moveClass awn .outward).mask = 0) := by
  decide +kernel

def retrying : Work :=
  (room0 .run).setCh 0 { (room0 .run).ch 0 with state := .retryWait, duty := 0, retry := 1, retryEnd := some 1500000 }
def panelHeld : Work :=
  (room0 .run).setMv 0 { (room0 .run).mv 0 with claim := some { source := .panel, dir := .outward, kind := .move } }
/-- Room 0 learns its stroke in SERVICE: a leg in a phase, and a run that waits for admission. -/
def learns (k : LearnMethod) (d : Dir) (p : Phase) : Work :=
  admitted ((put service 0 { motionOf 0 d p with profile := .learn } (if p = .run then 100 else 0)).setMv 0 { coach.mv 0 with
    claim := some { claimLink d with kind := .learn }, run := some { dir := d },
    learn := some { method := k, leg := d, held := some 1056 } }) 0 18
def learnWaits (k : LearnMethod) (d : Dir) : Work :=
  { queuedRoom with
    mode := .service, service := true,
    movers := queuedRoom.movers.set 0 { queuedRoom.mv 0 with
      claim := some { claimLink d with kind := .learn }, learn := some { method := k, leg := d } } }
def learnRetries : Work :=
  let w := learns .refine .outward .run
  w.setCh 0 { w.ch 0 with state := .retryWait, duty := 0, retry := 1, retryEnd := some 1500000 }
def dwelling : Work := coach.setMv 0 { coach.mv 0 with dwellEnd := some 1500000 }

/-- The same under STOP_DWELL, and the awning under ONE_TOUCH. -/
def under (id : Nat) (w : Work) : Work := { w with store := { w.store with working := w.store.working.set id 1 } }
def reversing (d : Time) : Work :=
  coach.setMv 0 { coach.mv 0 with dwellEnd := some 1500000,
                                  pendRev := some { source := .link, dir := .inward, lease := some d } }
def holding : Work := coach.setMv 0 { coach.mv 0 with holdOff := some (.inward, 1200000) }

/-- The awning moves under a claim. -/
def awningMoves (c : Claim) : Work :=
  (put coach 3 (motionOf 4 c.dir .run) 100).setMv awn { coach.mv awn with claim := some c, run := some { dir := c.dir } }
/-- A one-touch motion outward, with an inward hold-off left from HOLD operation. -/
def awningHeldOff : Work :=
  let w := awningMoves { source := .link, dir := .outward, kind := .oneTouch }
  w.setMv awn { w.mv awn with holdOff := some (.inward, 1200000) }
def retracts (p : Purpose) : Work :=
  awningMoves { source := .auto, dir := .inward, kind := .retract, purpose := some p }

/-- R123: MOVE against a one-touch motion stops it, also where a hold-off of that direction stands. -/
theorem test_one_touch_under_hold_off :
    let r := awningHeldOff.claimMove awn .link .inward
    r.2.status = .done ∧ (r.1.ch 3).stopping = true ∧ (r.1.mv awn).claim = none := by decide +kernel

theorem test_hyp_MoveAtABusyRoom :
    (Takes (stateOf (room0 .run)) ∧ ((room0 .run).mv 0).learn = none ∧ ((room0 .run).mv 0).holdOffDir ≠ some .outward ∧
      (room0 .run).activity 0 ≠ .idle ∧ ((room0 .run).mv 0).claim = some (claimLink .outward) ∧
      (room0 .run).activity 0 ≠ .retryWait ∧ (room0 .run).stopDwell = false) ∧
    retrying.activity 0 = .retryWait ∧
    (panelHeld.activity 0 ≠ .retryWait ∧
      (panelHeld.mv 0).claim = some { source := .panel, dir := .outward, kind := .move }) ∧
    (dwelling.activity 0 ≠ .idle ∧ (dwelling.mv 0).claim = none ∧ (dwelling.mv 0).pendRev = none) := by decide +kernel

theorem test_hyp_MoveAtABusyMover :
    ((under 0x0271 (room0 .run)).stopDwell = true ∧ (under 0x0271 (room0 .run)).activity 0 ≠ .retryWait ∧
      (under 0x0271 (room0 .run)).isQueued (moverTarget 0) = false) ∧
    ((under 0x0271 queuedRoom).stopDwell = true ∧ (under 0x0271 queuedRoom).isQueued (moverTarget 0) = true ∧
      (queuedRoom.mv 0).claim = some (claimLink .outward)) ∧
    ((reversing 1400000).activity 0 ≠ .idle ∧ ((reversing 1400000).mv 0).claim = none ∧
      ((reversing 1400000).mv 0).pendRev = some { source := .link, dir := .inward, lease := some 1400000 }) ∧
    (let w := awningMoves { source := .link, dir := .outward, kind := .oneTouch }
     w.activity awn ≠ .idle ∧ w.holdsRetract = none ∧ (w.mv awn).claim.map (·.kind) = some .oneTouch ∧
       (w.mv awn).learn = none) ∧
    (let w := awningHeldOff
     Takes (stateOf w) ∧ w.activity awn ≠ .idle ∧ w.holdsRetract = none ∧ (w.mv awn).holdOffDir = some .inward ∧
       (w.mv awn).claim.map (·.kind) = some .oneTouch ∧ (holding.mv 0).claim.map (·.kind) ≠ some .oneTouch) ∧
    (let w := awningMoves { claimLink .outward with kind := .hold }
     w.activity awn ≠ .idle ∧ w.holdsRetract = none ∧ (w.mv awn).claim.map (·.kind) = some .hold) ∧
    ((holding.mv 0).learn = none ∧ (holding.mv 0).present = true ∧ (holding.mv 0).holdOffDir = some .inward) ∧
    ((retracts .wind).holdsRetract = some .wind ∧ (retracts .travel).holdsRetract = some .travel ∧
      ((retracts .travel).mv awn).pendRetract = none) ∧
    (retractWaits.holdsRetract = some .travel ∧ (retractWaits.mv awn).pendRetract.isSome = true) := by decide +kernel

theorem test_hyp_HandOverStartsMotion :
    (coach.chansOf 1).Nodup ∧ (1 : ChanId) ∈ coach.chansOf 1 ∧ coach.chansOf 0 = [0] ∧ (3 : ChanId) ∉ coach.chansOf 1 := by
  decide +kernel

theorem test_hyp_StopEndsWhatAMoverHolds :
    Takes ready ∧ (coach.mv 0).present = true ∧ coach.holdsRetract = none ∧ ((retracts .wind).mv awn).present = true ∧
    (retracts .wind).holdsRetract = some .wind ∧ (retracts .travel).holdsRetract = some .travel ∧
    ((retracts .travel).mv awn).present = true ∧ retractWaits.holdsRetract = some .travel ∧ (coach.mv 3).present = false ∧
    5 ≤ (0xFE : Byte).toNat := by decide +kernel

theorem test_hyp_StopRequestEndsMotion :
    ((queuedRoom.mv 0).learn = none ∧ queuedRoom.isQueued (moverTarget 0) = true) ∧
    ((room1 .run).isQueued (moverTarget 1) = false ∧ (room1 .run).chansOf 1 ≠ [] ∧ ((room1 .run).chansOf 1).Nodup ∧
      ∀ c ∈ (room1 .run).chansOf 1, ((room1 .run).ch c).driving = true) ∧
    (Lone (room0 .starting) 0 0 ∧ ((room0 .starting).ch 0).starting = true ∧
      ((room0 .starting).mv 0).run = some { dir := .outward }) ∧
    (retrying.isQueued (moverTarget 0) = false ∧ (retrying.ch 0).stoppable = true ∧ (retrying.ch 0).starting = false) ∧
    coach.anyCh 0 Channel.stoppable = false := by decide +kernel

theorem test_hyp_MotionCommandsKeepSlowState :
    motionCommand (.move 0 0 0) = true ∧ ∃ t, exec (.move 0 0 0) ready = .next t ∧ True :=
  ⟨rfl, next_of (by decide +kernel)⟩

/-! ## Hydraulics, tilt and levelling -/

def resting : Work := { coach with hyd := { coach.hyd with pump := .rest, restEnd := some 9000000 } }
def pumpDwell (pending : Bool) : Work :=
  { pumping .manual with hyd := { (pumping .manual).hyd with
      pump := .dwell, dwellEnd := some 1200000, runStart := none, pendingStart := pending } }
def tiltBad : Work := { coach with tilt := { coach.tilt with fault := true } }
def jackFaulted : Work := coach.setJk 0 { jack with fault := some .noGround }
def jackFenced : Work := coach.setJk 0 { jack with fenced := true }
def oneDown : Work := coach.setJk 0 { jack with retracted := false, stroke := 100 }
/-- Every jack of the coach is down and none may retract. -/
def allDownFenced : Work := { coach with jacks := Vector.replicate 6 { jack with retracted := false, fenced := true } }

theorem test_hyp_LevelRequests :
    (coach.lvl.phase = .idle ∧ (levelling .touchdown .level none).lvl.phase ≠ .idle) ∧
    ((pumping .manual).hyd.activity.isSome = true ∧ resting.hyd.activity = none ∧ resting.hyd.pump = .rest) ∧
    ((room0 .run).hyd.activity = none ∧ (room0 .run).hyd.pump ≠ .rest ∧ (room0 .run).roomsIdle = false) ∧
    (retractWaits.roomsIdle = true ∧ retractWaits.activity awn = .dwell ∧ dwelling.roomsIdle = false ∧
      (awningMoves { claimLink .outward with kind := .hold }).roomsIdle = false) ∧
    (coach.roomsIdle = true ∧ LowestBlocking 0x0201 .je 0 ∧ LowestBlocking 0x4000 .je 14 ∧
      coach.inh &&& MoveClass.je.mask = 0) ∧
    (tiltBad.tilt.fault = true ∧ jackFaulted.tilt.fault = false ∧ jackFaulted.jacksReady = false ∧
      coach.jacksReady = true) ∧
    (Fits coach (coach.profN 0x0274) ∧ coach.hyd.pump = .off ∧ ¬Fits fullBudget 85 ∧
      Safety.waiting fullBudget < fullBudget.queueLimit ∧
      fullQueue.queueLimit ≤ Safety.waiting fullQueue) ∧
    ({ pumpDwell false with hyd := { (pumpDwell false).hyd with activity := none } } : Work).hyd.pump = .dwell := by
  decide +kernel

theorem test_hyp_JackRequests :
    (coach.maskOk 0 = false ∧ coach.maskOk 0x10 = false ∧ coach.maskOk 0x0F = true) ∧
    ((1 : Byte).getLsbD 0 = true ∧ (jackFenced.jk 0).fenced = true ∧ (jackFaulted.jk 0).fault.isSome = true) ∧
    (resting.hyd.pump = .rest ∧ LowestBlocking 0x1000 (jackClass .inward) 12 ∧ coach.inh &&& (jackClass .outward).mask = 0) ∧
    ((coach.movable 1 .inward).isEmpty = true ∧ (coach.movable 1 .outward).isEmpty = false ∧ Fits coach 85) ∧
    (coach.allRetracted = true ∧ oneDown.allRetracted = false ∧ oneDown.stowSet.isEmpty = false) ∧
    (allDownFenced.allRetracted = false ∧ allDownFenced.stowSet.isEmpty = true) ∧
    (pumping .manual).hyd.activity.map (·.kind) = some .manual ∧
    (pumping .stow).hyd.activity.map (·.kind) ≠ some .manual := by decide +kernel

/-- The pump is in DWELL after an activity. -/
def pumpSlows : Work := { pumpDwell false with hyd := { (pumpDwell false).hyd with activity := none } }

theorem test_hyp_JackRequests_begin :
    (pumpSlows.hyd.activity = none ∧ pumpSlows.hyd.pump = .dwell ∧ Fits pumpSlows 85 ∧
      (pumpSlows.movable 1 .outward).isEmpty = false) ∧
    (fullBudget.hyd.activity = none ∧ fullBudget.hyd.pump ≠ .rest ∧ ¬Fits fullBudget 85 ∧
      Safety.waiting fullBudget < fullBudget.queueLimit ∧ (fullBudget.movable 1 .outward).isEmpty = false) ∧
    (fullQueue.hyd.activity = none ∧ ¬Fits fullQueue 85 ∧ fullQueue.queueLimit ≤ Safety.waiting fullQueue) ∧
    ((fullBudget.setJk 0 (oneDown.jk 0)).allRetracted = false ∧
      (fullBudget.setJk 0 (oneDown.jk 0)).stowSet.isEmpty = false) ∧
    (let w := pumping .manual
     (w.hyd.activity.map fun a => (a.kind, a.dir)) = some (.manual, .outward) ∧ w.maskOk 0 = false ∧ w.maskOk 1 = true ∧
       (w.movable 1 .outward).isEmpty = false ∧ ((w.setJk 0 { jack with atLimit := true }).movable 1 .outward).isEmpty = true ∧
       w.inh &&& (jackClass .outward).mask = 0 ∧ ((w.setJk 0 { jack with fenced := true }).jk 0).fenced = true ∧
       ((w.setJk 0 { jack with fault := some .noGround }).jk 0).fault.isSome = true) := by decide +kernel

theorem test_hyp_PumpAndActivity :
    ((pumpDwell false).hyd.pump = .dwell ∧ (pumpDwell false).hyd.dwellEnd = some 1200000 ∧
      (pumpDwell false).hyd.pendingStart = false ∧ (pumpDwell true).hyd.pendingStart = true ∧
      (pumpDwell true).hyd.activity.isSome = true) ∧
    (resting.hyd.restEnd = some 9000000) ∧
    ((pumping .manual).hyd.runStart = some 500000 ∧ (pumping .manual).hyd.activity.bind (·.lease) = some 1100000) ∧
    ((pumping .stow).hyd.activity.map (·.kind) = some .stow ∧ (pumping .stow).hyd.activity.bind (·.start) = some 500000 ∧
      ∀ j, (pumping .stow).hyd.activity.map (·.jackSet.has j) = some true ∧ ((pumping .stow).jk j).fault = none) ∧
    (let w : Work := { pumping .stow with jacks := (pumping .stow).jacks.map fun x => { x with retracted := false } }
     w.hyd.activity.map (·.start) = some (some 500000) ∧
       ∀ j, (w.jk j).fault = none ∧ (w.jk j).retracted = false) ∧
    (levelling .levelling .level none).lvl.phase ≠ .idle := by decide +kernel

theorem test_hyp_JackSensorsFollowSamples :
    (ready.work.awake = true ∧ coach.jackPresent 0 = true ∧ coach.jackPresent 3 = true ∧ (coach.jk 0).groundSettled = true ∧
      true ≠ (coach.jk 0).grounded) ∧
    ((({ jack with groundSettled := false } : Jack)).groundSettled = false) ∧
    (coach.hyd.activity = none ∧ 32 ≤ (32 : BitVec 12).toNat ∧ (4063 : BitVec 12).toNat ≤ 4063 ∧
      (coach.jk 0).fault ≠ some .strokeSensor ∧ (coach.jk 0).retractSettled = true) ∧
    ((31 : BitVec 12).toNat < 32 ∧ 4063 < (4064 : BitVec 12).toNat ∧ (coach.jk 0).fenced = false ∧
      (coach.jk 0).fault = none ∧ coach.lvl.phase = .idle) := by decide +kernel

/-- A MANUAL or STOW activity in a direction on some jacks, jack 0 short of both its stops. -/
def jacksMove (k : ActKind) (d : Dir) (set : JackSet) : Work :=
  let w := (pumping k).setJk 0 { jack with retracted := false }
  { w with hyd := { w.hyd with
      pdir := d, activity := w.hyd.activity.map fun a => { a with dir := d, jackSet := set, openSet := set } } }
def twoJacks : JackSet := jacksWhere fun j => j.val < 2

/-- A STOW of the first two jacks, of which the second has retracted. -/
def stowEnds : Work :=
  let w := jacksMove .stow .inward twoJacks
  { w with hyd := { w.hyd with activity := w.hyd.activity.map fun a => { a with openSet := firstJack } } }

theorem test_hyp_JackSensors_activities :
    (let w := jacksMove .manual .outward firstJack
     (stateOf w).work.awake = true ∧ w.jackPresent 0 = true ∧ w.lvl.phase = .idle ∧ (w.jk 0).atLimit = false ∧
        (w.jk 0).fault ≠ some .strokeSensor ∧ 32 ≤ (4000 : BitVec 12).toNat ∧ (4000 : BitVec 12).toNat ≤ 4063 ∧
        w.hyd.activity.map (·.kind) = some .manual ∧ w.hyd.activity.map (·.phase) = some .running ∧
        w.hyd.activity.map (·.dir) = some .outward ∧ w.hyd.activity.map (·.jackSet.has 0) = some true ∧
        w.profN 0x0404 ≤
          (max 0 (min 400 ((((4000 : Int) - w.prof 0x0408) * w.prof 0x0410).tdiv 256))).toNat + 5) ∧
    (firstJack.without 0).isEmpty = true ∧ (twoJacks.without 0).isEmpty = false ∧
    (let w := jacksMove .manual .inward twoJacks
     (w.jk 0).retracted = false ∧ (w.jk 0).retractSettled = true ∧ (w.jk 0).fenced = false ∧ (w.jk 0).fault = none ∧
       (max 0 (min 400 ((((32 : Int) - w.prof 0x0408) * w.prof 0x0410).tdiv 256))).toNat ≤ w.profN 0x0403) ∧
    (let w := stowEnds
     w.hyd.activity.map (·.kind) = some .stow ∧ w.hyd.activity.map (·.start.isSome) = some true ∧
       w.hyd.activity.map (·.openSet.has 1) = some false ∧
       (w.jk 1).retracted = true ∧ (w.jk 0).retracted = false ∧ (w.jk 0).retractSettled = true) ∧
    ((stowEnds.setJk 1 { jack with retracted := false }).jk 1).retracted = false ∧
    (let w := levelling .levelling .level none
     w.lvl.phase ≠ .idle ∧ (w.jk 0).fault = none ∧ w.hyd.activity.map (·.jackSet.has 0) = some true) := by decide +kernel

/-- R71, R73: the least sample of a jack at default fields that reaches AT_LIMIT, and the greatest that does not. -/
theorem test_at_limit :
    coach.profN 0x0404 ≤ (max 0 (min 400 ((((2000 : Int) - coach.prof 0x0408) * coach.prof 0x0410).tdiv 256))).toNat + 5 ∧
    ¬coach.profN 0x0404 ≤ (max 0 (min 400 ((((1999 : Int) - coach.prof 0x0408) * coach.prof 0x0410).tdiv 256))).toNat + 5 := by
  decide +kernel

theorem test_hyp_JackSensors_procedure :
    (∀ p ∈ [LevelPhase.touchdown, .stabilize],
      let w := levelling p .level none
      (stateOf w).work.awake = true ∧ w.jackPresent 0 = true ∧ w.lvl.phase = p ∧
        (w.hyd.activity.map fun a => (a.kind, a.jackSet.has 0)) = some (.level, true) ∧ (w.jk 0).atLimit = false ∧
        (w.jk 0).grounded = false ∧ (w.jk 0).fault = none ∧
        ((w.setJk 0 { jack with grounded := true }).jk 0).grounded = true ∧
        ((w.setJk 0 { jack with atLimit := true }).jk 0).atLimit = true) ∧
    (let w := levelling .levelling .level none
     w.lvl.liftSet.has 0 = false ∧ ({ w with lvl := { w.lvl with liftSet := firstJack } } : Work).lvl.liftSet.has 0 = true ∧
       (w.jk 0).atLimit = false) ∧
    ((jacksMove .level .outward noJacks).hyd.activity.map fun a => (a.kind, a.jackSet.has 0)) = some (.level, false) ∧
    (levelling .settling .level none).lvl.phase = .settling ∧ (levelling .waiting .level none).lvl.phase = .waiting := by
  decide +kernel

/-- The stops at a pump start: jack 0 at its limit, and all jacks retracted. -/
theorem test_hyp_AtPumpStart :
    (let w := levelling .waiting .level none
     w.hyd.activity.map (·.kind) = some .level ∧ w.lvl.pass ≠ 0 ∧
       ({ w with lvl := { w.lvl with pass := 0 } } : Work).lvl.pass = 0) ∧
    (let w := jacksMove .manual .outward firstJack
     (w.hyd.activity.map fun a => (a.kind, a.dir, a.jackSet)) = some (.manual, .outward, firstJack) ∧
       w.lvl.levelHeld = false ∧ firstJack.isEmpty = false ∧
       (∀ j, firstJack.has j = true ↔ firstJack.has j = true ∧ (w.jk j).atLimit = false) ∧
       (let w := w.setJk 0 { jack with atLimit := true }
        ∀ j, noJacks.has j = true ↔ firstJack.has j = true ∧ (w.jk j).atLimit = false) ∧ noJacks.isEmpty = true) ∧
    (let w := jacksMove .manual .inward twoJacks
     (w.hyd.activity.map fun a => (a.kind, a.dir, a.jackSet)) = some (.manual, .inward, twoJacks) ∧
       (∀ j, firstJack.has j = true ↔ twoJacks.has j = true ∧ (w.jk j).retracted = false) ∧
       ({ w with lvl := { w.lvl with levelHeld := true } } : Work).lvl.levelHeld = true) ∧
    (let w := jacksMove .stow .inward twoJacks
     (w.hyd.activity.map fun a => (a.kind, a.jackSet)) = some (.stow, twoJacks) ∧
       (∀ j, firstJack.has j = true ↔ twoJacks.has j = true ∧ (w.jk j).retracted = false)) ∧
    (let w := pumping .stow
     (w.hyd.activity.map fun a => (a.kind, a.jackSet)) = some (.stow, Vector.replicate 6 true) ∧
       ∀ j, noJacks.has j = true ↔ JackSet.has (Vector.replicate 6 true) j = true ∧ (w.jk j).retracted = false) := by
  decide +kernel

def zeroing : Work := { coach with tilt := { coach.tilt with zeroRun := some { count := 24, sumX := 515, sumY := -204 } } }
/-- Rails have been seen on the axes; and on y twice, in a procedure with a zero run. -/
def railed (x y : Nat) : Work := { coach with tilt := { coach.tilt with railX := x, railY := y } }
def railedLevel (k : LevelMode) : Work :=
  { levelling .levelling k none with tilt := { zeroing.tilt with railY := 2 } }

/-- R87: the third rail in a row on y, beside good samples on x, sets TILT_FAULT and ends the procedure and the zero run. -/
theorem test_third_rail_on_y :
    let w := (railedLevel .level).blockEnd 16384 32633
    w.tilt.fault = true ∧ w.tilt.railX = 0 ∧ w.tilt.railY = 3 ∧ w.tilt.zeroRun = none ∧ w.lvl.phase = .idle ∧
      w.lvl.lastOutcome = .tiltFault ∧ w.events.length = 2 := by decide +kernel

def levelHeld : Work := { coach with lvl := { coach.lvl with levelHeld := true } }

theorem test_hyp_TiltSamplesAreFiltered :
    (ready.work.awake = true ∧ ready.work.power = .active) ∧
    (128 ≤ (128 : BitVec 15).toNat ∧ (32632 : BitVec 15).toNat ≤ 32632 ∧ ¬128 ≤ (127 : BitVec 15).toNat) ∧
    (coach.tilt.fault = false ∧ coach.lvl.phase = .idle ∧ coach.lvl.levelHeld = false ∧ coach.tilt.zeroRun = none) ∧
    tiltBad.tilt.fault = true ∧ zeroing.tilt.zeroRun.map (·.count) = some 24 ∧
    ({ zeroing with lvl := (levelling .levelling .level none).lvl, hyd := (pumping .level).hyd } : Work).lvl.phase =
      .levelling ∧
    (coach.tilt.railX < 2 ∧ coach.tilt.railY < 2 ∧ 2 ≤ (railed 2 0).tilt.railX ∧ 2 ≤ (railed 0 2).tilt.railY ∧
      (railed 2 2).tilt.fault = false ∧ ¬(32633 : BitVec 15).toNat ≤ 32632) ∧
    ((railedLevel .level).hyd.activity.map (·.kind) = some .level ∧ (railedLevel .level).lvl.phase ≠ .idle) ∧
    (let a : Int := (515 + 9 : Int).tdiv 25
     let b : Int := (-204 : Int).tdiv 25
     a.natAbs ≤ 600 ∧ b.natAbs ≤ 600) ∧ ¬((20000 : Int).tdiv 25).natAbs ≤ 600 ∧
    (levelHeld.lvl.levelHeld = true ∧ 3 * levelHeld.profN 0x0421 < (52 : Int).natAbs) := by decide +kernel

/-- A level is held with a drift run behind it. -/
def drifting (n : Nat) : Work := { levelHeld with lvl := { levelHeld.lvl with drift := n } }

theorem test_hyp_TiltSamples_watch :
    ((drifting 48).lvl.levelHeld = true ∧ (drifting 48).lvl.drift < 49 ∧ ¬(drifting 49).lvl.drift < 49 ∧
      49 ≤ (drifting 49).lvl.drift ∧ (drifting 48).lvl.phase ≠ .levelling ∧
      (drifting 48).lvl.settleTest ≠ some .judging ∧ (drifting 48).tilt.zeroRun = none) ∧
    ((3 * (levelHeld.profN 0x0421 : Int)).natAbs ≤ 3 * levelHeld.profN 0x0421 ∧
      ¬(3 * (levelHeld.profN 0x0421 : Int) + 1).natAbs ≤ 3 * levelHeld.profN 0x0421) := by decide +kernel

/-- R118: the 50th sample beyond the watch limit loses the level, the 49th does not, and one within it starts anew. -/
theorem test_level_watch :
    ((drifting 49).blockEnd 16384 32000).lvl.levelHeld = false ∧ ((drifting 48).blockEnd 16384 32000).lvl.drift = 49 ∧
    ((drifting 49).blockEnd 16384 16384).lvl.drift = 0 ∧ ((drifting 49).blockEnd 16384 16384).lvl.levelHeld = true := by
  decide +kernel

/-- LEVELLING with a lift set that its next sample empties, the corner strokes giving a twist; and a level test with a level
run behind it, on a pass, the pump in a state. -/
def lifting (run stroke : Nat) (mark : Bool) : Work :=
  let w := levelling .levelling .level none
  ({ w with lvl := { w.lvl with levelRun := run, limitMark := mark, liftSet := firstJack } }).setJk 0
    { jack with stroke := stroke }
def testing (run pass : Nat) (p : Pump) : Work :=
  let w := levelling .settling .level none
  { w with lvl := { w.lvl with levelRun := run, pass := pass, settleTest := some .judging, deadline := none },
           hyd := { w.hyd with pump := p, runStart := none } }

theorem test_hyp_TiltSamples_procedure :
    (let w := lifting 0 0 true
     (stateOf w).work.awake = true ∧ w.power = .active ∧ w.tilt.fault = false ∧ w.lvl.levelHeld = false ∧
       w.tilt.zeroRun = none ∧ w.lvl.phase = .levelling ∧ w.hyd.activity.isSome = true ∧ w.lvl.limitMark = true ∧
       (demandsOf w.computeHeights)[0] = some 0 ∧ w.lvl.liftSet.has 0 = true ∧ ¬w.profN 0x0420 / 2 < 0) ∧
    (lifting 0 0 false).lvl.limitMark = false ∧ 5 ≤ min 255 ((lifting 4 0 false).lvl.levelRun + 1) ∧
    ((lifting 0 100 false).profN 0x0422 < ((lifting 0 100 false).computeTwist.getD 0).natAbs ∧
      (lifting 0 0 false).computeTwist = some 0) ∧
    ((testing 4 1 .dwell).lvl.phase = .settling ∧ (testing 4 1 .dwell).lvl.settleTest = some .judging ∧
      (testing 4 1 .dwell).hyd.activity.map (·.kind) = some .level ∧ 5 ≤ min 255 ((testing 4 1 .dwell).lvl.levelRun + 1)) ∧
    ((testing 0 1 .dwell).lvl.pass < (testing 0 1 .dwell).profN 0x0427 ∧
      (testing 0 9 .dwell).profN 0x0427 ≤ (testing 0 9 .dwell).lvl.pass) ∧
    (Fits (testing 0 1 .off) 85 ∧ (testing 0 1 .off).hyd.pump = .off ∧ (testing 0 1 .dwell).hyd.pump = .dwell) ∧
    (let w : Work := { testing 0 1 .dwell with bud := fullBudget.bud }
     ¬Fits w 85 ∧ Safety.waiting w < w.queueLimit) ∧
    (let w : Work := { testing 0 1 .dwell with bud := fullQueue.bud }
     ¬Fits w 85 ∧ w.queueLimit ≤ Safety.waiting w) := by decide +kernel

/-- R108, R96: a jack whose demand is above the deadband joins the lift set at a sample in LEVELLING, and its valve opens. -/
theorem test_lift_set_follows_samples :
    let w := levelling .levelling .level none
    let w := Work.tiltSample { w with tilt := { w.tilt with p := -100, q := 0 },
                                      store := { w.store with coach := (profile.set 0x0130 300).set 0x0132 (-300) } }
    w.lvl.liftSet.has 0 = true ∧ w.lvl.liftSet.has 2 = false ∧ w.valve 0 = true ∧ w.lvl.phase = .levelling := by
  decide +kernel

theorem test_hyp_EnterStabilize :
    (let w := levelling .levelling .level none
     w.hyd.activity.isSome = true ∧ (w.jk 0).grounded = false ∧ w.ungrounded.isEmpty = false) ∧
    (let w : Work := { levelling .levelling .level none with jacks := Vector.replicate 6 { jack with grounded := true } }
     w.ungrounded.isEmpty = true ∧ w.hyd.pump = .running ∧ w.hyd.runStart = some 500000) := by decide +kernel

/-- Every jack stands on the ground. -/
def allDown (w : Work) : Work := { w with jacks := Vector.replicate 6 { jack with grounded := true } }

/-- A procedure in LEVELLING with a lift set. -/
def lifts (set : JackSet) : Work :=
  let w := levelling .levelling .level none
  { w with lvl := { w.lvl with liftSet := set } }

theorem test_hyp_PhaseEntries :
    (∀ p ∈ [LevelPhase.touchdown, .stabilize], ∀ k ∈ [LevelMode.level, .ground],
      let w := levelling p k none
      let all : JackSet := Vector.replicate 6 true
      w.lvl.phase = p ∧ w.lvl.mode = some k ∧ w.hyd.pump = .running ∧ w.hyd.runStart = some 500000 ∧
        w.hyd.activity.map (·.jackSet) = some all ∧ all.isEmpty = false ∧ noJacks.isEmpty = true ∧
        (∀ j, all.has j = true ↔ all.has j = true ∧ (w.jk j).grounded = false) ∧
        (∀ j, noJacks.has j = true ↔ all.has j = true ∧ ((allDown w).jk j).grounded = false)) ∧
    ((levelling .waiting .level none).lvl.phase ≠ .touchdown ∧ (levelling .waiting .level none).lvl.phase ≠ .stabilize) ∧
    ((lifts twoJacks).lvl.phase = .levelling ∧ (lifts twoJacks).lvl.liftSet.has 1 = true ∧
      ((lifts twoJacks).lvl.liftSet.without 1).isEmpty = false ∧
      ((lifts firstJack).lvl.liftSet.without 0).isEmpty = true ∧ (lifts firstJack).lvl.liftSet.has 1 = false) := by
  decide +kernel

/-- R106, R110: the last jack to find ground ends TOUCHDOWN, in mode LEVEL in LEVELLING pass 1, in mode GROUND in SETTLING. -/
theorem test_touchdown_ends :
    ((allDown (levelling .touchdown .level none)).followGround).lvl.phase = .levelling ∧
    ((allDown (levelling .touchdown .ground none)).followGround).lvl.phase = .settling ∧
    ((allDown (levelling .stabilize .level none)).followGround).hyd.pump = .dwell := by decide +kernel

theorem test_hyp_LevellingDeadlines :
    (stateOf (levelling .touchdown .level none)).work.awake = true ∧
    (levelling .touchdown .level none).lvl.deadline = some 2000000 ∧
    (levelling .touchdown .level none).lvl.phase = .touchdown ∧
    (levelling .stabilize .level none).hyd.activity.isSome = true ∧
    (levelling .levelling .level none).lvl.phase = .levelling ∧
    (levelling .settling .ground none).lvl.mode = some .ground ∧
    (levelling .settling .level (some .twist)).lvl.pendFlag = some .twist ∧
    (levelling .settling .level (some .range)).lvl.pendFlag = some .range ∧
    (levelling .settling .level (some .timeout)).lvl.pendFlag = some .timeout ∧
    (levelling .settling .level none).lvl.pendFlag = none := by decide +kernel

/-! ## Faults, fences and learning -/

def supplyLow (v : Nat) : Work := { coach with sup := { coach.sup with low := true, voltage := v } }
/-- Both supply flags are set at a voltage. -/
def supplyFlagged (v : Nat) : Work := { coach with sup := { coach.sup with low := true, high := true, voltage := v } }
def offSeat : Work := coach.setCh 0 { coach.ch 0 with seat := .between, pos := 300 }

theorem test_hyp_FaultsAndFences :
    ((coach.ch 7).used = false ∧ (coach.ch 0).used = true ∧ (coach.ch 0).state ≠ .faulted) ∧
    ((faulted0.ch 0).state = .faulted ∧ faulted0.moverOf 0 = some 0 ∧ (faulted0.mv 0).sync ≠ .racked) ∧
    (coach.jackPresent 5 = false ∧ (coach.jk 0).fault = none ∧ (jackFaulted.jk 0).fault.isSome = true) ∧
    ((supplyLow 1000).sup.voltage < (supplyLow 1000).lowRestart ∧ (supplyLow 1150).lowRestart ≤ 1150 ∧
      (supplyLow 1150).sup.high = false ∧ coach.sup.low = false) ∧
    ((supplyFlagged 1560).sup.high = true ∧ (supplyFlagged 1560).highRestart < 1700 ∧
      1300 ≤ (supplyFlagged 1300).highRestart ∧ (supplyFlagged 1300).lowRestart ≤ 1300 ∧
      (supplyFlagged 1300).sup.low = true) := by decide +kernel

def threeJacks : JackSet := jacksWhere fun j => j.val < 3
def levelOnThree : Work :=
  let h := (pumping .level).hyd
  let onThree : Option HydActivity := h.activity.map fun a => { a with jackSet := threeJacks }
  { levelling .touchdown .level none with hyd := { h with activity := onThree } }

theorem test_hyp_FenceStopsWork :
    ((coach.ch 0).used = true ∧ (room0 .run).moverOf 0 = some 0 ∧ ((room0 .run).mv awn).pendRetract = none) ∧
    (retractWaits.moverOf 3 = some awn ∧ (retractWaits.ch 3).used = true ∧
      (retractWaits.mv awn).pendRetract.isSome = true) ∧
    (coach.jackPresent 0 = true ∧ coach.hyd.activity = none ∧ coach.lvl.phase = .idle) ∧
    ((pumping .manual).hyd.activity.map (fun a => (a.kind, a.jackSet.has 0, (a.jackSet.without 0).isEmpty)) =
        some (.manual, true, false) ∧ (pumping .manual).lvl.phase = .idle) ∧
    (levelOnThree.hyd.activity.map (fun a => (a.jackSet.has 0, decide ((a.jackSet.without 0).size < 3))) =
        some (true, true) ∧
      levelOnThree.lvl.phase ≠ .idle) ∧
    (levelOnThree.hyd.activity.map fun a => a.jackSet.has 3) = some false ∧
    ((levelling .touchdown .level none).hyd.activity.map fun a => decide (3 ≤ (a.jackSet.without 0).size)) = some true ∧
    (levelling .settling .level none).lvl.phase = .settling ∧
    (stowEnds.hyd.activity.map (·.jackSet.has 0) = some true ∧ (stowEnds.jk 1).retracted = true ∧
      stowEnds.hyd.activity.map (·.openSet.has 1) = some false) ∧
    (jacksMove .stow .inward twoJacks).hyd.activity.map (·.jackSet.has 1) = some true ∧
    (((jacksMove .stow .inward twoJacks).setJk 1 { jack with retracted := false }).jk 1).retracted = false := by
  decide +kernel

theorem test_hyp_LearningRequests :
    (Takes (stateOf service) ∧ service.mode = .service ∧ coach.mode ≠ .service) ∧
    (Free service 0 ∧ (service.mv 0).holdOff = none ∧ service.fenced 0 = false ∧ service.faulted 0 = false ∧
      service.lvl.phase = .idle ∧ service.hyd.activity = none ∧ service.conflict 0 = false ∧
      service.inh &&& MoveClass.so.mask = 0 ∧ service.inh &&& MoveClass.si.mask = 0 ∧ service.isIn 0 = true ∧
      Fits service (service.moverDraw 0)) ∧
    (let w : Work := { service with bud := fullBudget.bud }
     ¬Fits w (w.moverDraw 0) ∧ Safety.waiting w < w.queueLimit ∧ Free w 0 ∧ w.isIn 0 = true) ∧
    (let w : Work := { service with bud := fullQueue.bud }
     ¬Fits w (w.moverDraw 0) ∧ w.queueLimit ≤ Safety.waiting w ∧ Free w 0 ∧ w.isIn 0 = true) ∧
    (offSeat.isIn 0 = false ∧ service.learning 0 = false ∧ learningRoom.learning 0 = true) ∧
    (zeroing.tilt.zeroRun.isSome = true ∧ tiltBad.tilt.zeroRun = none ∧ tiltBad.tilt.fault = true) :=
  ⟨by decide +kernel, by decide +kernel, by decide +kernel, by decide +kernel, by decide +kernel, by decide +kernel⟩

/-- A work in SERVICE, as it stands otherwise. -/
def inService (w : Work) : Work := { w with mode := .service, service := true }

/-- What LEARN_STROKE asks of the states in which it is refused, the boundary operands and the classes of each method. -/
theorem test_hyp_LearningRequests_refusals :
    (4 ≤ (4 : Byte).toNat ∧ 2 ≤ (2 : Byte).toNat ∧ 8 ≤ (8 : Byte).toNat ∧ (service.mv 2).present = false ∧
      ({ service with stage := .settling } : Work).stage = .settling ∧ (service.ch 7).used = false) ∧
    (∀ v ∈ [fenced0, faulted0, offSeat, levelling .touchdown .level none, pumping .stow], let w := inService v
      w.mode = .service ∧ Free w 0 ∧ (w.mv 0).holdOff = none ∧ w.stage = .complete) ∧
    (offSeat.isIn 0 = false ∧ fenced0.isIn 0 = true ∧ fenced0.fenced 0 = true ∧ faulted0.isIn 0 = true ∧
      faulted0.fenced 0 = false ∧ faulted0.faulted 0 = true) ∧
    ((levelling .touchdown .level none).lvl.phase ≠ .idle ∧ (levelling .touchdown .level none).isIn 0 = true ∧
      (pumping .stow).hyd.activity.map (·.kind) = some .stow ∧ (pumping .stow).isIn 0 = true) ∧
    (LowestOf 0x0041 (learnBlockers .endToEnd) 0 ∧ LowestOf 0x1010 (learnBlockers .refine) 4) ∧
    (let w := inService (awningMoves { claimLink .outward with kind := .hold })
     Free w 1 ∧ (w.mv 1).holdOff = none ∧ w.isIn 1 = true ∧ w.fenced 1 = false ∧ w.faulted 1 = false ∧
       w.lvl.phase = .idle ∧ w.hyd.activity = none ∧ w.inh &&& learnBlockers .endToEnd = 0 ∧ w.conflict 1 = true) :=
  ⟨by decide +kernel, by decide +kernel, by decide +kernel, by decide +kernel, by decide +kernel, by decide +kernel⟩

def switchReady (w : Work) (m : MoverId) (o i : Bool) : Work :=
  w.setMv m { w.mv m with swOut := { settled := true, pressed := o }, swIn := { settled := true, pressed := i } }

theorem test_hyp_LearningRunsSettleArrivals :
    (let w := learns .refine .outward .run
     Takes (stateOf w) ∧ w.mode = .service ∧ w.stage = .complete ∧ (w.mv 0).present = true ∧
       (w.mv 0).learn.map (fun l => (l.method, l.leg)) = some (.refine, .outward) ∧ w.stopDwell = false ∧
       w.isQueued (moverTarget 0) = false) ∧
    (under 0x0271 (learns .refine .outward .run)).stopDwell = true ∧
    (let w := under 0x0271 (learnWaits .endToEnd .inward)
     w.stopDwell = true ∧ w.isQueued (moverTarget 0) = true ∧ (w.mv 0).learn.isSome = true ∧ w.mode = .service) ∧
    (((inService (room0 .run)).mv 0).learn = none ∧ (inService (room0 .run)).activity 0 ≠ .idle ∧
      (inService (room0 .run)).activity 0 ≠ .retryWait ∧ ((inService (room0 .run)).mv 0).claim.isSome = true) ∧
    ((inService retrying).activity 0 = .retryWait ∧ (inService retrying).mode = .service) ∧
    ((inService dwelling).activity 0 ≠ .idle ∧ ((inService dwelling).mv 0).claim = none ∧
      ((inService holding).mv 0).holdOff.isSome = true) ∧
    ∀ d ∈ [Dir.outward, .inward],
      let w := switchReady (learns .refine .outward .run) 0 false false
      let v := w.toActive.showSwitch 0 d true
      ((v.mv 0).switch d).settled = true ∧ ((v.mv 0).switch d).pressed = false ∧ ((v.mv 0).switch d).spent = false ∧
        ((v.mv 0).switch d.flip).pressed = false ∧ (v.mv 0).learn.isSome = true ∧ v.mode ≠ .unconfigured ∧
        v.stage = .complete := by decide +kernel

/-- R55: the stall of the outward leg is a seat OUT at any count, which is measured. -/
theorem test_outward_leg_measures :
    let w := (learns .refine .outward .run).setCh 0 { (learns .refine .outward .run).ch 0 with pos := 880 }
    ∃ t, exec (.stallJudgement 0 120) (stateOf w) = .next t ∧ (t.work.ch 0).seat = .outSeated ∧
      (t.work.mv 0).learn.bind (·.leader) = some 880 ∧ (t.work.mv 0).claim = none := next_of (by decide +kernel)

/-- R14, R55: a REFINE run of a room of nominal stroke 100 begins at a KNOWN count of 300, which its learned stroke of 400
allows; the held stroke 120 sets the upper limit 184. A count at the limit stays. -/
def farOut (pos : Int) : Work :=
  let w := (service.setLearned 0 (some 400)).setCh 0 { service.ch 0 with pos := pos }
  { w with store := { w.store with working := w.store.working.set 0x0250 100 } }
theorem test_held_stroke_limits_the_count :
    ∀ p ∈ [(184 : Int), 185, 300], (((farOut p).doLearn 0 1).1.ch 0).pos = 184 ∧
      ((farOut p).doLearn 0 1).2.status = .accepted := by decide +kernel

/-- A leg has stopped SEATED; and a leg under a policy for OBSTRUCTION and NO_PULSE. -/
def seatedLeg (d : Dir) : Work :=
  let w := learns .endToEnd d .stopping
  w.setCh 0 { w.ch 0 with motion := (w.ch 0).motion.map fun mo => { mo with cause := some .seated } }
def learnsUnder (d : Dir) (p : Int) : Work :=
  let w := learns .endToEnd d .run
  { w with store := { w.store with working := (w.store.working.set 0x0300 p).set 0x0310 p } }

theorem test_hyp_LearningRunsTakeTheirLegs :
    (∀ k ∈ [LearnMethod.endToEnd, .refine],
      let w : Work := { learnWaits k (match k with | .refine => .outward | .endToEnd => .inward) with headDue := true }
      w.bud.queue.length = 1 ∧ (∀ q ∈ w.bud.queue, q.draw + w.bud.sum ≤ w.budget ∧ q.target = moverTarget 0) ∧
        (w.mv 0).claim.isSome = true ∧ (w.mv 0).learn.map (·.method) = some k) ∧
    ((coach.chansOf 1).Nodup ∧ ((learns .refine .outward .run).chansOf 0).Nodup ∧
      (learns .refine .outward .run).moverOf 0 = some 0) ∧
    (∀ d ∈ [Dir.outward, .inward], let w := learns .endToEnd d .run
      (w.mv 0).run.map (·.firstCause) = some none ∧ (w.mv 0).learn.map (·.leg) = some d) ∧
    ({ dir := .inward, firstCause := some .stopped } : Run).firstCause ≠ some .seated ∧
    (∀ d ∈ [Dir.outward, .inward], let w := seatedLeg d
      Lone w 0 0 ∧ (w.ch 0).stopping = true ∧ (w.ch 0).motion.bind (·.cause) = some .seated ∧
        (w.ch 0).motion.bind (·.stopTime) = some 950000 ∧ (w.ch 0).rackLatch = false ∧
        (w.mv 0).run.map (·.firstCause) = some none ∧ (w.mv 0).learn.map (·.leg) = some d) ∧
    (let v : Int := coach.nominal 0
     100 ≤ v ∧ v ≤ 20000 ∧ 4 * v ≤ 5 * v ∧ 5 * v ≤ 6 * v ∧ ¬4 * v ≤ 5 * 99) ∧
    (let v : Int := coach.nominal 1
     Lone coach 0 0 ∧ Pair coach 1 1 2 ∧ 100 ≤ v ∧ v ≤ 20000 ∧ 5 * v ≤ 6 * v) ∧
    (∀ d ∈ [Dir.outward, .inward], let w := learns .endToEnd d .run
      Lone w 0 0 ∧ (w.ch 0).driving = true ∧ 0 < (w.ch 0).duty ∧ (w.ch 0).fenced = false ∧
        (w.mv 0).learn.map (·.held) = some (some 1056) ∧ (w.ch 0).motion.map (·.dir) = some d ∧
        w.profN 0x0238 ≤ min 1000 120 ∧ w.profN 0x0240 ≤ min 1000 10 ∧ min 1000 9 < w.profN 0x0240 ∧
        (w.ch 0).known = true ∧ (w.profN 0x0230 : Int) < (w.ch 0).pos ∧ ¬w.profN 0x0238 ≤ min 1000 10) :=
  ⟨by decide +kernel, by decide +kernel, by decide +kernel, by decide +kernel, by decide +kernel, by decide +kernel,
   by decide +kernel, by decide +kernel⟩

theorem test_hyp_LearningRunsEndAborted :
    (let w := learnWaits .endToEnd .inward
     w.isQueued (moverTarget 0) = true ∧ (w.mv 0).learn.isSome = true ∧ (w.mv 0).leader = some 0 ∧ w.chansOf 0 = [0] ∧
       w.moverOf 0 = some 0) ∧
    (let w := learns .refine .outward .run
     w.isQueued (moverTarget 0) = false ∧ w.chansOf 0 = [0] ∧ w.moverOf 0 = some 0 ∧ (w.ch 0).stoppable = true ∧
       (w.ch 0).starting = false ∧ (w.mv 0).learn.isSome = true) ∧
    (let w := learns .refine .outward .starting
     Lone w 0 0 ∧ (w.ch 0).starting = true ∧ (w.mv 0).run.map (fun r => (r.dwellAfter, r.firstCause)) = some (false, none)) ∧
    (learns .refine .outward .stopping).anyCh 0 Channel.stoppable = false ∧
    (∀ d ∈ [Dir.outward, .inward], ∀ p ∈ [(0 : Int), 1, 2, 3, 4],
      let w := learnsUnder d p
      Lone w 0 0 ∧ (w.ch 0).driving = true ∧ (w.mv 0).learn.isSome = true ∧ (w.ch 0).motion.map (·.dir) = some d) ∧
    ([(0 : Int), 1, 2, 3, 4].map fun p => (learnsUnder .outward p).policyOf 0 .noPulse) =
      [.latchCoast, .latchBrake, .retry, .reportOnly, .ignore] ∧
    ((learnsUnder .outward 2).retryLimit 0 = 2 ∧ ((learnsUnder .outward 2).ch 0).retry = 0 ∧
      ((learnsUnder .outward 3).ch 0).reported = []) ∧
    (Lone learnRetries 0 0 ∧ (learnRetries.ch 0).state = .retryWait ∧ (learnRetries.ch 0).retryEnd = some 1500000 ∧
      (learnRetries.mv 0).claim.map (·.kind) = some .learn) := by decide +kernel

/-! ## Motor channels -/

/-- R18: a fenced motor of a pair counts its edges and raises no lock, also when its partner's lock is recorded. -/
theorem test_fenced_partner_raises_no_lock :
    let w := room1 .run
    let w := (w.setCh 2 { w.ch 2 with fenced := true, pos := (w.effStroke 2 : Int) + 63 }).raiseLock 1 .overcurrent
    let z := w.hallCount 2
    (z.ch 2).pos = (w.effStroke 2 : Int) + 64 ∧ (z.ch 2).lastLock = none ∧ (w.ch 1).lastLock.isSome = true := by
  decide +kernel

/-- R18, R28: a partner that a STOP halted after a lock under REPORT_ONLY raises no lock in STOPPING. -/
theorem test_reported_lock_then_stop :
    let w := { room1 .run with store := (pairInward 3 0).store }
    let w := (w.raiseLock 1 .obstruction).haltMover 1 .stopped
    let w := (w.setCh 2 { w.ch 2 with pos := (w.effStroke 2 : Int) + 63 }).hallCount 2
    (w.ch 1).lastLock = some (.obstruction, .reportOnly) ∧ (w.ch 2).lastLock = none ∧ w.events.length = 1 := by
  decide +kernel

theorem test_hyp_HallCounts :
    (ready.work.awake = true ∧ coach.moverOf 0 = some 0 ∧ (coach.ch 0).used = true ∧ (coach.ch 0).motion = none ∧
      coach.anyCh 0 Channel.driving = false) ∧
    (((room0 .run).ch 0).motion = some (motionOf 0 .outward .run) ∧ ((room0 .run).ch 0).driving = true ∧
      ((room0 .run).mv 0).follower = none ∧ ((room0 .run).ch 0).prevCount = none ∧ ((room0 .run).ch 0).fenced = false ∧
      ((room0 .run).ch 0).pos + 1 ≠ ((room0 .run).effStroke 0 : Int) + 64 ∧ 1999 < (room0 .run).minPulse) := by decide +kernel

/-- Room 0 drives outward one count short of its upper limit. -/
def nearTheLimit : Work :=
  (room0 .run).setCh 0 { (room0 .run).ch 0 with pos := ((room0 .run).effStroke 0 : Int) + 63 }

theorem test_hyp_HallCounts_limits :
    ((nearTheLimit.ch 0).driving = true ∧ (nearTheLimit.mv 0).follower = none ∧ (nearTheLimit.ch 0).prevCount = none ∧
      (nearTheLimit.ch 0).lastDir = .outward ∧ (nearTheLimit.ch 0).pos + 1 = (nearTheLimit.effStroke 0 : Int) + 64) ∧
    (((nearTheLimit.setCh 0 { nearTheLimit.ch 0 with fenced := true }).ch 0).fenced = true ∧
      ((room0 .stopping).ch 0).motion = some (motionOf 0 .outward .stopping) ∧
      ((room0 .stopping).ch 0).driving = false ∧ (retrying.ch 0).driving = false ∧
      ((room0 .starting).ch 0).driving = false) := by decide +kernel

theorem test_hyp_DutyFollowsRampAndSteps :
    (Lone (room0 .ramp) 0 0 ∧ ((room0 .ramp).ch 0).motion = some (motionOf 0 .outward .ramp) ∧
      ((room0 .ramp).ch 0).driving = true ∧ ((room0 .ramp).ch 0).dutyAt = some 995000 ∧
      ((room0 .ramp).mv 0).seatedOnce = false) ∧
    (max (room0 .ramp).now (995000 + 10000) - 900000 < 1000 * (room0 .ramp).profN 0x0208) ∧
    (Lone (room0 .run) 0 0 ∧ (motionOf 0 .outward .run).phase ≠ .ramp ∧ ((room0 .run).ch 0).dutyAt = some 995000) ∧
    1000 * (room0 .ramp).profN 0x0208 ≤ max (room0 .ramp).now (1300000 + 10000) - 900000 := by decide +kernel

def seatedOut (pos : Int) : Work := (room0 .run).setCh 0 { (room0 .run).ch 0 with pos := pos }
def seatedIn (pos : Int) : Work :=
  (room0 .run).setCh 0 { (room0 .run).ch 0 with pos := pos, motion := some (motionOf 0 .inward .run), lastDir := .inward }

theorem test_hyp_StallJudgement :
    (Lone (seatedOut 988) 0 0 ∧ ((seatedOut 988).ch 0).driving = true ∧ 0 < ((seatedOut 988).ch 0).duty ∧
      ((seatedOut 988).ch 0).fenced = false ∧ ((seatedOut 988).mv 0).learn = none) ∧
    ((seatedOut 988).profN 0x0238 ≤ min 1000 120 ∧ (seatedOut 988).learned 0 = none ∧
      ((seatedOut 988).effStroke 0 : Int) - 2 * (seatedOut 988).profN 0x0230 ≤ ((seatedOut 976).ch 0).pos) ∧
    (((seatedIn 12).ch 0).pos ≤ ((seatedIn 12).profN 0x0230 : Int) ∧ (motionOf 0 .inward .run).dir = .inward) ∧
    ¬((seatedIn 13).ch 0).pos ≤ ((seatedIn 13).profN 0x0230 : Int) ∧
    min 1000 9 < (seatedOut 500).profN 0x0240 ∧ (seatedOut 500).profN 0x0240 ≤ min 1000 10 := by decide +kernel

/-- Room 0 in RUN under a policy for OBSTRUCTION and for NO_PULSE, with a retry count. -/
def underPolicy (p : Int) (retry : Nat) : Work :=
  let w := room0 .run
  let w : Work := { w with store := { w.store with working := (w.store.working.set 0x0300 p).set 0x0310 p } }
  w.setCh 0 { w.ch 0 with retry := retry }

theorem test_hyp_LocksActByPolicy :
    (Lone (underPolicy 0 0) 0 0 ∧ ((underPolicy 0 0).ch 0).motion = some (motionOf 0 .outward .run) ∧
      ((underPolicy 0 0).ch 0).driving = true ∧ ((underPolicy 0 0).mv 0).learn = none) ∧
    ((underPolicy 0 0).policyOf 0 .obstruction = .latchCoast ∧ (underPolicy 1 0).policyOf 0 .obstruction = .latchBrake) ∧
    ((underPolicy 2 2).policyOf 0 .obstruction = .retry ∧
      (underPolicy 2 2).retryLimit 0 ≤ ((underPolicy 2 2).ch 0).retry ∧
      ((underPolicy 2 1).ch 0).retry < (underPolicy 2 1).retryLimit 0) ∧
    ((underPolicy 3 0).policyOf 0 .obstruction = .reportOnly ∧ (underPolicy 4 0).policyOf 0 .obstruction = .ignore) ∧
    (LockKind.noPulse.lossy = true ∧ LockKind.obstruction.lossy = false ∧ .obstruction ∉ ((underPolicy 3 0).ch 0).reported) ∧
    ((underPolicy 0 0).motionField 0x0248 0 ≤ min 1000 350 ∧ min 1000 349 < (underPolicy 0 0).motionField 0x0248 0) := by
  decide +kernel

theorem test_hyp_LossyLocks :
    (LockKind.overspeed.lossy = true ∧ (underPolicy 3 0).policyOf 0 .noPulse = .reportOnly ∧
      .noPulse ∉ ((underPolicy 3 0).ch 0).reported ∧ (underPolicy 4 0).policyOf 0 .noPulse = .ignore) ∧
    ((underPolicy 2 1).policyOf 0 .noPulse = .retry ∧ ((underPolicy 2 1).ch 0).retry < (underPolicy 2 1).retryLimit 0 ∧
      (motionOf 0 .outward .run).dir = .outward ∧ (motionOf 0 .inward .run).dir = .inward) := by decide +kernel

def apart (err : Int) : Work := (room1 .run).setCh 1 { (room1 .run).ch 1 with pos := 500 + err }

def pairRetries : Work :=
  { room1 .run with store := { (room1 .run).store with working := (room1 .run).store.working.set 0x0301 2 } }

theorem test_hyp_PairedMotors :
    (Pair (room1 .run) 1 1 2 ∧ ((room1 .run).ch 1).motion = some (motionOf 1 .outward .run) ∧
      ((room1 .run).ch 2).motion = some (motionOf 1 .outward .run) ∧ ((room1 .run).ch 1).driving = true ∧
      ((room1 .run).ch 2).driving = true ∧ ((room1 .run).ch 1).known = true ∧ ((room1 .run).ch 2).known = true) ∧
    (((room1 .run).ch 1).dutyAt = some 995000 ∧ ((room1 .run).mv 1).seatedOnce = false ∧
      ((room1 .run).mv 1).learn = none ∧ ((room1 .run).mv 1).run = some { dir := .outward } ∧
      ((room1 .run).ch 1).used = true ∧ (motionOf 1 .outward .run).profile ≠ .homing) ∧
    (((apart 4).ch 1).pos - ((apart 4).ch 2).pos).natAbs ≤ (apart 4).profN 0x0259 ∧
    ((apart 5).profN 0x0259 < (((apart 5).ch 1).pos - ((apart 5).ch 2).pos).natAbs ∧
      0 < ((apart 5).ch 1).pos - ((apart 5).ch 2).pos) ∧
    ¬0 < ((apart (-5)).ch 1).pos - ((apart (-5)).ch 2).pos ∧
    (apart 40).profN 0x0261 < (((apart 40).ch 1).pos + 1 - ((apart 40).ch 2).pos).natAbs ∧
    (room1 .run).policyOf 1 .obstruction = .latchBrake ∧ (room1 .run).policyOf 1 .overcurrent = .latchCoast ∧
    pairRetries.policyOf 1 .obstruction = .retry ∧
    (pairRetries.ch 1).retry < pairRetries.retryLimit 1 := by decide +kernel

/-- The pair moves inward, the follower a given count from its end. -/
def pairSeats (pos : Int) : Work :=
  let w := put (put coach 1 (motionOf 1 .inward .run) 100) 2 (motionOf 1 .inward .run) 100
  (w.setCh 2 { w.ch 2 with pos := pos }).setMv 1 { coach.mv 1 with claim := some (claimLink .inward),
                                                                    run := some { dir := .inward } }

theorem test_hyp_LossyPair :
    (∀ p ∈ [(2 : Int), 3, 4],
      Pair (pairInward p 0) 1 1 2 ∧ ((pairInward p 0).ch 1).motion = some (motionOf 1 .inward .run) ∧
        ((pairInward p 0).ch 2).motion = some (motionOf 1 .inward .run) ∧ ((pairInward p 0).ch 1).driving = true ∧
        ((pairInward p 0).ch 2).driving = true ∧ ((pairInward p 0).mv 1).learn = none) ∧
    (let z := (pairInward 2 0).raiseLock 1 .noPulse
     ((pairInward 2 0).mv 1).run.isSome = true ∧ (z.ch 1).driving = false ∧ (z.ch 2).driving = false) ∧
    ((pairInward 2 0).policyOf 1 .noPulse = .retry ∧ ((pairInward 2 0).ch 1).retry < (pairInward 2 0).retryLimit 1) ∧
    ((pairInward 3 0).policyOf 1 .noPulse = .reportOnly ∧ (pairInward 4 0).policyOf 1 .noPulse = .ignore ∧
      (pairInward 4 0).policyOf 1 .obstruction = .ignore) ∧
    ((under 0x0311 (room1 .run)).policyOf 1 .noPulse = .latchBrake ∧ (motionOf 1 .outward .run).dir = .outward ∧
      ({ room1 .run with store := (pairInward 4 0).store } : Work).policyOf 1 .noPulse = .ignore) := by decide +kernel

/-- R20 at a pair, at its limit and above it (log 44): a lock under RETRY latches both motors in COAST. -/
theorem test_hyp_PairAtRetryLimit :
    (∀ n ∈ [2, 3], Pair (pairInward 2 n) 1 1 2 ∧ (pairInward 2 n).policyOf 1 .obstruction = .retry ∧
      (pairInward 2 n).policyOf 1 .noPulse = .retry ∧ (pairInward 2 n).retryLimit 1 ≤ ((pairInward 2 n).ch 1).retry) ∧
    (pairInward 2 2).retryLimit 1 = ((pairInward 2 2).ch 1).retry ∧
    (let z := (pairInward 2 3).raiseLock 1 .noPulse
     (z.ch 2).stopping = true ∧ (z.ch 2).bridge = .coast ∧ (z.mv 1).claim = none ∧
       z.events = [.lock 1 .noPulse .latchCoast 3]) := by decide +kernel

theorem test_hyp_PairSeats :
    (Pair (pairSeats 3) 1 1 2 ∧ ((pairSeats 3).ch 1).driving = true ∧ ((pairSeats 3).ch 2).driving = true ∧
      ((pairSeats 3).mv 1).learn = none ∧ ((pairSeats 3).mv 1).run = some { dir := .inward }) ∧
    (((pairSeats 3).ch 2).pos.natAbs ≤ (pairSeats 3).profN 0x0261 ∧
      (pairSeats 500).profN 0x0261 < ((pairSeats 500).ch 2).pos.natAbs) := by decide +kernel

def starting : Work :=
  { room0 .starting with store := { (room0 .starting).store with
      busy := some { job := .checkpoint 0 moving (some 1), start := 999000, record := some anyRecord } } }

theorem test_hyp_MotionPhasesEnd :
    (Lone starting 0 0 ∧ (starting.ch 0).motion = some (motionOf 0 .outward .starting) ∧ (starting.ch 0).starting = true ∧
      starting.store.busy = some { job := .checkpoint 0 moving (some (motionOf 0 .outward .starting).serial), start := 999000,
                                   record := some anyRecord }) ∧
    ((retrying.ch 0).state = .retryWait ∧ (retrying.ch 0).retryEnd = some 1500000 ∧
      (retrying.mv 0).claim = some (claimLink .outward) ∧ (1100000 : Nat) ≤ max retrying.now 1500000 ∧
      max coach.now 1000000 < 1100000) ∧
    (((room0 .stopping).ch 0).stopping = true ∧ (motionOf 0 .outward .stopping).stopTime = some 950000 ∧
      ((room0 .stopping).mv 0).run = some { dir := .outward } ∧ ((room0 .stopping).mv 0).learn = none ∧
      ((room0 .stopping).ch 0).rackLatch = false) ∧
    ({ dir := .outward, leaderEnd := some (7, none) } : Run).leaderEnd = some (7, none) ∧
    (coach.mv awn).pendRetract = none := by decide +kernel

/-! ## Timers and the panel -/

theorem test_hyp_MoverTimersExpire :
    (((room0 .run).mv 0).claim = some (claimLink .outward) ∧ (claimLink .outward).lease = some 1100000) ∧
    (holding.mv 0).holdOff = some (.inward, 1200000) ∧
    (((reversing 1400000).mv 0).pendRev = some { source := .link, dir := .inward, lease := some 1400000 } ∧
      1400000 ≤ ((reversing 1400000).notBefore 1500000).now ∧ ((reversing 1600000).notBefore 1500000).now < 1600000 ∧
      ((reversing 1500000).notBefore 1500000).now = 1500000) ∧
    ((dwelling.mv 0).dwellEnd = some 1500000 ∧ (dwelling.mv 0).pendRetract = none ∧ (dwelling.mv 0).pendRev = none) ∧
    ((retractWaits.mv awn).dwellEnd = some 1500000 ∧ (retractWaits.mv awn).pendRetract = some .travel) := by decide +kernel

/-- A panel reversal waits for the end of a dwell, its switch held or not. -/
def reversingPanel (held : Bool) : Work :=
  let w := switchReady coach 0 held false
  w.setMv 0 { w.mv 0 with dwellEnd := some 1500000, pendRev := some { source := .panel, dir := .outward } }

theorem test_hyp_MoverTimers_reversals :
    (∀ b, ((reversingPanel b).mv 0).dwellEnd = some 1500000 ∧ ((reversingPanel b).mv 0).pendRetract = none ∧
      ((reversingPanel b).mv 0).pendRev = some { source := .panel, dir := .outward } ∧
      (((reversingPanel b).mv 0).switch .outward).pressed = b) ∧
    (let w := (reversingPanel true).setMv 0 { (reversingPanel true).mv 0 with dwellEnd := none, pendRev := none }
     (w.claimFrom3 0 .panel .outward none).2.status = .accepted ∧
       ((w.setCh 0 { w.ch 0 with fenced := true }).claimFrom3 0 .panel .outward none).2.status = .fenced) := by
  decide +kernel

theorem test_hyp_ClaimFromCheck3 :
    fenced0.fenced 0 = true ∧ (faulted0.fenced 0 = false ∧ faulted0.faulted 0 = true) ∧
    (unknown0.fenced 0 = false ∧ unknown0.faulted 0 = false ∧ unknown0.known 0 = false) ∧
    ((levelling .waiting .level none).lvl.phase ≠ .idle ∧ (pumping .stow).hyd.activity.map (·.kind) = some .stow) ∧
    (LowestBlocking 0x0010 (moveClass 0 .outward) 4 ∧ coach.inh &&& (moveClass 0 .outward).mask = 0 ∧
      (room1 .run).conflict awn = true) ∧
    (Cleared coach 0 .inward ∧ coach.atEnd 0 .inward = true ∧ Cleared coach 0 .outward ∧ coach.atEnd 0 .outward = false) ∧
    (Fits coach 18 ∧ ¬Fits fullBudget 18 ∧ Safety.waiting fullBudget < fullBudget.queueLimit ∧
      fullQueue.queueLimit ≤ Safety.waiting fullQueue) := by decide +kernel

def panelMoves : Work := switchReady panelHeld 0 true false

theorem test_hyp_PanelSwitches :
    (let w := switchReady coach 0 false false
     ((w.mv 0).switch .outward).settled = true ∧ ((w.mv 0).switch .outward).pressed = false ∧
       ((w.mv 0).switch Dir.outward.flip).pressed = false ∧ ((w.mv 0).switch .outward).spent = false ∧ Free w 0 ∧
       Cleared w 0 .outward ∧ w.atEnd 0 .outward = false ∧ Fits w (w.moverDraw 0)) ∧
    (coach.mv 3).present = false ∧
    (let w := switchReady coach 0 false true
     ((w.mv 0).switch Dir.outward.flip).pressed = true ∧ ((w.mv 0).switch .outward).pressed = false) ∧
    ((panelMoves.mv 0).claim = some { source := .panel, dir := .outward, kind := .move } ∧
      ((panelMoves.mv 0).switch .outward).pressed = true ∧ (panelMoves.mv 0).pendRev = none) ∧
    (let w := switchReady coach 0 true false
     (w.mv 0).claim = none ∧ ((w.mv 0).switch .outward).pressed = true ∧ (w.mv 0).pendRev = none) :=
  ⟨by decide +kernel, by decide +kernel, by decide +kernel, by decide +kernel, by decide +kernel⟩

/-- A press is still to come: the switch of a side stands ready at a mover, the other one released. -/
abbrev PressReady (w : Work) (m : MoverId) (d : Dir) : Prop :=
  ((w.mv m).switch d).settled = true ∧ ((w.mv m).switch d).pressed = false ∧ ((w.mv m).switch d).spent = false ∧
    ((w.mv m).switch d.flip).pressed = false ∧ (w.mv m).present = true ∧ w.mode ≠ .unconfigured ∧ w.stage = .complete

theorem test_hyp_PanelSwitches_free :
    (∀ v ∈ [coach, fullBudget, fullQueue, fenced0], let w := switchReady v 0 false false
      PressReady w 0 .outward ∧ PressReady w 0 .inward ∧ Free w 0) ∧
    (let w := switchReady fullBudget 0 false false
     Cleared w 0 .outward ∧ w.atEnd 0 .outward = false ∧ ¬Fits w (w.moverDraw 0) ∧ Safety.waiting w < w.queueLimit) ∧
    (let w := switchReady fullQueue 0 false false
     Cleared w 0 .outward ∧ w.atEnd 0 .outward = false ∧ ¬Fits w (w.moverDraw 0) ∧ w.queueLimit ≤ Safety.waiting w) ∧
    (¬Cleared (switchReady fenced0 0 false false) 0 .outward ∧ (switchReady coach 0 false false).atEnd 0 .inward = true) ∧
    (let w := coach.setMv 0 { coach.mv 0 with swOut := { settled := true, spent := true } }
     ((w.mv 0).switch .outward).settled = true ∧ ((w.mv 0).switch .outward).pressed = false ∧
       ((w.mv 0).switch .outward).spent = true ∧ ((w.mv 0).switch .inward).pressed = false) :=
  ⟨by decide +kernel, by decide +kernel, by decide +kernel, by decide +kernel, by decide +kernel⟩

theorem test_hyp_PanelSwitches_busy :
    (∀ v ∈ [room0 .run, retrying, panelHeld, dwelling, under 0x0271 (room0 .run), under 0x0271 queuedRoom],
      let w := switchReady v 0 false false
      PressReady w 0 .outward ∧ PressReady w 0 .inward ∧ (w.mv 0).learn = none ∧ w.activity 0 ≠ .idle) ∧
    (((room0 .run).mv 0).claim = some (claimLink .outward) ∧ (room0 .run).activity 0 ≠ .retryWait ∧
      (room0 .run).stopDwell = false ∧ retrying.activity 0 = .retryWait ∧ (retrying.mv 0).claim.map (·.dir) = some .outward) ∧
    ((panelHeld.mv 0).claim.map (fun c => (c.source, c.dir)) = some (.panel, .outward) ∧ (dwelling.mv 0).claim = none) ∧
    ((under 0x0271 (room0 .run)).stopDwell = true ∧ (under 0x0271 (room0 .run)).isQueued (moverTarget 0) = false) ∧
    ((under 0x0271 queuedRoom).stopDwell = true ∧ (under 0x0271 queuedRoom).isQueued (moverTarget 0) = true ∧
      (under 0x0271 queuedRoom).activity 0 ≠ .retryWait) ∧
    (let w := switchReady (reversing 1400000) 0 false false
     PressReady w 0 .inward ∧ (w.mv 0).pendRev.isSome = true ∧ (w.mv 0).claim = none) ∧
    (let w := switchReady (learnRetries.setMv 0 { learnRetries.mv 0 with learn := none }) 0 false false
     PressReady w 0 .outward ∧ (w.mv 0).claim.map (·.kind) = some .learn ∧ w.activity 0 = .retryWait) :=
  ⟨by decide +kernel, by decide +kernel, by decide +kernel, by decide +kernel, by decide +kernel, by decide +kernel,
   by decide +kernel⟩

theorem test_hyp_PanelSwitches_awning :
    (let w := switchReady (awningMoves { source := .panel, dir := .outward, kind := .oneTouch }) awn false false
     PressReady w awn .inward ∧ PressReady w awn .outward ∧ w.activity awn ≠ .idle ∧ w.holdsRetract = none ∧
       (w.mv awn).claim.map (·.kind) = some .oneTouch ∧ (w.mv awn).learn = none) ∧
    (let w := switchReady (awningMoves { claimLink .outward with kind := .hold }) awn false false
     PressReady w awn .inward ∧ w.activity awn ≠ .idle ∧ w.holdsRetract = none ∧
       (w.mv awn).claim.map (·.kind) = some .hold) ∧
    (∀ o ∈ [true, false],
      ((switchReady (retracts .wind) awn false o).holdsRetract = some .wind ∧
        (switchReady (retracts .travel) awn false o).holdsRetract = some .travel ∧
        (switchReady retractWaits awn false o).holdsRetract = some .travel) ∧
      (((switchReady (retracts .wind) awn false o).mv awn).switch Dir.outward.flip).pressed = o ∧
      (((switchReady (retracts .travel) awn false o).mv awn).switch .outward).pressed = false) := by decide +kernel

theorem test_hyp_PanelSwitches_releases :
    (∀ h, let w := reversingPanel h
      (w.mv 0).claim = none ∧ (w.mv 0).pendRev = some { source := .panel, dir := .outward } ∧
        ((w.mv 0).switch .outward).pressed = h) ∧
    (let w := switchReady (awningMoves { source := .panel, dir := .outward, kind := .oneTouch }) awn true false
     ((w.mv awn).switch .outward).pressed = true ∧
       (w.mv awn).claim.map (fun c => (c.source, c.dir, c.kind)) = some (.panel, .outward, .oneTouch)) ∧
    (let w := switchReady (room0 .run) 0 true false
     (w.mv 0).claim.map (·.source) = some .link ∧ ((w.mv 0).switch .outward).pressed = true) := by decide +kernel

/-- R37, R42: the release of the switch of a pending reversal discards it. -/
theorem test_release_discards_reversal :
    ((reversingPanel true).unpress 0 .outward |>.mv 0).pendRev = none := by decide +kernel

/-- R35: a press at the PANEL claim of its own direction gives that claim no lease. -/
theorem test_panel_claim_has_no_lease :
    ((switchReady panelHeld 0 false false).press 0 .outward |>.mv 0).claim =
      some { source := .panel, dir := .outward, kind := .move } := by decide +kernel

/-! ## Wind, supply, budget, coach inputs -/

def locked : Work := { coach with wind := { coach.wind with lockout := some 5000000 } }
def gusty : Work := { coach with wind := { coach.wind with gustRun := 2 } }

theorem test_hyp_WindGateAndLockout :
    locked.wind.lockout = some 5000000 ∧
    (({ coach with movers := coach.movers.set 4 {} } : Work).mv awn).present = false ∧ (coach.mv awn).present = true ∧
    (min 999 (min 65535 15 * coach.profN 0x0502 / 16) < coach.profN 0x0503) ∧
    (coach.profN 0x0503 ≤ min 999 (min 65535 16 * coach.profN 0x0502 / 16) ∧ coach.profN 0x0504 ≠ 1 ∧
      ¬coach.profN 0x0505 ≤ min 999 (min 65535 16 * coach.profN 0x0502 / 16) ∧ locked.wind.lockout.isSome = true) ∧
    (min 255 (gusty.wind.gustRun + 1) = gusty.profN 0x0504 ∧ gusty.stowed = true ∧ gusty.holdsRetract = none) := by
  decide +kernel

/-- The awning is out when the gust comes. -/
def gustOn (w : Work) : Work := { w with wind := { w.wind with gustRun := 2 } }

theorem test_hyp_WindGate_retracts :
    (let w := gustOn awningOut
     w.holdsRetract = none ∧ w.stage = .complete ∧ w.mode ≠ .unconfigured ∧ w.stowed = false ∧ w.fenced awn = false ∧
       w.faulted awn = false ∧ w.inh &&& 0x0030 = 0 ∧ w.activity awn = .idle ∧
       min 255 (w.wind.gustRun + 1) = w.profN 0x0504 ∧ w.neighbour = some 1 ∧ w.isQueued (moverTarget 1) = false ∧
       (w.mv 1).learn = none ∧ w.anyCh 1 Channel.stoppable = false ∧ w.activity 1 ≠ .dwell) ∧
    (let w := gustOn (awningMoves { claimLink .outward with kind := .hold })
     w.holdsRetract = none ∧ w.stowed = false ∧ w.activity awn ≠ .idle ∧ w.activity awn ≠ .queued) ∧
    ((gustOn { awningOut with inh := 0x0010 }).inh &&& 0x0030 ≠ 0 ∧
      (gustOn { awningOut with inh := 0x0010 }).holdsRetract = none) ∧
    ((gustOn (retracts .wind)).holdsRetract = some .wind ∧ (gustOn (retracts .travel)).holdsRetract = some .travel ∧
      (gustOn retractWaits).holdsRetract = some .travel) := by decide +kernel

/-- A motion of the neighbour, its dwell, an awning that waits for admission, and a coach without a neighbour room. -/
def awningQueued : Work :=
  (queued (awningOut.setMv awn { awningOut.mv awn with claim := some { claimLink .outward with kind := .hold } })
    { target := 4, dir := .outward, source := .link, draw := 22, lease := some 1100000, since := 900000,
      waitEnd := 5000000 }).setQueued 4 true
def neighbourDwells : Work :=
  awningOut.setMv 1 { awningOut.mv 1 with dwellEnd := some 1500000, pendRev := some { source := .link, dir := .outward } }
def noNeighbour : Work := { awningOut with store := { awningOut.store with coach := awningOut.store.coach.set 0x0140 255 } }

theorem test_hyp_RetractTrigger :
    (∀ w ∈ [awningOut, awningQueued, neighbourDwells, noNeighbour], w.holdsRetract = none ∧ w.stage = .complete ∧
      w.mode ≠ .unconfigured ∧ (w.mv awn).present = true ∧ w.stowed = false ∧ w.fenced awn = false ∧
      w.faulted awn = false ∧ w.inh &&& 0x9030 = 0) ∧
    (noNeighbour.neighbour = none ∧ noNeighbour.activity awn = .idle) ∧
    (awningQueued.neighbour = some 1 ∧ (awningQueued.haltMover 1 .superseded).activity awn = .queued) ∧
    ((awningMoves (claimLink .outward)).holdsRetract = none ∧
      (awningMoves (claimLink .outward)).activity awn = .moving) ∧
    (let h := neighbourDwells.haltMover 1 .superseded
     h.activity 1 = .dwell ∧ (h.mv 1).pendRev.isSome = true) ∧
    (coach.holdsRetract = none ∧ coach.stowed = true) ∧
    ((retracts .travel).holdsRetract = some .travel ∧ (retracts .wind).holdsRetract = some .wind) ∧
    (({ awningOut with inh := 0x8000 } : Work).inh &&& 0x9030 ≠ 0 ∧ ({ awningOut with inh := 0x8000 } : Work).inh &&& 0x0030 = 0) := by
  decide +kernel

/-- R126, R127: a room in motion beside the awning gives way, and a TRAVEL retract takes the place of a queued claim. -/
theorem test_retract_starts :
    (let r := (neighbourDwells.retractTrigger .travel)
     r.2 = true ∧ (r.1.mv 1).pendRev = none ∧ r.1.activity awn = .starting) ∧
    (let r := (awningQueued.retractTrigger .travel)
     r.2 = true ∧ r.1.bud.queue = [] ∧ (r.1.mv awn).claim.map (·.kind) = some .retract) := by decide +kernel

theorem test_hyp_RetractGoesFirst :
    awningOut.stowed = false ∧ coach.stowed = true ∧
    (awningOut.setCh 3 { awningOut.ch 3 with fenced := true }).fenced awn = true ∧
    ((awningOut.setCh 3 { awningOut.ch 3 with state := .faulted }).faulted awn = true ∧
      (awningOut.setCh 3 { awningOut.ch 3 with state := .faulted }).fenced awn = false) ∧
    ({ awningOut with inh := 0x0010 } : Work).inh &&& retractMask .wind ≠ 0 ∧
    (awningOut.fenced awn = false ∧ awningOut.faulted awn = false ∧ awningOut.inh &&& retractMask .travel = 0 ∧
      (awningOut.mv awn).learn = none ∧ awningOut.profN 0x0273 + awningOut.bud.sum ≤ awningOut.budget) ∧
    (admitted awningOut 3 143).budget < (admitted awningOut 3 143).profN 0x0273 + (admitted awningOut 3 143).bud.sum := by
  decide +kernel

def supplyHigh : Work := { coach with sup := { coach.sup with high := true, voltage := 1700 } }

theorem test_hyp_SupplyFlagsFollowRuns :
    (coach.sup.low = false ∧ coach.sup.high = false ∧ 1049 < coach.profN 0x0600 ∧ 1049 ≤ coach.profN 0x0602) ∧
    (coach.profN 0x0602 < coach.profN 0x0602 + 1 ∧ coach.profN 0x0600 ≤ coach.profN 0x0602 + 1) ∧
    ((supplyLow 1000).sup.low = true ∧ (supplyLow 1000).sup.high = false ∧ coach.prof 0x0604 ≠ 1 ∧
      coach.lowRestart ≤ coach.lowRestart ∧ coach.lowRestart ≤ coach.profN 0x0602) ∧
    (supplyHigh.sup.low = false ∧ supplyHigh.sup.high = true ∧ coach.profN 0x0600 ≤ coach.highRestart ∧
      coach.highRestart ≤ coach.profN 0x0602) := by decide +kernel

/-- R138, R139: under LATCH a clear run of 50 clears nothing, under AUTO_CLEAR it clears a flag and both have their events. -/
theorem test_supply_latch :
    let w := supplyFlagged 1000
    let w : Work := { w with sup := { w.sup with lowClear := 49, highClear := 49 } }
    ((under 0x0604 w).judgeVoltage 1300).events = [] ∧ ((under 0x0604 w).judgeVoltage 1300).sup.low = true ∧
    (w.judgeVoltage 1300).events = [.supply false true 1300 false, .supply false false 1300 false] := by decide +kernel

def tripped : Work := { coach with sup := { coach.sup with tripped := true } }
def pumpWaits : Work :=
  queued (pumping .manual) { target := hydTarget, dir := .outward, source := .link, draw := 85, since := 0, waitEnd := 9000000 }

theorem test_hyp_BusTripAndMaximumWait :
    (coach.power = .active ∧ coach.sup.tripped = false ∧ 10 * coach.profN 0x0605 < 10 * coach.profN 0x0605 + 1) ∧
    (tripped.sup.tripped = true ∧ 10 * tripped.profN 0x0605 ≤ 10 * tripped.profN 0x0605) ∧
    (queuedRoom.bud.queue.find? fun e => e.target == moverTarget 0).isSome = true ∧
    (pumpWaits.bud.queue.find? fun e => e.target == hydTarget).isSome = true := by decide +kernel

def oneBelow : Work := { coach with speed := { coach.speed with below := 1 } }
def alerting : State := { ready with ready := { ready.ready with alert := .slow, alertAt := some 900000 } }

theorem test_hyp_CoachInputsSpeedAndAlert :
    ((coach.inputs.get .ign).settled = true ∧ (coach.inputs.get .ign).level ≠ true) ∧
    ((coach.coach 0x0143).toNat ≤ 3 ∧ 2 < (coach.coach 0x0143).toNat ∧ 1 ≤ oneBelow.speed.below ∧ coach.speed.below = 0) ∧
    (alerting.ready.alert = .slow ∧ alerting.ready.alertAt = some 900000) := by decide +kernel

end Sys2Proof.Tests
end

