-- ==== Sys2Proof/Proofs/WakingSelection.lean ====
section
/-! PROOF. The selection that wakes the part (R172, R173), from its assertion to the assertion after it. -/

namespace Sys2Proof.Machine

/-! ## The end of a command in a part whose link timer has just restarted (R168, R176) -/

/-- A link timer that restarted at the present moment is not above any standby delay. -/
theorem State.quiet_of_linkAt_now {s : State} (hp : s.work.power = .active) (hl : s.port.linkAt = some s.work.now) :
    s.quiet = false := by
  have h0 : s.linkTimer = 0 := by simp [State.linkTimer, Port.linkTimer, hp, hl]
  simp [State.quiet, h0]

theorem State.standbyCheck_power_of_linkAt_now {s : State} (hp : s.work.power = .active)
    (hl : s.port.linkAt = some s.work.now) : s.standbyCheck.work.power = .active := by
  have hq : s.quiet = false := State.quiet_of_linkAt_now hp hl
  rcases s.standbyCheck_cases with ⟨hdue, _⟩ | ⟨hquiet, _⟩ | ⟨_, h⟩
  · simp [State.standbyDue, hq] at hdue
  · simp [hq] at hquiet
  · rw [h]; exact hp

theorem finishWork_still (s : State) (w : Work) : (finishWork s w).still = w.startupCheck.still :=
  Work.settleEvents_still _ _ _

theorem finishWork_power (s : State) (w : Work) : (finishWork s w).power = w.power := by
  have hs : w.startupCheck.power = w.power := by simp only [Work.startupCheck]; split <;> rfl
  exact (congrArg Still.power (finishWork_still s w)).trans hs

/-- The step from the settling to the completed start-up stays behind the load. -/
theorem finishWork_loaded (s : State) (w : Work) : (finishWork s w).stage.loaded = w.stage.loaded := by
  have hs : w.startupCheck.stage.loaded = w.stage.loaded := by
    simp only [Work.startupCheck]
    split
    · next h => simp [h.1, Stage.loaded]
    · rfl
  exact (congrArg (·.stage.loaded) (finishWork_still s w)).trans hs

theorem Work.returnOnMotion_of_active {w : Work} (hp : w.power = .active) (t : Travel) : w.returnOnMotion t = w := by
  simp [Work.returnOnMotion, hp]

@[simp] theorem Work.returnOnMotion_stage (w : Work) (t : Travel) : (w.returnOnMotion t).stage = w.stage := by
  simp only [Work.returnOnMotion]; split <;> rfl

@[simp] theorem Port.deliver_linkAt (p : Port) (r : Option Frame) (es : List Event) :
    (p.deliver r es).linkAt = p.linkAt := by
  have h := p.deliver_rest r es
  simp only [Port.rest, Prod.mk.injEq] at h
  obtain ⟨-, hlink, -⟩ := h
  exact hlink

theorem finish_power_of_linkAt_now {s : State} {w : Work} (r : Option Frame) (hp : w.power = .active)
    (hl : s.port.linkAt = some w.now) : (finish s w r).work.power = .active := by
  have hpow : (finishWork s w).power = .active := (finishWork_power s w).trans hp
  have hnow : (finishWork s w).now = w.now := congrArg Calm.now (finishWork_calm s w)
  rw [finish_eq]
  apply State.standbyCheck_power_of_linkAt_now
  · simp [finishState, Work.returnOnMotion_of_active hpow, hpow]
  · simp [finishState, Work.returnOnMotion_of_active hpow, hnow, hl]

@[simp] theorem finish_loaded (s : State) (w : Work) (r : Option Frame) :
    (finish s w r).work.stage.loaded = w.stage.loaded := by
  rw [finish_eq, State.standbyCheck_stage, ← finishWork_loaded s w]
  simp [finishState]

/-! ## The wake (R172, R173) -/

@[simp] theorem Work.wakeUp_now (w : Work) (x : WakeSigns) : (w.wakeUp x).now = w.now := rfl
@[simp] theorem Work.wakeUp_stage (w : Work) (x : WakeSigns) : (w.wakeUp x).stage = w.stage := rfl
@[simp] theorem Work.wakeUp_power (w : Work) (x : WakeSigns) : (w.wakeUp x).power = .active := rfl

/-- The part at a wake, its blocks not yet woken. -/
def State.atWake (s : State) (x : WakeSigns) : State :=
  { s with
    ready := s.ready.thaw (s.work.now - s.work.dormantAt.getD s.work.now),
    port := { s.port with linkAt := some s.work.now, selected := x.sel || s.port.selected,
                          wakeSel := x.sel, shift := if x.sel then none else s.port.shift } }

theorem State.wakeUp_eq (s : State) (x : WakeSigns) :
    s.wakeUp x = finish (s.atWake x) (s.work.wakeUp x) none := rfl

@[simp] theorem State.atWake_outq (s : State) (x : WakeSigns) : (s.atWake x).port.outq = s.port.outq := rfl
@[simp] theorem State.atWake_linkAt (s : State) (x : WakeSigns) : (s.atWake x).port.linkAt = some s.work.now := rfl

@[simp] theorem State.wakeUp_power (s : State) (x : WakeSigns) : (s.wakeUp x).work.power = .active := by
  rw [State.wakeUp_eq]
  exact finish_power_of_linkAt_now none (s.work.wakeUp_power x) (by rw [State.atWake_linkAt, Work.wakeUp_now])

@[simp] theorem State.wakeUp_loaded (s : State) (x : WakeSigns) :
    (s.wakeUp x).work.stage.loaded = s.work.stage.loaded := by
  rw [State.wakeUp_eq, finish_loaded, Work.wakeUp_stage]

/-- The wake removes and replaces no frame that waited (R181). -/
theorem State.wakeUp_prefix (s : State) (x : WakeSigns) : s.port.outq <+: (s.wakeUp x).port.outq := by
  simpa [State.wakeUp_eq] using finish_prefix (s.atWake x) (s.work.wakeUp x) none

theorem State.wakeUp_rest (s : State) (x : WakeSigns) : (s.wakeUp x).port.rest =
    (s.port.mask, some s.work.now, x.sel || s.port.selected, if x.sel then none else s.port.shift, x.sel,
      s.port.inbound, s.port.inCount) := by
  rw [State.wakeUp_eq, finish_rest]; rfl

/-! ## Selections (R173, R176) -/

theorem exec_selectAsserted (s : State) : exec .selectAsserted s = execSelectAsserted s := rfl
theorem exec_selectionEnd (rx : List Byte) (s : State) : exec (.selectionEnd rx) s = execSelectionEnd rx s := rfl

theorem selectAsserted_of_awake {s : State} (hw : s.work.awake = true) (hs : s.port.selected = false) :
    exec .selectAsserted s = .next s.select := by
  simp [exec_selectAsserted, execSelectAsserted, hw, hs]

theorem selectAsserted_of_dormant {s : State} (hl : s.work.stage.loaded = true) (hp : s.work.power = .dormant)
    (hs : s.port.selected = false) : exec .selectAsserted s = .next (s.wakeUp selWake) := by
  simp [exec_selectAsserted, execSelectAsserted, Work.awake, Work.asleep, hl, hp, hs]

/-- The frame of the waking selection reaches no judgement. -/
theorem selectionEnd_of_wakeSel {s : State} (hs : s.port.selected = true) (hw : s.port.wakeSel = true)
    (rx : List Byte) : exec (.selectionEnd rx) s = .next { s with port := s.port.endSelection rx } := by
  simp [exec_selectionEnd, execSelectionEnd, hs, hw]

theorem State.select_power {s : State} (hp : s.work.power = .active) : s.select.work.power = .active := by
  simp [State.select, Work.toActive, hp]

/-- Settles O17: the waking selection is the wake with cause SEL, its end touches the port's buffers alone, and the assertion
after it finds an awake part whose queue still begins with what waited before the wake. -/
theorem wakingSelectionCarriesNoRequest : Obligations.WakingSelectionCarriesNoRequest := by
  unfold Obligations.WakingSelectionCarriesNoRequest
  intro s hloaded hpower hsel
  have hrest := s.wakeUp_rest selWake
  simp only [Port.rest, Prod.mk.injEq] at hrest
  obtain ⟨-, hlink, hselected, hshift, hwakeSel, -, -⟩ := hrest
  have hprefix := s.wakeUp_prefix selWake
  have hactive := s.wakeUp_power selWake
  have hawake : (s.wakeUp selWake).work.awake = true := by simp [Work.awake, hloaded]
  have hhead : ∀ f, s.port.outq.head? = some f → (s.wakeUp selWake).port.outq.head? = some f := by
    intro f hf
    obtain ⟨later, happend⟩ := hprefix
    simp [← happend, hf]
  refine ⟨_, selectAsserted_of_dormant hloaded hpower hsel, hselected, hshift, hprefix, hlink, hactive, fun rx => ?_⟩
  refine ⟨_, selectionEnd_of_wakeSel hselected hwakeSel rx, rfl, rfl, rfl, rfl, rfl, ?_⟩
  exact ⟨_, selectAsserted_of_awake hawake rfl, rfl, State.select_power hactive, hhead⟩

end Sys2Proof.Machine
end

