-- ==== Sys2Proof/Proofs/ProfileRead.lean ====
section
/-! PROOF. What PROFILE_READ answers (R189). -/

namespace Sys2Proof.Machine

open Sys2Proof.Safety

/-- A request of the port that only reads, once it is heard and has a place, adds its reply to a part made ACTIVE (R178,
R179). -/
theorem portRequest_of_takes {s : State} (ht : Takes s) (kind tag : Byte) (reply : State → Reply) :
    portRequest s kind tag (fun x => (x, reply x)) = replied s.toActive kind tag (reply s.toActive) := by
  obtain ⟨hawake, hplace⟩ := ht
  rcases portRequest_cases s kind tag (fun x => (x, reply x)) with ⟨hasleep, _⟩ | ⟨_, hfull, _⟩ | ⟨_, _, hreply⟩
  · simp [hawake] at hasleep
  · omega
  · exact hreply

/-- The return from STANDBY leaves the working profile as it is. -/
@[simp] theorem Work.toActive_prof (w : Work) (id : Nat) : w.toActive.prof id = w.prof id :=
  congrArg (fun k : Kept => k.working.get id) (kept_toActive w)

theorem Work.readReply_of_fields (w : Work) {ids : List Half} (h : ∀ i ∈ ids, (fieldOf i.toNat).isSome = true) :
    w.readReply ids = replyData (ids.flatMap fun i => halfBytes (BitVec.ofInt 16 (w.prof i.toNat))) :=
  if_pos (List.all_eq_true.mpr h)

theorem Work.readReply_of_no_field (w : Work) {ids : List Half} (h : ∃ i ∈ ids, (fieldOf i.toNat).isSome = false) :
    w.readReply ids = replyBadArgument := by
  obtain ⟨i, hmem, hnone⟩ := h
  refine if_neg fun hall => ?_
  have hsome := List.all_eq_true.mp hall i hmem
  simp [hnone] at hsome

theorem exec_profileRead_of_takes {s : State} (ht : Takes s) (tag : Byte) (ids : List Half) :
    exec (.profileRead tag ids) s = .next (replied s.toActive 0x0C tag (s.work.toActive.readReply ids)) :=
  congrArg Host.Outcome.next (portRequest_of_takes ht 0x0C tag fun x => x.work.readReply ids)

/-- Settles O19: the made-ACTIVE part answers the request, and the return to ACTIVE moves no working value. -/
theorem profileReadAnswersWorkingValues : Obligations.ProfileReadAnswersWorkingValues := by
  unfold Obligations.ProfileReadAnswersWorkingValues
  intro s tag ids ht _ _
  rw [exec_profileRead_of_takes ht]
  constructor
  · intro hfields
    rw [Work.readReply_of_fields _ hfields]
    simp only [Work.toActive_prof]
    rfl
  · intro hmissing
    rw [Work.readReply_of_no_field _ hmissing]
    rfl

end Sys2Proof.Machine
end

