-- ==== Sys2Proof/Proofs/StepLaw.lean ====
section
/-! PROOF. Said once what a step can do: the work an event makes, the work and answer of a request, and what the port, the
samplers, resets, load and wake do. A law that each of these keeps is kept by every step (`StepLaw.step`). -/

namespace Sys2Proof.Machine

set_option Elab.async false

/-! ## What a step is made of -/

/-- The work an event of the blocks leaves, whether a command of the queue or a sampler raises it: one constructor an event. -/
inductive EventWork (w : Work) : Work → Prop
  | settleSwitch (m : MoverId) (d : Dir) (b : Bool) : EventWork w (w.settleSwitch m d b)
  | inputSettled (i : CoachInput) (b : Bool) : EventWork w (w.inputSettled i b)
  | inputChange (i : CoachInput) (b : Bool) : EventWork w (w.inputChange i b)
  | hallCount (c : ChanId) (n : Nat) :
      EventWork w (if (w.moverOf c).isSome then (w.notBefore (w.now + n)).hallCount c else w)
  | dutyUpdate (c : ChanId) : EventWork w (w.dutyUpdate c)
  | stallAt (c : ChanId) (n : Nat) : EventWork w (w.stallAt c n)
  | judgeStall (m : MoverId) (c : ChanId) (mo : Motion) (hm : w.moverOf c = some m) (hmo : (w.ch c).motion = some mo)
      (hj : w.stallJudged c mo = true) : EventWork w (w.judgeStall m c mo)
  | overcurrentAt (c : ChanId) (n : Nat) : EventWork w (w.overcurrentAt c n)
  | judgeOvercurrent (c : ChanId) : EventWork w (w.judgeOvercurrent c)
  | overspeedAt (c : ChanId) (n : Nat) : EventWork w (w.overspeedAt c n)
  | retryExpiry (c : ChanId) : EventWork w (w.retryExpiry c)
  | stoppingEnd (c : ChanId) : EventWork w (w.stoppingEnd c)
  | checkpointWritten (c : ChanId) : EventWork w (w.checkpointWritten c)
  | learnedWritten : EventWork w w.learnedWritten
  | commitComplete (f : BitVec 6) : EventWork w (w.commitComplete f)
  | leaseExpiry (m : MoverId) : EventWork w (w.leaseExpiry m)
  | holdOffExpiry (m : MoverId) : EventWork w (w.holdOffExpiry m)
  | reversalExpiry (m : MoverId) : EventWork w (w.reversalExpiry m)
  | roomDwellEnd (r : Fin 4) : EventWork w (w.roomDwellEnd (roomMover r))
  | awningDwellEnd : EventWork w w.awningDwellEnd
  | press (m : MoverId) (d : Dir) : EventWork w (w.press m d)
  | unpress (m : MoverId) (d : Dir) : EventWork w (w.unpress m d)
  | windGate (n : Nat) : EventWork w (w.windGate n)
  | lockoutExpiry : EventWork w w.lockoutExpiry
  | pumpDwellEnd : EventWork w w.pumpDwellEnd
  | pumpRestEnd : EventWork w w.pumpRestEnd
  | pumpOverrun : EventWork w w.pumpOverrun
  | stowTimeout : EventWork w w.stowTimeout
  | manualExpiry : EventWork w w.manualExpiry
  | groundChange (j : JackId) (b : Bool) : EventWork w (w.groundChange j b)
  | scanBank : EventWork w w.scanBank
  | scanTimeout (j : JackId) (b : Bool) : EventWork w (w.scanTimeout j b)
  | strokeAt (j : JackId) (raw : BitVec 12) : EventWork w (w.strokeAt j raw)
  | thirdOutOfRange (j : JackId) (raw : BitVec 12) :
      EventWork w (if w.jackPresent j then w.thirdOutOfRange j raw else w)
  | lastLowSample (j : JackId) (raw : BitVec 12) : EventWork w (if w.jackPresent j then w.lastLowSample j raw else w)
  | blockEnd (x y : BitVec 15) : EventWork w (w.blockEnd x y)
  | thirdRail (x y : BitVec 15) : EventWork w (if w.power = .active then (w.thirdRail x y).blockEnd x y else w)
  | lastGood (x y : BitVec 15) : EventWork w (if w.power = .active then (w.lastGood).blockEnd x y else w)
  | lastDrift (x y : BitVec 15) : EventWork w (if w.power = .active then (w.lastDrift).blockEnd x y else w)
  | touchdownDeadline : EventWork w (w.atDeadline .touchdown Work.noGround)
  | levellingDeadline : EventWork w (w.atDeadline .levelling fun w => w.enterStabilize (some .timeout))
  | stabilizeDeadline : EventWork w (w.atDeadline .stabilize Work.noGround)
  | settleTimeEnd : EventWork w (w.atDeadline .settling Work.settleEnd)
  | supplySet (x : SupplySide) (v : Nat) : EventWork w ((w.lastLowVoltage x).withVoltage v)
  | supplyClear (x : SupplySide) (v : Nat) : EventWork w ((w.lastClearVoltage x).withVoltage v)
  | sampleSupply (n : Nat) : EventWork w (w.sampleSupply n)
  | busAt (b : Bool) (n : Nat) : EventWork w (if w.power = .active then (w.lastBus b).judgeBus n else w)
  | judgeBus : EventWork w (if w.power = .active then w.judgeBus w.busTotal else w)
  | maxWaitEnd (t : Fin 6) : EventWork w (w.maxWaitEnd t)
  | speedGate (n : Nat) : EventWork w (w.speedGate n)
  | nothing : EventWork w w

/-- The work a request leaves and its answer, from the part made ACTIVE: one constructor a request. -/
inductive RequestWork (s : State) : Work × Reply → Prop
  | move (a d : Byte) : RequestWork s (s.work.doMove a d)
  | stop (a : Byte) : RequestWork s (s.work.doStop a)
  | levelStart (m : Byte) : RequestWork s (s.work.doLevelStart m)
  | levelCancel : RequestWork s s.work.doLevelCancel
  | jackMove (m d : Byte) : RequestWork s (s.work.doJackMove m d)
  | stow : RequestWork s s.work.doStow
  | faultClear (a : Byte) : RequestWork s (s.work.doFaultClear a)
  | fenceSet (c j : Byte) : RequestWork s
      (if s.work.mode = .unconfigured then (s.work, replyBadMode)
       else (s.work.setFences c j, replyChanged (s.work.fenceClamped c j)))
  | fenceClear (c j : Byte) : RequestWork s
      (if s.work.mode = .unconfigured then (s.work, replyBadMode)
       else (s.work.clearFences c j, replyChanged (s.work.fenceClamped c j)))
  | inhibitSet (m : Half) : RequestWork s
      ({ s.work with link := s.work.link ||| linkBits m }, replyChanged (linkClamped m))
  | inhibitClear (m : Half) : RequestWork s
      ({ s.work with link := s.work.link &&& ~~~ linkBits m }, replyChanged (linkClamped m))
  | serviceEnter : RequestWork s (doServiceEnter s.work s.ready.travel)
  | serviceLeave : RequestWork s s.work.doServiceLeave
  | learn (a m : Byte) : RequestWork s (s.work.doLearn a m)
  | strokeSet (a : Byte) (n : Half) : RequestWork s (s.work.doStrokeSet a n)
  | zeroLearn : RequestWork s s.work.doZeroLearn
  | write (ps : List (Half × Half)) : RequestWork s (s.work.doWrite ps)
  | commit : RequestWork s s.work.doCommit
  | sleep : RequestWork s s.doSleep

/-- What the samplers write without an event. -/
inductive SamplerWork (w : Work) : Work → Prop
  | free (n : Nat) : SamplerWork w { w with free := n }
  | wakePrev (x : Option (BitVec 14)) : SamplerWork w { w with wakePrev := x }
  | hall (c : ChanId) (f : Filter) : SamplerWork w (w.setCh c { w.ch c with hall := f })
  | currents : SamplerWork w w.sampleCurrents
  | gates : SamplerWork w w.sampleWind.sampleSpeed
  | input (i : CoachInput) (b : Bool) :
      SamplerWork w { w with inputs := w.inputs.put i ((w.inputs.get i).sample b) }
  | switch (m : MoverId) (d : Dir) (b : Bool) :
      SamplerWork w (w.setMv m ((w.mv m).setSwitch d (((w.mv m).switch d).sample b)))
  | tilt (x y n : Nat) : SamplerWork w { w with tilt := { w.tilt with sumX := x, sumY := y, count := n } }

/-- What the samplers write without an event, and what the clock, resets and ATTENTION_CLEAR write on the side. -/
inductive SilentWork (w : Work) : Work → Prop
  | time (t : Time) : SilentWork w { w with now := t }
  | wakeCauses : SilentWork w { w with wakeCauses := 0 }
  | resetPin (b : Bool) : SilentWork w { w with pins := { w.pins with reset := b } }
  | sampler {z : Work} (h : SamplerWork w z) : SilentWork w z

/-- The work an event of a sampler leaves, with the condition under which the sampler raises it. -/
inductive SamplerEvent (w : Work) : Work → Prop
  | overcurrent (c : ChanId) : SamplerEvent w (w.judgeOvercurrent c)
  | bus : SamplerEvent w (if w.power = .active then w.judgeBus w.busTotal else w)
  | bank : SamplerEvent w w.scanBank
  | supply (n : Nat) : SamplerEvent w (w.sampleSupply n)
  | press (m : MoverId) (d : Dir) : SamplerEvent w (w.press m d)
  | unpress (m : MoverId) (d : Dir) : SamplerEvent w (w.unpress m d)
  | settleSwitch (m : MoverId) (d : Dir) (b : Bool) (h : w.loadAt + Config.ms 20 ≤ w.now) :
      SamplerEvent w (w.settleSwitch m d b)
  | nothing : SamplerEvent w w
  | stall (m : MoverId) (c : ChanId) (mo : Motion) (hm : w.moverOf c = some m) (hmo : (w.ch c).motion = some mo)
      (hj : w.stallJudged c mo = true) : SamplerEvent w (w.judgeStall m c mo)

theorem SamplerEvent.eventWork {w z : Work} (h : SamplerEvent w z) : EventWork w z := by
  cases h with
  | overcurrent c => exact .judgeOvercurrent c
  | bus => exact .judgeBus
  | bank => exact .scanBank
  | supply n => exact .sampleSupply n
  | press m d => exact .press m d
  | unpress m d => exact .unpress m d
  | settleSwitch m d b => exact .settleSwitch m d b
  | nothing => exact .nothing
  | stall m c mo hm hmo hj => exact .judgeStall m c mo hm hmo hj

/-- The time-driven commands of an instant, each with the condition under which it fires. -/
inductive Fires (s : State) : Instr → Prop
  | load : Fires s .startupLoadComplete
  | hall (c : ChanId) : Fires s (.hallCount c 0)
  | inputChange (i : CoachInput) (b : Bool) : Fires s (.coachInputChange i b)
  | inputSettled (i : CoachInput) (b : Bool) (h : s.work.loadAt + Config.ms 50 ≤ s.work.now) :
      Fires s (.coachInputSettled i b)
  | tilt (x y : BitVec 15) {b : Time} (hb : s.work.tilt.blockAt = some b) (h : b + Config.blockPeriod ≤ s.work.now) :
      Fires s (.filteredSample x y)
  | stroke (j : JackId) (raw : BitVec 12) (h : s.work.strokeDue j = true) : Fires s (.strokeSample j raw)
  | job {j : Service} (hj : s.work.store.busy = some j) (h : j.start + s.work.jobTime j.job ≤ s.work.now) :
      Fires s (s.work.jobEnd j.job)
  | duty (c : ChanId) (h : s.work.updateDue c ≤ s.work.now) : Fires s (.dutyUpdate c)
  | retry (c : ChanId) (h : due (s.work.ch c).retryEnd s.work.now = true) : Fires s (.retryWaitExpiry c)
  | rest (c : ChanId) (h : due ((s.work.ch c).motion.map fun mo => mo.earliestEnd s.work.restWindow) s.work.now = true) :
      Fires s (.stoppingEnd c)
  | lease (m : MoverId) (h : due ((s.work.mv m).claim.bind (·.lease)) s.work.now = true) : Fires s (.roomLeaseExpiry m)
  | holdOff (m : MoverId) (h : due ((s.work.mv m).holdOff.map (·.2)) s.work.now = true) : Fires s (.holdOffExpiry m)
  | reversal (m : MoverId) (h : due ((s.work.mv m).pendRev.bind (·.lease)) s.work.now = true) :
      Fires s (.pendingReversalExpiry m)
  | dwell (m : MoverId) (h : due (s.work.mv m).dwellEnd s.work.now = true) : Fires s (dwellRow m)
  | pumpDwell (h : due s.work.hyd.dwellEnd s.work.now = true) : Fires s .pumpDwellEnd
  | pumpRest (h : due s.work.hyd.restEnd s.work.now = true) : Fires s .pumpRestEnd
  | overrun (h : due s.work.overrunAt s.work.now = true) : Fires s .pumpOverrun
  | stow (h : due s.work.stowEnd s.work.now = true) : Fires s .stowTimeout
  | manual (h : due (s.work.hyd.activity.bind (·.lease)) s.work.now = true) : Fires s .manualLeaseExpiry
  | level {i : Instr} (hi : phaseRow s.work.lvl.phase = some i) (h : due s.work.lvl.deadline s.work.now = true) : Fires s i
  | wait (t : Fin 6) (h : due ((s.work.bud.queue.find? fun q => q.target == t).map (·.waitEnd)) s.work.now = true) :
      Fires s (.queueMaxWait t)
  | wind (n : Nat) (h : due s.work.wind.gateEnd s.work.now = true) : Fires s (.windGate n)
  | lockout (h : due s.work.wind.lockout s.work.now = true) : Fires s .lockoutExpiry
  | speed (n : Nat) (h : due s.work.speed.gateEnd s.work.now = true) : Fires s (.speedGate n)
  | scan (j : JackId) (b : Bool) (h : s.work.loadAt + Config.scanSettle ≤ s.work.now) :
      Fires s (.jackScanSettleTimeout j b)
  | startup (h : s.work.loadAt + Config.scanSettle ≤ s.work.now) : Fires s .startupComplete
  | alert (h : due (s.ready.alertAt.map (· + Config.alertHalf)) s.work.now = true) : Fires s .alertSlowToggle
  | standby (h : s.standbyDue = true) : Fires s .standbyEntry

/-- What the port does on its own: registers and buffers move, a collected head leaves, a reply or a general reply finds its
place. -/
inductive PortMove (p : Port) : Port → Prop
  | registers (q : Port) (h : q.outq = p.outq) : PortMove p q
  | collected (n : Nat) : PortMove p (p.collect n)
  | reply (f : Frame) (hf : f.kind.toNat < 0xC0) (h : p.outq.length < 16) : PortMove p (p.push f)

/-- A law of the state that everything a step is made of keeps; with a second law, what a command comes to after the first. -/
structure StepLaw (P : State → Prop) (Q : State → Prop := P) : Prop where
  done : ∀ {s : State}, P s → Q s := by exact fun h => h
  port : ∀ {s : State} {p : Port}, P s → PortMove s.port p → P { s with port := p }
  silent : ∀ {s : State} {w : Work}, P s → SilentWork s.work w → P { s with work := w }
  toActive : ∀ {s : State}, P s → P s.toActive
  standbyCheck : ∀ {s : State}, P s → Q s.standbyCheck
  event : ∀ {s : State} {w : Work}, P s → s.work.awake = true → EventWork s.work w → Q (finish s w none)
  request : ∀ {s : State} {z : Work × Reply} (kind tag : Byte), P s → s.work.awake = true → s.port.outq.length < 16 →
    (replyFrame kind tag z.2).kind.toNat < 0xC0 → RequestWork s z → Q (finish s z.1 (some (replyFrame kind tag z.2)))
  reset : ∀ {s : State} (cause : ResetCause) {stage : Stage}, P s → stage = .held ∨ stage = .loading →
    Q (s.resetTo stage cause)
  load : ∀ {s : State}, P s → s.work.stage = .loading → Q s.load
  settle : ∀ {s : State}, P s → s.work.stage = .settling → Q (finish s s.work.settleJacks none)
  wake : ∀ {s : State} (x : WakeSigns), P s → s.work.asleep = true → Q (s.wakeUp x)
  toggle : ∀ {s : State}, P s → s.ready.alert = .slow → Q s.toggleAlert

namespace StepLaw

variable {P Q : State → Prop}

/-! ## Commands -/

theorem of_event (L : StepLaw P Q) {s : State} (hs : P s) {f : Work → Work} (hf : EventWork s.work (f s.work)) :
    Q (Machine.event s f) := by
  rcases event_cases s f with ⟨_, e⟩ | ⟨ha, e⟩ <;> rw [e]
  · exact L.done hs
  · exact L.event hs ha hf

theorem overrun (L : StepLaw P Q) {s : State} (hs : P s) : P s.overrun := L.port hs (.registers _ rfl)

theorem toActive_awake {s : State} (h : s.work.awake = true) : s.toActive.work.awake = true := by
  simp only [State.toActive, Work.toActive]
  split
  · next hp => simpa [Work.awake, Work.returnActive, hp] using h
  · exact h

theorem of_request (L : StepLaw P Q) {s : State} (hs : P s) {kind tag : Byte} {f : State → Work × Reply}
    (hk : (kind + 0x80).toNat < 0xC0) (hf : ∀ t, RequestWork t (f t)) : Q (Machine.request s kind tag f) := by
  rcases request_cases s kind tag f with ⟨_, e⟩ | ⟨_, _, e⟩ | ⟨ha, hq, e⟩ <;> rw [e]
  · exact L.done hs
  · exact L.done (L.overrun (L.toActive hs))
  · exact L.request kind tag (L.toActive hs) (toActive_awake ha) hq hk (hf _)

/-- A request of the port: what it does to the part made ACTIVE keeps the law and the queue. -/
theorem of_portRequest (L : StepLaw P Q) {s : State} (hs : P s) {kind tag : Byte} {f : State → State × Reply}
    (hk : (kind + 0x80).toNat < 0xC0) (hf : ∀ t, P t → P (f t).1 ∧ (f t).1.port.outq = t.port.outq) :
    Q (portRequest s kind tag f) := by
  rcases portRequest_cases s kind tag f with ⟨_, e⟩ | ⟨_, _, e⟩ | ⟨_, hq, e⟩ <;> rw [e]
  · exact L.done hs
  · exact L.done (L.overrun (L.toActive hs))
  · obtain ⟨hp, ho⟩ := hf _ (L.toActive hs)
    exact L.done (L.port hp (.reply _ hk (by rw [ho]; exact hq)))

theorem of_read (L : StepLaw P Q) {s : State} (hs : P s) {kind tag : Byte} {r : State → Reply}
    (hk : (kind + 0x80).toNat < 0xC0) : Q (portRequest s kind tag fun x => (x, r x)) :=
  L.of_portRequest hs hk fun _ ht => ⟨ht, rfl⟩

theorem clearAttention (L : StepLaw P Q) {s : State} (hs : P s) (mask : Half) : P (s.clearAttention mask) := by
  have hp := L.port hs (.registers { s.port with attn := s.port.attn &&& ~~~ (mask &&& 0x7FFF) } rfl)
  simp only [State.clearAttention]
  split
  · exact hp
  · exact L.silent hp .wakeCauses

theorem setResetPin (L : StepLaw P Q) {s : State} (hs : P s) (b : Bool) : P (s.setResetPin b) :=
  L.silent hs (.resetPin b)

theorem resetStage_cases (p : Pins) : p.resetStage = .held ∨ p.resetStage = .loading := by
  simp only [Pins.resetStage]; split <;> simp

theorem select (L : StepLaw P Q) {s : State} (hs : P s) : P s.select := L.port (L.toActive hs) (.registers _ rfl)

theorem selectEarly (L : StepLaw P Q) {s : State} (hs : P s) : P s.selectEarly := L.port hs (.registers _ rfl)

theorem answer (L : StepLaw P Q) {s : State} (hs : P s) {f : Frame} (hf : f.kind.toNat < 0xC0) : Q (s.answer f) := by
  simp only [State.answer]
  split
  · exact L.done (L.overrun hs)
  · next h => exact L.done (L.port hs (.reply f hf (Nat.lt_of_not_le h)))

theorem notBefore (L : StepLaw P Q) {s : State} (hs : P s) (t : Time) : P { s with work := s.work.notBefore t } :=
  L.silent hs (.time _)

/-- A command keeps the law: the requests first, which a frame carries too (R178 line 7). -/
theorem of_runRequest (L : StepLaw P Q) {s t : State} (hs : P s) (i : Instr) (h : runRequest i s = .next t) : Q t := by
  cases i <;> cases h
  case restart =>
    split
    · exact L.reset _ hs (resetStage_cases _)
    · exact L.done hs
  case attentionClear => exact L.of_portRequest hs (by decide) fun t ht => ⟨L.clearAttention ht _, by rfl⟩
  case reportEnable => exact L.of_portRequest hs (by decide) fun t ht => ⟨L.port ht (.registers _ rfl), rfl⟩
  case reportDisable => exact L.of_portRequest hs (by decide) fun t ht => ⟨L.port ht (.registers _ rfl), rfl⟩
  case move => exact L.of_request hs (by decide) fun _ => .move ..
  case stop => exact L.of_request hs (by decide) fun _ => .stop ..
  case levelStart => exact L.of_request hs (by decide) fun _ => .levelStart ..
  case levelCancel => exact L.of_request hs (by decide) fun _ => .levelCancel
  case jackMove => exact L.of_request hs (by decide) fun _ => .jackMove ..
  case jacksStow => exact L.of_request hs (by decide) fun _ => .stow
  case faultClear => exact L.of_request hs (by decide) fun _ => .faultClear ..
  case fenceSet => exact L.of_request hs (by decide) fun _ => .fenceSet ..
  case fenceClear => exact L.of_request hs (by decide) fun _ => .fenceClear ..
  case inhibitSet => exact L.of_request hs (by decide) fun _ => .inhibitSet ..
  case inhibitClear => exact L.of_request hs (by decide) fun _ => .inhibitClear ..
  case serviceEnter => exact L.of_request hs (by decide) fun _ => .serviceEnter
  case serviceLeave => exact L.of_request hs (by decide) fun _ => .serviceLeave
  case learnStroke => exact L.of_request hs (by decide) fun _ => .learn ..
  case strokeSet => exact L.of_request hs (by decide) fun _ => .strokeSet ..
  case tiltZeroLearn => exact L.of_request hs (by decide) fun _ => .zeroLearn
  case profileWrite => exact L.of_request hs (by decide) fun _ => .write ..
  case profileCommit => exact L.of_request hs (by decide) fun _ => .commit
  case sleep => exact L.of_request hs (by decide) fun _ => .sleep
  all_goals first | exact L.done hs | exact L.of_read hs (by decide)

/-- A frame of bad length has the kind of a request, whose reply is no report (R177, R178 line 6). -/
theorem kind_of_badLength {k t : Byte} {p : List Byte} (h : decodeRequest k t p = .badLength) :
    (k + 0x80).toNat < 0xC0 := by
  have hk : k.toNat < 64 := by
    by_contra hge
    have hne : decodeRequest k t p = .unknownKind := by
      unfold decodeRequest
      split <;> first | rfl | omega
    simp [hne] at h
  rw [BitVec.toNat_add]
  have h8 : (0x80 : Byte).toNat = 128 := rfl
  omega

theorem kind_of_generalReply (tag : Byte) (st : Status) : (generalReply tag st).kind.toNat < 0xC0 :=
  show (0x80 : Byte).toNat < 0xC0 by decide

theorem of_act (L : StepLaw P Q) {s t : State} (hs : P s) {rx : List Byte} (h : s.act (judge rx) = .next t) : Q t := by
  cases hj : judge rx <;> rw [hj] at h
  case request i => exact L.of_runRequest hs i h
  all_goals cases h
  case dropped => exact L.standbyCheck hs
  case idle => exact L.standbyCheck hs
  case lengthError => exact L.answer hs (kind_of_generalReply ..)
  case checkError => exact L.answer (s := s.linkError) (L.port hs (.registers _ rfl)) (kind_of_generalReply ..)
  case unknownKind => exact L.answer hs (kind_of_generalReply ..)
  case badLength k g =>
    refine L.answer hs ?_
    simp only [judge, judgeFrame] at hj
    split at hj
    · split at hj
      · cases hj
      · split at hj
        · cases hj
        · split at hj
          · cases hj
          · split at hj
            · cases hj
            · split at hj
              · cases hj
              · next hd => cases hj; exact kind_of_badLength hd
              · cases hj
    · cases hj

theorem of_selectionEnd (L : StepLaw P Q) {s t : State} (hs : P s) {rx : List Byte}
    (h : execSelectionEnd rx s = .next t) : Q t := by
  simp only [execSelectionEnd] at h
  split at h
  · split at h
    · have hc : P { s with port := s.port.collect rx.length } := L.port hs (.collected _)
      have he : P { s with port := (s.port.collect rx.length).endSelection rx } :=
        L.port (s := { s with port := s.port.collect rx.length }) hc (.registers _ rfl)
      exact L.of_act he h
    · cases h; exact L.done (L.port hs (.registers _ rfl))
  · cases h; exact L.done hs

/-- A command that a frame can carry is what the port runs at line 7 of R178. -/
theorem exec_eq_runRequest {i : Instr} (h : (encodeRequest i).isSome = true) (s : State) :
    Machine.exec i s = runRequest i s := by
  cases i <;> first | rfl | cases h

/-- Every command keeps the law. -/
theorem exec (L : StepLaw P Q) {s t : State} (hs : P s) {i : Instr} (h : Machine.exec i s = .next t) : Q t := by
  cases i
  case selectionEnd => exact L.of_selectionEnd hs h
  case selectAsserted =>
    cases h
    split
    · exact L.done hs
    · split
      · exact L.done (L.select hs)
      · split
        · next ha => exact L.wake _ hs ha
        · exact L.done (L.selectEarly hs)
  case powerOnReset => cases h; exact L.reset _ hs (resetStage_cases _)
  case resetPinAsserted => cases h; exact L.reset _ (L.setResetPin hs _) (.inl rfl)
  case resetPinReleased =>
    cases h
    split
    · exact L.reset _ (L.setResetPin hs _) (.inr rfl)
    · exact L.done hs
  case startupLoadComplete =>
    cases h
    split
    · next hl => exact L.load hs hl
    · exact L.done hs
  case startupComplete =>
    cases h
    split
    · next hl => exact L.settle hs hl
    · exact L.done hs
  case standbyEntry =>
    cases h
    split
    · exact L.standbyCheck (L.notBefore hs _)
    · exact L.done hs
  case dormantWake =>
    cases h
    split
    · next ha => exact L.wake _ hs (by simp only [Bool.and_eq_true] at ha; exact ha.1)
    · exact L.done hs
  case alertSlowToggle =>
    cases h
    split
    · next ha => exact L.toggle hs (by simp only [Bool.and_eq_true, beq_iff_eq] at ha; exact ha.2)
    · exact L.done hs
  case panelSwitchSettled => cases h; exact L.of_event hs (.settleSwitch ..)
  case coachInputSettled => cases h; exact L.of_event hs (.inputSettled ..)
  case hallCount => cases h; exact L.of_event hs (.hallCount ..)
  case dutyUpdate => cases h; exact L.of_event hs (.dutyUpdate ..)
  case stallJudgement => cases h; exact L.of_event hs (.stallAt ..)
  case overcurrentLock => cases h; exact L.of_event hs (.overcurrentAt ..)
  case overspeedLock => cases h; exact L.of_event hs (.overspeedAt ..)
  case retryWaitExpiry => cases h; exact L.of_event hs (.retryExpiry ..)
  case stoppingEnd => cases h; exact L.of_event hs (.stoppingEnd ..)
  case checkpointWritten => cases h; exact L.of_event hs (.checkpointWritten ..)
  case learnedWritten => cases h; exact L.of_event hs .learnedWritten
  case commitComplete => cases h; exact L.of_event hs (.commitComplete ..)
  case roomLeaseExpiry => cases h; exact L.of_event hs (.leaseExpiry ..)
  case holdOffExpiry => cases h; exact L.of_event hs (.holdOffExpiry ..)
  case pendingReversalExpiry => cases h; exact L.of_event hs (.reversalExpiry ..)
  case roomDwellEnd => cases h; exact L.of_event hs (.roomDwellEnd ..)
  case panelPress => cases h; exact L.of_event hs (.press ..)
  case panelRelease => cases h; exact L.of_event hs (.unpress ..)
  case awningPanelPress => cases h; exact L.of_event hs (.press ..)
  case awningPanelRelease => cases h; exact L.of_event hs (.unpress ..)
  case awningDwellEnd => cases h; exact L.of_event hs .awningDwellEnd
  case windGate => cases h; exact L.of_event hs (.windGate ..)
  case lockoutExpiry => cases h; exact L.of_event hs .lockoutExpiry
  case pumpDwellEnd => cases h; exact L.of_event hs .pumpDwellEnd
  case pumpRestEnd => cases h; exact L.of_event hs .pumpRestEnd
  case pumpOverrun => cases h; exact L.of_event hs .pumpOverrun
  case groundedFlagChange => cases h; exact L.of_event hs (.groundChange ..)
  case jackScanSettleTimeout => cases h; exact L.of_event hs (.scanTimeout ..)
  case strokeSample => cases h; exact L.of_event hs (.strokeAt ..)
  case strokeSensorFault => cases h; exact L.of_event hs (.thirdOutOfRange ..)
  case retractedIndicatorSet => cases h; exact L.of_event hs (.lastLowSample ..)
  case stowTimeout => cases h; exact L.of_event hs .stowTimeout
  case manualLeaseExpiry => cases h; exact L.of_event hs .manualExpiry
  case filteredSample => cases h; exact L.of_event hs (.blockEnd ..)
  case tiltFaultSet => cases h; exact L.of_event hs (.thirdRail ..)
  case tiltFaultClear => cases h; exact L.of_event hs (.lastGood ..)
  case zeroLearnComplete => cases h; exact L.of_event hs (.blockEnd ..)
  case touchdownDeadline => cases h; exact L.of_event hs .touchdownDeadline
  case levellingDeadline => cases h; exact L.of_event hs .levellingDeadline
  case stabilizeDeadline => cases h; exact L.of_event hs .stabilizeDeadline
  case settleTimeEnd => cases h; exact L.of_event hs .settleTimeEnd
  case levelLost => cases h; exact L.of_event hs (.lastDrift ..)
  case supplyFlagSet => cases h; exact L.of_event hs (.supplySet ..)
  case supplyFlagClear => cases h; exact L.of_event hs (.supplyClear ..)
  case busOvercurrentTrip => cases h; exact L.of_event hs (.busAt ..)
  case busDetectorRearm => cases h; exact L.of_event hs (.busAt ..)
  case queueMaxWait => cases h; exact L.of_event hs (.maxWaitEnd ..)
  case coachInputChange => cases h; exact L.of_event hs (.inputChange ..)
  case speedGate => cases h; exact L.of_event hs (.speedGate ..)
  all_goals exact L.of_runRequest hs _ ((exec_eq_runRequest rfl s).symm.trans h)

end StepLaw

/-! ## The passing of time (log 3) -/

/-- The load, and the commands that take the pump to OFF or REST. -/
def RareRow (i : Instr) : Prop :=
  i = .startupLoadComplete ∨ i = .pumpDwellEnd ∨ i = .pumpRestEnd ∨ i = .pumpOverrun

/-- The timers of stow and manual move. -/
def State.jackTimers (s : State) : State :=
  let t := s.fireIf (due s.work.stowEnd s.work.now) .stowTimeout
  t.fireIf (due (t.work.hyd.activity.bind (·.lease)) t.work.now) .manualLeaseExpiry

/-- A law of the state that everything an instant is made of keeps, but for those. -/
structure InstantLaw (P : State → Prop) : Prop where
  sampler : ∀ {s : State} {w : Work}, P s → SamplerWork s.work w → P { s with work := w }
  event : ∀ {s : State} {w : Work}, P s → s.work.awake = true → SamplerEvent s.work w → P (finish s w none)
  fire : ∀ {s : State} {i : Instr}, P s → Fires s i → ¬ RareRow i → P (s.fire i)

/-- A law of the state that everything an instant is made of keeps. -/
structure ClockLaw (P : State → Prop) : Prop where
  sampler : ∀ {s : State} {w : Work}, P s → SamplerWork s.work w → P { s with work := w }
  event : ∀ {s : State} {w : Work}, P s → s.work.awake = true → SamplerEvent s.work w → P (finish s w none)
  fire : ∀ {s : State} {i : Instr}, P s → Fires s i → P (s.fire i)
  wake : ∀ {s : State} (x : WakeSigns), P s → s.work.asleep = true → P (s.wakeUp x)

namespace InstantLaw

variable {P : State → Prop}

theorem not_rare_jobEnd (w : Work) (j : Job) : ¬ RareRow (w.jobEnd j) := by
  cases j <;> simp [Work.jobEnd, RareRow]

theorem not_rare_dwellRow (m : MoverId) : ¬ RareRow (dwellRow m) := by
  simp only [dwellRow]
  split <;> simp [RareRow]

theorem not_rare_phaseRow {p : LevelPhase} {i : Instr} (h : phaseRow p = some i) : ¬ RareRow i := by
  cases p <;> cases h <;> simp [RareRow]

theorem of_event (L : InstantLaw P) {s : State} (hs : P s) {f : Work → Work} (hf : SamplerEvent s.work (f s.work)) :
    P (Machine.event s f) := by
  rcases event_cases s f with ⟨_, e⟩ | ⟨ha, e⟩ <;> rw [e]
  · exact hs
  · exact L.event hs ha hf

theorem fireIf (L : InstantLaw P) {s : State} (hs : P s) {b : Bool} {i : Instr} (hi : b = true → Fires s i)
    (hr : ¬ RareRow i := by simp [RareRow]) : P (s.fireIf b i) := by
  simp only [State.fireIf]
  split
  · next hb => exact L.fire hs (hi hb) hr
  · exact hs

theorem each {α : Type} {f : α → State → State} (hf : ∀ a {s}, P s → P (f a s)) (l : List α) {s : State} (hs : P s) :
    P (State.each l f s) := by
  simp only [State.each]
  induction l generalizing s with
  | nil => exact hs
  | cons a l ih => exact ih (hf a hs)

theorem ite_event (L : InstantLaw P) {s : State} (hs : P s) (b : Prop) [Decidable b] {f : Work → Work}
    (hf : SamplerEvent s.work (f s.work)) : P (if b then Machine.event s f else s) := by
  split
  · exact L.of_event hs hf
  · exact hs

/-! ### Samplers -/

theorem sampleHall (L : InstantLaw P) (c : ChanId) {s : State} (hs : P s) : P (s.sampleHall c) :=
  L.fireIf (L.sampler hs (.hall c _)) fun _ => .hall c

theorem judgeCurrents (L : InstantLaw P) {s : State} (hs : P s) : P s.judgeCurrents := by
  simp only [State.judgeCurrents]
  refine L.of_event (each (f := fun c s => Machine.event s fun w => w.judgeOvercurrent c) ?_ allChans hs) .bus
  exact fun c _ h => L.of_event h (.overcurrent c)

theorem sampleInput (L : InstantLaw P) (i : CoachInput) {s : State} (hs : P s) : P (s.sampleInput i) := by
  have h := L.sampler hs (.input i (s.work.pins.coach i))
  simp only [State.sampleInput]
  split
  · exact L.fireIf h fun _ => .inputChange i _
  · exact L.fireIf h fun hb => .inputSettled i _ (by simp only [Bool.and_eq_true, decide_eq_true_eq] at hb; exact hb.2)

theorem switchHeld_samplerEvent (w : Work) (m : MoverId) (d : Dir) (b : Bool) :
    SamplerEvent w (w.switchHeld m d b) := by
  simp only [Work.switchHeld]
  split
  · split
    · exact .press m d
    · exact .unpress m d
  · split
    · next h => exact .settleSwitch m d b h
    · exact .nothing

theorem sampleSwitch (L : InstantLaw P) (m : MoverId) (d : Dir) {s : State} (hs : P s) : P (s.sampleSwitch m d) :=
  L.ite_event (L.sampler hs (.switch m d _)) _ (switchHeld_samplerEvent ..)

theorem everyMs (L : InstantLaw P) {s : State} (hs : P s) : P s.everyMs := by
  simp only [State.everyMs]
  refine each (fun m _ h => L.sampleSwitch m _ (L.sampleSwitch m _ h)) _ (each (fun i _ => L.sampleInput i) _ ?_)
  refine L.sampler ?_ .gates
  split
  · exact L.judgeCurrents (L.sampler hs .currents)
  · exact hs

/-- The eighth sample of a block falls 40 ms after its begin (R86). -/
theorem blockPeriod_of_eighth {b n now : Nat} (h8 : 8 ≤ n) (h : b + 5000 * n ≤ now) : b + Config.blockPeriod ≤ now :=
  show b + 40000 ≤ now by omega

theorem sampleTilt (L : InstantLaw P) {s : State} (hs : P s) : P s.sampleTilt := by
  simp only [State.sampleTilt]
  split
  · next hd =>
    refine L.fireIf (L.sampler hs (.tilt ..)) fun h8 => ?_
    have hdue := hd.2
    cases hb : s.work.tilt.blockAt with
    | none => simp [hb, due] at hdue
    | some b =>
      rw [hb] at hdue
      exact .tilt _ _ (b := b) hb (blockPeriod_of_eighth (of_decide_eq_true h8) (of_decide_eq_true hdue))
  · exact hs

theorem sampleBank (L : InstantLaw P) {s : State} (hs : P s) : P s.sampleBank := L.ite_event hs _ .bank

theorem sampleJack (L : InstantLaw P) (j : JackId) {s : State} (hs : P s) : P (s.sampleJack j) :=
  L.fireIf hs fun h => .stroke j _ h

theorem sampleVsup (L : InstantLaw P) {s : State} (hs : P s) : P s.sampleVsup := L.ite_event hs _ (.supply _)

theorem sampleAll (L : InstantLaw P) {s : State} (hs : P s) : P s.sampleAll := by
  have hall : P (State.each allChans State.sampleHall s) := each (fun c _ => L.sampleHall c) _ hs
  simp only [State.sampleAll]
  refine L.sampleVsup (each (fun j _ => L.sampleJack j) _ (L.sampleBank (L.sampleTilt ?_)))
  split
  · exact L.everyMs hall
  · exact hall

/-! ### Deadlines -/

theorem runStore (L : InstantLaw P) {s : State} (hs : P s) : P s.runStore := by
  simp only [State.runStore]
  split
  · exact hs
  · next hj =>
    split
    · next hdue =>
      have hf := L.fire hs (.job hj hdue) (not_rare_jobEnd _ _)
      split
      · exact L.sampler hf (.free _)
      · exact hf
    · exact hs

theorem stallNow (L : InstantLaw P) (c : ChanId) {s : State} (hs : P s) : P (s.stallNow c) := by
  simp only [State.stallNow]
  split
  · next hm hmo =>
    split
    · next hd => exact L.of_event hs (.stall _ c _ hm hmo (by simp only [Bool.and_eq_true] at hd; exact hd.1))
    · exact hs
  · exact hs

theorem fireIf_and (L : InstantLaw P) {s : State} (hs : P s) {a b : Bool} {i : Instr} (hi : b = true → Fires s i)
    (hr : ¬ RareRow i := by simp [RareRow]) : P (s.fireIf (a && b) i) :=
  L.fireIf hs (fun h => hi (by simp only [Bool.and_eq_true] at h; exact h.2)) hr

theorem chanTimers (L : InstantLaw P) (c : ChanId) {s : State} (hs : P s) : P (s.chanTimers c) := by
  have hduty := L.stallNow c (L.fireIf_and (a := s.work.leadOf c == c) hs fun h => .duty c (of_decide_eq_true h))
  exact L.fireIf_and (L.fireIf_and hduty fun h => .retry c h) fun h => .rest c h

theorem moverTimers (L : InstantLaw P) (m : MoverId) {s : State} (hs : P s) : P (s.moverTimers m) :=
  L.fireIf (L.fireIf (L.fireIf (L.fireIf hs fun h => .lease m h) fun h => .holdOff m h) fun h => .reversal m h)
    (fun h => .dwell m h) (not_rare_dwellRow m)

theorem levelTimer (L : InstantLaw P) {s : State} (hs : P s) : P s.levelTimer := by
  simp only [State.levelTimer]
  split
  · next hi => exact L.fireIf hs (fun h => .level hi h) (not_rare_phaseRow hi)
  · exact hs

theorem gateTimers (L : InstantLaw P) {s : State} (hs : P s) : P s.gateTimers :=
  L.fireIf (L.fireIf (L.fireIf hs fun h => .wind _ h) fun h => .lockout h) fun h => .speed _ h

theorem waitTimer (L : InstantLaw P) (t : Fin 6) {s : State} (hs : P s) : P (s.waitTimer t) :=
  L.fireIf hs fun h => .wait t h

theorem scanTimer (L : InstantLaw P) (j : JackId) {s : State} (hs : P s) : P (s.scanTimer j) :=
  L.fireIf_and hs fun h => .scan j _ (of_decide_eq_true h)

theorem partTimers (L : InstantLaw P) {s : State} (hs : P s) : P s.partTimers := by
  have hstart := L.fireIf_and (a := s.work.stage == .settling && s.work.jacksSettled) hs
    fun h => .startup (of_decide_eq_true h)
  exact L.fireIf (L.fireIf_and hstart fun h => .alert h) fun h => .standby h

/-- The timers in front of the pump's: store, channels and movers. -/
theorem motionTimers (L : InstantLaw P) {s : State} (hs : P s) :
    P (State.each allMovers State.moverTimers (State.each allChans State.chanTimers s.runStore)) :=
  each (fun m _ => L.moverTimers m) allMovers (each (fun c _ => L.chanTimers c) allChans (L.runStore hs))

theorem jackTimers (L : InstantLaw P) {s : State} (hs : P s) : P s.jackTimers :=
  L.fireIf (L.fireIf hs fun h => .stow h) fun h => .manual h

/-- The timers behind the pump's. -/
theorem lateTimers (L : InstantLaw P) {s : State} (hs : P s) : P (State.partTimers
    (State.each allJacks State.scanTimer (State.each allTargets State.waitTimer s.levelTimer).gateTimers)) := by
  have hwaits := each (fun t _ => L.waitTimer t) allTargets (L.levelTimer hs)
  exact L.partTimers (each (fun j _ => L.scanTimer j) allJacks (L.gateTimers hwaits))

end InstantLaw

namespace ClockLaw

variable {P : State → Prop}

theorem instantLaw (L : ClockLaw P) : InstantLaw P := ⟨L.sampler, L.event, fun hs hf _ => L.fire hs hf⟩

theorem fireIf (L : ClockLaw P) {s : State} (hs : P s) {b : Bool} {i : Instr} (hi : b = true → Fires s i) :
    P (s.fireIf b i) := by
  simp only [State.fireIf]
  split
  · next hb => exact L.fire hs (hi hb)
  · exact hs

theorem hydTimers (L : ClockLaw P) {s : State} (hs : P s) : P s.hydTimers := by
  have hand {t : State} (ht : P t) {a b : Bool} {i : Instr} (hi : b = true → Fires t i) : P (t.fireIf (a && b) i) :=
    L.fireIf ht fun h => hi (by simp only [Bool.and_eq_true] at h; exact h.2)
  exact L.instantLaw.jackTimers (L.fireIf (hand (hand hs fun h => .pumpDwell h) fun h => .pumpRest h) fun h => .overrun h)

theorem timers (L : ClockLaw P) {s : State} (hs : P s) : P s.timers :=
  L.instantLaw.lateTimers (L.hydTimers (L.instantLaw.motionTimers hs))

theorem watchWake (L : ClockLaw P) {s : State} (hs : P s) (ha : s.work.asleep = true) : P s.watchWake := by
  simp only [State.watchWake]
  split
  · exact L.sampler hs (.wakePrev _)
  · exact L.wake _ hs ha

/-- An instant keeps the law from the moment it has begun. -/
theorem tick (L : ClockLaw P) {s t : State} (ha : P s.advance) (h : Machine.tick s = .next t) : P t := by
  cases h
  split
  · exact ha
  · exact L.fireIf ha fun _ => .load
  · next hheld hloading =>
    split
    · next hp =>
      split
      · refine L.watchWake ha ?_
        have hp' : s.advance.work.power = .dormant := hp
        cases hst : s.advance.work.stage <;> simp_all [Work.asleep, Stage.loaded]
      · exact ha
    · exact L.timers (L.instantLaw.sampleAll ha)

end ClockLaw

/-! ## Every step -/

namespace StepLaw

variable {P : State → Prop}

theorem fire (L : StepLaw P) {s : State} (hs : P s) (i : Instr) : P (s.fire i) := by
  simp only [State.fire]
  split
  · next h => exact L.exec hs h
  · exact hs

theorem clockLaw (L : StepLaw P) : ClockLaw P where
  sampler hs h := L.silent hs (.sampler h)
  event hs ha h := L.event hs ha h.eventWork
  fire hs _ := L.fire hs _
  wake x hs ha := L.wake x hs ha

/-- Every step keeps a law that does not speak of the queue of commands. -/
theorem step (L : StepLaw P) (hpending : ∀ {s : State} (l : List Instr), P s → P { s with pending := l }) {s t : State}
    (hs : P s) (h : Machine.step s = .next t) : P t := by
  simp only [Machine.step] at h
  split at h
  · exact L.exec (hpending _ hs) h
  · exact L.clockLaw.tick (L.silent hs (.time _)) h

end StepLaw
end Sys2Proof.Machine
end

