-- ==== Sys2Proof/Proofs/OutboundBound.lean ====
section
/-! PROOF. The places of the outbound queue (R179, R181): at most 16 frames, of which at most 14 are reports. -/

namespace Sys2Proof.Machine

set_option Elab.async false

open Sys2Proof.Safety

/-- The bound of R181 on the port alone. -/
def Port.Bounded (p : Port) : Prop := p.outq.length ≤ 16 ∧ (p.outq.filter isReport).length ≤ 14

theorem Port.Bounded.of_length {p : Port} (h : p.outq.length ≤ 14) : p.Bounded :=
  ⟨Nat.le_trans h (by decide), Nat.le_trans (List.length_filter_le _ _) h⟩

/-- A report joins only behind at most 13 frames. -/
theorem Port.Bounded.take {p : Port} (h : p.Bounded) (e : Event) : (p.take e).Bounded := by
  rcases p.take_outq e with ho | ⟨ho, hroom⟩
  · rw [Port.Bounded, ho]; exact h
  · have hr : p.outq.length ≤ 13 := hroom
    exact .of_length (by rw [ho, List.length_append, List.length_singleton]; omega)

theorem Port.Bounded.takeAll {p : Port} (h : p.Bounded) (es : List Event) : (p.takeAll es).Bounded := by
  induction es generalizing p with
  | nil => exact h
  | cons e es ih => exact ih (h.take e)

/-- A reply is no report, and joins where fewer than 16 frames wait. -/
theorem Port.Bounded.push {p : Port} (h : p.Bounded) {f : Frame} (hf : f.kind.toNat < 0xC0) (hl : p.outq.length < 16) :
    (p.push f).Bounded := by
  have hno : isReport f = false := by simp only [isReport, decide_eq_false_iff_not]; omega
  refine ⟨?_, ?_⟩
  · rw [Port.push_outq, List.length_append, List.length_singleton]; omega
  · rw [Port.push_outq, List.filter_append]; simpa [hno] using h.2

theorem Port.Bounded.collect {p : Port} (h : p.Bounded) (n : Nat) : (p.collect n).Bounded := by
  simp only [Port.collect]
  split
  · split
    · refine ⟨?_, Nat.le_trans ((List.tail_sublist _).filter _).length_le h.2⟩
      exact Nat.le_trans (List.tail_sublist _).length_le h.1
    · exact h
  · exact h

theorem Port.Bounded.move {p q : Port} (h : p.Bounded) (hm : PortMove p q) : q.Bounded := by
  cases hm with
  | registers _ ho => rw [Port.Bounded, ho]; exact h
  | collected n => exact h.collect n
  | reply f hf hl => exact h.push hf hl

theorem standbyCheck_bounded {s : State} (h : s.port.Bounded) : s.standbyCheck.port.Bounded := by
  rcases s.standbyCheck_cases with ⟨_, e⟩ | ⟨_, e⟩ | ⟨_, e⟩ <;> rw [e]
  · exact h.takeAll _
  · exact h
  · exact h

/-- The reply, in its place, and then the events. -/
theorem finish_bounded {s : State} (w : Work) (r : Option Frame) (h : s.port.Bounded)
    (hr : ∀ f, r = some f → f.kind.toNat < 0xC0 ∧ s.port.outq.length < 16) : (finish s w r).port.Bounded := by
  rw [finish_eq]
  refine standbyCheck_bounded ?_
  cases r with
  | none => exact h.takeAll _
  | some f => exact (h.push (hr f rfl).1 (hr f rfl).2).takeAll _

theorem queueBounded_law : StepLaw QueueBounded where
  port h hm := Port.Bounded.move h hm
  silent h _ := h
  toActive h := h
  standbyCheck h := standbyCheck_bounded h
  event h _ _ := finish_bounded _ _ h (by simp)
  request _ _ h _ hl hk _ := finish_bounded _ _ h (by rintro f ⟨⟩; exact ⟨hk, hl⟩)
  reset _ _ _ _ := Port.Bounded.of_length (Nat.zero_le _)
  load h _ := h
  settle h _ := finish_bounded _ _ h (by simp)
  wake x h _ := by
    rw [State.wakeUp_eq]
    exact finish_bounded (s := State.atWake _ x) _ _ h (by simp)
  toggle h _ := by
    simp only [State.toggleAlert]
    split <;> exact h

/-- Settles O5: the bound is a law that every part of a step keeps. -/
theorem stepKeepsOutboundBound : Obligations.StepKeepsOutboundBound := by
  unfold Obligations.StepKeepsOutboundBound
  exact fun _ _ hs h => queueBounded_law.step (fun _ h => h) hs h

end Sys2Proof.Machine
end

