-- ==== Sys2Proof/Proofs/Frame.lean ====
section
/-! PROOF. What no event writes, whatever its cause: stage, mode, moments of reset, load and sleep, wake causes, LINK members,
profiles and profile note. One lemma an event, from the frames of its operations. -/

namespace Sys2Proof.Machine

set_option Elab.async false

open Sys2Proof.Safety

/-- The parts of the machine that only requests, resets, loads and wakes write. -/
structure SlowParts where
  stage : Stage
  loadAt : Time
  resetAt : Time
  dormantAt : Option Time
  mode : Mode
  service : Bool
  resetCause : ResetCause
  wakeCauses : BitVec 5
  wakePrev : Option (BitVec 14)
  link : BitVec 4
  working : Profile
  coach : Profile
  note : BitVec 7
  free : Nat

def Still.frame (w : Still) : SlowParts :=
  { stage := w.stage, loadAt := w.loadAt, resetAt := w.resetAt, dormantAt := w.dormantAt, mode := w.mode,
    service := w.service, resetCause := w.resetCause, wakeCauses := w.wakeCauses, wakePrev := w.wakePrev,
    link := w.link, working := w.working, coach := w.coach, note := w.note, free := w.free }

def Work.frame (w : Work) : SlowParts := w.still.frame

theorem frame_of_still {w z : Work} (h : w.still = z.still) : w.frame = z.frame := congrArg Still.frame h

theorem frame_eq {w z : Work} (h : z.frame = w.frame) :
    z.stage = w.stage ∧ z.loadAt = w.loadAt ∧ z.mode = w.mode ∧ z.store.coach = w.store.coach ∧
      z.store.working = w.store.working := by
  simp only [Work.frame, Still.frame, Work.still, SlowParts.mk.injEq] at h
  simp [h]

theorem stage_of_frame {w z : Work} (h : z.frame = w.frame) : z.stage = w.stage := (frame_eq h).1

theorem coach_of_frame {w z : Work} (h : z.frame = w.frame) : z.store.coach = w.store.coach := (frame_eq h).2.2.2.1

theorem foldl_frame {α : Type} (l : List α) {f : Work → α → Work} (h : ∀ w x, (f w x).frame = w.frame) (w : Work) :
    (l.foldl f w).frame = w.frame := by
  induction l generalizing w with
  | nil => rfl
  | cons a l ih => rw [List.foldl_cons, ih, h]

theorem frame_headDue (w : Work) (b : Bool) : ({ w with headDue := b } : Work).frame = w.frame := rfl

@[simp] theorem frame_notBefore (w : Work) (t : Time) : (w.notBefore t).frame = w.frame := rfl

@[simp] theorem frame_toActive (w : Work) : w.toActive.frame = w.frame := by
  simp only [Work.toActive]; split <;> rfl

/-! ## Motor channels and store jobs -/

theorem frame_hallCount (w : Work) (c : ChanId) : (w.hallCount c).frame = w.frame :=
  frame_of_still (w.hallCount_still c)

theorem frame_dutyUpdate (w : Work) (c : ChanId) : (w.dutyUpdate c).frame = w.frame := by
  simp only [Work.dutyUpdate]
  split
  · rfl
  · split
    · rfl
    · split
      · rw [frame_of_still (Work.updateMover_still _ _ _)]; rfl
      · rfl

theorem frame_stallAt (w : Work) (c : ChanId) (n : Nat) : (w.stallAt c n).frame = w.frame := by
  simp only [Work.stallAt]
  split
  · split
    · rw [frame_of_still (Work.judgeStall_still _ _ _ _)]; rfl
    · rfl
  · rfl

theorem frame_overcurrentAt (w : Work) (c : ChanId) (n : Nat) : (w.overcurrentAt c n).frame = w.frame := by
  simp only [Work.overcurrentAt]
  split
  · rw [frame_of_still (Work.judgeOvercurrent_still _ _)]; rfl
  · rfl

theorem frame_overspeedAt (w : Work) (c : ChanId) (n : Nat) : (w.overspeedAt c n).frame = w.frame := by
  simp only [Work.overspeedAt]
  split
  · rw [frame_hallCount]; rfl
  · rfl

theorem frame_retryExpiry (w : Work) (c : ChanId) : (w.retryExpiry c).frame = w.frame := by
  simp only [Work.retryExpiry]
  split
  · split
    · rw [frame_of_still (Work.endRetry_still _ _)]; rfl
    · rfl
  · rfl

theorem frame_stoppingEnd (w : Work) (c : ChanId) : (w.stoppingEnd c).frame = w.frame := by
  simp only [Work.stoppingEnd]
  split
  · split
    · rw [frame_of_still (Work.endChan_still _ _ _ _)]; rfl
    · rfl
  · rfl

theorem frame_endJob (w : Work) (j : Service) (f : BitVec 6) : (w.endJob j f).frame = w.frame := by
  cases hj : j.job <;> simp only [Work.endJob, hj]
  · rw [frame_of_still (Work.serveNext_still _), frame_of_still (Work.reportWritten_still _ _ _)]
    simp [Work.frame, Still.frame, Work.still, Store.write, hj]
  · rw [frame_of_still (Work.serveNext_still _)]
    simp [Work.frame, Still.frame, Work.still, Store.write, hj]
  · rw [frame_of_still (Work.serveNext_still _)]
    simp [Work.frame, Still.frame, Work.still, Work.emit, Store.write, hj]

theorem frame_checkpointWritten (w : Work) (c : ChanId) : (w.checkpointWritten c).frame = w.frame := by
  simp only [Work.checkpointWritten]
  split
  · split
    · rw [frame_endJob]; rfl
    · rfl
  · rfl

theorem frame_learnedWritten (w : Work) : w.learnedWritten.frame = w.frame := by
  simp only [Work.learnedWritten]
  split
  · split
    · rw [frame_endJob]; rfl
    · rfl
  · rfl

theorem frame_commitComplete (w : Work) (f : BitVec 6) : (w.commitComplete f).frame = w.frame := by
  simp only [Work.commitComplete]
  split
  · split
    · rw [frame_endJob]
    · rfl
  · rfl

/-! ## Rooms, awning, panel, wind and coach inputs -/

theorem frame_leaseExpiry (w : Work) (m : MoverId) : (w.leaseExpiry m).frame = w.frame := by
  simp only [Work.leaseExpiry]
  split
  · rw [frame_of_still (Work.haltMover_still _ _ _)]; rfl
  · rfl

theorem frame_holdOffExpiry (w : Work) (m : MoverId) : (w.holdOffExpiry m).frame = w.frame := by
  simp only [Work.holdOffExpiry]; split <;> rfl

theorem frame_reversalExpiry (w : Work) (m : MoverId) : (w.reversalExpiry m).frame = w.frame := by
  simp only [Work.reversalExpiry]; split <;> rfl

theorem frame_roomDwellEnd (w : Work) (m : MoverId) : (w.roomDwellEnd m).frame = w.frame := by
  simp only [Work.roomDwellEnd]
  split
  · rw [frame_of_still (Work.takeReversal_still _ _)]; rfl
  · rfl

theorem frame_awningDwellEnd (w : Work) : w.awningDwellEnd.frame = w.frame := by
  simp only [Work.awningDwellEnd]
  split
  · rfl
  · split
    · rw [frame_of_still (Work.presentRetract_still _ _)]; rfl
    · rw [frame_of_still (Work.takeReversal_still _ _)]; rfl

theorem frame_press (w : Work) (m : MoverId) (d : Dir) : (w.press m d).frame = w.frame := by
  simp only [Work.press]
  split
  · rw [frame_of_still (Work.pressSwitch_still _ _ _)]; exact frame_toActive w
  · rfl

theorem frame_unpress (w : Work) (m : MoverId) (d : Dir) : (w.unpress m d).frame = w.frame := by
  simp only [Work.unpress]
  split
  · rw [frame_of_still (Work.releaseSwitch_still _ _ _)]; rfl
  · rfl

theorem frame_settleSwitch (w : Work) (m : MoverId) (d : Dir) (b : Bool) : (w.settleSwitch m d b).frame = w.frame := by
  simp only [Work.settleSwitch]; split <;> rfl

theorem frame_retractTrigger (w : Work) (p : Purpose) : (w.retractTrigger p).1.frame = w.frame :=
  frame_of_still (w.retractTrigger_still p)

theorem frame_windGate (w : Work) (n : Nat) : (w.windGate n).frame = w.frame := by
  simp only [Work.windGate]
  split
  · split
    · exact frame_retractTrigger _ _
    · split <;> rfl
  · rfl

theorem frame_lockoutExpiry (w : Work) : w.lockoutExpiry.frame = w.frame := by
  simp only [Work.lockoutExpiry]; split <;> rfl

theorem frame_handToPower (w : Work) (i : CoachInput) (b : Bool) : (w.handToPower i b).frame = w.frame := by
  simp only [Work.handToPower]; split <;> simp

theorem frame_inputChange (w : Work) (i : CoachInput) (b : Bool) : (w.inputChange i b).frame = w.frame := by
  simp only [Work.inputChange]
  split
  · simp only [Work.ignTrigger]
    split
    · rw [frame_retractTrigger, frame_handToPower]; rfl
    · rw [frame_handToPower]; rfl
  · rfl

theorem frame_inputSettled (w : Work) (i : CoachInput) (b : Bool) : (w.inputSettled i b).frame = w.frame := by
  simp only [Work.inputSettled]
  split
  · rfl
  · split
    · rfl
    · rw [frame_handToPower]; rfl

/-! ## Hydraulics -/

theorem frame_pumpDwellEnd (w : Work) : w.pumpDwellEnd.frame = w.frame := by
  simp only [Work.pumpDwellEnd]
  split
  · split
    · rw [frame_of_still (Work.pumpRun_still _)]; rfl
    · rfl
  · rfl

theorem frame_pumpRestEnd (w : Work) : w.pumpRestEnd.frame = w.frame := by
  simp only [Work.pumpRestEnd]; split <;> rfl

theorem frame_overrunStop (w : Work) : w.overrunStop.frame = w.frame := by
  simp only [Work.overrunStop]
  split
  · exact frame_of_still (w.endLevel_still _ _)
  · exact frame_of_still (w.endActivity_still _ _)

theorem frame_pumpOverrun (w : Work) : w.pumpOverrun.frame = w.frame := by
  simp only [Work.pumpOverrun]
  split
  · rw [frame_overrunStop]; rfl
  · rfl

@[simp] theorem Work.stowTimeoutJack_still (w : Work) (j : JackId) : (w.stowTimeoutJack j).still = w.still := by
  simp only [Work.stowTimeoutJack]; split <;> simp

theorem frame_stowTimeout (w : Work) : w.stowTimeout.frame = w.frame := by
  simp only [Work.stowTimeout]
  split
  · rfl
  · split
    · rw [frame_of_still (Work.checkWork_still _), foldl_frame _ fun w j => frame_of_still (w.stowTimeoutJack_still j)]
      rfl
    · rfl

theorem frame_manualExpiry (w : Work) : w.manualExpiry.frame = w.frame := by
  simp only [Work.manualExpiry]
  split
  · rfl
  · split
    · rw [frame_of_still (Work.endActivity_still _ _ _)]; rfl
    · rfl

theorem frame_groundChange (w : Work) (j : JackId) (b : Bool) : (w.groundChange j b).frame = w.frame := by
  simp only [Work.groundChange]
  split
  · rw [frame_of_still (Work.readSwitch_still _ _ _)]; rfl
  · rfl

theorem frame_scanBank (w : Work) : w.scanBank.frame = w.frame :=
  foldl_frame (bankJacks w.hyd.bankB) (fun w j => frame_of_still (w.readSwitch_still j _)) w

theorem frame_scanTimeout (w : Work) (j : JackId) (b : Bool) : (w.scanTimeout j b).frame = w.frame := by
  simp only [Work.scanTimeout]; split <;> rfl

theorem frame_strokeAt (w : Work) (j : JackId) (raw : BitVec 12) : (w.strokeAt j raw).frame = w.frame := by
  simp only [Work.strokeAt]
  split
  · rw [frame_of_still (Work.sampleStroke_still _ _ _)]; rfl
  · rfl

theorem frame_thirdOutOfRange (w : Work) (j : JackId) (raw : BitVec 12) : (w.thirdOutOfRange j raw).frame = w.frame := by
  rw [Work.thirdOutOfRange, frame_strokeAt]; rfl

theorem frame_lastLowSample (w : Work) (j : JackId) (raw : BitVec 12) : (w.lastLowSample j raw).frame = w.frame := by
  rw [Work.lastLowSample, frame_strokeAt]
  split <;> rfl

/-! ## Tilt and levelling -/

theorem frame_abortZero (w : Work) : w.abortZero.frame = w.frame := by
  simp only [Work.abortZero]; split <;> rfl

theorem frame_zeroSample (w : Work) : w.zeroSample.frame = w.frame := by
  simp only [Work.zeroSample]
  split
  · rfl
  · split
    · rfl
    · split
      · rfl
      · exact (frame_of_still ((Work.emit_still _ _).trans (Work.askLearned_still _))).trans rfl

theorem frame_filteredSample (w : Work) (x y : Nat) : (w.filteredSample x y).frame = w.frame := by
  simp only [Work.filteredSample]
  split
  · split
    · rw [Work.setTiltFault, frame_abortZero, frame_of_still (Work.endLevel_still _ _ _)]; rfl
    · rfl
  · split
    · rfl
    · rw [frame_zeroSample, frame_of_still (Work.tiltSample_still _)]; rfl

theorem frame_blockEnd (w : Work) (x y : BitVec 15) : (w.blockEnd x y).frame = w.frame := by
  simp only [Work.blockEnd]
  split
  · rw [frame_filteredSample]; rfl
  · rfl

theorem frame_lastDrift (w : Work) : w.lastDrift.frame = w.frame := by
  simp only [Work.lastDrift]; split <;> rfl

theorem frame_atDeadline (w : Work) (p : LevelPhase) {f : Work → Work} (h : ∀ w, (f w).frame = w.frame) :
    (w.atDeadline p f).frame = w.frame := by
  simp only [Work.atDeadline]
  split
  · split
    · rw [h]; rfl
    · rfl
  · rfl

/-! ## Supply and budget -/

@[simp] theorem frame_setLow (w : Work) (b : Bool) : (w.setLow b).frame = w.frame := by rw [Work.setLow_eq]; rfl
@[simp] theorem frame_setHigh (w : Work) (b : Bool) : (w.setHigh b).frame = w.frame := by rw [Work.setHigh_eq]; rfl

theorem frame_ite (b : Prop) [Decidable b] (w : Work) {f : Work → Work} (h : ∀ w, (f w).frame = w.frame) :
    (if b then f w else w).frame = w.frame := by
  split
  · exact h w
  · rfl

theorem frame_judgeVoltage (w : Work) (v : Nat) : (w.judgeVoltage v).frame = w.frame := by
  simp only [Work.judgeVoltage]
  refine (frame_ite _ _ fun w => frame_setHigh w true).trans ?_
  refine (frame_ite _ _ fun w => frame_setLow w true).trans ?_
  refine (frame_ite _ _ fun w => frame_setHigh w false).trans ?_
  exact frame_ite _ _ fun w => frame_setLow w false

theorem frame_withVoltage (w : Work) (v : Nat) : (w.withVoltage v).frame = w.frame := by
  rw [Work.withVoltage, frame_judgeVoltage]; rfl

theorem frame_lastLowVoltage (w : Work) (x : SupplySide) : (w.lastLowVoltage x).frame = w.frame := by
  cases x <;> rfl

theorem frame_lastClearVoltage (w : Work) (x : SupplySide) : (w.lastClearVoltage x).frame = w.frame := by
  cases x <;> rfl

theorem frame_sampleSupply (w : Work) (n : Nat) : (w.sampleSupply n).frame = w.frame := by
  rw [Work.sampleSupply, frame_judgeVoltage]; rfl

@[simp] theorem Work.tripHyd_still (w : Work) : w.tripHyd.still = w.still := by
  simp only [Work.tripHyd]; split <;> simp

theorem frame_busTrip (w : Work) (n : Nat) : (w.busTrip n).frame = w.frame := by
  refine (frame_of_still ((Work.emit_still _ _).trans ((Work.tripHyd_still _).trans (Work.dropRetract_still _ _)))).trans ?_
  rw [foldl_frame allMovers (f := Work.tripMover) fun w m => frame_of_still (w.haltMover_still m _)]
  rfl

/-- What one millisecond of the bus detector leaves: the run counted on, the detector armed again, or a trip. -/
theorem Work.judgeBus_cases (w : Work) (n : Nat) :
    ∃ s : Supply, s.low = w.sup.low ∧ s.high = w.sup.high ∧
      (w.judgeBus n = { w with sup := s } ∨ w.judgeBus n = Work.busTrip { w with sup := s } n) := by
  simp only [Work.judgeBus]
  generalize (if (decide (w.busLimit < n) != w.sup.tripped) = true then w.sup.busRun + 1 else 0) = run
  split
  · split
    · exact ⟨{ w.sup with busSum := n, tripped := false, busRun := 0 }, rfl, rfl, .inl rfl⟩
    · exact ⟨{ w.sup with busSum := n }, rfl, rfl, .inr rfl⟩
  · exact ⟨{ w.sup with busSum := n, busRun := run }, rfl, rfl, .inl rfl⟩

theorem frame_judgeBus (w : Work) (n : Nat) : (w.judgeBus n).frame = w.frame := by
  obtain ⟨s, -, -, h | h⟩ := w.judgeBus_cases n <;> rw [h]
  · rfl
  · rw [frame_busTrip]; rfl

theorem frame_lastBus (w : Work) (b : Bool) : (w.lastBus b).frame = w.frame := by
  simp only [Work.lastBus]; split <;> rfl

theorem frame_maxWaitEnd (w : Work) (t : Fin 6) : (w.maxWaitEnd t).frame = w.frame := by
  simp only [Work.maxWaitEnd]
  split
  · rfl
  · split
    · rw [frame_of_still (Work.removeQueued_still _ _ _)]; rfl
    · split
      · rw [frame_of_still (Work.endLevel_still _ _ _)]; rfl
      · rw [frame_of_still (Work.endActivity_still _ _ _)]; rfl

/-! ## Every event -/

/-- No event writes the frame. -/
theorem EventWork.frame {w z : Work} (h : EventWork w z) : z.frame = w.frame := by
  cases h with
  | settleSwitch m d b => exact frame_settleSwitch ..
  | inputSettled i b => exact frame_inputSettled ..
  | inputChange i b => exact frame_inputChange ..
  | hallCount c n => split <;> [exact (frame_hallCount ..).trans rfl; rfl]
  | dutyUpdate c => exact frame_dutyUpdate ..
  | stallAt c n => exact frame_stallAt ..
  | judgeStall m c mo => exact frame_of_still (w.judgeStall_still m c mo)
  | overcurrentAt c n => exact frame_overcurrentAt ..
  | judgeOvercurrent c => exact frame_of_still (w.judgeOvercurrent_still c)
  | overspeedAt c n => exact frame_overspeedAt ..
  | retryExpiry c => exact frame_retryExpiry ..
  | stoppingEnd c => exact frame_stoppingEnd ..
  | checkpointWritten c => exact frame_checkpointWritten ..
  | learnedWritten => exact frame_learnedWritten ..
  | commitComplete f => exact frame_commitComplete ..
  | leaseExpiry m => exact frame_leaseExpiry ..
  | holdOffExpiry m => exact frame_holdOffExpiry ..
  | reversalExpiry m => exact frame_reversalExpiry ..
  | roomDwellEnd r => exact frame_roomDwellEnd ..
  | awningDwellEnd => exact frame_awningDwellEnd ..
  | press m d => exact frame_press ..
  | unpress m d => exact frame_unpress ..
  | windGate n => exact frame_windGate ..
  | lockoutExpiry => exact frame_lockoutExpiry ..
  | pumpDwellEnd => exact frame_pumpDwellEnd ..
  | pumpRestEnd => exact frame_pumpRestEnd ..
  | pumpOverrun => exact frame_pumpOverrun ..
  | stowTimeout => exact frame_stowTimeout ..
  | manualExpiry => exact frame_manualExpiry ..
  | groundChange j b => exact frame_groundChange ..
  | scanBank => exact frame_scanBank ..
  | scanTimeout j b => exact frame_scanTimeout ..
  | strokeAt j raw => exact frame_strokeAt ..
  | thirdOutOfRange j raw => split <;> [exact frame_thirdOutOfRange ..; rfl]
  | lastLowSample j raw => split <;> [exact frame_lastLowSample ..; rfl]
  | blockEnd x y => exact frame_blockEnd ..
  | thirdRail x y => split <;> [exact (frame_blockEnd ..).trans rfl; rfl]
  | lastGood x y => split <;> [exact (frame_blockEnd ..).trans rfl; rfl]
  | lastDrift x y => split <;> [exact (frame_blockEnd ..).trans (frame_lastDrift w); rfl]
  | touchdownDeadline => exact frame_atDeadline _ _ fun w => frame_of_still w.noGround_still
  | levellingDeadline => exact frame_atDeadline _ _ fun w => frame_of_still (w.enterStabilize_still _)
  | stabilizeDeadline => exact frame_atDeadline _ _ fun w => frame_of_still w.noGround_still
  | settleTimeEnd => exact frame_atDeadline _ _ fun w => frame_of_still w.settleEnd_still
  | supplySet x v => exact (frame_withVoltage ..).trans (frame_lastLowVoltage ..)
  | supplyClear x v => exact (frame_withVoltage ..).trans (frame_lastClearVoltage ..)
  | sampleSupply n => exact frame_sampleSupply ..
  | busAt b n => split <;> [exact (frame_judgeBus ..).trans (frame_lastBus ..); rfl]
  | judgeBus => split <;> [exact frame_judgeBus ..; rfl]
  | maxWaitEnd t => exact frame_maxWaitEnd ..
  | speedGate n => rfl
  | nothing => rfl

/-! ## Every request -/

/-- The parts that no request writes either. -/
def Work.base (w : Work) : Stage × Time × Time × Profile := (w.stage, w.loadAt, w.resetAt, w.store.coach)

theorem base_of_still {w z : Work} (h : z.still = w.still) : z.base = w.base :=
  congrArg (fun k : Still => (k.stage, k.loadAt, k.resetAt, k.coach)) h

theorem base_of_frame {w z : Work} (h : z.frame = w.frame) : z.base = w.base :=
  congrArg (fun k : SlowParts => (k.stage, k.loadAt, k.resetAt, k.coach)) h

theorem base_mode (w : Work) (m : Mode) (b : Bool) : ({ w with mode := m, service := b } : Work).base = w.base := rfl

theorem base_headDue (w : Work) (b : Bool) : ({ w with headDue := b } : Work).base = w.base := rfl

theorem foldl_base {α : Type} (l : List α) {f : Work → α → Work} (h : ∀ w x, (f w x).base = w.base) (w : Work) :
    (l.foldl f w).base = w.base := by
  induction l generalizing w with
  | nil => rfl
  | cons a l ih => rw [List.foldl_cons, ih, h]

theorem Work.endService_base (w : Work) : w.endService.base = w.base := by
  rw [Work.endService, base_mode, base_of_frame (frame_abortZero _), foldl_base]
  intro w r
  split
  · exact base_of_still (w.haltMover_still _ _)
  · rfl

theorem Work.enterDormant_base (w : Work) : w.enterDormant.base = w.base := by
  rw [← base_of_frame (frame_abortZero w)]
  simp only [Work.enterDormant, Work.base]

theorem Work.judgedRacks_base (w : Work) : (allRooms.foldl Work.judgeRack w.clampAll).base = w.base := by
  rw [foldl_base _ fun w m => base_of_still (w.judgeRack_still m), Work.clampAll,
    foldl_base _ fun w c => base_of_still (w.clampPos_still c)]

/-- After a write the counts and racks are judged; a lowered run limit then stops the pump, or nothing more happens. -/
theorem Work.afterWrite_cases (w : Work) :
    ∃ z : Work, z = { allRooms.foldl Work.judgeRack w.clampAll with headDue := true } ∧
      (w.afterWrite = z ∨ w.afterWrite = z.overrunStop) := by
  refine ⟨_, rfl, ?_⟩
  unfold Work.afterWrite
  generalize ({ allRooms.foldl Work.judgeRack w.clampAll with headDue := true } : Work) = z
  dsimp only
  split
  · split
    · exact .inr rfl
    · exact .inl rfl
  · exact .inl rfl

theorem Work.afterWrite_base (w : Work) : w.afterWrite.base = w.base := by
  obtain ⟨z, rfl, h | h⟩ := w.afterWrite_cases <;> rw [h]
  · rw [base_headDue, Work.judgedRacks_base]
  · rw [base_of_frame (frame_overrunStop _), base_headDue, Work.judgedRacks_base]

/-- What PROFILE_WRITE does: nothing, or the write and what follows it. -/
theorem Work.doWrite_cases (w : Work) (ps : List (Half × Half)) :
    (w.doWrite ps).1 = w ∨ (w.doWrite ps).1 = Work.afterWrite { w with store := { w.store with
      working := (ps.foldl writePair (w.store.working, false)).1 } } := by
  simp only [Work.doWrite]
  split <;> [exact .inl rfl; skip]
  split <;> [exact .inl rfl; skip]
  split <;> [exact .inl rfl; skip]
  split <;> [exact .inl rfl; exact .inr rfl]

theorem Work.doFaultClear_cases (w : Work) (a : Byte) :
    (w.doFaultClear a).1 = w ∨ (w.doFaultClear a).1 = w.clearSupply.1 ∨ (∃ c, (w.doFaultClear a).1 = w.clearChan c) ∨
      ∃ j, (w.doFaultClear a).1 = w.clearJack j := by
  simp only [Work.doFaultClear]
  split
  · exact .inl rfl
  · split
    · exact .inl rfl
    · exact .inr (.inl rfl)
    · next c _ => split <;> [exact .inr (.inr (.inl ⟨c, rfl⟩)); exact .inl rfl]
    · next j _ => split <;> [exact .inr (.inr (.inr ⟨j, rfl⟩)); exact .inl rfl]

theorem frame_clearSupply (w : Work) : w.clearSupply.1.frame = w.frame := by
  simp only [Work.clearSupply]
  split
  · exact (frame_setHigh ..).trans (frame_setLow ..)
  · rfl

/-- What SERVICE_ENTER does: nothing, or the mode alone. -/
theorem doServiceEnter_cases (w : Work) (t : Travel) :
    (doServiceEnter w t).1 = w ∨ ∃ m, (doServiceEnter w t).1 = { w with mode := m, service := true } := by
  simp only [doServiceEnter]
  split
  · exact .inl rfl
  · exact .inr ⟨_, rfl⟩
  · split <;> [exact .inl rfl; skip]
    split <;> [exact .inl rfl; exact .inr ⟨_, rfl⟩]

theorem Work.doServiceLeave_cases (w : Work) :
    w.doServiceLeave.1 = w ∨ w.doServiceLeave.1 = w.endService ∨ w.doServiceLeave.1 = { w with service := false } := by
  simp only [Work.doServiceLeave]
  split
  · exact .inr (.inl rfl)
  · exact .inr (.inr rfl)
  · exact .inl rfl

theorem Work.doCommit_cases (w : Work) : w.doCommit.1 = w ∨ w.doCommit.1 = w.askCommit := by
  simp only [Work.doCommit]
  split <;> [exact .inl rfl; skip]
  split <;> [exact .inl rfl; skip]
  split <;> [exact .inr rfl; exact .inl rfl]

theorem State.doSleep_cases (s : State) : s.doSleep.1 = s.work ∨ s.doSleep.1 = s.work.enterDormant := by
  simp only [State.doSleep]
  split <;> [exact .inl rfl; exact .inr rfl]

theorem Work.doZeroLearn_cases (w : Work) :
    w.doZeroLearn.1 = w ∨ w.doZeroLearn.1 = { w with tilt := { w.tilt with zeroRun := some {} } } := by
  simp only [Work.doZeroLearn]
  split <;> [exact .inl rfl; skip]
  split <;> [exact .inl rfl; skip]
  split <;> [exact .inl rfl; exact .inr rfl]

/-- No request writes stage, moments of load and reset, or the COACH values in force. -/
theorem RequestWork.base {s : State} {z : Work × Reply} (h : RequestWork s z) : z.1.base = s.work.base := by
  cases h with
  | move a d => exact base_of_still (Work.doMove_still ..)
  | stop a => exact base_of_still (Work.doStop_still ..)
  | levelStart m => exact base_of_still (Work.doLevelStart_still ..)
  | levelCancel => exact base_of_still (Work.doLevelCancel_still ..)
  | jackMove m d => exact base_of_still (Work.doJackMove_still ..)
  | stow => exact base_of_still (Work.doStow_still ..)
  | faultClear a =>
    rcases s.work.doFaultClear_cases a with h | h | ⟨c, h⟩ | ⟨j, h⟩ <;> rw [h]
    · exact base_of_frame (frame_clearSupply _)
    · exact base_of_still (Work.clearChan_still ..)
    · exact base_of_still (Work.clearJack_still ..)
  | fenceSet c j => split <;> [rfl; exact base_of_still (Work.setFences_still ..)]
  | fenceClear c j => split <;> [rfl; exact base_of_still (Work.clearFences_still ..)]
  | inhibitSet m => rfl
  | inhibitClear m => rfl
  | serviceEnter => rcases doServiceEnter_cases s.work s.ready.travel with h | ⟨m, h⟩ <;> rw [h]; rfl
  | serviceLeave =>
    rcases s.work.doServiceLeave_cases with h | h | h <;> rw [h]
    · exact Work.endService_base _
    · rfl
  | learn a m => exact base_of_still (Work.doLearn_still ..)
  | strokeSet a n => exact base_of_still (Work.doStrokeSet_still ..)
  | zeroLearn => rcases s.work.doZeroLearn_cases with h | h <;> rw [h]; rfl
  | write ps =>
    rcases s.work.doWrite_cases ps with h | h <;> rw [h]
    exact Work.afterWrite_base _
  | commit =>
    rcases s.work.doCommit_cases with h | h <;> rw [h]
    exact base_of_still (Work.serveNext_still _)
  | sleep =>
    rcases s.doSleep_cases with h | h <;> rw [h]
    exact Work.enterDormant_base _

end Sys2Proof.Machine
end

