-- ==== Sys2Proof/Proofs/ProfilesInRange.lean ====
section
/-! PROOF. The working profile and the COACH values in force (R187, R188): what reads back after a write, a load and a reset,
and that every step keeps each field within its range. -/

namespace Sys2Proof.Machine

set_option Elab.async false

open Sys2Proof.Safety

/-! ## Reading back -/

theorem Profile.get_nil (i : Nat) : Profile.get [] i = dfltOf i := rfl

theorem Profile.get_cons (x : Nat × Int) (p : List (Nat × Int)) (i : Nat) :
    Profile.get (x :: p) i = if x.1 = i then x.2 else Profile.get p i := by
  by_cases h : x.1 = i <;> simp [Profile.get, h]

theorem get_insertField (id : Nat) (v : Int) (p : List (Nat × Int)) (i : Nat) :
    Profile.get (insertField id v p) i = if id = i then v else Profile.get p i := by
  induction p with
  | nil => rw [insertField, Profile.get_cons]
  | cons x p ih =>
    rw [insertField]
    split
    · rw [Profile.get_cons]
    · split
      · next hne he => rw [Profile.get_cons, Profile.get_cons, ← he]; split <;> rfl
      · next hlt hne =>
        rw [Profile.get_cons, Profile.get_cons, ih]
        split
        · next hx => rw [if_neg (by omega)]
        · rfl

/-- A filter that keeps an id reads back as before there. -/
theorem Profile.get_filter_of_keep (p : List (Nat × Int)) (q : Nat → Bool) {i : Nat} (h : q i = true) :
    Profile.get (p.filter fun x => q x.1) i = Profile.get p i := by
  induction p with
  | nil => rfl
  | cons x p ih =>
    rw [Profile.get_cons, List.filter_cons]
    split
    · rw [Profile.get_cons, ih]
    · next hx =>
      rw [if_neg, ih]
      rintro rfl
      exact hx h

/-- A filter that drops an id reads back its default. -/
theorem Profile.get_filter_of_drop (p : List (Nat × Int)) (q : Nat → Bool) {i : Nat} (h : q i = false) :
    Profile.get (p.filter fun x => q x.1) i = dfltOf i := by
  induction p with
  | nil => rfl
  | cons x p ih =>
    rw [List.filter_cons]
    split
    · next hx =>
      rw [Profile.get_cons, if_neg, ih]
      rintro rfl
      simp [h] at hx
    · exact ih

/-- What a written field reads: the value itself; every other field reads as before (R188). -/
theorem Profile.get_set (p : Profile) (id : Nat) (v : Int) (i : Nat) :
    (p.set id v).get i = if id = i then v else p.get i := by
  rw [Profile.set]
  split
  · next hd =>
    by_cases hi : id = i
    · rw [if_pos hi, ← hi, Profile.get_filter_of_drop p (fun x => x != id) (by simp), hd]
    · rw [if_neg hi, Profile.get_filter_of_keep p (fun x => x != id) (by simpa using Ne.symm hi)]
  · exact get_insertField id v p i

/-! ## Ranges -/

theorem fieldOf_mem {i : Nat} {f : Field} (h : fieldOf i = some f) : f ∈ fields := List.mem_of_find?_eq_some h

theorem fieldOf_bounds {i : Nat} {f : Field} (h : fieldOf i = some f) : f.base ≤ i ∧ i < f.base + f.count := by
  have hb := List.find?_some h
  simpa using hb

/-- Every default lies in its range (Section 11.2). -/
theorem dflt_inRange : ∀ f ∈ fields, f.inRange f.dflt = true := by decide

/-- Every bounded field has a range that is not empty. -/
theorem lo_le_hi : ∀ f ∈ fields, f.allowed = [] → f.lo ≤ f.hi := by decide

theorem dfltOf_inRange {i : Nat} {f : Field} (h : fieldOf i = some f) : f.inRange (dfltOf i) = true := by
  rw [dfltOf, h]; exact dflt_inRange f (fieldOf_mem h)

theorem profileInRange_nil : ProfileInRange [] := fun _ _ h => dfltOf_inRange h

theorem inRange_set {p : Profile} (hp : ProfileInRange p) {id : Nat} {v : Int}
    (hv : ∀ f, fieldOf id = some f → f.inRange v = true) : ProfileInRange (p.set id v) := by
  intro i f hf
  rw [Profile.get_set]
  split
  · next h => subst h; exact hv f hf
  · exact hp i f hf

/-- A LOCKS id of R19 belongs to a row whose values are the policy codes. -/
theorem allowed_of_policyField : ∀ i, i < 0x0338 → ∀ f, fieldOf i = some f → (policyField i).isSome = true →
    f.allowed = policyCodes := by
  intro i hi f hf hp
  have hm := fieldOf_mem hf
  have hb := fieldOf_bounds hf
  have hge : 0x0300 ≤ i := by
    by_contra hlt
    simp [policyField, hlt] at hp
  have hrow : ∀ g ∈ fields, 0x0300 < g.base + g.count → g.base < 0x0338 → g.allowed = policyCodes := by decide
  exact hrow f hm (by omega) (by omega)

/-- What R19 leaves of an allowed policy code is a policy code. -/
theorem clampPolicy_mem (k : Nat) {v : Int} (h : policyCodes.contains v = true) :
    policyCodes.contains (clampPolicy k v).1 = true := by
  simp only [clampPolicy]
  split
  · decide
  · split
    · decide
    · exact h

/-- What R19 and R188 store is a value of the field. -/
theorem acceptValue_inRange {id : Nat} {v : Int} {z : Int × Bool} (h : acceptValue id v = some z) {f : Field}
    (hf : fieldOf id = some f) : f.inRange z.1 = true := by
  simp only [acceptValue, hf] at h
  split at h
  · next ha =>
    cases h
    have := lo_le_hi f (fieldOf_mem hf) ha
    simp only [Field.inRange, ha, Bool.and_eq_true, decide_eq_true_eq]
    omega
  · next hn =>
    split at h
    · next hc =>
      split at h
      · next k _ hk =>
        cases h
        have hlt : id < 0x0338 := by
          by_contra hge
          rw [policyField, if_neg (by omega)] at hk
          cases hk
        have ha := allowed_of_policyField id hlt f hf (by rw [hk]; rfl)
        rw [ha] at hc
        simp only [Field.inRange, ha]
        exact clampPolicy_mem k hc
      · cases h
        cases ha : f.allowed with
        | nil => exact absurd ha hn
        | cons a l => simpa [Field.inRange, ha] using hc
    · cases h

/-! ## PROFILE_WRITE, load and reset -/

theorem inRange_writePairs {p : Profile} (hp : ProfileInRange p) (b : Bool) (ps : List (Half × Half)) :
    ProfileInRange (ps.foldl writePair (p, b)).1 := by
  induction ps generalizing p b with
  | nil => exact hp
  | cons x ps ih =>
    rw [List.foldl_cons, writePair]
    split
    · next z hz => exact ih (inRange_set hp fun f hf => acceptValue_inRange hz hf) _
    · exact ih hp _

theorem inRange_loadSection {p : Profile} (hp : ProfileInRange p) {k : Fin 6} {r : Option Record}
    (h : sectionValid k r = true) : ProfileInRange (loadSection p k r) := by
  cases r with
  | none => exact hp
  | some r =>
    simp only [sectionValid, Bool.and_eq_true, List.all_eq_true] at h
    have hall := h.2
    show ProfileInRange (((sectionIds k).zip r.vals).foldl (fun p x => p.set x.1 x.2) p)
    generalize (sectionIds k).zip r.vals = l at hall
    induction l generalizing p with
    | nil => exact hp
    | cons x l ih =>
      rw [List.foldl_cons]
      refine ih (inRange_set hp fun f hf => ?_) fun y hy => hall y (List.mem_cons_of_mem _ hy)
      have hx := hall x List.mem_cons_self
      rw [hf] at hx
      exact hx

theorem inRange_awningPolicies {p : Profile} (hp : ProfileInRange p) : ProfileInRange (awningPolicies p) := by
  have hrow : ∀ n ∈ List.range 8, ∀ f, fieldOf (0x0300 + n) = some f → f.inRange 2 = true := by
    intro n hn f hf
    have hb := fieldOf_bounds hf
    have hn8 := List.mem_range.mp hn
    have hall : ∀ g ∈ fields, 0x0300 < g.base + g.count → g.base < 0x0308 → g.inRange 2 = true := by decide
    exact hall f (fieldOf_mem hf) (by omega) (by omega)
  rw [Machine.awningPolicies]
  generalize List.range 8 = l at hrow
  induction l generalizing p with
  | nil => exact hp
  | cons n l ih =>
    rw [List.foldl_cons]
    refine ih ?_ fun m hm => hrow m (List.mem_cons_of_mem _ hm)
    split
    · exact inRange_set hp (hrow n List.mem_cons_self)
    · exact hp

theorem loadProfile_inRange (secs : Vector (Option Record) 6) : ProfileInRange (loadProfile secs) := by
  have hfold : ∀ (l : List (Fin 6)) (p : Profile), ProfileInRange p → ProfileInRange
      (l.foldl (fun p k => if sectionValid k secs[k] then Machine.loadSection p k secs[k] else p) p) := by
    intro l
    induction l with
    | nil => exact fun p hp => hp
    | cons k l ih =>
      intro p hp
      rw [List.foldl_cons]
      refine ih _ ?_
      split
      · next h => exact inRange_loadSection hp h
      · exact hp
  rw [loadProfile]
  split
  · exact hfold _ _ profileInRange_nil
  · exact inRange_awningPolicies (hfold _ _ profileInRange_nil)

/-- The COACH values in force are those of the working profile; every other field of theirs reads its default. -/
theorem inRange_coach {p : Profile} (hp : ProfileInRange p) :
    ProfileInRange (p.filter fun x => x.1 < 0x0200) := by
  intro i f hf
  cases h : decide (i < 0x0200)
  · rw [Profile.get_filter_of_drop p (fun i => decide (i < 0x0200)) h]; exact dfltOf_inRange hf
  · rw [Profile.get_filter_of_keep p (fun i => decide (i < 0x0200)) h]; exact hp i f hf

/-! ## What the commands leave of the two profiles -/

/-- The profile values in force. -/
def Work.profiles (w : Work) : Profile × Profile := (w.store.working, w.store.coach)

theorem profiles_of_kept {w z : Work} (h : kept w = kept z) : w.profiles = z.profiles :=
  congrArg (fun k : Kept => (k.working, k.coach)) h

theorem profiles_of_still {w z : Work} (h : w.still = z.still) : w.profiles = z.profiles :=
  congrArg (fun k : Still => (k.working, k.coach)) h

theorem profiles_now (w : Work) (t : Time) : (w.notBefore t).profiles = w.profiles := rfl
theorem profiles_headDue (w : Work) (b : Bool) : ({ w with headDue := b } : Work).profiles = w.profiles := rfl
theorem profiles_inh (w : Work) (b : BitVec 16) : ({ w with inh := b } : Work).profiles = w.profiles := rfl
theorem profiles_hyd (w : Work) (h : Hyd) : ({ w with hyd := h } : Work).profiles = w.profiles := rfl

theorem foldl_profiles {α : Type} (l : List α) {f : Work → α → Work} (h : ∀ w x, (f w x).profiles = w.profiles)
    (w : Work) : (l.foldl f w).profiles = w.profiles := by
  induction l generalizing w with
  | nil => rfl
  | cons a l ih => rw [List.foldl_cons, ih, h]

@[simp] theorem finish_profiles (s : State) (w : Work) (r : Option Frame) :
    (finish s w r).work.profiles = w.profiles := profiles_of_kept (kept_finish s w r)

@[simp] theorem Work.toActive_profiles (w : Work) : w.toActive.profiles = w.profiles := profiles_of_kept (kept_toActive w)

/-- No event writes the profile. -/
theorem EventWork.profiles {w z : Work} (h : EventWork w z) : z.profiles = w.profiles :=
  congrArg (fun k : SlowParts => (k.working, k.coach)) h.frame

theorem profiles_mode (w : Work) (m : Mode) (b : Bool) : ({ w with mode := m, service := b } : Work).profiles = w.profiles :=
  rfl

theorem Work.endService_profiles (w : Work) : w.endService.profiles = w.profiles := by
  rw [Work.endService, profiles_mode, profiles_of_kept (kept_abortZero _), foldl_profiles]
  intro w r
  split
  · exact profiles_of_still (w.haltMover_still _ _)
  · rfl

theorem Work.enterDormant_profiles (w : Work) : w.enterDormant.profiles = w.profiles := by
  have hz : w.abortZero.profiles = w.profiles := profiles_of_kept (kept_abortZero w)
  rw [← hz]
  simp only [Work.enterDormant, Work.profiles]

theorem Work.judgedRacks_profiles (w : Work) : (allRooms.foldl Work.judgeRack w.clampAll).profiles = w.profiles := by
  rw [foldl_profiles _ fun w m => profiles_of_still (w.judgeRack_still m), Work.clampAll,
    foldl_profiles _ fun w c => profiles_of_still (w.clampPos_still c)]

theorem Work.afterWrite_profiles (w : Work) : w.afterWrite.profiles = w.profiles := by
  obtain ⟨z, rfl, h | h⟩ := w.afterWrite_cases <;> rw [h]
  · rw [profiles_headDue, Work.judgedRacks_profiles]
  · rw [profiles_of_kept (kept_overrunStop _), profiles_headDue, Work.judgedRacks_profiles]

/-- Both profiles hold values of their ranges. -/
def Work.InRange (w : Work) : Prop := ProfileInRange w.profiles.1 ∧ ProfileInRange w.profiles.2

theorem Work.InRange.of_eq {w z : Work} (hw : w.InRange) (h : z.profiles = w.profiles) : z.InRange := by
  rw [Work.InRange, h]; exact hw

/-- PROFILE_WRITE alone writes the profile, and what it accepts is in range. -/
theorem RequestWork.inRange {s : State} {z : Work × Reply} (hs : s.work.InRange) (h : RequestWork s z) : z.1.InRange := by
  cases h with
  | write ps =>
    rcases s.work.doWrite_cases ps with h | h <;> rw [h]
    · exact hs
    · exact Work.InRange.of_eq (w := { s.work with store := { s.work.store with
          working := (ps.foldl writePair (s.work.store.working, false)).1 } })
        ⟨inRange_writePairs hs.1 _ _, hs.2⟩ (Work.afterWrite_profiles _)
  | move a d => exact hs.of_eq (profiles_of_still (Work.doMove_still ..))
  | stop a => exact hs.of_eq (profiles_of_still (Work.doStop_still ..))
  | levelStart m => exact hs.of_eq (profiles_of_still (Work.doLevelStart_still ..))
  | levelCancel => exact hs.of_eq (profiles_of_still (Work.doLevelCancel_still ..))
  | jackMove m d => exact hs.of_eq (profiles_of_still (Work.doJackMove_still ..))
  | stow => exact hs.of_eq (profiles_of_still (Work.doStow_still ..))
  | faultClear a =>
    rcases s.work.doFaultClear_cases a with h | h | ⟨c, h⟩ | ⟨j, h⟩ <;> rw [h]
    · exact hs
    · exact hs.of_eq (profiles_of_kept (kept_clearSupply _))
    · exact hs.of_eq (profiles_of_still (Work.clearChan_still ..))
    · exact hs.of_eq (profiles_of_still (Work.clearJack_still ..))
  | fenceSet c j => split <;> [exact hs; exact hs.of_eq (profiles_of_still (Work.setFences_still ..))]
  | fenceClear c j => split <;> [exact hs; exact hs.of_eq (profiles_of_still (Work.clearFences_still ..))]
  | inhibitSet m => exact hs
  | inhibitClear m => exact hs
  | serviceEnter => rcases doServiceEnter_cases s.work s.ready.travel with h | ⟨m, h⟩ <;> rw [h] <;> exact hs
  | serviceLeave =>
    rcases s.work.doServiceLeave_cases with h | h | h <;> rw [h]
    · exact hs
    · exact hs.of_eq (Work.endService_profiles _)
    · exact hs
  | learn a m => exact hs.of_eq (profiles_of_still (Work.doLearn_still ..))
  | strokeSet a n => exact hs.of_eq (profiles_of_still (Work.doStrokeSet_still ..))
  | zeroLearn => exact hs.of_eq (profiles_of_kept (kept_doZeroLearn _))
  | commit =>
    rcases s.work.doCommit_cases with h | h <;> rw [h]
    · exact hs
    · exact hs.of_eq (profiles_of_still (Work.serveNext_still _))
  | sleep =>
    rcases s.doSleep_cases with h | h <;> rw [h]
    · exact hs
    · exact hs.of_eq (Work.enterDormant_profiles _)

theorem Work.wakeUp_profiles (w : Work) (x : WakeSigns) : (w.wakeUp x).profiles = w.profiles := rfl

theorem Work.sampleCurrents_profiles (w : Work) : w.sampleCurrents.profiles = w.profiles := by
  rw [Work.sampleCurrents, profiles_hyd, foldl_profiles _ fun w c => profiles_of_still (w.setCh_still c _)]

/-- No sampler writes the profile. -/
theorem SamplerWork.profiles {w z : Work} (h : SamplerWork w z) : z.profiles = w.profiles := by
  cases h with
  | currents => exact w.sampleCurrents_profiles
  | gates =>
    simp only [Work.sampleWind]
    split <;> rfl
  | _ => rfl

theorem SilentWork.profiles {w z : Work} (h : SilentWork w z) : z.profiles = w.profiles := by
  cases h with
  | sampler h => exact h.profiles
  | _ => rfl

theorem Work.load_profiles (w : Work) : w.load.profiles = w.formed.profiles := by
  rw [Work.load, profiles_inh, foldl_profiles allChans (f := Work.restoreChan)]
  exact fun w c => profiles_of_still (w.setCh_still c _)

theorem profilesInRange_law : StepLaw ProfilesInRange where
  port h _ := h
  silent {s w} h hw := Work.InRange.of_eq (w := s.work) (z := w) h hw.profiles
  toActive {s} h := Work.InRange.of_eq (w := s.work) h (Work.toActive_profiles _)
  standbyCheck {s} h := Work.InRange.of_eq (w := s.work) h (profiles_of_kept (kept_of_calm s.standbyCheck_calm))
  event {s w} h _ hw := Work.InRange.of_eq (w := s.work) h ((finish_profiles ..).trans hw.profiles)
  request {s z} _ _ h _ _ _ hz :=
    Work.InRange.of_eq (w := z.1) (RequestWork.inRange (s := s) h hz) (finish_profiles ..)
  reset _ _ _ _ := ⟨profileInRange_nil, profileInRange_nil⟩
  load {s} _ _ := by
    have hin := loadProfile_inRange s.work.store.sections
    exact Work.InRange.of_eq (w := s.work.formed) (z := s.work.load) ⟨hin, inRange_coach hin⟩ s.work.load_profiles
  settle {s} h _ := Work.InRange.of_eq (w := s.work) h (finish_profiles ..)
  wake {s} x h _ := by
    rw [State.wakeUp_eq]
    exact Work.InRange.of_eq (w := s.work) h ((finish_profiles ..).trans (s.work.wakeUp_profiles x))
  toggle h _ := by
    simp only [State.toggleAlert]
    split <;> exact h

/-- Settles O10: only loads, writes and resets touch the profiles, each within the ranges. -/
theorem stepKeepsProfilesInRange : Obligations.StepKeepsProfilesInRange := by
  unfold Obligations.StepKeepsProfilesInRange
  exact fun _ _ hs h => profilesInRange_law.step (fun _ h => h) hs h

end Sys2Proof.Machine
end

