-- ==== Sys2Proof/Proofs/Instants.lean ====
section
/-! PROOF. Every step answers a next state, and an instant is 125 us: no command that the clock fires moves the clock further
(log 3). -/

namespace Sys2Proof.Machine

set_option Elab.async false

open Sys2Proof.Safety

/-! ## A next state, always -/

theorem runRequest_next (i : Instr) (s : State) : ∃ t, runRequest i s = .next t := by
  cases i <;> exact ⟨_, rfl⟩

theorem act_next (s : State) (j : Judgement) : ∃ t, s.act j = .next t := by
  cases j with
  | request i => exact runRequest_next i s
  | _ => exact ⟨_, rfl⟩

theorem exec_next (i : Instr) (s : State) : ∃ t, exec i s = .next t := by
  cases i with
  | selectionEnd rx =>
    show ∃ t, execSelectionEnd rx s = .next t
    simp only [execSelectionEnd]
    split
    · split
      · exact act_next _ _
      · exact ⟨_, rfl⟩
    · exact ⟨_, rfl⟩
  | _ => exact ⟨_, rfl⟩

theorem step_next (s : State) : ∃ t, step s = .next t := by
  simp only [step]
  split
  · exact exec_next _ _
  · exact ⟨_, rfl⟩

/-! ## The queue of commands is the sender's -/

/-- No command and no sampler writes the queue of commands. -/
theorem pending_law (l : List Instr) : StepLaw fun s => s.pending = l where
  port h _ := h
  silent h _ := h
  toActive h := h
  standbyCheck h := (State.standbyCheck_pending _).trans h
  event h _ _ := (finish_pending _ _ _).trans h
  request _ _ h _ _ _ _ := (finish_pending _ _ _).trans h
  reset _ _ h _ := h
  load h _ := h
  settle h _ := (finish_pending _ _ _).trans h
  wake x h _ := by rw [State.wakeUp_eq, finish_pending]; exact h
  toggle h _ := by simp only [State.toggleAlert]; split <;> exact h

/-! ## The clock -/

theorem now_of_still {w z : Work} (h : w.still = z.still) : w.now = z.now := congrArg Still.now h

theorem now_of_calm {w z : Work} (h : w.calm = z.calm) : w.now = z.now := congrArg Calm.now h

@[simp] theorem finish_now (s : State) (w : Work) (r : Option Frame) : (finish s w r).work.now = w.now :=
  now_of_calm (finish_calm s w r)

@[simp] theorem Work.toActive_now (w : Work) : w.toActive.now = w.now := now_of_calm w.toActive_calm

/-- A time-driven command that is due moves no clock. -/
theorem Work.notBefore_of_le {w : Work} {t : Time} (h : t ≤ w.now) : w.notBefore t = w := by
  rw [Work.notBefore, Nat.max_eq_left h]

theorem Work.notBefore_of_due {w : Work} {o : Option Time} {t : Time} (ho : o = some t) (h : due o w.now = true) :
    w.notBefore t = w := by
  subst ho; exact Work.notBefore_of_le (of_decide_eq_true h)

theorem event_now {s : State} {f : Work → Work} (h : (f s.work).now = s.work.now) : (event s f).work.now = s.work.now := by
  rcases event_cases s f with ⟨_, e⟩ | ⟨_, e⟩ <;> rw [e]
  rw [finish_now, h]

@[simp] theorem Work.setLow_now (w : Work) (b : Bool) : (w.setLow b).now = w.now := by rw [Work.setLow_eq]
@[simp] theorem Work.setHigh_now (w : Work) (b : Bool) : (w.setHigh b).now = w.now := by rw [Work.setHigh_eq]

theorem Work.judgeVoltage_now (w : Work) (v : Nat) : (w.judgeVoltage v).now = w.now := by
  simp only [Work.judgeVoltage]
  split <;> split <;> split <;> split <;> simp

theorem foldl_now {α : Type} (l : List α) {f : Work → α → Work} (h : ∀ w x, (f w x).now = w.now) (w : Work) :
    (l.foldl f w).now = w.now := by
  induction l generalizing w with
  | nil => rfl
  | cons a l ih => rw [List.foldl_cons, ih, h]

theorem Work.busTrip_now (w : Work) (n : Nat) : (w.busTrip n).now = w.now := by
  simp only [Work.busTrip, Work.emit_now]
  rw [now_of_still (Work.tripHyd_still _), now_of_still (Work.dropRetract_still _ _),
    foldl_now allMovers (f := Work.tripMover) fun w m => now_of_still (w.haltMover_still m _)]

theorem Work.judgeBus_now (w : Work) (n : Nat) : (w.judgeBus n).now = w.now := by
  simp only [Work.judgeBus]
  generalize (if (decide (w.busLimit < n) != w.sup.tripped) = true then w.sup.busRun + 1 else 0) = run
  split
  · split
    · rfl
    · exact Work.busTrip_now _ _
  · rfl

theorem Work.handToPower_now (w : Work) (i : CoachInput) (b : Bool) : (w.handToPower i b).now = w.now := by
  simp only [Work.handToPower]; split <;> simp

theorem SamplerEvent.now {w z : Work} (h : SamplerEvent w z) : z.now = w.now := by
  cases h with
  | overcurrent c => exact now_of_still (w.judgeOvercurrent_still c)
  | bus => split <;> [exact w.judgeBus_now _; rfl]
  | bank => exact foldl_now (bankJacks w.hyd.bankB) (fun w j => now_of_still (w.readSwitch_still j _)) w
  | supply n => exact Work.judgeVoltage_now _ _
  | press m d =>
    simp only [Work.press]
    split
    · exact (now_of_still (Work.pressSwitch_still _ _ _)).trans w.toActive_now
    · rfl
  | unpress m d =>
    simp only [Work.unpress]
    split
    · exact (now_of_still (Work.releaseSwitch_still _ _ _)).trans rfl
    · rfl
  | settleSwitch m d b h =>
    simp only [Work.settleSwitch]
    split
    · rfl
    · rw [Work.notBefore_of_le h]; rfl
  | nothing => rfl
  | stall m c mo => exact now_of_still (w.judgeStall_still m c mo)

theorem Work.sampleCurrents_now (w : Work) : w.sampleCurrents.now = w.now := by
  simp only [Work.sampleCurrents]
  exact foldl_now allChans (fun w c => w.setCh_now c _) w

theorem SamplerWork.now {w z : Work} (h : SamplerWork w z) : z.now = w.now := by
  cases h with
  | currents => exact w.sampleCurrents_now
  | gates => simp only [Work.sampleWind]; split <;> rfl
  | _ => rfl

/-! ### The commands the clock fires -/

theorem Work.inputChange_now (w : Work) (i : CoachInput) (b : Bool) : (w.inputChange i b).now = w.now := by
  simp only [Work.inputChange]
  split
  · simp only [Work.ignTrigger]
    split
    · rw [now_of_still (Work.retractTrigger_still _ _), Work.handToPower_now]; rfl
    · rw [Work.handToPower_now]; rfl
  · rfl

theorem Work.inputSettled_now {w : Work} (h : w.loadAt + Config.ms 50 ≤ w.now) (i : CoachInput) (b : Bool) :
    (w.inputSettled i b).now = w.now := by
  simp only [Work.inputSettled, Work.notBefore_of_le h]
  split
  · rfl
  · split
    · rfl
    · rw [Work.handToPower_now]; rfl

theorem Work.zeroSample_now (w : Work) : w.zeroSample.now = w.now := by
  simp only [Work.zeroSample]
  split
  · rfl
  · split
    · rfl
    · split
      · rfl
      · rw [Work.emit_now, now_of_still (Work.askLearned_still _)]

theorem Work.abortZero_now (w : Work) : w.abortZero.now = w.now := by
  simp only [Work.abortZero]; split <;> rfl

theorem Work.filteredSample_now (w : Work) (x y : Nat) : (w.filteredSample x y).now = w.now := by
  simp only [Work.filteredSample]
  split
  · split
    · rw [Work.setTiltFault, Work.abortZero_now, now_of_still (Work.endLevel_still _ _ _)]; rfl
    · rfl
  · split
    · rfl
    · rw [Work.zeroSample_now, now_of_still (Work.tiltSample_still _)]

theorem Work.blockEnd_now {w : Work} {b : Time} (hb : w.tilt.blockAt = some b) (h : b + Config.blockPeriod ≤ w.now)
    (x y : BitVec 15) : (w.blockEnd x y).now = w.now := by
  simp only [Work.blockEnd, hb, Work.notBefore_of_le h]
  split
  · rw [Work.filteredSample_now]; rfl
  · rfl

theorem Work.strokeAt_now {w : Work} {j : JackId} (h : w.strokeDue j = true) (raw : BitVec 12) :
    (w.strokeAt j raw).now = w.now := by
  simp only [Work.strokeDue, Bool.and_eq_true, decide_eq_true_eq] at h
  obtain ⟨hp, hle⟩ := h
  simp only [Work.strokeAt, if_pos hp]
  rw [now_of_still (Work.sampleStroke_still _ _ _)]
  cases hs : (w.jk j).sampleAt with
  | none => simp [Work.notBefore, Work.showStroke]
  | some t =>
    rw [hs] at hle
    simp only [Work.notBefore_of_le (w := w) (t := t + Config.strokePeriod) hle]
    rfl

theorem Work.endJob_now (w : Work) (j : Service) (f : BitVec 6) : (w.endJob j f).now = w.now := by
  cases hj : j.job <;> simp only [Work.endJob, hj, now_of_still (Work.serveNext_still _)]
  · exact (now_of_still (Work.reportWritten_still _ _ _)).trans rfl
  · rfl

/-- The end of a job, at the time the job takes. -/
theorem exec_jobEnd_now {s : State} {j : Service} (hj : s.work.store.busy = some j)
    (h : j.start + s.work.jobTime j.job ≤ s.work.now) {t : State} (he : exec (s.work.jobEnd j.job) s = .next t) :
    t.work.now = s.work.now := by
  cases hjob : j.job with
  | checkpoint c cp n =>
    rw [hjob] at h he
    cases he
    refine event_now ?_
    simp only [Work.checkpointWritten, hj,
      Work.notBefore_of_le (w := s.work) (t := j.start + Config.checkpointService) h]
    split <;> [exact Work.endJob_now _ _ _; rfl]
  | learned =>
    rw [hjob] at h he
    cases he
    refine event_now ?_
    simp only [Work.learnedWritten, hj,
      Work.notBefore_of_le (w := s.work) (t := j.start + Config.learnedService) h]
    split <;> [exact Work.endJob_now _ _ _; rfl]
  | commit =>
    rw [hjob] at he
    cases he
    refine event_now ?_
    simp only [Work.commitComplete, hj]
    split <;> [exact Work.endJob_now _ _ _; rfl]

theorem Work.dutyUpdate_now {w : Work} {c : ChanId} (h : w.updateDue c ≤ w.now) : (w.dutyUpdate c).now = w.now := by
  simp only [Work.dutyUpdate, Work.notBefore_of_le h]
  split
  · rfl
  · split
    · rfl
    · split
      · exact now_of_still (Work.updateMover_still _ _ _)
      · rfl

theorem Work.retryExpiry_now {w : Work} {c : ChanId} (h : due (w.ch c).retryEnd w.now = true) :
    (w.retryExpiry c).now = w.now := by
  cases hr : (w.ch c).retryEnd with
  | none => simp [hr, due] at h
  | some t =>
    simp only [Work.retryExpiry, hr, Option.getD_some, Work.notBefore_of_due hr h]
    split
    · split <;> [exact now_of_still (Work.endRetry_still _ _); rfl]
    · rfl

theorem Work.stoppingEnd_now {w : Work} {c : ChanId}
    (h : due ((w.ch c).motion.map fun mo => mo.earliestEnd w.restWindow) w.now = true) :
    (w.stoppingEnd c).now = w.now := by
  simp only [Work.stoppingEnd]
  split
  · next hmo =>
    rw [hmo] at h
    rw [Work.notBefore_of_le (of_decide_eq_true h)]
    split <;> [exact now_of_still (Work.endChan_still _ _ _ _); rfl]
  · rfl

theorem Work.leaseExpiry_now {w : Work} {m : MoverId} (h : due ((w.mv m).claim.bind (·.lease)) w.now = true) :
    (w.leaseExpiry m).now = w.now := by
  simp only [Work.leaseExpiry]
  split
  · next hl => rw [Work.notBefore_of_due hl h]; exact now_of_still (Work.haltMover_still _ _ _)
  · rfl

theorem Work.holdOffExpiry_now {w : Work} {m : MoverId} (h : due ((w.mv m).holdOff.map (·.2)) w.now = true) :
    (w.holdOffExpiry m).now = w.now := by
  simp only [Work.holdOffExpiry]
  split
  · next hl => rw [Work.notBefore_of_due (by rw [hl]; rfl) h]; rfl
  · rfl

theorem Work.reversalExpiry_now {w : Work} {m : MoverId} (h : due ((w.mv m).pendRev.bind (·.lease)) w.now = true) :
    (w.reversalExpiry m).now = w.now := by
  simp only [Work.reversalExpiry]
  split
  · next hl => rw [Work.notBefore_of_due hl h]; rfl
  · rfl

theorem Work.roomDwellEnd_now {w : Work} {m : MoverId} (h : due (w.mv m).dwellEnd w.now = true) :
    (w.roomDwellEnd m).now = w.now := by
  simp only [Work.roomDwellEnd]
  split
  · next hl => rw [Work.notBefore_of_due hl h]; exact now_of_still (Work.takeReversal_still _ _)
  · rfl

theorem Work.awningDwellEnd_now {w : Work} (h : due (w.mv awn).dwellEnd w.now = true) :
    w.awningDwellEnd.now = w.now := by
  simp only [Work.awningDwellEnd]
  split
  · rfl
  · next hl =>
    rw [Work.notBefore_of_due hl h]
    split
    · exact now_of_still (Work.presentRetract_still _ _)
    · exact now_of_still (Work.takeReversal_still _ _)

theorem Work.pumpDwellEnd_now {w : Work} (h : due w.hyd.dwellEnd w.now = true) : w.pumpDwellEnd.now = w.now := by
  cases hd : w.hyd.dwellEnd with
  | none => simp [hd, due] at h
  | some t =>
    simp only [Work.pumpDwellEnd, hd, Option.getD_some, Work.notBefore_of_due hd h]
    split
    · split <;> [exact now_of_still (Work.pumpRun_still _); rfl]
    · rfl

theorem Work.pumpRestEnd_now {w : Work} (h : due w.hyd.restEnd w.now = true) : w.pumpRestEnd.now = w.now := by
  cases hd : w.hyd.restEnd with
  | none => simp [hd, due] at h
  | some t =>
    simp only [Work.pumpRestEnd, hd, Option.getD_some, Work.notBefore_of_due hd h]
    split <;> rfl

theorem Work.overrunStop_now (w : Work) : w.overrunStop.now = w.now := by
  simp only [Work.overrunStop]
  split
  · exact now_of_still (w.endLevel_still _ _)
  · exact now_of_still (w.endActivity_still _ _)

theorem Work.pumpOverrun_now {w : Work} (h : due w.overrunAt w.now = true) : w.pumpOverrun.now = w.now := by
  simp only [Work.pumpOverrun]
  split
  · next hp hr =>
    rw [Work.overrunAt, hp, hr] at h
    rw [Work.notBefore_of_le (of_decide_eq_true h), Work.overrunStop_now]
  · rfl

theorem Work.stowTimeout_now {w : Work} (h : due w.stowEnd w.now = true) : w.stowTimeout.now = w.now := by
  simp only [Work.stowTimeout]
  split
  · rfl
  · next a ha =>
    split
    · next t hk hs =>
      simp only [Work.stowEnd, ha, hk, hs, if_true, Option.map_some] at h
      rw [Work.notBefore_of_le (of_decide_eq_true h), now_of_still (Work.checkWork_still _),
        foldl_now _ fun w j => now_of_still (w.stowTimeoutJack_still j)]
    · rfl

theorem Work.manualExpiry_now {w : Work} (h : due (w.hyd.activity.bind (·.lease)) w.now = true) :
    w.manualExpiry.now = w.now := by
  simp only [Work.manualExpiry]
  split
  · rfl
  · next a ha =>
    split
    · next t ht =>
      rw [Work.notBefore_of_due (by rw [ha]; exact ht) h]
      exact now_of_still (Work.endActivity_still _ _ _)
    · rfl

theorem Work.atDeadline_now {w : Work} (h : due w.lvl.deadline w.now = true) (p : LevelPhase) {f : Work → Work}
    (hf : ∀ w, (f w).now = w.now) : (w.atDeadline p f).now = w.now := by
  simp only [Work.atDeadline]
  split
  · next hd =>
    rw [Work.notBefore_of_due hd h]
    split <;> [exact hf w; rfl]
  · rfl

theorem exec_phaseRow_now {s t : State} {i : Instr} (hi : phaseRow s.work.lvl.phase = some i)
    (h : due s.work.lvl.deadline s.work.now = true) (he : exec i s = .next t) : t.work.now = s.work.now := by
  cases hp : s.work.lvl.phase <;> rw [hp] at hi <;> cases hi <;> cases he
  · exact event_now (Work.atDeadline_now h _ fun w => now_of_still w.noGround_still)
  · exact event_now (Work.atDeadline_now h _ fun w => now_of_still (w.enterStabilize_still _))
  · exact event_now (Work.atDeadline_now h _ fun w => now_of_still w.noGround_still)
  · exact event_now (Work.atDeadline_now h _ fun w => now_of_still w.settleEnd_still)

theorem Work.maxWaitEnd_now {w : Work} {t : Fin 6}
    (h : due ((w.bud.queue.find? fun q => q.target == t).map (·.waitEnd)) w.now = true) :
    (w.maxWaitEnd t).now = w.now := by
  simp only [Work.maxWaitEnd]
  split
  · rfl
  · next q hq =>
    rw [Work.notBefore_of_due (by rw [hq]; rfl) h]
    split
    · exact now_of_still (Work.removeQueued_still _ _ _)
    · split
      · exact now_of_still (Work.endLevel_still _ _ _)
      · exact now_of_still (Work.endActivity_still _ _ _)

theorem Work.windGate_now {w : Work} (h : due w.wind.gateEnd w.now = true) (n : Nat) : (w.windGate n).now = w.now := by
  cases hg : w.wind.gateEnd with
  | none => simp [hg, due] at h
  | some t =>
    simp only [Work.windGate, hg, Option.getD_some, Work.notBefore_of_due hg h]
    split
    · split
      · rw [Work.gust, Work.emit_now, now_of_still (Work.retractTrigger_still _ _)]
        rfl
      · split <;> rfl
    · rfl

theorem Work.lockoutExpiry_now {w : Work} (h : due w.wind.lockout w.now = true) : w.lockoutExpiry.now = w.now := by
  simp only [Work.lockoutExpiry]
  split
  · rfl
  · next hl => rw [Work.notBefore_of_due hl h]; rfl

theorem Work.speedGate_now {w : Work} (h : due w.speed.gateEnd w.now = true) (n : Nat) : (w.speedGate n).now = w.now := by
  cases hg : w.speed.gateEnd with
  | none => simp [hg, due] at h
  | some t => simp only [Work.speedGate, hg, Option.getD_some, Work.notBefore_of_due hg h]

theorem Work.scanTimeout_now {w : Work} (h : w.loadAt + Config.scanSettle ≤ w.now) (j : JackId) (b : Bool) :
    (w.scanTimeout j b).now = w.now := by
  simp only [Work.scanTimeout, Work.notBefore_of_le h]
  split <;> rfl

theorem State.toggleAlert_now {s : State} (h : due (s.ready.alertAt.map (· + Config.alertHalf)) s.work.now = true) :
    s.toggleAlert.work.now = s.work.now := by
  simp only [State.toggleAlert]
  split
  · rfl
  · next t ht =>
    rw [ht] at h
    rw [Work.notBefore_of_le (of_decide_eq_true h)]

/-- The part is due for STANDBY only after the moment that STANDBY_ENTRY names. -/
theorem State.quietAt_le {s : State} (h : s.standbyDue = true) : s.quietAt ≤ s.work.now := by
  simp only [State.standbyDue, State.quiet, Bool.and_eq_true, decide_eq_true_eq, beq_iff_eq] at h
  obtain ⟨⟨hp, -, hdelay⟩, -⟩ := h
  simp only [State.linkTimer, hp, reduceCtorEq, if_false, Port.linkTimer] at hdelay
  simp only [State.quietAt]
  split
  · next t ht =>
    rw [ht] at hdelay
    generalize s.work.standbyDelay = d at *
    generalize s.work.now = n at *
    exact Nat.lt_sub_iff_add_lt'.mp (Nat.lt_of_lt_of_le hdelay (Nat.min_le_left _ _))
  · exact Nat.zero_le _

theorem standbyEntry_now {s t : State} (h : s.standbyDue = true) (he : exec .standbyEntry s = .next t) :
    t.work.now = s.work.now := by
  have hnow : ({ s with work := s.work.notBefore s.quietAt } : State) = s := by
    rw [Work.notBefore_of_le (State.quietAt_le h)]
  cases he
  rw [hnow, if_pos h]
  exact now_of_calm s.standbyCheck_calm

theorem Work.load_now (w : Work) : w.load.now = w.now := by
  simp only [Work.load]
  exact foldl_now allChans (f := Work.restoreChan) (fun w c => w.setCh_now c _) w.formed

theorem Fires.now {s t : State} {i : Instr} (h : Fires s i) (he : exec i s = .next t) : t.work.now = s.work.now := by
  cases h with
  | load =>
    cases he
    split
    · exact s.work.load_now
    · rfl
  | hall c =>
    cases he
    refine event_now ?_
    split
    · exact (now_of_still (Work.hallCount_still _ _)).trans (Nat.max_self _)
    · rfl
  | inputChange i b => cases he; exact event_now (Work.inputChange_now _ i b)
  | inputSettled i b h => cases he; exact event_now (Work.inputSettled_now h i b)
  | tilt x y hb h => cases he; exact event_now (Work.blockEnd_now hb h x y)
  | stroke j raw h => cases he; exact event_now (Work.strokeAt_now h raw)
  | job hj h => exact exec_jobEnd_now hj h he
  | duty c h => cases he; exact event_now (Work.dutyUpdate_now h)
  | retry c h => cases he; exact event_now (Work.retryExpiry_now h)
  | rest c h => cases he; exact event_now (Work.stoppingEnd_now h)
  | lease m h => cases he; exact event_now (Work.leaseExpiry_now h)
  | holdOff m h => cases he; exact event_now (Work.holdOffExpiry_now h)
  | reversal m h => cases he; exact event_now (Work.reversalExpiry_now h)
  | dwell m h =>
    simp only [dwellRow] at he
    split at he
    · cases he; exact event_now (Work.roomDwellEnd_now h)
    · next hm =>
      have hm4 : m = awn := Fin.ext (by have := m.isLt; show m.val = 4; omega)
      subst hm4
      cases he
      exact event_now (Work.awningDwellEnd_now h)
  | pumpDwell h => cases he; exact event_now (Work.pumpDwellEnd_now h)
  | pumpRest h => cases he; exact event_now (Work.pumpRestEnd_now h)
  | overrun h => cases he; exact event_now (Work.pumpOverrun_now h)
  | stow h => cases he; exact event_now (Work.stowTimeout_now h)
  | manual h => cases he; exact event_now (Work.manualExpiry_now h)
  | level hi h => exact exec_phaseRow_now hi h he
  | wait t h => cases he; exact event_now (Work.maxWaitEnd_now h)
  | wind n h => cases he; exact event_now (Work.windGate_now h n)
  | lockout h => cases he; exact event_now (Work.lockoutExpiry_now h)
  | speed n h => cases he; exact event_now (Work.speedGate_now h n)
  | scan j b h => cases he; exact event_now (Work.scanTimeout_now h j b)
  | startup h =>
    cases he
    split
    · rw [finish_now, Work.settleJacks, Work.notBefore_of_le h]
    · rfl
  | alert h =>
    cases he
    split
    · exact State.toggleAlert_now h
    · rfl
  | standby h => exact standbyEntry_now h he

/-- Within an instant neither the clock nor the queue of commands moves. -/
theorem instant_law (n : Time) (l : List Instr) : ClockLaw fun s => s.work.now = n ∧ s.pending = l where
  sampler h hw := ⟨hw.now.trans h.1, h.2⟩
  event h _ hw := ⟨(finish_now _ _ _).trans (hw.now.trans h.1), (finish_pending _ _ _).trans h.2⟩
  fire {s i} h hf := by
    obtain ⟨t, he⟩ := exec_next i s
    have hfire : s.fire i = t := by simp only [State.fire, he]
    rw [hfire]
    exact ⟨(hf.now he).trans h.1, (pending_law l).exec h.2 he⟩
  wake x h _ := by
    rw [State.wakeUp_eq]
    exact ⟨(finish_now _ _ _).trans h.1, (finish_pending _ _ _).trans h.2⟩

/-- Settles O2: every command and every instant answers a next state; an instant moves the clock by 125 us alone. -/
theorem everyStepCompletes : Obligations.EveryStepCompletes := by
  unfold Obligations.EveryStepCompletes
  refine ⟨step_next, fun s t hp h => ?_⟩
  have htick : tick s = .next t := by rw [← h, step, hp]
  have hinstant := (instant_law (s.work.now + 125) []).tick (s := s) ⟨rfl, hp⟩ htick
  refine ⟨hinstant.2, hinstant.1, fun hheld => ?_⟩
  cases htick
  have hheld' : s.advance.work.stage = .held := hheld
  simp only [hheld']
  rfl

/-- Settles O1: the definition of the step. -/
theorem stepRunsFrontCommand : Obligations.StepRunsFrontCommand := by
  unfold Obligations.StepRunsFrontCommand
  exact fun _ _ _ => rfl

end Sys2Proof.Machine
end

