-- ==== Sys2Proof/Proofs/ResetValues.lean ====
section
/-! PROOF. The state of reset: every value is the one the spec gives, and the laws of every step hold there. -/

namespace Sys2Proof.Machine

set_option Elab.async false

open Sys2Proof.Safety

theorem reset_driveLaw : DriveLaw State.reset :=
  ⟨by decide, fun _ => by decide +revert, fun _ => by decide +revert⟩

theorem reset_hydraulicLaw : HydraulicLaw State.reset := by
  refine ⟨by decide, fun a h => ?_, by decide⟩
  exact nomatch (h : (none : Option HydActivity) = some a)

theorem reset_budgetLaw : BudgetLaw State.reset := by decide

theorem reset_coherent : Coherent State.reset := by decide

theorem reset_drivesOnlyInMotion : DrivesOnlyInMotion State.reset := by decide

theorem reset_profilesInRange : ProfilesInRange State.reset := ⟨profileInRange_nil, profileInRange_nil⟩

/-- Settles O11: the laws one by one, the values by evaluation. -/
theorem resetValuesAndLaws : Obligations.ResetValuesAndLaws := by
  unfold Obligations.ResetValuesAndLaws
  refine ⟨by decide, reset_coherent, reset_drivesOnlyInMotion, reset_driveLaw, reset_profilesInRange, reset_hydraulicLaw,
    reset_budgetLaw, ?_⟩
  decide

end Sys2Proof.Machine
end

