-- ==== Sys2Proof/Proofs/Selections.lean ====
section
/-! PROOF. Selections and the frames they carry: the lines of the table of R178 as one equation each of `judge`, and what the
end of a selection does on each. -/

namespace Sys2Proof.Machine

set_option Elab.async false

open Sys2Proof.Safety

/-! ## The lines of R178 -/

theorem judge_of_short {rx : List Byte} (h : rx.length < 4) : judge rx = .dropped := by
  match rx with
  | [] | [_] | [_, _] | [_, _, _] => rfl
  | _ :: _ :: _ :: _ :: _ => simp at h; omega

theorem judge_of_length {n k t : Byte} {rest : List Byte} (h4 : 4 ≤ (n :: k :: t :: rest).length)
    (h : 48 < n.toNat ∨ (n :: k :: t :: rest).length < n.toNat + 4) : judge (n :: k :: t :: rest) = .lengthError t := by
  simp only [List.length_cons] at h4 h
  have hne : rest ≠ [] := by rintro rfl; simp at h4
  simp only [judge]
  rw [if_neg hne, if_pos (by omega)]

theorem judge_of_check {n k t c : Byte} {rest : List Byte} (hn : n.toNat ≤ 48) (hc : rest[n.toNat]? = some c) :
    judge (n :: k :: t :: rest) = judgeFrame k t (rest.take n.toNat) (n :: k :: t :: rest.take n.toNat) c := by
  obtain ⟨hlt, hget⟩ := List.getElem?_eq_some_iff.1 hc
  have hne : rest ≠ [] := by rintro rfl; simp at hlt
  simp only [judge]
  rw [if_neg hne, if_neg (by omega), List.getD_eq_getElem?_getD, hc, Option.getD_some]

/-- Lines 5 to 7 of R178. -/
def judgementOf (k t : Byte) : RequestDecode → Judgement
  | .unknownKind => .unknownKind t
  | .badLength => .badLength k t
  | .request i => .request i

theorem judgeFrame_of_checked {k t : Byte} {p cs : List Byte} (h : ¬(k = 0 ∧ t = 0 ∧ p = [])) :
    judgeFrame k t p cs (crc8 cs) = judgementOf k t (decodeRequest k t p) := by
  simp only [judgeFrame]
  rw [if_neg (by simp), if_neg h]
  cases decodeRequest k t p <;> rfl

/-! ## Requests as frames -/

/-- Every request is read back from its frame's fields. -/
theorem wire_statement (i : Instr) : Laws.Wire.Statement i := by
  cases i with
  | nop => exact Laws.Wire.nop _
  | ident => exact Laws.Wire.ident _
  | attention => exact Laws.Wire.attention _
  | posture => exact Laws.Wire.posture _
  | channel => exact Laws.Wire.channel _ _
  | room => exact Laws.Wire.room _ _
  | jacks => exact Laws.Wire.jacks _
  | levelStatus => exact Laws.Wire.levelStatus _
  | wind => exact Laws.Wire.wind _
  | supply => exact Laws.Wire.supply _
  | queue => exact Laws.Wire.queue _
  | profileRead => exact Laws.Wire.profileRead _ _
  | move => exact Laws.Wire.move _ _ _
  | stop => exact Laws.Wire.stop _ _
  | levelStart => exact Laws.Wire.levelStart _ _
  | levelCancel => exact Laws.Wire.levelCancel _
  | jackMove => exact Laws.Wire.jackMove _ _ _
  | jacksStow => exact Laws.Wire.jacksStow _
  | faultClear => exact Laws.Wire.faultClear _ _
  | fenceSet => exact Laws.Wire.fenceSet _ _ _
  | fenceClear => exact Laws.Wire.fenceClear _ _ _
  | inhibitSet => exact Laws.Wire.inhibitSet _ _
  | inhibitClear => exact Laws.Wire.inhibitClear _ _
  | attentionClear => exact Laws.Wire.attentionClear _ _
  | reportEnable => exact Laws.Wire.reportEnable _ _
  | reportDisable => exact Laws.Wire.reportDisable _ _
  | serviceEnter => exact Laws.Wire.serviceEnter _
  | serviceLeave => exact Laws.Wire.serviceLeave _
  | learnStroke => exact Laws.Wire.learnStroke _ _ _
  | strokeSet => exact Laws.Wire.strokeSet _ _ _
  | tiltZeroLearn => exact Laws.Wire.tiltZeroLearn _
  | profileWrite => exact Laws.Wire.profileWrite _ _
  | profileCommit => exact Laws.Wire.profileCommit _
  | sleep => exact Laws.Wire.sleep _
  | restart => exact Laws.Wire.restart _
  | _ => intro _ k t p h; cases h

/-- What a frame's fields decode to has a frame. -/
theorem encodes_of_decodeRequest {k t : Byte} {p : List Byte} {i : Instr} (h : decodeRequest k t p = .request i) :
    (encodeRequest i).isSome = true := by
  have h0 {j : Instr} (hj : (encodeRequest j).isSome = true) (h : fixed0 p j = .request i) :
      (encodeRequest i).isSome = true := by
    unfold fixed0 at h
    split at h <;> cases h
    exact hj
  have h1 {f : Byte → Instr} (hf : ∀ a, (encodeRequest (f a)).isSome = true) (h : fixed1 p f = .request i) :
      (encodeRequest i).isSome = true := by
    unfold fixed1 at h
    split at h <;> cases h
    exact hf _
  have h2 {f : Byte → Byte → Instr} (hf : ∀ a b, (encodeRequest (f a b)).isSome = true) (h : fixed2 p f = .request i) :
      (encodeRequest i).isSome = true := by
    unfold fixed2 at h
    split at h <;> cases h
    exact hf _ _
  unfold decodeRequest at h
  split at h
  case h_12 | h_32 =>
    split at h
    · split at h <;> cases h
      rfl
    · cases h
  case h_30 => split at h <;> cases h; rfl
  all_goals first
    | exact h0 rfl h
    | exact h1 (fun _ => rfl) h
    | exact h2 (fun _ _ => rfl) h
    | cases h

/-- Settles O15: the frame's CHECK is right, its LENGTH is the payload's, and its fields are read back. -/
theorem framesCarryRequests : Obligations.FramesCarryRequests := by
  unfold Obligations.FramesCarryRequests
  intro i k t p more hwf henc
  obtain ⟨hdec, hlen, hk, -⟩ := wire_statement i hwf k t p henc
  have hn : (BitVec.ofNat 8 p.length).toNat = p.length := by simp; omega
  have hbytes : Frame.bytes { kind := k, tag := t, payload := p } ++ more
      = BitVec.ofNat 8 p.length :: k :: t :: (p ++ crc8 (BitVec.ofNat 8 p.length :: k :: t :: p) :: more) := by
    simp [Frame.bytes, Frame.body]
  have hkind : ¬(k = 0 ∧ t = 0 ∧ p = []) := by
    rintro ⟨rfl, -⟩
    simp at hk
  rw [hbytes, judge_of_check (by omega) (c := crc8 (BitVec.ofNat 8 p.length :: k :: t :: p)) (by simp [hn])]
  simp only [hn, List.take_left']
  rw [judgeFrame_of_checked hkind, hdec]; rfl

/-! ## The end of a selection -/

/-- The state whose frame is judged: the head collected, the selection over (R176 step 1). -/
def State.collected (s : State) (rx : List Byte) : State :=
  { s with port := (s.port.collect rx.length).endSelection rx }

theorem exec_selectionEnd_of_judged {s : State} (rx : List Byte) (ha : s.work.awake = true) (hs : s.port.selected = true)
    (hw : s.port.wakeSel = false) : exec (.selectionEnd rx) s = (s.collected rx).act (judge rx) := by
  show execSelectionEnd rx s = _
  simp [execSelectionEnd, ha, hs, hw, State.collected]

theorem exec_selectionEnd_of_discarded {s : State} (rx : List Byte) (hs : s.port.selected = true)
    (h : s.work.stage.loaded = false ∨ s.port.wakeSel = true) :
    exec (.selectionEnd rx) s = .next { s with port := s.port.endSelection rx } := by
  show execSelectionEnd rx s = _
  have hn : (s.work.awake && !s.port.wakeSel) = false := by
    rcases h with h | h
    · simp [Work.awake, h]
    · simp [h]
  simp [execSelectionEnd, hs, hn]

theorem State.collected_port (s : State) (rx : List Byte) :
    s.collected rx = { s with port := { s.port with
      outq := match s.port.shift with
        | some f => if f.payload.length + 4 ≤ rx.length then s.port.outq.tail else s.port.outq
        | none => s.port.outq
      selected := false, wakeSel := false, shift := none, inbound := rx.take 52, inCount := rx.length } } := by
  cases hs : s.port.shift with
  | none => simp [State.collected, Port.endSelection, Port.collect, hs]
  | some f =>
    simp only [State.collected, Port.endSelection, Port.collect, Frame.size, hs]
    split <;> rfl

/-- Settles O16: the assertion by its three cases, the end by the lines of R178. -/
theorem selectionsBeginAndEnd : Obligations.SelectionsBeginAndEnd := by
  unfold Obligations.SelectionsBeginAndEnd
  refine ⟨fun s hsel => ⟨fun ha => ?_, fun hl => ?_⟩, fun s rx ha hsel hw => ?_, fun s rx hsel h => ?_⟩
  · show execSelectAsserted s = _
    simp [execSelectAsserted, hsel, ha, State.select, State.toActive]
  · show execSelectAsserted s = _
    have hna : s.work.awake = false := by simp [Work.awake, hl]
    have hns : s.work.asleep = false := by simp [Work.asleep, hl]
    simp [execSelectAsserted, hsel, hna, hns, State.selectEarly]
  · intro q a answer err
    have hrun := exec_selectionEnd_of_judged rx ha hsel hw
    have haeq : s.collected rx = a := s.collected_port rx
    rw [haeq] at hrun
    refine ⟨fun h => ?_, fun n k t rest hrx h4 h => ?_, fun n k t rest c hrx hn hc => ?_⟩
    · rw [hrun, judge_of_short h]; rfl
    · rw [hrun, hrx, judge_of_length (hrx ▸ h4) (hrx ▸ h)]; rfl
    · have hj : judge rx = _ := hrx ▸ judge_of_check (k := k) (t := t) hn hc
      intro p
      refine ⟨fun hbad => ?_, fun hok => ⟨fun h0 hk0 ht0 => ?_, fun hne => ?_⟩⟩
      · rw [hrun, hj, judgeFrame, if_pos (Ne.symm hbad)]; rfl
      · subst h0 hk0 ht0
        rw [hrun, hj, judgeFrame, if_neg (by simpa [p] using hok.symm), if_pos ⟨rfl, rfl, rfl⟩]; rfl
      · have hidle : ¬(k = 0 ∧ t = 0 ∧ p = []) := by
          rintro ⟨hk0, ht0, hp⟩
          refine hne ⟨?_, hk0, ht0⟩
          obtain ⟨hlt, -⟩ := List.getElem?_eq_some_iff.1 hc
          have hlen : n.toNat = 0 := by
            have := congrArg List.length hp
            simp only [p, List.length_take, List.length_nil] at this
            omega
          exact BitVec.eq_of_toNat_eq hlen
        rw [hrun, hj, hok, judgeFrame_of_checked hidle]
        refine ⟨fun hd => ?_, fun hd => ?_, fun i hd => ?_⟩
        · rw [hd]; rfl
        · rw [hd]; rfl
        · rw [hd]
          exact (StepLaw.exec_eq_runRequest (encodes_of_decodeRequest hd) a).symm
  · rw [exec_selectionEnd_of_discarded rx hsel h]; rfl

end Sys2Proof.Machine
end

