-- ==== Sys2Proof/Proofs/Posture.lean ====
section
/-! PROOF. Inhibit set, travel state, hazard and ALERT follow from the blocks between commands. Their conditions are read off a
state without clocks, pins, filters and counters (`Work.sight`), which samplers, port and power leave as it is; a command's end
derives them anew. -/

namespace Sys2Proof.Machine

set_option Elab.async false

open Sys2Proof.Safety

/-! ## What the derived conditions see -/

def Channel.sight (x : Channel) : Channel := { x with window := [], current := 0, hall := {} }
def Mover.sight (x : Mover) : Mover := { x with swIn := {}, swOut := {} }
def CoachLevel.sight (x : CoachLevel) : CoachLevel := { x with cand := false, count := 0 }

def CoachInputs.sight (x : CoachInputs) : CoachInputs :=
  { ign := x.ign.sight, pbrk := x.pbrk.sight, park := x.park.sight, eng := x.eng.sight, wake := x.wake.sight }

/-- The work without clocks, pins, samplers, switches and power. -/
def Work.sight (w : Work) : Work :=
  { w with
    now := 0, free := 0, power := .active, wakeCauses := 0, wakePrev := none, returnedAt := none, pins := {}, tilt := {},
    chans := w.chans.map Channel.sight, movers := w.movers.map Mover.sight,
    hyd := { w.hyd with window := [], current := 0, bankB := false, scanAt := 0 },
    wind := { lockout := w.wind.lockout }, sup := { low := w.sup.low, high := w.sup.high },
    inputs := w.inputs.sight, speed := { moving := w.speed.moving } }

theorem Work.ch_sight (w : Work) (c : ChanId) : w.sight.ch c = (w.ch c).sight := by
  simp [Work.sight, Work.ch]

theorem Work.mv_sight (w : Work) (m : MoverId) : w.sight.mv m = (w.mv m).sight := by
  simp [Work.sight, Work.mv]

theorem Work.chansOf_sight (w : Work) (m : MoverId) : w.sight.chansOf m = w.chansOf m := by
  simp only [Work.chansOf, Work.mv_sight]; rfl

theorem Work.allCh_sight (w : Work) (m : MoverId) (p : Channel → Bool) (h : ∀ x : Channel, p x.sight = p x) :
    w.sight.allCh m p = w.allCh m p := by
  simp [Work.allCh, Work.chansOf_sight, Work.ch_sight, h]

theorem Work.anyCh_sight (w : Work) (m : MoverId) (p : Channel → Bool) (h : ∀ x : Channel, p x.sight = p x) :
    w.sight.anyCh m p = w.anyCh m p := by
  simp [Work.anyCh, Work.chansOf_sight, Work.ch_sight, h]

theorem Work.isIn_sight (w : Work) (m : MoverId) : w.sight.isIn m = w.isIn m := by
  simp only [Work.isIn, Work.seatOf, Work.known]
  rw [Work.allCh_sight _ _ _ fun _ => rfl, Work.allCh_sight _ _ _ fun _ => rfl, Work.allCh_sight _ _ _ fun _ => rfl]

theorem Work.roomsIn_sight (w : Work) : w.sight.roomsIn = w.roomsIn := by
  simp only [Work.roomsIn, Work.mv_sight, Work.isIn_sight]; rfl

theorem Work.activity_sight (w : Work) (m : MoverId) : w.sight.activity m = w.activity m := by
  simp only [Work.activity, Work.mv_sight]
  rw [Work.anyCh_sight _ _ _ fun _ => rfl, Work.anyCh_sight _ _ _ fun _ => rfl, Work.anyCh_sight _ _ _ fun _ => rfl]
  rfl

theorem Work.deriveInh_sight (w : Work) : w.sight.deriveInh = w.deriveInh := by
  simp only [Work.deriveInh, Work.roomsIn_sight]; rfl

theorem Work.travel_sight (w : Work) : w.sight.travel = w.travel := by
  simp only [Work.travel, Work.inMotion, Work.putAway, Work.stowed, Work.roomsIn_sight, Work.isIn_sight,
    Work.activity_sight, Work.mv_sight]
  rfl

theorem Work.alertOf_sight (w : Work) (t : Travel) (h : Bool) : w.sight.alertOf t h = w.alertOf t h := by
  simp only [Work.alertOf, Work.slowCause, Work.ch_sight]; rfl

theorem coherent_sight (s : State) : Coherent { s with work := s.work.sight } ↔ Coherent s := by
  simp only [Coherent, Settled, PostureTrue, Work.deriveInh_sight, Work.travel_sight, Work.alertOf_sight]
  rfl

/-- Coherence is read off the sight and the posture. -/
theorem coherent_of_sight {s t : State} (h : Coherent s) (hw : t.work.sight = s.work.sight) (hr : t.ready = s.ready) :
    Coherent t := by
  rw [← coherent_sight] at h ⊢
  simp only [Coherent, Settled, PostureTrue, hw, hr] at h ⊢
  exact h

/-! ## What leaves the sight as it is -/

theorem Work.sight_setCh {w : Work} {c : ChanId} {x : Channel} (h : x.sight = (w.ch c).sight) :
    (w.setCh c x).sight = w.sight := by
  have hc : (w.chans.set c x).map Channel.sight = w.chans.map Channel.sight := by
    ext i hi : 1
    rw [Vector.getElem_map, Vector.getElem_map, Vector.getElem_set]
    split
    · next e => subst e; exact h
    · rfl
  simp only [Work.sight, Work.setCh, hc]

theorem Work.sight_setMv {w : Work} {m : MoverId} {x : Mover} (h : x.sight = (w.mv m).sight) :
    (w.setMv m x).sight = w.sight := by
  have hm : (w.movers.set m x).map Mover.sight = w.movers.map Mover.sight := by
    ext i hi : 1
    rw [Vector.getElem_map, Vector.getElem_map, Vector.getElem_set]
    split
    · next e => subst e; exact h
    · rfl
  simp only [Work.sight, Work.setMv, hm]

theorem foldl_sight {α : Type} (l : List α) {f : Work → α → Work} (h : ∀ w x, (f w x).sight = w.sight) (w : Work) :
    (l.foldl f w).sight = w.sight := by
  induction l generalizing w with
  | nil => rfl
  | cons a l ih => rw [List.foldl_cons, ih, h]

theorem Work.sight_sampleCurrents (w : Work) : w.sampleCurrents.sight = w.sight := by
  refine Eq.trans ?_ (foldl_sight allChans
    (f := fun w c => w.setCh c ((w.ch c).sampleCurrent w.pins.isns[c])) (fun w c => Work.sight_setCh rfl) w)
  rw [Work.sampleCurrents]
  generalize allChans.foldl (fun w c => w.setCh c ((w.ch c).sampleCurrent w.pins.isns[c])) w = z
  rfl

theorem Work.sight_gates (w : Work) : w.sampleWind.sampleSpeed.sight = w.sight := by
  simp only [Work.sampleWind]
  split <;> rfl

theorem CoachLevel.sight_sample (x : CoachLevel) (b : Bool) : (x.sample b).sight = x.sight := by
  simp only [CoachLevel.sample]; split <;> rfl

theorem CoachInputs.sight_put {x : CoachInputs} {i : CoachInput} {l : CoachLevel} (h : l.sight = (x.get i).sight) :
    (x.put i l).sight = x.sight := by
  cases i <;> simp only [CoachInputs.sight, CoachInputs.put, h] <;> rfl

theorem Mover.sight_setSwitch (x : Mover) (d : Dir) (sw : Switch) : (x.setSwitch d sw).sight = x.sight := by
  cases d <;> rfl

theorem SamplerWork.sight {w z : Work} (h : SamplerWork w z) : z.sight = w.sight := by
  cases h with
  | hall c f => exact Work.sight_setCh rfl
  | currents => exact w.sight_sampleCurrents
  | gates => exact w.sight_gates
  | input i b =>
    have hi := CoachInputs.sight_put (x := w.inputs) (i := i) (CoachLevel.sight_sample (w.inputs.get i) b)
    simp only [Work.sight, hi]
  | switch m d b => exact Work.sight_setMv (Mover.sight_setSwitch ..)
  | free n => rfl
  | wakePrev x => rfl
  | tilt x y n => rfl

theorem SilentWork.sight {w z : Work} (h : SilentWork w z) : z.sight = w.sight := by
  cases h with
  | sampler h => exact h.sight
  | time t => rfl
  | wakeCauses => rfl
  | resetPin b => rfl

theorem Work.sight_returnActive (w : Work) : w.returnActive.sight = w.sight := by
  have hc : (w.chans.map fun (x : Channel) => { x with window := [] }).map Channel.sight = w.chans.map Channel.sight := by
    rw [Vector.map_map]; rfl
  simp only [Work.returnActive, Work.sight, hc]

theorem Work.sight_toActive (w : Work) : w.toActive.sight = w.sight := by
  simp only [Work.toActive]
  split
  · exact w.sight_returnActive
  · rfl

theorem Work.sight_returnOnMotion (w : Work) (t : Travel) : (w.returnOnMotion t).sight = w.sight := by
  simp only [Work.returnOnMotion]
  split
  · exact w.sight_returnActive
  · rfl

theorem State.sight_standbyCheck {s : State} (he : s.work.events = []) : s.standbyCheck.work.sight = s.work.sight := by
  rcases s.standbyCheck_cases with ⟨_, h⟩ | ⟨_, h⟩ | ⟨_, h⟩ <;> rw [h]
  · obtain ⟨t, e, hz⟩ := s.work.enterStandby_eq
    simp only [hz, Work.sight, he]
  · rfl

/-! ## The end of a command -/

theorem Ready.withAlert_alert (r : Ready) (a : Alert) (now : Time) : (r.withAlert a now).alert = a := by
  simp only [Ready.withAlert]
  split
  · next h => exact h.symm
  · rfl

theorem Ready.withAlert_posture (r : Ready) (a : Alert) (now : Time) :
    (r.withAlert a now).travel = r.travel ∧ (r.withAlert a now).travelOk = r.travelOk ∧
      (r.withAlert a now).hazard = r.hazard := by
  simp only [Ready.withAlert]
  split <;> exact ⟨rfl, rfl, rfl⟩

theorem postureTrue_of_nextReady {s : State} (r : Ready) (hc : s.work.stage = .complete)
    (hr : s.ready = s.work.nextReady r) : PostureTrue s := by
  rw [PostureTrue, if_pos hc, hr, Work.nextReady, Ready.withAlert_alert]
  obtain ⟨ht, hk, hh⟩ := Ready.withAlert_posture
    { r with travel := s.work.travel, hazard := hazardOf s.work.inh s.work.travel,
             travelOk := s.work.travel == .travelReady }
    (s.work.alertOf s.work.travel (hazardOf s.work.inh s.work.travel)) s.work.now
  exact ⟨ht, hk, hh, by rw [hh]⟩

theorem Work.sight_withoutEvents {w z : Work} (h : w.sight = z.sight) :
    ({ w with events := [] } : Work).sight = ({ z with events := [] } : Work).sight :=
  congrArg (fun z : Work => { z with events := [] }) h

theorem finishWork_settled (s : State) (w : Work) :
    (finishWork s w).inh = (finishWork s w).deriveInh ∧ (finishWork s w).headDue = false := ⟨rfl, rfl⟩

theorem Work.stage_of_startupCheck {w : Work} (h : w.startupCheck.stage ≠ .complete) : w.stage ≠ .complete := by
  refine fun hw => h ?_
  rw [Work.startupCheck]
  split
  · rfl
  · exact hw

/-- The state a command settles in, before its events are delivered and power is judged. -/
def finishCore (s : State) (w : Work) : State :=
  { s with ready := finishReady s w, work := { finishWork s w with events := [] } }

theorem finishCore_coherent {s : State} {w : Work} (h : w.stage ≠ .complete → s.ready = {}) :
    Coherent (finishCore s w) := by
  obtain ⟨hi, hd⟩ := finishWork_settled s w
  have hst : (finishWork s w).stage = w.startupCheck.stage := congrArg Still.stage (finishWork_still s w)
  have hready : finishReady s w = if (finishWork s w).stage = .complete then (finishWork s w).nextReady s.ready
      else s.ready := rfl
  rw [finishCore]
  generalize finishWork s w = z at hi hd hst hready
  refine ⟨⟨hi, hd, rfl⟩, ?_⟩
  by_cases hc : z.stage = .complete
  · rw [if_pos hc] at hready
    exact postureTrue_of_nextReady s.ready hc hready
  · rw [if_neg hc] at hready
    rw [PostureTrue, if_neg hc]
    exact hready.trans (h (Work.stage_of_startupCheck (hst ▸ hc)))

theorem finish_sight (s : State) (w : Work) (r : Option Frame) :
    (finish s w r).work.sight = (finishCore s w).work.sight := by
  rw [finish_eq]
  exact (State.sight_standbyCheck rfl).trans (Work.sight_withoutEvents (Work.sight_returnOnMotion ..))

theorem finish_ready (s : State) (w : Work) (r : Option Frame) : (finish s w r).ready = (finishCore s w).ready := by
  rw [finish_eq, State.standbyCheck_ready]; rfl

/-- A command's end leaves a coherent state, when before the completed start-up the posture stands as reset formed it. -/
theorem finish_coherent {s : State} {w : Work} (r : Option Frame) (h : w.stage ≠ .complete → s.ready = {}) :
    Coherent (finish s w r) :=
  coherent_of_sight (finishCore_coherent h) (finish_sight s w r) (finish_ready s w r)

theorem ready_of_coherent {s : State} (h : Coherent s) (hs : s.work.stage ≠ .complete) : s.ready = {} := by
  have := h.2
  rwa [PostureTrue, if_neg hs] at this

theorem EventWork.stage {w z : Work} (h : EventWork w z) : z.stage = w.stage := stage_of_frame h.frame

theorem RequestWork.stage {s : State} {z : Work × Reply} (h : RequestWork s z) : z.1.stage = s.work.stage :=
  congrArg Prod.fst h.base

/-! ## The law -/

/-- The inhibit set of blocks at their reset values (log 5). -/
theorem deriveInh_of_fresh {w : Work} (hin : w.inputs = {}) (hspeed : w.speed = {}) (hsup : w.sup = {}) (hwind : w.wind = {})
    (hlink : w.link = 0) (hcoach : w.store.coach = []) (hmovers : w.movers = Vector.replicate 5 {})
    (hstage : w.stage ≠ .complete) : w.deriveInh = 0x0107 := by
  have hrooms : w.roomsIn = true := by
    simp [Work.roomsIn, Work.mv, hmovers, allRooms]
  have hstab : w.stabilized = false := by simp [Work.stabilized, hstage]
  have hjacks : (w.coach 0x0141 == 1) = true := by simp only [Work.coach, hcoach]; decide
  have heng : (w.coach 0x0142 == 1) = false := by simp only [Work.coach, hcoach]; decide
  simp only [Work.deriveInh, hin, hspeed, hsup, hwind, hlink, hrooms, hjacks, heng, hstab]
  decide

theorem reset_coherent_of (s : State) (cause : ResetCause) {stage : Stage} (h : stage = .held ∨ stage = .loading) :
    Coherent (s.resetTo stage cause) := by
  have hst : (s.resetTo stage cause).work.stage ≠ .complete := by
    show stage ≠ .complete
    rcases h with rfl | rfl <;> decide
  refine ⟨⟨(deriveInh_of_fresh rfl rfl rfl rfl rfl rfl rfl hst).symm, rfl, rfl⟩, ?_⟩
  rw [PostureTrue, if_neg hst]
  rfl

theorem Work.load_settled {w : Work} (hd : w.headDue = false) (he : w.events = []) :
    w.load.inh = w.load.deriveInh ∧ w.load.headDue = false ∧ w.load.events = [] ∧ w.load.stage = .settling := by
  have hr : ∀ (l : List ChanId) (v : Work), v.headDue = false → v.events = [] → v.stage = .settling →
      (l.foldl Work.restoreChan v).headDue = false ∧ (l.foldl Work.restoreChan v).events = [] ∧
        (l.foldl Work.restoreChan v).stage = .settling := by
    intro l
    induction l with
    | nil => exact fun v h₁ h₂ h₃ => ⟨h₁, h₂, h₃⟩
    | cons c l ih => exact fun v h₁ h₂ h₃ => ih (v.restoreChan c) h₁ h₂ h₃
  obtain ⟨h₁, h₂, h₃⟩ := hr allChans w.formed hd he rfl
  rw [Work.load]
  generalize allChans.foldl Work.restoreChan w.formed = z at h₁ h₂ h₃
  exact ⟨rfl, h₁, h₂, h₃⟩

theorem State.toggleAlert_coherent {s : State} (h : Coherent s) (ha : s.ready.alert = .slow) : Coherent s.toggleAlert := by
  have hc : s.work.stage = .complete := by
    by_contra hn
    rw [ready_of_coherent h hn] at ha
    cases ha
  obtain ⟨hset, hp⟩ := h
  rw [PostureTrue, if_pos hc] at hp
  simp only [State.toggleAlert]
  split
  · exact ⟨hset, by rw [PostureTrue, if_pos hc]; exact hp⟩
  · exact ⟨hset, by rw [PostureTrue, if_pos (show (s.work.notBefore _).stage = _ from hc)]; exact hp⟩

theorem coherent_of_settling {s : State} {z : Work} (p : Port) (hr : s.ready = {})
    (h : z.inh = z.deriveInh ∧ z.headDue = false ∧ z.events = [] ∧ z.stage = .settling) :
    Coherent { s with work := z, port := p } := by
  obtain ⟨hi, hd, he, hs⟩ := h
  refine ⟨⟨hi, hd, he⟩, ?_⟩
  rw [PostureTrue, if_neg (by rw [hs]; decide)]
  exact hr

theorem State.load_coherent {s : State} (h : Coherent s) (hst : s.work.stage = .loading) : Coherent s.load :=
  coherent_of_settling _ (ready_of_coherent h (by rw [hst]; decide)) (Work.load_settled h.1.2.1 h.1.2.2)

theorem State.atWake_ready {s : State} (x : WakeSigns) (h : s.ready = {}) : (s.atWake x).ready = {} := by
  simp only [State.atWake, h, Ready.thaw, resumed, Option.map_none]

theorem coherent_law : StepLaw Coherent where
  port h _ := h
  silent h hw := coherent_of_sight h hw.sight rfl
  toActive h := coherent_of_sight h (Work.sight_toActive _) rfl
  standbyCheck {s} h := coherent_of_sight h (State.sight_standbyCheck h.1.2.2) s.standbyCheck_ready
  event h _ hw := finish_coherent none fun hn => ready_of_coherent h (hw.stage ▸ hn)
  request _ _ h _ _ _ hz := finish_coherent _ fun hn => ready_of_coherent h (hz.stage ▸ hn)
  reset cause _ _ hs := reset_coherent_of _ cause hs
  load h hst := State.load_coherent h hst
  settle h hst := finish_coherent none fun _ => ready_of_coherent h (by rw [hst]; decide)
  wake {s} x h _ := by
    rw [State.wakeUp_eq]
    refine finish_coherent none fun hn => State.atWake_ready x (ready_of_coherent h (Work.wakeUp_stage .. ▸ hn))
  toggle h ha := State.toggleAlert_coherent h ha

/-! ## What TRAVEL_OK says -/

theorem Work.travel_eq_ready {w : Work} : w.travel = .travelReady ↔ w.inMotion = false ∧ w.putAway = true := by
  cases hm : w.inMotion <;> cases hp : w.putAway <;> simp [Work.travel, hm, hp]

/-- Settles O6: the law of coherence is kept by every step; TRAVEL_OK is false before the completed start-up, and after it says
that nothing moves and everything is put away. -/
theorem stepKeepsCoherence : Obligations.StepKeepsCoherence := by
  unfold Obligations.StepKeepsCoherence
  refine ⟨fun s t hs h => coherent_law.step (fun _ h => h) hs h, fun s hs hok => ?_⟩
  have hc : s.work.stage = .complete := by
    by_contra hn
    rw [State.outTravelOk, ready_of_coherent hs hn] at hok
    cases hok
  obtain ⟨-, hp⟩ := hs
  rw [PostureTrue, if_pos hc] at hp
  obtain ⟨-, htok, hhaz, -⟩ := hp
  have ht : s.work.travel = .travelReady := by
    rw [State.outTravelOk, htok] at hok
    exact eq_of_beq hok
  obtain ⟨hm, haway⟩ := Work.travel_eq_ready.1 ht
  simp only [Work.putAway, Bool.and_eq_true, Bool.or_eq_true, Bool.not_eq_true'] at haway
  obtain ⟨⟨hrooms, hawn⟩, hjacks⟩ := haway
  refine ⟨hc, hm, hrooms, hjacks, fun hpres => hawn.resolve_left (by rw [hpres]; decide), ?_⟩
  rw [hhaz, ht, hazardOf]
  simp

end Sys2Proof.Machine
end

