-- ==== Sys2Proof/Proofs/CommandEnds.lean ====
section
/-! PROOF. What the end of a command leaves alone, and the judgement of the head of the admission queue (R146). -/

namespace Sys2Proof.Machine

set_option Elab.async false

open Sys2Proof.Safety

/-! ## The judgement of the head -/

theorem Work.judgeHead_of_not_due {w : Work} (h : w.headDue = false) : w.judgeHead = w := by
  simp [Work.judgeHead, h]

theorem Work.judgeHead_of_due {w : Work} (h : w.headDue = true) :
    w.judgeHead = { w.admitHeads 16 with headDue := false } := by
  simp [Work.judgeHead, h]

@[simp] theorem Work.judgeHead_headDue (w : Work) : w.judgeHead.headDue = false := by
  cases h : w.headDue
  · rw [Work.judgeHead_of_not_due h, h]
  · rw [Work.judgeHead_of_due h]

@[simp] theorem Work.judgeHead_judgeHead (w : Work) : w.judgeHead.judgeHead = w.judgeHead :=
  Work.judgeHead_of_not_due w.judgeHead_headDue

theorem Work.headDue_false {w : Work} (h : w.headDue = false) : ({ w with headDue := false } : Work) = w := by
  rw [← h]

/-- Nothing waits whose draw finds a place. -/
def HeadStays (w : Work) : Prop := ∀ q ∈ w.bud.queue.head?, w.budget < q.draw + w.bud.sum

theorem HeadStays.admitHeads {w : Work} (h : HeadStays w) (n : Nat) : w.admitHeads n = w := by
  cases n with
  | zero => rfl
  | succ n =>
    cases hq : w.bud.queue with
    | nil => simp [Work.admitHeads, hq]
    | cons q rest =>
      have hf : w.fits q.draw = false := by simpa [Work.fits] using h q (by simp [hq])
      simp [Work.admitHeads, hq, hf]

theorem HeadStays.judgeHead {w : Work} (h : HeadStays w) : w.judgeHead = { w with headDue := false } := by
  cases hd : w.headDue
  · rw [Work.judgeHead_of_not_due hd, Work.headDue_false hd]
  · rw [Work.judgeHead_of_due hd, h.admitHeads]

theorem Work.admitHeads_succ_of_fits {w : Work} {q : Queued} {rest : List Queued} (hq : w.bud.queue = q :: rest)
    (hf : q.draw + w.bud.sum ≤ w.budget) (n : Nat) : w.admitHeads (n + 1) = (w.admitHead q rest).admitHeads n := by
  have hfits : w.fits q.draw = true := by simpa [Work.fits] using hf
  simp [Work.admitHeads, hq, hfits]

/-- The head fits, and what follows it does not: one admission. -/
theorem Work.judgeHead_of_fits {w : Work} {q : Queued} {rest : List Queued} (hd : w.headDue = true)
    (hq : w.bud.queue = q :: rest) (hf : q.draw + w.bud.sum ≤ w.budget) (hs : HeadStays (w.admitHead q rest)) :
    w.judgeHead = { w.admitHead q rest with headDue := false } := by
  rw [Work.judgeHead_of_due hd, Work.admitHeads_succ_of_fits hq hf, hs.admitHeads]

/-! ## The owner of the admitted entry -/

theorem Work.admitTarget_mover (w : Work) (m : MoverId) : w.admitTarget (moverTarget m) = w.admitMover m := by
  have hlt : (moverTarget m).val < 5 := m.isLt
  simp only [Work.admitTarget, hlt, dite_true]
  rfl

theorem Work.admitTarget_hyd (w : Work) : w.admitTarget hydTarget = w.admitPump := rfl

theorem Work.admitMover_of_claim {w : Work} {m : MoverId} {c : Claim} (hc : (w.mv m).claim = some c)
    (hl : (w.mv m).learn = none) : w.admitMover m = w.handOver m c.source c.dir (profileOf w m) := by
  simp only [Work.admitMover, hc, hl, profileOf]

theorem foldl_bud {α : Type} (l : List α) {f : Work → α → Work} (h : ∀ w x, (f w x).bud = w.bud) (w : Work) :
    (l.foldl f w).bud = w.bud := by
  induction l generalizing w with
  | nil => rfl
  | cons a l ih => rw [List.foldl_cons, ih, h]

@[simp] theorem Work.askCheckpoint_bud (w : Work) (c : ChanId) (b : Bool) : (w.askCheckpoint c b).bud = w.bud := by
  simp only [Work.askCheckpoint, Work.serveNext]; split <;> rfl

@[simp] theorem Work.handOver_bud (w : Work) (m : MoverId) (s : Source) (d : Dir) (p : MotionProfile) :
    (w.handOver m s d p).bud = w.bud := by
  simp only [Work.handOver]
  rw [foldl_bud _ fun w c => by simp]; rfl

theorem budget_of_still {w z : Work} (h : z.still = w.still) : z.budget = w.budget :=
  congrArg (fun k : Still => (k.working.get 0x0606).toNat) h

theorem HeadStays.of_eq {w z : Work} (h : HeadStays w) (hb : z.bud = w.bud) (hs : z.still = w.still) : HeadStays z := by
  intro q hq
  rw [hb] at hq ⊢
  rw [budget_of_still hs]
  exact h q hq

/-- A part that only raises the flag of the head's judgement, or touches the hydraulic unit, has the budget it had. -/
theorem HeadStays.admitted {w : Work} {q : Queued} {rest : List Queued}
    (h : ∀ n ∈ rest.head?, w.budget < n.draw + (w.bud.sum + q.draw)) :
    HeadStays (admitted { w with bud := { w.bud with queue := rest } } q.target q.draw) := by
  intro n hn
  have := h n hn
  simpa [Safety.admitted, Budget.sum, Work.budget, Work.profN, Work.prof] using this

/-! ## The pump start keeps an empty queue empty -/

theorem Work.pumpStop_queue (w : Work) (b : Bool) : (w.pumpStop b).bud.queue = w.bud.queue := by
  simp only [Work.pumpStop]
  split
  · split <;> rfl
  · split <;> rfl
  · rfl

theorem Work.endActivity_queue_nil {w : Work} (h : w.bud.queue = []) (o : EndOutcome) (b : Bool) :
    (w.endActivity o b).bud.queue = [] := by
  have hp : (w.pumpStop b).bud.queue = [] := (w.pumpStop_queue b).trans h
  have hq : (w.pumpStop b).isQueued hydTarget = false := by simp [Work.isQueued, hp]
  simp only [Work.endActivity, hq]
  split
  · exact h
  · split <;> exact hp

theorem Work.enterSettling_queue (w : Work) : w.enterSettling.bud.queue = w.bud.queue := w.pumpStop_queue false

theorem Work.checkGrounded_queue (w : Work) : w.checkGrounded.bud.queue = w.bud.queue := by
  simp only [Work.checkGrounded]
  split
  · split
    · exact w.enterSettling_queue
    · rfl
    · exact w.enterSettling_queue
    · rfl
  · rfl

theorem Work.enterTouchdown_queue (w : Work) : w.enterTouchdown.bud.queue = w.bud.queue := by
  simp only [Work.enterTouchdown, Work.followGround]
  split
  · exact Work.checkGrounded_queue _
  · rfl

theorem Work.checkWork_queue_nil {w : Work} (h : w.bud.queue = []) : w.checkWork.bud.queue = [] := by
  simp only [Work.checkWork]
  split
  · exact h
  · split
    · exact h
    · split
      · exact Work.endActivity_queue_nil h _ _
      · exact h
    · split
      · exact Work.endActivity_queue_nil h _ _
      · exact h

theorem Work.jacksMove_queue (w : Work) : w.jacksMove.bud.queue = w.bud.queue := by
  simp only [Work.jacksMove]; split <;> rfl

theorem Work.atPumpStart_queue_nil {w : Work} (h : w.bud.queue = []) (a : HydActivity) :
    (w.atPumpStart a).bud.queue = [] := by
  simp only [Work.atPumpStart]
  split
  · split
    · exact (Work.enterTouchdown_queue _).trans h
    · exact h
  · exact Work.checkWork_queue_nil ((Work.jacksMove_queue _).trans h)
  · exact Work.checkWork_queue_nil ((Work.jacksMove_queue _).trans h)

theorem HeadStays.of_nil {w : Work} (h : w.bud.queue = []) : HeadStays w := by
  intro q hq; simp [h] at hq

theorem Work.admitPump_of_dwell {w : Work} {a : HydActivity} (ha : w.hyd.activity = some a) (hp : w.hyd.pump = .dwell) :
    w.admitPump = { w with hyd := { w.hyd with pendingStart := true, activity := some { a with phase := .running } } } := by
  simp [Work.admitPump, Work.setActPhase, ha, hp]

theorem Work.admitPump_of_off {w : Work} {a : HydActivity} (ha : w.hyd.activity = some a) (hp : w.hyd.pump = .off) :
    w.admitPump = Work.atPumpStart { w with hyd := { w.hyd with
      pump := .running, pdir := a.dir, runStart := some w.now, runHeld := 0, pendingStart := false,
      activity := some { a with phase := .running, start := some w.now } } } { a with phase := .running, start := some w.now } := by
  simp [Work.admitPump, Work.setActPhase, Work.pumpRun, ha, hp]

/-! ## A command that leaves nothing to settle -/

theorem Work.startupCheck_of_complete {w : Work} (h : w.stage = .complete) : w.startupCheck = w := by
  simp [Work.startupCheck, h]

theorem became_self (x : BitVec 16) : x &&& ~~~ x = 0 := by
  ext i hi; simp

theorem Work.settled_of_settled {w : Work} (hd : w.headDue = false) (hi : w.inh = w.deriveInh) :
    w.settled = w := by
  have hloop : w.settleLoop 4 = w := by
    simp only [Work.settleLoop, Work.judgeHead_of_not_due hd, ← hi, became_self, if_true]
  simp only [Work.settled, hloop, ← hi, ← hd]

/-- Nothing is owed to the queue and no member changes: the blocks stay as the command left them. -/
theorem finishWork_of_settled (s : State) {w : Work} (hc : w.stage = .complete) (hd : w.headDue = false)
    (hi : w.inh = w.deriveInh) :
    finishWork s w = { w with
      events := w.events ++ inhibitEvents (s.work.stage == .complete) s.work.inh w.inh } := by
  have hz : Work.settled { w with events := [] } = { w with events := [] } := Work.settled_of_settled hd hi
  simp only [finishWork, Work.startupCheck_of_complete hc, Work.settleEvents, Work.judgeHead_of_not_due hd, hz,
    List.append_nil]

/-- What neither the entry to STANDBY nor the return from it reaches. -/
theorem State.standbyCheck_blocks (s : State) :
    s.standbyCheck.work.chans = s.work.chans ∧ s.standbyCheck.work.movers = s.work.movers ∧
    s.standbyCheck.work.hyd = s.work.hyd ∧ s.standbyCheck.work.jacks = s.work.jacks ∧
    s.standbyCheck.work.bud = s.work.bud ∧ s.standbyCheck.work.lvl = s.work.lvl ∧
    s.standbyCheck.work.store = s.work.store := by
  rcases s.standbyCheck_cases with ⟨_, h⟩ | ⟨_, h⟩ | ⟨_, h⟩ <;> rw [h]
  · obtain ⟨t, e, h⟩ := s.work.enterStandby_eq
    rw [h]
    exact ⟨rfl, rfl, rfl, rfl, rfl, rfl, rfl⟩
  · exact ⟨rfl, rfl, rfl, rfl, rfl, rfl, rfl⟩
  · exact ⟨rfl, rfl, rfl, rfl, rfl, rfl, rfl⟩

theorem Work.returnOnMotion_of_not_standby {w : Work} (h : w.power ≠ .standby) (t : Travel) : w.returnOnMotion t = w := by
  simp [Work.returnOnMotion, h]

/-- The blocks such a command leaves, before the entry to STANDBY is judged. -/
theorem finishState_of_settled (s : State) {w : Work} (r : Option Frame) (hc : w.stage = .complete)
    (hd : w.headDue = false) (hi : w.inh = w.deriveInh) (hp : w.power ≠ .standby) :
    (finishState s w r).work = { w with events := [] } := by
  have hw : (finishWork s w).power ≠ .standby := by rw [finishWork_power]; exact hp
  simp only [finishState]
  rw [Work.returnOnMotion_of_not_standby hw, finishWork_of_settled s hc hd hi]

theorem finish_of_settled (s : State) {w : Work} (r : Option Frame) (hc : w.stage = .complete) (hd : w.headDue = false)
    (hi : w.inh = w.deriveInh) (hp : w.power ≠ .standby) :
    (finish s w r).work.chans = w.chans ∧ (finish s w r).work.movers = w.movers ∧ (finish s w r).work.hyd = w.hyd ∧
      (finish s w r).work.jacks = w.jacks ∧ (finish s w r).work.bud = w.bud ∧ (finish s w r).work.lvl = w.lvl ∧
      (finish s w r).work.store = w.store := by
  obtain ⟨h1, h2, h3, h4, h5, h6, h7⟩ := (finishState s w r).standbyCheck_blocks
  rw [finish_eq, h1, h2, h3, h4, h5, h6, h7, finishState_of_settled s r hc hd hi hp]
  exact ⟨rfl, rfl, rfl, rfl, rfl, rfl, rfl⟩

/-- The head is judged before anything else, so judging it beforehand changes nothing. -/
theorem finish_judgeHead (s : State) {w : Work} (r : Option Frame) (hc : w.stage = .complete) :
    finish s w r = finish s w.judgeHead r := by
  have hj : w.judgeHead.stage = .complete := (congrArg Still.stage w.judgeHead_still).trans hc
  have hw : finishWork s w = finishWork s w.judgeHead := by
    simp only [finishWork, Work.startupCheck_of_complete hc, Work.startupCheck_of_complete hj, Work.settleEvents,
      Work.judgeHead_judgeHead]
  simp only [finish_eq, finishState, finishReady, hw]

/-- Settles O4: the end of a command moves only what it settles; and the head is judged once, its owner acting on the
admission. -/
theorem commandEndFrame : Obligations.CommandEndFrame := by
  unfold Obligations.CommandEndFrame
  refine ⟨fun s w r => ⟨kept_finish s w r, finish_now s w r, congrArg Calm.pins (finish_calm s w r), ?_⟩,
    fun s w r hc => finish_judgeHead s r hc, fun w => ⟨Work.judgeHead_of_not_due, ?_, ?_⟩⟩
  · intro hd hi hc hp
    exact finish_of_settled s r hc hd hi (by simp [hp])
  · intro hq
    exact (HeadStays.of_nil hq).judgeHead
  · intro q rest hq
    refine ⟨fun hn => HeadStays.judgeHead fun n hn' => ?_, fun hd hf hn => ⟨?_, ?_, ?_⟩⟩
    · simp only [hq, List.head?_cons, Option.mem_def, Option.some.injEq] at hn'
      rw [← hn']; exact hn
    · intro m c ht hc hl
      have hadm : w.admitHead q rest =
          (admitted { w with bud := { w.bud with queue := rest } } q.target q.draw).handOver m c.source c.dir (profileOf w m) := by
        rw [Work.admitHead, ht, Work.admitTarget_mover]
        exact Work.admitMover_of_claim hc hl
      rw [Work.judgeHead_of_fits hd hq hf, hadm]
      rw [hadm]
      exact (HeadStays.admitted hn).of_eq (Work.handOver_bud ..) (Work.handOver_still ..)
    · intro a ht ha hp
      have hadm : w.admitHead q rest =
          { admitted { w with bud := { w.bud with queue := rest } } q.target q.draw with
            hyd := { w.hyd with pendingStart := true, activity := some { a with phase := .running } } } := by
        rw [Work.admitHead, ht, Work.admitTarget_hyd]
        exact Work.admitPump_of_dwell ha hp
      rw [Work.judgeHead_of_fits hd hq hf, hadm]
      rw [hadm]
      exact (HeadStays.admitted hn).of_eq rfl rfl
    · intro a ht ha hp hr
      have hadm : w.admitHead q rest = Work.atPumpStart
          { admitted { w with bud := { w.bud with queue := rest } } q.target q.draw with
            hyd := { w.hyd with pump := .running, pdir := a.dir, runStart := some w.now, runHeld := 0,
                                pendingStart := false, activity := some { a with phase := .running, start := some w.now } } }
          { a with phase := .running, start := some w.now } := by
        rw [Work.admitHead, ht, Work.admitTarget_hyd]
        exact Work.admitPump_of_off ha hp
      rw [Work.judgeHead_of_fits hd hq hf, hadm]
      rw [hadm]
      exact HeadStays.of_nil (Work.atPumpStart_queue_nil hr _)

end Sys2Proof.Machine
end

