-- ==== Sys2Proof/Proofs/ArrivalAtAwning.lean ====
section
/-! PROOF. A state in which the arrival of an inhibit ends a learning run of the awning, and the end of its motion presents the
retract that was pending, whose claim then stands. -/

namespace Sys2Proof.Machine

set_option Elab.async false

open Sys2Proof.Safety

/-- The awning in STARTING inward, with a learning run (which LEARN_STROKE gives to rooms alone) and a pending WIND retract. -/
def learningAwning : Work :=
  { stage := .complete, inh := 0,
    chans := (Vector.replicate 8 ({} : Channel)).set 0
      { role := .awning, state := .moving, bridge := .brake,
        motion := some { serial := 1, target := awn, source := .link, dir := .inward, profile := .learn } },
    movers := (Vector.replicate 5 ({} : Mover)).set 4
      { present := true, leader := some 0, run := some { dir := .inward },
        learn := some { method := .refine, leg := .outward },
        claim := some { source := .link, dir := .outward, kind := .learn }, pendRetract := some .wind } }

theorem learningAwning_wired : Wired learningAwning := by decide +kernel

/-- IGNITION, BRAKE_OFF and NOT_IN_PARK arrive, which apply to the run and not to a retract of purpose WIND. -/
theorem learningAwning_reached :
    (learningAwning.deriveInh &&& ~~~ learningAwning.inh) &&& learningAwning.claimMask awn ≠ 0 := by decide +kernel

theorem learningAwning_keeps_claim :
    ((finish { work := learningAwning } learningAwning none).work.mv awn).claim ≠ none := by decide +kernel

/-- Refutes O3: a learning run of the awning ends with the arrival, but its claim gives way to that of the pending retract, which
the end of the motion in STARTING presents. -/
theorem not_commandEndDerivesAndDelivers : ¬ Obligations.CommandEndDerivesAndDelivers := by
  unfold Obligations.CommandEndDerivesAndDelivers
  rintro ⟨-, -, h⟩
  obtain ⟨hmovers, -⟩ := h { work := learningAwning } learningAwning none rfl rfl rfl learningAwning_wired
  obtain ⟨-, -, -, hlearn⟩ := hmovers awn learningAwning_reached
  obtain ⟨-, hclaim, -⟩ := hlearn rfl
  exact learningAwning_keeps_claim hclaim

end Sys2Proof.Machine
end

