-- ==== Sys2Proof/Proofs/Answers.lean ====
section
/-! PROOF. How a request that is heard and finds a place is answered (R178, R179), the requests of the port (R182, R183), and
what becomes of a request that finds none. -/

namespace Sys2Proof.Machine

set_option Elab.async false

open Sys2Proof.Safety

/-! ## The return from STANDBY that the selection made -/

theorem Work.toActive_eq (w : Work) : w.toActive = w ∨ w.toActive = w.returnActive := by
  simp only [Work.toActive]; split <;> simp

theorem Work.toActive_of_active {w : Work} (h : w.power = .active) : w.toActive = w := by
  simp [Work.toActive, h]

@[simp] theorem Work.toActive_stage (w : Work) : w.toActive.stage = w.stage := by
  rcases w.toActive_eq with h | h <;> rw [h]; rfl
@[simp] theorem Work.toActive_mode (w : Work) : w.toActive.mode = w.mode := by
  rcases w.toActive_eq with h | h <;> rw [h]; rfl
@[simp] theorem Work.toActive_service (w : Work) : w.toActive.service = w.service := by
  rcases w.toActive_eq with h | h <;> rw [h]; rfl
@[simp] theorem Work.toActive_store (w : Work) : w.toActive.store = w.store := by
  rcases w.toActive_eq with h | h <;> rw [h]; rfl
@[simp] theorem Work.toActive_movers (w : Work) : w.toActive.movers = w.movers := by
  rcases w.toActive_eq with h | h <;> rw [h]; rfl
@[simp] theorem Work.toActive_mv (w : Work) (m : MoverId) : w.toActive.mv m = w.mv m := by
  simp only [Work.mv, Work.toActive_movers]
@[simp] theorem Work.toActive_jacks (w : Work) : w.toActive.jacks = w.jacks := by
  rcases w.toActive_eq with h | h <;> rw [h]; rfl
@[simp] theorem Work.toActive_lvl (w : Work) : w.toActive.lvl = w.lvl := by
  rcases w.toActive_eq with h | h <;> rw [h]; rfl
@[simp] theorem Work.toActive_bud (w : Work) : w.toActive.bud = w.bud := by
  rcases w.toActive_eq with h | h <;> rw [h]; rfl
@[simp] theorem Work.toActive_link (w : Work) : w.toActive.link = w.link := by
  rcases w.toActive_eq with h | h <;> rw [h]; rfl
@[simp] theorem Work.toActive_inh (w : Work) : w.toActive.inh = w.inh := by
  rcases w.toActive_eq with h | h <;> rw [h]; rfl
@[simp] theorem Work.toActive_headDue (w : Work) : w.toActive.headDue = w.headDue := by
  rcases w.toActive_eq with h | h <;> rw [h]; rfl
@[simp] theorem Work.toActive_events (w : Work) : w.toActive.events = w.events := by
  rcases w.toActive_eq with h | h <;> rw [h]; rfl
@[simp] theorem Work.toActive_sup (w : Work) : w.toActive.sup = w.sup := by
  rcases w.toActive_eq with h | h <;> rw [h]; rfl
@[simp] theorem Work.toActive_wakeCauses (w : Work) : w.toActive.wakeCauses = w.wakeCauses := by
  rcases w.toActive_eq with h | h <;> rw [h]; rfl
@[simp] theorem Work.toActive_inputs (w : Work) : w.toActive.inputs = w.inputs := by
  rcases w.toActive_eq with h | h <;> rw [h]; rfl
@[simp] theorem Work.toActive_zeroRun (w : Work) : w.toActive.tilt.zeroRun = w.tilt.zeroRun := by
  rcases w.toActive_eq with h | h <;> rw [h]; rfl
@[simp] theorem Work.toActive_activity (w : Work) : w.toActive.hyd.activity = w.hyd.activity := by
  rcases w.toActive_eq with h | h <;> rw [h]; rfl
@[simp] theorem Work.toActive_pump (w : Work) : w.toActive.hyd.pump = w.hyd.pump := by
  rcases w.toActive_eq with h | h <;> rw [h]; rfl
@[simp] theorem Work.toActive_deriveInh (w : Work) : w.toActive.deriveInh = w.deriveInh := by
  rcases w.toActive_eq with h | h <;> rw [h]
  exact w.deriveInh_returnActive

/-! ## Answers -/

theorem request_of_takes {s : State} (ht : Takes s) (k g : Byte) (h : State → Work × Reply) :
    request s k g h = answered s k g (h s.toActive).1 (h s.toActive).2 := by
  obtain ⟨ha, hp⟩ := ht
  rcases request_cases s k g h with ⟨hn, _⟩ | ⟨_, hfull, _⟩ | ⟨_, _, e⟩
  · simp [ha] at hn
  · omega
  · exact e

theorem portAct_of_takes {s : State} (ht : Takes s) (k g : Byte) (h : State → State × Reply) :
    portRequest s k g h = replied (h s.toActive).1 k g (h s.toActive).2 := by
  obtain ⟨ha, hp⟩ := ht
  rcases portRequest_cases s k g h with ⟨hn, _⟩ | ⟨_, hfull, _⟩ | ⟨_, _, e⟩
  · simp [ha] at hn
  · omega
  · exact e

/-- The reply of a request stands behind what waited, in front of its reports. -/
theorem answered_prefix (s : State) (k g : Byte) (w : Work) (r : Reply) :
    s.port.outq ++ [replyFrame k g r] <+: (answered s k g w r).port.outq := by
  simpa [answered] using finish_prefix s.toActive w (some (replyFrame k g r))

/-! ## A request that finds no place -/

/-- A request that answers is one of the blocks or one of the port. -/
theorem runRequest_forms {i : Instr} (h : (encodeRequest i).isSome = true) (hr : ∀ tag, i ≠ .restart tag) (s : State) :
    (∃ k g f, runRequest i s = .next (request s k g f)) ∨ (∃ k g f, runRequest i s = .next (portRequest s k g f)) := by
  cases i with
  | nop | ident | attention | posture | channel | room | jacks | levelStatus | wind | supply | queue | profileRead
  | attentionClear | reportEnable | reportDisable => exact .inr ⟨_, _, _, rfl⟩
  | move | stop | levelStart | levelCancel | jackMove | jacksStow | faultClear | fenceSet | fenceClear | inhibitSet
  | inhibitClear | serviceEnter | serviceLeave | learnStroke | strokeSet | tiltZeroLearn | profileWrite | profileCommit
  | sleep => exact .inl ⟨_, _, _, rfl⟩
  | restart tag => exact absurd rfl (hr tag)
  | _ => simp [encodeRequest] at h

theorem request_of_full {s : State} (ha : s.work.awake = true) (hf : 16 ≤ s.port.outq.length) (k g : Byte)
    (h : State → Work × Reply) : request s k g h = s.toActive.overrun := by
  rcases request_cases s k g h with ⟨hn, _⟩ | ⟨_, _, e⟩ | ⟨_, hfree, _⟩
  · simp [ha] at hn
  · exact e
  · omega

theorem portRequest_of_full {s : State} (ha : s.work.awake = true) (hf : 16 ≤ s.port.outq.length) (k g : Byte)
    (h : State → State × Reply) : portRequest s k g h = s.toActive.overrun := by
  rcases portRequest_cases s k g h with ⟨hn, _⟩ | ⟨_, _, e⟩ | ⟨_, hfree, _⟩
  · simp [ha] at hn
  · exact e
  · omega

theorem exec_of_full {s : State} {i : Instr} (ha : s.work.awake = true) (hf : 16 ≤ s.port.outq.length)
    (h : (encodeRequest i).isSome = true) (hr : ∀ tag, i ≠ .restart tag) : exec i s = .next s.toActive.overrun := by
  rw [StepLaw.exec_eq_runRequest h]
  rcases runRequest_forms h hr s with ⟨k, g, f, e⟩ | ⟨k, g, f, e⟩ <;> rw [e]
  · rw [request_of_full ha hf]
  · rw [portRequest_of_full ha hf]

/-! ## Masks -/

theorem and_bit_eq_zero {n : Nat} (x : BitVec n) {k : Nat} (hk : k < n) :
    x &&& BitVec.twoPow n k = 0 ↔ x.getLsbD k = false := by
  rw [BitVec.and_twoPow]
  cases h : x.getLsbD k
  · simp
  · simp only [if_true, Bool.true_eq_false, iff_false]
    intro h0
    have := congrArg (·.getLsbD k) h0
    simp [hk] at this

theorem clearAttention_eq (s : State) (mask : Half) :
    s.clearAttention mask =
      { s with port := { s.port with attn := s.port.attn &&& ~~~ (mask &&& 0x7FFF) },
               work := if mask.getLsbD 8 then { s.work with wakeCauses := 0 } else s.work } := by
  have hb : mask &&& attnWake = 0 ↔ mask.getLsbD 8 = false := and_bit_eq_zero mask (k := 8) (by decide)
  by_cases h : mask &&& attnWake = 0
  · simp only [State.clearAttention, if_pos h, hb.mp h]; rfl
  · have h1 : mask.getLsbD 8 = true := by simpa using fun h0 => h (hb.mpr h0)
    simp only [State.clearAttention, if_neg h, h1]; rfl

theorem replyChanged_of_ne (x : Half) :
    replyChanged (x != 0) = { status := if x = 0 then .done else .clamped } := by
  by_cases h : x = 0
  · simp [h, replyChanged, replyDone]
  · rw [if_neg h, bne_iff_ne.mpr h]; rfl

theorem exec_attentionClear_of_takes {s : State} (ht : Takes s) (tag : Byte) (mask : Half) :
    exec (.attentionClear tag mask) s = .next (replied
      { s.toActive with port := { s.port with attn := s.port.attn &&& ~~~ (mask &&& 0x7FFF) },
                        work := if mask.getLsbD 8 then { s.work.toActive with wakeCauses := 0 } else s.work.toActive }
      0x1E tag { status := if mask.getLsbD 15 then .clamped else .done }) := by
  have he : exec (.attentionClear tag mask) s = .next (replied (s.toActive.clearAttention mask) 0x1E tag
      (replyChanged (mask &&& 0x8000 != 0))) := congrArg Host.Outcome.next (portAct_of_takes ht 0x1E tag _)
  have hb : mask &&& 0x8000 = 0 ↔ mask.getLsbD 15 = false := and_bit_eq_zero mask (k := 15) (by decide)
  have hr : replyChanged (mask &&& 0x8000 != 0) = { status := if mask.getLsbD 15 then .clamped else .done } := by
    rw [replyChanged_of_ne]
    by_cases h : mask &&& 0x8000 = 0
    · rw [if_pos h, hb.mp h]; rfl
    · have h1 : mask.getLsbD 15 = true := by simpa using fun h0 => h (hb.mpr h0)
      rw [if_neg h, h1]; rfl
  rw [he, clearAttention_eq, hr]
  rfl

/-- Settles O20: the three requests of the port by the table of their bits, the cases of `take`, and the two forms of a request
that finds the queue full. -/
theorem masksPlacesAndReports : Obligations.MasksPlacesAndReports := by
  unfold Obligations.MasksPlacesAndReports
  refine ⟨⟨fun s tag mask ht => ⟨exec_attentionClear_of_takes ht tag mask, ?_, ?_⟩, fun p e => ⟨?_, ?_, ?_⟩⟩, ?_⟩
  · refine Eq.trans (congrArg Host.Outcome.next (portAct_of_takes ht 0x1F tag _)) ?_
    rw [replyChanged_of_ne]; rfl
  · refine Eq.trans (congrArg Host.Outcome.next (portAct_of_takes ht 0x20 tag _)) ?_
    rw [replyChanged_of_ne]; rfl
  · intro h
    simp [Port.take, h]
  · intro h hl
    exact (if_neg h).trans (if_pos hl)
  · intro h hl
    exact (if_neg h).trans (if_neg (Nat.not_le_of_lt hl))
  · intro s i ha hp hf he hr
    rw [exec_of_full ha hf he hr]
    simp [State.overrun, Work.toActive_of_active hp, State.toActive]

end Sys2Proof.Machine
end

