-- ==== Sys2Proof/Proofs/Dormant.lean ====
section
/-! PROOF. SLEEP: its refusals in their order and the entry to DORMANT (R170, R171). -/

namespace Sys2Proof.Machine

set_option Elab.async false

open Sys2Proof.Safety

/-! ## The entry to DORMANT -/

theorem Work.abortZero_eq (w : Work) :
    ∃ e, w.abortZero = { w with tilt := { w.tilt with zeroRun := none }, events := e } := by
  simp only [Work.abortZero]
  split
  · next h => exact ⟨w.events, by rw [← h]⟩
  · exact ⟨_, rfl⟩

/-- What the entry to DORMANT leaves: all but power, the figures that stop, and the end of a zero run. -/
theorem Work.enterDormant_eq (w : Work) :
    ∃ e, w.enterDormant = { w with
      power := .dormant, dormantAt := some w.now, wakePrev := none, events := e,
      tilt := { w.tilt with zeroRun := none, sumX := 0, sumY := 0, count := 0, blockAt := none },
      sup := { w.sup with window := [], lowRun := 0, highRun := 0, lowClear := 0, highClear := 0, busRun := 0,
                          tripped := false },
      wind := { w.wind with count := 0, gustRun := 0, gateEnd := none },
      speed := { w.speed with count := 0, below := 0, gateEnd := none },
      hyd := { w.hyd with bankB := false } } := by
  obtain ⟨e, h⟩ := w.abortZero_eq
  exact ⟨e, by simp only [Work.enterDormant, h]⟩

@[simp] theorem Work.enterDormant_stage (w : Work) : w.enterDormant.stage = w.stage := by
  obtain ⟨e, h⟩ := w.enterDormant_eq; rw [h]
@[simp] theorem Work.enterDormant_power (w : Work) : w.enterDormant.power = .dormant := rfl
@[simp] theorem Work.enterDormant_dormantAt (w : Work) : w.enterDormant.dormantAt = some w.now := by
  obtain ⟨e, h⟩ := w.enterDormant_eq; rw [h]
@[simp] theorem Work.enterDormant_zeroRun (w : Work) : w.enterDormant.tilt.zeroRun = none := by
  obtain ⟨e, h⟩ := w.enterDormant_eq; rw [h]
@[simp] theorem Work.enterDormant_low (w : Work) : w.enterDormant.sup.low = w.sup.low := by
  obtain ⟨e, h⟩ := w.enterDormant_eq; rw [h]
@[simp] theorem Work.enterDormant_high (w : Work) : w.enterDormant.sup.high = w.sup.high := by
  obtain ⟨e, h⟩ := w.enterDormant_eq; rw [h]
@[simp] theorem Work.enterDormant_headDue (w : Work) : w.enterDormant.headDue = w.headDue := by
  obtain ⟨e, h⟩ := w.enterDormant_eq; rw [h]
@[simp] theorem Work.enterDormant_inh (w : Work) : w.enterDormant.inh = w.inh := by
  obtain ⟨e, h⟩ := w.enterDormant_eq; rw [h]
@[simp] theorem Work.enterDormant_chans (w : Work) : w.enterDormant.chans = w.chans := by
  obtain ⟨e, h⟩ := w.enterDormant_eq; rw [h]
@[simp] theorem Work.enterDormant_jacks (w : Work) : w.enterDormant.jacks = w.jacks := by
  obtain ⟨e, h⟩ := w.enterDormant_eq; rw [h]

theorem Work.enterDormant_deriveInh (w : Work) : w.enterDormant.deriveInh = w.deriveInh := by
  obtain ⟨e, h⟩ := w.enterDormant_eq; rw [h]; rfl

/-! ## The end of a command in a part that is not ACTIVE -/

theorem State.standbyCheck_still_of_not_active {s : State} (h : s.work.power ≠ .active) :
    s.standbyCheck.work.still = s.work.still := by
  rcases s.standbyCheck_cases with ⟨hd, _⟩ | ⟨_, e⟩ | ⟨_, e⟩
  · simp [State.standbyDue, h] at hd
  · rw [e]
  · rw [e]; rfl

theorem finish_still_of_dormant (s : State) {w : Work} (r : Option Frame) (hp : w.power = .dormant)
    (hc : w.stage = .complete) : (finish s w r).work.still = w.still := by
  have hw : (finishWork s w).power = .dormant := (finishWork_power s w).trans hp
  have hs : (finishState s w r).work.still = (finishWork s w).still := by
    simp only [finishState]
    rw [Work.returnOnMotion_of_not_standby (by simp [hw])]; rfl
  have hn : (finishState s w r).work.power ≠ .active := by
    rw [show (finishState s w r).work.power = (finishWork s w).power from congrArg Still.power hs, hw]; decide
  rw [finish_eq, State.standbyCheck_still_of_not_active hn, hs, finishWork_still, Work.startupCheck_of_complete hc]

/-! ## SLEEP -/

theorem exec_sleep_of_takes {s : State} (ht : Takes s) (tag : Byte) :
    exec (.sleep tag) s = .next (answered s 0x30 tag s.toActive.doSleep.1 s.toActive.doSleep.2) :=
  congrArg Host.Outcome.next (request_of_takes ht 0x30 tag State.doSleep)

theorem exec_sleep_of_refusal {s : State} (ht : Takes s) (tag : Byte) {r : Reply} (hr : s.toActive.sleepRefusal = some r) :
    exec (.sleep tag) s = .next (answered s 0x30 tag s.toActive.work r) := by
  rw [exec_sleep_of_takes ht, State.doSleep, hr]

theorem exec_sleep_of_none {s : State} (ht : Takes s) (tag : Byte) (hr : s.toActive.sleepRefusal = none) :
    exec (.sleep tag) s = .next (answered s 0x30 tag s.work.toActive.enterDormant replyDone) := by
  rw [exec_sleep_of_takes ht, State.doSleep, hr]; rfl

@[simp] theorem Work.toActive_storeBusy (w : Work) : w.toActive.storeBusy = w.storeBusy := by
  simp only [Work.storeBusy, Work.toActive_store]

theorem State.outRdy_of_dormant {s : State} (h : s.work.power = .dormant) : s.outRdy = false := by
  simp [State.outRdy, h]

theorem State.outAlert_of_dormant {s : State} (h : s.work.power = .dormant) : s.outAlert = false := by
  simp [State.outAlert, h]

theorem awning_away {w : Work} (h : (w.mv awn).present = true → w.toActive.stowed = true) :
    ((w.mv awn).present && !w.toActive.stowed) = false := by
  cases hp : (w.mv awn).present
  · rfl
  · simp [h hp]

/-- Settles O21: the refusals by the order of the table; the DORMANT part keeps what the entry to DORMANT left, since nothing
returns it or takes it to STANDBY at the end of the command. -/
theorem sleepEntersDormant : Obligations.SleepEntersDormant := by
  unfold Obligations.SleepEntersDormant
  intro s tag ht hc
  refine ⟨fun hm => ?_, fun hm hz => ?_, fun hm hz hp hs => ?_, fun hm hz hs hb => ?_, fun hm hz hs hb => ?_⟩
  · exact exec_sleep_of_refusal ht tag (by simp [State.sleepRefusal, hc, hm, replyNotReady, ReadyDetail.code])
  · exact exec_sleep_of_refusal ht tag (by simp [State.sleepRefusal, hc, hm, hz, replyNotReady, ReadyDetail.code])
  · refine exec_sleep_of_refusal ht tag ?_
    have hs' : s.work.toActive.stowed = false := hs
    simp [State.sleepRefusal, hc, hm, hz, hp, hs', replyNotReady, ReadyDetail.code]
  · have ha := awning_away hs
    exact exec_sleep_of_refusal ht tag (by simp [State.sleepRefusal, hc, hm, hz, hb, ha, replyBusy, BusyDetail.code])
  · have ha := awning_away hs
    have hr : s.toActive.sleepRefusal = none := by simp [State.sleepRefusal, hc, hm, hz, hb, ha]
    have hstage : s.work.toActive.enterDormant.stage = .complete := by simp [hc]
    have hstill := finish_still_of_dormant s.toActive (some (replyFrame 0x30 tag replyDone))
      s.work.toActive.enterDormant_power hstage
    have hp : (answered s 0x30 tag s.work.toActive.enterDormant replyDone).work.power = .dormant :=
      congrArg Still.power hstill
    refine ⟨_, exec_sleep_of_none ht tag hr, answered_prefix .., State.outRdy_of_dormant hp, State.outAlert_of_dormant hp,
      hp, ?_, ?_, ?_, ?_, fun hi hd => ?_⟩
    · exact (congrArg Still.dormantAt hstill).trans (by simp [Work.still])
    · exact (congrArg (fun k : Still => k.tilt.zeroRun) hstill).trans (by simp [Work.still])
    · exact (congrArg (fun k : Still => k.sup.low) hstill).trans (by simp [Work.still])
    · exact (congrArg (fun k : Still => k.sup.high) hstill).trans (by simp [Work.still])
    · obtain ⟨hch, -, -, hjk, -⟩ := finish_of_settled s.toActive (some (replyFrame 0x30 tag replyDone)) hstage
        (by simpa using hd) (by rw [Work.enterDormant_deriveInh]; simpa using hi) (by simp)
      exact ⟨hch.trans (by simp), hjk.trans (by simp)⟩

end Sys2Proof.Machine
end

