-- ==== Sys2Proof/Proofs/ModesAndMembers.lean ====
section
/-! PROOF. Service mode (R184, R185), the LINK members and the owners of the inhibit set (R154..R156), and the inputs that
settle (R29, R152). -/

namespace Sys2Proof.Machine

set_option Elab.async false

open Sys2Proof.Safety

/-! ## Service mode -/

theorem exec_serviceEnter_of_takes {s : State} (ht : Takes s) (tag : Byte) :
    exec (.serviceEnter tag) s = .next (answered s 0x28 tag (doServiceEnter s.work.toActive s.ready.travel).1
      (doServiceEnter s.work.toActive s.ready.travel).2) :=
  congrArg Host.Outcome.next (request_of_takes ht 0x28 tag _)

theorem exec_serviceLeave_of_takes {s : State} (ht : Takes s) (tag : Byte) :
    exec (.serviceLeave tag) s = .next (answered s 0x29 tag s.work.toActive.doServiceLeave.1
      s.work.toActive.doServiceLeave.2) :=
  congrArg Host.Outcome.next (request_of_takes ht 0x29 tag _)

/-- The learning run of a room ends with the service mode. -/
def Work.stopRun (w : Work) (r : MoverId) : Work := if (w.mv r).learn.isSome then w.haltMover r .stopped else w

theorem Work.stopRun_still (w : Work) (r : MoverId) : (w.stopRun r).still = w.still := by
  simp only [Work.stopRun]; split <;> simp

theorem Work.endService_eq (w : Work) :
    w.endService = { (allRooms.foldl Work.stopRun w).abortZero with mode := .normal, service := false } := rfl

theorem Work.stopRuns_zeroRun (w : Work) : (allRooms.foldl Work.stopRun w).tilt.zeroRun = w.tilt.zeroRun :=
  congrArg (fun k : Still => k.tilt.zeroRun) (foldl_still allRooms _ Work.stopRun_still w)

theorem Work.stopRuns_of_none {w : Work} (h : ∀ r ∈ allRooms, (w.mv r).learn = none) :
    allRooms.foldl Work.stopRun w = w := by
  have hstay : ∀ r ∈ allRooms, w.stopRun r = w := fun r hr => by simp [Work.stopRun, h r hr]
  simp only [allRooms, List.foldl_cons, List.foldl_nil]
  rw [hstay 0 (by decide), hstay 1 (by decide), hstay 2 (by decide), hstay 3 (by decide)]

theorem Work.abortZero_of_none {w : Work} (h : w.tilt.zeroRun = none) : w.abortZero = w := by
  simp [Work.abortZero, h]

theorem Work.abortZero_of_some {w : Work} {r : ZeroRun} (h : w.tilt.zeroRun = some r) :
    w.abortZero = ({ w with tilt := { w.tilt with zeroRun := none } } : Work).emit (.learnTilt .aborted none none) := by
  simp [Work.abortZero, h]

theorem Work.doServiceLeave_of_service {w : Work} (h : w.mode = .service) :
    w.doServiceLeave = (w.endService, replyDone) := by simp [Work.doServiceLeave, h]

theorem exec_serviceLeave_of_runs {s : State} (ht : Takes s) (hm : s.work.toActive.mode = .service) (tag : Byte) (z : Work)
    (hz : (allRooms.foldl Work.stopRun s.work.toActive).abortZero = z) :
    exec (.serviceLeave tag) s =
      .next (answered s 0x29 tag { z with mode := .normal, service := false } { status := .done }) := by
  subst hz
  rw [exec_serviceLeave_of_takes ht, Work.doServiceLeave_of_service hm, Work.endService_eq]
  rfl

/-- Settles O24: the answers by the mode; the run of each room ends in turn, then the zero run. -/
theorem serviceModeFollowsRequests : Obligations.ServiceModeFollowsRequests := by
  unfold Obligations.ServiceModeFollowsRequests
  intro s tag ht
  have henter := exec_serviceEnter_of_takes ht tag
  have hleave := exec_serviceLeave_of_takes ht tag
  refine ⟨fun hm => ?_, fun hm => ⟨?_, ?_⟩, fun hm hc hv => ?_, fun hm hc hv => ?_, fun hm => ?_, fun hm => ?_⟩
  · rw [henter]; simp [doServiceEnter, hm, replyDone]
  · rw [henter]; simp [doServiceEnter, hm, replyDone]
  · rw [hleave]; simp [Work.doServiceLeave, hm, replyDone]
  · rw [henter]; simp [doServiceEnter, hm, Work.settlingStage, hc, hv, replyDone]
  · rw [henter]
    cases h : (s.work.hyd.activity.isSome || s.work.lvl.phase != .idle) <;>
      simp_all [doServiceEnter, Work.settlingStage, replyBusy, Work.motionDetail, BusyDetail.code]
  · rw [hleave]; simp [Work.doServiceLeave, hm, replyDone]
  · have hruns := exec_serviceLeave_of_runs ht (by simpa using hm) tag
    have hzero := s.work.toActive.stopRuns_zeroRun
    rw [Work.toActive_zeroRun] at hzero
    intro leaves stop v
    have hv : allRooms.foldl Work.stopRun s.work.toActive = v := rfl
    refine ⟨fun hr hz => hruns s.toActive.work ?_, fun hz => hruns v ?_, fun r hz => hruns _ ?_⟩
    · rw [Work.abortZero_of_none (hzero.trans hz)]
      exact Work.stopRuns_of_none (by simpa using hr)
    all_goals rw [hv] at hzero ⊢
    · exact Work.abortZero_of_none (hzero.trans hz)
    · exact Work.abortZero_of_some (hzero.trans hz)

/-! ## The members of the inhibit set -/

/-- A set of ids from its members' conditions, the first of them number `n`. -/
theorem bits16_from (l : List Bool) (n : Nat) (b : BitVec 16) {k : Nat} (hk : k < 16) :
    ((l.zipIdx n).foldl (fun b x => if x.1 then b ||| (1 <<< x.2) else b) b).getLsbD k =
      (b.getLsbD k || (decide (n ≤ k) && l.getD (k - n) false)) := by
  induction l generalizing n b with
  | nil => simp
  | cons a l ih =>
    rw [List.zipIdx_cons, List.foldl_cons, ih]
    have hbit : ((if a then b ||| (1 <<< n) else b) : BitVec 16).getLsbD k = (b.getLsbD k || (a && decide (n = k))) := by
      cases a
      · simp
      · have : (1#16).getLsbD (k - n) = decide (k - n = 0) := by
          rw [BitVec.getLsbD_one]; simp
        simp only [if_true, BitVec.getLsbD_or, Bool.true_and]
        rw [show (1 <<< n : BitVec 16) = 1#16 <<< n from rfl, BitVec.getLsbD_shiftLeft, this]
        by_cases h : n = k <;> simp [hk, h]
        omega
    rw [hbit]
    rcases Nat.lt_trichotomy n k with h | h | h
    · have : k - n = (k - (n + 1)) + 1 := by omega
      simp [this, Nat.le_of_lt h, Nat.succ_le_of_lt h, Nat.ne_of_lt h]
    · subst h; simp
    · simp [Nat.not_le_of_lt h, Nat.not_le_of_lt (Nat.lt_succ_of_lt h), Nat.ne_of_gt h]

theorem bits16_getLsbD (l : List Bool) {k : Nat} (hk : k < 16) : (bits16 l).getLsbD k = l.getD k false := by
  refine (bits16_from l 0 0 hk).trans ?_
  simp

theorem deriveInh_getLsbD (w : Work) {k : Nat} (hk : k < 16) : w.deriveInh.getLsbD k =
    [ !w.inputs.ign.settled || w.inputs.ign.level, !(w.inputs.pbrk.settled && w.inputs.pbrk.level),
      !(w.inputs.park.settled && w.inputs.park.level), w.speed.moving, w.sup.low, w.sup.high, w.wind.lockout.isSome,
      !w.roomsIn, w.coach 0x0141 == 1 && !w.stabilized,
      w.coach 0x0142 == 1 && !(w.inputs.eng.settled && w.inputs.eng.level), false, false, w.link.getLsbD 0,
      w.link.getLsbD 1, w.link.getLsbD 2, w.link.getLsbD 3 ].getD k false := bits16_getLsbD _ hk

/-- A LINK member is a bit of the LINK register. -/
theorem deriveInh_link (w : Work) {k : Nat} (hk : k < 4) : w.deriveInh.getLsbD (12 + k) = w.link.getLsbD k := by
  rw [deriveInh_getLsbD w (by omega)]
  match k, hk with
  | 0, _ => rfl
  | 1, _ => rfl
  | 2, _ => rfl
  | 3, _ => rfl

theorem Work.roomsIn_eq_false (w : Work) :
    w.roomsIn = false ↔ ∃ r ∈ allRooms, (w.mv r).present = true ∧ w.isIn r = false := by
  simp [Work.roomsIn]

theorem linkBits_getLsbD (mask : Half) {k : Nat} (hk : k < 4) : (linkBits mask).getLsbD k = mask.getLsbD (12 + k) := by
  simp [linkBits, hk]

theorem exec_inhibitSet_of_takes {s : State} (ht : Takes s) (tag : Byte) (mask : Half) :
    exec (.inhibitSet tag mask) s = .next (answered s 0x1C tag
      { s.work.toActive with link := s.work.toActive.link ||| linkBits mask } (replyChanged (linkClamped mask))) :=
  congrArg Host.Outcome.next (request_of_takes ht 0x1C tag _)

theorem exec_inhibitClear_of_takes {s : State} (ht : Takes s) (tag : Byte) (mask : Half) :
    exec (.inhibitClear tag mask) s = .next (answered s 0x1D tag
      { s.work.toActive with link := s.work.toActive.link &&& ~~~ linkBits mask } (replyChanged (linkClamped mask))) :=
  congrArg Host.Outcome.next (request_of_takes ht 0x1D tag _)

/-- The LINK register and its members after an answered request. -/
theorem answered_link (s : State) (k tag : Byte) (w : Work) (r : Reply) :
    (answered s k tag w r).work.link = w.link ∧
      ∀ k' < 4, (answered s k tag w r).work.inh.getLsbD (12 + k') = w.link.getLsbD k' := by
  have hl : (answered s k tag w r).work.link = w.link := congrArg Calm.link (finish_calm s.toActive w _)
  have hi : (answered s k tag w r).work.inh = (answered s k tag w r).work.deriveInh := finish_inh s.toActive w _
  refine ⟨hl, fun k' hk => ?_⟩
  rw [hi, deriveInh_link _ hk, hl]

/-- Settles O25: the two requests write the LINK register alone, and each member is its owner's condition. -/
theorem inhibitsFollowOwnersAndMasks : Obligations.InhibitsFollowOwnersAndMasks := by
  unfold Obligations.InhibitsFollowOwnersAndMasks
  refine ⟨fun s tag mask ht => ?_, fun w => ?_⟩
  · have hr : replyChanged (linkClamped mask) = { status := if mask &&& 0x0FFF = 0 then .done else .clamped } :=
      replyChanged_of_ne _
    have hset := exec_inhibitSet_of_takes ht tag mask
    have hclear := exec_inhibitClear_of_takes ht tag mask
    rw [hr] at hset hclear
    constructor
    · obtain ⟨hl, hm⟩ := answered_link s 0x1C tag { s.work.toActive with link := s.work.toActive.link ||| linkBits mask }
        { status := if mask &&& 0x0FFF = 0 then .done else .clamped }
      refine ⟨_, hset, hl.trans (by simp [linkBits]), answered_prefix .., fun k hk => (hm k hk).trans ?_⟩
      simp [linkBits_getLsbD mask hk]
    · obtain ⟨hl, hm⟩ := answered_link s 0x1D tag { s.work.toActive with link := s.work.toActive.link &&& ~~~ linkBits mask }
        { status := if mask &&& 0x0FFF = 0 then .done else .clamped }
      refine ⟨_, hclear, hl.trans (by simp [linkBits]), answered_prefix .., fun k hk => (hm k hk).trans ?_⟩
      have hb := linkBits_getLsbD mask hk
      rw [BitVec.getLsbD_and, BitVec.getLsbD_not, hb]
      simp [hk]
  · refine ⟨?_, ?_, ?_, ?_, ?_, ?_, ?_, ?_, ?_, ?_, ?_, ?_, fun k hk => deriveInh_link w hk⟩
    all_goals rw [deriveInh_getLsbD w (by omega)]
    · simp
    · simp
    · simp
    · rfl
    · rfl
    · rfl
    · rfl
    · rw [← Work.roomsIn_eq_false]; simp
    · simp
    · simp
    · rfl
    · rfl

/-! ## Inputs that settle -/

theorem event_of_awake {s : State} (h : s.work.awake = true) (f : Work → Work) : event s f = finish s (f s.work) none := by
  simp [event, h]

theorem CoachInputs.get_put_self (x : CoachInputs) (i : CoachInput) (l : CoachLevel) : (x.put i l).get i = l := by
  cases i <;> rfl

theorem CoachInputs.get_put_ne (x : CoachInputs) {i k : CoachInput} (h : k ≠ i) (l : CoachLevel) :
    (x.put i l).get k = x.get k := by
  cases i <;> cases k <;> simp_all [CoachInputs.put, CoachInputs.get]

@[simp] theorem Work.handToPower_inputs (w : Work) (i : CoachInput) (b : Bool) : (w.handToPower i b).inputs = w.inputs := by
  simp only [Work.handToPower]
  split <;> simp

theorem Work.inputSettled_of_first {w : Work} {i : CoachInput} (h : (w.inputs.get i).settled = false) (b : Bool) :
    (w.inputSettled i b).inputs = w.inputs.put i { settled := true, level := b, cand := b, count := 0 } ∧
      (w.inputSettled i b).now = max w.now (w.loadAt + Config.ms 50) := by
  simp only [Work.inputSettled, h]
  split
  · next h => cases h
  · split
    · exact ⟨rfl, rfl⟩
    · rw [Work.handToPower_inputs, Work.handToPower_now]; exact ⟨rfl, rfl⟩

/-- Settles O14: the first settling of a switch is the work that the statement writes out; that of a coach input puts the level
found, at 50 ms after the load or later. -/
theorem inputsSettle : Obligations.InputsSettle := by
  unfold Obligations.InputsSettle
  refine fun s ha => ⟨fun m d b h => ?_, fun i b h => ?_⟩
  · have hw : s.work.settleSwitch m d b =
        ((s.work.notBefore (s.work.loadAt + 20000)).showSwitch m d b).setMv m ((s.work.mv m).setSwitch d
          { settled := true, pressed := b, spent := b, cand := b, count := 0 }) := by
      simp only [Work.settleSwitch, h]; rfl
    rw [← hw]
    exact congrArg Host.Outcome.next (event_of_awake ha fun w => w.settleSwitch m d b)
  · obtain ⟨hin, hnow⟩ := Work.inputSettled_of_first h b
    have hcalm := finish_calm s (s.work.inputSettled i b) none
    have hin' : (finish s (s.work.inputSettled i b) none).work.inputs = _ := (congrArg Calm.inputs hcalm).trans hin
    refine ⟨_, congrArg Host.Outcome.next (event_of_awake ha _), ?_, ?_, ?_, fun k hk => ?_, finish_inh ..⟩
    · rw [hin', CoachInputs.get_put_self]
    · rw [hin', CoachInputs.get_put_self]
    · rw [finish_now, hnow]; exact Nat.le_max_right _ _
    · rw [hin', CoachInputs.get_put_ne _ hk]

end Sys2Proof.Machine
end

