-- ==== Sys2Proof/Proofs/ProfileWrite.lean ====
section
/-! PROOF. PROFILE_WRITE: its refusals, what it writes, and the canonical form of a profile (R187, R188). -/

namespace Sys2Proof.Machine

set_option Elab.async false

open Sys2Proof.Safety

/-! ## The canonical form -/

/-- Ids strictly rise. -/
def Rising (p : List (Nat × Int)) : Prop := List.Pairwise (· < ·) (p.map (·.1))

/-- No entry stands at its default. -/
def NoDefault (p : List (Nat × Int)) : Prop := ∀ x ∈ p, x.2 ≠ dfltOf x.1

theorem wf_iff (p : Profile) : Profile.wf p = true ↔ NoDefault p ∧ Rising p := by
  simp [Profile.wf, NoDefault, Rising]

theorem mem_insertField {id : Nat} {v : Int} {p : List (Nat × Int)} {x : Nat × Int} (h : x ∈ insertField id v p) :
    x = (id, v) ∨ x ∈ p := by
  induction p with
  | nil => exact .inl (by simpa [insertField] using h)
  | cons a p ih =>
    simp only [insertField] at h
    split at h
    · simpa using h
    · split at h
      · rcases List.mem_cons.mp h with h | h
        · exact .inl h
        · exact .inr (List.mem_cons_of_mem _ h)
      · rcases List.mem_cons.mp h with h | h
        · exact .inr (by simp [h])
        · exact (ih h).imp_right fun h => List.mem_cons_of_mem _ h

theorem rising_insertField (id : Nat) (v : Int) {p : List (Nat × Int)} (h : Rising p) : Rising (insertField id v p) := by
  induction p with
  | nil => simp [insertField, Rising]
  | cons a p ih =>
    obtain ⟨ha, hp⟩ : (∀ x ∈ p, a.1 < x.1) ∧ Rising p := by simpa [Rising] using h
    simp only [insertField]
    split
    · next hlt =>
      simp only [Rising, List.map_cons, List.pairwise_cons, List.mem_cons, List.mem_map]
      refine ⟨?_, by simpa [Rising] using h⟩
      rintro _ (rfl | ⟨x, hx, rfl⟩)
      · exact hlt
      · exact Nat.lt_trans hlt (ha x hx)
    · split
      · next heq => simpa [Rising, heq] using h
      · next hge hne =>
        simp only [Rising, List.map_cons, List.pairwise_cons, List.mem_map]
        refine ⟨?_, ih hp⟩
        rintro _ ⟨x, hx, rfl⟩
        rcases mem_insertField hx with rfl | hx
        · exact Nat.lt_of_le_of_ne (Nat.le_of_not_lt hge) (Ne.symm hne)
        · exact ha x hx

theorem Profile.wf_set {p : Profile} (h : Profile.wf p = true) (id : Nat) (v : Int) : Profile.wf (p.set id v) = true := by
  rw [wf_iff] at h ⊢
  obtain ⟨hd, hr⟩ := h
  rw [Profile.set]
  split
  · refine ⟨fun x hx => hd x (List.mem_filter.mp hx).1, ?_⟩
    exact hr.sublist ((List.filter_sublist).map _)
  · next hv =>
    refine ⟨fun x hx => ?_, rising_insertField id v hr⟩
    rcases mem_insertField hx with rfl | hx
    · exact hv
    · exact hd x hx

/-! ## The pairs of a write -/

/-- What a pair writes, and whether it was changed. -/
def acceptedPair (x : Half × Half) : Int × Bool := (acceptValue x.1.toNat x.2.toInt).getD (0, false)

theorem foldl_writePair (ps : List (Half × Half)) (h : ∀ x ∈ ps, (acceptValue x.1.toNat x.2.toInt).isSome = true)
    (r : Profile × Bool) : ps.foldl writePair r =
      (ps.foldl (fun p x => p.set x.1.toNat (acceptedPair x).1) r.1, r.2 || ps.any fun x => (acceptedPair x).2) := by
  induction ps generalizing r with
  | nil => simp
  | cons a ps ih =>
    obtain ⟨v, hv⟩ := Option.isSome_iff_exists.mp (h a (by simp))
    have hw : writePair r a = (r.1.set a.1.toNat (acceptedPair a).1, r.2 || (acceptedPair a).2) := by
      simp [writePair, acceptedPair, hv]
    rw [List.foldl_cons, hw, ih fun x hx => h x (by simp [hx])]
    simp [Bool.or_assoc]

/-! ## What a write leaves alone -/

theorem kept_headDue (w : Work) (b : Bool) : kept { w with headDue := b } = kept w := rfl

theorem kept_judgedRacks (w : Work) : kept (allRooms.foldl Work.judgeRack w.clampAll) = kept w := by
  refine kept_of_still ?_
  rw [foldl_still _ _ fun w m => w.judgeRack_still m, Work.clampAll, foldl_still _ _ fun w c => w.clampPos_still c]

theorem kept_afterWrite (w : Work) : kept w.afterWrite = kept w := by
  obtain ⟨z, rfl, h | h⟩ := w.afterWrite_cases <;> rw [h]
  · rw [kept_headDue, kept_judgedRacks]
  · rw [kept_overrunStop, kept_headDue, kept_judgedRacks]

/-! ## The answer -/

theorem exec_profileWrite_of_takes {s : State} (ht : Takes s) (tag : Byte) (ps : List (Half × Half)) :
    exec (.profileWrite tag ps) s = .next (answered s 0x2D tag (s.work.toActive.doWrite ps).1
      (s.work.toActive.doWrite ps).2) :=
  congrArg Host.Outcome.next (request_of_takes ht 0x2D tag _)

theorem Work.mayWrite_iff (w : Work) :
    w.mayWrite = true ↔ w.mode = .service ∨ (w.mode = .unconfigured ∧ w.service = true) := by
  simp [Work.mayWrite]

theorem Work.toActive_mayWrite (w : Work) : w.toActive.mayWrite = w.mayWrite := by simp [Work.mayWrite]

@[simp] theorem Work.toActive_commitInFlight (w : Work) : w.toActive.commitInFlight = w.commitInFlight := by
  simp [Work.commitInFlight]

theorem onlyPump_code (ts : List (Fin 6)) : (onlyPump ts).code = if ts.all (· == 5) then 2 else 3 := by
  have h : ∀ b : Bool, (if b then .hydraulic else .roomMoving : BusyDetail).code = if b then 2 else 3 := by decide
  exact h _

theorem pairsOk_eq_true {ps : List (Half × Half)} :
    pairsOk ps = true ↔ ∀ x ∈ ps, (acceptValue x.1.toNat x.2.toInt).isSome = true := by simp [pairsOk]

theorem Work.doWrite_refused {w : Work} (h : w.mayWrite = false) (ps : List (Half × Half)) :
    w.doWrite ps = (w, replyBadMode) := by simp [Work.doWrite, h]

theorem Work.doWrite_inFlight {w : Work} (h : w.mayWrite = true) (hc : w.commitInFlight = true)
    (ps : List (Half × Half)) : w.doWrite ps = (w, replyBusy .store) := by simp [Work.doWrite, h, hc]

theorem Work.doWrite_badPair {w : Work} (h : w.mayWrite = true) (hc : w.commitInFlight = false)
    {ps : List (Half × Half)} (hp : pairsOk ps = false) : w.doWrite ps = (w, replyBadArgument) := by
  simp [Work.doWrite, h, hc, hp]

theorem Work.doWrite_admitted {w : Work} (h : w.mayWrite = true) (hc : w.commitInFlight = false)
    {ps : List (Half × Half)} (hp : pairsOk ps = true) (hs : (ps.any fun x => isSupplyId x.1) = true)
    (ha : w.bud.admitted ≠ []) :
    w.doWrite ps = (w, replyBusy (onlyPump (w.bud.admitted.map (·.target)))) := by
  have ha' : w.bud.admitted.isEmpty = false := by simpa using ha
  simp only [Work.doWrite, h, hc, hp, hs, ha']
  rfl

theorem Work.doWrite_taken {w : Work} (h : w.mayWrite = true) (hc : w.commitInFlight = false)
    {ps : List (Half × Half)} (hp : pairsOk ps = true)
    (ha : ((ps.any fun x => isSupplyId x.1) && !w.bud.admitted.isEmpty) = false) :
    w.doWrite ps = (Work.afterWrite { w with store := { w.store with
      working := (ps.foldl writePair (w.store.working, false)).1 } },
      replyChanged (ps.foldl writePair (w.store.working, false)).2) := by
  simp only [Work.doWrite, h, hc, hp, ha]
  rfl

theorem replyChanged_eq (b : Bool) : replyChanged b = { status := if b then .clamped else .done } := by
  cases b <;> rfl

/-- Settles O26: the refusals line by line; a write taken writes the accepted values in order and nothing else of the store. -/
theorem profileWritesAsAWhole : Obligations.ProfileWritesAsAWhole := by
  unfold Obligations.ProfileWritesAsAWhole
  refine ⟨fun s tag ps ht => ?_, fun p i j v hp => ⟨?_, fun hij => ?_, Profile.wf_set hp i v⟩⟩
  · have hexec := exec_profileWrite_of_takes ht tag ps
    have hmay : s.work.mode = .service ∨ (s.work.mode = .unconfigured ∧ s.work.service = true) →
        s.work.toActive.mayWrite = true := fun h => by rw [Work.toActive_mayWrite]; exact s.work.mayWrite_iff.mpr h
    have hflight := s.work.toActive_commitInFlight
    refine ⟨fun hm => ?_, fun hm hc => ?_, fun hm hc ⟨x, hx, hbad⟩ => ?_, fun hm hc hg ⟨x, hx, hid⟩ ha => ?_,
      fun hm hc hg ha => ?_⟩
    · have hno : s.work.toActive.mayWrite = false := by
        rw [Work.toActive_mayWrite]; simpa using fun h => hm (s.work.mayWrite_iff.mp h)
      rw [hexec, Work.doWrite_refused hno]; rfl
    · rw [hexec, Work.doWrite_inFlight (hmay hm) (hflight.trans hc)]; rfl
    · have hp : pairsOk ps = false := by
        simpa using fun h => hbad (pairsOk_eq_true.mp h x hx)
      rw [hexec, Work.doWrite_badPair (hmay hm) (hflight.trans hc) hp]; rfl
    · have hs : (ps.any fun x => isSupplyId x.1) = true := List.any_eq_true.mpr ⟨x, hx, by simpa [isSupplyId] using hid⟩
      rw [hexec, Work.doWrite_admitted (hmay hm) (hflight.trans hc) (pairsOk_eq_true.mpr hg) hs (by simpa using ha)]
      simp only [replyBusy, onlyPump_code, Work.toActive_bud, List.all_map]
      rfl
    · have hs : ((ps.any fun x => isSupplyId x.1) && !s.work.toActive.bud.admitted.isEmpty) = false := by
        rcases ha with ha | ha
        · have : (ps.any fun x => isSupplyId x.1) = false := by
            rw [List.any_eq_false]
            intro x hx
            have := ha x hx
            simp only [isSupplyId, Bool.and_eq_true, decide_eq_true_eq]
            omega
          simp [this]
        · simp [ha]
      have hk (z : Work) (r : Reply) : kept (answered s 0x2D tag z.afterWrite r).work = kept z :=
        (kept_finish s.toActive z.afterWrite _).trans (kept_afterWrite z)
      rw [Work.doWrite_taken (hmay hm) (hflight.trans hc) (pairsOk_eq_true.mpr hg) hs, foldl_writePair ps hg,
        replyChanged_eq] at hexec
      refine ⟨_, hexec, (congrArg Kept.working (hk _ _)).trans ?_, (congrArg Kept.coach (hk _ _)).trans ?_,
        (congrArg Kept.sections (hk _ _)).trans ?_, answered_prefix ..⟩
      · simp [kept, acceptedPair]
      · simp [kept]
      · simp [kept]
  · rw [Profile.get_set, if_pos rfl]
  · rw [Profile.get_set, if_neg hij]

end Sys2Proof.Machine
end

