-- ==== Sys2Proof/Proofs/Delivery.lean ====
section
/-! PROOF. An event that a command has raised reaches the port and sets the bit of its class, whatever else the end of the
command does: no operation takes an event back (R181, R182; log 10). -/

namespace Sys2Proof.Machine

set_option Elab.async false

open Sys2Proof.Safety

/-! ## The events of a command only grow -/

/-- What was raised before stands in front of what was raised since. -/
def Grew (w z : Work) : Prop := w.events <+: z.events

namespace Grew

theorem refl (w : Work) : Grew w w := List.prefix_refl _
theorem trans {w x z : Work} (h : Grew w x) (h' : Grew x z) : Grew w z := List.IsPrefix.trans h h'
theorem of_eq {w z : Work} (h : z.events = w.events) : Grew w z := by rw [Grew, h]
theorem emit (w : Work) (e : Event) : Grew w (w.emit e) := List.prefix_append _ _
theorem mem {w z : Work} (h : Grew w z) {e : Event} (he : e ∈ w.events) : e ∈ z.events := h.subset he

theorem ite {w x z : Work} {b : Prop} [Decidable b] (hx : Grew w x) (hz : Grew w z) : Grew w (if b then x else z) := by
  split
  · exact hx
  · exact hz

theorem foldl {α : Type} (l : List α) {f : Work → α → Work} (h : ∀ w x, Grew w (f w x)) (w : Work) :
    Grew w (l.foldl f w) := by
  induction l generalizing w with
  | nil => exact refl w
  | cons a l ih => exact (h w a).trans (ih _)

end Grew

theorem foldl_events {α : Type} (l : List α) {f : Work → α → Work} (h : ∀ w x, (f w x).events = w.events) (w : Work) :
    (l.foldl f w).events = w.events := by
  induction l generalizing w with
  | nil => rfl
  | cons a l ih => rw [List.foldl_cons, ih, h]

@[simp] theorem Work.serveNext_events (w : Work) : w.serveNext.events = w.events := by
  simp only [Work.serveNext]; split <;> rfl

@[simp] theorem Work.askCheckpoint_events (w : Work) (c : ChanId) (b : Bool) : (w.askCheckpoint c b).events = w.events :=
  Work.serveNext_events _

@[simp] theorem Work.handOver_events (w : Work) (m : MoverId) (s : Source) (d : Dir) (p : MotionProfile) :
    (w.handOver m s d p).events = w.events := by
  simp only [Work.handOver]
  rw [foldl_events _ fun w c => by simp]; rfl

@[simp] theorem Work.clampMover_events (w : Work) (m : MoverId) : (w.clampMover m).events = w.events := by
  simp only [Work.clampMover]; exact foldl_events (f := Work.clampPos) _ (fun _ _ => rfl) w

@[simp] theorem Work.forgetPosition_events (w : Work) (m : MoverId) : (w.forgetPosition m).events = w.events := by
  simp only [Work.forgetPosition]; exact foldl_events _ (fun w c => by simp) w

@[simp] theorem Work.beginLearn_events (w : Work) (m : MoverId) (l : LearnRun) : (w.beginLearn m l).events = w.events := by
  simp only [Work.beginLearn]; split <;> simp

@[simp] theorem Work.admitMover_events (w : Work) (m : MoverId) : (w.admitMover m).events = w.events := by
  simp only [Work.admitMover]; split <;> [rfl; (split <;> simp)]

@[simp] theorem Work.pumpStop_events (w : Work) (b : Bool) : (w.pumpStop b).events = w.events := by
  simp only [Work.pumpStop]
  split
  · split <;> rfl
  · split <;> rfl
  · rfl

@[simp] theorem Work.setOpen_events (w : Work) (s : JackSet) : (w.setOpen s).events = w.events := rfl
@[simp] theorem Work.setActPhase_events (w : Work) (p : ActPhase) : (w.setActPhase p).events = w.events := rfl
@[simp] theorem Work.setJacks_events (w : Work) (s t : JackSet) : (w.setJacks s t).events = w.events := rfl

theorem Work.endActivity_grew (w : Work) (o : EndOutcome) (b : Bool) : Grew w (w.endActivity o b) := by
  have hq : Grew w (if (w.pumpStop b).isQueued hydTarget then (w.pumpStop b).dequeue hydTarget else w.pumpStop b) :=
    Grew.ite (.of_eq (w.pumpStop_events b)) (.of_eq (w.pumpStop_events b))
  simp only [Work.endActivity]
  split
  · exact .refl w
  · split
    · exact hq
    · exact hq.trans (Grew.emit _ _)

theorem Work.enterPhase_grew (w : Work) (l : Level) : Grew w (w.enterPhase l) := Grew.emit (w.setLvl l) _

theorem Work.enterSettling_grew (w : Work) : Grew w w.enterSettling := by
  have h : Grew w (((w.pumpStop false).setOpen noJacks).setActPhase .idlePump) := .of_eq (by simp)
  exact h.trans (Work.enterPhase_grew _ _)

theorem Work.enterLevelling_grew (w : Work) (n : Nat) : Grew w (w.enterLevelling n) := Work.enterPhase_grew w _

theorem Work.checkGrounded_grew (w : Work) : Grew w w.checkGrounded := by
  simp only [Work.checkGrounded]
  split
  · split
    · exact w.enterSettling_grew
    · exact w.enterLevelling_grew 1
    · exact w.enterSettling_grew
    · exact .refl w
  · exact .refl w

theorem Work.followGround_grew (w : Work) : Grew w w.followGround := by
  simp only [Work.followGround]
  split
  · exact (Grew.of_eq (w.setOpen_events _)).trans (Work.checkGrounded_grew _)
  · exact .refl w

theorem Work.enterTouchdown_grew (w : Work) : Grew w w.enterTouchdown :=
  (w.enterPhase_grew _).trans (Work.followGround_grew _)

theorem Work.jacksMove_grew (w : Work) : Grew w w.jacksMove := Grew.ite (Grew.emit (w.setLvl _) _) (.refl w)

theorem Work.checkWork_grew (w : Work) : Grew w w.checkWork := by
  simp only [Work.checkWork]
  split
  · exact .refl w
  · split
    · exact .refl w
    · exact .ite (w.endActivity_grew _ _) (.refl w)
    · exact .ite (w.endActivity_grew _ _) (.refl w)

theorem Work.atPumpStart_grew (w : Work) (a : HydActivity) : Grew w (w.atPumpStart a) := by
  simp only [Work.atPumpStart]
  split
  · exact .ite w.enterTouchdown_grew (w.enterLevelling_grew _)
  · exact w.jacksMove_grew.trans ((Grew.of_eq (Work.setJacks_events ..)).trans (Work.checkWork_grew _))
  · exact w.jacksMove_grew.trans ((Grew.of_eq (Work.setJacks_events ..)).trans (Work.checkWork_grew _))

theorem Work.pumpRun_grew (w : Work) : Grew w w.pumpRun := by
  simp only [Work.pumpRun]
  split
  · exact .of_eq rfl
  · refine Grew.trans ?_ (Work.atPumpStart_grew _ _)
    exact .of_eq rfl

theorem Work.admitPump_grew (w : Work) : Grew w w.admitPump := by
  simp only [Work.admitPump]
  split
  · exact Work.pumpRun_grew (w.setActPhase .running)
  · exact .of_eq rfl

theorem Work.admitTarget_grew (w : Work) (t : Fin 6) : Grew w (w.admitTarget t) := by
  simp only [Work.admitTarget]
  split
  · exact .of_eq (Work.admitMover_events ..)
  · exact w.admitPump_grew

theorem Work.admitHeads_grew (n : Nat) (w : Work) : Grew w (w.admitHeads n) := by
  induction n generalizing w with
  | zero => exact .refl w
  | succ n ih =>
    simp only [Work.admitHeads]
    split
    · exact .refl w
    · refine .ite (Grew.trans ?_ (ih _)) (.refl w)
      refine Grew.trans ?_ (Work.admitTarget_grew _ _)
      exact .of_eq rfl

theorem Work.judgeHead_grew (w : Work) : Grew w w.judgeHead := by
  cases h : w.headDue
  · rw [Work.judgeHead_of_not_due h]; exact .refl w
  · rw [Work.judgeHead_of_due h]; exact w.admitHeads_grew 16

theorem Work.startupCheck_events (w : Work) : w.startupCheck.events = w.events := by
  simp only [Work.startupCheck]; split <;> rfl

theorem finishWork_grew (s : State) (w : Work) : Grew w (finishWork s w) := by
  have h : Grew w w.startupCheck.judgeHead := (Grew.of_eq w.startupCheck_events).trans (Work.judgeHead_grew _)
  refine h.trans ?_
  simp only [finishWork, Work.settleEvents, Grew, List.append_assoc]
  exact List.prefix_append _ _

/-! ## The attention bits -/

theorem Port.take_attn_of (p : Port) (e : Event) {k : Nat} (h : p.attn.getLsbD k = true ∨ e.bit.getLsbD k = true) :
    (p.take e).attn.getLsbD k = true := by
  rcases p.take_attn e with ht | ht <;> rw [ht] <;> rcases h with h | h <;> simp [h]

theorem Port.takeAll_attn_of {p : Port} {es : List Event} {k : Nat}
    (h : p.attn.getLsbD k = true ∨ ∃ e ∈ es, e.bit.getLsbD k = true) : (p.takeAll es).attn.getLsbD k = true := by
  induction es generalizing p with
  | nil => simpa using h
  | cons a es ih =>
    rw [Port.takeAll_cons]
    rcases h with h | ⟨e, he, hb⟩
    · exact ih (.inl (p.take_attn_of a (.inl h)))
    · rcases List.mem_cons.mp he with rfl | he
      · exact ih (.inl (p.take_attn_of e (.inr hb)))
      · exact ih (.inr ⟨e, he, hb⟩)

theorem Port.deliver_attn_of {p : Port} {r : Option Frame} {es : List Event} {k : Nat}
    (h : p.attn.getLsbD k = true ∨ ∃ e ∈ es, e.bit.getLsbD k = true) : (p.deliver r es).attn.getLsbD k = true := by
  cases r with
  | none => exact Port.takeAll_attn_of h
  | some f => exact Port.takeAll_attn_of (p := p.push f) h

theorem State.standbyCheck_attn_of {s : State} {k : Nat} (h : s.port.attn.getLsbD k = true) :
    s.standbyCheck.port.attn.getLsbD k = true := by
  rcases s.standbyCheck_cases with ⟨_, e⟩ | ⟨_, e⟩ | ⟨_, e⟩ <;> rw [e]
  · exact Port.takeAll_attn_of (.inl h)
  · exact h
  · exact h

/-- An event of the settled blocks sets its bit. -/
theorem finish_attn_of_settled {s : State} {w : Work} (r : Option Frame) {k : Nat} {e : Event}
    (he : e ∈ (finishWork s w).events) (hk : e.bit.getLsbD k = true) : (finish s w r).port.attn.getLsbD k = true := by
  rw [finish_eq]
  exact State.standbyCheck_attn_of (Port.deliver_attn_of (.inr ⟨e, List.mem_append_left _ he, hk⟩))

/-- An event that a command has raised sets its bit. -/
theorem finish_attn {s : State} {w : Work} (r : Option Frame) {k : Nat} {e : Event} (he : e ∈ w.events)
    (hk : e.bit.getLsbD k = true) : (finish s w r).port.attn.getLsbD k = true :=
  finish_attn_of_settled r ((finishWork_grew s w).mem he) hk

end Sys2Proof.Machine
end

