-- ==== Sys2Proof/Proofs/StoreJobs.lean ====
section
/-! PROOF. PROFILE_COMMIT, the store job queue, and what the end of a job leaves in storage (R190, R191). -/

namespace Sys2Proof.Machine

set_option Elab.async false

open Sys2Proof.Safety

/-! ## A command that leaves the conditions of the inhibit set alone, in a part that may complete its start-up with it -/

theorem getLsbD_became (x y : BitVec 16) {k : Nat} (hk : k < 16) :
    (x &&& ~~~ y).getLsbD k = (x.getLsbD k && !y.getLsbD k) := by
  simp [hk]

/-- The end of the start-up clears members only: STABILIZED reads false until then (R102). -/
theorem Work.startupCheck_became (w : Work) : w.startupCheck.deriveInh &&& ~~~ w.deriveInh = 0 := by
  simp only [Work.startupCheck]
  split
  · next h =>
    obtain ⟨hs, -, -⟩ := h
    have hst : w.stabilized = false := by simp [Work.stabilized, hs]
    refine BitVec.eq_of_getLsbD_eq fun k hk => ?_
    rw [getLsbD_became _ _ hk, deriveInh_getLsbD _ hk, deriveInh_getLsbD _ hk, hst]
    have hrest : ∀ k < 16, ∀ (a b c d e f g h i j k' l m n o : Bool),
        ([a, b, c, d, e, f, g, h, i && !j, k', false, false, l, m, n, o].getD k false &&
          !([a, b, c, d, e, f, g, h, i && !false, k', false, false, l, m, n, o].getD k false)) = false := by
      intro k hk a b c d e f g h i j k' l m n o
      interval_cases k <;> simp +contextual
    have hzero : (0 : BitVec 16).getLsbD k = false := by simp
    exact (hrest k hk _ _ _ _ _ _ _ _ _ _ _ _ _ _ _).trans hzero.symm
  · exact became_self _

theorem Work.startupCheck_inh (w : Work) : w.startupCheck.inh = w.inh := by
  simp only [Work.startupCheck]; split <;> rfl

theorem Work.startupCheck_headDue (w : Work) : w.startupCheck.headDue = w.headDue := by
  simp only [Work.startupCheck]; split <;> rfl

theorem Work.startupCheck_store (w : Work) : w.startupCheck.store = w.store := by
  simp only [Work.startupCheck]; split <;> rfl

/-- Members may go, but none comes. -/
theorem Work.settled_of_none_new {w : Work} (hd : w.headDue = false) (hb : w.deriveInh &&& ~~~ w.inh = 0) :
    w.settled = { w with inh := w.deriveInh } := by
  have hloop : w.settleLoop 4 = { w with inh := w.deriveInh } := by
    simp only [Work.settleLoop, Work.judgeHead_of_not_due hd, hb, if_true]
  simp only [Work.settled, hloop, ← hd]
  rfl

theorem finishWork_of_none_new (s : State) {w : Work} (hd : w.headDue = false) (hi : w.inh = w.deriveInh) :
    finishWork s w = { w.startupCheck with
      inh := w.startupCheck.deriveInh,
      events := w.events ++ inhibitEvents (s.work.stage == .complete) s.work.inh w.startupCheck.deriveInh } := by
  have hb := w.startupCheck_became
  have hd' : w.startupCheck.headDue = false := w.startupCheck_headDue.trans hd
  rw [← hi, ← w.startupCheck_inh] at hb
  simp only [finishWork]
  rw [← w.startupCheck_events]
  generalize w.startupCheck = z at hb hd'
  have hz : Work.settled { z with events := [] } = { z with events := [], inh := z.deriveInh } :=
    Work.settled_of_none_new hd' hb
  simp only [Work.settleEvents, Work.judgeHead_of_not_due hd', hz, List.append_nil]

theorem Work.returnOnMotion_store (w : Work) (t : Travel) : (w.returnOnMotion t).store = w.store := by
  simp only [Work.returnOnMotion]; split <;> rfl

theorem finish_store_of_settled (s : State) {w : Work} (r : Option Frame) (hd : w.headDue = false)
    (hi : w.inh = w.deriveInh) : (finish s w r).work.store = w.store := by
  obtain ⟨-, -, -, -, -, -, h⟩ := (finishState s w r).standbyCheck_blocks
  rw [finish_eq, h]
  refine (Work.returnOnMotion_store _ _).trans ?_
  rw [finishWork_of_none_new s hd hi]
  exact w.startupCheck_store

/-! ## The queue of the jobs -/

theorem isCheckpointOf_self (c : ChanId) (cp : Checkpoint) (n : Option Nat) :
    Job.isCheckpointOf c (.checkpoint c cp n) = true := by simp [Job.isCheckpointOf]

theorem isCheckpointOf_ne {c d : ChanId} (h : d ≠ c) {x : Job} (hx : x.isCheckpointOf c = true) :
    x.isCheckpointOf d = false := by
  cases x with
  | checkpoint e cp n =>
    simp only [Job.isCheckpointOf, beq_iff_eq, beq_eq_false_iff_ne] at hx ⊢
    exact fun he => h (he.symm.trans hx)
  | learned => rfl
  | commit => rfl

/-- The replacement of a channel's pending checkpoint. -/
def replaced (c : ChanId) (j : Job) (x : Job) : Job := if x.isCheckpointOf c then j else x

theorem placeCheckpoint_of_any {c : ChanId} {j : Job} {jobs : List Job} (h : jobs.any (Job.isCheckpointOf c) = true) :
    placeCheckpoint c j jobs = jobs.map (replaced c j) := by
  simp only [placeCheckpoint, h, if_true]; rfl

theorem placeCheckpoint_of_none {c : ChanId} {j : Job} {jobs : List Job} (h : jobs.any (Job.isCheckpointOf c) = false) :
    placeCheckpoint c j jobs = jobs ++ [j] := by
  simp [placeCheckpoint, h]

/-- The place in the queue is kept: the one pending checkpoint is replaced. -/
theorem filter_placeCheckpoint_self {jobs : List Job} {c : ChanId} {j : Job} (hj : j.isCheckpointOf c = true)
    (hl : (jobs.filter (Job.isCheckpointOf c)).length ≤ 1) :
    (placeCheckpoint c j jobs).filter (Job.isCheckpointOf c) = [j] := by
  cases h : jobs.any (Job.isCheckpointOf c)
  · have hnone : jobs.filter (Job.isCheckpointOf c) = [] := by simpa [List.filter_eq_nil_iff] using h
    rw [placeCheckpoint_of_none h, List.filter_append, hnone]
    simp [hj]
  · have hsame : (fun x => (replaced c j x).isCheckpointOf c) = Job.isCheckpointOf c := by
      funext x
      by_cases hx : x.isCheckpointOf c = true <;> simp [replaced, hx, hj]
    obtain ⟨x, hx⟩ : ∃ x, jobs.filter (Job.isCheckpointOf c) = [x] := by
      obtain ⟨x, hx, hc⟩ := List.any_eq_true.mp h
      have hpos : x ∈ jobs.filter (Job.isCheckpointOf c) := List.mem_filter.mpr ⟨hx, hc⟩
      exact List.length_eq_one_iff.mp (Nat.le_antisymm hl (List.length_pos_of_mem hpos))
    have hc : x.isCheckpointOf c = true := by
      have hm : x ∈ jobs.filter (Job.isCheckpointOf c) := by simp [hx]
      exact (List.mem_filter.mp hm).2
    rw [placeCheckpoint_of_any h, List.filter_map, Function.comp_def, hsame, hx]
    simp [replaced, hc]

theorem filter_placeCheckpoint_ne {jobs : List Job} {c d : ChanId} {j : Job} (hj : j.isCheckpointOf c = true)
    (hd : d ≠ c) : (placeCheckpoint c j jobs).filter (Job.isCheckpointOf d) = jobs.filter (Job.isCheckpointOf d) := by
  have hjd := isCheckpointOf_ne hd hj
  cases h : jobs.any (Job.isCheckpointOf c)
  · rw [placeCheckpoint_of_none h, List.filter_append]
    simp [hjd]
  · rw [placeCheckpoint_of_any h]
    clear h
    induction jobs with
    | nil => rfl
    | cons x l ih =>
      rw [List.map_cons, List.filter_cons, List.filter_cons, ih]
      by_cases hx : x.isCheckpointOf c = true
      · simp [replaced, hx, hjd, isCheckpointOf_ne hd hx]
      · simp [replaced, hx]

theorem Work.serveNext_of_busy {w : Work} (h : w.store.busy ≠ none) : w.serveNext = w := by
  cases hb : w.store.busy with
  | none => exact absurd hb h
  | some j => simp [Work.serveNext, hb]

/-- The store once the head is served, when nothing was being written. -/
theorem Work.serveNext_store {w : Work} (h : w.store.busy = none) : w.serveNext.store =
    { w.store with jobs := w.store.jobs.tail,
                   busy := w.store.jobs.head?.map fun j => { job := j, start := w.now, record := w.jobRecord j } } := by
  cases hj : w.store.jobs with
  | nil =>
    have hw : w.serveNext = w := by simp [Work.serveNext, h, hj]
    rw [hw, List.tail_nil, List.head?_nil, Option.map_none, ← hj, ← h]
  | cons j rest => simp [Work.serveNext, h, hj]

theorem Work.jobRecord_of_learned {w z : Work} (h : w.store.learned = z.store.learned) (j : Job) :
    w.jobRecord j = z.jobRecord j := by
  cases j <;> simp [Work.jobRecord, h]

theorem Work.serveNext_headDue (w : Work) : w.serveNext.headDue = w.headDue := by
  simp only [Work.serveNext]; split <;> rfl

theorem Work.serveNext_inh (w : Work) : w.serveNext.inh = w.inh := by
  simp only [Work.serveNext]; split <;> rfl

theorem Work.serveNext_deriveInh (w : Work) : w.serveNext.deriveInh = w.deriveInh := by
  simp only [Work.serveNext]; split <;> rfl

/-! ## The end of a job -/

/-- The blocks when the record is in storage and nothing is being written. -/
def Work.wrote (w : Work) (job : Service) (failed : BitVec 6) : Work :=
  { w with store := { w.store.write job failed with busy := none } }

theorem Work.wrote_deriveInh (w : Work) (job : Service) (failed : BitVec 6) :
    (w.wrote job failed).deriveInh = w.deriveInh := by
  obtain ⟨j, st, r⟩ := job
  cases j <;> rfl

theorem Work.wrote_jobs (w : Work) (job : Service) (failed : BitVec 6) :
    (w.wrote job failed).store.jobs = w.store.jobs := by
  obtain ⟨j, st, r⟩ := job
  cases j <;> rfl

theorem Work.reportWritten_of_not_starting {w : Work} {c : ChanId} (h : (w.ch c).starting = false) (n : Option Nat) :
    w.reportWritten c n = w := by
  simp only [Work.reportWritten, h, Bool.false_and, Bool.false_eq_true, if_false]
  split <;> rfl

/-- The head of the jobs is served from now on, with its record as it now stands. -/
def ServedFrom (s t : State) : Prop :=
  t.work.store.jobs = s.work.store.jobs.tail ∧
    t.work.store.busy = s.work.store.jobs.head?.map fun j =>
      { job := j, start := t.work.now, record := t.work.jobRecord j }

/-- The end of a command whose work serves the next job last. -/
theorem served_of_serveNext {s : State} {z : Work} (hd : z.headDue = false) (hi : z.inh = z.deriveInh)
    (hb : z.store.busy = none) (hj : z.store.jobs = s.work.store.jobs) :
    ServedFrom s (finish s z.serveNext none) := by
  have hstore := finish_store_of_settled s (w := z.serveNext) none ((Work.serveNext_headDue z).trans hd)
    (by rw [Work.serveNext_inh, Work.serveNext_deriveInh]; exact hi)
  have hnow : z.serveNext.now = z.now := now_of_still z.serveNext_still
  rw [Work.serveNext_store hb, hj] at hstore
  have hrec : ∀ j, (finish s z.serveNext none).work.jobRecord j = z.jobRecord j := fun j =>
    Work.jobRecord_of_learned (by rw [hstore]) j
  refine ⟨by rw [hstore], ?_⟩
  rw [hstore, finish_now, hnow]
  simp only [hrec]

theorem Work.wrote_ch (w : Work) (job : Service) (f : BitVec 6) (c : ChanId) : (w.wrote job f).ch c = w.ch c := rfl

theorem Work.wrote_checkpoints_self (w : Work) (c : ChanId) (cp : Checkpoint) (n : Option Nat) (st : Time)
    (r : Option Record) (f : BitVec 6) :
    (w.wrote { job := .checkpoint c cp n, start := st, record := r } f).store.checkpoints[c] = r := by
  simp [Work.wrote, Store.write]

theorem Work.wrote_checkpoints_ne (w : Work) {c d : ChanId} (h : d ≠ c) (cp : Checkpoint) (n : Option Nat) (st : Time)
    (r : Option Record) (f : BitVec 6) :
    (w.wrote { job := .checkpoint c cp n, start := st, record := r } f).store.checkpoints[d] = w.store.checkpoints[d] := by
  have hne : c.val ≠ d.val := fun e => h (Fin.ext e.symm)
  simp [Work.wrote, Store.write, Vector.getElem_set_ne _ _ hne]

theorem Work.wrote_sections (w : Work) (st : Time) (r : Option Record) (f : BitVec 6) (k : Fin 6) :
    (w.wrote { job := .commit, start := st, record := r } f).store.sections[k] =
      some (commitRecord w.store.working k (f.getLsbD k.val)) := by
  simp [Work.wrote, Store.write]

theorem served_of_wrote {s : State} (hs : Settled s) (t : Time) (job : Service) (f : BitVec 6) :
    ServedFrom s (finish s ((s.work.notBefore t).wrote job f).serveNext none) := by
  obtain ⟨hi, hd, -⟩ := hs
  exact served_of_serveNext hd (by rw [Work.wrote_deriveInh]; exact hi) rfl (Work.wrote_jobs ..)

theorem served_of_wrote_emit {s : State} (hs : Settled s) (job : Service) (f : BitVec 6) (e : Event) :
    ServedFrom s (finish s ((s.work.wrote job f).emit e).serveNext none) := by
  obtain ⟨hi, hd, -⟩ := hs
  have hw := Work.wrote_deriveInh s.work job f
  exact served_of_serveNext hd (hi.trans hw.symm) rfl (Work.wrote_jobs ..)

theorem Work.endJob_checkpoint (w : Work) (c : ChanId) (cp : Checkpoint) (n : Option Nat) (st : Time) (r : Option Record)
    (f : BitVec 6) : w.endJob { job := .checkpoint c cp n, start := st, record := r } f =
      ((w.wrote { job := .checkpoint c cp n, start := st, record := r } f).reportWritten c n).serveNext := rfl

theorem Work.endJob_learned (w : Work) (st : Time) (r : Option Record) (f : BitVec 6) :
    w.endJob { job := .learned, start := st, record := r } f =
      (w.wrote { job := .learned, start := st, record := r } f).serveNext := rfl

theorem Work.endJob_commit (w : Work) (st : Time) (r : Option Record) (f : BitVec 6) :
    w.endJob { job := .commit, start := st, record := r } f =
      ((w.wrote { job := .commit, start := st, record := r } f).emit (.store f)).serveNext := rfl

/-- What is kept of the machine at the end of a job is what the writing of its record kept. -/
theorem Work.endJob_still (w : Work) (job : Service) (f : BitVec 6) : (w.endJob job f).still = (w.wrote job f).still := by
  obtain ⟨j, st, r⟩ := job
  cases j with
  | checkpoint c cp n => rw [Work.endJob_checkpoint, Work.serveNext_still, Work.reportWritten_still]
  | learned => rw [Work.endJob_learned, Work.serveNext_still]
  | commit => rw [Work.endJob_commit, Work.serveNext_still, Work.emit_still]

theorem finish_endJob_calm (s : State) (w : Work) (job : Service) (f : BitVec 6) :
    (finish s (w.endJob job f) none).work.calm = (w.wrote job f).calm :=
  (finish_calm ..).trans (Work.calm_of_still (w.endJob_still job f))

theorem cut_not_sound (l : List Int) : (Record.cut l).sound = false := by
  simp only [Record.cut, Record.sound, beq_eq_false_iff_ne]
  intro h
  have := congrArg (·.getLsbD 0) h
  simp at this

theorem sectionValid_cut (k : Fin 6) (l : List Int) : sectionValid k (some (Record.cut l)) = false := by
  simp [sectionValid, cut_not_sound]

/-! ## PROFILE_COMMIT -/

theorem exec_profileCommit_of_takes {s : State} (ht : Takes s) (tag : Byte) :
    exec (.profileCommit tag) s = .next (answered s 0x2E tag s.work.toActive.doCommit.1 s.work.toActive.doCommit.2) :=
  congrArg Host.Outcome.next (request_of_takes ht 0x2E tag _)

theorem Work.doCommit_refused {w : Work} (h : w.mayWrite = false) : w.doCommit = (w, replyBadMode) := by
  simp [Work.doCommit, h]

theorem Work.doCommit_inFlight {w : Work} (h : w.mayWrite = true) (hc : w.commitInFlight = true) :
    w.doCommit = (w, replyBusy .store) := by simp [Work.doCommit, h, hc]

theorem Work.doCommit_taken {w : Work} (h : w.mayWrite = true) (hc : w.commitInFlight = false)
    (hts : targetsOf w.bud = []) : w.doCommit = (w.askCommit, replyAccepted) := by
  have : (w.bud.admitted.map (·.target) ++ w.bud.queue.map (·.target)).isEmpty = true := by
    rw [List.isEmpty_iff]; exact hts
  simp only [Work.doCommit, h, hc, this]; rfl

theorem Work.doCommit_working {w : Work} (h : w.mayWrite = true) (hc : w.commitInFlight = false)
    (hts : targetsOf w.bud ≠ []) : w.doCommit = (w, replyBusy (onlyPump (targetsOf w.bud))) := by
  have : (w.bud.admitted.map (·.target) ++ w.bud.queue.map (·.target)).isEmpty = false := by
    rw [List.isEmpty_eq_false_iff]; exact hts
  simp only [Work.doCommit, h, hc, this]; rfl

theorem Work.askCommit_of_busy {w : Work} (h : w.store.busy ≠ none) :
    w.askCommit = { w with store := { w.store with jobs := w.store.jobs ++ [.commit] } } :=
  Work.serveNext_of_busy h

theorem Work.askCommit_of_idle {w : Work} (h : w.store.busy = none) (hj : w.store.jobs = []) :
    w.askCommit = { w with store := { w.store with busy := some { job := .commit, start := w.now, record := none } } } := by
  simp [Work.askCommit, Work.serveNext, h, hj, Work.jobRecord]

theorem Work.askCommit_of_waiting {w : Work} {j : Job} {rest : List Job} (h : w.store.busy = none)
    (hj : w.store.jobs = j :: rest) :
    w.askCommit = { w with store := { w.store with
      jobs := rest ++ [.commit], busy := some { job := j, start := w.now, record := w.jobRecord j } } } := by
  simp only [Work.askCommit, Work.serveNext, h, hj, List.cons_append]
  rw [Work.jobRecord_of_learned (w := { w with store := _ }) (z := w) rfl j]
  rfl

/-- Settles O27: the answers of PROFILE_COMMIT; the place of a checkpoint; and for each kind of job, storage from its record, the
rest of the store from the service of the next job. -/
theorem storeJobsAreQueuedAndWritten : Obligations.StoreJobsAreQueuedAndWritten := by
  unfold Obligations.StoreJobsAreQueuedAndWritten
  refine ⟨fun s tag ht => ?_, fun jobs c cp n => ?_, fun s ha => ⟨?_, ?_, ?_⟩⟩
  · have hexec := exec_profileCommit_of_takes ht tag
    have hmay : s.work.mode = .service ∨ (s.work.mode = .unconfigured ∧ s.work.service = true) →
        s.work.toActive.mayWrite = true := fun h => by rw [Work.toActive_mayWrite]; exact s.work.mayWrite_iff.mpr h
    have hflight := s.work.toActive_commitInFlight
    have hts : targetsOf s.work.toActive.bud = targetsOf s.work.bud := by rw [Work.toActive_bud]
    have hbusy : s.work.toActive.store.busy = s.work.store.busy := by rw [Work.toActive_store]
    have hjobs : s.work.toActive.store.jobs = s.work.store.jobs := by rw [Work.toActive_store]
    refine ⟨fun hm => ?_, fun hm hc => ?_, fun hm hc => ⟨fun h hb => ?_, fun h hb hj => ?_, fun j rest h hb hj => ?_,
      fun h => ?_⟩⟩
    · have hno : s.work.toActive.mayWrite = false := by
        rw [Work.toActive_mayWrite]; simpa using fun h => hm (s.work.mayWrite_iff.mp h)
      rw [hexec, Work.doCommit_refused hno]; rfl
    · rw [hexec, Work.doCommit_inFlight (hmay hm) (hflight.trans hc)]; rfl
    · rw [hexec, Work.doCommit_taken (hmay hm) (hflight.trans hc) (hts.trans h),
        Work.askCommit_of_busy (by rw [hbusy]; exact hb)]; rfl
    · rw [hexec, Work.doCommit_taken (hmay hm) (hflight.trans hc) (hts.trans h),
        Work.askCommit_of_idle (hbusy.trans hb) (hjobs.trans hj)]; rfl
    · rw [hexec, Work.doCommit_taken (hmay hm) (hflight.trans hc) (hts.trans h),
        Work.askCommit_of_waiting (hbusy.trans hb) (hjobs.trans hj)]; rfl
    · rw [hexec, Work.doCommit_working (hmay hm) (hflight.trans hc) (by rw [hts]; exact h)]
      simp only [replyBusy, onlyPump_code, hts]
      rfl
  · have hj := isCheckpointOf_self c cp n
    refine ⟨filter_placeCheckpoint_self hj, fun d hd => filter_placeCheckpoint_ne hj hd, fun h => ?_,
      placeCheckpoint_of_none⟩
    rw [placeCheckpoint_of_any h, List.length_map]
  · intro c cp n st r hb
    have hw : s.work.checkpointWritten c = (s.work.notBefore (st + 5000)).endJob
        { job := .checkpoint c cp n, start := st, record := some r } 0 := by
      simp only [Work.checkpointWritten, hb, isCheckpointOf_self c cp n]; rfl
    have hexec : exec (.checkpointWritten c) s = .next (finish s (s.work.checkpointWritten c) none) :=
      congrArg Host.Outcome.next (event_of_awake ha fun w => w.checkpointWritten c)
    rw [hw] at hexec
    have hcalm := finish_endJob_calm s (s.work.notBefore (st + 5000))
      { job := .checkpoint c cp n, start := st, record := some r } 0
    refine ⟨_, hexec, ?_, fun d hd => ?_, congrArg Calm.sections hcalm, congrArg Calm.learnedRec hcalm,
      congrArg Calm.now hcalm, fun hs hstart => ?_⟩
    · exact (congrArg (fun k : Calm => k.checkpoints[c]) hcalm).trans (Work.wrote_checkpoints_self _ c cp n st _ 0)
    · exact (congrArg (fun k : Calm => k.checkpoints[d]) hcalm).trans (Work.wrote_checkpoints_ne _ hd cp n st _ 0)
    · rw [Work.endJob_checkpoint, Work.reportWritten_of_not_starting (by rw [Work.wrote_ch]; exact hstart)]
      exact served_of_wrote hs (st + 5000) _ 0
  · intro st r hb
    have hw : s.work.learnedWritten = (s.work.notBefore (st + 10000)).endJob
        { job := .learned, start := st, record := some r } 0 := by
      simp only [Work.learnedWritten, hb]; rfl
    have hexec : exec .learnedWritten s = .next (finish s s.work.learnedWritten none) :=
      congrArg Host.Outcome.next (event_of_awake ha Work.learnedWritten)
    rw [hw] at hexec
    have hcalm := finish_endJob_calm s (s.work.notBefore (st + 10000)) { job := .learned, start := st, record := some r } 0
    refine ⟨_, hexec, congrArg Calm.learnedRec hcalm, congrArg Calm.sections hcalm, congrArg Calm.checkpoints hcalm,
      congrArg Calm.now hcalm, fun hs => ?_⟩
    rw [Work.endJob_learned]
    exact served_of_wrote hs (st + 10000) _ 0
  · intro st r failed hb
    have hw : s.work.commitComplete failed = s.work.endJob { job := .commit, start := st, record := r } failed := by
      simp only [Work.commitComplete, hb]; rfl
    have hexec : exec (.commitComplete failed) s = .next (finish s (s.work.commitComplete failed) none) :=
      congrArg Host.Outcome.next (event_of_awake ha fun w => w.commitComplete failed)
    rw [hw] at hexec
    have hcalm := finish_endJob_calm s s.work { job := .commit, start := st, record := r } failed
    have hsec (k : Fin 6) : (finish s (s.work.endJob { job := .commit, start := st, record := r } failed) none).work.store.sections[k] =
        some (commitRecord s.work.store.working k (failed.getLsbD k.val)) :=
      (congrArg (fun k' : Calm => k'.sections[k]) hcalm).trans (Work.wrote_sections _ st r failed k)
    refine ⟨_, hexec, congrArg Calm.working hcalm, congrArg Calm.learnedRec hcalm, congrArg Calm.checkpoints hcalm,
      fun k hk => ?_, fun k hk => ?_, ?_, fun hs => ?_⟩
    · rw [hsec, hk]; rfl
    · rw [hsec, hk]; exact sectionValid_cut k _
    · have he : Event.store failed ∈
          (s.work.endJob { job := .commit, start := st, record := r } failed).events := by
        rw [Work.endJob_commit, Work.serveNext_events]; simp [Work.emit]
      have hbit := finish_attn (s := s) none he (k := 9) (by simp [Event.bit])
      have htwo : (0x0200 : BitVec 16) = BitVec.twoPow 16 9 := by decide
      rw [htwo, BitVec.and_twoPow, hbit, if_pos rfl]
    · rw [Work.endJob_commit]
      exact served_of_wrote_emit hs _ failed _

end Sys2Proof.Machine
end

