-- ==== Sys2Proof/Proofs/SlowState.lean ====
section
/-! PROOF. The commands of motion, hydraulics, levelling, supply and budget keep the slow state: the work of each keeps it, and
so does the end of a command (`kept_event`, `kept_request`). -/

namespace Sys2Proof.Machine

set_option Elab.async false

open Sys2Proof.Safety

theorem kept_of_event {s t : State} {f : Work → Work} (h : kept (f s.work) = kept s.work)
    (he : (.next (event s f) : Result) = .next t) : kept t.work = kept s.work := by
  obtain rfl := Host.Outcome.next.inj he
  exact kept_event s f h

theorem kept_of_request {s t : State} {k g : Byte} {f : State → Work × Reply}
    (h : ∀ s : State, (f s).1.still = s.work.still) (he : (.next (request s k g f) : Result) = .next t) :
    kept t.work = kept s.work := by
  obtain rfl := Host.Outcome.next.inj he
  exact kept_request s k g f fun s => kept_of_still (h s)

theorem kept_of_request' {s t : State} {k g : Byte} {f : State → Work × Reply}
    (h : ∀ s : State, kept (f s).1 = kept s.work) (he : (.next (request s k g f) : Result) = .next t) :
    kept t.work = kept s.work := by
  obtain rfl := Host.Outcome.next.inj he
  exact kept_request s k g f h

theorem kept_doFaultClear (w : Work) (a : Byte) : kept (w.doFaultClear a).1 = kept w := by
  rcases w.doFaultClear_cases a with h | h | ⟨c, h⟩ | ⟨j, h⟩ <;> rw [h]
  · exact kept_clearSupply w
  · exact kept_of_still (w.clearChan_still c)
  · exact kept_of_still (w.clearJack_still j)

theorem kept_toggleAlert (s : State) : kept s.toggleAlert.work = kept s.work := by
  simp only [State.toggleAlert]; split <;> rfl

theorem kept_lastDrift (w : Work) : kept w.lastDrift = kept w := by
  simp only [Work.lastDrift]; split <;> rfl

theorem kept_hallAfter (w : Work) (c : ChanId) (n : Nat) :
    kept (if (w.moverOf c).isSome then (w.notBefore (w.now + n)).hallCount c else w) = kept w := by
  split
  · exact (kept_of_still (Work.hallCount_still ..)).trans (kept_notBefore ..)
  · rfl

theorem kept_bus (w : Work) (b : Bool) (n : Nat) :
    kept (if w.power = .active then (w.lastBus b).judgeBus n else w) = kept w :=
  kept_ite _ w (fun w => (w.lastBus b).judgeBus n) fun w => (kept_judgeBus ..).trans (kept_lastBus w b)

theorem kept_voltage (w : Work) (v : Nat) : kept (w.withVoltage v) = kept w := kept_judgeVoltage _ _

theorem kept_lowVoltage (w : Work) (side : SupplySide) (v : Nat) :
    kept ((w.lastLowVoltage side).withVoltage v) = kept w := by
  rw [kept_voltage]; cases side <;> rfl

theorem kept_clearVoltage (w : Work) (side : SupplySide) (v : Nat) :
    kept ((w.lastClearVoltage side).withVoltage v) = kept w := by
  rw [kept_voltage]; cases side <;> rfl

/-- Settles O34: each command of the list by what its work keeps. -/
theorem motionCommandsKeepSlowState : Obligations.MotionCommandsKeepSlowState := by
  unfold Obligations.MotionCommandsKeepSlowState
  intro s t i hi he
  cases i with
  | move tag a b => exact kept_of_request (fun s => s.work.doMove_still a b) he
  | stop tag a => exact kept_of_request (fun s => s.work.doStop_still a) he
  | levelStart tag a => exact kept_of_request (fun s => s.work.doLevelStart_still a) he
  | levelCancel tag => exact kept_of_request (fun s => s.work.doLevelCancel_still) he
  | jackMove tag a b => exact kept_of_request (fun s => s.work.doJackMove_still a b) he
  | jacksStow tag => exact kept_of_request (fun s => s.work.doStow_still) he
  | faultClear tag a => exact kept_of_request' (fun s => kept_doFaultClear s.work a) he
  | fenceSet tag a b => exact kept_of_request (fun s => by split <;> simp) he
  | fenceClear tag a b => exact kept_of_request (fun s => by split <;> simp) he
  | learnStroke tag a b => exact kept_of_request (fun s => s.work.doLearn_still a b) he
  | strokeSet tag a n => exact kept_of_request (fun s => s.work.doStrokeSet_still a n) he
  | tiltZeroLearn tag => exact kept_of_request' (fun s => kept_doZeroLearn s.work) he
  | panelSwitchSettled m d b => exact kept_of_event (kept_settleSwitch ..) he
  | startupComplete =>
    obtain rfl := Host.Outcome.next.inj he
    split
    · rw [kept_finish, kept_settleJacks]
    · rfl
  | hallCount c n => exact kept_of_event (kept_hallAfter s.work c n) he
  | dutyUpdate c => exact kept_of_event (kept_dutyUpdate ..) he
  | stallJudgement c n => exact kept_of_event (kept_stallAt ..) he
  | overcurrentLock c n => exact kept_of_event (kept_overcurrentAt ..) he
  | overspeedLock c n => exact kept_of_event (kept_overspeedAt ..) he
  | retryWaitExpiry c => exact kept_of_event (kept_retryExpiry ..) he
  | stoppingEnd c => exact kept_of_event (kept_stoppingEnd ..) he
  | roomLeaseExpiry m => exact kept_of_event (kept_leaseExpiry ..) he
  | holdOffExpiry m => exact kept_of_event (kept_holdOffExpiry ..) he
  | pendingReversalExpiry m => exact kept_of_event (kept_reversalExpiry ..) he
  | roomDwellEnd r => exact kept_of_event (kept_roomDwellEnd ..) he
  | panelPress r d => exact kept_of_event (kept_press ..) he
  | panelRelease r d => exact kept_of_event (kept_unpress ..) he
  | awningPanelPress d => exact kept_of_event (kept_press ..) he
  | awningPanelRelease d => exact kept_of_event (kept_unpress ..) he
  | awningDwellEnd => exact kept_of_event (kept_awningDwellEnd ..) he
  | pumpDwellEnd => exact kept_of_event (kept_pumpDwellEnd ..) he
  | pumpRestEnd => exact kept_of_event (kept_pumpRestEnd ..) he
  | pumpOverrun => exact kept_of_event (kept_pumpOverrun ..) he
  | groundedFlagChange j b => exact kept_of_event (kept_groundChange ..) he
  | jackScanSettleTimeout j b => exact kept_of_event (kept_scanTimeout ..) he
  | strokeSample j r => exact kept_of_event (kept_strokeAt ..) he
  | strokeSensorFault j r => exact kept_of_event (kept_ite _ _ _ fun w => kept_thirdOutOfRange w j r) he
  | retractedIndicatorSet j r => exact kept_of_event (kept_ite _ _ _ fun w => kept_lastLowSample w j r) he
  | stowTimeout => exact kept_of_event (kept_stowTimeout ..) he
  | manualLeaseExpiry => exact kept_of_event (kept_manualExpiry ..) he
  | filteredSample x y => exact kept_of_event (kept_blockEnd ..) he
  | tiltFaultSet x y => exact kept_of_event (kept_ite _ _ _ fun w => kept_blockEnd (w.thirdRail x y) x y) he
  | tiltFaultClear x y => exact kept_of_event (kept_ite _ _ _ fun w => kept_blockEnd w.lastGood x y) he
  | zeroLearnComplete x y => exact kept_of_event (kept_blockEnd ..) he
  | touchdownDeadline => exact kept_of_event (kept_atDeadline _ _ _ fun w => kept_of_still w.noGround_still) he
  | levellingDeadline => exact kept_of_event (kept_atDeadline _ _ _ fun w => kept_of_still (w.enterStabilize_still _)) he
  | stabilizeDeadline => exact kept_of_event (kept_atDeadline _ _ _ fun w => kept_of_still w.noGround_still) he
  | settleTimeEnd => exact kept_of_event (kept_atDeadline _ _ _ fun w => kept_of_still w.settleEnd_still) he
  | levelLost x y =>
    exact kept_of_event (kept_ite _ _ _ fun w => (kept_blockEnd w.lastDrift x y).trans (kept_lastDrift w)) he
  | supplyFlagSet side v => exact kept_of_event (kept_lowVoltage s.work side v) he
  | supplyFlagClear side v => exact kept_of_event (kept_clearVoltage s.work side v) he
  | busOvercurrentTrip n => exact kept_of_event (kept_bus s.work false n) he
  | busDetectorRearm n => exact kept_of_event (kept_bus s.work true n) he
  | queueMaxWait t => exact kept_of_event (kept_maxWaitEnd ..) he
  | alertSlowToggle =>
    obtain rfl := Host.Outcome.next.inj he
    split
    · exact kept_toggleAlert s
    · rfl
  | _ => exact absurd hi Bool.false_ne_true

end Sys2Proof.Machine
end

