-- ==== Sys2Proof/Proofs/Moves.lean ====
section
/-! PROOF. MOVE and STOP: what each answers, by the order of its checks (R32..R37, R39, R122..R126, R129). -/

namespace Sys2Proof.Machine

set_option Elab.async false

open Sys2Proof.Safety

/-! ## Operands -/

theorem decodeMover_of (m : MoverId) : decodeMover (BitVec.ofNat 8 m.val) = some m := by revert m; decide

theorem decodeMover_of_large {b : Byte} (h : 5 ≤ b.toNat) : decodeMover b = none := by
  simp [decodeMover, Nat.not_lt_of_le h]

theorem decodeDir_of (d : Dir) : decodeDir (dirByte d) = some d := by cases d <;> rfl

theorem decodeDir_of_large {b : Byte} (h : 2 ≤ b.toNat) : decodeDir b = none := by
  have h0 : b ≠ 0 := fun e => by simp [e] at h
  have h1 : b ≠ 1 := fun e => by simp [e] at h
  simp only [decodeDir, if_neg h0, if_neg h1]

theorem decodeStop_of (m : MoverId) : decodeStop (BitVec.ofNat 8 m.val) = some (.one m) := by revert m; decide

theorem decodeStop_of_large {b : Byte} (h : 5 ≤ b.toNat) (hf : b ≠ 0xFF) : decodeStop b = none := by
  simp only [decodeStop, if_neg hf, decodeMover_of_large h, Option.map_none]

/-! ## The answer of MOVE -/

theorem exec_move_of_takes {s : State} (ht : Takes s) (tag target dir : Byte) :
    exec (.move tag target dir) s = .next (answered s 0x10 tag (s.toActive.work.doMove target dir).1
      (s.toActive.work.doMove target dir).2) :=
  congrArg Host.Outcome.next (request_of_takes ht 0x10 tag _)

/-- A MOVE that answers `r` and leaves the blocks as `z`. -/
theorem exec_move_of_eq {s : State} (ht : Takes s) (tag : Byte) {target dir : Byte} {z : Work} {r : Reply}
    (h : s.toActive.work.doMove target dir = (z, r)) :
    exec (.move tag target dir) s = .next (answered s 0x10 tag z r) := by
  rw [exec_move_of_takes ht, h]

theorem Work.doMove_of (w : Work) (m : MoverId) (d : Dir) :
    w.doMove (BitVec.ofNat 8 m.val) (dirByte d) = w.moveRequest m d := by
  simp only [Work.doMove, decodeMover_of, decodeDir_of]

theorem Work.moveRequest_of_present {w : Work} {m : MoverId} (hm : w.mode ≠ .unconfigured) (hc : w.stage = .complete)
    (hp : (w.mv m).present = true) (d : Dir) : w.moveRequest m d = w.claimMove m .link d := by
  have hs : w.settlingStage = false := by simp [Work.settlingStage, hc]
  simp only [Work.moveRequest, if_neg hm, hs, hp]; rfl

/-! ## The checks of a claim -/

theorem Work.hydBlocks_eq_true {w : Work} :
    w.hydBlocks = true ↔ w.lvl.phase ≠ .idle ∨ ∃ a, w.hyd.activity = some a ∧ a.kind = .stow := by
  simp only [Work.hydBlocks, Bool.or_eq_true, bne_iff_ne]
  refine or_congr_right ?_
  cases w.hyd.activity <;> simp

theorem Work.hydBlocks_of_cleared {w : Work} (hl : w.lvl.phase = .idle)
    (ha : w.hyd.activity.map (·.kind) ≠ some .stow) : w.hydBlocks = false := by
  have h : ¬ w.hydBlocks = true := by
    rw [Work.hydBlocks_eq_true]
    rintro (h | ⟨a, e, k⟩)
    · exact h hl
    · simp [e, k] at ha
  simpa using h

theorem lowestBlocking_of_clear {inh : BitVec 16} {c : MoveClass} (h : inh &&& c.mask = 0) :
    lowestBlocking inh [c] = none := by
  simp only [lowestBlocking, List.find?_eq_none, List.mem_range]
  intro k _ hb
  have hk : (inh &&& c.mask).getLsbD k = false := by rw [h]; simp
  rw [BitVec.getLsbD_and] at hk
  simp [hk] at hb

theorem lowestBlocking_of_lowest {inh : BitVec 16} {c : MoveClass} {id : Nat} (h : LowestBlocking inh c id) :
    lowestBlocking inh [c] = some id := by
  obtain ⟨hlt, hi, hm, hlow⟩ := h
  simp only [lowestBlocking, List.any_cons, List.any_nil, Bool.or_false]
  refine List.find?_range_eq_some.mpr ⟨by simp [hi, hm], by simpa using hlt, fun k hk => ?_⟩
  cases hb : inh.getLsbD k
  · rfl
  · have := hlow k hk
    simpa [hb] using this

/-- Checks 3 to 8 in a row: the first that fails gives the refusal. -/
theorem Work.claimRefusal_of_cleared {w : Work} {m : MoverId} {d : Dir} (h : Cleared w m d) :
    w.claimRefusal m d true [moveClass m d] = none := by
  obtain ⟨hf, hx, hk, hl, ha, hi, hc⟩ := h
  have hpos : (true && d == .outward && !w.known m) = false := by
    cases d
    · simp [hk rfl]
    · rfl
  simp only [Work.claimRefusal, hf, hx, hpos, Work.hydBlocks_of_cleared hl ha, lowestBlocking_of_clear hi, hc]
  rfl

/-! ## A free mover -/

theorem Work.claimMove_of_free {w : Work} {m : MoverId} {d : Dir} (hf : Free w m) (hh : (w.mv m).holdOffDir ≠ some d) :
    w.claimMove m .link d = w.claimFrom3 m .link d (some (w.now + w.holdWindow)) := by
  obtain ⟨-, hidle, hrev, hlearn, hret⟩ := hf
  have hr : (if m = awn then w.holdsRetract else none) = none := by
    split
    · next h => exact hret h
    · rfl
  simp only [Work.claimMove, hr, hlearn, hh, hidle, hrev]
  rfl

theorem Work.claimFrom3_of_cleared {w : Work} {m : MoverId} {d : Dir} (h : Cleared w m d) (src : Source)
    (lease : Option Time) : w.claimFrom3 m src d lease =
      if w.atEnd m d then (w, replyDone) else w.presentClaim m (w.newClaim m src d lease) none := by
  simp only [Work.claimFrom3, Work.claimRefusal_of_cleared h]

theorem Work.newClaim_link (w : Work) (m : MoverId) (d : Dir) :
    w.newClaim m .link d (some (w.now + w.holdWindow)) = claimOf w m .link d := by
  by_cases hm : m = awn
  · cases ho : w.oneTouch <;> simp [Work.newClaim, Work.claimKind, claimOf, hm, ho]
  · simp [Work.newClaim, Work.claimKind, claimOf, hm]

/-- The mover with a claim. -/
def Work.claimed (w : Work) (m : MoverId) (c : Claim) : Work := w.setMv m { w.mv m with claim := some c }

theorem Work.chansOf_setMv (w : Work) (m n : MoverId) {x : Mover} (h : x.chans = (w.mv m).chans) :
    (w.setMv m x).chansOf n = w.chansOf n := by
  by_cases hn : n = m
  · subst hn; simp only [Work.chansOf, Work.mv_setMv_self, h]
  · simp only [Work.chansOf, Work.mv_setMv_ne _ _ _ _ hn]

theorem Work.claimed_chansOf (w : Work) (m : MoverId) (c : Claim) (n : MoverId) :
    (w.claimed m c).chansOf n = w.chansOf n := w.chansOf_setMv m n rfl

theorem Work.claimed_known (w : Work) (m : MoverId) (c : Claim) (n : MoverId) :
    (w.claimed m c).known n = w.known n := by
  simp only [Work.known, Work.allCh, Work.claimed_chansOf]; rfl

theorem Work.claimed_mv (w : Work) (m : MoverId) (c : Claim) :
    (w.claimed m c).mv m = { w.mv m with claim := some c } := Work.mv_setMv_self _ _ _

theorem Work.claimed_moverDraw (w : Work) (m : MoverId) (c : Claim) : (w.claimed m c).moverDraw m = w.moverDraw m := by
  simp only [Work.moverDraw, Work.claimed_mv]; rfl

theorem Work.moverEntry_claimed (w : Work) (m : MoverId) (c : Claim) :
    (w.claimed m c).moverEntry m c = entryOf w m c := by
  simp only [Work.moverEntry, Work.claimed_moverDraw]; rfl

/-- A claim presented without a learning run, by the three lines of R144. -/
theorem Work.presentClaim_of_none {w : Work} {m : MoverId} (h : (w.mv m).learn = none) (c : Claim) :
    w.presentClaim m c none = match (w.claimed m c).presentEntry (entryOf w m c) with
      | (w2, .accepted) => (w2.admitMover m, replyAccepted)
      | (w2, .queued) => (w2.setQueued m true, replyQueued)
      | _ => (w, replyQueueFull) := by
  have hw : w.setMv m { w.mv m with claim := some c, learn := none } = w.claimed m c := by
    rw [Work.claimed, ← h]
  simp only [Work.presentClaim, hw, Work.moverEntry_claimed] <;> rfl

theorem Work.presentEntry_of_fits {w : Work} {q : Queued} (h : Fits w q.draw) :
    w.presentEntry q = (admitted w q.target q.draw, .accepted) := by
  obtain ⟨hq, hf⟩ := h
  have hfits : w.fits q.draw = true := by simpa [Work.fits] using hf
  simp only [Work.presentEntry, hq, hfits]; rfl

theorem Work.presentEntry_of_room {w : Work} {q : Queued} (h : ¬ Fits w q.draw) (hl : waiting w < w.queueLimit) :
    w.presentEntry q = (queued w q, .queued) := by
  have hno : (w.bud.queue.isEmpty && w.fits q.draw) = false := by simpa [Fits, Work.fits] using h
  have hl' : w.bud.counted < w.queueLimit := hl
  simp only [Work.presentEntry, hno, if_pos hl']; rfl

theorem Work.presentEntry_of_full {w : Work} {q : Queued} (h : ¬ Fits w q.draw) (hl : w.queueLimit ≤ waiting w) :
    w.presentEntry q = (w, .queueFull) := by
  have hno : (w.bud.queue.isEmpty && w.fits q.draw) = false := by simpa [Fits, Work.fits] using h
  have hl' : ¬ w.bud.counted < w.queueLimit := Nat.not_lt_of_le hl
  simp only [Work.presentEntry, hno, if_neg hl']; rfl

theorem Work.presentClaim_of_fits {w : Work} {m : MoverId} (h : (w.mv m).learn = none) (c : Claim)
    (hf : Fits w (w.moverDraw m)) : w.presentClaim m c none =
      ((admitted (w.claimed m c) (moverTarget m) (w.moverDraw m)).handOver m c.source c.dir (profileOf w m), replyAccepted) := by
  have hp : (w.claimed m c).presentEntry (entryOf w m c) =
      (admitted (w.claimed m c) (moverTarget m) (w.moverDraw m), .accepted) :=
    Work.presentEntry_of_fits (w := w.claimed m c) (q := entryOf w m c) hf
  have hc : ((admitted (w.claimed m c) (moverTarget m) (w.moverDraw m)).mv m).claim = some c :=
    congrArg Mover.claim (w.claimed_mv m c)
  have hl : ((admitted (w.claimed m c) (moverTarget m) (w.moverDraw m)).mv m).learn = none :=
    (congrArg Mover.learn (w.claimed_mv m c)).trans h
  have hk : profileOf (admitted (w.claimed m c) (moverTarget m) (w.moverDraw m)) m = profileOf w m :=
    congrArg (fun b : Bool => if b then MotionProfile.normal else .homing) (w.claimed_known m c m)
  rw [Work.presentClaim_of_none h, hp]
  dsimp only
  rw [Work.admitMover_of_claim hc hl, hk]

theorem Work.presentClaim_of_room {w : Work} {m : MoverId} (h : (w.mv m).learn = none) (c : Claim)
    (hf : ¬ Fits w (w.moverDraw m)) (hl : waiting w < w.queueLimit) : w.presentClaim m c none =
      ((queued (w.claimed m c) (entryOf w m c)).setQueued m true, replyQueued) := by
  have hp : (w.claimed m c).presentEntry (entryOf w m c) = (queued (w.claimed m c) (entryOf w m c), .queued) :=
    Work.presentEntry_of_room (w := w.claimed m c) (q := entryOf w m c) hf hl
  rw [Work.presentClaim_of_none h, hp]

theorem Work.presentClaim_of_full {w : Work} {m : MoverId} (h : (w.mv m).learn = none) (c : Claim)
    (hf : ¬ Fits w (w.moverDraw m)) (hl : w.queueLimit ≤ waiting w) :
    w.presentClaim m c none = (w, replyQueueFull) := by
  have hp : (w.claimed m c).presentEntry (entryOf w m c) = (w.claimed m c, .queueFull) :=
    Work.presentEntry_of_full (w := w.claimed m c) (q := entryOf w m c) hf hl
  rw [Work.presentClaim_of_none h, hp]

theorem claimOf_source (w : Work) (m : MoverId) (src : Source) (d : Dir) : (claimOf w m src d).source = src := by
  simp only [claimOf]; split <;> rfl

theorem claimOf_dir (w : Work) (m : MoverId) (src : Source) (d : Dir) : (claimOf w m src d).dir = d := by
  simp only [claimOf]; split <;> rfl

/-- Settles O28: a free mover goes to check 3, passes to the end, and its claim to the table of R144. -/
theorem moveClaimsAFreeMover : Obligations.MoveClaimsAFreeMover := by
  unfold Obligations.MoveClaimsAFreeMover
  intro s tag m d ht w c w1 cmd hm hs hfree hhold hclear
  obtain ⟨hpres, -, -, hlearn, -⟩ := id hfree
  have hmove : w.doMove (BitVec.ofNat 8 m.val) (dirByte d) =
      if w.atEnd m d then (w, replyDone) else w.presentClaim m c none := by
    rw [Work.doMove_of, Work.moveRequest_of_present hm hs hpres, Work.claimMove_of_free hfree hhold,
      Work.claimFrom3_of_cleared hclear, Work.newClaim_link]
  refine ⟨fun he => ?_, fun he hf => ?_, fun he hf hl => ?_, fun he hf hl => ?_⟩
  all_goals rw [he] at hmove
  · exact exec_move_of_eq ht tag hmove
  · have hgo := hmove.trans (Work.presentClaim_of_fits hlearn c hf)
    rw [claimOf_source, claimOf_dir] at hgo
    exact exec_move_of_eq ht tag hgo
  · exact exec_move_of_eq ht tag (hmove.trans (Work.presentClaim_of_room hlearn c hf hl))
  · exact exec_move_of_eq ht tag (hmove.trans (Work.presentClaim_of_full hlearn c hf hl))

end Sys2Proof.Machine
end

