-- ==== Sys2Proof/Proofs/MoveRefusals.lean ====
section
/-! PROOF. MOVE refused, by the first check that fails (R32, R33, R122, R126). -/

namespace Sys2Proof.Machine

set_option Elab.async false

open Sys2Proof.Safety

theorem Work.doMove_of_badTarget (w : Work) {target : Byte} (h : 5 ≤ target.toNat) (dir : Byte) :
    w.doMove target dir = (w, replyBadArgument) := by
  simp only [Work.doMove, decodeMover_of_large h]

theorem Work.doMove_of_badDir (w : Work) {target dir : Byte} (ht : target.toNat < 4) (hd : 2 ≤ dir.toNat) :
    w.doMove target dir = (w, replyBadArgument) := by
  have hlt : target.toNat < 5 := by omega
  have hne : (⟨target.toNat, hlt⟩ : MoverId) ≠ awn := fun e => by
    have : target.toNat = 4 := congrArg Fin.val e
    omega
  simp only [Work.doMove, decodeMover, hlt, dite_true, decodeDir_of_large hd, if_pos hne]

theorem Work.moveRequest_of_unconfigured {w : Work} (h : w.mode = .unconfigured) (m : MoverId) (d : Dir) :
    w.moveRequest m d = (w, replyBadMode) := by simp [Work.moveRequest, h]

theorem Work.moveRequest_of_settling {w : Work} (hm : w.mode ≠ .unconfigured) (h : w.stage = .settling) (m : MoverId)
    (d : Dir) : w.moveRequest m d = (w, replyNotReady .jacks) := by
  simp [Work.moveRequest, hm, Work.settlingStage, h]

theorem Work.moveRequest_of_absent {w : Work} (hm : w.mode ≠ .unconfigured) (h : w.stage = .complete) {m : MoverId}
    (hp : (w.mv m).present = false) (d : Dir) : w.moveRequest m d = (w, replyBadArgument) := by
  simp [Work.moveRequest, hm, Work.settlingStage, h, hp]

/-- A free mover refuses what its checks refuse. -/
theorem Work.moveRequest_of_refusal {w : Work} {m : MoverId} {d : Dir} {r : Reply} (hm : w.mode ≠ .unconfigured)
    (hc : w.stage = .complete) (hf : Free w m) (hh : (w.mv m).holdOffDir ≠ some d)
    (hr : w.claimRefusal m d true [moveClass m d] = some r) : w.moveRequest m d = (w, r) := by
  obtain ⟨hp, -⟩ := id hf
  rw [Work.moveRequest_of_present hm hc hp, Work.claimMove_of_free hf hh, Work.claimFrom3, hr]

section checks

variable {w : Work} {m : MoverId} {d : Dir} {b : Bool} {cs : List MoveClass}

theorem Work.claimRefusal_of_fenced (h : w.fenced m = true) : w.claimRefusal m d b cs = some { status := .fenced } := by
  simp [Work.claimRefusal, h]

theorem Work.claimRefusal_of_faulted (h : w.fenced m = false) (hx : w.faulted m = true) :
    w.claimRefusal m d b cs = some { status := .faulted } := by
  simp [Work.claimRefusal, h, hx]

theorem Work.claimRefusal_of_unknown (h : w.fenced m = false) (hx : w.faulted m = false)
    (hk : (b && d == .outward && !w.known m) = true) :
    w.claimRefusal m d b cs = some { status := .positionUnknown } := by
  simp only [Work.claimRefusal, h, hx, hk]; rfl

/-- The checks that remain when the mover itself is sound and its position serves. -/
theorem Work.claimRefusal_of_sound (h : w.fenced m = false) (hx : w.faulted m = false)
    (hk : (b && d == .outward && !w.known m) = false) :
    w.claimRefusal m d b cs =
      if w.hydBlocks then some (replyBusy .hydraulic)
      else match lowestBlocking w.inh cs with
        | some id => some (replyInhibited id)
        | none => if w.conflict m then some replyConflict else none := by
  simp only [Work.claimRefusal, h, hx, hk]; rfl

end checks

theorem position_serves {w : Work} {m : MoverId} {d : Dir} (h : d = .outward → w.known m = true) :
    (true && d == .outward && !w.known m) = false := by
  cases d
  · simp [h rfl]
  · rfl

theorem hydBlocks_eq_false {w : Work} (hl : w.lvl.phase = .idle) (ha : ∀ a, w.hyd.activity = some a → a.kind ≠ .stow) :
    w.hydBlocks = false := by
  have h : ¬ w.hydBlocks = true := by
    rw [Work.hydBlocks_eq_true]
    rintro (h | ⟨a, e, k⟩)
    · exact h hl
    · exact ha a e k
  simpa using h

/-- Settles O29: the operands, mode, start-up and presence, then each check of R32 with those before it passed. -/
theorem moveRefusedInOrder : Obligations.MoveRefusedInOrder := by
  unfold Obligations.MoveRefusedInOrder
  intro s tag target dir ht w no
  refine ⟨fun h => exec_move_of_eq ht tag (w.doMove_of_badTarget h dir),
    fun h hd => exec_move_of_eq ht tag (w.doMove_of_badDir h hd), ?_⟩
  rintro m d rfl rfl
  have hno {r : Reply} (h : w.moveRequest m d = (w, r)) : no r := exec_move_of_eq ht tag ((w.doMove_of m d).trans h)
  refine ⟨fun hm => hno (Work.moveRequest_of_unconfigured hm m d), fun hm hs => hno (Work.moveRequest_of_settling hm hs m d),
    fun hm hc hp => hno (Work.moveRequest_of_absent hm hc hp d), fun hm hc hf hh => ?_⟩
  have href {r : Reply} (h : w.claimRefusal m d true [moveClass m d] = some r) : no r :=
    hno (Work.moveRequest_of_refusal hm hc hf hh h)
  refine ⟨fun h => href (Work.claimRefusal_of_fenced h), fun h hx => href (Work.claimRefusal_of_faulted h hx),
    fun h hx => ⟨fun hd hk => href (Work.claimRefusal_of_unknown h hx (by simp [hd, hk])), fun hk => ?_⟩⟩
  have hsound := Work.claimRefusal_of_sound (cs := [moveClass m d]) h hx (position_serves hk)
  refine ⟨fun hb => href ?_, fun hl ha => ?_⟩
  · rw [hsound, Work.hydBlocks_eq_true.mpr hb]; rfl
  · rw [hydBlocks_eq_false hl ha] at hsound
    refine ⟨fun id hid => href ?_, fun hi hcf => href ?_⟩
    · rw [hsound, lowestBlocking_of_lowest hid]; rfl
    · rw [hsound, lowestBlocking_of_clear hi, hcf]; rfl

end Sys2Proof.Machine
end

