-- ==== Sys2Proof/Proofs/BusyRooms.lean ====
section
/-! PROOF. MOVE at a mover that holds something: renewal, hold-off, reversal, one-touch and retracts (R34..R37, R123, R124,
R129). -/

namespace Sys2Proof.Machine

set_option Elab.async false

open Sys2Proof.Safety

/-! ## Which table answers -/

theorem retract_of_none {w : Work} {m : MoverId} (h : m = awn → w.holdsRetract = none) :
    (if m = awn then w.holdsRetract else none) = none := by
  split
  · next e => exact h e
  · rfl

theorem Work.claimMove_of_retract {w : Work} {p : Purpose} (h : w.holdsRetract = some p) (src : Source) (d : Dir) :
    w.claimMove awn src d = w.contendRetract p src d := by
  simp only [Work.claimMove, if_true, h]

theorem Work.claimMove_of_heldOff {w : Work} {m : MoverId} {d : Dir} (hl : (w.mv m).learn = none)
    (hr : m = awn → w.holdsRetract = none) (hh : (w.mv m).holdOffDir = some d) (ho : w.holdsOneTouch m = false) :
    w.claimMove m .link d =
      (w.setMv m { w.mv m with holdOff := some (d, w.now + w.holdWindow) }, replyBusy .stopping) := by
  simp only [Work.claimMove, retract_of_none hr, hl, hh, ho]; rfl

/-- A mover that is not IDLE, and whose hold-off does not turn the MOVE away. -/
theorem Work.claimMove_of_busy {w : Work} {m : MoverId} {d : Dir} (hl : (w.mv m).learn = none)
    (hr : m = awn → w.holdsRetract = none) (ha : w.activity m ≠ .idle)
    (hh : (w.mv m).holdOffDir ≠ some d ∨ w.holdsOneTouch m = true) : w.claimMove m .link d = w.contend m .link d := by
  have hoff : ¬ (Source.link = .link ∧ (w.mv m).holdOffDir = some d ∧ w.holdsOneTouch m = false) := by
    rintro ⟨-, h, h'⟩
    rcases hh with hh | hh
    · exact hh h
    · simp [h'] at hh
  have hidle : ¬ (w.activity m = .idle ∧ (w.mv m).pendRev = none) := fun h => ha h.1
  simp only [Work.claimMove, retract_of_none hr, hl, if_neg hidle]
  exact if_neg fun h => hoff ⟨rfl, h.2⟩

/-! ## Contention -/

theorem Work.contend_of_oneTouch {w : Work} {m : MoverId} {c : Claim} (hc : (w.mv m).claim = some c)
    (hk : c.kind = .oneTouch) (d : Dir) : w.contend m .link d =
      if c.dir = d then (w, replyRenewed) else (w.haltMover m .stopped, replyDone) := by
  simp only [Work.contend, hc, hk]

theorem Work.contend_of_none {w : Work} {m : MoverId} (hc : (w.mv m).claim = none) (src : Source) (d : Dir) :
    w.contend m src d = w.contendStopping m src d := by
  simp only [Work.contend, hc]

/-- The table of R35 at a hold-to-run claim. -/
theorem Work.contend_of_hold {w : Work} {m : MoverId} {c : Claim} (hc : (w.mv m).claim = some c)
    (hk : c.kind = .move ∨ c.kind = .hold) (d : Dir) : w.contend m .link d =
      if c.dir = d ∧ c.source = .link then (w.renew m, replyRenewed)
      else if w.activity m = .retryWait then (w, replyBusy .stopping)
      else if c.dir = d then (w, replyHeld)
      else w.reverse m .link d := by
  rcases hk with hk | hk <;> simp only [Work.contend, hc, hk, if_true]

theorem Work.renew_eq {w : Work} {m : MoverId} {c : Claim} (hc : (w.mv m).claim = some c) : w.renew m =
    { w with movers := w.movers.set m { w.mv m with claim := some { c with lease := some (w.now + w.holdWindow) } },
             bud := { w.bud with queue := w.bud.queue.map fun (e : Queued) =>
               if e.target = moverTarget m then { e with lease := some (w.now + w.holdWindow) } else e } } := by
  simp only [Work.renew, hc]; rfl

/-! ## Reversals -/

theorem Work.reverse_of_stopOnly {w : Work} (h : w.stopDwell = false) (m : MoverId) (d : Dir) : w.reverse m .link d =
    ((w.haltMover m .reversed).setMv m { (w.haltMover m .reversed).mv m with
      holdOff := some (d, (w.haltMover m .reversed).now + (w.haltMover m .reversed).holdWindow) }, replyDone) := by
  simp only [Work.reverse, h]; rfl

theorem Work.setMv_setMv (w : Work) (m : MoverId) (x y : Mover) : (w.setMv m x).setMv m y = w.setMv m y := by
  simp [Work.setMv]

theorem Work.haltMover_of_not_queued {w : Work} {m : MoverId} (h : w.isQueued (moverTarget m) = false) (c : Cause) :
    w.haltMover m c = w.stopMover m c := by simp [Work.haltMover, h]

theorem Work.haltMover_of_queued {w : Work} {m : MoverId} (h : w.isQueued (moverTarget m) = true) (c : Cause) :
    w.haltMover m c = w.removeQueued m c := by simp [Work.haltMover, h]

theorem Work.reverse_of_stopDwell {w : Work} {m : MoverId} (h : w.stopDwell = true)
    (hq : w.isQueued (moverTarget m) = false) (d : Dir) : w.reverse m .link d =
      ((w.setMv m { w.mv m with
          run := (w.mv m).run.map fun (r : Run) => { r with dwellAfter := true },
          pendRev := some { source := .link, dir := d, lease := some (w.now + w.holdWindow) } }).haltMover m .reversed,
        replyAccepted) := by
  have hm : (w.markDwell m).setMv m { (w.markDwell m).mv m with
      pendRev := some { source := .link, dir := d, lease := (w.markDwell m).leaseFor .link } } =
      w.setMv m { w.mv m with
        run := (w.mv m).run.map fun (r : Run) => { r with dwellAfter := true },
        pendRev := some { source := .link, dir := d, lease := some (w.now + w.holdWindow) } } := by
    simp only [Work.markDwell, Work.mv_setMv_self, Work.setMv_setMv]; rfl
  simp only [Work.reverse, h, hq, hm, if_true, Bool.false_eq_true, if_false]
  exact congrArg (·, replyAccepted) (Work.haltMover_of_not_queued (w := w.setMv m _) hq .reversed).symm

theorem Work.reverse_of_queued {w : Work} {m : MoverId} (h : w.stopDwell = true)
    (hq : w.isQueued (moverTarget m) = true) (d : Dir) : w.reverse m .link d =
      ((w.haltMover m .reversed).judgeHead).claimFrom3 m .link d (some (w.now + w.holdWindow)) := by
  rw [Work.haltMover_of_queued hq]
  simp only [Work.reverse, h, hq]; rfl

theorem Work.holdsOneTouch_eq {w : Work} {m : MoverId} :
    w.holdsOneTouch m = true ↔ (w.mv m).claim.map (·.kind) = some .oneTouch := by
  simp only [Work.holdsOneTouch]
  cases (w.mv m).claim <;> simp

/-- Settles O30: which table answers, and its line. -/
theorem moveAtABusyRoom : Obligations.MoveAtABusyRoom := by
  unfold Obligations.MoveAtABusyRoom
  intro s tag m d ht w x till no hm hs hp
  have hno {z : Work} {r : Reply} (h : w.claimMove m .link d = (z, r)) : no z r :=
    exec_move_of_eq ht tag ((w.doMove_of m d).trans ((Work.moveRequest_of_present hm hs hp d).trans h))
  refine ⟨fun hl hr ha c hc hk => ?_, fun hl hr hh ha => ⟨fun c hc hk => ?_, fun hc hv => ?_, fun r hc hv => ?_⟩,
    fun hl hr hh ho => ?_, ?_⟩
  · have hone : w.holdsOneTouch m = true := Work.holdsOneTouch_eq.mpr (by rw [hc]; simp [hk])
    have hgo := (Work.claimMove_of_busy hl hr ha (.inr hone)).trans (Work.contend_of_oneTouch hc hk d)
    exact ⟨fun hd => hno (hgo.trans (if_pos hd)), fun hd => hno (hgo.trans (if_neg hd))⟩
  · have hgo := (Work.claimMove_of_busy hl hr ha (.inl hh)).trans (Work.contend_of_hold hc hk d)
    have hrev (hw : w.activity m ≠ .retryWait) (hd : c.dir ≠ d) : w.claimMove m .link d = w.reverse m .link d := by
      rw [hgo, if_neg fun h => hd h.1, if_neg hw, if_neg hd]
    refine ⟨fun hd hsrc => hno ?_, fun hn hw => hno ?_, fun hw hd hsrc => hno ?_, fun hw hd hmode => hno ?_,
      fun hw hd hmode hq => hno ?_, fun hw hd hmode hq => hno ?_⟩
    · rw [hgo, if_pos ⟨hd, hsrc⟩, Work.renew_eq hc]; rfl
    · rw [hgo, if_neg hn, if_pos hw]; rfl
    · rw [hgo, if_neg fun h => hsrc h.2, if_neg hw, if_pos hd]; rfl
    · rw [hrev hw hd, Work.reverse_of_stopOnly hmode]; rfl
    · rw [hrev hw hd, Work.reverse_of_stopDwell hmode hq]; rfl
    · rw [hrev hw hd, Work.reverse_of_queued hmode hq]
  · have hgo := (Work.claimMove_of_busy hl hr ha (.inl hh)).trans (Work.contend_of_none hc .link d)
    have hv' : (w.mv m).pendRev = none := hv
    exact hno (hgo.trans (by simp only [Work.contendStopping, hv']; rfl))
  · have hgo := (Work.claimMove_of_busy hl hr ha (.inl hh)).trans (Work.contend_of_none hc .link d)
    have hv' : (w.mv m).pendRev = some r := hv
    simp only [Work.contendStopping, hv'] at hgo
    exact ⟨fun hsrc hd => hno (hgo.trans (if_pos ⟨hsrc, hd, trivial⟩)),
      fun hn => hno (hgo.trans (if_neg fun h => hn ⟨h.1, h.2.1⟩))⟩
  · have hone : w.holdsOneTouch m = false := by
      simpa using fun h => ho (Work.holdsOneTouch_eq.mp h)
    exact hno (Work.claimMove_of_heldOff hl hr hh hone)
  · rintro rfl
    refine ⟨fun hw => hno (Work.claimMove_of_retract hw .link d), fun hw => ⟨?_, ?_, ?_⟩⟩
    · rintro rfl
      exact hno (Work.claimMove_of_retract hw .link .inward)
    · rintro rfl hpend
      have hpend' : (w.mv awn).pendRetract = none := hpend
      refine hno ((Work.claimMove_of_retract hw .link .outward).trans ?_)
      simp only [Work.contendRetract, Work.stopRetract, hpend']; rfl
    · rintro rfl hpend
      obtain ⟨p, hpend'⟩ := Option.isSome_iff_exists.mp hpend
      have hpend'' : (w.mv awn).pendRetract = some p := hpend'
      refine hno ((Work.claimMove_of_retract hw .link .outward).trans ?_)
      simp only [Work.contendRetract, Work.stopRetract, Work.dropRetract, hpend'']; rfl

end Sys2Proof.Machine
end

