-- ==== Sys2Proof/Proofs/Stops.lean ====
section
/-! PROOF. STOP (R39, R115, R125, R129), and a stop request at a mover (R6, R22, R38, R148). -/

namespace Sys2Proof.Machine

set_option Elab.async false

open Sys2Proof.Safety

/-! ## STOP -/

theorem exec_stop_of_eq {s : State} (ht : Takes s) (tag : Byte) {target : Byte} {z : Work} {r : Reply}
    (h : s.toActive.work.doStop target = (z, r)) : exec (.stop tag target) s = .next (answered s 0x11 tag z r) := by
  have he : exec (.stop tag target) s = .next (answered s 0x11 tag (s.toActive.work.doStop target).1
      (s.toActive.work.doStop target).2) := congrArg Host.Outcome.next (request_of_takes ht 0x11 tag _)
  rw [he, h]

theorem Work.stopAllOf_eq (w : Work) (m : MoverId) : w.stopAllOf m = released w m := rfl

theorem Work.stopRetract_stopped (w : Work) : w.stopRetract .stopped = withoutTravel w := by
  simp only [Work.stopRetract, withoutTravel]
  cases hp : (w.mv awn).pendRetract with
  | none => rfl
  | some p => simp only [Work.dropRetract, hp, Option.isSome_some, if_true]

theorem Work.stopAwning_of_none {w : Work} (h : w.holdsRetract = none) : w.stopAwning = (released w awn, false) := by
  simp only [Work.stopAwning, h, Work.stopAllOf_eq]

theorem Work.stopAwning_of_wind {w : Work} (h : w.holdsRetract = some .wind) : w.stopAwning = (w, true) := by
  simp only [Work.stopAwning, h]

theorem Work.stopAwning_of_travel {w : Work} (h : w.holdsRetract = some .travel) :
    w.stopAwning = (released (withoutTravel w) awn, false) := by
  simp only [Work.stopAwning, h, Work.stopAllOf_eq, Work.stopRetract_stopped]

theorem Work.stopAwningOfAll_of_none {w : Work} (h : w.holdsRetract = none) : w.stopAwningOfAll = released w awn := by
  simp only [Work.stopAwningOfAll, Work.stopAwning_of_none h, Bool.false_eq_true, if_false]

theorem Work.stopAwningOfAll_of_travel {w : Work} (h : w.holdsRetract = some .travel) :
    w.stopAwningOfAll = released (withoutTravel w) awn := by
  simp only [Work.stopAwningOfAll, Work.stopAwning_of_travel h, Bool.false_eq_true, if_false]

theorem Work.stopAwningOfAll_of_wind {w : Work} (h : w.holdsRetract = some .wind) :
    w.stopAwningOfAll = w.setMv awn { w.mv awn with pendRev := none, holdOff := none } := by
  simp only [Work.stopAwningOfAll, Work.stopAwning_of_wind h, if_true]

theorem Work.doStop_room {w : Work} {m : MoverId} (hp : (w.mv m).present = true) (hm : m ≠ awn) :
    w.doStop (BitVec.ofNat 8 m.val) = (released w m, replyDone) := by
  simp only [Work.doStop, decodeStop_of, hp, if_true, if_neg hm, Work.stopAllOf_eq]

theorem Work.doStop_awning {w : Work} (hp : (w.mv awn).present = true) :
    w.doStop (BitVec.ofNat 8 awn.val) = (w.stopAwning.1, if w.stopAwning.2 then replyBusy .wind else replyDone) := by
  simp only [Work.doStop, decodeStop_of, hp, if_true]

theorem Work.doStop_absent {w : Work} {m : MoverId} (hp : (w.mv m).present = false) :
    w.doStop (BitVec.ofNat 8 m.val) = (w, replyBadArgument) := by
  simp only [Work.doStop, decodeStop_of, hp]; rfl

theorem Work.doStop_all (w : Work) : w.doStop 0xFF =
    (((allRooms.foldl Work.stopAllOf w).stopAwningOfAll).cancelHyd, replyDone) := rfl

theorem stopRooms_eq (w : Work) :
    allRooms.foldl Work.stopAllOf w = released (released (released (released w 0) 1) 2) 3 := by
  simp only [allRooms, List.foldl_cons, List.foldl_nil, Work.stopAllOf_eq]

/-- STOP of ALL, from what it makes of the awning. -/
theorem Work.doStop_all_of_eq {w v z : Work} (hv : released (released (released (released w 0) 1) 2) 3 = v)
    (hz : v.stopAwningOfAll = z) : w.doStop 0xFF =
      (if z.lvl.phase ≠ .idle then z.endLevel .cancelled false else z.endActivity .cancelled false, { status := .done }) := by
  rw [Work.doStop_all, stopRooms_eq, hv, hz]; rfl

/-- Settles O32: a mover by its retract, ALL by that of the awning once the rooms are stopped. -/
theorem stopEndsWhatAMoverHolds : Obligations.StopEndsWhatAMoverHolds := by
  unfold Obligations.StopEndsWhatAMoverHolds
  intro s tag ht w gives
  have hgives {t : Byte} {z : Work} {r : Reply} (h : w.doStop t = (z, r)) : gives t z r := exec_stop_of_eq ht tag h
  refine ⟨fun m hp hr => hgives ?_, fun hp hr => hgives ?_, fun hp hr => hgives ?_, ?_,
    fun m hp => hgives (Work.doStop_absent hp), fun t h5 hf => hgives ?_⟩
  · by_cases hm : m = awn
    · subst hm
      rw [Work.doStop_awning hp, Work.stopAwning_of_none (hr rfl)]; rfl
    · exact Work.doStop_room hp hm
  · exact (Work.doStop_awning hp).trans (by rw [Work.stopAwning_of_wind hr]; rfl)
  · exact (Work.doStop_awning hp).trans (by rw [Work.stopAwning_of_travel hr]; rfl)
  · intro v all
    have hall {z : Work} (h : v.stopAwningOfAll = z) : all z := hgives (Work.doStop_all_of_eq rfl h)
    refine ⟨fun hr => hall ?_, fun hr => hall ?_, fun hr => hall ?_⟩
    · exact Work.stopAwningOfAll_of_none hr
    · exact Work.stopAwningOfAll_of_travel hr
    · exact Work.stopAwningOfAll_of_wind hr
  · simp only [Work.doStop, decodeStop_of_large h5 hf]; rfl

end Sys2Proof.Machine
end

