-- ==== Sys2Proof/Proofs/HandOver.lean ====
section
/-! PROOF. The hand-over of a motion to every channel of a mover (R4, R5, R50). -/

namespace Sys2Proof.Machine

set_option Elab.async false

open Sys2Proof.Safety

/-! ## One step for each channel of a list -/

theorem foldl_keep {α β : Type} (g : Work → β) {f : Work → α → Work} (h : ∀ w x, g (f w x) = g w) (l : List α) (w : Work) :
    g (l.foldl f w) = g w := by
  induction l generalizing w with
  | nil => rfl
  | cons a l ih => rw [List.foldl_cons, ih, h]

/-- Steps that rewrite one channel each, while an invariant stands that they keep. -/
theorem foldl_chans {I : Work → Prop} {f : Work → ChanId → Work} {h : ChanId → Channel → Channel}
    (hI : ∀ w c, I w → I (f w c)) (hself : ∀ w c, I w → (f w c).ch c = h c (w.ch c))
    (hne : ∀ w c d, d ≠ c → (f w c).ch d = w.ch d) {l : List ChanId} (hl : l.Nodup) {w : Work} (hw : I w) :
    (∀ c ∈ l, (l.foldl f w).ch c = h c (w.ch c)) ∧ ∀ c, c ∉ l → (l.foldl f w).ch c = w.ch c := by
  induction l generalizing w with
  | nil => exact ⟨fun c hc => by simp at hc, fun c _ => rfl⟩
  | cons a l ih =>
    obtain ⟨ha, hl⟩ := List.nodup_cons.mp hl
    obtain ⟨hin, hout⟩ := ih hl (hI w a hw)
    refine ⟨fun c hc => ?_, fun c hc => ?_⟩
    · rw [List.foldl_cons]
      rcases List.mem_cons.mp hc with rfl | hc
      · rw [hout c ha, hself w c hw]
      · rw [hin c hc, hne w a c (fun e => ha (e ▸ hc))]
    · rw [List.mem_cons, not_or] at hc
      rw [List.foldl_cons, hout c hc.2, hne w a c hc.1]

/-- What each step brings about for its channel and no other step undoes. -/
theorem foldl_reach {Q : ChanId → Work → Prop} {f : Work → ChanId → Work} (hown : ∀ w c, Q c (f w c))
    (hkeep : ∀ w c d, d ≠ c → Q c w → Q c (f w d)) {l : List ChanId} (hl : l.Nodup) (w : Work) :
    ∀ c ∈ l, Q c (l.foldl f w) := by
  have hstay : ∀ (l : List ChanId) (w : Work) (c : ChanId), c ∉ l → Q c w → Q c (l.foldl f w) := by
    intro l
    induction l with
    | nil => exact fun w c _ h => h
    | cons a l ih =>
      intro w c hc h
      rw [List.mem_cons, not_or] at hc
      exact ih _ c hc.2 (hkeep w c a (Ne.symm hc.1) h)
  induction l generalizing w with
  | nil => exact fun c hc => by simp at hc
  | cons a l ih =>
    obtain ⟨ha, hl⟩ := List.nodup_cons.mp hl
    intro c hc
    rcases List.mem_cons.mp hc with rfl | hc
    · exact hstay l _ c ha (hown w c)
    · exact ih hl _ c hc

/-! ## Checkpoints asked for -/

/-- A checkpoint of a channel waits for its writing, or is being written. -/
def Asked (w : Work) (c : ChanId) (k : Checkpoint) : Prop :=
  ∃ n, Job.checkpoint c k n ∈ w.store.jobs ∨ ∃ sv, w.store.busy = some sv ∧ sv.job = .checkpoint c k n

theorem Asked.of_store {w z : Work} {c : ChanId} {k : Checkpoint} (h : Asked w c k) (he : z.store = w.store) :
    Asked z c k := by
  rwa [Asked, he]

theorem Asked.serveNext {w : Work} {c : ChanId} {k : Checkpoint} (h : Asked w c k) : Asked w.serveNext c k := by
  cases hb : w.store.busy with
  | some sv => rwa [Work.serveNext_of_busy (by simp [hb])]
  | none =>
    obtain ⟨n, hn⟩ := h
    rw [Asked, Work.serveNext_store hb]
    refine ⟨n, ?_⟩
    rcases hn with hn | ⟨sv, he, -⟩
    · cases hj : w.store.jobs with
      | nil => simp [hj] at hn
      | cons a rest =>
        rw [hj] at hn
        rcases List.mem_cons.mp hn with hn | hn
        · exact .inr ⟨_, rfl, hn.symm⟩
        · exact .inl hn
    · simp [hb] at he

theorem mem_placeCheckpoint (c : ChanId) (job : Job) (jobs : List Job) : job ∈ placeCheckpoint c job jobs := by
  cases h : jobs.any (Job.isCheckpointOf c)
  · rw [placeCheckpoint_of_none h]
    exact List.mem_append_right _ (List.mem_singleton.mpr rfl)
  · obtain ⟨x, hx, hc⟩ := List.any_eq_true.mp h
    rw [placeCheckpoint_of_any h]
    exact List.mem_map.mpr ⟨x, hx, if_pos hc⟩

theorem Work.askCheckpoint_asked (w : Work) (c : ChanId) (b : Bool) :
    Asked (w.askCheckpoint c b) c ((w.ch c).checkpoint b) := by
  rw [Work.askCheckpoint]
  exact Asked.serveNext ⟨if b then (w.ch c).motion.map (·.serial) else none, .inl (mem_placeCheckpoint c _ w.store.jobs)⟩

theorem Asked.askCheckpoint {w : Work} {c d : ChanId} {k : Checkpoint} (h : Asked w c k) (hd : d ≠ c) (b : Bool) :
    Asked (w.askCheckpoint d b) c k := by
  obtain ⟨n, hn⟩ := h
  refine Asked.serveNext ⟨n, hn.imp_left fun hn => ?_⟩
  have hf : Job.checkpoint c k n ∈ (placeCheckpoint d (.checkpoint d ((w.ch d).checkpoint b)
      (if b then (w.ch d).motion.map (·.serial) else none)) w.store.jobs).filter (Job.isCheckpointOf c) := by
    rw [filter_placeCheckpoint_ne (isCheckpointOf_self ..) (Ne.symm hd)]
    exact List.mem_filter.mpr ⟨hn, isCheckpointOf_self ..⟩
  exact (List.mem_filter.mp hf).1

/-! ## The limit of a count -/

theorem upperLimit_congr {w z : Work} (hm : z.movers = w.movers) (hl : z.store.learned = w.store.learned)
    (hp : z.store.working = w.store.working) (c : ChanId) : z.upperLimit c = w.upperLimit c := by
  simp only [Work.upperLimit, Work.effStroke, Work.moverOf, Work.mv, Work.learned, Work.nominal, Work.profN, Work.prof,
    hm, hl, hp]

theorem Work.moverOf_setMv (w : Work) (m : MoverId) {x : Mover} (hc : x.chans = (w.mv m).chans)
    (hp : x.present = (w.mv m).present) (c : ChanId) : (w.setMv m x).moverOf c = w.moverOf c := by
  have h : ∀ n, ((w.setMv m x).mv n).present = (w.mv n).present ∧ ((w.setMv m x).mv n).chans = (w.mv n).chans := by
    intro n
    by_cases hn : n = m
    · subst hn; rw [Work.mv_setMv_self]; exact ⟨hp, hc⟩
    · rw [Work.mv_setMv_ne _ _ _ _ hn]; exact ⟨rfl, rfl⟩
  simp only [Work.moverOf, h]

/-- What the limit reads of a mover is its place in the room table and the stroke its learning run holds. -/
theorem Work.upperLimit_setMv (w : Work) (m : MoverId) {x : Mover} (hc : x.chans = (w.mv m).chans)
    (hp : x.present = (w.mv m).present) (hl : x.learn = (w.mv m).learn) (c : ChanId) :
    (w.setMv m x).upperLimit c = w.upperLimit c := by
  have h : ∀ n, ((w.setMv m x).mv n).learn = (w.mv n).learn := by
    intro n
    by_cases hn : n = m
    · subst hn; rw [Work.mv_setMv_self]; exact hl
    · rw [Work.mv_setMv_ne _ _ _ _ hn]
  simp only [Work.upperLimit, Work.effStroke, Work.moverOf_setMv w m hc hp, h]
  rfl

/-! ## The step of the hand-over -/

/-- The motion record a channel is handed. -/
def handed (x : Mover) (serial : Nat) (m : MoverId) (src : Source) (d : Dir) (p : MotionProfile) (c : ChanId) : Motion :=
  { serial := serial, target := m, source := src, dir := d, profile := p, partner := if x.paired then x.partnerOf c else none }

/-- One channel takes its motion record and asks for its checkpoint. -/
def Work.handChan (mo : ChanId → Motion) (w : Work) (c : ChanId) : Work :=
  Work.askCheckpoint (w.setCh c ((w.ch c).handOver (mo c) (w.upperLimit c))) c true

/-- The mover of a hand-over. -/
def Work.handMover (w : Work) (m : MoverId) (d : Dir) : Work :=
  ({ w with serial := w.serial + 1 } : Work).setMv m { w.mv m with run := some { dir := d }, dwellEnd := none }

theorem Work.handOver_eq (w : Work) (m : MoverId) (src : Source) (d : Dir) (p : MotionProfile) :
    w.handOver m src d p =
      (w.chansOf m).foldl (Work.handChan (handed (w.mv m) (w.serial + 1) m src d p)) (w.handMover m d) := rfl

section

variable (mo : ChanId → Motion) (w : Work) (c : ChanId)

theorem Work.askCheckpoint_frame (b : Bool) : ∃ st : Store, w.askCheckpoint c b = { w with store := st } ∧
    st.learned = w.store.learned ∧ st.working = w.store.working := by
  simp only [Work.askCheckpoint, Work.serveNext]
  split
  · exact ⟨_, rfl, rfl, rfl⟩
  · exact ⟨_, rfl, rfl, rfl⟩

theorem Work.askCheckpoint_ch (b : Bool) (d : ChanId) : (w.askCheckpoint c b).ch d = w.ch d := by
  obtain ⟨st, h, -⟩ := w.askCheckpoint_frame c b; rw [h]; rfl

theorem Work.handChan_self : (w.handChan mo c).ch c = (w.ch c).handOver (mo c) (w.upperLimit c) := by
  rw [Work.handChan, Work.askCheckpoint_ch, Work.ch_setCh_self]

theorem Work.handChan_ne {d : ChanId} (h : d ≠ c) : (w.handChan mo c).ch d = w.ch d := by
  rw [Work.handChan, Work.askCheckpoint_ch, Work.ch_setCh_ne _ _ _ _ h]

theorem Work.handChan_frame : ∃ (st : Store) (chans : Vector Channel 8), w.handChan mo c = { w with store := st, chans := chans } ∧
    st.learned = w.store.learned ∧ st.working = w.store.working := by
  obtain ⟨st, h, hl, hp⟩ := (w.setCh c ((w.ch c).handOver (mo c) (w.upperLimit c))).askCheckpoint_frame c true
  exact ⟨st, _, h, hl, hp⟩

theorem Work.handChan_movers : (w.handChan mo c).movers = w.movers := by
  obtain ⟨st, x, h, -⟩ := w.handChan_frame mo c; rw [h]

theorem Work.handChan_upperLimit (d : ChanId) : (w.handChan mo c).upperLimit d = w.upperLimit d := by
  obtain ⟨st, x, h, hl, hp⟩ := w.handChan_frame mo c
  rw [h]
  exact upperLimit_congr (w := w) (z := { w with store := st, chans := x }) rfl hl hp d

end

/-- What a hand-over leaves alone. -/
theorem Work.handOver_frame (w : Work) (m : MoverId) (src : Source) (d : Dir) (p : MotionProfile) :
    (w.handOver m src d p).movers = (w.handMover m d).movers ∧ (w.handOver m src d p).hyd = w.hyd ∧
      (w.handOver m src d p).jacks = w.jacks := by
  rw [Work.handOver_eq]
  refine ⟨foldl_keep (·.movers) (fun w c => w.handChan_movers _ c) _ _,
    (foldl_keep (·.hyd) (fun w c => ?_) _ _).trans rfl, (foldl_keep (·.jacks) (fun w c => ?_) _ _).trans rfl⟩ <;>
  · obtain ⟨st, x, h, -⟩ := w.handChan_frame _ c
    rw [h]

theorem Work.handOver_mv_self (w : Work) (m : MoverId) (src : Source) (d : Dir) (p : MotionProfile) :
    (w.handOver m src d p).mv m = { w.mv m with run := some { dir := d }, dwellEnd := none } := by
  obtain ⟨h, -⟩ := w.handOver_frame m src d p
  rw [Work.mv, h]
  exact Work.mv_setMv_self _ _ _

theorem Work.handOver_mv_ne (w : Work) {m n : MoverId} (hn : n ≠ m) (src : Source) (d : Dir) (p : MotionProfile) :
    (w.handOver m src d p).mv n = w.mv n := by
  obtain ⟨h, -⟩ := w.handOver_frame m src d p
  rw [Work.mv, h]
  exact Work.mv_setMv_ne _ _ _ _ hn

theorem Work.handOver_chans (w : Work) {m : MoverId} (hn : (w.chansOf m).Nodup) (src : Source) (d : Dir)
    (p : MotionProfile) :
    (∀ c ∈ w.chansOf m, (w.handOver m src d p).ch c =
      (w.ch c).handOver (handed (w.mv m) (w.serial + 1) m src d p c) (w.upperLimit c)) ∧
    ∀ c, c ∉ w.chansOf m → (w.handOver m src d p).ch c = w.ch c := by
  have hlim (c : ChanId) : (w.handMover m d).upperLimit c = w.upperLimit c :=
    (Work.upperLimit_setMv { w with serial := w.serial + 1 } m (x := { w.mv m with run := some { dir := d }, dwellEnd := none })
      rfl rfl rfl c).trans (upperLimit_congr (w := w) (z := { w with serial := w.serial + 1 }) rfl rfl rfl c)
  rw [Work.handOver_eq]
  exact foldl_chans (I := fun z => ∀ c, z.upperLimit c = w.upperLimit c)
    (h := fun c x => x.handOver (handed (w.mv m) (w.serial + 1) m src d p c) (w.upperLimit c))
    (fun z c hz e => (z.handChan_upperLimit _ c e).trans (hz e)) (fun z c hz => by rw [Work.handChan_self, hz])
    (fun z c e he => z.handChan_ne _ c he) hn hlim

theorem Work.handOver_asked (w : Work) {m : MoverId} (hn : (w.chansOf m).Nodup) (src : Source) (d : Dir)
    (p : MotionProfile) :
    ∀ c ∈ w.chansOf m, Asked (w.handOver m src d p) c (((w.handOver m src d p).ch c).checkpoint true) := by
  rw [Work.handOver_eq]
  refine foldl_reach (Q := fun c z => Asked z c ((z.ch c).checkpoint true)) (fun z c => ?_) (fun z c e he hz => ?_) hn _
  · rw [Work.handChan, Work.askCheckpoint_ch]
    exact Work.askCheckpoint_asked _ c true
  · rw [Work.handChan_ne _ _ _ (Ne.symm he)]
    have h : Asked (z.setCh e ((z.ch e).handOver (handed (w.mv m) (w.serial + 1) m src d p e) (z.upperLimit e))) c
        ((z.ch c).checkpoint true) := hz.of_store rfl
    exact h.askCheckpoint he true

/-! ## Partners -/

theorem Mover.partnerOf_of_other {x : Mover} {c e : ChanId} (hc : c ∈ x.chans) (he : e ∈ x.chans) (hne : e ≠ c) :
    (if x.paired then x.partnerOf c else none) = some e := by
  simp only [Mover.chans, List.mem_append, Option.mem_toList] at hc he
  rcases hc with hc | hc <;> rcases he with he | he
  · exact absurd (Option.some.inj (he.symm.trans hc)) hne
  · simp [Mover.paired, Mover.partnerOf, hc, he]
  · have : ¬ some e = some c := fun h => hne (Option.some.inj h)
    simp [Mover.paired, Mover.partnerOf, hc, he, hne]
  · exact absurd (Option.some.inj (he.symm.trans hc)) hne

theorem Mover.partnerOf_of_lone {x : Mover} {c : ChanId} (h : x.chans = [c]) :
    (if x.paired then x.partnerOf c else none) = none := by
  cases hf : x.follower with
  | none => simp [Mover.paired, hf]
  | some b =>
    cases hl : x.leader with
    | none => simp [Mover.paired, Mover.partnerOf, hf, hl]
    | some a => simp [Mover.chans, hf, hl] at h

/-- Settles O31: one step for each channel, none of which undoes another's. -/
theorem handOverStartsMotion : Obligations.HandOverStartsMotion := by
  unfold Obligations.HandOverStartsMotion
  intro w m src d p hn z
  obtain ⟨hin, hout⟩ := w.handOver_chans hn src d p
  obtain ⟨-, hhyd, hjacks⟩ := w.handOver_frame m src d p
  refine ⟨fun c hc => ?_, hout, fun n hne => w.handOver_mv_ne hne src d p, ?_, ?_, w.handOver_bud m src d p, hhyd, hjacks,
    w.handOver_events m src d p⟩
  · have hz : z.ch c = _ := hin c hc
    obtain ⟨n, hasked⟩ := w.handOver_asked hn src d p c hc
    refine ⟨?_, ?_, ?_, ?_, ?_, ?_, ?_, ?_, ⟨_, congrArg Channel.motion hz, rfl, rfl, rfl, rfl, rfl, rfl, rfl, rfl,
      fun e he hec => Mover.partnerOf_of_other hc he hec, fun hl => Mover.partnerOf_of_lone hl⟩, n, hasked⟩
    all_goals rw [hz]; rfl
  · have h : z.mv m = _ := w.handOver_mv_self m src d p
    rw [h]
  · have h : z.mv m = _ := w.handOver_mv_self m src d p
    rw [h]

end Sys2Proof.Machine
end

