-- ==== Sys2Proof/Proofs/Halting.lean ====
section
/-! PROOF. A stop request at a mover (R6, R22, R24, R38, R148). -/

namespace Sys2Proof.Machine

set_option Elab.async false

open Sys2Proof.Safety

/-! ## The end of a claim -/

theorem Work.setMv_mv (w : Work) (m : MoverId) : w.setMv m (w.mv m) = w := by
  have h : w.movers.set m.val (w.mv m) m.isLt = w.movers := Vector.set_getElem_self m.isLt
  show { w with movers := w.movers.set m.val (w.mv m) m.isLt } = w
  rw [h]

/-- A mover whose claim has ended. -/
def claimEnded (x : Mover) : Mover :=
  match x.claim with
  | none => x
  | some c =>
    if c.source = .panel ∧ c.kind ≠ .oneTouch ∧ (x.switch c.dir).pressed = true then
      { x with claim := none }.setSwitch c.dir { x.switch c.dir with spent := true }
    else { x with claim := none }

theorem Work.endClaim_eq (w : Work) (m : MoverId) : w.endClaim m = w.setMv m (claimEnded (w.mv m)) := by
  cases hc : (w.mv m).claim with
  | none => simp only [Work.endClaim, claimEnded, hc, Work.setMv_mv]
  | some c =>
    simp only [Work.endClaim, claimEnded, hc]
    split
    · rw [if_pos (by assumption)]; rfl
    · rw [if_neg (by assumption)]

theorem claimEnded_form (x : Mover) : ∃ a b, claimEnded x = { x with claim := none, swIn := a, swOut := b } := by
  simp only [claimEnded]
  split
  · exact ⟨x.swIn, x.swOut, by rw [← ‹x.claim = none›]⟩
  · split
    · cases (‹Claim› : Claim).dir
      · exact ⟨_, _, rfl⟩
      · exact ⟨_, _, rfl⟩
    · exact ⟨_, _, rfl⟩

section

variable (x : Mover)

@[simp] theorem claimEnded_claim : (claimEnded x).claim = none := by obtain ⟨a, b, h⟩ := claimEnded_form x; rw [h]

@[simp] theorem claimEnded_present : (claimEnded x).present = x.present := by
  obtain ⟨a, b, h⟩ := claimEnded_form x; rw [h]

@[simp] theorem claimEnded_leader : (claimEnded x).leader = x.leader := by
  obtain ⟨a, b, h⟩ := claimEnded_form x; rw [h]

@[simp] theorem claimEnded_chans : (claimEnded x).chans = x.chans := by
  obtain ⟨a, b, h⟩ := claimEnded_form x; rw [h]; rfl

@[simp] theorem claimEnded_run : (claimEnded x).run = x.run := by obtain ⟨a, b, h⟩ := claimEnded_form x; rw [h]

@[simp] theorem claimEnded_learn : (claimEnded x).learn = x.learn := by obtain ⟨a, b, h⟩ := claimEnded_form x; rw [h]

end

/-! ## A queued entry -/

/-- Rewriting channels, and nothing else. -/
theorem foldl_chans_only {f : Work → ChanId → Work} (h : ∀ w c, ∃ v, f w c = { w with chans := v }) (l : List ChanId)
    (w : Work) : ∃ v, l.foldl f w = { w with chans := v } := by
  induction l generalizing w with
  | nil => exact ⟨w.chans, rfl⟩
  | cons c l ih =>
    obtain ⟨v, hv⟩ := h w c
    obtain ⟨u, hu⟩ := ih (f w c)
    exact ⟨u, by rw [List.foldl_cons, hu, hv]⟩

theorem Work.setQueued_frame (w : Work) (m : MoverId) (q : Bool) : ∃ v, w.setQueued m q = { w with chans := v } := by
  refine foldl_chans_only (fun w c => ?_) _ _
  dsimp only
  split
  · split
    · exact ⟨_, rfl⟩
    · exact ⟨w.chans, rfl⟩
  · split
    · exact ⟨_, rfl⟩
    · exact ⟨w.chans, rfl⟩

/-- Neither the state QUEUED nor its end moves a count. -/
theorem Work.setQueued_pos (w : Work) (m : MoverId) (q : Bool) (c : ChanId) : ((w.setQueued m q).ch c).pos = (w.ch c).pos := by
  have hset (w : Work) (d : ChanId) (x : ChanState) : ((w.setCh d { w.ch d with state := x }).ch c).pos = (w.ch c).pos := by
    by_cases h : c = d
    · subst h; rw [Work.ch_setCh_self]
    · rw [Work.ch_setCh_ne _ _ _ _ h]
  refine foldl_keep (fun w => (w.ch c).pos) (fun w d => ?_) _ _
  dsimp only
  split <;> split
  · exact hset w d .queued
  · rfl
  · exact hset w d .idle
  · rfl

theorem Work.abortLearn_of_none {w : Work} {m : MoverId} (h : (w.mv m).learn = none) : w.abortLearn m = w := by
  simp only [Work.abortLearn, h]

/-- What the removal of a queued entry makes of the work. -/
theorem Work.removeQueued_of_queued {w : Work} {m : MoverId} (hq : w.isQueued (moverTarget m) = true)
    (hl : (w.mv m).learn = none) (cause : Cause) :
    (w.removeQueued m cause).bud = (w.dequeue (moverTarget m)).bud ∧ ((w.removeQueued m cause).mv m).claim = none ∧
      (w.removeQueued m cause).events = w.events ++ [.motionEnded m cause (w.leaderPos m) none] := by
  obtain ⟨v, hv⟩ := (w.dequeue (moverTarget m)).setQueued_frame m false
  have hpos (c : ChanId) := (w.dequeue (moverTarget m)).setQueued_pos m false c
  have habort : ((w.dequeue (moverTarget m)).setQueued m false).abortLearn m = (w.dequeue (moverTarget m)).setQueued m false :=
    Work.abortLearn_of_none (by rw [hv]; exact hl)
  have hlead : ((w.dequeue (moverTarget m)).setQueued m false).leaderPos m = w.leaderPos m := by
    have hm : (((w.dequeue (moverTarget m)).setQueued m false).mv m).leader = (w.mv m).leader := by rw [hv]; rfl
    simp only [Work.leaderPos, hm]
    cases (w.mv m).leader with
    | none => rfl
    | some c => exact hpos c
  simp only [Work.removeQueued, hq, if_true, habort, hlead, Work.endClaim_eq]
  refine ⟨?_, ?_, ?_⟩
  · rw [Work.setMv_bud, Work.emit_bud, hv]
  · rw [Work.mv_setMv_self, claimEnded_claim]
  · rw [Work.setMv_events, Work.emit_events, hv]; rfl

/-! ## A stop request at the channels -/

/-- A mover whose motion has its first cause. -/
def causeNoted (x : Mover) (cause : Cause) : Mover :=
  match x.run with
  | none => x
  | some r => { x with run := some { r with firstCause := some (r.firstCause.getD cause) } }

theorem Work.noteCause_eq {cause : Cause} (h : cause ≠ .seated) (w : Work) (m : MoverId) :
    w.noteCause m cause = w.setMv m (causeNoted (w.mv m) cause) := by
  cases hr : (w.mv m).run with
  | none => simp only [Work.noteCause, causeNoted, hr, Work.setMv_mv]
  | some r => simp only [Work.noteCause, causeNoted, hr, if_neg h]

theorem causeNoted_claim (x : Mover) (cause : Cause) : (causeNoted x cause).claim = x.claim := by
  cases h : x.run <;> simp [causeNoted, h]

theorem causeNoted_learn (x : Mover) (cause : Cause) : (causeNoted x cause).learn = x.learn := by
  cases h : x.run <;> simp [causeNoted, h]

theorem causeNoted_leader (x : Mover) (cause : Cause) : (causeNoted x cause).leader = x.leader := by
  cases h : x.run <;> simp [causeNoted, h]

theorem causeNoted_present (x : Mover) (cause : Cause) : (causeNoted x cause).present = x.present := by
  cases h : x.run <;> simp [causeNoted, h]

theorem causeNoted_chans (x : Mover) (cause : Cause) : (causeNoted x cause).chans = x.chans := by
  cases h : x.run <;> simp [causeNoted, h, Mover.chans]

/-- A mover told to stop: its claim ends and its motion has a cause. -/
def Work.told (w : Work) (m : MoverId) (cause : Cause) : Work := w.setMv m (causeNoted (claimEnded (w.mv m)) cause)

theorem Work.told_eq {cause : Cause} (h : cause ≠ .seated) (w : Work) (m : MoverId) :
    (w.endClaim m).noteCause m cause = w.told m cause := by
  rw [Work.endClaim_eq, Work.noteCause_eq h, Work.mv_setMv_self, Work.setMv_setMv, Work.told]

theorem Work.told_mv (w : Work) (m : MoverId) (cause : Cause) :
    (w.told m cause).mv m = causeNoted (claimEnded (w.mv m)) cause := Work.mv_setMv_self _ _ _

theorem Work.told_chansOf (w : Work) (m : MoverId) (cause : Cause) : (w.told m cause).chansOf m = w.chansOf m := by
  simp only [Work.chansOf, Work.told_mv, causeNoted_chans, claimEnded_chans]

theorem Work.told_moverOf (w : Work) (m : MoverId) (cause : Cause) (c : ChanId) :
    (w.told m cause).moverOf c = w.moverOf c :=
  w.moverOf_setMv m (by rw [causeNoted_chans, claimEnded_chans]) (by rw [causeNoted_present, claimEnded_present]) c

theorem Work.stopMover_of_stoppable {w : Work} {m : MoverId} {cause : Cause} (hl : (w.mv m).learn = none)
    (hc : cause ≠ .seated) (hs : w.anyCh m Channel.stoppable = true) :
    w.stopMover m cause = ((w.chansOf m).foldl (Work.stopChan · cause) (w.told m cause)).endIfAtRest m := by
  simp only [Work.stopMover, hl, Option.isSome_none, Bool.false_eq_true, if_false, hs, if_true, Work.told_eq hc,
    Work.told_chansOf]

theorem Work.stopMover_of_nothing {w : Work} {m : MoverId} {cause : Cause} (hl : (w.mv m).learn = none)
    (hs : w.anyCh m Channel.stoppable = false) : w.stopMover m cause = w := by
  simp [Work.stopMover, hl, hs]

theorem Channel.stopWith_of_stoppable {x : Channel} (h : x.stoppable = true) (cause : Cause) (now : Time) :
    ∃ mo, x.motion = some mo ∧ x.stopWith cause false now = Safety.stopping x mo cause .brake now := by
  simp only [Channel.stoppable, Bool.and_eq_true, Bool.not_eq_true'] at h
  obtain ⟨hm, hs⟩ := h
  obtain ⟨mo, hmo⟩ := Option.isSome_iff_exists.mp hm
  refine ⟨mo, hmo, ?_⟩
  simp only [Channel.stopWith, hmo, hs, Bool.false_eq_true, if_false]
  rfl

theorem Work.stopChan_of_not_starting {w : Work} {c : ChanId} (h : (w.ch c).starting = false) (cause : Cause) :
    w.stopChan cause c = w.setCh c ((w.ch c).stopWith cause false w.now) := by
  simp [Work.stopChan, h]

theorem Work.stopChan_of_starting {w : Work} {c : ChanId} (h : (w.ch c).starting = true) (cause : Cause) :
    w.stopChan cause c = ((w.setCh c ((w.ch c).endStarting cause)).recordEnd c none).askCheckpoint c false := by
  simp [Work.stopChan, h]

/-- Stop requests at channels none of which is in STARTING. -/
theorem stopChans_eq {cause : Cause} {l : List ChanId} (hl : l.Nodup) {w : Work} (hs : ∀ c ∈ l, (w.ch c).starting = false) :
    (∃ v, l.foldl (Work.stopChan · cause) w = { w with chans := v }) ∧
    (∀ c ∈ l, (l.foldl (Work.stopChan · cause) w).ch c = (w.ch c).stopWith cause false w.now) ∧
      ∀ c, c ∉ l → (l.foldl (Work.stopChan · cause) w).ch c = w.ch c := by
  induction l generalizing w with
  | nil => exact ⟨⟨w.chans, rfl⟩, fun c hc => by simp at hc, fun c _ => rfl⟩
  | cons a l ih =>
    obtain ⟨ha, hl⟩ := List.nodup_cons.mp hl
    rw [List.foldl_cons, Work.stopChan_of_not_starting (hs a List.mem_cons_self)]
    have hne (c : ChanId) (h : c ≠ a) := Work.ch_setCh_ne w a c ((w.ch a).stopWith cause false w.now) h
    have hmem (c : ChanId) (hc : c ∈ l) : c ≠ a := fun e => ha (e ▸ hc)
    obtain ⟨⟨v, hv⟩, hin, hout⟩ := ih hl (w := w.setCh a ((w.ch a).stopWith cause false w.now)) fun c hc => by
      rw [hne c (hmem c hc)]; exact hs c (List.mem_cons_of_mem _ hc)
    refine ⟨⟨v, hv⟩, fun c hc => ?_, fun c hc => ?_⟩
    · rcases List.mem_cons.mp hc with rfl | hc
      · rw [hout c ha, Work.ch_setCh_self]
      · rw [hin c hc, hne c (hmem c hc)]; rfl
    · rw [List.mem_cons, not_or] at hc
      rw [hout c hc.2, hne c hc.1]

/-! ## The end of a motion -/

/-- A mover without its motion. -/
def motionEnded (x : Mover) : Mover := { claimEnded x with run := none, sync := if x.sync = .racked then .racked else .off }

/-- The end of a room's motion after which nothing waits. -/
theorem Work.closeMotion_room {w : Work} {m : MoverId} (hm : m ≠ awn) {r : Run} (hr : r.dwellAfter = false) (cause : Cause) :
    w.closeMotion m r cause = ((w.setMv m (motionEnded (w.mv m))).emit (.motionEnded m cause
      (r.leaderEnd.getD (w.leaderPos m, none)).1 (r.leaderEnd.getD (w.leaderPos m, none)).2)).release (moverTarget m) := by
  have hsync : (claimEnded (w.mv m)).sync = (w.mv m).sync := by obtain ⟨a, b, h⟩ := claimEnded_form (w.mv m); rw [h]
  simp only [Work.closeMotion, Work.afterMotion, if_neg hm, hr, Bool.false_eq_true, if_false, Work.endClaim_eq,
    Work.mv_setMv_self, Work.setMv_setMv, motionEnded, hsync]

theorem Work.moverEnd_of_cause {w : Work} {m : MoverId} {r : Run} (hl : (w.mv m).learn = none) (hr : (w.mv m).run = some r) :
    w.moverEnd m = w.closeMotion m r (r.firstCause.getD .seated) := by
  simp only [Work.moverEnd, hr, hl]

/-- What the end of a motion in STARTING leaves in its channel, and the run its mover then holds. -/
theorem Work.stopChan_lone {w : Work} {m : MoverId} {c : ChanId} {r : Run} (hmo : w.moverOf c = some m)
    (hlead : (w.mv m).leader = some c) (hr : (w.mv m).run = some r) (hs : (w.ch c).starting = true) (cause : Cause) :
    ∃ st : Store, w.stopChan cause c =
      { (w.setCh c ((w.ch c).endStarting cause)).setMv m { w.mv m with
          run := some { r with leaderEnd := some (((w.ch c).endStarting cause).pos, none) } } with store := st } := by
  have hrec : (w.setCh c ((w.ch c).endStarting cause)).recordEnd c none =
      (w.setCh c ((w.ch c).endStarting cause)).setMv m { w.mv m with
        run := some { r with leaderEnd := some (((w.ch c).endStarting cause).pos, none) } } := by
    have h : (w.setCh c ((w.ch c).endStarting cause)).moverOf c = some m := hmo
    have hm : (w.setCh c ((w.ch c).endStarting cause)).mv m = w.mv m := rfl
    simp only [Work.recordEnd, h, hm, hr, hlead, if_true, Work.ch_setCh_self]
  rw [Work.stopChan_of_starting hs, hrec]
  obtain ⟨st, hst, -⟩ := Work.askCheckpoint_frame ((w.setCh c ((w.ch c).endStarting cause)).setMv m { w.mv m with
        run := some { r with leaderEnd := some (((w.ch c).endStarting cause).pos, none) } }) c false
  exact ⟨st, hst⟩

/-- The end of a mover whose one channel has come to rest. -/
theorem Work.endIfAtRest_lone {w : Work} {m : MoverId} {c : ChanId} {r : Run} {cause : Cause} {p : Int × Option Int}
    (hm : m ≠ awn) (hch : w.chansOf m = [c]) (hrest : (w.ch c).motion = none) (hl : (w.mv m).learn = none)
    (hr : (w.mv m).run = some r) (hd : r.dwellAfter = false) (hc : r.firstCause = some cause) (he : r.leaderEnd = some p) :
    w.endIfAtRest m =
      ((w.setMv m (motionEnded (w.mv m))).emit (.motionEnded m cause p.1 p.2)).release (moverTarget m) := by
  have hat : w.atRest m = true := by simp [Work.atRest, Work.anyCh, hch, hrest]
  simp only [Work.endIfAtRest, hat, if_true, Work.moverEnd_of_cause hl hr, hc, Option.getD_some, Work.closeMotion_room hm hd,
    he]

theorem Channel.endStarting_of_not_fault {cause : Cause} (h : cause ≠ .fault) (x : Channel) :
    x.endStarting cause = { x with motion := none, duty := 0, bridge := .brake, retry := 0, state := .idle } := by
  simp only [Channel.endStarting, if_neg h]

theorem Channel.stoppable_of_starting {x : Channel} (h : x.starting = true) : x.stoppable = true := by
  cases hm : x.motion with
  | none => simp [Channel.starting, hm] at h
  | some mo =>
    simp only [Channel.starting, hm, Bool.and_eq_true, beq_iff_eq] at h
    simp [Channel.stoppable, Channel.stopping, hm, h.2]

/-- Settles O33: the entry of the queue, the channels in motion one by one, or the end of a motion in STARTING. -/
theorem stopRequestEndsMotion : Obligations.StopRequestEndsMotion := by
  unfold Obligations.StopRequestEndsMotion
  intro w m cause hl hseat hfault z
  refine ⟨fun hq => ?_, fun hq hne hnd hs => ?_, fun c r hq hlone hst hm hr hdw hfc => ?_, fun hq hs => ?_⟩
  · have hz : z = w.removeQueued m cause := Work.haltMover_of_queued hq cause
    obtain ⟨hbud, hclaim, hev⟩ := Work.removeQueued_of_queued hq hl cause
    rw [hz]
    exact ⟨by rw [hbud]; rfl, by rw [hbud]; rfl, hclaim, hev⟩
  · obtain ⟨c0, l0, hc0⟩ := List.exists_cons_of_ne_nil hne
    have hmem0 : c0 ∈ w.chansOf m := hc0 ▸ List.mem_cons_self
    have hany : w.anyCh m Channel.stoppable = true := List.any_eq_true.mpr ⟨c0, hmem0, (hs c0 hmem0).1⟩
    obtain ⟨⟨v, hv⟩, hin, hout⟩ := stopChans_eq (cause := cause) hnd (w := w.told m cause) fun c hc => (hs c hc).2
    have hmove : ∀ c ∈ w.chansOf m, ∃ mo, (w.ch c).motion = some mo ∧
        ((w.chansOf m).foldl (Work.stopChan · cause) (w.told m cause)).ch c = stopping (w.ch c) mo cause .brake w.now := by
      intro c hc
      obtain ⟨mo, hmo, he⟩ := Channel.stopWith_of_stoppable (hs c hc).1 cause w.now
      exact ⟨mo, hmo, (hin c hc).trans he⟩
    have hrest : ((w.chansOf m).foldl (Work.stopChan · cause) (w.told m cause)).atRest m = false := by
      obtain ⟨mo, -, h0⟩ := hmove c0 hmem0
      have hch : ((w.chansOf m).foldl (Work.stopChan · cause) (w.told m cause)).chansOf m = w.chansOf m := by
        rw [hv]; exact w.told_chansOf m cause
      rw [Work.atRest, Work.anyCh, hch, Bool.not_eq_false', List.any_eq_true]
      exact ⟨c0, hmem0, by rw [h0]; rfl⟩
    have hz : z = (w.chansOf m).foldl (Work.stopChan · cause) (w.told m cause) := by
      refine (Work.haltMover_of_not_queued hq cause).trans ((Work.stopMover_of_stoppable hl hseat hany).trans ?_)
      rw [Work.endIfAtRest, hrest]; rfl
    refine ⟨hz ▸ hmove, hz ▸ hout, ?_, ?_, ?_⟩
    · rw [hz, hv]
      exact (congrArg Mover.claim (w.told_mv m cause)).trans (by rw [causeNoted_claim, claimEnded_claim])
    · rw [hz, hv]; rfl
    · rw [hz, hv]; rfl
  · obtain ⟨hlead, hfol, hmo⟩ := hlone
    have hch : w.chansOf m = [c] := by simp [Work.chansOf, Mover.chans, hlead, hfol]
    have hany : w.anyCh m Channel.stoppable = true :=
      List.any_eq_true.mpr ⟨c, hch ▸ List.mem_singleton_self c, Channel.stoppable_of_starting hst⟩
    have hrun : ((w.told m cause).mv m).run = some { r with firstCause := some cause } := by
      simp [Work.told_mv, causeNoted, hr, hfc]
    obtain ⟨st, hstop⟩ := Work.stopChan_lone ((w.told_moverOf m cause c).trans hmo)
      (by rw [Work.told_mv, causeNoted_leader, claimEnded_leader, hlead]) hrun hst cause
    have hz : z = ((w.told m cause).stopChan cause c).endIfAtRest m := by
      refine (Work.haltMover_of_not_queued hq cause).trans ((Work.stopMover_of_stoppable hl hseat hany).trans ?_)
      rw [hch]; rfl
    have hmv : ((w.told m cause).stopChan cause c).mv m = { (w.told m cause).mv m with
        run := some { r with firstCause := some cause, leaderEnd := some ((w.ch c).pos, none) } } := by
      rw [hstop]
      refine (Work.mv_setMv_self _ _ _).trans ?_
      rw [Channel.endStarting_of_not_fault hfault]; rfl
    have hself : ((w.told m cause).stopChan cause c).ch c =
        { w.ch c with motion := none, duty := 0, bridge := .brake, retry := 0, state := .idle } := by
      rw [hstop]
      exact (Work.ch_setCh_self _ _ _).trans (Channel.endStarting_of_not_fault hfault _)
    have hend := Work.endIfAtRest_lone (w := (w.told m cause).stopChan cause c) hm
      (by simp only [Work.chansOf, hmv]; exact (w.told_chansOf m cause).trans hch) (by rw [hself])
      (by rw [hmv]; exact (congrArg Mover.learn (w.told_mv m cause)).trans (by rw [causeNoted_learn, claimEnded_learn, hl]))
      (congrArg Mover.run hmv) hdw rfl rfl
    refine ⟨?_, ?_, ?_, ?_, ?_, ?_⟩ <;> rw [hz, hend]
    · exact hself
    · exact (congrArg Mover.claim (Work.mv_setMv_self _ _ _)).trans (claimEnded_claim _)
    · exact congrArg Mover.run (Work.mv_setMv_self _ _ _)
    · rfl
    · rw [hstop]; rfl
    · rw [hstop]; rfl
  · exact (Work.haltMover_of_not_queued hq cause).trans (Work.stopMover_of_nothing hl hs)

end Sys2Proof.Machine
end

