-- ==== Sys2Proof/Proofs/Resets.lean ====
section
/-! PROOF. The reset commands (R190, R191, R192, R193). -/

namespace Sys2Proof.Machine

set_option Elab.async false

open Sys2Proof.Safety

theorem Record.cut_unsound (vals : List Int) : (Record.cut vals).sound = false := by
  have h (c : BitVec 16) : (~~~ c == c) = false := by
    rw [beq_eq_false_iff_ne]
    intro e
    have h0 : (~~~ c).getLsbD 0 = c.getLsbD 0 := by rw [e]
    simp at h0
  exact h _

theorem readCheckpoint_cut (r : Option Record) : readCheckpoint (cutRecord r) = none := by
  cases r with
  | none => rfl
  | some r =>
    simp only [readCheckpoint, cutRecord, Option.map_some, Record.cut_unsound, Bool.false_and, Bool.false_eq_true, if_false]
    split <;> rfl

theorem readLearned_cut (r : Option Record) : readLearned (cutRecord r) = none := by
  cases r with
  | none => rfl
  | some r =>
    simp only [readLearned, cutRecord, Option.map_some, Record.cut_unsound, Bool.false_and, Bool.false_eq_true, if_false]
    split <;> rfl

theorem checkpoints_set_self (v : Vector (Option Record) 8) (c : ChanId) (r : Option Record) :
    (v.set c r c.isLt)[c] = r := Vector.getElem_set_self c.isLt

section

variable (st : Store) (k i : Fin 6)

theorem Store.cutCommit_before (h : i < k) : (st.cutCommit k).sections[i] = some (Record.fresh (sectionVals st.working i)) := by
  simp [Store.cutCommit, h]

theorem Store.cutCommit_at : (st.cutCommit k).sections[k] = some (Record.cut (sectionVals st.working k)) := by
  simp [Store.cutCommit]

theorem Store.cutCommit_after (h : k < i) : (st.cutCommit k).sections[i] = st.sections[i] := by
  simp [Store.cutCommit, not_lt.mpr h.le, h.ne']

end

theorem Store.cut_of_idle {st : Store} (h : st.busy = none) (n : Nat) : st.cut n = st := by simp only [Store.cut, h]

/-- Every block at its reset values. -/
theorem resetTo_fresh (s : State) (stage : Stage) (cause : ResetCause) :
    (∀ c, (s.resetTo stage cause).work.ch c = {}) ∧ (∀ m, (s.resetTo stage cause).work.mv m = {}) ∧
      ∀ j, (s.resetTo stage cause).work.jk j = {} :=
  ⟨fun _ => Vector.getElem_replicate .., fun _ => Vector.getElem_replicate .., fun _ => Vector.getElem_replicate ..⟩

/-- Storage after a reset. -/
theorem storage_of_reset {s t : State}
    (h : exec .powerOnReset s = .next t ∨ exec .resetPinAsserted s = .next t ∨
      s.work.pins.reset = true ∧ exec .resetPinReleased s = .next t ∨
      s.work.awake = true ∧ ∃ tag, exec (.restart tag) s = .next t) :
    t.work.store = (s.work.store.cut s.work.free).afterReset := by
  rcases h with h | h | ⟨hp, h⟩ | ⟨ha, tag, h⟩
  · cases h; rfl
  · cases h; rfl
  · have he : exec .resetPinReleased s = .next ((s.setResetPin false).resetTo .loading .pin) :=
      congrArg Host.Outcome.next (if_pos hp)
    cases he.symm.trans h; rfl
  · have he : exec (.restart tag) s = .next (s.resetTo s.work.pins.resetStage .restart) :=
      congrArg Host.Outcome.next (if_pos ha)
    cases he.symm.trans h; rfl

/-- Settles O12: each reset is `resetTo`; what it cuts does not pass its check. -/
theorem resetCommandsStartOver : Obligations.ResetCommandsStartOver := by
  unfold Obligations.ResetCommandsStartOver
  refine ⟨?_, ?_⟩
  · intro s fresh
    have hfresh (s' : State) (stage : Stage) (cause : ResetCause) (hp : s'.pending = s.pending)
        (hst : s'.work.store = s.work.store) : fresh (s'.resetTo stage cause) stage cause := by
      obtain ⟨hch, hmv, hjk⟩ := resetTo_fresh s' stage cause
      refine ⟨hp, rfl, rfl, rfl, rfl, rfl, rfl, rfl, rfl, rfl, rfl, rfl, rfl, rfl, rfl, rfl, rfl, rfl, rfl, rfl, rfl, rfl, rfl,
        rfl, rfl, rfl, rfl, hch, hmv, hjk, fun hb => ?_⟩
      have hcut : s'.work.store.cut s'.work.free = s.work.store := by
        rw [hst]; exact Store.cut_of_idle hb _
      have hstore : (s'.resetTo stage cause).work.store = s.work.store.afterReset := congrArg Store.afterReset hcut
      rw [hstore]
      exact ⟨rfl, rfl, rfl⟩
    refine ⟨⟨_, rfl, hfresh s _ _ rfl rfl⟩, ⟨_, rfl, hfresh (s.setResetPin true) _ _ rfl rfl, rfl⟩, fun hp => ?_,
      fun ha hp tag => ?_⟩
    · exact ⟨(s.setResetPin false).resetTo .loading .pin, congrArg Host.Outcome.next (if_pos hp), hfresh _ _ _ rfl rfl, rfl⟩
    · have hstage : s.work.pins.resetStage = .loading := by simp [Pins.resetStage, hp]
      refine ⟨s.resetTo .loading .restart, ?_, hfresh _ _ _ rfl rfl⟩
      exact congrArg Host.Outcome.next ((if_pos ha).trans (by rw [hstage]))
  · intro s t sv h hsv st st'
    have hstore : st' = (st.cut s.work.free).afterReset := storage_of_reset h
    refine ⟨fun c cp n hj => ?_, fun hj => ?_, fun hj => ?_⟩
    · have hcut : st.cut s.work.free = { st with checkpoints := st.checkpoints.set c (cutRecord sv.record) } := by
        simp only [Store.cut, st, hsv, hj]
      rw [hstore, hcut]
      refine ⟨?_, fun d hd => ?_, rfl, rfl⟩
      · exact (congrArg readCheckpoint (checkpoints_set_self st.checkpoints c (cutRecord sv.record))).trans (readCheckpoint_cut _)
      · exact Vector.getElem_set_ne c.isLt d.isLt fun e => hd (Fin.ext e.symm)
    · have hcut : st.cut s.work.free = { st with learnedRec := cutRecord sv.record } := by
        simp only [Store.cut, st, hsv, hj]
      rw [hstore, hcut]
      exact ⟨readLearned_cut _, rfl, rfl⟩
    · have hcut : st.cut s.work.free = st.cutCommit (Config.freeCommitSection s.work.free) := by
        simp only [Store.cut, st, hsv, hj]
      rw [hstore, hcut]
      exact ⟨rfl, rfl, Config.freeCommitSection s.work.free,
        (congrArg (sectionValid _) (st.cutCommit_at _)).trans (sectionValid_cut _ _),
        fun i hi => st.cutCommit_before _ i hi, fun i hi => st.cutCommit_after _ i hi⟩

end Sys2Proof.Machine
end

