-- ==== Sys2Proof/Proofs/StartUp.lean ====
section
/-! PROOF. The load and the end of the start-up (R1, R68, R175, R187, R192). -/

namespace Sys2Proof.Machine

set_option Elab.async false

open Sys2Proof.Safety

/-! ## The load -/

theorem badSections_zero (secs : Vector (Option Record) 6) :
    (badSections secs).getLsbD 0 = !sectionValid 0 secs[(0 : Fin 6)] := by
  have hbit (b : BitVec 7) (k : Fin 6) (hk : k ≠ 0) (p : Bool) :
      (if p then b else b ||| (1 <<< k.val : BitVec 7)).getLsbD 0 = b.getLsbD 0 := by
    revert b k p; decide +kernel
  simp only [badSections, allSections, List.foldl_cons, List.foldl_nil]
  rw [hbit _ 5 (by decide), hbit _ 4 (by decide), hbit _ 3 (by decide), hbit _ 2 (by decide), hbit _ 1 (by decide)]
  cases sectionValid 0 secs[(0 : Fin 6)] <;> rfl

theorem Store.load_note_zero (st : Store) : st.load.note.getLsbD 0 = !sectionValid 0 st.sections[(0 : Fin 6)] := by
  rw [← badSections_zero]
  simp only [Store.load]
  split
  · rfl
  · simp

/-- What the restoring of the checkpoints makes of each channel, and what it leaves. -/
theorem restoreChans (w : Work) :
    (∃ v, allChans.foldl Work.restoreChan w = { w with chans := v }) ∧
      ∀ c, (allChans.foldl Work.restoreChan w).ch c =
        (w.ch c).restore (readCheckpoint w.store.checkpoints[c]) (w.upperLimit c) := by
  have hself (z : Work) (c : ChanId) (hz : z.movers = w.movers ∧ z.store = w.store) :
      (z.restoreChan c).ch c = (z.ch c).restore (readCheckpoint w.store.checkpoints[c]) (w.upperLimit c) := by
    obtain ⟨hm, hs⟩ := hz
    rw [Work.restoreChan, Work.ch_setCh_self, upperLimit_congr hm (by rw [hs]) (by rw [hs]), hs]
  refine ⟨foldl_chans_only (fun z c => ⟨_, rfl⟩) _ _, fun c => ?_⟩
  obtain ⟨hin, -⟩ := foldl_chans (f := Work.restoreChan) (I := fun z => z.movers = w.movers ∧ z.store = w.store)
    (h := fun c x => x.restore (readCheckpoint w.store.checkpoints[c]) (w.upperLimit c))
    (fun z c hz => hz) hself (fun z c d hd => Work.ch_setCh_ne _ _ _ _ hd) (l := allChans) (by decide) (w := w) ⟨rfl, rfl⟩
  exact hin c (by revert c; decide)

theorem Channel.restore_form (x : Channel) (k : Option Checkpoint) (limit : Int) :
    ∃ a b e, x.restore k limit = { x with pos := a, known := b, seat := e } := by
  cases k with
  | none => exact ⟨x.pos, x.known, x.seat, rfl⟩
  | some k =>
    simp only [Channel.restore]
    split
    · exact ⟨_, _, _, rfl⟩
    · exact ⟨x.pos, x.known, x.seat, rfl⟩

theorem Channel.restore_of_atRest {x : Channel} (hx : x.role ≠ .unused) {k : Checkpoint} (hk : k.inMotion = false)
    (limit : Int) : x.restore (some k) limit = { x with pos := min k.pos limit, known := k.known, seat := k.seat } := by
  have hu : x.used = true := by simp [Channel.used, hx]
  simp only [Channel.restore, hu, hk, Bool.not_false, Bool.and_self, if_true]

theorem Channel.restore_of_other {x : Channel} {r : Option Checkpoint}
    (h : r = none ∨ ∃ k, r = some k ∧ k.inMotion = true) (limit : Int) : x.restore r limit = x := by
  rcases h with rfl | ⟨k, rfl, hk⟩
  · rfl
  · simp only [Channel.restore, hk, Bool.not_true, Bool.and_false, Bool.false_eq_true, if_false]

/-- The inhibit set derived anew, and nothing else. -/
def Work.withInh (w : Work) : Work := { w with inh := w.deriveInh }

theorem Work.load_eq (w : Work) : w.load = (allChans.foldl Work.restoreChan w.formed).withInh := rfl

/-- The blocks after the load, from those formed. -/
theorem Work.load_form (w : Work) : ∃ v, w.load = ({ w.formed with chans := v } : Work).withInh := by
  obtain ⟨⟨v, hv⟩, -⟩ := restoreChans w.formed
  exact ⟨v, by rw [Work.load_eq, hv]⟩

theorem Work.withInh_ch (w : Work) (c : ChanId) : w.withInh.ch c = w.ch c := rfl

theorem Work.withInh_inh (w : Work) : w.withInh.inh = w.withInh.deriveInh := rfl

theorem Work.load_inh (w : Work) : w.load.inh = w.load.deriveInh := by
  rw [Work.load_eq, Work.withInh_inh]

theorem Work.load_ch (w : Work) (c : ChanId) :
    w.load.ch c = (w.formed.ch c).restore (readCheckpoint w.formed.store.checkpoints[c]) (w.formed.upperLimit c) := by
  obtain ⟨-, hch⟩ := restoreChans w.formed
  rw [Work.load_eq, Work.withInh_ch, hch]

theorem Work.formed_ch (w : Work) (c : ChanId) : w.formed.ch c = w.store.load.working.channel c :=
  Vector.getElem_ofFn ..

/-- A channel after the load holds its record of reset, but for what a checkpoint gives. -/
theorem Work.load_ch_form (w : Work) (c : ChanId) :
    ∃ a b e, w.load.ch c = { w.store.load.working.channel c with pos := a, known := b, seat := e } := by
  rw [Work.load_ch, Work.formed_ch]
  exact Channel.restore_form ..

theorem Work.withInh_upperLimit (w : Work) (v : Vector Channel 8) (c : ChanId) :
    ({ w with chans := v } : Work).withInh.upperLimit c = w.upperLimit c :=
  upperLimit_congr (w := w) (z := ({ w with chans := v } : Work).withInh) rfl rfl rfl c

theorem Work.load_upperLimit (w : Work) (c : ChanId) : w.load.upperLimit c = w.formed.upperLimit c := by
  obtain ⟨v, h⟩ := w.load_form
  rw [h, Work.withInh_upperLimit]

/-! ## The end of the start-up -/

theorem finish_coherent_of_complete {s : State} {w : Work} (r : Option Frame) (h : w.startupCheck.stage = .complete) :
    Coherent (finish s w r) := by
  have hst : (finishWork s w).stage = .complete := (congrArg Still.stage (finishWork_still s w)).trans h
  have hready : finishReady s w = (finishWork s w).nextReady s.ready := if_pos hst
  obtain ⟨hi, hd⟩ := finishWork_settled s w
  refine coherent_of_sight (s := finishCore s w) ?_ (finish_sight s w r) (finish_ready s w r)
  rw [finishCore, hready]
  generalize finishWork s w = z at hst hi hd
  exact ⟨⟨hi, hd, rfl⟩, postureTrue_of_nextReady s.ready hst rfl⟩

theorem finish_stage (s : State) (w : Work) (r : Option Frame) : (finish s w r).work.stage = w.startupCheck.stage := by
  rw [finish_eq, State.standbyCheck_stage]
  refine Eq.trans ?_ (congrArg Still.stage (finishWork_still s w))
  show ((finishWork s w).returnOnMotion _).stage = _
  simp only [Work.returnOnMotion]
  split <;> rfl

theorem finish_posture_of_complete {s : State} {w : Work} (r : Option Frame) (h : w.startupCheck.stage = .complete) :
    (finish s w r).ready.travel = (finish s w r).work.travel ∧
      (finish s w r).ready.travelOk = ((finish s w r).work.travel == .travelReady) ∧
      (finish s w r).ready.hazard = hazardOf (finish s w r).work.inh (finish s w r).work.travel := by
  have hpost := (finish_coherent_of_complete (s := s) r h).2
  rw [PostureTrue, if_pos ((finish_stage s w r).trans h)] at hpost
  exact ⟨hpost.1, hpost.2.1, hpost.2.2.1⟩

theorem Work.settleJacks_settled (w : Work) : w.settleJacks.jacksSettled = true := by
  refine List.all_eq_true.mpr fun j _ => ?_
  have hj : w.settleJacks.jk j = if w.jackPresent j then (w.jk j).settle else w.jk j := Vector.getElem_ofFn ..
  have hp : w.settleJacks.jackPresent j = w.jackPresent j := rfl
  rw [hj, hp]
  cases w.jackPresent j <;> rfl

theorem Work.startupCheck_complete {w : Work} (hs : w.stage = .settling) (hj : w.jacksSettled = true)
    (ht : w.loadAt + Config.scanSettle ≤ w.now) : w.startupCheck.stage = .complete := by
  rw [Work.startupCheck, if_pos ⟨hs, hj, ht⟩]

theorem Work.settleJacks_complete {w : Work} (hs : w.stage = .settling) : w.settleJacks.startupCheck.stage = .complete :=
  Work.startupCheck_complete hs w.settleJacks_settled (Nat.le_max_right _ _)

/-- Settles O13: the load forms the blocks and then restores each channel; the end settles the jacks. -/
theorem startupLoadsAndCompletes : Obligations.StartupLoadsAndCompletes := by
  unfold Obligations.StartupLoadsAndCompletes
  have hexec {s : State} (hs : s.work.stage = .loading) : exec .startupLoadComplete s = .next s.load :=
    congrArg Host.Outcome.next (if_pos hs)
  refine ⟨fun s hs => ⟨s.load, hexec hs, ?_⟩, fun s t hs ht c hc => ?_, fun s hs => ?_⟩
  · obtain ⟨v, hl⟩ := s.work.load_form
    refine ⟨by simp only [State.load, hl]; rfl, by simp only [State.load, hl]; rfl, rfl, rfl, rfl,
      by simp only [State.load, hl]; rfl, ?_, fun c => ?_, s.work.load_inh⟩
    · have hm : s.load.work.mode = if s.work.store.load.note.getLsbD 0 then .unconfigured else .normal := by
        simp only [State.load, hl]; rfl
      rw [hm, Store.load_note_zero]
      cases sectionValid 0 s.work.store.sections[(0 : Fin 6)] <;> rfl
    · obtain ⟨a, b, e, h⟩ := s.work.load_ch_form c
      have hc : s.load.work.ch c = _ := h
      rw [hc]
      exact ⟨rfl, rfl, rfl, rfl⟩
  · cases (hexec hs).symm.trans ht
    obtain ⟨a, b, e, hform⟩ := s.work.load_ch_form c
    have hused : (s.work.formed.ch c).role ≠ .unused := by
      have h : s.load.work.ch c = _ := hform
      rw [Work.formed_ch]
      rw [h] at hc
      exact hc
    have hload : s.load.work.ch c = (s.work.formed.ch c).restore (readCheckpoint s.work.store.checkpoints[c])
        (s.load.work.upperLimit c) := by
      have h : s.load.work.upperLimit c = _ := s.work.load_upperLimit c
      rw [h]
      exact s.work.load_ch c
    refine ⟨fun k hk hm => ?_, fun hk => ?_⟩
    · rw [hload, hk, Channel.restore_of_atRest hused hm]
      exact ⟨rfl, rfl, rfl⟩
    · rw [hload, Channel.restore_of_other hk, Work.formed_ch]
      exact ⟨rfl, rfl, rfl⟩
  · have hdone := Work.settleJacks_complete hs
    have hstage : (finish s s.work.settleJacks none).work.stage = .complete := (finish_stage ..).trans hdone
    obtain ⟨htravel, hok, hhaz⟩ := finish_posture_of_complete (s := s) none hdone
    have hcalm := finish_calm s s.work.settleJacks none
    have hload : (finish s s.work.settleJacks none).work.loadAt = s.work.loadAt := congrArg Calm.loadAt hcalm
    refine ⟨finish s s.work.settleJacks none, congrArg Host.Outcome.next (if_pos hs), hstage, ?_, htravel, ?_, ?_⟩
    · rw [hload, finish_now]
      exact Nat.le_max_right _ _
    · rw [hok]
    · rw [hhaz]

end Sys2Proof.Machine
end

