-- ==== Sys2Proof/Proofs/StandingReturn.lean ====
section
/-! PROOF. The moment of the last return from STANDBY (log 34), through what an event does: no operation of the blocks but the
return itself touches it, and the part does not enter STANDBY while it stands. -/

namespace Sys2Proof.Machine

set_option Elab.async false

open Sys2Proof.Safety

theorem foldl_returnedAt {α : Type} (l : List α) (f : Work → α → Work) (h : ∀ w x, (f w x).returnedAt = w.returnedAt) (w : Work) :
    (l.foldl f w).returnedAt = w.returnedAt := by
  induction l generalizing w with
  | nil => rfl
  | cons a l ih => rw [List.foldl_cons, ih, h]

@[simp] theorem Work.clampPos_returnedAt (w : Work) (c : ChanId) : (w.clampPos c).returnedAt = w.returnedAt := rfl
@[simp] theorem Work.setLearned_returnedAt (w : Work) (c : ChanId) (s : Option Nat) : (w.setLearned c s).returnedAt = w.returnedAt := rfl
@[simp] theorem Work.release_returnedAt (w : Work) (t : Fin 6) : (w.release t).returnedAt = w.returnedAt := rfl
@[simp] theorem Work.dequeue_returnedAt (w : Work) (t : Fin 6) : (w.dequeue t).returnedAt = w.returnedAt := rfl

@[simp] theorem Work.serveNext_returnedAt (w : Work) : w.serveNext.returnedAt = w.returnedAt := by
  simp only [Work.serveNext]; split <;> rfl

@[simp] theorem Work.askCheckpoint_returnedAt (w : Work) (c : ChanId) (b : Bool) : (w.askCheckpoint c b).returnedAt = w.returnedAt := by
  simp only [Work.askCheckpoint, Work.serveNext_returnedAt]

@[simp] theorem Work.askLearned_returnedAt (w : Work) : w.askLearned.returnedAt = w.returnedAt := by
  simp only [Work.askLearned]; split
  · rfl
  · simp only [Work.serveNext_returnedAt]

/-! ## Motions -/

@[simp] theorem Work.handOver_returnedAt (w : Work) (m : MoverId) (s : Source) (d : Dir) (p : MotionProfile) :
    (w.handOver m s d p).returnedAt = w.returnedAt := by
  simp only [Work.handOver]
  rw [foldl_returnedAt _ _ (fun w c => by simp)]; rfl

@[simp] theorem Work.setQueued_returnedAt (w : Work) (m : MoverId) (q : Bool) : (w.setQueued m q).returnedAt = w.returnedAt := by
  simp only [Work.setQueued]
  exact foldl_returnedAt _ _ (fun w c => by split <;> split <;> simp) w

@[simp] theorem Work.presentEntry_returnedAt (w : Work) (q : Queued) : (w.presentEntry q).1.returnedAt = w.returnedAt := by
  simp only [Work.presentEntry]; split <;> [rfl; (split <;> rfl)]

@[simp] theorem Work.forgetPosition_returnedAt (w : Work) (m : MoverId) : (w.forgetPosition m).returnedAt = w.returnedAt := by
  simp only [Work.forgetPosition]; exact foldl_returnedAt _ _ (fun w c => by simp) w

@[simp] theorem Work.clampMover_returnedAt (w : Work) (m : MoverId) : (w.clampMover m).returnedAt = w.returnedAt := by
  simp only [Work.clampMover]; exact foldl_returnedAt _ _ (fun w c => by simp) w

@[simp] theorem Work.beginLearn_returnedAt (w : Work) (m : MoverId) (l : LearnRun) : (w.beginLearn m l).returnedAt = w.returnedAt := by
  simp only [Work.beginLearn]; split <;> simp

@[simp] theorem Work.admitMover_returnedAt (w : Work) (m : MoverId) : (w.admitMover m).returnedAt = w.returnedAt := by
  simp only [Work.admitMover]; split <;> [rfl; (split <;> simp)]

@[simp] theorem Work.presentClaim_returnedAt (w : Work) (m : MoverId) (c : Claim) (l : Option LearnRun) :
    (w.presentClaim m c l).1.returnedAt = w.returnedAt := by
  simp only [Work.presentClaim]
  have h := Work.presentEntry_returnedAt (w.setMv m { w.mv m with claim := some c, learn := l })
    ((w.setMv m { w.mv m with claim := some c, learn := l }).moverEntry m c)
  split <;> (try rename_i h'; rw [h'] at h) <;> simp_all

@[simp] theorem Work.dropRetract_returnedAt (w : Work) (c : Cause) : (w.dropRetract c).returnedAt = w.returnedAt := by
  simp only [Work.dropRetract]; split <;> simp

@[simp] theorem Work.queueHead_returnedAt (w : Work) (q : Queued) : (w.queueHead q).returnedAt = w.returnedAt := rfl

@[simp] theorem Work.presentRetract_returnedAt (w : Work) (p : Purpose) : (w.presentRetract p).returnedAt = w.returnedAt := by
  simp only [Work.presentRetract]
  repeat' split
  all_goals simp

@[simp] theorem Work.endClaim_returnedAt (w : Work) (m : MoverId) : (w.endClaim m).returnedAt = w.returnedAt := by
  simp only [Work.endClaim]; split <;> [rfl; (split <;> simp)]

@[simp] theorem Work.abortLearn_returnedAt (w : Work) (m : MoverId) : (w.abortLearn m).returnedAt = w.returnedAt := by
  simp only [Work.abortLearn]; split <;> simp

@[simp] theorem Work.noteCause_returnedAt (w : Work) (m : MoverId) (c : Cause) : (w.noteCause m c).returnedAt = w.returnedAt := by
  simp only [Work.noteCause]; split <;> [rfl; (split <;> simp)]

@[simp] theorem Work.afterMotion_returnedAt (w : Work) (m : MoverId) (r : Run) : (w.afterMotion m r).returnedAt = w.returnedAt := by
  simp only [Work.afterMotion]; repeat' split
  all_goals simp

@[simp] theorem Work.closeMotion_returnedAt (w : Work) (m : MoverId) (r : Run) (c : Cause) :
    (w.closeMotion m r c).returnedAt = w.returnedAt := by
  simp [Work.closeMotion]

@[simp] theorem Work.finishLearn_returnedAt (w : Work) (m : MoverId) (l : LearnRun) : (w.finishLearn m l).returnedAt = w.returnedAt := by
  simp only [Work.finishLearn]
  rw [apply_ite Work.returnedAt]
  simp only [Work.emit_returnedAt, Work.askLearned_returnedAt, Work.clampMover_returnedAt]
  rw [foldl_returnedAt _ _ (fun w c => by split <;> simp)]
  exact ite_self _

@[simp] theorem Work.outwardLeg_returnedAt (w : Work) (m : MoverId) (l : LearnRun) : (w.outwardLeg m l).returnedAt = w.returnedAt := by
  simp [Work.outwardLeg]

@[simp] theorem Work.moverEnd_returnedAt (w : Work) (m : MoverId) : (w.moverEnd m).returnedAt = w.returnedAt := by
  simp only [Work.moverEnd]; repeat' split
  all_goals simp

@[simp] theorem Work.recordEnd_returnedAt (w : Work) (c : ChanId) (x : Option Int) : (w.recordEnd c x).returnedAt = w.returnedAt := by
  simp only [Work.recordEnd]; repeat' split
  all_goals simp

@[simp] theorem Work.endIfAtRest_returnedAt (w : Work) (m : MoverId) : (w.endIfAtRest m).returnedAt = w.returnedAt := by
  simp only [Work.endIfAtRest]; split <;> simp

@[simp] theorem Work.stopChan_returnedAt (w : Work) (c : Cause) (d : ChanId) : (w.stopChan c d).returnedAt = w.returnedAt := by
  simp only [Work.stopChan]; split <;> simp

@[simp] theorem Work.stopMover_returnedAt (w : Work) (m : MoverId) (c : Cause) : (w.stopMover m c).returnedAt = w.returnedAt := by
  simp only [Work.stopMover]
  split <;> split <;> (try simp only [Work.endIfAtRest_returnedAt]) <;> (try rw [foldl_returnedAt _ _ (fun w d => by simp)]) <;> simp

@[simp] theorem Work.removeQueued_returnedAt (w : Work) (m : MoverId) (c : Cause) : (w.removeQueued m c).returnedAt = w.returnedAt := by
  simp only [Work.removeQueued]; split <;> simp

@[simp] theorem Work.haltMover_returnedAt (w : Work) (m : MoverId) (c : Cause) : (w.haltMover m c).returnedAt = w.returnedAt := by
  simp only [Work.haltMover]; split <;> simp

/-! ## The hydraulic circuit -/

@[simp] theorem Work.pumpStop_returnedAt (w : Work) (b : Bool) : (w.pumpStop b).returnedAt = w.returnedAt := by
  simp only [Work.pumpStop]; repeat' split
  all_goals rfl

@[simp] theorem Work.endActivity_returnedAt (w : Work) (o : EndOutcome) (b : Bool) : (w.endActivity o b).returnedAt = w.returnedAt := by
  simp only [Work.endActivity]
  split
  · rfl
  · split <;> split <;> (try rw [Work.emit_returnedAt]) <;> exact Work.pumpStop_returnedAt w b

@[simp] theorem Work.setJacks_returnedAt (w : Work) (a b : JackSet) : (w.setJacks a b).returnedAt = w.returnedAt := rfl
@[simp] theorem Work.setOpen_returnedAt (w : Work) (a : JackSet) : (w.setOpen a).returnedAt = w.returnedAt := rfl
@[simp] theorem Work.setActPhase_returnedAt (w : Work) (p : ActPhase) : (w.setActPhase p).returnedAt = w.returnedAt := rfl

@[simp] theorem Work.endLevel_returnedAt (w : Work) (o : EndOutcome) (b : Bool) : (w.endLevel o b).returnedAt = w.returnedAt := by
  simp only [Work.endLevel]; split <;> simp

@[simp] theorem Work.enterPhase_returnedAt (w : Work) (l : Level) : (w.enterPhase l).returnedAt = w.returnedAt := rfl

@[simp] theorem Work.enterSettling_returnedAt (w : Work) : w.enterSettling.returnedAt = w.returnedAt := by
  simp [Work.enterSettling]

@[simp] theorem Work.enterStabilize_returnedAt (w : Work) (f : Option PendFlag) : (w.enterStabilize f).returnedAt = w.returnedAt := by
  simp only [Work.enterStabilize]; split <;> simp

@[simp] theorem Work.enterLevelling_returnedAt (w : Work) (n : Nat) : (w.enterLevelling n).returnedAt = w.returnedAt := by
  simp [Work.enterLevelling]

@[simp] theorem Work.checkGrounded_returnedAt (w : Work) : w.checkGrounded.returnedAt = w.returnedAt := by
  simp only [Work.checkGrounded]; repeat' split
  all_goals simp

@[simp] theorem Work.followGround_returnedAt (w : Work) : w.followGround.returnedAt = w.returnedAt := by
  simp only [Work.followGround]; split <;> simp

@[simp] theorem Work.enterTouchdown_returnedAt (w : Work) : w.enterTouchdown.returnedAt = w.returnedAt := by
  simp [Work.enterTouchdown]

@[simp] theorem Work.jacksMove_returnedAt (w : Work) : w.jacksMove.returnedAt = w.returnedAt := by
  simp only [Work.jacksMove]; split <;> simp

@[simp] theorem Work.checkWork_returnedAt (w : Work) : w.checkWork.returnedAt = w.returnedAt := by
  simp only [Work.checkWork]; repeat' split
  all_goals simp

@[simp] theorem Work.atPumpStart_returnedAt (w : Work) (a : HydActivity) : (w.atPumpStart a).returnedAt = w.returnedAt := by
  simp only [Work.atPumpStart]; repeat' split
  all_goals simp

@[simp] theorem Work.pumpRun_returnedAt (w : Work) : w.pumpRun.returnedAt = w.returnedAt := by
  simp only [Work.pumpRun]; split
  · rfl
  · rw [Work.atPumpStart_returnedAt]

@[simp] theorem Work.admitPump_returnedAt (w : Work) : w.admitPump.returnedAt = w.returnedAt := by
  simp only [Work.admitPump]; split <;> simp

@[simp] theorem Work.admitTarget_returnedAt (w : Work) (t : Fin 6) : (w.admitTarget t).returnedAt = w.returnedAt := by
  simp only [Work.admitTarget]; split <;> simp

@[simp] theorem Work.admitHead_returnedAt (w : Work) (q : Queued) (r : List Queued) : (w.admitHead q r).returnedAt = w.returnedAt := by
  simp only [Work.admitHead, Work.admitTarget_returnedAt]

@[simp] theorem Work.admitHeads_returnedAt (n : Nat) (w : Work) : (Work.admitHeads n w).returnedAt = w.returnedAt := by
  induction n generalizing w with
  | zero => rfl
  | succ n ih =>
    simp only [Work.admitHeads]; split <;> [rfl; (split <;> [(rw [ih]; simp); rfl])]

@[simp] theorem Work.judgeHead_returnedAt (w : Work) : w.judgeHead.returnedAt = w.returnedAt := by
  simp only [Work.judgeHead]; split
  · exact Work.admitHeads_returnedAt 16 w
  · rfl

/-! ## Arrivals and the settling of a command -/

@[simp] theorem Work.arriveMover_returnedAt (b : BitVec 16) (w : Work) (m : MoverId) :
    (Work.arriveMover b w m).returnedAt = w.returnedAt := by
  simp only [Work.arriveMover]; split <;> simp

@[simp] theorem Work.arriveRetract_returnedAt (b : BitVec 16) (w : Work) : (Work.arriveRetract b w).returnedAt = w.returnedAt := by
  simp only [Work.arriveRetract]; repeat' split
  all_goals simp

@[simp] theorem Work.arriveHyd_returnedAt (b : BitVec 16) (w : Work) : (Work.arriveHyd b w).returnedAt = w.returnedAt := by
  simp only [Work.arriveHyd]; repeat' split
  all_goals simp

@[simp] theorem Work.arrive_returnedAt (b : BitVec 16) (w : Work) : (Work.arrive b w).returnedAt = w.returnedAt := by
  simp only [Work.arrive, Work.arriveHyd_returnedAt, Work.arriveRetract_returnedAt]
  exact foldl_returnedAt _ _ (fun w m => by simp) w

@[simp] theorem Work.settleLoop_returnedAt (n : Nat) (w : Work) : (Work.settleLoop n w).returnedAt = w.returnedAt := by
  induction n generalizing w with
  | zero => simp [Work.settleLoop]
  | succ n ih =>
    simp only [Work.settleLoop]
    split
    · exact Work.judgeHead_returnedAt w
    · rw [ih, Work.arrive_returnedAt]; exact Work.judgeHead_returnedAt w

@[simp] theorem Work.settled_returnedAt (w : Work) : w.settled.returnedAt = w.returnedAt := Work.settleLoop_returnedAt 4 w

@[simp] theorem Work.settleEvents_returnedAt (w : Work) (b : Bool) (old : BitVec 16) : (w.settleEvents b old).returnedAt = w.returnedAt := by
  have h := Work.settled_returnedAt { w.judgeHead with events := [] }
  exact h.trans (Work.judgeHead_returnedAt w)


@[simp] theorem Work.superseded_returnedAt (w : Work) : w.superseded.returnedAt = w.returnedAt := by
  simp only [Work.superseded]; repeat' split
  all_goals simp

@[simp] theorem Work.turnWind_returnedAt (w : Work) : w.turnWind.returnedAt = w.returnedAt := rfl

@[simp] theorem Work.startRetract_returnedAt (w : Work) (p : Purpose) : (w.startRetract p).returnedAt = w.returnedAt := by
  simp only [Work.startRetract]; split <;> simp

@[simp] theorem Work.retractTrigger_returnedAt (w : Work) (p : Purpose) : (w.retractTrigger p).1.returnedAt = w.returnedAt := by
  simp only [Work.retractTrigger]; repeat' split
  all_goals simp

/-! ## A part just returned -/

theorem State.returnStands_of_returned_now {s : State} (hr : s.work.returnedAt = some s.work.now) (hp : s.work.power = .active)
    (hq : s.quiet = true) : s.returnStands = true := by
  simp only [State.quiet, Bool.and_eq_true, decide_eq_true_eq] at hq
  obtain ⟨-, hlt⟩ := hq
  cases hl : s.port.linkAt with
  | none => simp [State.returnStands, hr, hl]
  | some l =>
    have htimer : s.linkTimer = min (s.work.now - l) (Config.sec Config.linkMax) := by
      simp [State.linkTimer, Port.linkTimer, hl, hp]
    have hpos : 0 < s.work.now - l := Nat.lt_of_lt_of_le (Nat.zero_lt_of_lt (htimer ▸ hlt)) (Nat.min_le_left _ _)
    simp only [State.returnStands, hr, hl]
    exact decide_eq_true (Nat.lt_of_sub_pos hpos)

/-- A command that returns the part from STANDBY leaves it ACTIVE (R169; log 34). -/
theorem finish_power_of_returned_now {s : State} {w : Work} (r : Option Frame) (hp : w.power = .active)
    (hr : w.returnedAt = some w.now) : (finish s w r).work.power = .active := by
  have hpow : (finishWork s w).power = .active := (finishWork_power s w).trans hp
  have hnow : (finishWork s w).now = w.now := congrArg Calm.now (finishWork_calm s w)
  have hret : (finishWork s w).returnedAt = w.returnedAt := by
    refine (Work.settleEvents_returnedAt ..).trans ?_
    simp only [Work.startupCheck]
    split <;> rfl
  rw [finish_eq]
  have hstate : (finishState s w r).work = { finishWork s w with events := [] } := by
    simp only [finishState, Work.returnOnMotion_of_active hpow]
  have hactive : (finishState s w r).work.power = .active := by rw [hstate]; exact hpow
  rcases (finishState s w r).standbyCheck_cases with ⟨hdue, _⟩ | ⟨_, h⟩ | ⟨_, h⟩
  · simp only [State.standbyDue, Bool.and_eq_true, Bool.not_eq_true'] at hdue
    obtain ⟨⟨-, hq⟩, hs⟩ := hdue
    have hstands := State.returnStands_of_returned_now (s := finishState s w r)
      (by rw [hstate]; exact hret.trans (hr.trans (congrArg some hnow.symm))) hactive hq
    rw [hstands] at hs
    cases hs
  · rw [h]; exact hactive
  · rw [h]; exact hactive

end Sys2Proof.Machine
end

