-- ==== Sys2Proof/Proofs/WakeStandby.lean ====
section
/-! PROOF. The wake (R133, R171, R172), the entry to STANDBY (R168) and the returns from it (R169). -/

namespace Sys2Proof.Machine

set_option Elab.async false

open Sys2Proof.Safety

/-! ## The blocks at a wake -/

section

variable (w : Work) (x : WakeSigns)

theorem Work.wakeUp_mv (m : MoverId) :
    (w.wakeUp x).mv m = (w.mv m).woke (x.panel.getLsbD m.val) (x.panel.getLsbD (5 + m.val)) w.now :=
  Vector.getElem_ofFn ..

theorem Work.wakeUp_ch (c : ChanId) : (w.wakeUp x).ch c = { w.ch c with window := [], hall := {} } :=
  Vector.getElem_map ..

theorem Work.wakeUp_jk (j : JackId) : (w.wakeUp x).jk j = { w.jk j with groundRun := 0, lowRun := 0 } :=
  Vector.getElem_map ..

theorem Work.wakeUp_chansOf (m : MoverId) : (w.wakeUp x).chansOf m = w.chansOf m := by
  simp only [Work.chansOf, Work.wakeUp_mv]; rfl

theorem Work.wakeUp_allCh (m : MoverId) {p : Channel → Bool} (hp : ∀ y : Channel, p { y with window := [], hall := {} } = p y) :
    (w.wakeUp x).allCh m p = w.allCh m p := by
  simp only [Work.allCh, Work.wakeUp_chansOf, Work.wakeUp_ch, hp]

theorem Work.wakeUp_isIn (m : MoverId) : (w.wakeUp x).isIn m = w.isIn m := by
  have hknown : (w.wakeUp x).known m = w.known m := w.wakeUp_allCh x m fun _ => rfl
  have hin := w.wakeUp_allCh x m (p := fun y => y.seat == .inSeated && (m == awn || y.known)) fun _ => rfl
  have hout := w.wakeUp_allCh x m (p := fun y => y.seat == .outSeated) fun _ => rfl
  simp only [Work.isIn, Work.seatOf, hknown, hin, hout]

theorem Work.wakeUp_roomsIn : (w.wakeUp x).roomsIn = w.roomsIn := by
  have hp (m : MoverId) : ((w.wakeUp x).mv m).present = (w.mv m).present := by rw [Work.wakeUp_mv]; rfl
  simp only [Work.roomsIn, Work.wakeUp_isIn, hp]

theorem Work.wakeUp_stabilized : (w.wakeUp x).stabilized = w.stabilized := by
  have hp (j : JackId) : (w.wakeUp x).jackPresent j = w.jackPresent j := rfl
  simp only [Work.stabilized, Work.wakeUp_jk, hp]; rfl

/-- A wake changes no condition of the inhibit set. -/
theorem Work.wakeUp_deriveInh : (w.wakeUp x).deriveInh = w.deriveInh := by
  have hlock : (w.wakeUp x).wind.lockout.isSome = w.wind.lockout.isSome := Option.isSome_map
  simp only [Work.deriveInh, Work.wakeUp_roomsIn, Work.wakeUp_stabilized, hlock]
  rfl

end

theorem finish_hyd_of_settled (s : State) {w : Work} (r : Option Frame) (hd : w.headDue = false) (hi : w.inh = w.deriveInh)
    (hp : w.power ≠ .standby) : (finish s w r).work.hyd = w.hyd := by
  obtain ⟨-, -, h, -⟩ := (finishState s w r).standbyCheck_blocks
  have hpow : (finishWork s w).power ≠ .standby := by rw [finishWork_power]; exact hp
  rw [finish_eq, h]
  show ((finishWork s w).returnOnMotion _).hyd = _
  rw [Work.returnOnMotion_of_not_standby hpow, finishWork_of_none_new s hd hi]
  show w.startupCheck.hyd = w.hyd
  simp only [Work.startupCheck]
  split <;> rfl

theorem exec_dormantWake {s : State} (hl : s.work.stage.loaded = true) (hp : s.work.power = .dormant)
    {sel ign pbrk wake : Bool} {panel : BitVec 10} (hc : (sel || ign || pbrk || wake || panel != 0) = true) :
    exec (.dormantWake sel ign pbrk wake panel) s =
      .next (s.wakeUp { sel := sel, ign := ign, pbrk := pbrk, wake := wake, panel := panel }) := by
  have hcauses : (WakeSigns.causes { sel := sel, ign := ign, pbrk := pbrk, wake := wake, panel := panel } != 0) = true := by
    have h : ∀ a b c d e : Bool, (a || b || c || d || e) = true →
        ((bits16 [a, b, c, e, d]).setWidth 5 != (0 : BitVec 5)) = true := by decide
    exact h sel ign pbrk wake (panel != 0) hc
  have hasleep : s.work.asleep = true := by simp [Work.asleep, hl, hp]
  exact congrArg Host.Outcome.next (if_pos (by rw [hasleep, hcauses]; rfl))

/-! ## STANDBY -/

theorem standbyDelay_le {w : Work} (h : ProfileInRange w.store.working) : w.standbyDelay ≤ Config.sec 600 := by
  have hf : fieldOf 0x0609 = some { base := 0x0609, sect := 5, dflt := 60, lo := 10, hi := 600 } := by decide +kernel
  have hr := h _ _ hf
  simp only [Field.inRange, Bool.and_eq_true, decide_eq_true_eq] at hr
  obtain ⟨-, hhi⟩ := hr
  have hn : w.profN 0x0609 ≤ 600 := Int.toNat_le.mpr hhi
  exact Nat.mul_le_mul_left 1000000 hn

theorem takeAll_nil (p : Port) : p.takeAll [] = p := rfl

theorem Work.enterStandby_of_none {w : Work} (h : w.tilt.zeroRun = none) : w.enterStandby =
    { w with power := .standby, tilt := { w.tilt with sumX := 0, sumY := 0, count := 0, blockAt := none },
             sup := { w.sup with busRun := 0, tripped := false } } := by
  simp only [Work.enterStandby, Work.abortZero_of_none h]

/-- What the entry to STANDBY stops. -/
theorem Work.enterStandby_stops (w : Work) :
    w.enterStandby.tilt.count = 0 ∧ w.enterStandby.tilt.zeroRun = none ∧ w.enterStandby.sup.busRun = 0 ∧
      w.enterStandby.sup.tripped = false := by
  cases h : w.tilt.zeroRun with
  | none => rw [Work.enterStandby_of_none h]; exact ⟨rfl, h, rfl, rfl⟩
  | some r => rw [Work.enterStandby, Work.abortZero_of_some h]; exact ⟨rfl, rfl, rfl, rfl⟩

theorem exec_standbyEntry_of_due {s : State} (h : ({ s with work := s.work.notBefore s.quietAt } : State).standbyDue = true) :
    exec .standbyEntry s = .next (State.deliver { s with work := (s.work.notBefore s.quietAt).enterStandby }) := by
  have hc : ({ s with work := s.work.notBefore s.quietAt } : State).standbyCheck =
      State.deliver { s with work := (s.work.notBefore s.quietAt).enterStandby } := if_pos h
  exact congrArg Host.Outcome.next ((if_pos h).trans hc)

theorem exec_standbyEntry_of_not_due {s : State}
    (h : ({ s with work := s.work.notBefore s.quietAt } : State).standbyDue = false) : exec .standbyEntry s = .next s :=
  congrArg Host.Outcome.next (if_neg (by rw [h]; decide))

/-- The link timer exceeds the delay at the moment the entry is due. -/
theorem linkTimer_of_quietAt {s : State} {t0 : Time} (hp : s.work.power = .active) (hl : s.port.linkAt = some t0)
    (hw : ProfileInRange s.work.store.working) :
    s.work.standbyDelay < ({ s with work := s.work.notBefore s.quietAt } : State).linkTimer := by
  have htimer : ({ s with work := s.work.notBefore s.quietAt } : State).linkTimer =
      min (max s.work.now s.quietAt - t0) (Config.sec Config.linkMax) := by
    simp [State.linkTimer, Port.linkTimer, hl, hp]
  have hat : s.quietAt = t0 + s.work.standbyDelay + 1 := by simp [State.quietAt, hl]
  have hmax : Config.sec 600 < Config.sec Config.linkMax := by decide
  rw [htimer, lt_min_iff, hat]
  refine ⟨Nat.lt_sub_of_add_lt ?_, Nat.lt_of_le_of_lt (standbyDelay_le hw) hmax⟩
  exact Nat.lt_of_lt_of_le (by rw [Nat.add_comm]; exact Nat.lt_succ_self _) (Nat.le_max_right _ _)

theorem standbyDue_at_quietAt {s : State} {t0 : Time} (hs : s.work.stage = .complete) (hp : s.work.power = .active)
    (ht : s.ready.travel ≠ .inMotion) (hq : s.work.bud.queue = []) (ho : s.port.outq = []) (hl : s.port.linkAt = some t0)
    (hw : ProfileInRange s.work.store.working) (hr : ∀ r, s.work.returnedAt = some r → r ≤ t0) :
    ({ s with work := s.work.notBefore s.quietAt } : State).standbyDue = true := by
  have htimer := linkTimer_of_quietAt hp hl hw
  have hstands : ({ s with work := s.work.notBefore s.quietAt } : State).returnStands = false := by
    show (match s.work.returnedAt, s.port.linkAt with
      | some t, some l => decide (l < t)
      | some _, none => true
      | none, _ => false) = false
    cases h : s.work.returnedAt with
    | none => rfl
    | some r =>
      rw [hl]
      exact decide_eq_false (Nat.not_lt.mpr (hr r h))
  have hquiet : ({ s with work := s.work.notBefore s.quietAt } : State).quiet = true := by
    have hd : decide (s.work.standbyDelay < ({ s with work := s.work.notBefore s.quietAt } : State).linkTimer) = true :=
      decide_eq_true htimer
    show (s.work.stage == .complete && s.ready.travel != .inMotion && s.work.bud.queue.isEmpty && s.port.outq.isEmpty &&
      decide (s.work.standbyDelay < ({ s with work := s.work.notBefore s.quietAt } : State).linkTimer)) = true
    simp [hs, ht, hq, ho, htimer]
  have hpow : ((s.work.notBefore s.quietAt).power == .active) = true := by rw [Work.notBefore_power, hp]; rfl
  simp only [State.standbyDue, hpow, hquiet, hstands]
  rfl

theorem standbyDue_of_blocked {s : State} {w : Work} (hp : w.power = s.work.power) (hq : w.bud.queue = s.work.bud.queue)
    (hr : w.returnedAt = s.work.returnedAt)
    (h : s.work.power ≠ .active ∨ s.ready.travel = .inMotion ∨ s.work.bud.queue ≠ [] ∨ s.port.outq ≠ [] ∨
      ∃ t0 r, s.port.linkAt = some t0 ∧ s.work.returnedAt = some r ∧ t0 < r) :
    ({ s with work := w } : State).standbyDue = false := by
  simp only [State.standbyDue, State.quiet, hp, hq, Bool.and_eq_false_iff]
  rcases h with h | h | h | h | ⟨t0, r, hl, hret, hlt⟩
  · simp [h]
  · simp [h]
  · simp [h]
  · simp [h]
  · have : ({ s with work := w } : State).returnStands = true := by
      simp only [State.returnStands, hr, hret, hl]
      exact decide_eq_true hlt
    simp [this]

/-! ## A debounced input -/

theorem Work.inputChange_of_change {w : Work} {i : CoachInput} {b : Bool} (hs : (w.inputs.get i).settled = true)
    (hl : (w.inputs.get i).level ≠ b) (hp : w.power = .standby) (hi : i = .ign ∨ i = .pbrk ∨ (i = .wake ∧ b = true)) :
    w.inputChange i b = (w.putLevel i b).returnActive.ignTrigger i b := by
  have hc : ((w.inputs.get i).settled && (w.inputs.get i).level != b) = true := by simp [hs, hl]
  have hact : (w.putLevel i b).handToPower i b = (w.putLevel i b).returnActive := by
    have ht : (w.putLevel i b).toActive = (w.putLevel i b).returnActive := if_pos hp
    rcases hi with rfl | rfl | ⟨rfl, rfl⟩ <;> exact ht
  simp only [Work.inputChange, hc, if_true, hact]

theorem Work.ignTrigger_still (w : Work) (i : CoachInput) (b : Bool) : (w.ignTrigger i b).still = w.still := by
  simp only [Work.ignTrigger]
  split <;> simp

theorem Work.ignTrigger_returnedAt (w : Work) (i : CoachInput) (b : Bool) : (w.ignTrigger i b).returnedAt = w.returnedAt := by
  simp only [Work.ignTrigger]
  split <;> simp

/-- Settles O22: each part from what the wake, the entry and the return leave alone. -/
theorem wakeAndStandbyEntry : Obligations.WakeAndStandbyEntry := by
  unfold Obligations.WakeAndStandbyEntry
  refine ⟨?_, ?_, ?_, ?_⟩
  · intro s sel ign pbrk wake panel hl hp hc asleep
    let x : WakeSigns := { sel := sel, ign := ign, pbrk := pbrk, wake := wake, panel := panel }
    have hcalm : (s.wakeUp x).work.calm = (s.work.wakeUp x).calm := by rw [State.wakeUp_eq, finish_calm]
    have hrest := s.wakeUp_rest x
    simp only [Port.rest, Prod.mk.injEq] at hrest
    obtain ⟨-, hlink, -⟩ := hrest
    have hwind : (s.wakeUp x).work.wind = (s.work.wakeUp x).wind := congrArg Calm.wind hcalm
    refine ⟨s.wakeUp x, exec_dormantWake hl hp hc, s.wakeUp_power x, congrArg Calm.wakeCauses hcalm, ?_, hlink,
      s.wakeUp_prefix x, congrArg Calm.now hcalm, by rw [hwind]; rfl, by rw [hwind]; rfl,
      congrArg (·.speed.moving) hcalm, fun hs => ?_⟩
    · rw [State.wakeUp_eq]
      exact finish_attn none (e := .wake x.causes) (List.mem_append_right _ (List.mem_singleton_self _)) (by simp [Event.bit])
    · obtain ⟨hi, hd, -⟩ := hs
      have hhyd : (s.wakeUp x).work.hyd = (s.work.wakeUp x).hyd := by
        rw [State.wakeUp_eq]
        exact finish_hyd_of_settled _ none hd (hi.trans (s.work.wakeUp_deriveInh x).symm) (by simp)
      rw [hhyd]
      exact ⟨rfl, rfl, rfl⟩
  · intro s t0 hst hp ht hq ho hl he hw hr
    have hdue := standbyDue_at_quietAt hst hp ht hq ho hl hw hr
    have hat : s.quietAt = t0 + s.work.standbyDelay + 1 := by simp [State.quietAt, hl]
    obtain ⟨hcount, hzero, hrun, htrip⟩ := (s.work.notBefore s.quietAt).enterStandby_stops
    obtain ⟨t, e, hform⟩ := (s.work.notBefore s.quietAt).enterStandby_eq
    refine ⟨_, exec_standbyEntry_of_due hdue, ?_, ?_, hcount, hzero, hrun, htrip, ?_, ?_, ?_, fun hz => ?_⟩
    · simp only [State.deliver, hform]
    · rw [← hat]; simp only [State.deliver, hform]; rfl
    · simp only [State.deliver, hform]; rfl
    · simp only [State.deliver, hform]; rfl
    · simp only [State.deliver, hform]; rfl
    · have hev : (s.work.notBefore s.quietAt).enterStandby.events = [] := by
        rw [Work.enterStandby_of_none (w := s.work.notBefore s.quietAt) hz]; exact he
      simp only [State.deliver, hev, takeAll_nil]
  · exact fun s h => exec_standbyEntry_of_not_due (standbyDue_of_blocked rfl rfl rfl h)
  · intro s i b ha hp hi hs hl
    have hexec : exec (.coachInputChange i b) s =
        .next (finish s ((s.work.putLevel i b).returnActive.ignTrigger i b) none) := by
      rw [← Work.inputChange_of_change hs hl hp hi]
      exact congrArg Host.Outcome.next (event_of_awake ha _)
    have hstill := (s.work.putLevel i b).returnActive.ignTrigger_still i b
    have hret := (s.work.putLevel i b).returnActive.ignTrigger_returnedAt i b
    have hnow := congrArg Still.now hstill
    refine ⟨_, hexec, ?_, ?_⟩
    · exact finish_power_of_returned_now none (congrArg Still.power hstill) (hret.trans (congrArg some hnow.symm))
    · have hin := congrArg Calm.inputs (finish_calm s ((s.work.putLevel i b).returnActive.ignTrigger i b) none)
      have hput : ((s.work.putLevel i b).returnActive.ignTrigger i b).inputs = (s.work.putLevel i b).inputs :=
        congrArg Still.inputs hstill
      have hlev : (finish s ((s.work.putLevel i b).returnActive.ignTrigger i b) none).work.inputs =
        (s.work.putLevel i b).inputs := hin.trans hput
      rw [hlev]
      exact congrArg CoachLevel.level (CoachInputs.get_put_self ..)

end Sys2Proof.Machine
end

