-- ==== Sys2Proof/Proofs/WakeCauses.lean ====
section
/-! PROOF. The wake-cause set (R172, R174). -/

namespace Sys2Proof.Machine

set_option Elab.async false

open Sys2Proof.Safety

theorem finish_wakeCauses (s : State) (w : Work) (r : Option Frame) :
    (finish s w r).work.wakeCauses = w.wakeCauses := congrArg Calm.wakeCauses (finish_calm s w r)

theorem toActive_wakeCauses (s : State) : s.toActive.work.wakeCauses = s.work.wakeCauses :=
  congrArg Calm.wakeCauses s.work.toActive_calm

theorem standbyCheck_wakeCauses (s : State) : s.standbyCheck.work.wakeCauses = s.work.wakeCauses :=
  congrArg Calm.wakeCauses s.standbyCheck_calm

theorem wakeUp_wakeCauses (s : State) (x : WakeSigns) :
    (s.wakeUp x).work.wakeCauses = s.work.wakeCauses ||| x.causes := by
  rw [State.wakeUp_eq, finish_wakeCauses]; rfl

/-! ## Commands that leave it -/

theorem wakeCauses_of_event {s t : State} {f : Work → Work} (hf : EventWork s.work (f s.work))
    (he : (.next (event s f) : Result) = .next t) : t.work.wakeCauses = s.work.wakeCauses := by
  obtain rfl := Host.Outcome.next.inj he
  rcases event_cases s f with ⟨_, e⟩ | ⟨_, e⟩ <;> rw [e]
  rw [finish_wakeCauses]
  exact congrArg SlowParts.wakeCauses hf.frame

theorem wakeCauses_of_request {s t : State} {k g : Byte} {f : State → Work × Reply}
    (hf : ∀ s : State, (f s).1.wakeCauses = s.work.wakeCauses) (he : (.next (request s k g f) : Result) = .next t) :
    t.work.wakeCauses = s.work.wakeCauses := by
  obtain rfl := Host.Outcome.next.inj he
  rcases request_cases s k g f with ⟨_, e⟩ | ⟨_, _, e⟩ | ⟨_, _, e⟩ <;> rw [e]
  · exact toActive_wakeCauses s
  · rw [finish_wakeCauses, hf, toActive_wakeCauses]

theorem wakeCauses_of_portRequest {s t : State} {k g : Byte} {f : State → State × Reply}
    (hf : ∀ s : State, (f s).1.work.wakeCauses = s.work.wakeCauses)
    (he : (.next (portRequest s k g f) : Result) = .next t) : t.work.wakeCauses = s.work.wakeCauses := by
  obtain rfl := Host.Outcome.next.inj he
  rcases portRequest_cases s k g f with ⟨_, e⟩ | ⟨_, _, e⟩ | ⟨_, _, e⟩ <;> rw [e]
  · exact toActive_wakeCauses s
  · exact (hf _).trans (toActive_wakeCauses s)

theorem Work.endService_wakeCauses (w : Work) : w.endService.wakeCauses = w.wakeCauses := by
  have habort (z : Work) : z.abortZero.wakeCauses = z.wakeCauses := congrArg SlowParts.wakeCauses (frame_abortZero z)
  refine (habort _).trans (foldl_keep (·.wakeCauses) (fun z r => ?_) _ _)
  split
  · exact congrArg Still.wakeCauses (z.haltMover_still r .stopped)
  · rfl

theorem Work.afterWrite_wakeCauses (w : Work) : w.afterWrite.wakeCauses = w.wakeCauses := by
  have hjudged : (allRooms.foldl Work.judgeRack w.clampAll).wakeCauses = w.wakeCauses :=
    (foldl_keep (·.wakeCauses) (fun z m => congrArg Still.wakeCauses (z.judgeRack_still m)) _ _).trans
      (foldl_keep (·.wakeCauses) (fun z c => congrArg Still.wakeCauses (z.clampPos_still c)) _ _)
  obtain ⟨z, hz, h⟩ := w.afterWrite_cases
  have hkeep : z.wakeCauses = w.wakeCauses :=
    (congrArg Work.wakeCauses hz).trans ((congrArg SlowParts.wakeCauses (frame_headDue _ true)).trans hjudged)
  rcases h with h | h <;> rw [h]
  · exact hkeep
  · exact (congrArg SlowParts.wakeCauses (frame_overrunStop z)).trans hkeep

theorem Work.doWrite_wakeCauses (w : Work) (ps : List (Half × Half)) : (w.doWrite ps).1.wakeCauses = w.wakeCauses := by
  rcases w.doWrite_cases ps with h | h <;> rw [h]
  exact Work.afterWrite_wakeCauses _

theorem Work.doServiceLeave_wakeCauses (w : Work) : w.doServiceLeave.1.wakeCauses = w.wakeCauses := by
  rcases w.doServiceLeave_cases with h | h | h <;> rw [h]
  exact Work.endService_wakeCauses w

theorem doServiceEnter_wakeCauses (w : Work) (t : Travel) : (doServiceEnter w t).1.wakeCauses = w.wakeCauses := by
  rcases doServiceEnter_cases w t with h | ⟨m, h⟩ <;> rw [h]

theorem Work.doCommit_wakeCauses (w : Work) : w.doCommit.1.wakeCauses = w.wakeCauses := by
  rcases w.doCommit_cases with h | h <;> rw [h]
  exact congrArg Still.wakeCauses (Work.serveNext_still _)

theorem State.doSleep_wakeCauses (s : State) : s.doSleep.1.wakeCauses = s.work.wakeCauses := by
  rcases s.doSleep_cases with h | h <;> rw [h]
  obtain ⟨e, h⟩ := s.work.enterDormant_eq
  rw [h]

theorem load_wakeCauses (s : State) : s.load.work.wakeCauses = s.work.wakeCauses := by
  obtain ⟨v, h⟩ := s.work.load_form
  simp only [State.load, h]; rfl

/-- A request other than ATTENTION_CLEAR and RESTART leaves the set. -/
theorem wakeCauses_of_runRequest {s t : State} {i : Instr} (ha : ∀ tag m, i ≠ .attentionClear tag m)
    (hr : ∀ tag, i ≠ .restart tag) (he : runRequest i s = .next t) : t.work.wakeCauses = s.work.wakeCauses := by
  by_cases hm : motionCommand i = true ∧ (encodeRequest i).isSome = true
  · obtain ⟨hm, hreq⟩ := hm
    exact congrArg Kept.wakeCauses (motionCommandsKeepSlowState s t i hm ((StepLaw.exec_eq_runRequest hreq s).trans he))
  · cases i with
    | move | stop | levelStart | levelCancel | jackMove | jacksStow | faultClear | fenceSet | fenceClear | learnStroke
    | strokeSet | tiltZeroLearn => exact absurd ⟨rfl, rfl⟩ hm
    | nop | ident | attention | posture | channel | room | jacks | levelStatus | wind | supply | queue | profileRead
    | reportEnable | reportDisable => exact wakeCauses_of_portRequest (fun _ => rfl) he
    | inhibitSet | inhibitClear => exact wakeCauses_of_request (fun _ => rfl) he
    | serviceEnter => exact wakeCauses_of_request (fun s => doServiceEnter_wakeCauses s.work s.ready.travel) he
    | serviceLeave => exact wakeCauses_of_request (fun s => s.work.doServiceLeave_wakeCauses) he
    | profileWrite tag ps => exact wakeCauses_of_request (fun s => s.work.doWrite_wakeCauses ps) he
    | profileCommit => exact wakeCauses_of_request (fun s => s.work.doCommit_wakeCauses) he
    | sleep => exact wakeCauses_of_request (fun s => s.doSleep_wakeCauses) he
    | attentionClear tag m => exact absurd rfl (ha tag m)
    | restart tag => exact absurd rfl (hr tag)
    | _ => obtain rfl := Host.Outcome.next.inj he; rfl

theorem selectAsserted_wakeCauses (s : State) :
    (if s.port.selected then s else if s.work.awake then s.select else if s.work.asleep then s.wakeUp selWake
      else s.selectEarly).work.wakeCauses =
      if s.work.stage.loaded = true ∧ s.work.power = .dormant ∧ s.port.selected = false
      then s.work.wakeCauses ||| 1 else s.work.wakeCauses := by
  by_cases hs : s.port.selected = true
  · simp [hs]
  · by_cases ha : s.work.awake = true
    · have hn : ¬ (s.work.stage.loaded = true ∧ s.work.power = .dormant ∧ s.port.selected = false) := by
        rintro ⟨-, hp, -⟩
        simp [Work.awake, hp] at ha
      rw [if_neg hs, if_pos ha, if_neg hn]
      exact toActive_wakeCauses s
    · by_cases hz : s.work.asleep = true
      · have hy : s.work.stage.loaded = true ∧ s.work.power = .dormant ∧ s.port.selected = false := by
          simpa [Work.asleep, hs] using hz
        rw [if_neg hs, if_neg ha, if_pos hz, if_pos hy, wakeUp_wakeCauses]
        rfl
      · have hn : ¬ (s.work.stage.loaded = true ∧ s.work.power = .dormant ∧ s.port.selected = false) := by
          rintro ⟨hl, hp, -⟩
          exact hz (by simp [Work.asleep, hl, hp])
        rw [if_neg hs, if_neg ha, if_neg hz, if_neg hn]
        rfl

theorem answer_wakeCauses (s : State) (f : Frame) : (s.answer f).work.wakeCauses = s.work.wakeCauses := by
  simp only [State.answer]
  split <;> rfl

theorem wakeCauses_of_act {s t : State} {j : Judgement} (ha : ∀ tag m, j ≠ .request (.attentionClear tag m))
    (hr : ∀ tag, j ≠ .request (.restart tag)) (he : s.act j = .next t) : t.work.wakeCauses = s.work.wakeCauses := by
  cases j with
  | request i =>
    exact wakeCauses_of_runRequest (fun tag m e => ha tag m (e ▸ rfl)) (fun tag e => hr tag (e ▸ rfl)) he
  | dropped | idle =>
    obtain rfl := Host.Outcome.next.inj he
    exact standbyCheck_wakeCauses s
  | lengthError | checkError | unknownKind | badLength =>
    obtain rfl := Host.Outcome.next.inj he
    exact answer_wakeCauses _ _

theorem wakeCauses_of_selectionEnd {s t : State} {rx : List Byte} (ha : ∀ tag m, judge rx ≠ .request (.attentionClear tag m))
    (hr : ∀ tag, judge rx ≠ .request (.restart tag)) (he : exec (.selectionEnd rx) s = .next t) :
    t.work.wakeCauses = s.work.wakeCauses := by
  rw [exec_selectionEnd, execSelectionEnd] at he
  split at he
  · split at he
    · have h := wakeCauses_of_act ha hr he
      exact h
    · obtain rfl := Host.Outcome.next.inj he; rfl
  · obtain rfl := Host.Outcome.next.inj he; rfl

theorem standbyEntry_wakeCauses (s : State) :
    (if ({ s with work := s.work.notBefore s.quietAt } : State).standbyDue
      then ({ s with work := s.work.notBefore s.quietAt } : State).standbyCheck else s).work.wakeCauses =
      s.work.wakeCauses := by
  split
  · exact standbyCheck_wakeCauses _
  · rfl

theorem wakeCauses_of_exec {s t : State} {i : Instr} (ha : ∀ tag m, i ≠ .attentionClear tag m)
    (hse : ∀ rx, i ≠ .selectionEnd rx)
    (hlist : i ∉ [Instr.powerOnReset, Instr.resetPinAsserted, Instr.resetPinReleased, Instr.selectAsserted])
    (hr : ∀ tag, i ≠ .restart tag) (hw : ∀ a b c d e, i ≠ .dormantWake a b c d e) (he : exec i s = .next t) :
    t.work.wakeCauses = s.work.wakeCauses := by
  by_cases hreq : (encodeRequest i).isSome = true
  · exact wakeCauses_of_runRequest ha hr ((StepLaw.exec_eq_runRequest hreq s).symm.trans he)
  · by_cases hm : motionCommand i = true
    · exact congrArg Kept.wakeCauses (motionCommandsKeepSlowState s t i hm he)
    · cases i with
      | coachInputSettled => exact wakeCauses_of_event (.inputSettled ..) he
      | coachInputChange => exact wakeCauses_of_event (.inputChange ..) he
      | speedGate => exact wakeCauses_of_event (.speedGate ..) he
      | windGate => exact wakeCauses_of_event (.windGate ..) he
      | lockoutExpiry => exact wakeCauses_of_event .lockoutExpiry he
      | checkpointWritten => exact wakeCauses_of_event (.checkpointWritten ..) he
      | learnedWritten => exact wakeCauses_of_event .learnedWritten he
      | commitComplete => exact wakeCauses_of_event (.commitComplete ..) he
      | standbyEntry =>
        obtain rfl := Host.Outcome.next.inj he
        exact standbyEntry_wakeCauses s
      | startupLoadComplete =>
        obtain rfl := Host.Outcome.next.inj he
        split
        · exact load_wakeCauses s
        · rfl
      | selectionEnd rx => exact absurd rfl (hse rx)
      | dormantWake a b c d e => exact absurd rfl (hw a b c d e)
      | powerOnReset | resetPinAsserted | resetPinReleased | selectAsserted => exact absurd (by simp) hlist
      | _ => first | exact absurd rfl hm | exact absurd rfl hreq

/-- Settles O23: the wake adds, ATTENTION_CLEAR and resets empty, everything else leaves the set. -/
theorem wakeCausesAreSticky : Obligations.WakeCausesAreSticky := by
  unfold Obligations.WakeCausesAreSticky
  refine ⟨?_, ?_, ?_, ?_, ?_, ?_, ?_⟩
  · intro s t sel ign pbrk wake panel he
    obtain rfl := Host.Outcome.next.inj he
    split
    · rw [wakeUp_wakeCauses]
      have habsorb : ∀ a b : BitVec 5, a &&& (a ||| b) = a := by decide +kernel
      exact habsorb ..
    · exact BitVec.and_self
  · intro s sel ign pbrk wake panel hl hp
    by_cases hc : (sel || ign || pbrk || wake || panel != 0) = true
    · exact ⟨_, exec_dormantWake hl hp hc, wakeUp_wakeCauses ..⟩
    · have hnone : ({ sel := sel, ign := ign, pbrk := pbrk, wake := wake, panel := panel } : WakeSigns).causes = 0 := by
        have h : ∀ a b c d e : Bool, ¬ (a || b || c || d || e) = true →
          (bits16 [a, b, c, e, d]).setWidth 5 = (0 : BitVec 5) := by decide
        exact h sel ign pbrk wake (panel != 0) hc
      refine ⟨s, congrArg Host.Outcome.next (if_neg (by simp [hnone])), ?_⟩
      exact (BitVec.or_zero.symm).trans (congrArg (s.work.wakeCauses ||| ·) hnone.symm)
  · intro s tag mask ht
    refine ⟨_, exec_attentionClear_of_takes ht tag mask, fun hm => ⟨?_, ?_⟩, fun hm => ?_⟩
    · simp [replied, hm]
    · have hm' : mask[8] = true := hm
      simp [replied, hm']
    · simp only [replied, hm, Bool.false_eq_true, if_false]
      exact toActive_wakeCauses s
  · rintro s i (hi | ⟨rfl, hp⟩ | ⟨tag, rfl, ha⟩)
    · rcases List.mem_cons.mp hi with rfl | hi
      · exact ⟨_, rfl, rfl⟩
      · rcases List.mem_singleton.mp hi with rfl
        exact ⟨_, rfl, rfl⟩
    · exact ⟨(s.setResetPin false).resetTo .loading .pin, congrArg Host.Outcome.next (if_pos hp), rfl⟩
    · exact ⟨s.resetTo s.work.pins.resetStage .restart, congrArg Host.Outcome.next (if_pos ha), rfl⟩
  · exact fun s => ⟨_, rfl, selectAsserted_wakeCauses s⟩
  · exact fun s t rx ha hr he => wakeCauses_of_selectionEnd ha hr he
  · exact fun s t i ha hse hlist hr hw he => wakeCauses_of_exec ha hse hlist hr hw he

end Sys2Proof.Machine
end

