-- ==== Sys2Proof/Proofs/BusAndInputs.lean ====
section
/-! PROOF. The bus detector and the maximum wait (R140, R141, R147); coach inputs, the speed gate and the SLOW half (R151, R153,
R165). -/

namespace Sys2Proof.Machine

set_option Elab.async false

open Sys2Proof.Safety

theorem exec_of_event {s : State} {i : Instr} {f : Work → Work} {z : Work} (ha : s.work.awake = true)
    (he : exec i s = .next (event s f)) (hf : f s.work = z) : exec i s = .next (finish s z none) := by
  rw [he, event_of_awake ha, hf]

/-! ## The bus detector -/

theorem Work.judgeBus_trips {w : Work} (ht : w.sup.tripped = false) (hr : 19 ≤ w.sup.busRun) {sum : Nat}
    (hs : w.busLimit < sum) : w.judgeBus sum = Work.busTrip { w with sup := { w.sup with busSum := sum } } sum := by
  have hrun : 20 ≤ w.sup.busRun + 1 := Nat.succ_le_succ hr
  simp [Work.judgeBus, ht, hs, hrun]

theorem Work.judgeBus_rearms {w : Work} (ht : w.sup.tripped = true) (hr : 19 ≤ w.sup.busRun) {sum : Nat}
    (hs : sum ≤ w.busLimit) :
    w.judgeBus sum = { w with sup := { w.sup with busSum := sum, tripped := false, busRun := 0 } } := by
  have hrun : 20 ≤ w.sup.busRun + 1 := Nat.succ_le_succ hr
  simp [Work.judgeBus, ht, hs, hrun]

theorem Work.lastBus_of_eq {w : Work} {b : Bool} (h : w.sup.tripped = b) :
    w.lastBus b = { w with sup := { w.sup with busRun := max 19 w.sup.busRun } } := if_pos h

theorem Work.busTrip_eq (w : Work) (sum : Nat) : w.busTrip sum =
    Work.emit ((allMovers.foldl Work.tripMover { w with sup := { w.sup with tripped := true, busRun := 0 } }).dropRetract
      .overcurrentBus).tripHyd (.busOvercurrent sum
        ((allMovers.foldl Work.tripMover { w with sup := { w.sup with tripped := true, busRun := 0 } }).dropRetract
          .overcurrentBus).tripHyd.hyd.current) := rfl

/-! ## The maximum wait -/

theorem Work.maxWaitEnd_mover {w : Work} {m : MoverId} {q : Queued}
    (h : (w.bud.queue.find? fun e => e.target == moverTarget m) = some q) :
    w.maxWaitEnd (moverTarget m) = (w.notBefore q.waitEnd).removeQueued m .budgetTimeout := by
  have hlt : (moverTarget m).val < 5 := m.isLt
  simp only [Work.maxWaitEnd, h, dif_pos hlt]
  rfl

theorem Work.maxWaitEnd_hyd {w : Work} {q : Queued} (h : (w.bud.queue.find? fun e => e.target == hydTarget) = some q) :
    w.maxWaitEnd hydTarget = if w.lvl.phase ≠ .idle then (w.notBefore q.waitEnd).endLevel .budgetTimeout false
      else (w.notBefore q.waitEnd).endActivity .budgetTimeout false := by
  have hge : ¬ hydTarget.val < 5 := by decide
  simp only [Work.maxWaitEnd, h, dif_neg hge]
  rfl

/-- Settles O59: the millisecond of each row is the 20th of its run. -/
theorem busTripAndMaximumWait : Obligations.BusTripAndMaximumWait := by
  unfold Obligations.BusTripAndMaximumWait
  intro s sum ha w
  refine ⟨?_, fun hp ht hs => ?_, fun m q hq => exec_of_event ha rfl (Work.maxWaitEnd_mover hq),
    fun q hq => exec_of_event ha rfl (Work.maxWaitEnd_hyd hq)⟩
  · intro hp ht hs z y
    refine exec_of_event ha rfl ((if_pos hp).trans ?_)
    refine (congrArg (·.judgeBus sum) (Work.lastBus_of_eq ht)).trans ?_
    exact (Work.judgeBus_trips (w := { w with sup := { w.sup with busRun := max 19 w.sup.busRun } }) ht
      (Nat.le_max_left ..) hs).trans (Work.busTrip_eq _ sum)
  · refine exec_of_event ha rfl ((if_pos hp).trans ?_)
    refine (congrArg (·.judgeBus sum) (Work.lastBus_of_eq ht)).trans ?_
    exact Work.judgeBus_rearms (w := { w with sup := { w.sup with busRun := max 19 w.sup.busRun } }) ht
      (Nat.le_max_left ..) hs

/-! ## Coach inputs and the speed gate -/

theorem Work.inputChange_of_level {w : Work} {i : CoachInput} {b : Bool} (hs : (w.inputs.get i).settled = true)
    (hl : (w.inputs.get i).level ≠ b) : w.inputChange i b = ((w.putLevel i b).handToPower i b).ignTrigger i b := by
  have hc : ((w.inputs.get i).settled && (w.inputs.get i).level != b) = true := by simp [hs, hl]
  simp only [Work.inputChange, hc, if_true]

theorem Work.handToPower_eq (w : Work) (i : CoachInput) (b : Bool) :
    w.handToPower i b = if i = .ign ∨ i = .pbrk ∨ (i = .wake ∧ b = true) then w.toActive else w := by
  cases i <;> cases b <;> simp [Work.handToPower]

theorem Work.ignTrigger_eq (w : Work) (i : CoachInput) (b : Bool) :
    w.ignTrigger i b = if i = .ign ∧ b = true ∧ w.prof 0x0501 = 1 then (w.retractTrigger .travel).1 else w := by
  simp only [Work.ignTrigger, Work.travelRetract, beq_iff_eq]

theorem speedJudge_eq (count threshold below : Nat) (moving : Bool) :
    (threshold ≤ count → speedJudge count threshold below moving = (true, 0)) ∧
      (count < threshold → 1 ≤ below → speedJudge count threshold below moving = (false, 0)) ∧
      (count < threshold → below = 0 → speedJudge count threshold below moving = (moving, 1)) := by
  refine ⟨fun h => ?_, fun h hb => ?_, fun h hb => ?_⟩
  · exact if_pos h
  · have hb' : 2 ≤ below + 1 := Nat.succ_le_succ hb
    simp [speedJudge, Nat.not_le.mpr h, hb']
  · subst hb
    simp [speedJudge, Nat.not_le.mpr h]

theorem Work.speedGate_of {w : Work} {n : Nat} {r : Bool × Nat}
    (h : speedJudge n (w.coach 0x0143).toNat w.speed.below w.speed.moving = r) :
    w.speedGate n = { w with
      now := max w.now (w.speed.gateEnd.getD 0),
      speed := { w.speed with count := 0, last := min 65535 n, moving := r.1, below := r.2,
                              gateEnd := some (max w.now (w.speed.gateEnd.getD 0) + 1000000) } } := by
  subst h
  rfl

/-- Settles O60: each rule as its equation. -/
theorem coachInputsSpeedAndAlert : Obligations.CoachInputsSpeedAndAlert := by
  unfold Obligations.CoachInputsSpeedAndAlert
  intro s ha w
  refine ⟨?_, ?_, fun t hs ht => ?_⟩
  · intro i b hs hl z y
    refine exec_of_event ha rfl ((Work.inputChange_of_level hs hl).trans ?_)
    have hpower : (w.putLevel i b).handToPower i b = y := Work.handToPower_eq z i b
    have hprof : y.prof 0x0501 = w.prof 0x0501 := by
      show (if i = .ign ∨ i = .pbrk ∨ (i = .wake ∧ b = true) then z.toActive else z).prof 0x0501 = _
      split
      · rw [Work.prof, Work.toActive_store]; rfl
      · rfl
    rw [hpower, Work.ignTrigger_eq, hprof]
  · intro n now' limit u
    obtain ⟨hover, hunder, hfirst⟩ := speedJudge_eq n limit w.speed.below w.speed.moving
    have hgate {a : Bool} {b : Nat} (h : speedJudge n limit w.speed.below w.speed.moving = (a, b)) :
        exec (.speedGate n) s = .next (finish s { w with now := now', speed := { u with moving := a, below := b } } none) := by
      have hwork : s.work.speedGate n = { w with now := now', speed := { u with moving := a, below := b } } := by
        rw [Work.speedGate_of h]
      exact exec_of_event ha rfl hwork
    exact ⟨fun h => hgate (hover h), fun h hb => hgate (hunder h hb), fun h hb => hgate (hfirst h hb)⟩
  · have hc : (s.work.awake && s.ready.alert == .slow) = true := by simp [ha, hs]
    refine congrArg Host.Outcome.next ((if_pos hc).trans ?_)
    simp only [State.toggleAlert, ht]
    rfl

end Sys2Proof.Machine
end

