-- ==== Sys2Proof/Proofs/SupplyFlags.lean ====
section
/-! PROOF. The supply flags (R136, R137, R138, R139). -/

namespace Sys2Proof.Machine

set_option Elab.async false

open Sys2Proof.Safety

/-! ## One change of a flag -/

/-- The event of a change, when there is one. -/
def supplyTold (changes low high : Bool) (v : Nat) (latch : Bool) : List Event :=
  if changes then [.supply low high v latch] else []

section

variable (w : Work) (p : Prop) [Decidable p]

/-- The low flag is set to a level where a condition holds. -/
theorem Work.setLow_if (b : Bool) : (if p then w.setLow b else w) =
    { w with sup := { w.sup with low := if decide p then b else w.sup.low },
             events := w.events ++ supplyTold (decide p && w.sup.low != b) b w.sup.high w.sup.voltage w.latchPolicy } := by
  by_cases hp : p
  · by_cases h : w.sup.low = b
    · simp [Work.setLow, supplyTold, hp, ← h]
    · simp [Work.setLow, supplyTold, hp, h]
      rfl
  · simp [supplyTold, hp]

theorem Work.setHigh_if (b : Bool) : (if p then w.setHigh b else w) =
    { w with sup := { w.sup with high := if decide p then b else w.sup.high },
             events := w.events ++ supplyTold (decide p && w.sup.high != b) w.sup.low b w.sup.voltage w.latchPolicy } := by
  by_cases hp : p
  · by_cases h : w.sup.high = b
    · simp [Work.setHigh, supplyTold, hp, ← h]
    · simp [Work.setHigh, supplyTold, hp, h]
      rfl
  · simp [supplyTold, hp]

end

theorem Work.latchPolicy_sup (w : Work) (u : Supply) (es : List Event) :
    ({ w with sup := u, events := es } : Work).latchPolicy = w.latchPolicy := rfl

/-! ## One filtered value -/

/-- The flags and the events after the clearings and the settings that the counted runs bring. -/
theorem Work.judgeVoltage_of_runs (w : Work) (v : Nat) {u : Supply} (hu : w.supplyRuns v = u) :
    let a := !w.latchPolicy && w.sup.low && u.lowClear == 50
    let b := !w.latchPolicy && w.sup.high && u.highClear == 50
    let low := w.sup.low && !a
    let high := w.sup.high && !b
    let c := !low && u.lowRun == 50
    let d := !high && u.highRun == 50
    w.judgeVoltage v = { w with
      sup := { u with low := low || c, high := high || d },
      events := w.events ++ supplyTold a false w.sup.high v w.latchPolicy ++ supplyTold b low false v w.latchPolicy ++
        supplyTold c true high v w.latchPolicy ++ supplyTold d (low || c) true v w.latchPolicy } := by
  have hlow : u.low = w.sup.low := by rw [← hu]; rfl
  have hhigh : u.high = w.sup.high := by rw [← hu]; rfl
  have hv : u.voltage = v := by rw [← hu]; rfl
  have hlatch : ({ w with sup := u } : Work).latchPolicy = w.latchPolicy := rfl
  simp only [Work.judgeVoltage, hu, Work.setLow_if, Work.setHigh_if, Work.latchPolicy_sup, hlow, hhigh, hv, hlatch,
    ← Nat.beq_eq_true_eq, Bool.decide_eq_true]
  generalize w.latchPolicy = latch, w.sup.low = low, w.sup.high = high, (u.lowClear == 50) = lowClear,
    (u.highClear == 50) = highClear, (u.lowRun == 50) = lowRun, (u.highRun == 50) = highRun
  cases low <;> cases high <;> cases latch <;> cases lowClear <;> cases highClear <;> cases lowRun <;> cases highRun <;> rfl

theorem Work.judgeVoltage_of {w : Work} {v lr hr lc hc : Nat} (hlr : run50 (v < w.lowThreshold) w.sup.lowRun = lr)
    (hhr : run50 (w.highThreshold < v) w.sup.highRun = hr) (hlc : run50 (w.lowRestart ≤ v) w.sup.lowClear = lc)
    (hhc : run50 (v ≤ w.highRestart) w.sup.highClear = hc) :
    w.supplyRuns v = { w.sup with voltage := v, lowRun := lr, highRun := hr, lowClear := lc, highClear := hc } := by
  subst hlr hhr hlc hhc
  rfl

theorem run50_of_false {p : Prop} [Decidable p] (h : ¬ p) (n : Nat) : run50 p n = 0 := by simp [run50, h]

/-- The value that brings a run to 50. -/
theorem run50_of_last {p : Prop} [Decidable p] (h : p) (n : Nat) : run50 p (max 49 n) = 50 := by
  simp only [run50, h, decide_true, if_true]
  omega

/-- Settles O58: the general rule, and the four rows as its cases. -/
theorem supplyFlagsFollowRuns : Obligations.SupplyFlagsFollowRuns := by
  unfold Obligations.SupplyFlagsFollowRuns
  refine ⟨fun w v => w.judgeVoltage_of_runs v rfl, ?_, ?_⟩
  · intro s v ha w judged
    refine ⟨?_, ?_, ?_, ?_⟩ <;> exact exec_of_event ha rfl rfl
  · intro s v ha w low high u next
    have hlowRestart : w.lowThreshold + 10 ≤ w.lowRestart := Nat.le_max_right ..
    have hhighRestart : w.highRestart ≤ w.highThreshold - 10 := Nat.min_le_right ..
    refine ⟨fun hl hh hv hvh => ⟨run50 (v ≤ w.highRestart) w.sup.highClear, exec_of_event ha rfl ?_⟩,
      fun hl hh hv hvl => ⟨run50 (w.lowRestart ≤ v) w.sup.lowClear, exec_of_event ha rfl ?_⟩,
      fun hl hh ha' hv hvh => ⟨run50 (v ≤ w.highRestart) w.sup.highClear, exec_of_event ha rfl ?_⟩,
      fun hl hh ha' hv hvl hvh => ⟨run50 (w.lowRestart ≤ v) w.sup.lowClear, exec_of_event ha rfl ?_⟩⟩
    · have hruns := Work.judgeVoltage_of (w := { w with
          pins := (w.showSupply (rawOf v)).pins, sup := { u with voltage := w.sup.voltage, lowRun := max 49 w.sup.lowRun } })
        (v := v) (run50_of_last (p := v < w.lowThreshold) hv _) (run50_of_false (p := w.highThreshold < v) (Nat.not_lt.mpr hvh) _)
        (run50_of_false (p := w.lowRestart ≤ v) (by change v < w.lowThreshold at hv; omega) _) rfl
      refine (Work.judgeVoltage_of_runs _ v hruns).trans ?_
      simp [hl, hh, supplyTold, u]
      rfl
    · have hruns := Work.judgeVoltage_of (w := { w with
          pins := (w.showSupply (rawOf v)).pins, sup := { u with voltage := w.sup.voltage, highRun := max 49 w.sup.highRun } })
        (v := v) (run50_of_false (p := v < w.lowThreshold) (Nat.not_lt.mpr hvl) _) (run50_of_last (p := w.highThreshold < v) hv _)
        rfl (run50_of_false (p := v ≤ w.highRestart) (by change w.highThreshold < v at hv; omega) _)
      refine (Work.judgeVoltage_of_runs _ v hruns).trans ?_
      simp [hl, hh, supplyTold, u]
      rfl
    · have hruns := Work.judgeVoltage_of (w := { w with
          pins := (w.showSupply (rawOf v)).pins, sup := { u with voltage := w.sup.voltage, lowClear := max 49 w.sup.lowClear } })
        (v := v) (run50_of_false (p := v < w.lowThreshold) (by omega) _)
        (run50_of_false (p := w.highThreshold < v) (Nat.not_lt.mpr hvh) _) (run50_of_last (p := w.lowRestart ≤ v) hv _) rfl
      have hauto (p : Pins) (x : Supply) : ({ w with pins := p, sup := x } : Work).latchPolicy = false := beq_false_of_ne ha'
      refine (Work.judgeVoltage_of_runs _ v hruns).trans ?_
      simp [hl, hh, supplyTold, u, hauto]
      rfl
    · have hruns := Work.judgeVoltage_of (w := { w with
          pins := (w.showSupply (rawOf v)).pins,
          sup := { u with voltage := w.sup.voltage, highClear := max 49 w.sup.highClear } })
        (v := v) (run50_of_false (p := v < w.lowThreshold) (Nat.not_lt.mpr hvl) _)
        (run50_of_false (p := w.highThreshold < v) (Nat.not_lt.mpr hvh) _) rfl (run50_of_last (p := v ≤ w.highRestart) hv _)
      have hauto (p : Pins) (x : Supply) : ({ w with pins := p, sup := x } : Work).latchPolicy = false := beq_false_of_ne ha'
      refine (Work.judgeVoltage_of_runs _ v hruns).trans ?_
      simp [hl, hh, supplyTold, u, hauto]
      rfl

end Sys2Proof.Machine
end

