-- ==== Sys2Proof/Proofs/Retracts.lean ====
section
/-! PROOF. A retract of the awning, presented and started (R127, R128, R130, R145). -/

namespace Sys2Proof.Machine

set_option Elab.async false

open Sys2Proof.Safety

/-! ## What a new record of a mover leaves -/

section

variable (w : Work) (m : MoverId) {x : Mover}

theorem Work.setMv_anyCh (hc : x.chans = (w.mv m).chans) (n : MoverId) (p : Channel → Bool) :
    (w.setMv m x).anyCh n p = w.anyCh n p := by
  simp only [Work.anyCh, w.chansOf_setMv m n hc]; rfl

theorem Work.setMv_allCh (hc : x.chans = (w.mv m).chans) (n : MoverId) (p : Channel → Bool) :
    (w.setMv m x).allCh n p = w.allCh n p := by
  simp only [Work.allCh, w.chansOf_setMv m n hc]; rfl

theorem Work.setMv_leaderPos (hl : x.leader = (w.mv m).leader) (n : MoverId) :
    (w.setMv m x).leaderPos n = w.leaderPos n := by
  have h : ((w.setMv m x).mv n).leader = (w.mv n).leader := by
    by_cases hn : n = m
    · subst hn; rw [Work.mv_setMv_self, hl]
    · rw [Work.mv_setMv_ne _ _ _ _ hn]
  simp only [Work.leaderPos, h]; rfl

end

/-! ## Presentation -/

theorem Work.dropRetract_of_some {w : Work} {p : Purpose} (h : (w.mv awn).pendRetract = some p) (cause : Cause) :
    w.dropRetract cause = (w.setMv awn { w.mv awn with pendRetract := none, dwellEnd := none }).emit
      (.motionEnded awn cause (w.leaderPos awn) none) := by
  simp only [Work.dropRetract, h]

/-- A retract that a check ends before it starts. -/
theorem Work.dropRetract_presented (w : Work) (p : Purpose) (cause : Cause) :
    (w.setMv awn { w.mv awn with pendRetract := some p }).dropRetract cause =
      (w.setMv awn { w.mv awn with pendRetract := none, dwellEnd := none }).emit
        (.motionEnded awn cause (w.leaderPos awn) none) := by
  rw [Work.dropRetract_of_some (p := p) (by rw [Work.mv_setMv_self]), Work.mv_setMv_self, Work.setMv_setMv,
    Work.setMv_leaderPos]
  rfl

theorem Work.presentRetract_of_stowed {w : Work} (h : w.stowed = true) (p : Purpose) :
    w.presentRetract p = w.setMv awn { w.mv awn with pendRetract := none, dwellEnd := none } := if_pos h

/-- The awning with the claim of a retract. -/
def retractClaim (p : Purpose) : Claim := { source := .auto, dir := .inward, kind := .retract, purpose := some p }

def Work.retracting (w : Work) (p : Purpose) : Work :=
  w.setMv awn { w.mv awn with pendRetract := none, dwellEnd := none, claim := some (retractClaim p) }

/-- A retract presented at an awning that is out, by its first check that fails. -/
theorem Work.presentRetract_eq {w : Work} (h : w.stowed = false) (p : Purpose) : w.presentRetract p =
    if w.fenced awn then (w.setMv awn { w.mv awn with pendRetract := some p }).dropRetract .fenced
    else if w.faulted awn then (w.setMv awn { w.mv awn with pendRetract := some p }).dropRetract .fault
    else if w.inh &&& retractMask p != 0 then (w.setMv awn { w.mv awn with pendRetract := some p }).dropRetract .inhibited
    else if (w.retracting p).fits ((w.retracting p).moverDraw awn) then
      (admitted (w.retracting p) (moverTarget awn) ((w.retracting p).moverDraw awn)).admitMover awn
    else ((w.retracting p).queueHead ((w.retracting p).moverEntry awn (retractClaim p))).setQueued awn true := by
  have hfen : (w.setMv awn { w.mv awn with pendRetract := some p }).fenced awn = w.fenced awn :=
    w.setMv_anyCh awn (x := { w.mv awn with pendRetract := some p }) rfl awn _
  have hfau : (w.setMv awn { w.mv awn with pendRetract := some p }).faulted awn = w.faulted awn :=
    w.setMv_anyCh awn (x := { w.mv awn with pendRetract := some p }) rfl awn _
  simp only [Work.presentRetract, h, hfen, hfau, Work.mv_setMv_self, Work.setMv_setMv]
  rfl

theorem Work.admit_retracting {w : Work} (h : (w.mv awn).learn = none) (p : Purpose) (draw : Nat) :
    (admitted (w.retracting p) (moverTarget awn) draw).admitMover awn =
      (admitted (w.retracting p) (moverTarget awn) draw).handOver awn .auto .inward (profileOf w awn) := by
  have hmv : (admitted (w.retracting p) (moverTarget awn) draw).mv awn =
      { w.mv awn with pendRetract := none, dwellEnd := none, claim := some (retractClaim p) } := Work.mv_setMv_self _ _ _
  have hknown : (w.retracting p).known awn = w.known awn :=
    w.setMv_allCh awn (x := { w.mv awn with pendRetract := none, dwellEnd := none, claim := some (retractClaim p) }) rfl awn _
  have hprofile : profileOf (admitted (w.retracting p) (moverTarget awn) draw) awn = profileOf w awn :=
    congrArg (fun b : Bool => if b then MotionProfile.normal else .homing) hknown
  rw [Work.admitMover_of_claim (c := retractClaim p) (by rw [hmv]) (by rw [hmv]; exact h), hprofile]
  rfl

/-- Settles O57: the checks in their order, then the two lines of R145. -/
theorem retractGoesFirst : Obligations.RetractGoesFirst := by
  unfold Obligations.RetractGoesFirst
  refine ⟨fun w p h => Work.presentRetract_of_stowed h p, fun w p h => ?_⟩
  intro x z c y dropped
  have hz : z = _ := Work.presentRetract_eq h p
  refine ⟨fun hf => ?_, fun hf hx => ?_, fun hf hx hi => ?_, fun hf hx hi hl => ⟨fun hd => ?_, fun hd => ?_⟩⟩
  · show z = _
    rw [hz, if_pos hf, Work.dropRetract_presented]
  · show z = _
    rw [hz, if_neg (by simp [hf]), if_pos hx, Work.dropRetract_presented]
  · show z = _
    rw [hz, if_neg (by simp [hf]), if_neg (by simp [hx]), if_pos (by simpa using hi), Work.dropRetract_presented]
  · have hfit : (w.retracting p).fits ((w.retracting p).moverDraw awn) = true := decide_eq_true hd
    rw [hz, if_neg (by simp [hf]), if_neg (by simp [hx]), if_neg (by simpa using hi), if_pos hfit, Work.admit_retracting hl]
    rfl
  · have hfit : ¬ (w.retracting p).fits ((w.retracting p).moverDraw awn) = true :=
      fun hf => Nat.not_le.mpr hd (of_decide_eq_true hf)
    rw [hz, if_neg (by simp [hf]), if_neg (by simp [hx]), if_neg (by simpa using hi), if_neg hfit]
    rfl

end Sys2Proof.Machine
end

