-- ==== Sys2Proof/Proofs/WindWatch.lean ====
section
/-! PROOF. The start of a retract (R127) and the wind gate (R131, R132, R133). -/

namespace Sys2Proof.Machine

set_option Elab.async false

open Sys2Proof.Safety

/-! ## The trigger of a retract -/

theorem Work.activity_of_queued {w : Work} {m : MoverId} (h : w.isQueued (moverTarget m) = true) : w.activity m = .queued := by
  simp [Work.activity, h]

theorem Work.isQueued_iff (w : Work) (m : MoverId) : w.isQueued (moverTarget m) = true ↔ w.activity m = .queued := by
  refine ⟨Work.activity_of_queued, fun h => ?_⟩
  by_contra hq
  simp only [Work.activity, hq, if_false] at h
  repeat' split at h
  all_goals cases h

/-- The conditions of a start, one by one (R127). -/
def MayStart (w : Work) (p : Purpose) : Prop :=
  w.stage = .complete ∧ w.mode ≠ .unconfigured ∧ (w.mv awn).present = true ∧ w.stowed = false ∧ w.fenced awn = false ∧
    w.faulted awn = false ∧ w.inh &&& retractMask p = 0

theorem Work.retractMayStart_iff (w : Work) (p : Purpose) : w.retractMayStart p = true ↔ MayStart w p := by
  simp only [Work.retractMayStart, MayStart, Bool.and_eq_true, beq_iff_eq, bne_iff_ne, Bool.not_eq_true', and_assoc]

section

variable {w : Work} {p : Purpose}

theorem Work.retractTrigger_of_held {q : Purpose} (h : w.holdsRetract = some q) (hq : q = .wind ∨ p = .travel) :
    w.retractTrigger p = (w, false) := by
  rcases hq with rfl | rfl
  · simp only [Work.retractTrigger, h]
  · cases q <;> simp only [Work.retractTrigger, h]

theorem Work.retractTrigger_turns (h : w.holdsRetract = some .travel) : w.retractTrigger .wind = (w.turnWind, false) := by
  simp only [Work.retractTrigger, h]

theorem Work.retractTrigger_of_not (h : w.holdsRetract = none) (hs : ¬ MayStart w p) : w.retractTrigger p = (w, false) := by
  have hm : ¬ w.retractMayStart p = true := fun h => hs ((w.retractMayStart_iff p).mp h)
  simp only [Work.retractTrigger, h, if_neg hm]

theorem Work.retractTrigger_starts (h : w.holdsRetract = none) (hs : MayStart w p) :
    w.retractTrigger p = (w.startRetract p, true) := by
  simp only [Work.retractTrigger, h, if_pos ((w.retractMayStart_iff p).mpr hs)]

end

/-- The neighbour room gives way. -/
theorem Work.superseded_of {w v : Work} (hnone : w.neighbour = none → v = w)
    (hsome : ∀ r, w.neighbour = some r → v = if (w.haltMover r .superseded).activity r = .dwell then
      (w.haltMover r .superseded).setMv r { (w.haltMover r .superseded).mv r with pendRev := none }
      else w.haltMover r .superseded) : w.superseded = v := by
  cases hn : w.neighbour with
  | none => simp only [Work.superseded, hn, hnone hn]
  | some r => simp only [Work.superseded, hn, hsome r hn]

section

variable {w v : Work} {p : Purpose} (hv : w.superseded = v)
include hv

theorem Work.startRetract_of_idle (h : v.activity awn = .idle) : w.startRetract p = v.presentRetract p := by
  simp only [Work.startRetract, hv, h]

theorem Work.startRetract_of_queued (h : v.activity awn = .queued) :
    w.startRetract p = (v.haltMover awn .superseded).presentRetract p := by
  simp only [Work.startRetract, hv, h, Work.haltMover_of_queued ((v.isQueued_iff awn).mpr h)]

theorem Work.startRetract_of_moving (hi : v.activity awn ≠ .idle) (hq : v.activity awn ≠ .queued) :
    w.startRetract p =
      (v.setMv awn { v.mv awn with pendRetract := some p, pendRev := none }).stopMover awn .superseded := by
  simp only [Work.startRetract, hv]

end

theorem Work.superseded_of_alone {w : Work} (h : ∀ r, w.neighbour = some r → w.isQueued (moverTarget r) = false ∧
    (w.mv r).learn = none ∧ w.anyCh r Channel.stoppable = false ∧ w.activity r ≠ .dwell) : w.superseded = w := by
  refine Work.superseded_of (fun _ => rfl) fun r hr => ?_
  obtain ⟨hq, hl, hs, hd⟩ := h r hr
  have hid : w.haltMover r .superseded = w := (Work.haltMover_of_not_queued hq _).trans (Work.stopMover_of_nothing hl hs)
  rw [hid, if_neg hd]

/-! ## The wind gate -/

/-- The speed a gate measures (R131). -/
def gateSpeed (w : Work) (n : Nat) : Nat := min 999 (min 65535 n * w.profN 0x0502 / 16)

/-- The instant of a gate. -/
def gateAt (w : Work) : Time := max w.now (w.wind.gateEnd.getD 0)

/-- The gust run after a gate (R132). -/
def gateRun (w : Work) (n : Nat) : Nat := if w.profN 0x0503 ≤ gateSpeed w n then min 255 (w.wind.gustRun + 1) else 0

/-- The gate is a gust (R132). -/
def Gust (w : Work) (n : Nat) : Prop :=
  (w.profN 0x0503 ≤ gateSpeed w n ∧ gateRun w n = w.profN 0x0504) ∨ w.profN 0x0505 ≤ gateSpeed w n

/-- The Wind Watch after a gate. -/
def gated (w : Work) (n : Nat) : Wind :=
  { w.wind with count := 0, speed := gateSpeed w n, gateEnd := some (gateAt w + 1000000), gustRun := gateRun w n }

/-- A gate that neither is a gust nor prolongs a lockout. -/
def Work.gateRead (w : Work) (n : Nat) : Work := { w with now := gateAt w, wind := gated w n }

/-- A gate that starts the lockout timer or restarts it (R133). -/
def Work.gateLocked (w : Work) (n : Nat) : Work :=
  { w with now := gateAt w, wind := { gated w n with lockout := some (gateAt w + 60000000 * w.profN 0x0506) } }

theorem isGust_iff (w : Work) (n : Nat) :
    isGust (gateSpeed w n) (w.profN 0x0503) (w.profN 0x0504) (w.profN 0x0505) w.wind.gustRun = true ↔ Gust w n := by
  simp only [isGust, nextGustRun, Gust, gateRun, Bool.or_eq_true, Bool.and_eq_true, decide_eq_true_eq, beq_iff_eq]

theorem Work.startLockout_gateRead (w : Work) (n : Nat) : (w.gateRead n).startLockout = w.gateLocked n := by
  have ht : Config.sec (60 * w.profN 0x0506) = 60000000 * w.profN 0x0506 := by
    show 1000000 * (60 * w.profN 0x0506) = 60000000 * w.profN 0x0506
    exact (Nat.mul_assoc 1000000 60 _).symm
  show ({ w.gateRead n with wind := { gated w n with lockout := some (gateAt w + Config.sec (60 * w.profN 0x0506)) } } : Work) = _
  rw [ht]
  rfl

theorem Work.windGate_eq {w : Work} (h : (w.mv awn).present = true) (n : Nat) : w.windGate n =
    if isGust (gateSpeed w n) (w.profN 0x0503) (w.profN 0x0504) (w.profN 0x0505) w.wind.gustRun then
      (w.gateRead n).gust (gateSpeed w n)
    else if w.profN 0x0503 ≤ gateSpeed w n ∧ w.wind.lockout.isSome = true then (w.gateRead n).startLockout
    else w.gateRead n := by
  unfold Work.windGate
  rw [if_pos h]
  rfl

section

variable {w : Work} {n : Nat} (h : (w.mv awn).present = true)
include h

theorem Work.windGate_of_gust (hg : Gust w n) : w.windGate n =
    ((w.gateLocked n).retractTrigger .wind).1.emit
      (.wind (gateSpeed w n) true ((w.gateLocked n).retractTrigger .wind).2) := by
  rw [Work.windGate_eq h, if_pos ((isGust_iff w n).mpr hg), ← Work.startLockout_gateRead]
  rfl

theorem Work.windGate_of_locked (hg : ¬ Gust w n) (hw : w.profN 0x0503 ≤ gateSpeed w n)
    (hl : w.wind.lockout.isSome = true) : w.windGate n = w.gateLocked n := by
  rw [Work.windGate_eq h, if_neg (fun hh => hg ((isGust_iff w n).mp hh)), if_pos ⟨hw, hl⟩, Work.startLockout_gateRead]

theorem Work.windGate_of_calm (hg : ¬ Gust w n) (hw : ¬ (w.profN 0x0503 ≤ gateSpeed w n ∧ w.wind.lockout.isSome = true)) :
    w.windGate n = w.gateRead n := by
  rw [Work.windGate_eq h, if_neg (fun hh => hg ((isGust_iff w n).mp hh)), if_neg hw]

/-- What a gust ends in is what the trigger of the retract ends in. -/
theorem Work.windGate_of_trigger (hg : Gust w n) {z : Work} {b : Bool} (hz : (w.gateLocked n).retractTrigger .wind = (z, b)) :
    w.windGate n = z.emit (.wind (gateSpeed w n) true b) := by
  rw [Work.windGate_of_gust h hg, hz]

end

theorem Work.windGate_of_absent {w : Work} (h : ¬ (w.mv awn).present = true) (n : Nat) : w.windGate n = w := by
  rw [Work.windGate, if_neg h]

theorem Work.lockoutExpiry_of_some {w : Work} {t : Time} (h : w.wind.lockout = some t) : w.lockoutExpiry =
    ({ w with now := max w.now t, wind := { w.wind with lockout := none } } : Work).emit (.wind w.wind.speed false false) := by
  simp only [Work.lockoutExpiry, h]
  rfl

theorem Work.superseded_gateLocked {w : Work} (n : Nat) (h : ∀ r, w.neighbour = some r →
    w.isQueued (moverTarget r) = false ∧ (w.mv r).learn = none ∧ w.anyCh r Channel.stoppable = false ∧
      w.activity r ≠ .dwell) : (w.gateLocked n).superseded = w.gateLocked n :=
  Work.superseded_of_alone (w := w.gateLocked n) h

/-- Settles O56: the trigger by what the awning holds, the gate by whether it is a gust. -/
theorem windGateAndLockout : Obligations.WindGateAndLockout := by
  unfold Obligations.WindGateAndLockout
  refine ⟨?_, ?_⟩
  · intro w p x z starts
    have hstarts : starts ↔ MayStart w p := by cases p <;> exact Iff.rfl
    refine ⟨fun q hq hp => Work.retractTrigger_of_held hq hp, fun hh hp => ?_, fun hh hs => ?_, fun hh hs v hn hr => ?_⟩
    · subst hp
      exact Work.retractTrigger_turns hh
    · exact Work.retractTrigger_of_not hh fun h => hs (hstarts.mpr h)
    · have hv := Work.superseded_of hn hr
      have hz : z = (w.startRetract p, true) := Work.retractTrigger_starts hh (hstarts.mp hs)
      refine ⟨fun h => ?_, fun h => ?_, fun hi hq => ?_⟩
      · rw [hz, Work.startRetract_of_idle hv h]
      · rw [hz, Work.startRetract_of_queued hv h]
      · have hnq : (v.setMv awn { v.mv awn with pendRetract := some p, pendRev := none }).isQueued (moverTarget awn) = false :=
          Bool.eq_false_iff.mpr fun h => hq ((v.isQueued_iff awn).mp h)
        rw [hz, Work.startRetract_of_moving hv hi hq, Work.haltMover_of_not_queued hnq]
  · intro s n ha w now' v windy run gust u till
    refine ⟨fun t ht => exec_of_event ha rfl (Work.lockoutExpiry_of_some ht),
      fun hp => exec_of_event ha rfl (Work.windGate_of_absent (Bool.eq_false_iff.mp hp) n), fun hp => ⟨fun hg hw => ?_, fun hg hw hl => ?_,
      fun hg hst hh => ?_, fun hg => ?_⟩⟩
    · exact exec_of_event ha rfl (Work.windGate_of_calm hp hg hw)
    · exact exec_of_event ha rfl (Work.windGate_of_locked hp hg hw hl)
    · have hns : ¬ MayStart (w.gateLocked n) .wind := fun hm => Bool.false_ne_true (hm.2.2.2.1.symm.trans hst)
      exact exec_of_event ha rfl (Work.windGate_of_trigger hp hg (Work.retractTrigger_of_not hh hns))
    · intro y x ends starts alone
      have hends : ∀ {z b}, (w.gateLocked n).retractTrigger .wind = (z, b) → ends z b := fun hz =>
        exec_of_event ha rfl (Work.windGate_of_trigger hp hg hz)
      have hstarts : MayStart (w.gateLocked n) .wind ↔ starts :=
        ⟨fun ⟨h1, h2, _, h⟩ => ⟨h1, h2, h⟩, fun ⟨h1, h2, h⟩ => ⟨h1, h2, hp, h⟩⟩
      refine ⟨hends rfl, fun hh hs hal hi => hends ?_, fun hh hs hal hi hq => hends ?_,
        fun hh hs => hends (Work.retractTrigger_of_not hh fun h => hs (hstarts.mp h)),
        fun hh => hends (Work.retractTrigger_of_held hh (.inl rfl)), fun hh => hends (Work.retractTrigger_turns hh)⟩
      · rw [Work.retractTrigger_starts (w := w.gateLocked n) hh (hstarts.mpr hs),
          Work.startRetract_of_idle (Work.superseded_gateLocked n hal) hi]
        rfl
      · rw [Work.retractTrigger_starts (w := w.gateLocked n) hh (hstarts.mpr hs),
          Work.startRetract_of_moving (Work.superseded_gateLocked n hal) hi hq]
        rfl

end Sys2Proof.Machine
end

