-- ==== Sys2Proof/Proofs/MoverTimers.lean ====
section
/-! PROOF. A claim from check 3 on, and the timers of a mover: leases, hold-offs and dwells (R32, R34, R36, R37). -/

namespace Sys2Proof.Machine

set_option Elab.async false

open Sys2Proof.Safety

/-! ## A claim from check 3 on -/

/-- The mover with a new claim, its learning run given up. -/
def Work.reclaimed (w : Work) (m : MoverId) (c : Claim) : Work := w.setMv m { w.mv m with claim := some c, learn := none }

theorem Work.reclaimed_mv (w : Work) (m : MoverId) (c : Claim) :
    (w.reclaimed m c).mv m = { w.mv m with claim := some c, learn := none } := Work.mv_setMv_self _ _ _

theorem Work.reclaimed_known (w : Work) (m : MoverId) (c : Claim) : (w.reclaimed m c).known m = w.known m := by
  have hch : (w.reclaimed m c).chansOf m = w.chansOf m := w.chansOf_setMv m m rfl
  simp only [Work.known, Work.allCh, hch]; rfl

theorem Work.moverEntry_reclaimed (w : Work) (m : MoverId) (c : Claim) :
    (w.reclaimed m c).moverEntry m c = entryOf w m c := by
  simp only [Work.moverEntry, Work.moverDraw, Work.reclaimed_mv]; rfl

theorem Work.presentClaim_eq (w : Work) (m : MoverId) (c : Claim) :
    w.presentClaim m c none = match (w.reclaimed m c).presentEntry (entryOf w m c) with
      | (w2, .accepted) => (w2.admitMover m, replyAccepted)
      | (w2, .queued) => (w2.setQueued m true, replyQueued)
      | _ => (w, replyQueueFull) := by
  rw [← Work.moverEntry_reclaimed]
  rfl

theorem Work.presentClaim_fits {w : Work} {m : MoverId} (c : Claim) (hf : Fits w (w.moverDraw m)) :
    w.presentClaim m c none =
      ((admitted (w.reclaimed m c) (moverTarget m) (w.moverDraw m)).handOver m c.source c.dir (profileOf w m), replyAccepted) := by
  have hp : (w.reclaimed m c).presentEntry (entryOf w m c) =
      (admitted (w.reclaimed m c) (moverTarget m) (w.moverDraw m), .accepted) :=
    Work.presentEntry_of_fits (w := w.reclaimed m c) (q := entryOf w m c) hf
  have hc : ((admitted (w.reclaimed m c) (moverTarget m) (w.moverDraw m)).mv m).claim = some c :=
    congrArg Mover.claim (w.reclaimed_mv m c)
  have hl : ((admitted (w.reclaimed m c) (moverTarget m) (w.moverDraw m)).mv m).learn = none :=
    congrArg Mover.learn (w.reclaimed_mv m c)
  have hk : profileOf (admitted (w.reclaimed m c) (moverTarget m) (w.moverDraw m)) m = profileOf w m :=
    congrArg (fun b : Bool => if b then MotionProfile.normal else .homing) (w.reclaimed_known m c)
  rw [Work.presentClaim_eq, hp]
  dsimp only
  rw [Work.admitMover_of_claim hc hl, hk]

theorem Work.presentClaim_room {w : Work} {m : MoverId} (c : Claim) (hf : ¬ Fits w (w.moverDraw m))
    (hl : waiting w < w.queueLimit) : w.presentClaim m c none =
      ((queued (w.reclaimed m c) (entryOf w m c)).setQueued m true, replyQueued) := by
  have hp : (w.reclaimed m c).presentEntry (entryOf w m c) = (queued (w.reclaimed m c) (entryOf w m c), .queued) :=
    Work.presentEntry_of_room (w := w.reclaimed m c) (q := entryOf w m c) hf hl
  rw [Work.presentClaim_eq, hp]

theorem Work.presentClaim_full {w : Work} {m : MoverId} (c : Claim) (hf : ¬ Fits w (w.moverDraw m))
    (hl : w.queueLimit ≤ waiting w) : w.presentClaim m c none = (w, replyQueueFull) := by
  have hp : (w.reclaimed m c).presentEntry (entryOf w m c) = (w.reclaimed m c, .queueFull) :=
    Work.presentEntry_of_full (w := w.reclaimed m c) (q := entryOf w m c) hf hl
  rw [Work.presentClaim_eq, hp]

theorem Work.newClaim_eq (w : Work) (m : MoverId) (src : Source) (d : Dir) (lease : Option Time) :
    w.newClaim m src d lease =
      { claimOf w m src d with lease := if m = awn ∧ w.oneTouch = true then none else lease } := by
  by_cases hm : m = awn
  · cases ho : w.oneTouch <;> simp [Work.newClaim, Work.claimKind, claimOf, hm, ho]
  · simp [Work.newClaim, Work.claimKind, claimOf, hm]

theorem Work.claimFrom3_of_refusal {w : Work} {m : MoverId} {d : Dir} {r : Reply}
    (h : w.claimRefusal m d true [moveClass m d] = some r) (src : Source) (lease : Option Time) :
    w.claimFrom3 m src d lease = (w, r) := by
  simp only [Work.claimFrom3, h]

/-- No check of R32 answers RENEWED. -/
theorem Work.claimRefusal_not_renewed {w : Work} {m : MoverId} {d : Dir} {b : Bool} {cs : List MoveClass} {r : Reply}
    (h : w.claimRefusal m d b cs = some r) : r.status ≠ .renewed := by
  simp only [Work.claimRefusal] at h
  repeat' split at h
  all_goals (first | (cases h; done) | (obtain rfl := Option.some.inj h; exact Status.noConfusion))

theorem Work.claimFrom3_not_renewed (w : Work) (m : MoverId) (src : Source) (d : Dir) (lease : Option Time) :
    (w.claimFrom3 m src d lease).2.status ≠ .renewed := by
  simp only [Work.claimFrom3]
  split
  · next h => exact Work.claimRefusal_not_renewed h
  · split
    · exact Status.noConfusion
    · rw [Work.presentClaim_eq]
      split <;> exact Status.noConfusion

/-! ## The timers of a mover -/

theorem Work.leaseExpiry_of {w : Work} {m : MoverId} {c : Claim} {t : Time} (hc : (w.mv m).claim = some c)
    (hl : c.lease = some t) : w.leaseExpiry m = (w.notBefore t).haltMover m .leaseExpired := by
  have h : (w.mv m).claim.bind (·.lease) = some t := by rw [hc]; exact hl
  simp only [Work.leaseExpiry, h]

theorem Work.holdOffExpiry_of {w : Work} {m : MoverId} {d : Dir} {t : Time} (h : (w.mv m).holdOff = some (d, t)) :
    w.holdOffExpiry m = (w.notBefore t).setMv m { w.mv m with holdOff := none } := by
  simp only [Work.holdOffExpiry, h]

theorem Work.reversalExpiry_of {w : Work} {m : MoverId} {r : Reversal} {t : Time} (hr : (w.mv m).pendRev = some r)
    (hl : r.lease = some t) : w.reversalExpiry m = (w.notBefore t).setMv m { w.mv m with pendRev := none } := by
  have h : (w.mv m).pendRev.bind (·.lease) = some t := by rw [hr]; exact hl
  simp only [Work.reversalExpiry, h]

/-- The work at the end of a dwell. -/
def Work.dwellOver (w : Work) (m : MoverId) (t : Time) : Work :=
  (w.notBefore t).setMv m { w.mv m with dwellEnd := none }

theorem Work.roomDwellEnd_of {w : Work} {m : MoverId} {t : Time} (h : (w.mv m).dwellEnd = some t) :
    w.roomDwellEnd m = (w.dwellOver m t).takeReversal m := by
  simp only [Work.roomDwellEnd, h]; rfl

theorem Work.dwellOver_mv (w : Work) (m : MoverId) (t : Time) :
    (w.dwellOver m t).mv m = { w.mv m with dwellEnd := none } := Work.mv_setMv_self _ _ _

theorem Work.awningDwellEnd_of {w : Work} {t : Time} (h : (w.mv awn).dwellEnd = some t) : w.awningDwellEnd =
    match (w.mv awn).pendRetract with
    | some p => (w.dwellOver awn t).presentRetract p
    | none => (w.dwellOver awn t).takeReversal awn := by
  have hp : ((w.dwellOver awn t).mv awn).pendRetract = (w.mv awn).pendRetract :=
    by rw [Work.dwellOver_mv]
  rw [← hp]
  simp only [Work.awningDwellEnd, h]
  rfl

theorem Work.takeReversal_of_none {w : Work} {m : MoverId} (h : (w.mv m).pendRev = none) : w.takeReversal m = w := by
  simp only [Work.takeReversal, h]

/-- The work whose pending reversal is taken. -/
def Work.reversalTaken (w : Work) (m : MoverId) : Work := w.setMv m { w.mv m with pendRev := none }

theorem Work.reversalTaken_mv (w : Work) (m : MoverId) :
    (w.reversalTaken m).mv m = { w.mv m with pendRev := none } := Work.mv_setMv_self _ _ _

/-- A LINK reversal is taken while its lease runs. -/
theorem Work.takeReversal_of_link {w : Work} {m : MoverId} {r : Reversal} {d : Time} (h : (w.mv m).pendRev = some r)
    (hs : r.source = .link) (hl : r.lease = some d) : w.takeReversal m =
      if w.now < d then ((w.reversalTaken m).claimFrom3 m .link r.dir (some d)).1 else w.reversalTaken m := by
  have hn : (w.reversalTaken m).now = w.now := rfl
  simp only [Work.takeReversal, h, hs, hl, decide_eq_true_eq]
  rfl

/-- A PANEL reversal is taken while its switch is pressed. -/
theorem Work.takeReversal_of_panel {w : Work} {m : MoverId} {r : Reversal} (h : (w.mv m).pendRev = some r)
    (hs : r.source = .panel) : w.takeReversal m =
      if ((w.mv m).switch r.dir).pressed = true then
        if ((w.reversalTaken m).claimFrom3 m .panel r.dir r.lease).2.keepsSwitch = false then
          Work.spend ((w.reversalTaken m).claimFrom3 m .panel r.dir r.lease).1 m r.dir
        else ((w.reversalTaken m).claimFrom3 m .panel r.dir r.lease).1
      else w.reversalTaken m := by
  have hsw : ((w.reversalTaken m).mv m).switch r.dir = (w.mv m).switch r.dir := by rw [Work.reversalTaken_mv]; rfl
  simp only [Work.takeReversal, h, hs, ← hsw, true_and]
  rfl

theorem keepsSwitch_iff {r : Reply} (h : r.status ≠ .renewed) :
    r.keepsSwitch = true ↔ r.status = .accepted ∨ r.status = .queued := by
  simp [Reply.keepsSwitch, h]

theorem Work.dwellOver_reversalTaken (w : Work) (m : MoverId) (t : Time) : (w.dwellOver m t).reversalTaken m =
    (w.notBefore t).setMv m { w.mv m with dwellEnd := none, pendRev := none } := by
  rw [Work.reversalTaken, Work.dwellOver_mv, Work.dwellOver, Work.setMv_setMv]

theorem exec_dwellEndOf (s : State) (m : MoverId) : exec (dwellEndOf m) s =
    .next (event s fun w => if m = awn then w.awningDwellEnd else w.roomDwellEnd m) := by
  by_cases h : m.val < 4
  · have hne : m ≠ awn := fun e => by rw [e] at h; exact absurd h (by decide)
    have hm : roomMover ⟨m.val, h⟩ = m := Fin.ext rfl
    have he : dwellEndOf m = .roomDwellEnd ⟨m.val, h⟩ := dif_pos h
    simp only [he, if_neg hne]
    show execRoomDwellEnd ⟨m.val, h⟩ s = _
    simp only [execRoomDwellEnd, hm]
  · have hm : m = awn := Fin.ext (by have := m.isLt; show m.val = 4; omega)
    subst hm
    rfl

/-- A dwell that no retract waits for ends in the pending reversal (R37). -/
theorem exec_dwellEndOf_of {s : State} {m : MoverId} {t : Time} {z : Work} (ha : s.work.awake = true)
    (hd : (s.work.mv m).dwellEnd = some t) (hp : (s.work.mv m).pendRetract = none)
    (hz : (s.work.dwellOver m t).takeReversal m = z) : exec (dwellEndOf m) s = .next (finish s z none) := by
  refine exec_of_event ha (exec_dwellEndOf s m) ?_
  split
  · next e => subst e; rw [Work.awningDwellEnd_of hd, hp]; exact hz
  · rw [Work.roomDwellEnd_of hd]; exact hz

/-- A dwell that a retract waits for ends in its presentation (R127). -/
theorem exec_dwellEndOf_of_retract {s : State} {t : Time} {p : Purpose} (ha : s.work.awake = true)
    (hd : (s.work.mv awn).dwellEnd = some t) (hp : (s.work.mv awn).pendRetract = some p) :
    exec (dwellEndOf awn) s = .next (finish s ((s.work.dwellOver awn t).presentRetract p) none) := by
  refine exec_of_event ha (exec_dwellEndOf s awn) ?_
  rw [if_pos rfl, Work.awningDwellEnd_of hd, hp]

/-- Settles O54: a claim by the checks of R32 and the table of R144, a dwell by what waits for its end. -/
theorem moverTimersExpire : Obligations.MoverTimersExpire := by
  unfold Obligations.MoverTimersExpire
  refine ⟨?_, ?_⟩
  · intro w m src d lease draw c w1 gives
    have href {r : Reply} (h : w.claimRefusal m d true [moveClass m d] = some r) : gives w r :=
      Work.claimFrom3_of_refusal h src lease
    refine ⟨fun h => href (Work.claimRefusal_of_fenced h), fun h hx => href (Work.claimRefusal_of_faulted h hx),
      fun h hx => ⟨fun hd hk => href (Work.claimRefusal_of_unknown h hx (by simp [hd, hk])), fun hk => ?_⟩,
      fun hc he => ?_, fun hc he => ?_⟩
    · have hsound := Work.claimRefusal_of_sound (cs := [moveClass m d]) h hx (position_serves hk)
      refine ⟨fun hb => href ?_, fun hl ha => ?_⟩
      · rw [hsound, Work.hydBlocks_eq_true.mpr hb]; rfl
      · rw [hydBlocks_eq_false hl ha] at hsound
        refine ⟨fun id hid => href ?_, fun hi hcf => href ?_⟩
        · rw [hsound, lowestBlocking_of_lowest hid]; rfl
        · rw [hsound, lowestBlocking_of_clear hi, hcf]; rfl
    · show w.claimFrom3 m src d lease = _
      rw [Work.claimFrom3_of_cleared hc, if_pos he]; rfl
    · have hclaim : w.claimFrom3 m src d lease = w.presentClaim m c none := by
        rw [Work.claimFrom3_of_cleared hc, if_neg (by simp [he]), Work.newClaim_eq]
      refine ⟨fun hf => hclaim.trans ?_, fun hf hl => hclaim.trans (Work.presentClaim_room c hf hl),
        fun hf hl => hclaim.trans (Work.presentClaim_full c hf hl)⟩
      rw [Work.presentClaim_fits c hf]
      show (_, _) = (_, _)
      have hs : c.source = src := claimOf_source w m src d
      have hd : c.dir = d := claimOf_dir w m src d
      rw [hs, hd]; rfl
  · intro s m t ha w x z
    refine ⟨fun c hc hl => exec_of_event ha rfl (Work.leaseExpiry_of hc hl),
      fun d h => exec_of_event ha rfl (Work.holdOffExpiry_of h),
      fun r hr hl => exec_of_event ha rfl (Work.reversalExpiry_of hr hl), fun hd hp hr => ?_,
      fun r d hd hp hr hs hl hle => ?_, fun r d hd hp hr hs hl hlt => ?_, fun r hd hp hr hs => ?_, ?_⟩
    · exact exec_dwellEndOf_of ha hd hp (Work.takeReversal_of_none (by rw [Work.dwellOver_mv]; exact hr))
    · refine exec_dwellEndOf_of ha hd hp ?_
      rw [Work.takeReversal_of_link (by rw [Work.dwellOver_mv]; exact hr) hs hl, if_neg (show ¬ (s.work.dwellOver m t).now < d from Nat.not_lt_of_le hle),
        Work.dwellOver_reversalTaken]
    · refine exec_dwellEndOf_of ha hd hp ?_
      rw [Work.takeReversal_of_link (by rw [Work.dwellOver_mv]; exact hr) hs hl, if_pos (show (s.work.dwellOver m t).now < d from hlt),
        Work.dwellOver_reversalTaken]
    · intro y u kept
      have hrev : ((w.dwellOver m t).mv m).pendRev = some r := by rw [Work.dwellOver_mv]; exact hr
      have hsw : (((w.dwellOver m t).mv m).switch r.dir) = x.switch r.dir := by rw [Work.dwellOver_mv]; rfl
      have htake := Work.takeReversal_of_panel hrev hs
      rw [hsw, Work.dwellOver_reversalTaken] at htake
      have hkeep := keepsSwitch_iff (Work.claimFrom3_not_renewed (z.setMv m y) m .panel r.dir r.lease)
      refine ⟨fun h => exec_dwellEndOf_of ha hd hp ?_, fun h => ⟨fun hk => exec_dwellEndOf_of ha hd hp ?_,
        fun hk => exec_dwellEndOf_of ha hd hp ?_⟩⟩
      · rw [htake, h]; rfl
      · rw [htake, if_pos h, if_neg (Bool.not_eq_false _ ▸ hkeep.mpr hk)]
      · rw [htake, if_pos h, if_pos (Bool.eq_false_iff.mpr fun h => hk (hkeep.mp h))]
        rfl
    · rintro p rfl hd hp
      exact exec_dwellEndOf_of_retract ha hd hp

end Sys2Proof.Machine
end

