-- ==== Sys2Proof/Proofs/Wet.lean ====
section
/-! PROOF. What the work on rooms and awning never touches: the hydraulic unit, the jacks, the procedure and the entries of the
pump in queue and admitted list. One lemma an operation, in the order of the model. -/

namespace Sys2Proof.Machine

set_option Elab.async false

/-- The parts that belong to the hydraulic circuit. -/
structure Wet where
  hyd : Hyd
  jacks : Vector Jack 6
  lvl : Level
  waits : Nat
  draws : List Admitted

/-- The entries of the pump in the admission queue. -/
def Budget.waits (b : Budget) : Nat := (b.queue.filter fun q => q.target == hydTarget).length

/-- The entries of the pump in the admitted list. -/
def Budget.draws (b : Budget) : List Admitted := b.admitted.filter fun a => a.target == hydTarget

def Work.wet (w : Work) : Wet :=
  { hyd := w.hyd, jacks := w.jacks, lvl := w.lvl, waits := w.bud.waits, draws := w.bud.draws }

theorem moverTarget_ne_hyd (m : MoverId) : (moverTarget m == hydTarget) = false := by
  revert m; decide

theorem foldl_wet {α : Type} (l : List α) {f : Work → α → Work} (h : ∀ w x, (f w x).wet = w.wet) (w : Work) :
    (l.foldl f w).wet = w.wet := by
  induction l generalizing w with
  | nil => rfl
  | cons a l ih => rw [List.foldl_cons, ih, h]

/-! ## Records, store and budget -/

@[simp] theorem Work.setCh_wet (w : Work) (c : ChanId) (x : Channel) : (w.setCh c x).wet = w.wet := rfl
@[simp] theorem Work.setMv_wet (w : Work) (m : MoverId) (x : Mover) : (w.setMv m x).wet = w.wet := rfl
@[simp] theorem Work.emit_wet (w : Work) (e : Event) : (w.emit e).wet = w.wet := rfl
@[simp] theorem Work.clampPos_wet (w : Work) (c : ChanId) : (w.clampPos c).wet = w.wet := rfl
@[simp] theorem Work.setLearned_wet (w : Work) (c : ChanId) (s : Option Nat) : (w.setLearned c s).wet = w.wet := rfl
@[simp] theorem Work.notBefore_wet (w : Work) (t : Time) : (w.notBefore t).wet = w.wet := rfl

@[simp] theorem Work.serveNext_wet (w : Work) : w.serveNext.wet = w.wet := by
  simp only [Work.serveNext]; split <;> rfl

@[simp] theorem Work.askCheckpoint_wet (w : Work) (c : ChanId) (b : Bool) : (w.askCheckpoint c b).wet = w.wet := by
  simp only [Work.askCheckpoint, Work.serveNext_wet]; rfl

@[simp] theorem Work.askLearned_wet (w : Work) : w.askLearned.wet = w.wet := by
  simp only [Work.askLearned]; split
  · rfl
  · simp only [Work.serveNext_wet]; rfl

theorem filter_ne_filter_eq {α : Type} (l : List α) (f : α → Fin 6) {t u : Fin 6} (h : (t == u) = false) :
    (l.filter fun a => f a != t).filter (fun a => f a == u) = l.filter fun a => f a == u := by
  rw [List.filter_filter]
  refine List.filter_congr fun a _ => ?_
  cases ha : (f a == u)
  · rfl
  · rw [eq_of_beq ha, Bool.true_and, bne_iff_ne]
    exact fun e => by simp [e] at h

theorem wet_eq {w z : Work} (hh : z.hyd = w.hyd) (hj : z.jacks = w.jacks) (hl : z.lvl = w.lvl)
    (hq : z.bud.waits = w.bud.waits) (ha : z.bud.draws = w.bud.draws) : z.wet = w.wet := by
  simp only [Work.wet, hh, hj, hl, hq, ha]

@[simp] theorem Work.release_wet (w : Work) (m : MoverId) : (w.release (moverTarget m)).wet = w.wet :=
  wet_eq rfl rfl rfl rfl (filter_ne_filter_eq w.bud.admitted (·.target) (moverTarget_ne_hyd m))

@[simp] theorem Work.dequeue_wet (w : Work) (m : MoverId) : (w.dequeue (moverTarget m)).wet = w.wet :=
  wet_eq rfl rfl rfl (congrArg List.length (filter_ne_filter_eq w.bud.queue (·.target) (moverTarget_ne_hyd m))) rfl

theorem Budget.draws_enlist (b : Budget) (m : MoverId) (n : Nat) (t : Time) :
    (b.enlist (moverTarget m) n t).draws = b.draws := by
  simp [Budget.draws, Budget.enlist, moverTarget_ne_hyd]

theorem Budget.waits_append (b : Budget) {q : Queued} {m : MoverId} (h : q.target = moverTarget m) :
    ({ b with queue := b.queue ++ [q] } : Budget).waits = b.waits := by
  simp [Budget.waits, h, moverTarget_ne_hyd]

theorem Budget.waits_cons (b : Budget) {q : Queued} {m : MoverId} (h : q.target = moverTarget m) :
    ({ b with queue := q :: b.queue } : Budget).waits = b.waits := by
  simp [Budget.waits, h, moverTarget_ne_hyd]

/-- A change of the entries that leaves their targets. -/
theorem Budget.waits_map (b : Budget) {f : Queued → Queued} (h : ∀ q, (f q).target = q.target) :
    ({ b with queue := b.queue.map f } : Budget).waits = b.waits := by
  simp [Budget.waits, List.filter_map, Function.comp_def, h]

/-! ## Motions -/

@[simp] theorem Work.handOver_wet (w : Work) (m : MoverId) (s : Source) (d : Dir) (p : MotionProfile) :
    (w.handOver m s d p).wet = w.wet := by
  simp only [Work.handOver]
  rw [foldl_wet _ fun w c => by simp]; rfl

@[simp] theorem Work.setQueued_wet (w : Work) (m : MoverId) (q : Bool) : (w.setQueued m q).wet = w.wet := by
  simp only [Work.setQueued]
  exact foldl_wet _ (fun w c => by split <;> split <;> simp) w

theorem Work.presentEntry_wet (w : Work) {q : Queued} {m : MoverId} (h : q.target = moverTarget m) :
    (w.presentEntry q).1.wet = w.wet := by
  simp only [Work.presentEntry]
  split
  · exact wet_eq rfl rfl rfl rfl (by rw [h, Budget.draws_enlist])
  · split
    · exact wet_eq rfl rfl rfl (Budget.waits_append _ h) rfl
    · rfl

@[simp] theorem Work.forgetPosition_wet (w : Work) (m : MoverId) : (w.forgetPosition m).wet = w.wet := by
  simp only [Work.forgetPosition]; exact foldl_wet _ (fun w c => by simp) w

@[simp] theorem Work.clampMover_wet (w : Work) (m : MoverId) : (w.clampMover m).wet = w.wet := by
  simp only [Work.clampMover]; exact foldl_wet _ (fun w c => by simp) w

@[simp] theorem Work.beginLearn_wet (w : Work) (m : MoverId) (l : LearnRun) : (w.beginLearn m l).wet = w.wet := by
  simp only [Work.beginLearn]; split <;> simp

@[simp] theorem Work.admitMover_wet (w : Work) (m : MoverId) : (w.admitMover m).wet = w.wet := by
  simp only [Work.admitMover]; split <;> [rfl; (split <;> simp)]

@[simp] theorem Work.presentClaim_wet (w : Work) (m : MoverId) (c : Claim) (l : Option LearnRun) :
    (w.presentClaim m c l).1.wet = w.wet := by
  simp only [Work.presentClaim]
  have h := Work.presentEntry_wet (w.setMv m { w.mv m with claim := some c, learn := l })
    (q := (w.setMv m { w.mv m with claim := some c, learn := l }).moverEntry m c) (m := m) rfl
  split
  · next h' => rw [h'] at h; rw [Work.admitMover_wet]; exact h
  · next h' => rw [h'] at h; rw [Work.setQueued_wet]; exact h
  · rfl

@[simp] theorem Work.dropRetract_wet (w : Work) (c : Cause) : (w.dropRetract c).wet = w.wet := by
  simp only [Work.dropRetract]; split <;> simp

@[simp] theorem Work.presentRetract_wet (w : Work) (p : Purpose) : (w.presentRetract p).wet = w.wet := by
  simp only [Work.presentRetract]
  repeat' split
  all_goals simp only [Work.dropRetract_wet, Work.setQueued_wet, Work.admitMover_wet, Work.queueHead, Work.setMv_wet]
  · exact wet_eq rfl rfl rfl rfl (Budget.draws_enlist _ awn _ _)
  · exact wet_eq rfl rfl rfl (Budget.waits_cons _ (m := awn) rfl) rfl

@[simp] theorem Work.endClaim_wet (w : Work) (m : MoverId) : (w.endClaim m).wet = w.wet := by
  simp only [Work.endClaim]; split <;> [rfl; (split <;> simp)]

@[simp] theorem Work.abortLearn_wet (w : Work) (m : MoverId) : (w.abortLearn m).wet = w.wet := by
  simp only [Work.abortLearn]; split <;> simp

@[simp] theorem Work.noteCause_wet (w : Work) (m : MoverId) (c : Cause) : (w.noteCause m c).wet = w.wet := by
  simp only [Work.noteCause]; split <;> [rfl; (split <;> simp)]

@[simp] theorem Work.afterMotion_wet (w : Work) (m : MoverId) (r : Run) : (w.afterMotion m r).wet = w.wet := by
  simp only [Work.afterMotion]; repeat' split
  all_goals simp

@[simp] theorem Work.closeMotion_wet (w : Work) (m : MoverId) (r : Run) (c : Cause) :
    (w.closeMotion m r c).wet = w.wet := by
  simp [Work.closeMotion]

@[simp] theorem Work.finishLearn_wet (w : Work) (m : MoverId) (l : LearnRun) : (w.finishLearn m l).wet = w.wet := by
  simp only [Work.finishLearn]
  rw [apply_ite Work.wet]
  simp only [Work.emit_wet, Work.askLearned_wet, Work.clampMover_wet]
  rw [foldl_wet _ fun w c => by split <;> simp]
  exact ite_self _

@[simp] theorem Work.outwardLeg_wet (w : Work) (m : MoverId) (l : LearnRun) : (w.outwardLeg m l).wet = w.wet := by
  simp [Work.outwardLeg]

@[simp] theorem Work.moverEnd_wet (w : Work) (m : MoverId) : (w.moverEnd m).wet = w.wet := by
  simp only [Work.moverEnd]; repeat' split
  all_goals simp

@[simp] theorem Work.recordEnd_wet (w : Work) (c : ChanId) (x : Option Int) : (w.recordEnd c x).wet = w.wet := by
  simp only [Work.recordEnd]; repeat' split
  all_goals simp

@[simp] theorem Work.endIfAtRest_wet (w : Work) (m : MoverId) : (w.endIfAtRest m).wet = w.wet := by
  simp only [Work.endIfAtRest]; split <;> simp

@[simp] theorem Work.stopChan_wet (w : Work) (c : Cause) (d : ChanId) : (w.stopChan c d).wet = w.wet := by
  simp only [Work.stopChan]; split <;> simp

@[simp] theorem Work.stopMover_wet (w : Work) (m : MoverId) (c : Cause) : (w.stopMover m c).wet = w.wet := by
  have hl : (if (w.mv m).learn.isSome then (w.abortLearn m).endClaim m else w).wet = w.wet := by split <;> simp
  simp only [Work.stopMover]
  generalize (if (w.mv m).learn.isSome then (w.abortLearn m).endClaim m else w) = z at hl ⊢
  split
  · rw [Work.endIfAtRest_wet, foldl_wet _ fun w d => Work.stopChan_wet w c d, Work.noteCause_wet, Work.endClaim_wet, hl]
  · exact hl

@[simp] theorem Work.removeQueued_wet (w : Work) (m : MoverId) (c : Cause) : (w.removeQueued m c).wet = w.wet := by
  simp only [Work.removeQueued]; split <;> simp

@[simp] theorem Work.haltMover_wet (w : Work) (m : MoverId) (c : Cause) : (w.haltMover m c).wet = w.wet := by
  simp only [Work.haltMover]; split <;> simp

/-! ## Locks, racking, counts, seats and ends -/

@[simp] theorem Work.noteLock_wet (w : Work) (c : ChanId) (k : LockKind) (a : Policy) (n : Nat) :
    (w.noteLock c k a n).wet = w.wet := rfl

@[simp] theorem Work.receiveLock_wet (w : Work) (m : MoverId) (c : ChanId) (a : Policy) :
    (w.receiveLock m c a).wet = w.wet := by
  simp only [Work.receiveLock]; repeat' split
  all_goals simp

@[simp] theorem Work.losePosition_wet (w : Work) (c : ChanId) : (w.losePosition c).wet = w.wet := by
  simp [Work.losePosition]

@[simp] theorem Work.endWork_wet (w : Work) (m : MoverId) : (w.endWork m).wet = w.wet := by simp [Work.endWork]

theorem Work.latchChan_wet (w : Work) (k : LockKind) (b : Bool) (c : ChanId) : (w.latchChan k b c).wet = w.wet := by
  simp only [Work.latchChan]; split <;> rfl

@[simp] theorem Work.latchMover_wet (w : Work) (m : MoverId) (k : LockKind) (b : Bool) :
    (w.latchMover m k b).wet = w.wet := by
  simp only [Work.latchMover]
  rw [foldl_wet _ fun w c => Work.latchChan_wet w k b c, Work.noteCause_wet, Work.endWork_wet]

@[simp] theorem Work.retryMover_wet (w : Work) (m : MoverId) (c : ChanId) : (w.retryMover m c).wet = w.wet := by
  simp only [Work.retryMover]
  rw [foldl_wet _ fun w c => by simp, Work.abortLearn_wet]

@[simp] theorem Work.makeHoming_wet (w : Work) (m : MoverId) : (w.makeHoming m).wet = w.wet := by
  simp only [Work.makeHoming]
  rw [foldl_wet _ fun w c => by simp]
  split <;> simp

@[simp] theorem Work.turnHoming_wet (w : Work) (m : MoverId) : (w.turnHoming m).wet = w.wet := by
  simp only [Work.turnHoming]
  rw [foldl_wet _ fun w c => by simp, Work.makeHoming_wet]

@[simp] theorem Work.goOn_wet (w : Work) (m : MoverId) (c : ChanId) (a : Policy) (b : Bool) (d : Dir) :
    (w.goOn m c a b d).wet = w.wet := by
  simp only [Work.goOn]; repeat' split
  all_goals simp

@[simp] theorem Work.actOnLock_wet (w : Work) (m : MoverId) (c : ChanId) (k : LockKind) (d : Dir) :
    (w.actOnLock m c k d).wet = w.wet := by
  simp only [Work.actOnLock]
  repeat' split
  all_goals simp

@[simp] theorem Work.raiseLock_wet (w : Work) (c : ChanId) (k : LockKind) : (w.raiseLock c k).wet = w.wet := by
  simp only [Work.raiseLock]; repeat' split
  all_goals simp

@[simp] theorem Work.rackChan_wet (w : Work) (c : ChanId) : (w.rackChan c).wet = w.wet := by
  simp only [Work.rackChan]; repeat' split
  all_goals simp

@[simp] theorem Work.rackLock_wet (w : Work) (m : MoverId) : (w.rackLock m).wet = w.wet := by
  simp only [Work.rackLock, Work.endIfAtRest_wet, Work.setMv_wet]
  rw [foldl_wet _ fun w c => w.rackChan_wet c, Work.noteCause_wet, Work.endWork_wet]

@[simp] theorem Work.judgeRack_wet (w : Work) (m : MoverId) : (w.judgeRack m).wet = w.wet := by
  simp only [Work.judgeRack]; split <;> simp

@[simp] theorem Work.enterRamp_wet (w : Work) (m : MoverId) (p : Channel → Bool) : (w.enterRamp m p).wet = w.wet := by
  simp only [Work.enterRamp]
  split
  · simp
  · split
    · rfl
    · exact foldl_wet _ (fun w c => by split <;> simp) w

@[simp] theorem Work.countChan_wet (w : Work) (c : ChanId) : (w.countChan c).wet = w.wet := rfl

@[simp] theorem Work.hallCount_wet (w : Work) (c : ChanId) : (w.hallCount c).wet = w.wet := by
  simp only [Work.hallCount, Work.judgeOverspeed, Work.judgeRange]; repeat' split
  all_goals simp

@[simp] theorem Work.afterSeat_wet (w : Work) (m : MoverId) : (w.afterSeat m).wet = w.wet := by
  simp only [Work.afterSeat]; repeat' split
  all_goals simp

@[simp] theorem Work.seatIn_wet (w : Work) (m : MoverId) (c : ChanId) : (w.seatIn m c).wet = w.wet := by
  simp [Work.seatIn]

@[simp] theorem Work.seatOut_wet (w : Work) (m : MoverId) (c : ChanId) : (w.seatOut m c).wet = w.wet := by
  have hm : (w.measure m c).wet = w.wet := by
    simp only [Work.measure]; repeat' split
    all_goals simp
  simp [Work.seatOut, hm]

@[simp] theorem Work.judgeStall_wet (w : Work) (m : MoverId) (c : ChanId) (mo : Motion) :
    (w.judgeStall m c mo).wet = w.wet := by
  simp only [Work.judgeStall]; repeat' split
  all_goals simp

@[simp] theorem Work.judgeOvercurrent_wet (w : Work) (c : ChanId) : (w.judgeOvercurrent c).wet = w.wet := by
  simp only [Work.judgeOvercurrent]; repeat' split
  all_goals simp

@[simp] theorem Work.endChan_wet (w : Work) (m : MoverId) (c : ChanId) (mo : Motion) :
    (w.endChan m c mo).wet = w.wet := by
  simp [Work.endChan]

@[simp] theorem Work.reportWritten_wet (w : Work) (c : ChanId) (n : Option Nat) : (w.reportWritten c n).wet = w.wet := by
  simp only [Work.reportWritten]; repeat' split
  all_goals simp

@[simp] theorem Work.endRetry_wet (w : Work) (m : MoverId) : (w.endRetry m).wet = w.wet := by
  simp only [Work.endRetry]; split <;> simp

@[simp] theorem Work.updateMover_wet (w : Work) (m : MoverId) (mo : Motion) : (w.updateMover m mo).wet = w.wet := by
  simp only [Work.updateMover]
  exact foldl_wet _ (fun w c => by simp) _

/-! ## Claims -/

@[simp] theorem Work.claimFrom3_wet (w : Work) (m : MoverId) (s : Source) (d : Dir) (l : Option Time) :
    (w.claimFrom3 m s d l).1.wet = w.wet := by
  simp only [Work.claimFrom3]; repeat' split
  all_goals simp

@[simp] theorem Work.renew_wet (w : Work) (m : MoverId) : (w.renew m).wet = w.wet := by
  exact wet_eq rfl rfl rfl (Budget.waits_map w.bud fun q => by split <;> rfl) rfl

@[simp] theorem Work.spend_wet (w : Work) (m : MoverId) (d : Dir) : (w.spend m d).wet = w.wet := rfl
@[simp] theorem Work.markDwell_wet (w : Work) (m : MoverId) : (w.markDwell m).wet = w.wet := rfl

@[simp] theorem Work.stopRetract_wet (w : Work) (c : Cause) : (w.stopRetract c).wet = w.wet := by
  simp only [Work.stopRetract]; split <;> simp

@[simp] theorem Work.contendRetract_wet (w : Work) (p : Purpose) (s : Source) (d : Dir) :
    (w.contendRetract p s d).1.wet = w.wet := by
  simp only [Work.contendRetract]; split <;> simp

@[simp] theorem Work.contendStopping_wet (w : Work) (m : MoverId) (s : Source) (d : Dir) :
    (w.contendStopping m s d).1.wet = w.wet := by
  simp only [Work.contendStopping]; repeat' split
  all_goals simp

@[simp] theorem Work.bothPressed_wet (w : Work) (m : MoverId) : (w.bothPressed m).wet = w.wet := by
  simp only [Work.bothPressed]
  generalize (if m = awn then _ else none) = r
  split <;> simp

@[simp] theorem Work.releaseSwitch_wet (w : Work) (m : MoverId) (d : Dir) : (w.releaseSwitch m d).wet = w.wet := by
  simp only [Work.releaseSwitch]
  split
  · split <;> split <;> simp
  · split <;> simp

@[simp] theorem Work.stopAllOf_wet (w : Work) (m : MoverId) : (w.stopAllOf m).wet = w.wet := by
  simp [Work.stopAllOf]

@[simp] theorem Work.stopAwning_wet (w : Work) : w.stopAwning.1.wet = w.wet := by
  simp only [Work.stopAwning]; split <;> simp

@[simp] theorem Work.stopAwningOfAll_wet (w : Work) : w.stopAwningOfAll.wet = w.wet := by
  simp only [Work.stopAwningOfAll]; split <;> simp

@[simp] theorem Work.takeReversal_wet (w : Work) (m : MoverId) : (w.takeReversal m).wet = w.wet := by
  simp only [Work.takeReversal]; repeat' split
  all_goals simp

@[simp] theorem Work.superseded_wet (w : Work) : w.superseded.wet = w.wet := by
  simp only [Work.superseded]; repeat' split
  all_goals simp

@[simp] theorem Work.turnWind_wet (w : Work) : w.turnWind.wet = w.wet := by
  exact wet_eq rfl rfl rfl (Budget.waits_map w.bud fun _ => rfl) rfl

@[simp] theorem Work.startRetract_wet (w : Work) (p : Purpose) : (w.startRetract p).wet = w.wet := by
  simp only [Work.startRetract]; split <;> simp

@[simp] theorem Work.retractTrigger_wet (w : Work) (p : Purpose) : (w.retractTrigger p).1.wet = w.wet := by
  simp only [Work.retractTrigger]; repeat' split
  all_goals simp

@[simp] theorem Work.clearChan_wet (w : Work) (c : ChanId) : (w.clearChan c).wet = w.wet := by
  simp only [Work.clearChan, Work.unrack]; repeat' split
  all_goals simp

@[simp] theorem Work.fenceChan_wet (w : Work) (c : ChanId) : (w.fenceChan c).wet = w.wet := by
  simp only [Work.fenceChan]; repeat' split
  all_goals simp

@[simp] theorem Work.learnClaim_wet (w : Work) (m : MoverId) (k : LearnMethod) : (w.learnClaim m k).1.wet = w.wet := by
  simp only [Work.learnClaim]; repeat' split
  all_goals simp

@[simp] theorem Work.doLearn_wet (w : Work) (a b : Byte) : (w.doLearn a b).1.wet = w.wet := by
  simp only [Work.doLearn, Work.learnRequest]; repeat' split
  all_goals simp

@[simp] theorem Work.applyStroke_wet (w : Work) (c : ChanId) (v : Option Nat) : (w.applyStroke c v).wet = w.wet := by
  simp only [Work.applyStroke]; split <;> simp

@[simp] theorem Work.doStrokeSet_wet (w : Work) (a : Byte) (n : Half) : (w.doStrokeSet a n).1.wet = w.wet := by
  simp only [Work.doStrokeSet]; repeat' split
  all_goals simp

/-! ## Supply, inputs, zero learning and the store -/

@[simp] theorem Work.setLow_wet (w : Work) (b : Bool) : (w.setLow b).wet = w.wet := by rw [Work.setLow_eq]; rfl
@[simp] theorem Work.setHigh_wet (w : Work) (b : Bool) : (w.setHigh b).wet = w.wet := by rw [Work.setHigh_eq]; rfl

theorem wet_ite (b : Prop) [Decidable b] (w : Work) {f : Work → Work} (h : ∀ w, (f w).wet = w.wet) :
    (if b then f w else w).wet = w.wet := by
  split
  · exact h w
  · rfl

@[simp] theorem Work.judgeVoltage_wet (w : Work) (v : Nat) : (w.judgeVoltage v).wet = w.wet := by
  simp only [Work.judgeVoltage]
  refine (wet_ite _ _ fun w => w.setHigh_wet true).trans ?_
  refine (wet_ite _ _ fun w => w.setLow_wet true).trans ?_
  refine (wet_ite _ _ fun w => w.setHigh_wet false).trans ?_
  exact wet_ite _ _ fun w => w.setLow_wet false

@[simp] theorem Work.abortZero_wet (w : Work) : w.abortZero.wet = w.wet := by
  simp only [Work.abortZero]; split <;> rfl

@[simp] theorem Work.toActive_waits (w : Work) : w.toActive.bud = w.bud := by
  simp only [Work.toActive]; split <;> rfl

@[simp] theorem Work.endJob_wet (w : Work) (j : Service) (f : BitVec 6) : (w.endJob j f).wet = w.wet := by
  cases hj : j.job <;> simp only [Work.endJob, hj, Work.serveNext_wet, Work.reportWritten_wet, Work.emit_wet] <;> rfl

end Sys2Proof.Machine
end

