-- ==== Sys2Proof/Proofs/ActivityEnds.lean ====
section
/-! PROOF. The end of an activity whose pump runs (R61, R66, R114). -/

namespace Sys2Proof.Machine

set_option Elab.async false

open Sys2Proof.Safety

/-- The circuit after a running pump has stopped (R61, R63). -/
def Hyd.halted (h : Hyd) (now rest t0 : Time) (toRest : Bool) : Hyd :=
  if toRest then { h with runHeld := now - t0, runStart := none, pump := .rest, restEnd := some (now + rest) }
  else { h with runHeld := now - t0, runStart := none, pump := .dwell, dwellEnd := some (now + 300000) }

/-- The work after its running pump has stopped. -/
def Work.pumpHalted (w : Work) (t0 : Time) (toRest : Bool) : Work :=
  { w with hyd := w.hyd.halted w.now (Config.sec (w.profN 0x0401)) t0 toRest,
           bud := { w.bud with admitted := w.bud.admitted.filter fun e => e.target != hydTarget }, headDue := true }

theorem Work.pumpStop_of_running {w : Work} {t0 : Time} (hp : w.hyd.pump = .running) (hr : w.hyd.runStart = some t0)
    (toRest : Bool) : w.pumpStop toRest = w.pumpHalted t0 toRest := by
  simp only [Work.pumpStop, hp, hr, Option.getD_some]
  cases toRest <;> rfl

/-- The work after the end of its activity. -/
def Work.activityOver (w : Work) (k : ActKind) (o : EndOutcome) : Work :=
  { w with hyd := { w.hyd with activity := none, lastKind := some k, lastOutcome := o } }

theorem Work.endActivity_of_running {w : Work} {a : HydActivity} {t0 : Time} (ha : w.hyd.activity = some a)
    (hp : w.hyd.pump = .running) (hr : w.hyd.runStart = some t0) (hq : w.isQueued hydTarget = false) (o : EndOutcome)
    (toRest : Bool) : w.endActivity o toRest =
      if a.kind = .level then (w.pumpHalted t0 toRest).activityOver a.kind o
      else ((w.pumpHalted t0 toRest).activityOver a.kind o).emit (.hydraulicEnded a.kind o) := by
  have hq' : ¬ (w.pumpHalted t0 toRest).isQueued hydTarget = true := Bool.eq_false_iff.mp hq
  simp only [Work.endActivity, ha, Work.pumpStop_of_running hp hr, if_neg hq']
  cases a.kind <;> rfl

theorem Work.endLevel_of_working {w : Work} (h : w.lvl.phase ≠ .idle) {z : Work} {o : EndOutcome} {toRest : Bool}
    (hz : w.endActivity o toRest = z) : w.endLevel o toRest =
      (z.setLvl { z.lvl with
        phase := .idle, liftSet := noJacks, deadline := none, settleTest := none, pendFlag := none, lastOutcome := o,
        levelHeld := o == .level, drift := if o = .level then 0 else z.lvl.drift }).emit
        (.levelEnded z.lvl.mode o z.lvl.pass z.tilt.p z.tilt.q) := by
  subst hz
  simp only [Work.endLevel, if_neg h]
  rfl

/-- Settles O38: the pump stops, then the activity goes, then the procedure. -/
theorem activityEndsStopThePump : Obligations.ActivityEndsStopThePump := by
  unfold Obligations.ActivityEndsStopThePump
  intro w o toRest a t0 ha hp hr hq z y ended
  have hz : z = if a.kind = .level then (w.pumpHalted t0 toRest).activityOver a.kind o
      else ((w.pumpHalted t0 toRest).activityOver a.kind o).emit (.hydraulicEnded a.kind o) :=
    Work.endActivity_of_running ha hp hr hq o toRest
  have hended : ∀ u : Work, u.hyd = ((w.pumpHalted t0 toRest).activityOver a.kind o).hyd →
      u.bud = (w.pumpHalted t0 toRest).bud → u.headDue = true → ended u := by
    intro u hh hb hd
    have hact : u.hyd.activity = none := by rw [hh]; rfl
    refine ⟨hact, by rw [hh]; rfl, by rw [hh]; rfl, by rw [hh]; cases toRest <;> rfl, by rw [hh]; cases toRest <;> rfl,
      fun j => by simp only [Work.valve, hact], hd, by rw [hb]; rfl, ?_, ?_⟩
    · rintro rfl; rw [hh]; exact ⟨rfl, rfl⟩
    · rintro rfl; rw [hh]; exact ⟨rfl, rfl⟩
  have hover : ended z ∧ z.lvl = w.lvl := by
    rw [hz]
    split
    · exact ⟨hended _ rfl rfl rfl, rfl⟩
    · exact ⟨hended _ rfl rfl rfl, rfl⟩
  refine ⟨hover.1, hover.2, fun hk => ?_, fun hk => ?_, fun hk hl => ?_⟩
  · rw [hz, if_pos hk]; rfl
  · rw [hz, if_neg hk]; rfl
  · have hy := Work.endLevel_of_working hl (hz.trans (if_pos hk))
    have hy' : y = _ := hy
    rw [hy']
    exact ⟨hended _ rfl rfl rfl, rfl, rfl, rfl, rfl, rfl, rfl⟩

end Sys2Proof.Machine
end

