-- ==== Sys2Proof/Proofs/JackRecords.lean ====
section
/-! PROOF. The records of the jacks, through what a command settles: only the sensors, faults and fences touch them. -/

namespace Sys2Proof.Machine

set_option Elab.async false

open Sys2Proof.Safety

theorem jacks_of_wet {w z : Work} (h : w.wet = z.wet) : w.jacks = z.jacks := congrArg Wet.jacks h

theorem foldl_jacks {α : Type} (l : List α) (f : Work → α → Work) (h : ∀ w x, (f w x).jacks = w.jacks) (w : Work) :
    (l.foldl f w).jacks = w.jacks := by
  induction l generalizing w with
  | nil => rfl
  | cons a l ih => rw [List.foldl_cons, ih, h]

@[simp] theorem Work.haltMover_jacks (w : Work) (m : MoverId) (c : Cause) : (w.haltMover m c).jacks = w.jacks :=
  jacks_of_wet (w.haltMover_wet m c)

@[simp] theorem Work.dropRetract_jacks (w : Work) (c : Cause) : (w.dropRetract c).jacks = w.jacks :=
  jacks_of_wet (w.dropRetract_wet c)

@[simp] theorem Work.admitMover_jacks (w : Work) (m : MoverId) : (w.admitMover m).jacks = w.jacks :=
  jacks_of_wet (w.admitMover_wet m)

/-! ## The hydraulic circuit -/

@[simp] theorem Work.pumpStop_jacks (w : Work) (b : Bool) : (w.pumpStop b).jacks = w.jacks := by
  simp only [Work.pumpStop]; repeat' split
  all_goals rfl

@[simp] theorem Work.endActivity_jacks (w : Work) (o : EndOutcome) (b : Bool) : (w.endActivity o b).jacks = w.jacks := by
  simp only [Work.endActivity]
  split
  · rfl
  · split <;> split <;> (try rw [Work.emit_jacks]) <;> exact Work.pumpStop_jacks w b

@[simp] theorem Work.setJacks_jacks (w : Work) (a b : JackSet) : (w.setJacks a b).jacks = w.jacks := rfl
@[simp] theorem Work.setOpen_jacks (w : Work) (a : JackSet) : (w.setOpen a).jacks = w.jacks := rfl
@[simp] theorem Work.setActPhase_jacks (w : Work) (p : ActPhase) : (w.setActPhase p).jacks = w.jacks := rfl

@[simp] theorem Work.endLevel_jacks (w : Work) (o : EndOutcome) (b : Bool) : (w.endLevel o b).jacks = w.jacks := by
  simp only [Work.endLevel]; split <;> simp

@[simp] theorem Work.enterPhase_jacks (w : Work) (l : Level) : (w.enterPhase l).jacks = w.jacks := rfl

@[simp] theorem Work.enterSettling_jacks (w : Work) : w.enterSettling.jacks = w.jacks := by
  simp [Work.enterSettling]

@[simp] theorem Work.enterStabilize_jacks (w : Work) (f : Option PendFlag) : (w.enterStabilize f).jacks = w.jacks := by
  simp only [Work.enterStabilize]; split <;> simp

@[simp] theorem Work.enterLevelling_jacks (w : Work) (n : Nat) : (w.enterLevelling n).jacks = w.jacks := by
  simp [Work.enterLevelling]

@[simp] theorem Work.checkGrounded_jacks (w : Work) : w.checkGrounded.jacks = w.jacks := by
  simp only [Work.checkGrounded]; repeat' split
  all_goals simp

@[simp] theorem Work.followGround_jacks (w : Work) : w.followGround.jacks = w.jacks := by
  simp only [Work.followGround]; split <;> simp

@[simp] theorem Work.enterTouchdown_jacks (w : Work) : w.enterTouchdown.jacks = w.jacks := by
  simp [Work.enterTouchdown]

@[simp] theorem Work.jacksMove_jacks (w : Work) : w.jacksMove.jacks = w.jacks := by
  simp only [Work.jacksMove]; split <;> simp

@[simp] theorem Work.checkWork_jacks (w : Work) : w.checkWork.jacks = w.jacks := by
  simp only [Work.checkWork]; repeat' split
  all_goals simp

@[simp] theorem Work.atPumpStart_jacks (w : Work) (a : HydActivity) : (w.atPumpStart a).jacks = w.jacks := by
  simp only [Work.atPumpStart]; repeat' split
  all_goals simp

@[simp] theorem Work.pumpRun_jacks (w : Work) : w.pumpRun.jacks = w.jacks := by
  simp only [Work.pumpRun]; split
  · rfl
  · rw [Work.atPumpStart_jacks]

@[simp] theorem Work.admitPump_jacks (w : Work) : w.admitPump.jacks = w.jacks := by
  simp only [Work.admitPump]; split <;> simp

@[simp] theorem Work.admitTarget_jacks (w : Work) (t : Fin 6) : (w.admitTarget t).jacks = w.jacks := by
  simp only [Work.admitTarget]; split <;> simp

@[simp] theorem Work.admitHead_jacks (w : Work) (q : Queued) (r : List Queued) : (w.admitHead q r).jacks = w.jacks := by
  simp only [Work.admitHead, Work.admitTarget_jacks]

@[simp] theorem Work.admitHeads_jacks (n : Nat) (w : Work) : (Work.admitHeads n w).jacks = w.jacks := by
  induction n generalizing w with
  | zero => rfl
  | succ n ih =>
    simp only [Work.admitHeads]; split <;> [rfl; (split <;> [(rw [ih]; simp); rfl])]

@[simp] theorem Work.judgeHead_jacks (w : Work) : w.judgeHead.jacks = w.jacks := by
  simp only [Work.judgeHead]; split
  · exact Work.admitHeads_jacks 16 w
  · rfl

/-! ## Arrivals and the settling of a command -/

@[simp] theorem Work.arriveMover_jacks (b : BitVec 16) (w : Work) (m : MoverId) :
    (Work.arriveMover b w m).jacks = w.jacks := by
  simp only [Work.arriveMover]; split <;> simp

@[simp] theorem Work.arriveRetract_jacks (b : BitVec 16) (w : Work) : (Work.arriveRetract b w).jacks = w.jacks := by
  simp only [Work.arriveRetract]; repeat' split
  all_goals simp

@[simp] theorem Work.arriveHyd_jacks (b : BitVec 16) (w : Work) : (Work.arriveHyd b w).jacks = w.jacks := by
  simp only [Work.arriveHyd]; repeat' split
  all_goals simp

@[simp] theorem Work.arrive_jacks (b : BitVec 16) (w : Work) : (Work.arrive b w).jacks = w.jacks := by
  simp only [Work.arrive, Work.arriveHyd_jacks, Work.arriveRetract_jacks]
  exact foldl_jacks _ _ (fun w m => by simp) w

@[simp] theorem Work.settleLoop_jacks (n : Nat) (w : Work) : (Work.settleLoop n w).jacks = w.jacks := by
  induction n generalizing w with
  | zero => simp [Work.settleLoop]
  | succ n ih =>
    simp only [Work.settleLoop]
    split
    · exact Work.judgeHead_jacks w
    · rw [ih, Work.arrive_jacks]; exact Work.judgeHead_jacks w

@[simp] theorem Work.settled_jacks (w : Work) : w.settled.jacks = w.jacks := Work.settleLoop_jacks 4 w

@[simp] theorem Work.settleEvents_jacks (w : Work) (b : Bool) (old : BitVec 16) : (w.settleEvents b old).jacks = w.jacks := by
  have h := Work.settled_jacks { w.judgeHead with events := [] }
  exact h.trans (Work.judgeHead_jacks w)


@[simp] theorem finishWork_jacks (s : State) (w : Work) : (finishWork s w).jacks = w.jacks := by
  refine (Work.settleEvents_jacks ..).trans ?_
  simp only [Work.startupCheck]
  split <;> rfl

theorem finishState_jacks (s : State) (w : Work) (r : Option Frame) : (finishState s w r).work.jacks = w.jacks := by
  have h : ((finishWork s w).returnOnMotion (finishReady s w).travel).jacks = (finishWork s w).jacks := by
    simp only [Work.returnOnMotion]; split <;> rfl
  exact h.trans (finishWork_jacks s w)

@[simp] theorem finish_jacks (s : State) (w : Work) (r : Option Frame) : (finish s w r).work.jacks = w.jacks := by
  rw [finish_eq]
  rcases (finishState s w r).standbyCheck_cases with ⟨_, h⟩ | ⟨_, h⟩ | ⟨_, h⟩ <;> rw [h]
  · refine Eq.trans ?_ (finishState_jacks s w r)
    show (finishState s w r).work.enterStandby.jacks = _
    rw [Work.enterStandby, ← jacks_of_wet (Work.abortZero_wet (finishState s w r).work)]
  all_goals exact finishState_jacks s w r

theorem finish_jk (s : State) (w : Work) (r : Option Frame) (j : JackId) : (finish s w r).work.jk j = w.jk j := by
  rw [Work.jk, Work.jk, finish_jacks]

end Sys2Proof.Machine
end

