-- ==== Sys2Proof/Proofs/PumpInTime.lean ====
section
/-! PROOF. The pump and its activity in time (R61, R63, R67, R78, R80). -/

namespace Sys2Proof.Machine

set_option Elab.async false

open Sys2Proof.Safety

/-! ## The start of the pump -/

theorem jacksMove_eq (w : Work) : w.jacksMove = if w.lvl.levelHeld = true then
    { w with lvl := { w.lvl with levelHeld := false }, events := w.events ++ [.levelLost true w.tilt.p w.tilt.q] }
    else w := by
  simp only [Work.jacksMove]
  split <;> rfl

theorem Work.setJacks_of {w : Work} {a : HydActivity} (ha : w.hyd.activity = some a) (js os : JackSet) :
    w.setJacks js os = { w with hyd := { w.hyd with activity := some { a with jackSet := js, openSet := os } } } := by
  simp only [Work.setJacks, ha]; rfl

theorem JackSet.eq_jacksWhere {s : JackSet} {p : JackId → Bool} (h : ∀ j, s.has j = p j) : s = jacksWhere p :=
  JackSet.eq_of_has fun j => by rw [h, JackSet.has_jacksWhere]

theorem Work.checkWork_of_manual {w : Work} {a : HydActivity} (ha : w.hyd.activity = some a) (hk : a.kind = .manual) :
    w.checkWork = if a.jackSet.isEmpty = true then w.endActivity .complete false else w := by
  simp only [Work.checkWork, ha, hk]

/-- A stow goes on while a jack of its set is away from its stop. -/
theorem Work.checkWork_of_away {w : Work} {a : HydActivity} (ha : w.hyd.activity = some a) (hk : a.kind = .stow)
    {j : JackId} (hs : a.jackSet.has j = true) (hr : (w.jk j).retracted = false) : w.checkWork = w := by
  have h : ¬ (allJacks.all fun j => !a.jackSet.has j || (w.jk j).retracted && !w.valve j) = true := by
    intro h
    have := List.all_eq_true.mp h j (mem_allJacks j)
    simp [hs, hr] at this
  simp only [Work.checkWork, ha, hk, if_neg h]

theorem Work.valve_of_closed {w : Work} {a : HydActivity} (ha : w.hyd.activity = some a) {j : JackId}
    (h : a.openSet.has j = false) : w.valve j = false := by
  simp [Work.valve, ha, h]

/-- A stow ends when every jack of its set is retracted, its valve closed. -/
theorem Work.checkWork_of_stowed {w : Work} {a : HydActivity} (ha : w.hyd.activity = some a) (hk : a.kind = .stow)
    (h : ∀ j, a.jackSet.has j = true → (w.jk j).retracted = true ∧ a.openSet.has j = false) :
    w.checkWork = w.endActivity (if w.allRetracted then .stowed else .incomplete) false := by
  have hall : (allJacks.all fun j => !a.jackSet.has j || (w.jk j).retracted && !w.valve j) = true := by
    refine List.all_eq_true.mpr fun j _ => ?_
    cases hs : a.jackSet.has j
    · rfl
    · obtain ⟨hr, ho⟩ := h j hs
      simp [hr, Work.valve_of_closed ha ho]
  simp only [Work.checkWork, ha, hk, if_pos hall]
  rfl

/-- A MANUAL activity drops the jacks already at the end of the move (R78). -/
theorem Work.atPumpStart_of_manual {w : Work} {a : HydActivity} (hk : a.kind = .manual) {left : JackSet}
    (h : ∀ j, left.has j = true ↔ a.jackSet.has j = true ∧
      ((a.dir = .outward ∧ (w.jk j).atLimit = false) ∨ (a.dir = .inward ∧ (w.jk j).retracted = false))) :
    w.atPumpStart a = (w.jacksMove.setJacks left left).checkWork := by
  cases hd : a.dir with
  | outward =>
    have hset : left = jacksWhere fun j => a.jackSet.has j && !(w.jk j).atLimit :=
      JackSet.eq_jacksWhere fun j => Bool.eq_iff_iff.mpr ((h j).trans (by simp [hd]))
    simp only [Work.atPumpStart, hk, hd, ← hset]
  | inward =>
    have hset : left = jacksWhere fun j => a.jackSet.has j && !(w.jk j).retracted :=
      JackSet.eq_jacksWhere fun j => Bool.eq_iff_iff.mpr ((h j).trans (by simp [hd]))
    simp only [Work.atPumpStart, hk, hd, ← hset]

/-- A STOW keeps its set and opens the jacks that are not retracted (R80). -/
theorem Work.atPumpStart_of_stow {w : Work} {a : HydActivity} (hk : a.kind = .stow) {left : JackSet}
    (h : ∀ j, left.has j = true ↔ a.jackSet.has j = true ∧ (w.jk j).retracted = false) :
    w.atPumpStart a = (w.jacksMove.setJacks a.jackSet left).checkWork := by
  have hset : left = jacksWhere fun j => a.jackSet.has j && !(w.jk j).retracted :=
    JackSet.eq_jacksWhere fun j => Bool.eq_iff_iff.mpr ((h j).trans (by simp))
  simp only [Work.atPumpStart, hk, ← hset]

/-! ## The stow timeout -/

/-- The work with the parts a fault of jacks moves. -/
def Work.struckAs (w : Work) (a : HydActivity) (xs : Vector Jack 6) (js os : JackSet) (es : List Event) : Work :=
  { w with jacks := xs, hyd := { w.hyd with activity := some { a with jackSet := js, openSet := os } }, events := w.events ++ es }

/-- The stow timeout gives the jack a fault. -/
def strikes (w : Work) (a : HydActivity) (j : JackId) : Bool :=
  a.jackSet.has j && !(w.jk j).retracted && (w.jk j).fault.isNone

/-- The jacks of a list struck by the stow timeout. -/
def Work.struck (w : Work) (a : HydActivity) (l : List JackId) : Work :=
  w.struckAs a (Vector.ofFn fun j : JackId => if l.contains j && strikes w a j then { w.jk j with fault := some .retractTimeout } else w.jk j)
    (Vector.ofFn fun j : JackId => a.jackSet.has j && !(l.contains j && strikes w a j))
    (Vector.ofFn fun j : JackId => a.openSet.has j && !(l.contains j && strikes w a j))
    ((l.filter (strikes w a)).map fun j => .jack j .retractTimeout)

theorem JackSet.has_ofFn (p : JackId → Bool) (j : JackId) : JackSet.has (Vector.ofFn p) j = p j := by
  simp [JackSet.has]

theorem JackSet.has_without (s : JackSet) (j k : JackId) : (s.without j).has k = (s.has k && k != j) := by
  by_cases h : k = j
  · subst h; simp [JackSet.has, JackSet.without, Vector.getElem_set_self k.isLt]
  · have hv : j.val ≠ k.val := fun e => h (Fin.ext e.symm)
    simp [JackSet.has, JackSet.without, Vector.getElem_set_ne j.isLt k.isLt hv, h]

theorem Work.jk_struck (w : Work) (a : HydActivity) (l : List JackId) (j : JackId) : (w.struck a l).jk j =
    if l.contains j && strikes w a j then { w.jk j with fault := some .retractTimeout } else w.jk j := by
  simp only [Work.struck, Work.struckAs, Work.jk]
  simp

theorem Work.struckAs_congr (w : Work) (a : HydActivity) {xs xs' : Vector Jack 6} {js js' os os' : JackSet} {es es' : List Event}
    (hx : xs = xs') (hj : js = js') (ho : os = os') (he : es = es') : w.struckAs a xs js os es = w.struckAs a xs' js' os' es' := by
  rw [hx, hj, ho, he]

theorem Work.stowTimeoutJack_struckAs (w : Work) (a : HydActivity) (xs : Vector Jack 6) (js os : JackSet) (es : List Event)
    (j : JackId) : (w.struckAs a xs js os es).stowTimeoutJack j =
      if js.has j && !xs[j].retracted && xs[j].fault.isNone then
        w.struckAs a (xs.set j { xs[j] with fault := some .retractTimeout }) (js.without j) (os.without j)
          (es ++ [.jack j .retractTimeout])
      else w.struckAs a xs js os es := by
  have hact : (w.struckAs a xs js os es).actJacks = js := rfl
  have hjk : (w.struckAs a xs js os es).jk j = xs[j] := rfl
  simp only [Work.stowTimeoutJack, hact, Work.giveFault, hjk]
  cases js.has j && !xs[j].retracted
  · rfl
  · cases xs[j].fault
    · simp only [Work.struckAs, Work.dropJack, Work.setJacks, Work.setJk, Work.emit, List.append_assoc]
      rfl
    · rfl

theorem Work.struck_nil {w : Work} {a : HydActivity} (ha : w.hyd.activity = some a) : w.struck a [] = w := by
  have hx : (Vector.ofFn fun j : JackId => w.jk j) = w.jacks := Vector.ext fun i hi => by simp [Work.jk]
  have hj : (Vector.ofFn fun j : JackId => a.jackSet.has j) = a.jackSet := JackSet.eq_of_has fun j => JackSet.has_ofFn _ j
  have ho : (Vector.ofFn fun j : JackId => a.openSet.has j) = a.openSet := JackSet.eq_of_has fun j => JackSet.has_ofFn _ j
  simp only [Work.struck, List.contains_nil, Bool.false_and, Bool.not_false, Bool.and_true, Bool.false_eq_true, if_false,
    hx, hj, ho, Work.struckAs, List.filter_nil, List.map_nil, List.append_nil]
  have hh : ({ w.hyd with activity := some a } : Hyd) = w.hyd := by rw [← ha]
  rw [hh]

theorem contains_append_of_ne (l : List JackId) {j k : JackId} (h : k ≠ j) : (l ++ [j]).contains k = l.contains k := by
  have hj : [j].contains k = false := by simpa using h
  rw [List.contains_append, hj, Bool.or_false]

/-- Each jack of the list in its turn (R80). -/
theorem Work.foldl_stowTimeoutJack {w : Work} {a : HydActivity} (ha : w.hyd.activity = some a) (l : List JackId)
    (hn : l.Nodup) : l.foldl Work.stowTimeoutJack w = w.struck a l := by
  induction l using List.reverseRecOn with
  | nil => exact (Work.struck_nil ha).symm
  | append_singleton l j ih =>
    have hnl : l.Nodup := (List.nodup_append.mp hn).1
    have hj : j ∉ l := fun h => (List.nodup_append.mp hn).2.2 j h j (List.mem_singleton_self j) rfl
    have hc : l.contains j = false := by simpa using hj
    rw [List.foldl_append, ih hnl, List.foldl_cons, List.foldl_nil, Work.struck, Work.stowTimeoutJack_struckAs]
    have hself : (Vector.ofFn fun k : JackId =>
        if l.contains k && strikes w a k then { w.jk k with fault := some .retractTimeout } else w.jk k)[j] = w.jk j := by
      simp only [Fin.getElem_fin, Vector.getElem_ofFn, hc, Bool.false_and, Bool.false_eq_true, if_false]
    have hcond : (JackSet.has (Vector.ofFn fun k : JackId => a.jackSet.has k && !(l.contains k && strikes w a k)) j &&
        !(w.jk j).retracted && (w.jk j).fault.isNone) = strikes w a j := by
      rw [JackSet.has_ofFn, hc]
      simp only [Bool.false_and, Bool.not_false, Bool.and_true, strikes]
    have hne : ∀ k, k ≠ j → (l ++ [j]).contains k = l.contains k := fun k hk => contains_append_of_ne l hk
    rw [hself, hcond, Work.struck]
    cases hs : strikes w a j
    · have hsame : ∀ k, ((l ++ [j]).contains k && strikes w a k) = (l.contains k && strikes w a k) := fun k => by
        by_cases hk : k = j
        · rw [hk, hs, Bool.and_false, Bool.and_false]
        · rw [hne k hk]
      simp only [hsame, List.filter_append, List.filter_cons, hs, List.filter_nil, List.append_nil, Bool.false_eq_true, if_false]
    · have hin : ((l ++ [j]).contains j && strikes w a j) = true := by rw [hs, List.contains_append]; simp
      have hset : ∀ s : JackSet, JackSet.without (Vector.ofFn fun k : JackId => s.has k && !(l.contains k && strikes w a k)) j =
          Vector.ofFn fun k : JackId => s.has k && !((l ++ [j]).contains k && strikes w a k) := fun s =>
        JackSet.eq_of_has fun k => by
          rw [JackSet.has_without, JackSet.has_ofFn, JackSet.has_ofFn]
          by_cases hk : k = j
          · rw [hk, hin, bne_self_eq_false, Bool.and_false, Bool.not_true, Bool.and_false]
          · rw [hne k hk, bne_iff_ne.mpr hk, Bool.and_true]
      refine Work.struckAs_congr w a ?_ (hset _) (hset _) ?_
      · refine Vector.ext fun i hi => ?_
        by_cases hk : (⟨i, hi⟩ : JackId) = j
        · subst hk
          simp only [Vector.getElem_set_self, Vector.getElem_ofFn, hin, if_true]
        · rw [Vector.getElem_set_ne j.isLt hi fun e => hk (Fin.ext e.symm)]
          simp only [Vector.getElem_ofFn, hne _ hk]
      · simp [List.filter_append, hs]

theorem strikes_iff (w : Work) (a : HydActivity) (j : JackId) : strikes w a j = true ↔
    (a.jackSet.has j && !(w.jk j).retracted) = true ∧ (w.jk j).fault = none := by
  simp [strikes]

theorem allJacks_contains (j : JackId) : allJacks.contains j = true := by revert j; decide

theorem Work.stowTimeout_eq {w : Work} {a : HydActivity} {t : Time} (ha : w.hyd.activity = some a) (hk : a.kind = .stow)
    (hs : a.start = some t) : w.stowTimeout = ((w.notBefore (t + Config.sec (w.profN 0x0402))).struck a allJacks).checkWork := by
  have hl : (w.notBefore (t + Config.sec (w.profN 0x0402))).hyd.activity = some a := ha
  rw [← Work.foldl_stowTimeoutJack hl allJacks (by decide)]
  simp only [Work.stowTimeout, ha, hk, hs]
  rfl

/-! ## The timers -/

theorem Work.pumpDwellEnd_of {w : Work} {t : Time} (hp : w.hyd.pump = .dwell) (hd : w.hyd.dwellEnd = some t) :
    w.pumpDwellEnd = if w.hyd.pendingStart then
      Work.pumpRun { w with now := max w.now t, hyd := { w.hyd with pump := .off, dwellEnd := none } }
      else { w with now := max w.now t, hyd := { w.hyd with pump := .off, dwellEnd := none } } := by
  simp only [Work.pumpDwellEnd, hp, hd, if_true]
  rfl

theorem Work.pumpRun_of {w : Work} {a : HydActivity} (ha : w.hyd.activity = some a) : w.pumpRun =
    Work.atPumpStart { w with hyd := { w.hyd with
      pump := .running, pdir := a.dir, runStart := some w.now, runHeld := 0, pendingStart := false,
      activity := some { a with start := some w.now, phase := .running } } } { a with start := some w.now, phase := .running } := by
  simp only [Work.pumpRun, ha]

theorem Work.pumpRestEnd_of {w : Work} {t : Time} (hp : w.hyd.pump = .rest) (hd : w.hyd.restEnd = some t) :
    w.pumpRestEnd = { w with now := max w.now t, hyd := { w.hyd with pump := .off, restEnd := none } } := by
  simp only [Work.pumpRestEnd, hp, hd, if_true]
  rfl

theorem Work.pumpOverrun_of {w : Work} {t : Time} (hp : w.hyd.pump = .running) (hr : w.hyd.runStart = some t) :
    w.pumpOverrun = if w.lvl.phase = .idle then (w.notBefore (t + Config.sec (w.profN 0x0400))).endActivity .pumpOverrun true
      else (w.notBefore (t + Config.sec (w.profN 0x0400))).endLevel .pumpOverrun true := by
  simp only [Work.pumpOverrun, hp, hr, Work.overrunStop]
  exact ite_not _ _ _

theorem Work.manualExpiry_of {w : Work} {a : HydActivity} {t : Time} (ha : w.hyd.activity = some a) (hl : a.lease = some t) :
    w.manualExpiry = (w.notBefore t).endActivity .leaseExpired false := by
  simp only [Work.manualExpiry, ha, hl]

/-- Settles O37: the pump start by kind; each timer by what it stops or starts. -/
theorem pumpAndActivityInTime : Obligations.PumpAndActivityInTime := by
  unfold Obligations.PumpAndActivityInTime
  refine ⟨?_, ?_⟩
  · intro w a ha z moved keeps
    have hmoved : w.jacksMove = moved := jacksMove_eq w
    have hact : moved.hyd.activity = some a := by
      show (if _ then _ else w).hyd.activity = _
      split <;> exact ha
    have hjk : ∀ j, moved.jk j = w.jk j := fun j => by
      show (if _ then _ else w).jk j = _
      split <;> rfl
    have hkeeps : ∀ js os, w.jacksMove.setJacks js os = keeps js os := fun js os => by
      rw [hmoved, Work.setJacks_of hact]
      have hh : moved.hyd = w.hyd := by
        show (if _ then _ else w).hyd = _
        split <;> rfl
      rw [hh]
    have hkact : ∀ js os, (keeps js os).hyd.activity = some { a with jackSet := js, openSet := os } := fun _ _ => rfl
    refine ⟨fun hk => ?_, fun left hk hleft => ?_, fun left hk hleft => ?_⟩
    · show w.atPumpStart a = _
      simp only [Work.atPumpStart, hk]
    · have hz : z = (keeps left left).checkWork := (Work.atPumpStart_of_manual hk hleft).trans (by rw [hkeeps])
      have hcheck := Work.checkWork_of_manual (hkact left left) hk
      refine ⟨fun he => ?_, fun he => ?_⟩
      · rw [hz, hcheck]; exact if_neg (Bool.eq_false_iff.mp he)
      · rw [hz, hcheck]; exact if_pos he
    · have hz : z = (keeps a.jackSet left).checkWork := (Work.atPumpStart_of_stow hk hleft).trans (by rw [hkeeps])
      have hkjk : ∀ j, (keeps a.jackSet left).jk j = w.jk j := hjk
      refine ⟨fun he => ?_, fun he => ?_⟩
      · obtain ⟨j, hj⟩ : ∃ j, left.has j = true := by
          by_contra hno
          refine Bool.false_ne_true (he.symm.trans ((JackSet.isEmpty_iff left).mpr fun j => ?_))
          exact Bool.eq_false_iff.mpr fun h => hno ⟨j, h⟩
        obtain ⟨hs, hr⟩ := (hleft j).mp hj
        exact hz.trans (Work.checkWork_of_away (hkact _ _) hk hs ((congrArg Jack.retracted (hkjk j)).trans hr))
      · have hnone := (JackSet.isEmpty_iff left).mp he
        refine hz.trans (Work.checkWork_of_stowed (hkact _ _) hk fun j hs => ⟨?_, hnone j⟩)
        rw [hkjk]
        by_contra hr
        exact Bool.false_ne_true ((hnone j).symm.trans ((hleft j).mpr ⟨hs, Bool.eq_false_iff.mpr hr⟩))
  · intro s ha w
    refine ⟨?_, fun t hp hd => exec_of_event ha rfl (Work.pumpRestEnd_of hp hd), ?_,
      fun a t hact hl => exec_of_event ha rfl (Work.manualExpiry_of hact hl), ?_⟩
    · intro t hp hd z
      refine ⟨fun hs => exec_of_event ha rfl ?_, ?_⟩
      · rw [Work.pumpDwellEnd_of hp hd, if_neg (Bool.eq_false_iff.mp hs)]
      · intro a hs hact b
        refine exec_of_event ha rfl ?_
        rw [Work.pumpDwellEnd_of hp hd, if_pos hs]
        exact Work.pumpRun_of (w := z) hact
    · intro t hp hr z
      exact exec_of_event ha rfl (Work.pumpOverrun_of hp hr)
    intro a t hact hk hst z hit
    refine ⟨?_, fun hall => ?_⟩
    · have hexec := exec_of_event (i := .stowTimeout) ha rfl (Work.stowTimeout_eq hact hk hst)
      have hjk : ∀ j, (finish s (z.struck a allJacks).checkWork none).work.jk j = if strikes w a j then
          { w.jk j with fault := some .retractTimeout } else w.jk j := fun j => by
        rw [finish_jk, Work.jk, Work.checkWork_jacks]
        have h := Work.jk_struck z a allJacks j
        rw [allJacks_contains, Bool.true_and] at h
        exact h
      refine ⟨_, hexec, ?_, fun j hh hf => ?_, fun j hh => ?_⟩
      · rw [finish_now, now_of_still (Work.checkWork_still _)]; rfl
      · exact (hjk j).trans (if_pos ((strikes_iff w a j).mpr ⟨hh, hf⟩))
      · exact (hjk j).trans (if_neg fun h => Bool.false_ne_true (hh.symm.trans ((strikes_iff w a j).mp h).1))
    · intro y
      have hstrike : ∀ j, strikes w a j = hit j := fun j => by
        cases hh : a.jackSet.has j
        · simp [strikes, hit, hh]
        · simp [strikes, hit, hh, (hall j hh).1]
      have hy : z.struck a allJacks = y := by
        have hz : ∀ j, strikes z a j = hit j := hstrike
        have hc : ∀ j, (allJacks.contains j && hit j) = hit j := fun j => by rw [allJacks_contains, Bool.true_and]
        have hf : strikes z a = hit := funext hz
        simp only [Work.struck, hf, hc]
        rfl
      have hact' : y.hyd.activity = some { a with
            jackSet := Vector.ofFn fun j : JackId => a.jackSet.has j && !hit j,
            openSet := Vector.ofFn fun j : JackId => a.openSet.has j && !hit j } := rfl
      have hend := Work.checkWork_of_stowed hact' hk fun j hs => by
        rw [JackSet.has_ofFn, Bool.and_eq_true, Bool.not_eq_true'] at hs
        obtain ⟨hin, hno⟩ := hs
        have hr : (w.jk j).retracted = true := by simpa [hit, hin] using hno
        have hyjk : y.jk j = w.jk j := by
          rw [← hy, Work.jk_struck, show strikes z a j = hit j from hstrike j, hno, Bool.and_false]
          exact if_neg Bool.false_ne_true
        refine ⟨by rw [hyjk, hr], ?_⟩
        rw [JackSet.has_ofFn, (hall j hin).2 hr, Bool.false_and]
      exact exec_of_event ha rfl ((Work.stowTimeout_eq hact hk hst).trans ((congrArg Work.checkWork hy).trans hend))

end Sys2Proof.Machine
end

