-- ==== Sys2Proof/Proofs/HallCounts.lean ====
section
/-! PROOF. A hall count moves the position (R12, R13, R15, R18). -/

namespace Sys2Proof.Machine

set_option Elab.async false

open Sys2Proof.Safety

/-! ## What a lock leaves at a channel and a mover -/

/-- The overspeed run of a channel, and whether a mover is paired. -/
def Work.lockRest (w : Work) (d : ChanId) (n : MoverId) : Nat × Bool := ((w.ch d).osRun, (w.mv n).paired)

section

variable {d : ChanId} {n : MoverId}

theorem Work.setCh_lockRest (w : Work) (c : ChanId) {x : Machine.Channel} (h : x.osRun = (w.ch c).osRun) :
    (w.setCh c x).lockRest d n = w.lockRest d n := by
  by_cases hd : d = c
  · subst hd; simp only [Work.lockRest, Work.ch_setCh_self, h]; rfl
  · simp only [Work.lockRest, Work.ch_setCh_ne w c d x hd]; rfl

theorem Work.setMv_lockRest (w : Work) (m : MoverId) {x : Mover} (h : x.paired = (w.mv m).paired) :
    (w.setMv m x).lockRest d n = w.lockRest d n := by
  by_cases hn : n = m
  · subst hn; simp only [Work.lockRest, Work.mv_setMv_self, h]; rfl
  · simp only [Work.lockRest, Work.mv_setMv_ne w m n x hn]; rfl

theorem Work.endClaim_lockRest (w : Work) (m : MoverId) : (w.endClaim m).lockRest d n = w.lockRest d n := by
  simp only [Work.endClaim]
  split
  · rfl
  · next c _ => split <;> exact w.setMv_lockRest m (by cases c.dir <;> rfl)

theorem Work.abortLearn_lockRest (w : Work) (m : MoverId) : (w.abortLearn m).lockRest d n = w.lockRest d n := by
  simp only [Work.abortLearn]
  split
  · rfl
  · rw [Work.clampMover, foldl_keep (f := Work.clampPos) (g := fun w => w.lockRest d n) fun w c => w.setCh_lockRest c rfl]
    exact w.setMv_lockRest m rfl

theorem Work.noteCause_lockRest (w : Work) (m : MoverId) (k : Cause) : (w.noteCause m k).lockRest d n = w.lockRest d n := by
  simp only [Work.noteCause]
  split
  · rfl
  · split
    · rfl
    · exact w.setMv_lockRest m rfl

theorem Work.receiveLock_lockRest (w : Work) (m : MoverId) (c : ChanId) (a : Policy) :
    (w.receiveLock m c a).lockRest d n = w.lockRest d n := by
  simp only [Work.receiveLock]
  split
  · split
    · exact w.setMv_lockRest m rfl
    · rfl
  · rfl

theorem Work.noteLock_lockRest (w : Work) (c : ChanId) (k : LockKind) (a : Policy) (r : Nat) :
    (w.noteLock c k a r).lockRest d n = w.lockRest d n := w.setCh_lockRest c rfl

theorem Channel.stopWith_osRun (x : Machine.Channel) (k : Cause) (b : Bool) (t : Time) : (x.stopWith k b t).osRun = x.osRun := by
  simp only [Channel.stopWith]
  repeat' split
  all_goals rfl

theorem Work.latchMover_lockRest (w : Work) (m : MoverId) (k : LockKind) (b : Bool) :
    (w.latchMover m k b).lockRest d n = w.lockRest d n := by
  have hchan (w : Work) (c : ChanId) : (w.latchChan k b c).lockRest d n = w.lockRest d n := by
    simp only [Work.latchChan]
    split
    · exact w.setCh_lockRest c (Channel.stopWith_osRun ..)
    · rfl
  rw [Work.latchMover, foldl_keep (g := fun w => w.lockRest d n) hchan, Work.noteCause_lockRest, Work.endWork,
    Work.endClaim_lockRest, Work.abortLearn_lockRest]

theorem Work.retryMover_lockRest (w : Work) (m : MoverId) (c : ChanId) : (w.retryMover m c).lockRest d n = w.lockRest d n := by
  have hchan (r : Nat) (t : Time) (w : Work) (c : ChanId) : (w.setCh c ((w.ch c).suspend r t)).lockRest d n = w.lockRest d n :=
    w.setCh_lockRest c (by simp only [Channel.suspend]; split <;> rfl)
  simp only [Work.retryMover]
  rw [foldl_keep (g := fun w => w.lockRest d n) (hchan _ _), Work.abortLearn_lockRest]

/-- A RANGE lock starts no motion anew and pairs no mover. -/
theorem Work.raiseRange_lockRest (w : Work) (c : ChanId) : (w.raiseLock c .range).lockRest d n = w.lockRest d n := by
  have hlatch (w : Work) (m : MoverId) (a : Policy) (b : Bool) (r : Nat) :
      (((w.receiveLock m c a).noteLock c .range a r).latchMover m .range b).lockRest d n = w.lockRest d n := by
    rw [Work.latchMover_lockRest, Work.noteLock_lockRest, Work.receiveLock_lockRest]
  have hact (m : MoverId) (e : Dir) : (w.actOnLock m c .range e).lockRest d n = w.lockRest d n := by
    simp only [Work.actOnLock, LockKind.lossy, Work.goOn, Bool.false_and, Bool.false_eq_true, if_false]
    split
    · exact hlatch ..
    · exact hlatch ..
    · split
      · rw [Work.retryMover_lockRest, Work.noteLock_lockRest, Work.receiveLock_lockRest]
      · exact hlatch ..
    · split
      · rfl
      · rw [Work.noteLock_lockRest]; exact w.setCh_lockRest c rfl
    · rfl
  simp only [Work.raiseLock]
  repeat' split
  · exact w.setCh_lockRest c rfl
  · exact hact ..
  · rfl

end

/-! ## One count -/

/-- The position a count leads to (R12, R13). -/
def Work.nextPos (w : Work) (c : ChanId) : Int := countedPos (w.ch c).pos (w.upperLimit c) (w.ch c).lastDir

/-- A count that the detectors do not judge. -/
def Work.countedQuiet (w : Work) (c : ChanId) : Work :=
  w.setCh c { w.ch c with pos := w.nextPos c, lastEdge := some w.now,
                          motion := (w.ch c).motion.map fun mo => { mo with lastPulse := some w.now } }

/-- A count of a motion that they judge, with the overspeed run it leads to. -/
def Work.countedLive (w : Work) (c : ChanId) (run : Nat) : Work :=
  w.setCh c { w.ch c with pos := w.nextPos c, osRun := run, prevCount := some w.now, lastEdge := some w.now,
                          motion := (w.ch c).motion.map fun mo => { mo with lastPulse := some w.now } }

/-- The last count stands less than the shortest pulse back (R18). -/
def Work.fast (w : Work) (c : ChanId) : Bool :=
  match (w.ch c).prevCount with | some t => decide (w.now - t < w.minPulse) | none => false

theorem Work.not_fast {w : Work} {c : ChanId} (h : ∀ t, (w.ch c).prevCount = some t → w.minPulse ≤ w.now - t) :
    w.fast c = false := by
  simp only [Work.fast]
  split
  · next t ht => exact decide_eq_false (Nat.not_lt_of_le (h t ht))
  · rfl

section

variable {w : Work} {c : ChanId} {mo : Motion}

theorem Work.judged_of_rest (hm : (w.ch c).motion = none) : w.judged c = false := by
  have hd : (w.ch c).driving = false := by simp only [Channel.driving, hm]
  have hh : (w.ch c).haltedAt w.now = false := by simp only [Channel.haltedAt, hm]
  simp only [Work.judged, hd, Work.partnerLock, hh, Bool.and_false, Bool.false_eq_true, if_false]
  repeat' split
  all_goals simp

theorem Work.countChan_of_rest (hm : (w.ch c).motion = none) : w.countChan c =
    w.setCh c { w.ch c with pos := w.nextPos c, lastEdge := some w.now,
                            seat := seatAfterCount (w.ch c).seat (w.nextPos c) (w.effStroke c) (w.endZone c) } := by
  simp only [Work.countChan, Work.judged_of_rest hm, hm, Option.isSome_none, Bool.false_eq_true, if_false, Option.map_none]
  rfl

theorem Work.countChan_of_quiet (hm : (w.ch c).motion = some mo) (hj : w.judged c = false) :
    w.countChan c = w.countedQuiet c := by
  simp only [Work.countChan, hj, hm, Option.isSome_some, Bool.false_eq_true, if_false, if_true, Work.countedQuiet]
  rfl

theorem Work.countChan_of_live (hm : (w.ch c).motion = some mo) (hj : w.judged c = true) :
    w.countChan c = w.countedLive c (if w.fast c then (w.ch c).osRun + 1 else 0) := by
  simp only [Work.countChan, hj, hm, Option.isSome_some, if_true, Work.countedLive]
  rfl

end

/-- The pulse of a count changes nothing of whether the channel drives. -/
theorem Channel.driving_of_pulse {x y : Machine.Channel} {t : Time} (hs : y.state = x.state)
    (hm : y.motion = x.motion.map fun mo => { mo with lastPulse := some t }) : y.driving = x.driving := by
  simp only [Channel.driving, hs, hm]
  cases x.motion <;> rfl

theorem Work.countedLive_driving (w : Work) (c : ChanId) (run : Nat) :
    ((w.countedLive c run).ch c).driving = (w.ch c).driving := by
  have hch : (w.countedLive c run).ch c = _ := w.ch_setCh_self c _
  rw [hch]
  exact Channel.driving_of_pulse (t := w.now) rfl rfl

theorem Work.countedQuiet_driving (w : Work) (c : ChanId) : ((w.countedQuiet c).ch c).driving = (w.ch c).driving := by
  have hch : (w.countedQuiet c).ch c = _ := w.ch_setCh_self c _
  rw [hch]
  exact Channel.driving_of_pulse (t := w.now) rfl rfl

theorem Work.countedQuiet_fenced (w : Work) (c : ChanId) : ((w.countedQuiet c).ch c).fenced = (w.ch c).fenced := by
  rw [Work.countedQuiet, Work.ch_setCh_self]

theorem Work.judgeRack_of_unpaired {w : Work} {m : MoverId} (h : (w.mv m).paired = false) : w.judgeRack m = w := by
  simp [Work.judgeRack, h]

theorem Work.judgeRack_of_still {w : Work} {m : MoverId} (h : w.anyCh m Channel.driving = false) : w.judgeRack m = w := by
  simp [Work.judgeRack, h]

theorem Work.judgeRange_of_within {w : Work} {c : ChanId} (hl : (w.ch c).pos ≠ -64) (hu : (w.ch c).pos ≠ w.upperLimit c) :
    w.judgeRange c = w := by
  simp [Work.judgeRange, hl, hu]

theorem Work.judgeRange_of_limit {w : Work} {c : ChanId} (hj : w.judged c = true)
    (h : (w.ch c).pos = -64 ∨ (w.ch c).pos = w.upperLimit c) : w.judgeRange c = w.raiseLock c .range := by
  have hc : (w.judged c && ((w.ch c).pos == -64 || (w.ch c).pos == w.upperLimit c)) = true := by
    rcases h with h | h <;> simp [hj, h]
  simp only [Work.judgeRange, if_pos hc]

theorem Work.judgeOverspeed_of_short {w : Work} {c : ChanId} (h : (w.ch c).osRun < 8) : w.judgeOverspeed c = w := by
  have hn : ¬ 8 ≤ (w.ch c).osRun := Nat.not_le_of_lt h
  simp [Work.judgeOverspeed, hn]

theorem Work.judgeOverspeed_of_run {w : Work} {c : ChanId} (hj : w.judged c = true) (h : 8 ≤ (w.ch c).osRun) :
    w.judgeOverspeed c = (w.setCh c { w.ch c with osRun := 0 }).raiseLock c .overspeed := by
  simp [Work.judgeOverspeed, hj, h]

theorem Work.hallCount_of {w : Work} {c : ChanId} {m : MoverId} (hm : w.moverOf c = some m) (hu : (w.ch c).used = true) :
    w.hallCount c = (((w.countChan c).judgeRange c).judgeOverspeed c).judgeRack m := by
  simp only [Work.hallCount, hm, hu, if_true]

theorem Work.setCh_setCh (w : Work) (c : ChanId) (x y : Machine.Channel) : (w.setCh c x).setCh c y = w.setCh c y := by
  simp [Work.setCh]

theorem Work.countedLive_judged {w : Work} {c : ChanId} (hd : (w.ch c).driving = true) (hfe : (w.ch c).fenced = false)
    (run : Nat) : (w.countedLive c run).judged c = true := by
  have hch : (w.countedLive c run).ch c = _ := w.ch_setCh_self c _
  rw [Work.judged_of_driving ((w.countedLive_driving c run).trans hd), hch]
  simp only [hfe, Bool.not_false]

section live

variable {w : Work} {c : ChanId} {m : MoverId} {mo : Motion} (hm : w.moverOf c = some m) (hu : (w.ch c).used = true)
  (hmo : (w.ch c).motion = some mo) (hf : (w.mv m).follower = none)
include hm hu hmo hf

/-- A count that no detector judges moves the position alone. -/
theorem Work.hallCount_of_quiet (hd : (w.ch c).driving = false ∨ (w.ch c).fenced = true) : w.hallCount c = w.countedQuiet c := by
  have hj : w.judged c = false := by
    rw [Work.judged_of_unpaired hm hf]
    rcases hd with h | h <;> simp [h]
  have hj' : (w.countedQuiet c).judged c = false := by
    rw [Work.judged_of_unpaired (w := w.countedQuiet c) hm hf, Work.countedQuiet_driving, Work.countedQuiet_fenced]
    rcases hd with h | h <;> simp [h]
  have hp : ((w.countedQuiet c).mv m).paired = false := by
    show (w.mv m).follower.isSome = false
    rw [hf]; rfl
  rw [Work.hallCount_of hm hu, Work.countChan_of_quiet hmo hj, Work.judgeRange_of_not_judged hj',
    Work.judgeOverspeed_of_not_judged hj', Work.judgeRack_of_unpaired hp]

variable (hd : (w.ch c).driving = true) (hfe : (w.ch c).fenced = false)
include hd hfe

omit hf in
/-- A count of a channel that drives goes to the detectors (log 10). -/
theorem Work.hallCount_of_live : w.hallCount c =
    (((w.countedLive c (if w.fast c then (w.ch c).osRun + 1 else 0)).judgeRange c).judgeOverspeed c).judgeRack m := by
  have hj : w.judged c = true := by rw [Work.judged_of_driving hd, hfe]; rfl
  rw [Work.hallCount_of hm hu, Work.countChan_of_live hmo hj]

theorem Work.hallCount_of_slow (hfast : w.fast c = false) (hl : w.nextPos c ≠ -64) (htop : w.nextPos c ≠ w.upperLimit c) :
    w.hallCount c = w.countedLive c 0 := by
  have hch : (w.countedLive c 0).ch c = _ := w.ch_setCh_self c _
  have hp : ((w.countedLive c 0).mv m).paired = false := by
    show (w.mv m).follower.isSome = false
    rw [hf]; rfl
  rw [Work.hallCount_of_live hm hu hmo hd hfe, hfast, if_neg Bool.false_ne_true,
    Work.judgeRange_of_within (by rw [hch]; exact hl) (by rw [hch]; exact htop),
    Work.judgeOverspeed_of_short (by rw [hch]; exact Nat.succ_pos 7), Work.judgeRack_of_unpaired hp]

theorem Work.hallCount_of_limit (hfast : w.fast c = false) (hl : w.nextPos c = -64 ∨ w.nextPos c = w.upperLimit c) :
    w.hallCount c = (w.countedLive c 0).raiseLock c .range := by
  have hch : (w.countedLive c 0).ch c = _ := w.ch_setCh_self c _
  have hrest := (w.countedLive c 0).raiseRange_lockRest (d := c) (n := m) c
  have hrun : (((w.countedLive c 0).raiseLock c .range).ch c).osRun = 0 := (congrArg Prod.fst hrest).trans (by rw [Work.lockRest, hch])
  have hp : (((w.countedLive c 0).raiseLock c .range).mv m).paired = false := by
    refine (congrArg Prod.snd hrest).trans ?_
    show (w.mv m).follower.isSome = false
    rw [hf]; rfl
  rw [Work.hallCount_of_live hm hu hmo hd hfe, hfast, if_neg Bool.false_ne_true,
    Work.judgeRange_of_limit (Work.countedLive_judged hd hfe 0) (by rw [hch]; exact hl),
    Work.judgeOverspeed_of_short (by rw [hrun]; exact Nat.succ_pos 7), Work.judgeRack_of_unpaired hp]

omit hf in
theorem Work.hallCount_of_run (hfast : w.fast c = true) (hr : 7 ≤ (w.ch c).osRun) (hl : w.nextPos c ≠ -64)
    (htop : w.nextPos c ≠ w.upperLimit c) :
    w.hallCount c = ((w.countedLive c 0).raiseLock c .overspeed).judgeRack m := by
  have hch : (w.countedLive c ((w.ch c).osRun + 1)).ch c = _ := w.ch_setCh_self c _
  have hzero : (w.countedLive c ((w.ch c).osRun + 1)).setCh c { (w.countedLive c ((w.ch c).osRun + 1)).ch c with osRun := 0 } =
      w.countedLive c 0 := by
    rw [hch, Work.countedLive, Work.setCh_setCh, Work.countedLive]
  rw [Work.hallCount_of_live hm hu hmo hd hfe, hfast, if_pos rfl,
    Work.judgeRange_of_within (by rw [hch]; exact hl) (by rw [hch]; exact htop),
    Work.judgeOverspeed_of_run (Work.countedLive_judged hd hfe _) (by rw [hch]; exact Nat.succ_le_succ hr), hzero]

end live

/-- A count at rest moves the position and, beyond an end zone, unseats. -/
theorem Work.hallCount_of_rest {w : Work} {c : ChanId} {m : MoverId} (hm : w.moverOf c = some m)
    (hu : (w.ch c).used = true) (hmo : (w.ch c).motion = none) (hdr : w.anyCh m Channel.driving = false) :
    w.hallCount c = w.setCh c { w.ch c with
      pos := w.nextPos c, lastEdge := some w.now,
      seat := seatAfterCount (w.ch c).seat (w.nextPos c) (w.effStroke c) (w.endZone c) } := by
  rw [Work.hallCount_of hm hu, Work.countChan_of_rest hmo]
  generalize hz : w.setCh c _ = z
  have hch : z.ch c = _ := hz ▸ w.ch_setCh_self c _
  have hmo' : (z.ch c).motion = none := by rw [hch]; exact hmo
  have hj := Work.judged_of_rest hmo'
  have hstill : z.anyCh m Channel.driving = false := by
    refine Bool.eq_false_iff.mpr fun h => Bool.false_ne_true (hdr.symm.trans ?_)
    obtain ⟨d, hd, hdd⟩ := List.any_eq_true.mp h
    have hne : d ≠ c := fun e => by
      rw [e] at hdd
      simp only [Channel.driving, hmo', Bool.false_eq_true] at hdd
    rw [← hz, Work.ch_setCh_ne w c d _ hne] at hdd
    rw [← hz] at hd
    exact List.any_eq_true.mpr ⟨d, hd, hdd⟩
  rw [Work.judgeRange_of_not_judged hj, Work.judgeOverspeed_of_not_judged hj, Work.judgeRack_of_still hstill]

theorem Work.notBefore_setCh (w : Work) (c : ChanId) (x : Machine.Channel) (t : Time) :
    (w.setCh c x).notBefore t = (w.notBefore t).setCh c x := rfl

theorem Work.atCount_eq (w : Work) (e : Nat) : w.notBefore (w.now + e) = { w with now := w.now + e } := by
  rw [Work.notBefore, Nat.max_eq_right (Nat.le_add_right _ _)]

theorem exec_hallCount {s : State} {c : ChanId} {m : MoverId} {e : Nat} {z : Work} (ha : s.work.awake = true)
    (hm : s.work.moverOf c = some m) (hz : ({ s.work with now := s.work.now + e } : Work).hallCount c = z) :
    exec (.hallCount c e) s = .next (finish s z none) := by
  refine exec_of_event ha rfl ?_
  simp only [hm, Option.isSome_some, if_true, Work.atCount_eq]
  exact hz

/-- Settles O47: at rest the count and the seat, in a motion the count and what the detectors make of it. -/
theorem hallCountsMoveThePosition : Obligations.HallCountsMoveThePosition := by
  unfold Obligations.HallCountsMoveThePosition
  intro s c m e ha hm hu w x z top pos zone
  have hpos : z.nextPos c = pos := by
    show countedPos x.pos top x.lastDir = _
    cases h : x.lastDir <;> simp [countedPos, pos, h]
  have hlive {mo : Motion} (hmo : x.motion = some mo) : z.countedLive c 0 = z.setCh c { x with
      pos := pos, osRun := 0, prevCount := some z.now, lastEdge := some z.now,
      motion := some { mo with lastPulse := some z.now } } := by
    have hmo' : (z.ch c).motion = some mo := hmo
    rw [Work.countedLive, hpos, hmo']
    rfl
  refine ⟨fun hmo hdr => exec_hallCount ha hm ?_, fun mo hmo hd hf hfe hl ht hslow => exec_hallCount ha hm ?_,
    fun mo hmo hd hf => exec_hallCount ha hm ?_, fun mo hmo hd hf hfe hl hslow => exec_hallCount ha hm ?_,
    fun mo hmo hd hf hfe hl ht hfast => exec_of_event ha rfl ?_⟩
  · have hseat : seatAfterCount x.seat pos (w.effStroke c) zone =
        if x.seat = .inSeated ∧ zone < pos ∨ x.seat = .outSeated ∧ pos < (w.effStroke c : Int) - zone then .between
        else x.seat := by
      cases h : x.seat <;> simp [seatAfterCount]
    have hcount := Work.hallCount_of_rest (w := z) hm hu hmo hdr
    rw [hpos] at hcount
    rw [hcount, ← hseat]
    rfl
  · exact (Work.hallCount_of_slow (w := z) hm hu hmo hf hd hfe (Work.not_fast hslow) (by rw [hpos]; exact hl)
      (by rw [hpos]; exact ht)).trans (hlive hmo)
  · have hmo' : (z.ch c).motion = some mo := hmo
    rw [Work.hallCount_of_quiet (w := z) hm hu hmo hf hd, Work.countedQuiet, hpos, hmo']
    rfl
  · rw [Work.hallCount_of_limit (w := z) hm hu hmo hf hd hfe (Work.not_fast hslow) (by rw [hpos]; exact hl), hlive hmo]
  · have hj : w.judged c = true := by rw [Work.judged_of_driving hd, hfe]; rfl
    have hat : w.overspeedAt c e = (z.setCh c { x with osRun := max 7 x.osRun, prevCount := some w.now }).hallCount c := by
      simp only [Work.overspeedAt, hj, if_true]
      rw [show (w.setCh c { w.ch c with osRun := max 7 (w.ch c).osRun, prevCount := some w.now }).now = w.now from rfl,
        Work.notBefore_setCh, Work.atCount_eq]
    rw [hat]
    generalize hu' : z.setCh c { x with osRun := max 7 x.osRun, prevCount := some w.now } = u
    have huch : u.ch c = { x with osRun := max 7 x.osRun, prevCount := some w.now } := by rw [← hu', Work.ch_setCh_self]
    have hnow : u.now = z.now := by rw [← hu']; rfl
    have hupos : u.nextPos c = pos := by
      have h : u.upperLimit c = top := by rw [← hu']; rfl
      rw [← hpos, Work.nextPos, huch, h]
      rfl
    have hulive : u.countedLive c 0 = z.countedLive c 0 := by
      rw [Work.countedLive, huch, hupos, hnow, ← hu', Work.setCh_setCh, Work.countedLive, hpos]
      rfl
    have hfast' : u.fast c = true := by
      have hm : u.minPulse = w.minPulse := by rw [← hu']; rfl
      have ht : w.now + e - w.now = e := Nat.add_sub_cancel_left _ _
      rw [Work.fast, huch, hnow, hm]
      show decide (w.now + e - w.now < w.minPulse) = true
      rw [ht]
      exact decide_eq_true hfast
    have hrun := Work.hallCount_of_run (w := u) (c := c) (m := m) (mo := mo) (by rw [← hu']; exact hm) (by rw [huch]; exact hu)
      (by rw [huch]; exact hmo) (by rw [huch]; exact hd) (by rw [huch]; exact hfe) hfast'
      (by rw [huch]; exact Nat.le_max_left _ _) (by rw [hupos]; exact hl)
      (by rw [hupos, ← hu']; exact ht)
    rw [hrun, hulive, hlive hmo]

end Sys2Proof.Machine
end

