-- ==== Sys2Proof/Proofs/DutyUpdates.lean ====
section
/-! PROOF. The 10 ms update of a mover with one channel (R7, R8, R9, R10). -/

namespace Sys2Proof.Machine

set_option Elab.async false

open Sys2Proof.Safety

/-! ## A mover with one channel -/

section

variable {w : Work} {m : MoverId} {c : ChanId} (h : Lone w m c)
include h

theorem lone_chansOf : w.chansOf m = [c] := by
  obtain ⟨hl, hf, -⟩ := h
  simp only [Work.chansOf, Mover.chans, hl, hf]; rfl

theorem lone_leadOf : w.leadOf c = c := by
  obtain ⟨hl, -, hm⟩ := h
  simp only [Work.leadOf, hm, hl, Option.getD_some]

theorem lone_motionField (base : Nat) : w.motionField base c = w.profN (base + c.val) := by
  rw [Work.motionField, lone_leadOf h]

theorem lone_anyCh (p : Machine.Channel → Bool) : w.anyCh m p = p (w.ch c) := by
  rw [Work.anyCh, lone_chansOf h, List.any_cons, List.any_nil, Bool.or_false]

theorem lone_allCh (p : Machine.Channel → Bool) : w.allCh m p = p (w.ch c) := by
  rw [Work.allCh, lone_chansOf h, List.all_cons, List.all_nil, Bool.and_true]

theorem lone_motionOf : w.motionOf m = (w.ch c).motion := by
  rw [Work.motionOf, lone_chansOf h, List.findSome?_cons, List.findSome?_nil]
  split <;> simp_all

theorem lone_setMv {x : Mover} (hl : x.leader = (w.mv m).leader) (hf : x.follower = (w.mv m).follower)
    (hp : x.present = (w.mv m).present) : Lone (w.setMv m x) m c := by
  have hc : x.chans = (w.mv m).chans := by rw [Mover.chans, Mover.chans, hl, hf]
  obtain ⟨hlead, hfol, hm⟩ := h
  exact ⟨by rw [Work.mv_setMv_self, hl, hlead], by rw [Work.mv_setMv_self, hf, hfol], (w.moverOf_setMv m hc hp c).trans hm⟩

theorem lone_unpaired : (w.mv m).paired = false := by
  obtain ⟨-, hf, -⟩ := h
  rw [Mover.paired, hf]; rfl

/-- The channel is in the slow zone of a direction (R7). -/
theorem lone_inSlowZone (d : Dir) : w.inSlowZone c d = true ↔ match d with
    | .outward => (w.effStroke c : Int) - (w.profN (0x0228 + c.val) : Int) ≤ (w.ch c).pos
    | .inward => (w.ch c).pos ≤ (w.profN (0x0228 + c.val) : Int) := by
  cases d <;> simp only [Work.inSlowZone, lone_motionField h, decide_eq_true_eq]

end

theorem Mover.firstSeat_of_not_seatedOnce {x : Mover} (h : x.seatedOnce = false) : x.run.bind (·.firstSeat) = none := by
  simpa [Mover.seatedOnce] using h

/-! ## The target line -/

/-- The channel makes a homing motion. -/
def Homing (w : Work) (c : ChanId) (mo : Motion) : Prop := (w.ch c).known = false ∨ mo.profile = .homing

/-- The channel approaches its end, or has no learned stroke to know it by. -/
def Nears (w : Work) (c : ChanId) (mo : Motion) : Prop :=
  mo.profile = .learn ∨ w.learned c = none ∨ w.inSlowZone c mo.dir = true

section

variable {w : Work} {m : MoverId} {c : ChanId} (h : Lone w m c) (hs : (w.mv m).seatedOnce = false) {mo : Motion}
include h hs

theorem lone_dutyLine_eq : w.dutyLine m mo =
    if !(w.ch c).known || mo.profile == .homing then .homing
    else if mo.profile == .learn || ((w.learned c).isNone || w.inSlowZone c mo.dir) then .approach else .run := by
  simp only [Work.dutyLine, Mover.firstSeat_of_not_seatedOnce hs, Work.known, lone_allCh h, lone_chansOf h, List.any_cons, List.any_nil,
    Bool.or_false]

theorem lone_dutyLine_homing (hh : Homing w c mo) : w.dutyLine m mo = .homing := by
  rw [lone_dutyLine_eq h hs]
  rcases hh with hh | hh <;> simp [hh]

theorem lone_dutyLine_approach (hh : ¬ Homing w c mo) (hn : Nears w c mo) : w.dutyLine m mo = .approach := by
  have hno : (!(w.ch c).known || mo.profile == .homing) = false := by simpa [Homing] using hh
  rw [lone_dutyLine_eq h hs, hno]
  rcases hn with hn | hn | hn <;> simp [hn]

theorem lone_dutyLine_run (hh : ¬ Homing w c mo) (hn : ¬ Nears w c mo) : w.dutyLine m mo = .run := by
  have hno : (!(w.ch c).known || mo.profile == .homing) = false := by simpa [Homing] using hh
  have hfar : (mo.profile == .learn || ((w.learned c).isNone || w.inSlowZone c mo.dir)) = false := by
    simpa [Nears, Option.isSome_iff_ne_none] using hn
  rw [lone_dutyLine_eq h hs, hno, hfar]; rfl

end

/-- The line reads of a channel whether its position is known, and the position. -/
theorem Work.dutyLine_setCh (w : Work) (t : Time) (c : ChanId) {y : Machine.Channel} (hk : y.known = (w.ch c).known)
    (hp : y.pos = (w.ch c).pos) (m : MoverId) (mo : Motion) :
    (({ w with now := t } : Work).setCh c y).dutyLine m mo = w.dutyLine m mo := by
  have hk' : ∀ d, ((({ w with now := t } : Work).setCh c y).ch d).known = (w.ch d).known := fun d => by
    by_cases hd : d = c
    · subst hd; rw [Work.ch_setCh_self, hk]
    · rw [Work.ch_setCh_ne _ _ _ _ hd]; rfl
  have hp' : ∀ d, ((({ w with now := t } : Work).setCh c y).ch d).pos = (w.ch d).pos := fun d => by
    by_cases hd : d = c
    · subst hd; rw [Work.ch_setCh_self, hp]
    · rw [Work.ch_setCh_ne _ _ _ _ hd]; rfl
  simp only [Work.dutyLine, Work.known, Work.allCh, Work.inSlowZone, hk', hp']
  rfl

/-! ## The update -/

theorem lone_dutyPlan {w : Work} {m : MoverId} {c : ChanId} (h : Lone w m c) (mo : Motion) : w.dutyPlan m mo =
    { line := w.dutyLine m mo, sync := .off, leader := w.dutyOf c (w.dutyLine m mo), follower := w.dutyOf c (w.dutyLine m mo) } := by
  obtain ⟨hl, hf, -⟩ := h
  simp only [Work.dutyPlan, hl, hf]

/-- The work in which a mover has its sync state set. -/
def Work.withSync (w : Work) (m : MoverId) (y : Sync) : Work := w.setMv m { w.mv m with sync := y }

theorem lone_updateMover {w : Work} {m : MoverId} {c : ChanId} (h : Lone w m c) (mo : Motion) : w.updateMover m mo =
    (w.withSync m .off).setCh c ((w.ch c).update (w.dutyLine m mo) (w.dutyOf c (w.dutyLine m mo)) w.now
      (1000 * w.profN (0x0208 + c.val))) := by
  have hl : Lone (w.setMv m { w.mv m with sync := .off }) m c := lone_setMv h rfl rfl rfl
  have hc : (w.mv m).chans = [c] := lone_chansOf h
  simp only [Work.updateMover, lone_dutyPlan h, hc, List.foldl_cons, List.foldl_nil, lone_motionField hl, ite_self]
  rfl

theorem lone_dutyUpdate {w : Work} {m : MoverId} {c : ChanId} (h : Lone w m c) {mo : Motion} {t0 : Time}
    (hmo : (w.ch c).motion = some mo) (hd : (w.ch c).driving = true) (ht : (w.ch c).dutyAt = some t0) :
    w.dutyUpdate c = Work.updateMover (({ w with now := max w.now (t0 + 10000) } : Work).setCh c
      { w.ch c with dutyAt := some (max w.now (t0 + 10000)) }) m mo := by
  have hdue : w.updateDue c = t0 + 10000 := by
    simp only [Work.updateDue, lone_leadOf h, ht]; rfl
  have hlead : ({ w with now := max w.now (t0 + 10000) } : Work).leadOf c = c := lone_leadOf h
  have hmot := (lone_motionOf h).trans hmo
  have hany := (lone_anyCh h Channel.driving).trans hd
  obtain ⟨-, -, hm⟩ := h
  simp only [Work.dutyUpdate, hm, hmot, hany, if_true, hdue, Work.markUpdate, Work.notBefore, hlead]
  rfl

theorem Channel.update_of_ramp {x : Machine.Channel} {mo : Motion} (hm : x.motion = some mo) (hd : x.driving = true)
    (hp : mo.phase = .ramp) (l : DutyLine) (target : Nat) (now total : Time) : x.update l target now total =
      { x with duty := rampDutyAt mo.rampDuty target (now - mo.rampStart) total,
               motion := some (if total ≤ now - mo.rampStart then { mo with phase := l.phase } else mo) } := by
  simp only [Channel.update, hm, hd, hp, if_true]

theorem Channel.update_of_steps {x : Machine.Channel} {mo : Motion} (hm : x.motion = some mo) (hd : x.driving = true)
    (hp : mo.phase ≠ .ramp) (l : DutyLine) (target : Nat) (now total : Time) : x.update l target now total =
      { x with duty := stepDuty x.duty target, motion := some { mo with phase := l.phase } } := by
  simp only [Channel.update, hm, hd, hp, if_true, if_false]

/-- Settles O48: the line gives target and phase, the phase before the update the duty. -/
theorem dutyFollowsRampAndSteps : Obligations.DutyFollowsRampAndSteps := by
  unfold Obligations.DutyFollowsRampAndSteps
  intro s c m mo t0 ha h hmo hd ht hs w x now' slow homing approach target phase hhom happ hrun z ramp elapsed
  have hslow : w.inSlowZone c mo.dir = true ↔ slow := lone_inSlowZone h mo.dir
  have hline : ∃ l, w.dutyLine m mo = l ∧ w.dutyOf c l = target ∧ l.phase = phase := by
    by_cases hh : homing
    · obtain ⟨ht, hp⟩ := hhom hh
      exact ⟨.homing, lone_dutyLine_homing h hs hh, (lone_motionField h _).trans ht.symm, hp.symm⟩
    · by_cases hn : Nears w c mo
      · have hn' : approach := ⟨hh, hn.imp id fun h => h.imp id hslow.mp⟩
        obtain ⟨ht, hp⟩ := happ hn'
        exact ⟨.approach, lone_dutyLine_approach h hs hh hn, (lone_motionField h _).trans ht.symm, hp.symm⟩
      · have hn' : ¬ approach := fun ⟨_, h⟩ => hn (h.imp id fun h => h.imp id hslow.mpr)
        obtain ⟨ht, hp⟩ := hrun hh hn'
        exact ⟨.run, lone_dutyLine_run h hs hh hn, (lone_motionField h _).trans ht.symm, hp.symm⟩
  obtain ⟨l, hl, htarget, hphase⟩ := hline
  let y : Machine.Channel := { x with dutyAt := some now' }
  have hupd : w.dutyUpdate c = z.setCh c (y.update l target now' ramp) := by
    have hlone : Lone (({ w with now := now' } : Work).setCh c y) m c := h
    have hline : (({ w with now := now' } : Work).setCh c y).dutyLine m mo = l :=
      (w.dutyLine_setCh now' c (y := y) rfl rfl m mo).trans hl
    have hduty : (({ w with now := now' } : Work).setCh c y).dutyOf c l = target := htarget
    have hch : (({ w with now := now' } : Work).setCh c y).ch c = y := Work.ch_setCh_self _ c y
    have hset : ((({ w with now := now' } : Work).setCh c y).withSync m .off).setCh c (y.update l target now' ramp) =
        z.setCh c (y.update l target now' ramp) := by
      show ((z.setCh c y).setCh c (y.update l target now' ramp)) = _
      exact z.setCh_setCh c y _
    have hu := lone_updateMover hlone mo
    rw [hline, hduty, hch] at hu
    exact (lone_dutyUpdate h hmo hd ht).trans (hu.trans hset)
  have hexec {y' : Machine.Channel} (h : y.update l target now' ramp = y') :
      exec (.dutyUpdate c) s = .next (finish s (z.setCh c y') none) :=
    exec_of_event ha rfl (hupd.trans (by rw [h]))
  have hmo' : y.motion = some mo := hmo
  have hd' : y.driving = true := hd
  refine ⟨fun hr he => hexec ?_, fun hr he => hexec ?_, fun hr => hexec ?_⟩
  · rw [Channel.update_of_ramp hmo' hd' hr, if_neg (Nat.not_le_of_lt he), rampDutyAt, if_neg (Nat.not_le_of_lt he), ← hmo']
  · rw [Channel.update_of_ramp hmo' hd' hr, if_pos he, rampDutyAt, if_pos he, hphase]
  · rw [Channel.update_of_steps hmo' hd' hr, hphase]
    rfl

end Sys2Proof.Machine
end

