-- ==== Sys2Proof/Proofs/StallJudgements.lean ====
section
/-! PROOF. The stall judgement of a mover with one channel (R17). -/

namespace Sys2Proof.Machine

set_option Elab.async false

open Sys2Proof.Safety

/-! ## A channel that drives stops -/

theorem Channel.not_stopping_of_driving {x : Machine.Channel} (hd : x.driving = true) : x.stopping = false := by
  simp only [Channel.driving, Channel.stopping] at *
  split at hd
  · next mo hm =>
    cases hp : mo.phase <;> simp_all [Phase.drives]
  · cases hd

theorem Channel.stopWith_of_driving {x : Machine.Channel} {mo : Motion} (hm : x.motion = some mo) (hd : x.driving = true)
    (cause : Cause) (coast : Bool) (now : Time) :
    x.stopWith cause coast now = Safety.stopping x mo cause (if coast then .coast else .brake) now := by
  have hs : ¬ x.stopping = true := by rw [Channel.not_stopping_of_driving hd]; exact Bool.false_ne_true
  simp only [Channel.stopWith, hm, if_neg hs]
  rfl

/-- What drives does not hang on count, seat and correction. -/
theorem Channel.driving_of_motion {x y : Machine.Channel} {mo mo' : Motion} (hx : x.motion = some mo) (hy : y.motion = some mo')
    (hs : y.state = x.state) (hp : mo'.phase = mo.phase) : y.driving = x.driving := by
  simp only [Channel.driving, hx, hy, hs, hp]

/-! ## Seats -/

theorem lone_endClaim {w : Work} {m : MoverId} {c : ChanId} (h : Lone w m c) : Lone (w.endClaim m) m c := by
  obtain ⟨a, b, he⟩ := claimEnded_form (w.mv m)
  rw [Work.endClaim_eq, he]
  exact lone_setMv h rfl rfl rfl

/-- A seat of a mover's one channel ends the claim (R38). -/
theorem lone_afterSeat {w : Work} {m : MoverId} {c : ChanId} (h : Lone w m c) (hd : (w.ch c).driving = false)
    (hl : (w.mv m).learn = none) : w.afterSeat m = w.endClaim m := by
  simp only [Work.afterSeat, lone_chansOf h, List.find?_cons, List.find?_nil, hd, hl]

theorem lone_judgeRack {w : Work} {m : MoverId} {c : ChanId} (h : Lone w m c) : w.judgeRack m = w :=
  Work.judgeRack_of_unpaired (lone_unpaired h)

theorem Work.measure_of_none {w : Work} {m : MoverId} (h : (w.mv m).learn = none) (c : ChanId) : w.measure m c = w := by
  simp only [Work.measure, h]

theorem lone_askCheckpoint {w : Work} {m : MoverId} {c : ChanId} (h : Lone w m c) (b : Bool) : Lone (w.askCheckpoint c b) m c := by
  obtain ⟨st, he, -⟩ := w.askCheckpoint_frame c b
  rw [he]; exact h

section

variable {w : Work} {m : MoverId} {c : ChanId} (h : Lone w m c) {mo : Motion} (hm : (w.ch c).motion = some mo)
  (hd : (w.ch c).driving = true)

/-- The channel with its seat IN taken. -/
def seatedIn (x : Machine.Channel) (mo : Motion) : Machine.Channel :=
  { x with pos := 0, known := true, seat := .inSeated, motion := some { mo with correction := some x.pos } }

include hm hd

/-- The channel that seats IN stops, before its mover is told (R14, R17). -/
theorem Work.seatIn_eq : w.seatIn m c = ((((w.setCh c (seatedIn (w.ch c) mo)).askCheckpoint c false).setCh c
    (Safety.stopping (seatedIn (w.ch c) mo) { mo with correction := some (w.ch c).pos } .seated .brake w.now)).afterSeat m).judgeRack m := by
  have hin : ({ w.ch c with pos := 0, known := true, seat := .inSeated, motion := (w.ch c).motion.map fun mo =>
      { mo with correction := some (w.ch c).pos } } : Machine.Channel) = seatedIn (w.ch c) mo := by rw [hm]; rfl
  have hdrive : (seatedIn (w.ch c) mo).driving = true := 
    (Channel.driving_of_motion (y := seatedIn (w.ch c) mo) hm rfl rfl rfl).trans hd
  have hstop := Channel.stopWith_of_driving (x := seatedIn (w.ch c) mo) rfl hdrive .seated false w.now
  simp only [Work.seatIn, hin]
  generalize hz : (w.setCh c (seatedIn (w.ch c) mo)).askCheckpoint c false = z
  have hch : z.ch c = seatedIn (w.ch c) mo := by rw [← hz, Work.askCheckpoint_ch, Work.ch_setCh_self]
  obtain ⟨st, he, -⟩ := (w.setCh c (seatedIn (w.ch c) mo)).askCheckpoint_frame c false
  have hnow : z.now = w.now := by rw [← hz, he]; rfl
  rw [hch, hnow, hstop, if_neg Bool.false_ne_true]

/-- The channel that seats OUT, its count measured where a learning run asks for it, stops (R17, R55). -/
theorem Work.seatOut_of {z : Work} (hz : w.measure m c = z) (hch : z.ch c = w.ch c) : w.seatOut m c =
    (z.setCh c (Safety.stopping { w.ch c with seat := .outSeated } mo .seated .brake z.now)).afterSeat m := by
  have hstop := Channel.stopWith_of_driving (x := { w.ch c with seat := .outSeated }) hm hd .seated false z.now
  simp only [Work.seatOut, hz, hch, hstop, if_neg Bool.false_ne_true]

variable (hl : (w.mv m).learn = none)
include h hl

theorem lone_seatOut : w.seatOut m c =
    (w.setCh c (Safety.stopping { w.ch c with seat := .outSeated } mo .seated .brake w.now)).endClaim m := by
  rw [Work.seatOut_of hm hd (Work.measure_of_none hl c) rfl]
  exact lone_afterSeat (w := w.setCh c _) h (by rw [Work.ch_setCh_self]; rfl) hl

theorem lone_seatIn : w.seatIn m c = (((w.setCh c (seatedIn (w.ch c) mo)).askCheckpoint c false).setCh c
    (Safety.stopping (seatedIn (w.ch c) mo) { mo with correction := some (w.ch c).pos } .seated .brake w.now)).endClaim m := by
  rw [Work.seatIn_eq hm hd]
  generalize hz : (w.setCh c (seatedIn (w.ch c) mo)).askCheckpoint c false = z
  have hlone : Lone z m c := by rw [← hz]; exact lone_askCheckpoint (w := w.setCh c _) h false
  obtain ⟨st, he, -⟩ := (w.setCh c (seatedIn (w.ch c) mo)).askCheckpoint_frame c false
  have hlearn : (z.mv m).learn = none := by rw [← hz, he]; exact hl
  rw [lone_afterSeat (w := z.setCh c _) hlone (by rw [Work.ch_setCh_self]; rfl) hlearn]
  exact lone_judgeRack (lone_endClaim hlone)

end

/-! ## The judgement -/

/-- The work in which a stall judgement is made: the reading in the window, the moment noted. -/
def Work.judging (w : Work) (c : ChanId) (x : Machine.Channel) (v : Nat) : Work :=
  w.setCh c { x with window := List.replicate 8 v, current := min 1000 v, lastJudge := some w.now }

theorem Work.judging_ch (w : Work) (c : ChanId) (x : Machine.Channel) (v : Nat) : (w.judging c x v).ch c =
    { x with window := List.replicate 8 v, current := min 1000 v, lastJudge := some w.now } := Work.ch_setCh_self _ _ _

/-- The result of a judgement at a mover with one channel (R17). -/
def Work.stallOf (w : Work) (c : ChanId) (mo : Motion) (held : Bool) (v : Nat) : StallResult :=
  stallResult (min 1000 v) (w.profN (0x0238 + c.val)) (w.profN (0x0240 + c.val)) mo.dir (w.ch c).known held (w.ch c).pos
    (w.effStroke c) (w.profN (0x0230 + c.val)) (if w.learned c = none then 2 * (w.profN (0x0230 + c.val) : Int) else w.profN (0x0230 + c.val))

theorem Work.setCh_motionField (w : Work) (c : ChanId) (x : Machine.Channel) (base : Nat) (d : ChanId) :
    (w.setCh c x).motionField base d = w.motionField base d := rfl

theorem Work.setCh_effStroke (w : Work) (c : ChanId) (x : Machine.Channel) (d : ChanId) :
    (w.setCh c x).effStroke d = w.effStroke d := rfl

theorem lone_judgeStall {w : Work} {m : MoverId} {c : ChanId} (h : Lone w m c) {mo : Motion} (hd : (w.ch c).driving = true)
    {held : Bool} (hl : ((w.mv m).learn.bind (·.held)).isSome = held) {z : Work} (hz : w.setCh c { w.ch c with lastJudge := some w.now } = z) :
    w.judgeStall m c mo =
      match stallResult (w.ch c).current (w.profN (0x0238 + c.val)) (w.profN (0x0240 + c.val)) mo.dir (w.ch c).known held
        (w.ch c).pos (w.effStroke c) (w.profN (0x0230 + c.val))
        (if w.learned c = none then 2 * (w.profN (0x0230 + c.val) : Int) else w.profN (0x0230 + c.val)) with
      | .seatIn => z.seatIn m c
      | .seatOut => z.seatOut m c
      | .lock k => z.raiseLock c k := by
  subst hz
  simp only [Work.judgeStall, hd, hl, if_true, Option.isNone_iff_eq_none, Work.endZone,
    Work.setCh_motionField, Work.setCh_effStroke, lone_motionField h] <;> rfl

theorem lone_stallAt {w : Work} {m : MoverId} {c : ChanId} (h : Lone w m c) {mo : Motion} (hm : (w.ch c).motion = some mo)
    (hd : (w.ch c).driving = true) (hduty : 0 < (w.ch c).duty) (hf : (w.ch c).fenced = false) {held : Bool} (hl : ((w.mv m).learn.bind (·.held)).isSome = held)
    (v : Nat) {z : Work} (hz : (w.notBefore (w.stallDue (w.ch c) mo)).showCurrent c v = z) : w.stallAt c v =
      match w.stallOf c mo held v with
      | .seatIn => (z.judging c (w.ch c) v).seatIn m c
      | .seatOut => (z.judging c (w.ch c) v).seatOut m c
      | .lock k => (z.judging c (w.ch c) v).raiseLock c k := by
  have hj : w.stallJudged c mo = true := by
    simp only [Work.stallJudged, hf, hd, hduty, if_true, decide_true, Bool.not_false, Bool.and_self]
  have hmover : w.moverOf c = some m := h.2.2
  have hat : w.stallAt c v = (z.setCh c ((w.ch c).withReading v)).judgeStall m c mo := by
    simp only [Work.stallAt, hmover, hm, hj, if_true, hz]
  have hch : (z.setCh c ((w.ch c).withReading v)).ch c = (w.ch c).withReading v := Work.ch_setCh_self _ _ _
  have hjudge := lone_judgeStall (w := z.setCh c ((w.ch c).withReading v)) (m := m) (c := c) (mo := mo)
    (held := held) (z := z.judging c (w.ch c) v) (by rw [← hz]; exact h) (by rw [hch]; exact hd) (by rw [← hz]; exact hl)
    (by rw [hch]; exact Work.setCh_setCh _ _ _ _)
  rw [hch] at hjudge
  rw [hat, hjudge]
  subst hz
  rfl

theorem StallResult.of_stalled {current stall openLoad : Nat} (h : stall ≤ current) (d : Dir) (known held : Bool) (pos eff zi zo : Int) :
    stallResult current stall openLoad d known held pos eff zi zo =
      match d with
      | .inward => if known = false ∨ pos ≤ zi then .seatIn else .lock .obstruction
      | .outward => if held = true ∨ eff - zo ≤ pos then .seatOut else .lock .obstruction := by
  simp only [stallResult, if_pos h] <;> rfl

theorem StallResult.of_not_stalled {current stall openLoad : Nat} (h : ¬ stall ≤ current) (d : Dir) (known held : Bool)
    (pos eff zi zo : Int) : stallResult current stall openLoad d known held pos eff zi zo =
      if current < openLoad then .lock .openLoad else .lock .noPulse := by
  simp only [stallResult, if_neg h]

/-- Settles O49: the table of R17, and what each of its results does to the one channel. -/
theorem stallJudgementSeatsOrLocks : Obligations.StallJudgementSeatsOrLocks := by
  unfold Obligations.StallJudgementSeatsOrLocks
  intro s c m mo v ha h hm hd hduty hf hl w x z y stalled zone zoneOut seatIn seatOut lock
  have hat := lone_stallAt h hm hd hduty hf (held := false) (by rw [show (w.mv m).learn = none from hl]; rfl) v (z := z) rfl
  have hlone : Lone (z.judging c x v) m c := h
  have hch : (z.judging c x v).ch c = y := z.judging_ch c x v
  have hmy : ((z.judging c x v).ch c).motion = some mo := by rw [hch]; exact hm
  have hdy : ((z.judging c x v).ch c).driving = true := by rw [hch]; exact hd
  have hly : ((z.judging c x v).mv m).learn = none := hl
  have hset : ∀ y', (z.judging c x v).setCh c y' = z.setCh c y' := fun y' => z.setCh_setCh c _ y'
  have hlock {k : LockKind} (hr : w.stallOf c mo false v = .lock k) : lock k :=
    exec_of_event ha rfl (by rw [hat, hr]; rfl)
  refine ⟨fun hst hin => ?_, fun hst hout => exec_of_event ha rfl ?_, fun hst hin hout => hlock ?_, fun hst ho => hlock ?_,
    fun hst ho => hlock ?_⟩
  · intro y1
    refine exec_of_event ha rfl ?_
    obtain ⟨hdir, hpos⟩ := hin
    have hr : w.stallOf c mo false v = .seatIn := by
      rw [Work.stallOf, StallResult.of_stalled hst, hdir]
      exact if_pos hpos
    rw [hat, hr]
    dsimp only
    rw [lone_seatIn hlone hmy hdy hly, hch, hset]
    rfl
  · obtain ⟨hdir, hpos⟩ := hout
    have hr : w.stallOf c mo false v = .seatOut := by
      rw [Work.stallOf, StallResult.of_stalled hst, hdir]
      exact if_pos (.inr hpos)
    rw [hat, hr]
    dsimp only
    rw [lone_seatOut hlone hmy hdy hly, hch, hset]
    rfl
  · rw [Work.stallOf, StallResult.of_stalled hst]
    cases hdir : mo.dir with
    | inward => exact if_neg fun h => hin ⟨hdir, h⟩
    | outward => exact if_neg fun h => hout ⟨hdir, h.resolve_left Bool.false_ne_true⟩
  · rw [Work.stallOf, StallResult.of_not_stalled hst]
    exact if_pos ho
  · rw [Work.stallOf, StallResult.of_not_stalled hst]
    exact if_neg (Nat.not_lt_of_le ho)

end Sys2Proof.Machine
end

