-- ==== Sys2Proof/Proofs/MotionPhases.lean ====
section
/-! PROOF. The phases of a motion with one channel, and the end of a mover's motion (R5, R23, R24, R49, R130). -/

namespace Sys2Proof.Machine

set_option Elab.async false

open Sys2Proof.Safety

/-! ## The entry to RAMP -/

theorem lone_enterRamp {w : Work} {m : MoverId} {c : ChanId} (h : Lone w m c) {mo : Motion} (hm : (w.ch c).motion = some mo)
    {p : Machine.Channel → Bool} (hp : p (w.ch c) = true) : w.enterRamp m p = w.setCh c ((w.ch c).enterRamp
      (w.profN (0x0200 + c.val)) (w.dutyOf c (w.dutyLine m mo)) w.now) := by
  simp only [Work.enterRamp, lone_unpaired h, Bool.false_and, Bool.false_eq_true, if_false, lone_motionOf h, hm,
    lone_chansOf h, List.foldl_cons, List.foldl_nil, hp, if_true, lone_motionField h]

/-- The channel in RAMP from a moment on (R5, R8). -/
def ramped (x : Machine.Channel) (mo : Motion) (now : Time) (start : Nat) : Machine.Channel :=
  { x with state := .moving, duty := start, seat := .between, ocRun := 0, osRun := 0,
           bridge := (match mo.dir with | .outward => .driveOut | .inward => .driveIn),
           prevCount := none, lastJudge := none, retryEnd := none, dutyAt := some now,
           motion := some { mo with phase := .ramp, rampStart := now, rampDuty := start } }

theorem Channel.enterRamp_of {x : Machine.Channel} {mo : Motion} (hm : x.motion = some mo) (start target : Nat) (now : Time) :
    x.enterRamp start target now = ramped x mo now (min start target) := by
  simp only [Channel.enterRamp, hm, ramped]
  cases mo.dir <;> rfl

/-- The channel whose checkpoint is written enters RAMP (R5). -/
theorem lone_reportWritten {w : Work} {m : MoverId} {c : ChanId} (h : Lone w m c) {mo : Motion}
    (hm : (w.ch c).motion = some mo) (hs : (w.ch c).starting = true) : w.reportWritten c (some mo.serial) =
      w.setCh c (ramped (w.ch c) { mo with written := true } w.now
        (min (w.profN (0x0200 + c.val)) (w.dutyOf c (w.dutyLine m mo)))) := by
  have hmover : w.moverOf c = some m := h.2.2
  have hcond : ((w.ch c).starting && mo.serial == mo.serial) = true := by rw [hs, beq_self_eq_true]; rfl
  generalize hz : w.setCh c { w.ch c with motion := some { mo with written := true } } = z
  have hch : z.ch c = { w.ch c with motion := some { mo with written := true } } := by rw [← hz, Work.ch_setCh_self]
  have hlone : Lone z m c := by rw [← hz]; exact h
  have hmz : (z.ch c).motion = some { mo with written := true } := by rw [hch]
  have hsz : (z.ch c).starting = true := by
    simp only [Channel.starting, hm] at hs
    rw [hch]; exact hs
  have hall : z.allWritten m = true := by
    rw [Work.allWritten, lone_allCh hlone, hmz]
    exact Bool.or_true _
  have hline : z.dutyLine m { mo with written := true } = w.dutyLine m mo := by
    rw [← hz]
    exact w.dutyLine_setCh w.now c (y := { w.ch c with motion := some { mo with written := true } }) rfl rfl m
      { mo with written := true }
  have hramp : z.enterRamp m Channel.starting = w.setCh c (ramped (w.ch c) { mo with written := true } w.now
        (min (w.profN (0x0200 + c.val)) (w.dutyOf c (w.dutyLine m mo)))) := by
    rw [lone_enterRamp hlone hmz hsz, hline, Channel.enterRamp_of hmz, hch, ← hz, Work.setCh_setCh]
    rfl
  simp only [Work.reportWritten, hmover, hm, hcond, if_true, hz, hall, hramp]

/-- The work after a checkpoint job of a channel. -/
def Work.stored (w : Work) (c : ChanId) (t : Time) (r : Option Record) : Work :=
  { w with now := max w.now (t + 5000),
           store := { w.store with busy := none, checkpoints := w.store.checkpoints.set c r } }

theorem Work.checkpointWritten_of {w : Work} {c : ChanId} {k : Checkpoint} {n : Option Nat} {t : Time} {r : Option Record}
    (h : w.store.busy = some { job := .checkpoint c k n, start := t, record := r }) :
    w.checkpointWritten c = ((w.stored c t r).reportWritten c n).serveNext := by
  have hj : Job.isCheckpointOf c (.checkpoint c k n) = true := beq_self_eq_true c
  simp only [Work.checkpointWritten, h, hj, if_true, Work.endJob]
  rfl

/-! ## The end of a retry wait -/

theorem Work.aliveCause_of_link {w : Work} {m : MoverId} {cl : Claim} {d : Time} (hc : (w.mv m).claim = some cl)
    (hk : cl.kind = .move) (hs : cl.source = .link) (hl : cl.lease = some d) :
    w.aliveCause m = if w.now < d then none else some .leaseExpired := by
  simp only [Work.aliveCause, hc, hk, hs, hl]

theorem lone_retryExpiry {w : Work} {m : MoverId} {c : ChanId} (h : Lone w m c) {t : Time} (hs : (w.ch c).state = .retryWait)
    (ht : (w.ch c).retryEnd = some t) : w.retryExpiry c = (w.notBefore t).endRetry m := by
  have hmover : w.moverOf c = some m := h.2.2
  simp only [Work.retryExpiry, hmover, hs, if_true, ht, Option.getD_some]

/-- A live claim drives on after the wait, a dead one stops with its cause (R24). -/
theorem Work.endRetry_of_alive {w : Work} {m : MoverId} (h : w.aliveCause m = none) :
    w.endRetry m = w.enterRamp m (fun x => x.state == .retryWait) := by
  simp only [Work.endRetry, h]

theorem Work.endRetry_of_dead {w : Work} {m : MoverId} {k : Cause} (h : w.aliveCause m = some k) :
    w.endRetry m = w.stopMover m k := by
  simp only [Work.endRetry, h]

/-! ## The end of STOPPING -/

/-- The channel at rest after its motion (R23). -/
def atRest (x : Machine.Channel) (mo : Motion) : Machine.Channel :=
  { x with motion := none, duty := 0, retry := 0, state := if mo.cause = some .fault then .faulted else .idle,
           bridge := if mo.cause = some .fault then x.bridge else .brake }

theorem Channel.endStopping_of {x : Machine.Channel} (hr : x.rackLatch = false) (mo : Motion) :
    x.endStopping (mo.cause.getD .stopped) = atRest x mo := by
  have hcause : mo.cause.getD .stopped = .fault ↔ mo.cause = some .fault := by
    cases mo.cause <;> simp
  cases x
  dsimp only at hr
  subst hr
  simp only [Channel.endStopping, atRest, Bool.false_eq_true, if_false]
  by_cases hf : mo.cause = some .fault
  · rw [if_pos (hcause.mpr hf), if_pos hf, if_pos hf]
  · rw [if_neg (mt hcause.mp hf), if_neg hf, if_neg hf]

theorem Work.recordEnd_of_leader {w : Work} {m : MoverId} {c : ChanId} {r : Run} (hm : w.moverOf c = some m)
    (hl : (w.mv m).leader = some c) (hr : (w.mv m).run = some r) (corr : Option Int) : w.recordEnd c corr =
      w.setMv m { w.mv m with run := some { r with leaderEnd := some ((w.ch c).pos, corr) } } := by
  simp only [Work.recordEnd, hm, hr, hl, if_true]

theorem lone_stoppingEnd {w : Work} {m : MoverId} {c : ChanId} (h : Lone w m c) {mo : Motion} (hm : (w.ch c).motion = some mo)
    (hs : (w.ch c).stopping = true) : w.stoppingEnd c = (w.notBefore (mo.earliestEnd w.restWindow)).endChan m c mo := by
  have hmover : w.moverOf c = some m := h.2.2
  simp only [Work.stoppingEnd, hmover, hm, hs, if_true]

theorem Work.askCheckpoint_mv (w : Work) (c : ChanId) (b : Bool) (m : MoverId) : (w.askCheckpoint c b).mv m = w.mv m := by
  obtain ⟨st, he, -⟩ := w.askCheckpoint_frame c b
  rw [he]; rfl

theorem Work.endIfAtRest_of_rest {w : Work} {m : MoverId} {c : ChanId} (h : Lone w m c) (hm : (w.ch c).motion = none) :
    w.endIfAtRest m = w.moverEnd m := by
  have hat : w.atRest m = true := by rw [Work.atRest, lone_anyCh h, hm]; rfl
  rw [Work.endIfAtRest, if_pos hat]

/-- A mover with one channel is done when the channel rests (R23). -/
theorem lone_endChan_moverEnd {w : Work} {m : MoverId} {c : ChanId} (h : Lone w m c) {r : Run} (hr : (w.mv m).run = some r)
    (hk : (w.ch c).rackLatch = false) (mo : Motion) : w.endChan m c mo =
      (((w.setCh c (atRest (w.ch c) mo)).setMv m { w.mv m with
        run := some { r with leaderEnd := some ((w.ch c).pos, mo.correction) } }).askCheckpoint c false).moverEnd m := by
  have hmover : w.moverOf c = some m := h.2.2
  have hlead : (w.mv m).leader = some c := h.1
  have hrec := Work.recordEnd_of_leader (w := w.setCh c (atRest (w.ch c) mo)) hmover hlead hr mo.correction
  have hpos : ((w.setCh c (atRest (w.ch c) mo)).ch c).pos = (w.ch c).pos := by rw [Work.ch_setCh_self]; rfl
  rw [hpos] at hrec
  simp only [Work.endChan, Channel.endStopping_of hk, hrec]
  refine Work.endIfAtRest_of_rest (m := m) (c := c) ?_ ?_
  · refine lone_askCheckpoint ?_ false
    exact lone_setMv (w := w.setCh c (atRest (w.ch c) mo)) h rfl rfl rfl
  · rw [Work.askCheckpoint_ch]
    show ((w.setCh c (atRest (w.ch c) mo)).ch c).motion = none
    rw [Work.ch_setCh_self]; rfl

/-- A mover with one channel ends its motion when the channel rests (R23, R49). -/
theorem lone_endChan {w : Work} {m : MoverId} {c : ChanId} (h : Lone w m c) {r : Run} (hr : (w.mv m).run = some r)
    (hl : (w.mv m).learn = none) (hk : (w.ch c).rackLatch = false) (mo : Motion) : w.endChan m c mo =
      (((w.setCh c (atRest (w.ch c) mo)).setMv m { w.mv m with
        run := some { r with leaderEnd := some ((w.ch c).pos, mo.correction) } }).askCheckpoint c false).closeMotion m
          { r with leaderEnd := some ((w.ch c).pos, mo.correction) } (r.firstCause.getD .seated) := by
  rw [lone_endChan_moverEnd h hr hk]
  refine Work.moverEnd_of_cause ?_ ?_
  · rw [Work.askCheckpoint_mv, Work.mv_setMv_self]; exact hl
  · rw [Work.askCheckpoint_mv, Work.mv_setMv_self]

/-! ## The end of a mover's motion -/

/-- The rest after the claim and the run are gone (R37, R127, R130). -/
theorem Work.closeMotion_eq (w : Work) (m : MoverId) (r : Run) (cause : Cause) : w.closeMotion m r cause =
    (((w.setMv m (motionEnded (w.mv m))).emit (.motionEnded m cause
      (r.leaderEnd.getD (w.leaderPos m, none)).1 (r.leaderEnd.getD (w.leaderPos m, none)).2)).release
        (moverTarget m)).afterMotion m r := by
  have hsync : (claimEnded (w.mv m)).sync = (w.mv m).sync := by obtain ⟨a, b, h⟩ := claimEnded_form (w.mv m); rw [h]
  simp only [Work.closeMotion, Work.endClaim_eq, Work.mv_setMv_self, Work.setMv_setMv, motionEnded, hsync]

/-- The dwell that follows a motion, when no retract waits. -/
def dwellAfter (w : Work) (m : MoverId) (r : Run) : Option Time :=
  if m = awn then (if (w.mv m).pendRev = none then (w.mv m).dwellEnd else some (w.now + 500000))
  else if r.dwellAfter then some (w.now + 500000) else (w.mv m).dwellEnd

theorem Work.afterMotion_eq {w : Work} {m : MoverId} {r : Run} (hp : m = awn → (w.mv m).pendRetract = none) :
    w.afterMotion m r = w.setMv m { w.mv m with dwellEnd := dwellAfter w m r } := by
  by_cases hm : m = awn
  · subst hm
    cases hr : (w.mv awn).pendRev with
    | none => simp only [Work.afterMotion, dwellAfter, hp rfl, hr, if_true]; exact ((congrArg (w.setMv awn) (by rw [← hp rfl, ← hr])).trans (w.setMv_mv awn)).symm
    | some q => simp only [Work.afterMotion, dwellAfter, hp rfl, hr, if_true, reduceCtorEq, if_false]; rfl
  · cases hd : r.dwellAfter
    · simp only [Work.afterMotion, dwellAfter, hm, hd, if_false, Bool.false_eq_true]; exact (w.setMv_mv m).symm
    · simp only [Work.afterMotion, dwellAfter, hm, hd, if_false, if_true]; rfl

/-- Settles O53: the three phases of a lone channel, and the end of a motion. -/
theorem motionPhasesEnd : Obligations.MotionPhasesEnd := by
  unfold Obligations.MotionPhasesEnd
  refine ⟨?_, ?_⟩
  · intro s c m mo ha h hm w x start ramp
    have hramp : ∀ now mo', mo'.dir = mo.dir → w.dutyLine m mo' = w.dutyLine m mo →
        ramped x mo' now (start (w.dutyLine m mo)) = ramp now mo' := fun now mo' hd hl => by
      rw [← hl]; rfl
    refine ⟨?_, ?_, ?_⟩
    · intro k t r hs hb now' st
      refine exec_of_event ha rfl ?_
      have hrep := lone_reportWritten (w := w.stored c t r) (m := m) (c := c) h hm hs
      rw [Work.checkpointWritten_of hb, hrep]
      rfl
    · intro t cl hs ht hc hk hl now'
      have hretry := lone_retryExpiry h hs ht
      have hd : ∀ d, cl.lease = some d → (w.notBefore t).aliveCause m = if now' < d then none else some .leaseExpired :=
        fun d hd => Work.aliveCause_of_link (w := w.notBefore t) hc hk hl hd
      refine ⟨fun ⟨d, hld, hlt⟩ => exec_of_event ha rfl ?_, fun ⟨d, hld, hle⟩ => exec_of_event ha rfl ?_⟩
      · rw [hretry, Work.endRetry_of_alive ((hd d hld).trans (if_pos hlt)),
          lone_enterRamp (w := w.notBefore t) (c := c) (p := fun x => x.state == .retryWait) h hm (beq_iff_eq.mpr hs), Channel.enterRamp_of (x := (w.notBefore t).ch c) hm]
        rfl
      · rw [hretry, Work.endRetry_of_dead ((hd d hld).trans (if_neg (Nat.not_lt_of_le hle)))]
        rfl
    · intro r t hs ht hr hl hk now' y r'
      refine exec_of_event ha rfl ?_
      have hnow : w.notBefore (mo.earliestEnd w.restWindow) = { w with now := now' } := by
        simp only [Work.notBefore, Motion.earliestEnd, ht, Option.getD_some]
        rfl
      rw [lone_stoppingEnd h hm hs, hnow]
      exact lone_endChan (w := { w with now := now' }) h hr hl hk mo
  · intro w m r cause f hf hp z
    obtain ⟨sa, sb, hx⟩ := claimEnded_form (w.mv m)
    generalize hu : ((w.setMv m (motionEnded (w.mv m))).emit (.motionEnded m cause f.1 f.2)).release (moverTarget m) = u
    have hmv : u.mv m = motionEnded (w.mv m) := by rw [← hu]; exact Work.mv_setMv_self _ _ _
    have hpend : m = awn → (u.mv m).pendRetract = none := fun h => by
      rw [hmv, motionEnded, hx]; exact hp h
    have hz : z = u.setMv m { u.mv m with dwellEnd := dwellAfter u m r } := by
      rw [← Work.afterMotion_eq hpend, ← hu]
      show w.closeMotion m r cause = _
      rw [Work.closeMotion_eq, hf]
      rfl
    have hzm : z.mv m = { u.mv m with dwellEnd := dwellAfter u m r } := by rw [hz, Work.mv_setMv_self]
    refine ⟨by rw [hz, ← hu]; rfl, by rw [hzm, hmv, motionEnded, hx], by rw [hzm, hmv]; rfl, by rw [hz, ← hu]; rfl,
      by rw [hz, ← hu]; rfl, by rw [hz, ← hu]; rfl, by rw [hz, ← hu]; rfl, ?_⟩
    have hnow : u.now = w.now := by rw [← hu]; rfl
    rw [hzm]
    show dwellAfter u m r = _
    rw [dwellAfter, hmv, hnow, motionEnded, hx]

end Sys2Proof.Machine
end

