-- ==== Sys2Proof/Proofs/PairedDuty.lean ====
section
/-! PROOF. The 10 ms update of a pair whose motors both drive (R7, R44, R45). -/

namespace Sys2Proof.Machine

set_option Elab.async false

open Sys2Proof.Safety

/-! ## A pair -/

section

variable {w : Work} {m : MoverId} {a b : ChanId} (h : Pair w m a b)
include h

theorem pair_chansOf : w.chansOf m = [a, b] := by
  obtain ⟨hl, hf, -⟩ := h
  simp only [Work.chansOf, Mover.chans, hl, hf]; rfl

theorem pair_leadOf {c : ChanId} (hc : c = a ∨ c = b) : w.leadOf c = a := by
  obtain ⟨hl, -, -, ha, hb⟩ := h
  rcases hc with rfl | rfl
  · simp only [Work.leadOf, ha, hl, Option.getD_some]
  · simp only [Work.leadOf, hb, hl, Option.getD_some]

theorem pair_motionField {c : ChanId} (hc : c = a ∨ c = b) (base : Nat) : w.motionField base c = w.profN (base + a.val) := by
  rw [Work.motionField, pair_leadOf h hc]

theorem pair_anyCh (p : Machine.Channel → Bool) : w.anyCh m p = (p (w.ch a) || p (w.ch b)) := by
  rw [Work.anyCh, pair_chansOf h, List.any_cons, List.any_cons, List.any_nil, Bool.or_false]

theorem pair_allCh (p : Machine.Channel → Bool) : w.allCh m p = (p (w.ch a) && p (w.ch b)) := by
  rw [Work.allCh, pair_chansOf h, List.all_cons, List.all_cons, List.all_nil, Bool.and_true]

theorem pair_paired : (w.mv m).paired = true := by
  obtain ⟨-, hf, -⟩ := h
  rw [Mover.paired, hf]; rfl

theorem pair_moverOf {c : ChanId} (hc : c = a ∨ c = b) : w.moverOf c = some m := by
  obtain ⟨-, -, -, ha, hb⟩ := h
  rcases hc with rfl | rfl
  · exact ha
  · exact hb

theorem pair_ne : b ≠ a := fun e => h.2.2.1 e.symm

theorem pair_setMv {x : Mover} (hl : x.leader = (w.mv m).leader) (hf : x.follower = (w.mv m).follower)
    (hp : x.present = (w.mv m).present) : Pair (w.setMv m x) m a b := by
  have hc : x.chans = (w.mv m).chans := by rw [Mover.chans, Mover.chans, hl, hf]
  obtain ⟨hlead, hfol, hne, ha, hb⟩ := h
  exact ⟨by rw [Work.mv_setMv_self, hl, hlead], by rw [Work.mv_setMv_self, hf, hfol], hne,
    (w.moverOf_setMv m hc hp a).trans ha, (w.moverOf_setMv m hc hp b).trans hb⟩

theorem pair_inSlowZone {c : ChanId} (hc : c = a ∨ c = b) (d : Dir) : w.inSlowZone c d = true ↔ match d with
    | .outward => (w.effStroke c : Int) - (w.profN (0x0228 + a.val) : Int) ≤ (w.ch c).pos
    | .inward => (w.ch c).pos ≤ (w.profN (0x0228 + a.val) : Int) := by
  cases d <;> simp only [Work.inSlowZone, pair_motionField h hc, decide_eq_true_eq]

end

/-! ## The target line -/

/-- A motor of the pair nears its end, or has no learned stroke to know it by. -/
def PairNears (w : Work) (a b : ChanId) (mo : Motion) : Prop :=
  mo.profile = .learn ∨ w.learned a = none ∨ w.learned b = none ∨ w.inSlowZone a mo.dir = true ∨ w.inSlowZone b mo.dir = true

theorem pair_dutyLine {w : Work} {m : MoverId} {a b : ChanId} (h : Pair w m a b) (hs : (w.mv m).seatedOnce = false)
    {mo : Motion} (ha : (w.ch a).known = true) (hb : (w.ch b).known = true) (hh : mo.profile ≠ .homing) :
    (PairNears w a b mo → w.dutyLine m mo = .approach) ∧ (¬ PairNears w a b mo → w.dutyLine m mo = .run) := by
  have hno : (!w.known m || mo.profile == .homing) = false := by simp [Work.known, pair_allCh h, ha, hb, hh]
  have hline : w.dutyLine m mo =
      if mo.profile == .learn || ((w.learned a).isNone || w.inSlowZone a mo.dir || ((w.learned b).isNone || w.inSlowZone b mo.dir))
        then .approach else .run := by
    simp only [Work.dutyLine, Mover.firstSeat_of_not_seatedOnce hs, hno, Bool.false_eq_true, if_false, pair_chansOf h,
      List.any_cons, List.any_nil, Bool.or_false]
  have hcond : (mo.profile == .learn || ((w.learned a).isNone || w.inSlowZone a mo.dir ||
      ((w.learned b).isNone || w.inSlowZone b mo.dir))) = true ↔ PairNears w a b mo := by
    simp only [PairNears, Bool.or_eq_true, beq_iff_eq, Option.isNone_iff_eq_none]
    tauto
  exact ⟨fun hn => hline.trans (if_pos (hcond.mpr hn)), fun hn => hline.trans (if_neg (mt hcond.mp hn))⟩

/-! ## The plan and the update -/

theorem pair_dutyPlan {w : Work} {m : MoverId} {a b : ChanId} (h : Pair w m a b) {mo : Motion}
    (hda : (w.ch a).driving = true) (hdb : (w.ch b).driving = true) (ha : (w.ch a).known = true) (hb : (w.ch b).known = true)
    (hh : mo.profile ≠ .homing) {t : Sync × Nat × Nat}
    (ht : trimPair mo.dir (w.dutyOf a (w.dutyLine m mo)) (w.profN (0x0258 + m.val)) (w.profN (0x025C + m.val))
      (w.profN (0x0264 + m.val)) ((w.ch a).pos - (w.ch b).pos) = t) :
    w.dutyPlan m mo = { line := w.dutyLine m mo, sync := t.1, leader := t.2.1, follower := t.2.2 } := by
  have hcond : ((w.ch a).driving && (w.ch b).driving && w.known m && mo.profile != .homing) = true := by
    simp [hda, hdb, Work.known, pair_allCh h, ha, hb, hh]
  obtain ⟨hl, hf, -⟩ := h
  simp only [Work.dutyPlan, hl, hf, hcond, if_true, ht]

theorem pair_updateMover {w : Work} {m : MoverId} {a b : ChanId} (h : Pair w m a b) {mo : Motion} {p : DutyPlan}
    (hp : w.dutyPlan m mo = p) : w.updateMover m mo =
      ((w.withSync m p.sync).setCh a ((w.ch a).update p.line p.leader w.now (1000 * w.profN (0x0208 + a.val)))).setCh b
        ((w.ch b).update p.line p.follower w.now (1000 * w.profN (0x0208 + a.val))) := by
  have hc : (w.mv m).chans = [a, b] := pair_chansOf h
  have hl : (w.mv m).leader = some a := h.1
  have hne : ¬ some a = some b := fun e => pair_ne h (Option.some.inj e).symm
  have hpair : Pair (w.withSync m p.sync) m a b := pair_setMv h rfl rfl rfl
  have hfold : w.updateMover m mo = (w.mv m).chans.foldl (fun u c => u.setCh c ((u.ch c).update p.line
      (if (w.mv m).leader = some c then p.leader else p.follower) u.now (Config.ms (u.motionField 0x0208 c))))
      (w.withSync m p.sync) := by rw [← hp]; rfl
  have hch : ∀ d, (w.withSync m p.sync).ch d = w.ch d := fun _ => rfl
  have hnow : (w.withSync m p.sync).now = w.now := rfl
  have hprof : ∀ i, (w.withSync m p.sync).profN i = w.profN i := fun _ => rfl
  rw [hfold, hc, hl]
  generalize w.withSync m p.sync = z at *
  have hb : ∀ x, (z.setCh a x).ch b = z.ch b := fun x => Work.ch_setCh_ne z a b x (pair_ne h)
  have hfirst : ∀ x, (z.setCh a x).now = z.now := fun _ => rfl
  simp only [List.foldl_cons, List.foldl_nil, if_true, if_neg hne, hb, hfirst, Work.setCh_motionField,
    pair_motionField hpair (.inl rfl), pair_motionField hpair (.inr rfl), hch, hnow, hprof]
  rfl

theorem pair_dutyUpdate {w : Work} {m : MoverId} {a b c : ChanId} (h : Pair w m a b) (hc : c = a ∨ c = b) {mo : Motion}
    {t0 : Time} (hmo : (w.ch a).motion = some mo) (hd : (w.ch a).driving = true) (ht : (w.ch a).dutyAt = some t0) :
    w.dutyUpdate c = Work.updateMover (({ w with now := max w.now (t0 + 10000) } : Work).setCh a
      { w.ch a with dutyAt := some (max w.now (t0 + 10000)) }) m mo := by
  have hdue : w.updateDue c = t0 + 10000 := by
    simp only [Work.updateDue, pair_leadOf h hc, ht]; rfl
  have hlead : ({ w with now := max w.now (t0 + 10000) } : Work).leadOf c = a := pair_leadOf h hc
  have hmot : w.motionOf m = some mo := by
    rw [Work.motionOf, pair_chansOf h, List.findSome?_cons, hmo]
  have hany : w.anyCh m Channel.driving = true := by rw [pair_anyCh h, hd]; rfl
  simp only [Work.dutyUpdate, pair_moverOf h hc, hmot, hany, if_true, hdue, Work.markUpdate, Work.notBefore, hlead]
  rfl

/-- Settles O51: one line for both, the trim by the racking error, the steps of R9. -/
theorem pairedDutyIsTrimmed : Obligations.PairedDutyIsTrimmed := by
  unfold Obligations.PairedDutyIsTrimmed
  intro s m a b c ma mb t0 hawake h hc hma hmb hda hdb hra hrb hka hkb hhom ht hs w x y now' zone slow approach err ahead band
    target phase happ hrun cut follow gives
  have hslow : ∀ d, (d = a ∨ d = b) → (w.inSlowZone d ma.dir = true ↔ slow d) := fun d hd => pair_inSlowZone h hd ma.dir
  have hnears : PairNears w a b ma ↔ approach :=
    or_congr_right (or_congr_right (or_congr_right (or_congr (hslow a (.inl rfl)) (hslow b (.inr rfl)))))
  obtain ⟨hap, hru⟩ := pair_dutyLine h hs hka hkb hhom
  have hline : ∃ l, w.dutyLine m ma = l ∧ w.dutyOf a l = target ∧ l.phase = phase := by
    by_cases hn : approach
    · obtain ⟨ht, hp⟩ := happ hn
      exact ⟨.approach, hap (hnears.mpr hn), (pair_motionField h (.inl rfl) _).trans ht.symm, hp.symm⟩
    · obtain ⟨ht, hp⟩ := hrun hn
      exact ⟨.run, hru (mt hnears.mp hn), (pair_motionField h (.inl rfl) _).trans ht.symm, hp.symm⟩
  obtain ⟨l, hl, htarget, hphase⟩ := hline
  let xa : Machine.Channel := { x with dutyAt := some now' }
  generalize hu : ({ w with now := now' } : Work).setCh a xa = u
  have hua : u.ch a = xa := by rw [← hu, Work.ch_setCh_self]
  have hub : u.ch b = y := by rw [← hu, Work.ch_setCh_ne _ a b xa (pair_ne h)]; rfl
  have hline : u.dutyLine m ma = l := by rw [← hu]; exact (w.dutyLine_setCh now' a (y := xa) rfl rfl m ma).trans hl
  have hupair : Pair u m a b := by rw [← hu]; exact h
  have hunow : u.now = now' := by rw [← hu]; rfl
  have hprof : ∀ i, u.profN i = w.profN i := fun i => by rw [← hu]; rfl
  have hduty : u.dutyOf a l = target := by rw [← hu]; exact htarget
  have hupd : w.dutyUpdate c = u.updateMover m ma := by rw [← hu]; exact pair_dutyUpdate h hc hma hda ht
  have hstepa : ∀ n total, (u.ch a).update l n u.now total = { xa with duty := stepDuty x.duty n, motion := some { ma with phase := phase } } :=
    fun n total => by rw [hua, Channel.update_of_steps (x := xa) hma hda hra, hphase]
  have hstepb : ∀ n total, (u.ch b).update l n u.now total = { y with duty := stepDuty y.duty n, motion := some { mb with phase := phase } } :=
    fun n total => by rw [hub, Channel.update_of_steps hmb hdb hrb, hphase]
  have hgives : ∀ sync ga gb, trimPair ma.dir target band (w.profN (0x025C + m.val)) (w.profN (0x0264 + m.val)) err = (sync, ga, gb) →
      gives sync ga gb := by
    intro sync ga gb hp
    let z : Work := { w with now := now', movers := w.movers.set m { w.mv m with sync := sync } }
    refine exec_of_event hawake rfl ?_
    have hplan := pair_dutyPlan hupair (mo := ma) (t := (sync, ga, gb)) (by rw [hua]; exact hda) (by rw [hub]; exact hdb) (by rw [hua]; exact hka)
      (by rw [hub]; exact hkb) hhom (by rw [hline, hduty, hprof, hprof, hprof, hua, hub]; exact hp)
    rw [hupd, pair_updateMover hupair hplan, hline]
    dsimp only
    rw [hstepa, hstepb, ← hu]
    show ((z.setCh a xa).setCh a _).setCh b _ = _
    rw [Work.setCh_setCh]
    rfl
  have htrim : ∀ err : Int, leaderAhead ma.dir err = true ↔ (match ma.dir with | .outward => 0 < err | .inward => err < 0) := by
    intro err
    cases ma.dir <;> simp [leaderAhead]
  refine ⟨fun hle => hgives _ _ _ ?_, fun hlt hah => hgives _ _ _ ?_, fun hlt hah => hgives _ _ _ ?_⟩
  · rw [trimPair, if_pos hle]
  · rw [trimPair, if_neg (Nat.not_le_of_lt hlt), if_pos ((htrim err).mpr hah)]; rfl
  · rw [trimPair, if_neg (Nat.not_le_of_lt hlt), if_neg (mt (htrim err).mp hah)]; rfl

end Sys2Proof.Machine
end

