-- ==== Sys2Proof/Proofs/Locks.lean ====
section
/-! PROOF. What a lock does to the channels of a mover and to the mover itself, one policy after another (R20, R21, R24, R28,
R48, R51). -/

namespace Sys2Proof.Machine

set_option Elab.async false

open Sys2Proof.Safety

/-! ## One step at each channel of a mover -/

/-- A fold that does one thing to each channel of a list. -/
theorem foldl_eachCh {f : Work → ChanId → Work} {g : ChanId → Machine.Channel → Machine.Channel} {w : Work}
    (hf : ∀ (v : Vector Machine.Channel 8) (c : ChanId), f { w with chans := v } c =
      ({ w with chans := v } : Work).setCh c (g c (({ w with chans := v } : Work).ch c))) {l : List ChanId} (hl : l.Nodup) :
    ∃ v, l.foldl f w = { w with chans := v } ∧
      ∀ e, ({ w with chans := v } : Work).ch e = if e ∈ l then g e (w.ch e) else w.ch e := by
  induction l generalizing w with
  | nil => exact ⟨w.chans, rfl, fun e => (if_neg List.not_mem_nil).symm⟩
  | cons a l ih =>
    obtain ⟨ha, hl⟩ := List.nodup_cons.mp hl
    have hstep : f w a = w.setCh a (g a (w.ch a)) := hf w.chans a
    obtain ⟨v, hv, hch⟩ := ih (w := w.setCh a (g a (w.ch a))) (fun v c => hf v c) hl
    refine ⟨v, by rw [List.foldl_cons, hstep]; exact hv, fun e => (hch e).trans ?_⟩
    by_cases he : e = a
    · subst he; rw [if_neg ha, if_pos List.mem_cons_self, Work.ch_setCh_self]
    · have hmem : e ∈ a :: l ↔ e ∈ l := by simp [he]
      simp only [hmem, Work.ch_setCh_ne w a e _ he]

theorem Work.setCh_ch (w : Work) (c : ChanId) : w.setCh c (w.ch c) = w := by
  simp [Work.setCh, Work.ch]

/-- The leader of a channel is read from the room table alone. -/
theorem Work.leadOf_setMv (w : Work) (m : MoverId) {x : Mover} (hc : x.chans = (w.mv m).chans)
    (hp : x.present = (w.mv m).present) (hl : x.leader = (w.mv m).leader) (c : ChanId) : (w.setMv m x).leadOf c = w.leadOf c := by
  simp only [Work.leadOf, w.moverOf_setMv m hc hp]
  split
  · next n _ =>
    by_cases hn : n = m
    · subst hn; rw [Work.mv_setMv_self, hl]
    · rw [Work.mv_setMv_ne _ _ _ _ hn]
  · rfl

/-- One policy's result: the channels as given, one mover record, some events. -/
structure LockEnd (u z : Work) (m : MoverId) (x : Mover) (es : List Event) (g : ChanId → Machine.Channel) : Prop where
  form : ∃ v, z = { u with chans := v, movers := u.movers.set m x, events := u.events ++ es }
  ch : ∀ e, z.ch e = g e

section

variable {u z : Work} {m : MoverId} {x : Mover} {es : List Event} {g : ChanId → Machine.Channel} (h : LockEnd u z m x es g)
include h

theorem LockEnd.mv : z.mv m = x := by
  obtain ⟨v, rfl⟩ := h.form
  exact Work.mv_setMv_self u m x

theorem LockEnd.events : z.events = u.events ++ es := by
  obtain ⟨v, rfl⟩ := h.form; rfl

theorem LockEnd.bud : z.bud = u.bud := by
  obtain ⟨v, rfl⟩ := h.form; rfl

theorem LockEnd.now : z.now = u.now := by
  obtain ⟨v, rfl⟩ := h.form; rfl

theorem LockEnd.retryWait (c : ChanId) : z.retryWait c = u.retryWait c := by
  obtain ⟨v, rfl⟩ := h.form; rfl

theorem LockEnd.moverOf (hc : x.chans = (u.mv m).chans) (hp : x.present = (u.mv m).present) (c : ChanId) :
    z.moverOf c = u.moverOf c := by
  obtain ⟨v, rfl⟩ := h.form
  exact u.moverOf_setMv m hc hp c

end

theorem LockEnd.dutyOf_homing {u z : Work} {m : MoverId} {x : Mover} {es : List Event} {g : ChanId → Machine.Channel}
    (h : LockEnd u z m x es g) (hc : x.chans = (u.mv m).chans) (hp : x.present = (u.mv m).present)
    (hl : x.leader = (u.mv m).leader) (e : ChanId) : z.dutyOf e .homing = u.dutyOf e .homing := by
  obtain ⟨v, rfl⟩ := h.form
  exact congrArg (fun d : ChanId => u.profN (0x0220 + d.val)) (u.leadOf_setMv m hc hp hl e)

/-! ## The record of a lock -/

/-- The lock at the coordinator of a pair (R28). -/
def lockHeld (x : Mover) (c : ChanId) (a : Policy) (now : Time) : Mover :=
  match x.run with
  | some r => if x.paired then { x with run := some { r with lock := some (c, a, now) } } else x
  | none => x

theorem Work.receiveLock_eq (w : Work) (m : MoverId) (c : ChanId) (a : Policy) :
    w.receiveLock m c a = w.setMv m (lockHeld (w.mv m) c a w.now) := by
  cases hr : (w.mv m).run with
  | none => simp only [Work.receiveLock, lockHeld, hr, Work.setMv_mv]
  | some r => cases hp : (w.mv m).paired <;> simp only [Work.receiveLock, lockHeld, hr, hp, if_true, Bool.false_eq_true, if_false, Work.setMv_mv]

theorem lockHeld_form (x : Mover) (c : ChanId) (a : Policy) (now : Time) : ∃ r, lockHeld x c a now = { x with run := r } := by
  simp only [lockHeld]
  repeat' split
  · exact ⟨_, rfl⟩
  · exact ⟨x.run, rfl⟩
  · exact ⟨x.run, rfl⟩

/-- The channel with its last lock. -/
def lockNoted (w : Work) (c : ChanId) (k : LockKind) (a : Policy) (e : ChanId) : Machine.Channel :=
  if e = c then { w.ch c with lastLock := some (k, a) } else w.ch e

theorem Work.lockedNoted_form (w : Work) (m : MoverId) (c : ChanId) (k : LockKind) (a : Policy) (r : Nat) :
    LockEnd w ((w.receiveLock m c a).noteLock c k a r) m (lockHeld (w.mv m) c a w.now) [.lock c k a r] (lockNoted w c k a) := by
  rw [Work.receiveLock_eq]
  refine ⟨⟨_, rfl⟩, fun e => ?_⟩
  by_cases he : e = c
  · subst he
    rw [lockNoted, if_pos rfl]
    exact Work.ch_setCh_self _ _ _
  · rw [lockNoted, if_neg he]
    exact Work.ch_setCh_ne _ _ _ _ he

/-! ## The latch -/

/-- The channel a latch has reached (R20, R48). -/
def latched (k : LockKind) (coast : Bool) (now : Time) (x : Machine.Channel) : Machine.Channel :=
  if x.driving then { x.stopWith .fault coast now with fault := some k } else x

theorem Work.latchChan_eq (w : Work) (k : LockKind) (coast : Bool) (c : ChanId) :
    w.latchChan k coast c = w.setCh c (latched k coast w.now (w.ch c)) := by
  simp only [Work.latchChan, latched]
  split
  · rfl
  · exact (w.setCh_ch c).symm

theorem Work.latchMover_form {w : Work} {m : MoverId} (hl : (w.mv m).learn = none) (hn : (w.chansOf m).Nodup) (k : LockKind)
    (coast : Bool) : LockEnd w (w.latchMover m k coast) m (causeNoted (claimEnded (w.mv m)) .fault) []
      fun e => if e ∈ w.chansOf m then latched k coast w.now (w.ch e) else w.ch e := by
  have htold : (w.endWork m).noteCause m .fault = w.told m .fault := by
    rw [Work.endWork, Work.abortLearn_of_none hl, Work.told_eq (by decide)]
  obtain ⟨v, hv, hch⟩ := foldl_eachCh (f := (Work.latchChan · k coast)) (g := fun _ => latched k coast w.now) (w := w.told m .fault)
    (fun v c => Work.latchChan_eq _ k coast c) hn
  have hz : w.latchMover m k coast = { w.told m .fault with chans := v } := by
    rw [Work.latchMover, htold]; exact hv
  rw [hz]
  exact ⟨⟨v, by rw [List.append_nil]; rfl⟩, fun e => hch e⟩

/-! ## The retry -/

theorem Work.retryMover_form {w : Work} {m : MoverId} (hl : (w.mv m).learn = none) (hn : (w.chansOf m).Nodup) (c : ChanId) :
    LockEnd w (w.retryMover m c) m (w.mv m) [] fun e =>
      if e ∈ w.chansOf m then (w.ch e).suspend ((w.ch c).retry + 1) (w.now + w.retryWait c) else w.ch e := by
  obtain ⟨v, hv, hch⟩ := foldl_eachCh (w := w)
    (f := fun w' d => w'.setCh d ((w'.ch d).suspend ((w.ch c).retry + 1) (w.now + w.retryWait c)))
    (g := fun _ x => x.suspend ((w.ch c).retry + 1) (w.now + w.retryWait c)) (fun v c => rfl) hn
  have hz : w.retryMover m c = { w with chans := v } := by
    rw [Work.retryMover, Work.abortLearn_of_none hl]; exact hv
  rw [hz]
  exact ⟨⟨v, by rw [List.append_nil]; exact congrArg (fun y : Work => { y with chans := v }) (w.setMv_mv m).symm⟩, hch⟩

/-! ## A homing motion -/

/-- The mover whose motion turns homing (R51). -/
def homingMover (x : Mover) : Mover := if x.paired then { x with sync := .homing } else x

theorem Work.makeHoming_form {w : Work} {m : MoverId} (hn : (w.chansOf m).Nodup) :
    LockEnd w (w.makeHoming m) m (homingMover (w.mv m)) [] fun e =>
      if e ∈ w.chansOf m then (w.ch e).toHoming else w.ch e := by
  have hset : (if (w.mv m).paired = true then w.setMv m { w.mv m with sync := .homing } else w) =
      w.setMv m (homingMover (w.mv m)) := by
    simp only [homingMover]
    split
    · rfl
    · exact (w.setMv_mv m).symm
  have hch : (w.setMv m (homingMover (w.mv m))).chansOf m = w.chansOf m :=
    w.chansOf_setMv m m (by simp only [homingMover]; split <;> rfl)
  obtain ⟨v, hv, hg⟩ := foldl_eachCh (w := w.setMv m (homingMover (w.mv m))) (f := fun w c => w.setCh c (w.ch c).toHoming)
    (g := fun _ => Channel.toHoming) (fun v c => rfl) hn
  have hz : w.makeHoming m = { w.setMv m (homingMover (w.mv m)) with chans := v } := by
    simp only [Work.makeHoming, hset, hch]; exact hv
  rw [hz]
  exact ⟨⟨v, by rw [List.append_nil]; rfl⟩, hg⟩

theorem homingMover_chans (x : Mover) : (homingMover x).chans = x.chans := by
  simp only [homingMover]; split <;> rfl

theorem homingMover_present (x : Mover) : (homingMover x).present = x.present := by
  simp only [homingMover]; split <;> rfl

theorem homingMover_leader (x : Mover) : (homingMover x).leader = x.leader := by
  simp only [homingMover]; split <;> rfl

/-- The duty of a mover that drives on homing is cut at once (R9, R51). -/
theorem Work.turnHoming_form {w : Work} {m : MoverId} (hn : (w.chansOf m).Nodup) :
    LockEnd w (w.turnHoming m) m (homingMover (w.mv m)) [] fun e =>
      if e ∈ w.chansOf m then (w.ch e).toHoming.cutDuty (w.dutyOf e .homing) else w.ch e := by
  have hh := w.makeHoming_form hn
  obtain ⟨v, hv⟩ := hh.form
  have hchans : (w.makeHoming m).chansOf m = w.chansOf m := by
    rw [Work.chansOf, hh.mv]; exact homingMover_chans _
  have hduty : ∀ (v' : Vector Machine.Channel 8) e, ({ w.makeHoming m with chans := v' } : Work).dutyOf e .homing = w.dutyOf e .homing :=
    fun _ e => hh.dutyOf_homing (homingMover_chans _) (homingMover_present _) (homingMover_leader _) e
  obtain ⟨v', hv', hg⟩ := foldl_eachCh (w := w.makeHoming m) (f := fun w c => w.setCh c ((w.ch c).cutDuty (w.dutyOf c .homing)))
    (g := fun e x => x.cutDuty (w.dutyOf e .homing)) (fun v' c => by rw [hduty]) (hchans ▸ hn)
  have hz : w.turnHoming m = { w.makeHoming m with chans := v' } := by
    simp only [Work.turnHoming]; exact hv'
  rw [hz]
  refine ⟨⟨v', by rw [hv]⟩, fun e => (hg e).trans ?_⟩
  rw [hchans, hh.ch]
  split <;> rfl

/-! ## A stop of channels that all are past STARTING -/

theorem Work.stopMover_form {w : Work} {m : MoverId} {cause : Cause} (hl : (w.mv m).learn = none) (hc : cause ≠ .seated)
    (hn : (w.chansOf m).Nodup) (hs : ∀ e ∈ w.chansOf m, (w.ch e).starting = false)
    {c : ChanId} (hcm : c ∈ w.chansOf m) (hst : (w.ch c).stoppable = true) :
    LockEnd w (w.stopMover m cause) m (causeNoted (claimEnded (w.mv m)) cause) [] fun e =>
      if e ∈ w.chansOf m then (w.ch e).stopWith cause false w.now else w.ch e := by
  obtain ⟨⟨v, hv⟩, hin, hout⟩ := stopChans_eq (cause := cause) hn (w := w.told m cause) hs
  have hany : w.anyCh m Channel.stoppable = true := List.any_eq_true.mpr ⟨c, hcm, hst⟩
  have hrest : ((w.chansOf m).foldl (Work.stopChan · cause) (w.told m cause)).atRest m = false := by
    obtain ⟨mo, -, hstop⟩ := Channel.stopWith_of_stoppable hst cause w.now
    have hch : (((w.chansOf m).foldl (Work.stopChan · cause) (w.told m cause)).ch c).motion.isSome = true := by
      rw [hin c hcm]
      show ((w.ch c).stopWith cause false w.now).motion.isSome = true
      rw [hstop]; rfl
    have hchans : ((w.chansOf m).foldl (Work.stopChan · cause) (w.told m cause)).chansOf m = w.chansOf m := by
      rw [hv]; exact w.told_chansOf m cause
    have hsome : ((w.chansOf m).foldl (Work.stopChan · cause) (w.told m cause)).anyCh m (·.motion.isSome) = true :=
      List.any_eq_true.mpr ⟨c, by rw [hchans]; exact hcm, hch⟩
    rw [Work.atRest, hsome]; rfl
  have hz : w.stopMover m cause = { w.told m cause with chans := v } := by
    rw [Work.stopMover_of_stoppable hl hc hany, Work.endIfAtRest, hrest, if_neg Bool.false_ne_true, hv]
  rw [hv] at hin hout
  rw [hz]
  refine ⟨⟨v, by rw [List.append_nil]; rfl⟩, fun e => ?_⟩
  split
  · next he => exact hin e he
  · next he => exact hout e he

theorem LockEnd.trans {u z y : Work} {m : MoverId} {x x' : Mover} {es es' : List Event} {g g' : ChanId → Machine.Channel}
    (h₁ : LockEnd u z m x es g) (h₂ : LockEnd z y m x' es' g') : LockEnd u y m x' (es ++ es') g' := by
  refine ⟨?_, h₂.ch⟩
  obtain ⟨v₁, rfl⟩ := h₁.form
  obtain ⟨v₂, rfl⟩ := h₂.form
  refine ⟨v₂, ?_⟩
  have hset : (u.movers.set m x).set m x' = u.movers.set m x' := by simp
  rw [← List.append_assoc]
  show ({ u with chans := v₂, movers := (u.movers.set m x).set m x', events := (u.events ++ es) ++ es' } : Work) = _
  rw [hset]

theorem LockEnd.chansOf {u z : Work} {m : MoverId} {x : Mover} {es : List Event} {g : ChanId → Machine.Channel}
    (h : LockEnd u z m x es g) (hc : x.chans = (u.mv m).chans) : z.chansOf m = u.chansOf m := by
  rw [Work.chansOf, h.mv]; exact hc

/-! ## The loss of a position -/

/-- The work with the position lost that the kind of a lock takes (R20). -/
def Work.lossOf (w : Work) (c : ChanId) (k : LockKind) : Work := if k.lossy then w.losePosition c else w

/-- The channel with its position lost. -/
def unplaced (x : Machine.Channel) : Machine.Channel := { x with known := false, seat := .between }

theorem Work.lossOf_of_kept {w : Work} {c : ChanId} {k : LockKind} (h : k.lossy = false) : w.lossOf c k = w := by
  rw [Work.lossOf, if_neg (Bool.eq_false_iff.mp h)]

theorem Work.lossOf_form (w : Work) (c : ChanId) (k : LockKind) : ∃ (v : Vector Machine.Channel 8) (st : Store),
    w.lossOf c k = { w with chans := v, store := st } ∧ st.working = w.store.working := by
  cases h : k.lossy
  · exact ⟨w.chans, w.store, Work.lossOf_of_kept h, rfl⟩
  · obtain ⟨st, hst, -, hw⟩ := (w.setCh c (unplaced (w.ch c))).askCheckpoint_frame c false
    refine ⟨(w.setCh c (unplaced (w.ch c))).chans, st, ?_, hw⟩
    rw [Work.lossOf, h]
    exact hst

theorem Work.lossOf_ch (w : Work) (c : ChanId) (k : LockKind) (e : ChanId) :
    (w.lossOf c k).ch e = if k.lossy = true ∧ e = c then unplaced (w.ch c) else w.ch e := by
  cases h : k.lossy
  · rw [Work.lossOf_of_kept h]; exact (if_neg fun hh => Bool.false_ne_true hh.1).symm
  · have he : w.lossOf c k = (w.setCh c (unplaced (w.ch c))).askCheckpoint c false := by
      rw [Work.lossOf, h]; rfl
    rw [he, Work.askCheckpoint_ch]
    by_cases hc : e = c
    · subst hc; rw [Work.ch_setCh_self, if_pos ⟨rfl, rfl⟩]
    · rw [Work.ch_setCh_ne _ _ _ _ hc, if_neg fun hh => hc hh.2]

section

variable (w : Work) (c : ChanId) (k : LockKind)

theorem Work.lossOf_mv (m : MoverId) : (w.lossOf c k).mv m = w.mv m := by
  obtain ⟨v, st, h, -⟩ := w.lossOf_form c k; rw [h]; rfl

theorem Work.lossOf_chansOf (m : MoverId) : (w.lossOf c k).chansOf m = w.chansOf m := by
  simp only [Work.chansOf, Work.lossOf_mv]

theorem Work.lossOf_events : (w.lossOf c k).events = w.events := by
  obtain ⟨v, st, h, -⟩ := w.lossOf_form c k; rw [h]

theorem Work.lossOf_bud : (w.lossOf c k).bud = w.bud := by
  obtain ⟨v, st, h, -⟩ := w.lossOf_form c k; rw [h]

theorem Work.lossOf_now : (w.lossOf c k).now = w.now := by
  obtain ⟨v, st, h, -⟩ := w.lossOf_form c k; rw [h]

theorem Work.lossOf_moverOf (d : ChanId) : (w.lossOf c k).moverOf d = w.moverOf d := by
  obtain ⟨v, st, h, -⟩ := w.lossOf_form c k; rw [h]; rfl

theorem Work.lossOf_profN (i : Nat) : (w.lossOf c k).profN i = w.profN i := by
  obtain ⟨v, st, h, hw⟩ := w.lossOf_form c k
  rw [h]; simp only [Work.profN, Work.prof, hw]

theorem Work.lossOf_policyOf (d : ChanId) (k' : LockKind) : (w.lossOf c k).policyOf d k' = w.policyOf d k' := by
  obtain ⟨v, st, h, hw⟩ := w.lossOf_form c k
  rw [h]; simp only [Work.policyOf, Work.prof, hw]

theorem Work.lossOf_dutyOf (d : ChanId) (l : DutyLine) : (w.lossOf c k).dutyOf d l = w.dutyOf d l := by
  obtain ⟨v, st, h, hw⟩ := w.lossOf_form c k
  have hlead : ({ w with chans := v, store := st } : Work).leadOf d = w.leadOf d := rfl
  rw [h]
  cases l <;> simp only [Work.dutyOf, Work.motionField, Work.profN, Work.prof, hw, hlead]

end

end Sys2Proof.Machine
end

