-- ==== Sys2Proof/Proofs/LockPolicies.lean ====
section
/-! PROOF. A lock by its policy, at a mover with one channel or two (R20, R21, R28, R48, R51). -/

namespace Sys2Proof.Machine

set_option Elab.async false

open Sys2Proof.Safety

/-! ## The channel between the parts of a lock -/

/-- What a lock leaves of a channel as far as stops and retries look at it. -/
structure SameMotion (x y : Machine.Channel) : Prop where
  motion : y.motion = x.motion
  state : y.state = x.state

theorem SameMotion.driving {x y : Machine.Channel} (h : SameMotion x y) : y.driving = x.driving := by
  simp only [Channel.driving, h.motion, h.state]

theorem SameMotion.starting {x y : Machine.Channel} (h : SameMotion x y) : y.starting = x.starting := by
  simp only [Channel.starting, h.motion, h.state]

theorem SameMotion.trans {x y z : Machine.Channel} (h₁ : SameMotion x y) (h₂ : SameMotion y z) : SameMotion x z :=
  ⟨h₂.motion.trans h₁.motion, h₂.state.trans h₁.state⟩

theorem Channel.not_starting_of_driving {x : Machine.Channel} (hd : x.driving = true) : x.starting = false := by
  simp only [Channel.driving, Channel.starting] at *
  split at hd
  · next mo _ => cases hp : mo.phase <;> simp_all [Phase.drives]
  · cases hd

theorem Channel.stoppable_of_driving {x : Machine.Channel} (hd : x.driving = true) : x.stoppable = true := by
  have hs := Channel.not_stopping_of_driving hd
  simp only [Channel.driving] at hd
  split at hd
  · next mo hm => simp [Channel.stoppable, hm, hs]
  · cases hd

theorem sameMotion_lossOf (w : Work) (c : ChanId) (k : LockKind) (e : ChanId) : SameMotion (w.ch e) ((w.lossOf c k).ch e) := by
  rw [Work.lossOf_ch]
  split
  · next h => obtain ⟨-, rfl⟩ := h; exact ⟨rfl, rfl⟩
  · exact ⟨rfl, rfl⟩

theorem sameMotion_lockNoted (w : Work) (c : ChanId) (k : LockKind) (a : Policy) (e : ChanId) :
    SameMotion (w.ch e) (lockNoted w c k a e) := by
  simp only [lockNoted]
  split
  · next h => subst h; exact ⟨rfl, rfl⟩
  · exact ⟨rfl, rfl⟩

/-! ## The lock of a channel that drives -/

/-- A channel of a mover drives: what the locks below have in common. -/
structure Raising (w : Work) (m : MoverId) (c : ChanId) (mo : Motion) : Prop where
  mover : w.moverOf c = some m
  motion : (w.ch c).motion = some mo
  driving : (w.ch c).driving = true
  nodup : (w.chansOf m).Nodup
  mem : c ∈ w.chansOf m

/-- It drives without a learning run. -/
structure Locking (w : Work) (m : MoverId) (c : ChanId) (mo : Motion) : Prop extends Raising w m c mo where
  learn : (w.mv m).learn = none

/-- A channel that drives is not halted (R28). -/
theorem Work.partnerLock_of_driving {w : Work} {c : ChanId} (hd : (w.ch c).driving = true) : w.partnerLock c = none := by
  have hh : (w.ch c).haltedAt w.now = false := by
    have hs := Channel.not_stopping_of_driving hd
    simp only [Channel.driving] at hd
    split at hd
    · next mo hm =>
      simp only [Bool.and_eq_true, beq_iff_eq] at hd
      simp [Channel.haltedAt, hm, hs, hd.1]
    · cases hd
  simp only [Work.partnerLock, hh, Bool.and_false, Bool.false_eq_true, if_false]
  repeat' split
  all_goals rfl

theorem Work.raiseLock_of_driving {w : Work} {m : MoverId} {c : ChanId} {mo : Motion} (hm : w.moverOf c = some m)
    (hmo : (w.ch c).motion = some mo) (hd : (w.ch c).driving = true) (k : LockKind) :
    w.raiseLock c k = w.actOnLock m c k mo.dir := by
  simp only [Work.raiseLock, hm, hmo, Work.partnerLock_of_driving hd]

/-- A work whose mover turns homing, or not. -/
def Work.homedIf (w : Work) (m : MoverId) (b : Bool) : Work := if b then w.makeHoming m else w

theorem LockEnd.refl (u : Work) (m : MoverId) : LockEnd u u m (u.mv m) [] u.ch :=
  ⟨⟨u.chans, by rw [List.append_nil]; exact (u.setMv_mv m).symm⟩, fun _ => rfl⟩

/-- A channel written and an event raised. -/
theorem LockEnd.note (u : Work) (m : MoverId) (c : ChanId) (x : Machine.Channel) (ev : Event) :
    LockEnd u ((u.setCh c x).emit ev) m (u.mv m) [ev] fun e => if e = c then x else u.ch e := by
  refine ⟨⟨u.chans.set c x, congrArg (fun y : Work => { y with chans := u.chans.set c x, events := u.events ++ [ev] })
    (u.setMv_mv m).symm⟩, fun e => ?_⟩
  split
  · next he => subst he; exact Work.ch_setCh_self u e x
  · next he => exact Work.ch_setCh_ne u c e x he

theorem Work.homedIf_form {w : Work} {m : MoverId} (b : Bool) (hn : (w.chansOf m).Nodup) :
    LockEnd w (w.homedIf m b) m (if b then homingMover (w.mv m) else w.mv m) [] fun e =>
      if b = true ∧ e ∈ w.chansOf m then (w.ch e).toHoming else w.ch e := by
  cases b
  · exact ⟨(LockEnd.refl w m).form, fun e => (if_neg fun h => Bool.false_ne_true h.1).symm⟩
  · exact ⟨(w.makeHoming_form hn).form, fun e => ((w.makeHoming_form hn).ch e).trans (by simp only [true_and])⟩

/-- A lock latches: by its own policy, or at the end of its retries (R20, R24). -/
inductive Latches (w : Work) (c : ChanId) (k : LockKind) : Policy → Bool → Prop
  | coast (h : w.policyOf c k = .latchCoast) : Latches w c k .latchCoast true
  | brake (h : w.policyOf c k = .latchBrake) : Latches w c k .latchBrake false
  | spent (h : w.policyOf c k = .retry) (hr : w.retryLimit c ≤ (w.ch c).retry) : Latches w c k .latchCoast true

theorem Work.lossOf_retry (w : Work) (c : ChanId) (k : LockKind) (e : ChanId) : ((w.lossOf c k).ch e).retry = (w.ch e).retry := by
  rw [Work.lossOf_ch]
  split
  · next h => obtain ⟨-, rfl⟩ := h; rfl
  · rfl

theorem Work.lossOf_retryLimit (w : Work) (c : ChanId) (k : LockKind) (d : ChanId) : (w.lossOf c k).retryLimit d = w.retryLimit d :=
  Work.lossOf_profN ..

theorem Work.lossOf_retryWait (w : Work) (c : ChanId) (k : LockKind) (d : ChanId) : (w.lossOf c k).retryWait d = w.retryWait d :=
  congrArg Config.ms (Work.lossOf_profN ..)

theorem Work.actOnLock_of_latches {w : Work} {m : MoverId} {c : ChanId} {k : LockKind} {a : Policy} {coast : Bool}
    (h : Latches w c k a coast) (d : Dir) : w.actOnLock m c k d =
      ((((w.lossOf c k).receiveLock m c a).noteLock c k a (w.ch c).retry)).latchMover m k coast := by
  have hretry := w.lossOf_retry c k c
  cases h with
  | coast h =>
    have hp := (w.lossOf_policyOf c k c k).trans h
    rw [← hretry]
    rw [Work.lossOf] at *
    simp only [Work.actOnLock, hp]
  | brake h =>
    have hp := (w.lossOf_policyOf c k c k).trans h
    rw [← hretry]
    rw [Work.lossOf] at *
    simp only [Work.actOnLock, hp]
  | spent h hr =>
    have hp := (w.lossOf_policyOf c k c k).trans h
    have hno : ¬ ((w.lossOf c k).ch c).retry < (w.lossOf c k).retryLimit c := by
      rw [hretry, Work.lossOf_retryLimit]; exact Nat.not_lt_of_le hr
    rw [← hretry]
    rw [Work.lossOf] at *
    simp only [Work.actOnLock, hp, if_neg hno]

/-- The record of a lock, its position lost before. -/
theorem Work.noted_form (w : Work) (m : MoverId) (c : ChanId) (k : LockKind) (a : Policy) (n : Nat) :
    LockEnd (w.lossOf c k) (((w.lossOf c k).receiveLock m c a).noteLock c k a n) m (lockHeld (w.mv m) c a w.now)
      [.lock c k a n] (lockNoted (w.lossOf c k) c k a) := by
  have hform := (w.lossOf c k).lockedNoted_form m c k a n
  rwa [Work.lossOf_mv, Work.lossOf_now] at hform

theorem lockNoted_retry (w : Work) (c : ChanId) (k : LockKind) (a : Policy) (e : ChanId) :
    (lockNoted w c k a e).retry = (w.ch e).retry := by
  simp only [lockNoted]
  split
  · next h => subst h; rfl
  · rfl

/-- The channel as the retry of a lock finds it: homing once its position is lost. -/
def retryChan (w : Work) (m : MoverId) (c : ChanId) (k : LockKind) (e : ChanId) : Machine.Channel :=
  if k.lossy = true ∧ e ∈ w.chansOf m then (lockNoted (w.lossOf c k) c k .retry e).toHoming
  else lockNoted (w.lossOf c k) c k .retry e

/-- The mover as the retry of a lock leaves it. -/
def retryMoverOf (x : Mover) (c : ChanId) (k : LockKind) (now : Time) : Mover :=
  if k.lossy then homingMover (lockHeld x c .retry now) else lockHeld x c .retry now

theorem retryChan_retry (w : Work) (m : MoverId) (c : ChanId) (k : LockKind) (e : ChanId) :
    (retryChan w m c k e).retry = (w.ch e).retry := by
  simp only [retryChan]
  split
  · exact (lockNoted_retry ..).trans (w.lossOf_retry c k e)
  · exact (lockNoted_retry ..).trans (w.lossOf_retry c k e)

theorem retryMoverOf_form (x : Mover) (c : ChanId) (k : LockKind) (now : Time) :
    (retryMoverOf x c k now).chans = x.chans ∧ (retryMoverOf x c k now).learn = x.learn ∧
      (retryMoverOf x c k now).claim = x.claim ∧ (retryMoverOf x c k now).present = x.present := by
  obtain ⟨r, hr⟩ := lockHeld_form x c .retry now
  simp only [retryMoverOf, homingMover, hr]
  repeat' split
  all_goals exact ⟨rfl, rfl, rfl, rfl⟩

/-- The mover of a latching lock, or of the stop with a lost position. -/
def haltedMover (x : Mover) (c : ChanId) (a : Policy) (now : Time) (cause : Cause) : Mover :=
  causeNoted (claimEnded (lockHeld x c a now)) cause

theorem haltedMover_form (x : Mover) (c : ChanId) (a : Policy) (now : Time) (cause : Cause) :
    (haltedMover x c a now cause).chans = x.chans ∧ (haltedMover x c a now cause).claim = none ∧
      (haltedMover x c a now cause).present = x.present := by
  obtain ⟨r, hr⟩ := lockHeld_form x c a now
  simp only [haltedMover, causeNoted_chans, causeNoted_claim, causeNoted_present, claimEnded_chans, claimEnded_claim,
    claimEnded_present, hr]
  exact ⟨rfl, trivial, trivial⟩

/-- The channel after a report, or without one (R20). -/
def reportedChan (w : Work) (c : ChanId) (k : LockKind) (e : ChanId) : Machine.Channel :=
  if w.policyOf c k = .reportOnly ∧ k ∉ (w.ch c).reported ∧ e = c then
    { (w.lossOf c k).ch c with reported := (w.ch c).reported ++ [k], lastLock := some (k, .reportOnly) }
  else (w.lossOf c k).ch e

/-- The event of a report. -/
def reportEvents (w : Work) (c : ChanId) (k : LockKind) : List Event :=
  if w.policyOf c k = .reportOnly ∧ k ∉ (w.ch c).reported then [.lock c k .reportOnly (w.ch c).retry] else []

theorem sameMotion_reportedChan (w : Work) (c : ChanId) (k : LockKind) (e : ChanId) :
    SameMotion (w.ch e) (reportedChan w c k e) := by
  have hl := sameMotion_lossOf w c k e
  simp only [reportedChan]
  split
  · next h => obtain ⟨-, -, rfl⟩ := h; exact ⟨hl.motion, hl.state⟩
  · exact hl

theorem Work.lossOf_reported (w : Work) (c : ChanId) (k : LockKind) : ((w.lossOf c k).ch c).reported = (w.ch c).reported := by
  rw [Work.lossOf_ch]
  split <;> rfl

section

variable {w : Work} {m : MoverId} {c : ChanId} {mo : Motion} (h : Raising w m c mo) {k : LockKind}
  (hp : w.policyOf c k = .retry) (hr : (w.ch c).retry < w.retryLimit c)
include h hp hr

/-- A lock under RETRY that leaves the motion to its wait (R24). -/
theorem Raising.raiseLock_of_retry (hd : k.lossy = false ∨ mo.dir = .inward) :
    w.raiseLock c k = ((((w.lossOf c k).receiveLock m c .retry).noteLock c k .retry
      ((w.ch c).retry + 1)).homedIf m k.lossy).retryMover m c := by
  have hp' := (w.lossOf_policyOf c k c k).trans hp
  have hlt : ((w.lossOf c k).ch c).retry < (w.lossOf c k).retryLimit c := by
    rw [Work.lossOf_retry, Work.lossOf_retryLimit]; exact hr
  have hdir : (k.lossy && mo.dir == .outward) = false := by
    rcases hd with hd | hd <;> simp [hd]
  rw [Work.raiseLock_of_driving h.mover h.motion h.driving, ← w.lossOf_retry c k c]
  rw [Work.lossOf] at *
  simp only [Work.actOnLock, hp', if_pos hlt, hdir, Bool.false_eq_true, if_false, Work.homedIf]

/-- A lock under RETRY that takes the position of an OUT motion (R51). -/
theorem Raising.raiseLock_of_lost (hl : k.lossy = true) (hd : mo.dir = .outward) :
    w.raiseLock c k = (((w.lossOf c k).receiveLock m c .retry).noteLock c k .retry
      (w.ch c).retry).stopMover m .positionLost := by
  have hp' := (w.lossOf_policyOf c k c k).trans hp
  have hlt : ((w.lossOf c k).ch c).retry < (w.lossOf c k).retryLimit c := by
    rw [Work.lossOf_retry, Work.lossOf_retryLimit]; exact hr
  have hdir : (k.lossy && mo.dir == .outward) = true := by rw [hl, hd]; rfl
  rw [Work.raiseLock_of_driving h.mover h.motion h.driving, ← w.lossOf_retry c k c]
  rw [Work.lossOf] at *
  simp only [Work.actOnLock, hp', if_pos hlt, hdir, if_true]

end

section

variable {w : Work} {m : MoverId} {c : ChanId} {mo : Motion} (h : Locking w m c mo)
include h

/-- The channels, the mover and the event of a latch. -/
theorem Locking.latch {k : LockKind} {a : Policy} {coast : Bool} (hp : Latches w c k a coast) :
    LockEnd (w.lossOf c k) (w.raiseLock c k) m (haltedMover (w.mv m) c a w.now .fault) [.lock c k a (w.ch c).retry] fun e =>
      if e ∈ w.chansOf m then latched k coast w.now (lockNoted (w.lossOf c k) c k a e) else lockNoted (w.lossOf c k) c k a e := by
  have hform := w.noted_form m c k a (w.ch c).retry
  obtain ⟨r, hr⟩ := lockHeld_form (w.mv m) c a w.now
  have hchans := hform.chansOf (by rw [hr, Work.lossOf_mv]; rfl)
  rw [Work.lossOf_chansOf] at hchans
  have hlatch := Work.latchMover_form (w := (((w.lossOf c k).receiveLock m c a).noteLock c k a (w.ch c).retry)) (m := m)
    (by rw [hform.mv, hr]; exact h.learn) (by rw [hchans]; exact h.nodup) k coast
  rw [hform.mv, hchans, hform.now, Work.lossOf_now] at hlatch
  have hall := hform.trans hlatch
  rw [Work.raiseLock_of_driving h.mover h.motion h.driving, Work.actOnLock_of_latches hp]
  refine ⟨by rw [List.append_nil] at hall; exact hall.form, fun e => (hall.ch e).trans ?_⟩
  rw [hform.ch]

/-! ## The retry -/

theorem Locking.retry {k : LockKind} (hp : w.policyOf c k = .retry) (hr : (w.ch c).retry < w.retryLimit c)
    (hd : k.lossy = false ∨ mo.dir = .inward) :
    LockEnd (w.lossOf c k) (w.raiseLock c k) m (retryMoverOf (w.mv m) c k w.now) [.lock c k .retry ((w.ch c).retry + 1)] fun e =>
      if e ∈ w.chansOf m then (retryChan w m c k e).suspend ((w.ch c).retry + 1) (w.now + w.retryWait c)
      else retryChan w m c k e := by
  obtain ⟨r, hx⟩ := lockHeld_form (w.mv m) c .retry w.now
  have hnote := w.noted_form m c k .retry ((w.ch c).retry + 1)
  have hchans := hnote.chansOf (by rw [hx, Work.lossOf_mv]; rfl)
  rw [Work.lossOf_chansOf] at hchans
  have hhome := Work.homedIf_form k.lossy (w := ((w.lossOf c k).receiveLock m c .retry).noteLock c k .retry ((w.ch c).retry + 1))
    (m := m) (by rw [hchans]; exact h.nodup)
  rw [hnote.mv, hchans] at hhome
  have hhome := hnote.trans hhome
  have hact := h.toRaising.raiseLock_of_retry hp hr hd
  rw [hact]
  generalize (((w.lossOf c k).receiveLock m c .retry).noteLock c k .retry ((w.ch c).retry + 1)).homedIf m k.lossy = z at hhome
  have hmover : (if k.lossy = true then homingMover (lockHeld (w.mv m) c .retry w.now) else lockHeld (w.mv m) c .retry w.now) =
      retryMoverOf (w.mv m) c k w.now := rfl
  rw [hmover] at hhome
  obtain ⟨hxc, hxl, -, -⟩ := retryMoverOf_form (w.mv m) c k w.now
  have hzc : z.chansOf m = w.chansOf m := (hhome.chansOf (by rw [hxc, Work.lossOf_mv])).trans (w.lossOf_chansOf c k m)
  have hch : ∀ e, z.ch e = retryChan w m c k e := fun e => by
    rw [hhome.ch e, retryChan, hnote.ch e]
  have hform := Work.retryMover_form (w := z) (m := m) (by rw [hhome.mv, hxl]; exact h.learn) (by rw [hzc]; exact h.nodup) c
  have hall := hhome.trans hform
  rw [hhome.mv] at hall
  refine ⟨by rw [List.append_nil, List.append_nil] at hall; exact hall.form, fun e => (hall.ch e).trans ?_⟩
  rw [hzc, hch, hch, retryChan_retry, hhome.now, hhome.retryWait, Work.lossOf_now, Work.lossOf_retryWait]

/-! ## The stop of an OUT motion that has lost its position -/

/-- A work that has the loss behind it stops, each of its channels past STARTING. -/
theorem Locking.stopped {u : Work} {a : Policy} {es : List Event} {g : ChanId → Machine.Channel} {k : LockKind}
    (hu : LockEnd (w.lossOf c k) u m (lockHeld (w.mv m) c a w.now) es g) (hg : ∀ e, SameMotion (w.ch e) (g e))
    (hs : ∀ e ∈ w.chansOf m, (w.ch e).starting = false) :
    LockEnd (w.lossOf c k) (u.stopMover m .positionLost) m (haltedMover (w.mv m) c a w.now .positionLost) es fun e =>
      if e ∈ w.chansOf m then (g e).stopWith .positionLost false w.now else g e := by
  obtain ⟨r, hx⟩ := lockHeld_form (w.mv m) c a w.now
  have hchans := hu.chansOf (by rw [hx, Work.lossOf_mv]; rfl)
  rw [Work.lossOf_chansOf] at hchans
  have hstop := Work.stopMover_form (w := u) (m := m) (cause := .positionLost) (c := c) (by rw [hu.mv, hx]; exact h.learn) (by decide)
    (by rw [hchans]; exact h.nodup)
    (fun e he => by rw [hu.ch, (hg e).starting]; exact hs e (by rw [← hchans]; exact he))
    (by rw [hchans]; exact h.mem)
    (by rw [hu.ch]; exact Channel.stoppable_of_driving ((hg c).driving.trans h.driving))
  rw [hu.mv, hchans, hu.now, Work.lossOf_now] at hstop
  have hall := hu.trans hstop
  refine ⟨by rw [List.append_nil] at hall; exact hall.form, fun e => (hall.ch e).trans ?_⟩
  rw [hu.ch]

theorem Locking.lost {k : LockKind} (hl : k.lossy = true) (hp : w.policyOf c k = .retry) (hr : (w.ch c).retry < w.retryLimit c)
    (hd : mo.dir = .outward) (hs : ∀ e ∈ w.chansOf m, (w.ch e).starting = false) :
    LockEnd (w.lossOf c k) (w.raiseLock c k) m (haltedMover (w.mv m) c .retry w.now .positionLost)
      [.lock c k .retry (w.ch c).retry] fun e =>
        if e ∈ w.chansOf m then (lockNoted (w.lossOf c k) c k .retry e).stopWith .positionLost false w.now
        else lockNoted (w.lossOf c k) c k .retry e := by
  rw [h.toRaising.raiseLock_of_lost hp hr hl hd]
  exact h.stopped (w.noted_form m c k .retry _)
    (fun e => (sameMotion_lossOf w c k e).trans (sameMotion_lockNoted (w.lossOf c k) c k .retry e)) hs

/-! ## A motion that goes on -/

end

section

variable {w : Work} {m : MoverId} {c : ChanId} {mo : Motion} (h : Raising w m c mo)
include h

theorem Raising.goesOn {k : LockKind} (hp : w.policyOf c k = .reportOnly ∨ w.policyOf c k = .ignore) :
    ∃ u, LockEnd (w.lossOf c k) u m (w.mv m) (reportEvents w c k) (reportedChan w c k) ∧
      w.raiseLock c k = u.goOn m c (w.policyOf c k) k.lossy mo.dir := by
  have hsilent (hno : ¬ (w.policyOf c k = .reportOnly ∧ k ∉ (w.ch c).reported)) :
      LockEnd (w.lossOf c k) (w.lossOf c k) m (w.mv m) (reportEvents w c k) (reportedChan w c k) := by
    have hrefl := LockEnd.refl (w.lossOf c k) m
    rw [Work.lossOf_mv] at hrefl
    rw [reportEvents, if_neg hno]
    exact ⟨hrefl.form, fun e => (if_neg fun hh => hno ⟨hh.1, hh.2.1⟩).symm⟩
  rw [Work.raiseLock_of_driving h.mover h.motion h.driving]
  rcases hp with hp | hp
  · have hp' := (w.lossOf_policyOf c k c k).trans hp
    by_cases hrep : k ∈ (w.ch c).reported
    · refine ⟨w.lossOf c k, hsilent fun hh => hh.2 hrep, ?_⟩
      have hin : ((w.lossOf c k).ch c).reported.contains k = true := by rw [Work.lossOf_reported]; simpa using hrep
      rw [hp]
      rw [Work.lossOf] at *
      simp only [Work.actOnLock, hp', hin, if_true]
    · have hout : ((w.lossOf c k).ch c).reported.contains k = false := by rw [Work.lossOf_reported]; simpa using hrep
      refine ⟨((w.lossOf c k).setCh c { (w.lossOf c k).ch c with
        reported := ((w.lossOf c k).ch c).reported ++ [k] }).noteLock c k .reportOnly ((w.lossOf c k).ch c).retry, ?_, ?_⟩
      · have hev : reportEvents w c k = [.lock c k .reportOnly ((w.lossOf c k).ch c).retry] := by
          rw [reportEvents, if_pos ⟨hp, hrep⟩, Work.lossOf_retry]
        rw [hev]
        have hnote := LockEnd.note (w.lossOf c k) m c { (w.lossOf c k).ch c with
          reported := (w.ch c).reported ++ [k], lastLock := some (k, .reportOnly) }
          (.lock c k .reportOnly ((w.lossOf c k).ch c).retry)
        rw [Work.lossOf_mv] at hnote
        have heq : ((w.lossOf c k).setCh c { (w.lossOf c k).ch c with
            reported := ((w.lossOf c k).ch c).reported ++ [k] }).noteLock c k .reportOnly ((w.lossOf c k).ch c).retry =
            ((w.lossOf c k).setCh c { (w.lossOf c k).ch c with
              reported := (w.ch c).reported ++ [k], lastLock := some (k, .reportOnly) }).emit
              (.lock c k .reportOnly ((w.lossOf c k).ch c).retry) := by
          rw [Work.noteLock, Work.ch_setCh_self, Work.setCh_setCh, Work.lossOf_reported]
        rw [heq]
        refine ⟨hnote.form, fun e => (hnote.ch e).trans ?_⟩
        have hcond : (w.policyOf c k = .reportOnly ∧ k ∉ (w.ch c).reported ∧ e = c) ↔ e = c :=
          ⟨fun hh => hh.2.2, fun he => ⟨hp, hrep, he⟩⟩
        simp only [reportedChan, hcond]
      · rw [hp]
        rw [Work.lossOf] at *
        simp only [Work.actOnLock, hp', hout, Bool.false_eq_true, if_false]
  · have hp' := (w.lossOf_policyOf c k c k).trans hp
    refine ⟨w.lossOf c k, hsilent fun hh => (nomatch hp.symm.trans hh.1), ?_⟩
    rw [hp]
    rw [Work.lossOf] at *
    simp only [Work.actOnLock, hp']

/-- What a lock that loses no position leaves under REPORT_ONLY and IGNORE. -/
theorem Raising.goesOn_kept {k : LockKind} (hp : w.policyOf c k = .reportOnly ∨ w.policyOf c k = .ignore) (hl : k.lossy = false) :
    LockEnd w (w.raiseLock c k) m (w.mv m) (reportEvents w c k) (reportedChan w c k) := by
  obtain ⟨u, hu, hz⟩ := h.goesOn hp
  have hact : u.goOn m c (w.policyOf c k) k.lossy mo.dir = u := by
    simp only [Work.goOn, hl, Bool.false_eq_true, if_false]
  rw [hz, hact]
  rwa [Work.lossOf_of_kept hl] at hu

/-- An IN motion goes on as a homing motion. -/
theorem Raising.goesOn_inward {k : LockKind} (hp : w.policyOf c k = .reportOnly ∨ w.policyOf c k = .ignore) (hl : k.lossy = true)
    (hd : mo.dir = .inward) :
    LockEnd (w.lossOf c k) (w.raiseLock c k) m (homingMover (w.mv m)) (reportEvents w c k) fun e =>
      if e ∈ w.chansOf m then (reportedChan w c k e).toHoming.cutDuty (w.dutyOf e .homing) else reportedChan w c k e := by
  obtain ⟨u, hu, hz⟩ := h.goesOn hp
  have hchans := hu.chansOf (by rw [Work.lossOf_mv])
  rw [Work.lossOf_chansOf] at hchans
  have hturn := Work.turnHoming_form (w := u) (m := m) (by rw [hchans]; exact h.nodup)
  rw [hu.mv, hchans] at hturn
  have hduty : ∀ e, u.dutyOf e .homing = w.dutyOf e .homing := fun e => by
    have hmv := w.lossOf_mv c k m
    rw [← w.lossOf_dutyOf c k]
    exact hu.dutyOf_homing (by rw [hmv]) (by rw [hmv]) (by rw [hmv]) e
  have hact : u.goOn m c (w.policyOf c k) k.lossy mo.dir = u.turnHoming m := by
    simp only [Work.goOn, hl, hd, if_true]
  rw [hz, hact]
  have hall := hu.trans hturn
  refine ⟨by rw [List.append_nil] at hall; exact hall.form, fun e => (hall.ch e).trans ?_⟩
  rw [hu.ch, hduty]

end

/-- An OUT motion stops with its position lost. -/
theorem Locking.goesOn_outward {w : Work} {m : MoverId} {c : ChanId} {mo : Motion} (h : Locking w m c mo) {k : LockKind}
    (hp : w.policyOf c k = .reportOnly ∨ w.policyOf c k = .ignore) (hl : k.lossy = true) (hd : mo.dir = .outward)
    (hs : ∀ e ∈ w.chansOf m, (w.ch e).starting = false) :
    LockEnd (w.lossOf c k) (w.raiseLock c k) m (haltedMover (w.mv m) c (w.policyOf c k) w.now .positionLost)
      (reportEvents w c k) fun e =>
        if e ∈ w.chansOf m then (reportedChan w c k e).stopWith .positionLost false w.now else reportedChan w c k e := by
  obtain ⟨u, hu, hz⟩ := h.toRaising.goesOn hp
  have hact : u.goOn m c (w.policyOf c k) k.lossy mo.dir = (u.receiveLock m c (w.policyOf c k)).stopMover m .positionLost := by
    simp only [Work.goOn, hl, hd, if_true]
  have hheld : LockEnd u (u.receiveLock m c (w.policyOf c k)) m (lockHeld (w.mv m) c (w.policyOf c k) w.now) [] (reportedChan w c k) := by
    rw [Work.receiveLock_eq, hu.mv, hu.now, Work.lossOf_now]
    exact ⟨⟨u.chans, by rw [List.append_nil]; rfl⟩, hu.ch⟩
  have hall := hu.trans hheld
  rw [List.append_nil] at hall
  rw [hz, hact]
  exact h.stopped hall (sameMotion_reportedChan w c k) hs

end Sys2Proof.Machine
end

