-- ==== Sys2Proof/Proofs/LoneLocks.lean ====
section
/-! PROOF. The locks of a mover with one channel (R18, R20, R21). -/

namespace Sys2Proof.Machine

set_option Elab.async false

open Sys2Proof.Safety

/-! ## What a lock leaves of the position of the channel -/

/-- The position, and whether it is known. -/
def Placed (x y : Machine.Channel) : Prop := y.known = x.known ∧ y.seat = x.seat ∧ y.pos = x.pos

theorem Placed.refl (x : Machine.Channel) : Placed x x := ⟨rfl, rfl, rfl⟩

theorem Placed.trans {x y z : Machine.Channel} (h₁ : Placed x y) (h₂ : Placed y z) : Placed x z :=
  ⟨h₂.1.trans h₁.1, h₂.2.1.trans h₁.2.1, h₂.2.2.trans h₁.2.2⟩

theorem placed_stopWith (x : Machine.Channel) (k : Cause) (b : Bool) (t : Time) : Placed x (x.stopWith k b t) := by
  simp only [Channel.stopWith]
  repeat' split
  all_goals exact .refl x

theorem placed_latched (k : LockKind) (b : Bool) (t : Time) (x : Machine.Channel) : Placed x (latched k b t x) := by
  simp only [latched]
  split
  · exact placed_stopWith x .fault b t
  · exact .refl x

theorem placed_suspend (x : Machine.Channel) (n : Nat) (t : Time) : Placed x (x.suspend n t) := by
  simp only [Channel.suspend]
  split <;> exact .refl x

theorem placed_homing (x : Machine.Channel) : Placed x x.toHoming := .refl x

theorem placed_cutDuty (x : Machine.Channel) (n : Nat) : Placed x (x.cutDuty n) := by
  simp only [Channel.cutDuty]
  split <;> exact .refl x

theorem placed_lockNoted (w : Work) (c : ChanId) (k : LockKind) (a : Policy) (e : ChanId) : Placed (w.ch e) (lockNoted w c k a e) := by
  simp only [lockNoted]
  split
  · next h => subst h; exact .refl _
  · exact .refl _

theorem placed_retryChan (w : Work) (m : MoverId) (c : ChanId) (k : LockKind) (e : ChanId) :
    Placed ((w.lossOf c k).ch e) (retryChan w m c k e) := by
  simp only [retryChan]
  split
  · exact (placed_lockNoted ..).trans (placed_homing _)
  · exact placed_lockNoted ..

theorem placed_reportedChan (w : Work) (c : ChanId) (k : LockKind) (e : ChanId) :
    Placed ((w.lossOf c k).ch e) (reportedChan w c k e) := by
  simp only [reportedChan]
  split
  · next h => obtain ⟨-, -, rfl⟩ := h; exact .refl _
  · exact .refl _

/-- Every policy leaves each channel's position as the loss has left it. -/
theorem Locking.placed {w : Work} {m : MoverId} {c : ChanId} {mo : Motion} (h : Locking w m c mo)
    (hs : ∀ e ∈ w.chansOf m, (w.ch e).starting = false) (k : LockKind) (e : ChanId) :
    Placed ((w.lossOf c k).ch e) ((w.raiseLock c k).ch e) := by
  have hlatch {a : Policy} {b : Bool} (hl : Latches w c k a b) : Placed ((w.lossOf c k).ch e) ((w.raiseLock c k).ch e) := by
    rw [(h.latch hl).ch]
    split
    · exact (placed_lockNoted ..).trans (placed_latched ..)
    · exact placed_lockNoted ..
  have hgoes (hp : w.policyOf c k = .reportOnly ∨ w.policyOf c k = .ignore) :
      Placed ((w.lossOf c k).ch e) ((w.raiseLock c k).ch e) := by
    cases hl : k.lossy
    · rw [(h.goesOn_kept hp hl).ch]; exact placed_reportedChan ..
    · cases hd : mo.dir
      · rw [(h.goesOn_outward hp hl hd hs).ch]
        split
        · exact (placed_reportedChan ..).trans (placed_stopWith ..)
        · exact placed_reportedChan ..
      · rw [(h.goesOn_inward hp hl hd).ch]
        split
        · exact (placed_reportedChan ..).trans ((placed_homing _).trans (placed_cutDuty ..))
        · exact placed_reportedChan ..
  cases hp : w.policyOf c k with
  | latchCoast => exact hlatch (.coast hp)
  | latchBrake => exact hlatch (.brake hp)
  | reportOnly => exact hgoes (.inl hp)
  | ignore => exact hgoes (.inr hp)
  | retry =>
    by_cases hr : w.retryLimit c ≤ (w.ch c).retry
    · exact hlatch (.spent hp hr)
    have hlt := Nat.lt_of_not_le hr
    by_cases hd : k.lossy = false ∨ mo.dir = .inward
    · rw [(h.retry hp hlt hd).ch]
      split
      · exact (placed_retryChan ..).trans (placed_suspend ..)
      · exact placed_retryChan ..
    · obtain ⟨hl, hd⟩ := not_or.mp hd
      have hout : mo.dir = .outward := by
        cases hmd : mo.dir
        · rfl
        · exact absurd hmd hd
      rw [(h.lost (Bool.not_eq_false _ ▸ hl) hp hlt hout hs).ch]
      split
      · exact (placed_lockNoted ..).trans (placed_stopWith ..)
      · exact placed_lockNoted ..

/-! ## A mover with one channel -/

section

variable {w : Work} {m : MoverId} {c : ChanId} (hlone : Lone w m c) {mo : Motion} (hm : (w.ch c).motion = some mo)
  (hd : (w.ch c).driving = true) (hl : (w.mv m).learn = none)
include hlone hm hd hl

theorem lone_locking : Locking w m c mo := by
  have hc := lone_chansOf hlone
  exact { mover := hlone.2.2, motion := hm, driving := hd, learn := hl, nodup := by rw [hc]; exact List.nodup_singleton c,
          mem := by rw [hc]; exact List.mem_singleton_self c }

omit hm hl in
theorem lone_not_starting : ∀ e ∈ w.chansOf m, (w.ch e).starting = false := fun e he => by
  rw [lone_chansOf hlone, List.mem_singleton] at he
  rw [he]; exact Channel.not_starting_of_driving hd

end

theorem latched_of_driving {x : Machine.Channel} {mo : Motion} (hm : x.motion = some mo) (hd : x.driving = true) (k : LockKind)
    (coast : Bool) (now : Time) : latched k coast now x =
      { Safety.stopping x mo .fault (if coast then .coast else .brake) now with fault := some k } := by
  rw [latched, if_pos hd, Channel.stopWith_of_driving hm hd]

theorem sameMotion_noted (w : Work) (c : ChanId) (k : LockKind) (a : Policy) :
    SameMotion (w.ch c) (lockNoted (w.lossOf c k) c k a c) :=
  (sameMotion_lossOf w c k c).trans (sameMotion_lockNoted (w.lossOf c k) c k a c)

theorem latchedNoted_of_driving {w : Work} {m : MoverId} {c : ChanId} {mo : Motion} (h : Locking w m c mo) {k : LockKind}
    {a : Policy} {coast : Bool} {now : Time} : latched k coast now (lockNoted (w.lossOf c k) c k a c) =
      { Safety.stopping { (w.lossOf c k).ch c with lastLock := some (k, a) } mo .fault (if coast then .coast else .brake) now with
        fault := some k } := by
  have hn := sameMotion_noted w c k a
  rw [latched_of_driving (hn.motion.trans h.motion) (hn.driving.trans h.driving), lockNoted, if_pos rfl]

theorem Channel.driving_toHoming (x : Machine.Channel) : x.toHoming.driving = x.driving := by
  simp only [Channel.driving, Channel.toHoming]
  cases x.motion <;> rfl

theorem Channel.suspend_of_driving {x : Machine.Channel} (hd : x.driving = true) (n : Nat) (t : Time) : x.suspend n t =
    { x with state := .retryWait, duty := 0, bridge := .coast, retry := n, retryEnd := some t } := by
  rw [Channel.suspend, if_pos hd]

/-- The channel of a lock under RETRY, before its wait. -/
theorem Locking.retryChan_self {w : Work} {m : MoverId} {c : ChanId} {mo : Motion} (h : Locking w m c mo) (k : LockKind) :
    (retryChan w m c k c).driving = true ∧ (retryChan w m c k c).lastLock = some (k, .retry) ∧
      (retryChan w m c k c).motion = some (if k.lossy then { mo with profile := .homing } else mo) := by
  have hn := sameMotion_noted w c k .retry
  have hlast : (lockNoted (w.lossOf c k) c k .retry c).lastLock = some (k, .retry) := by rw [lockNoted, if_pos rfl]
  cases hk : k.lossy
  · have he : retryChan w m c k c = lockNoted (w.lossOf c k) c k .retry c :=
      if_neg fun hh => Bool.false_ne_true (hk.symm.trans hh.1)
    rw [he]
    exact ⟨hn.driving.trans h.driving, hlast, hn.motion.trans h.motion⟩
  · have he : retryChan w m c k c = (lockNoted (w.lossOf c k) c k .retry c).toHoming := if_pos ⟨hk, h.mem⟩
    rw [he]
    refine ⟨(Channel.driving_toHoming _).trans (hn.driving.trans h.driving), hlast, ?_⟩
    simp only [Channel.toHoming, hn.motion, h.motion]
    rfl

/-- A channel that drives on homing (R9, R51). -/
theorem Channel.cutHoming_of_driving {x : Machine.Channel} {mo : Motion} (hm : x.motion = some mo) (hd : x.driving = true)
    (n : Nat) : x.toHoming.cutDuty n = { x with
      duty := min x.duty n, motion := some { mo with rampDuty := min mo.rampDuty n, profile := .homing } } := by
  rw [Channel.cutDuty, if_pos ((Channel.driving_toHoming x).trans hd)]
  simp only [Channel.toHoming, hm, Option.map_some]

theorem Work.judgeOvercurrent_of_second {z y : Work} {c : ChanId} (hj : z.judged c = true) (hr : 2 ≤ (z.ch c).ocRun + 1)
    (hy : z.setCh c { z.ch c with ocRun := 0 } = y) : z.judgeOvercurrent c =
      if z.motionField 0x0248 c ≤ (z.ch c).current then y.raiseLock c .overcurrent else y := by
  subst hy
  simp only [Work.judgeOvercurrent, hj, if_true, if_pos hr]

/-- The second reading at the trip current (R18). -/
theorem Work.overcurrentAt_of_driving {w : Work} {c : ChanId} (hd : (w.ch c).driving = true) (hf : (w.ch c).fenced = false)
    (v : Nat) : w.overcurrentAt c v =
      if w.motionField 0x0248 c ≤ min 1000 v then
        ((w.showCurrent c v).setCh c { w.ch c with window := List.replicate 8 v, current := min 1000 v, ocRun := 0 }).raiseLock c .overcurrent
      else (w.showCurrent c v).setCh c { w.ch c with window := List.replicate 8 v, current := min 1000 v, ocRun := 0 } := by
  have hj : w.judged c = true := by rw [Work.judged_of_driving hd, hf]; rfl
  generalize hz : (w.showCurrent c v).setCh c { (w.ch c).withReading v with ocRun := max 1 (w.ch c).ocRun } = z
  have hch : z.ch c = { (w.ch c).withReading v with ocRun := max 1 (w.ch c).ocRun } := by rw [← hz, Work.ch_setCh_self]
  have hjz : z.judged c = true := by
    rw [Work.judged_of_driving (by rw [hch]; exact hd), hch]
    show (!(w.ch c).fenced) = true
    rw [hf]; rfl
  have hfield : z.motionField 0x0248 c = w.motionField 0x0248 c := by rw [← hz]; rfl
  have hrun : 2 ≤ (z.ch c).ocRun + 1 := by
    rw [hch]; exact Nat.succ_le_succ (Nat.le_max_left 1 _)
  have hset : z.setCh c { z.ch c with ocRun := 0 } =
      (w.showCurrent c v).setCh c { w.ch c with window := List.replicate 8 v, current := min 1000 v, ocRun := 0 } := by
    rw [hch, ← hz, Work.setCh_setCh]
    rfl
  have hcur : (z.ch c).current = min 1000 v := by rw [hch]; rfl
  have hjudge := Work.judgeOvercurrent_of_second hjz hrun hset
  rw [hfield, hcur] at hjudge
  simp only [Work.overcurrentAt, hj, if_true, hz]
  exact hjudge

/-- Settles O50: each policy by what it leaves of channel, mover and events; OVERCURRENT by its second reading. -/
theorem locksActByPolicy : Obligations.LocksActByPolicy := by
  unfold Obligations.LocksActByPolicy
  refine ⟨?_, ?_⟩
  · intro w c m mo k hlone hm hd hl x z p latched
    have h := lone_locking hlone hm hd hl
    have hs := lone_not_starting hlone hd
    have hpl := h.placed hs k c
    have hkept (hk : k.lossy = false) : (w.lossOf c k).ch c = x := by rw [Work.lossOf_of_kept hk]
    have hlost (hk : k.lossy = true) : (w.lossOf c k).ch c = unplaced x := by rw [Work.lossOf_ch, if_pos ⟨hk, rfl⟩]
    have hlatch {a : Policy} {b : Bool} (hp : Latches w c k a b) : latched a (if b then .coast else .brake) := by
      have hz := h.latch hp
      have hch : z.ch c = _ := (hz.ch c).trans (if_pos h.mem)
      rw [latchedNoted_of_driving h] at hch
      refine ⟨by rw [hch]; rfl, by rw [hch]; rfl, by rw [hch]; rfl, by rw [hch]; rfl, by rw [hch], by rw [hch]; rfl, ?_, ?_⟩
      · rw [hz.mv]; exact (haltedMover_form ..).2.1
      · rw [hz.events, Work.lossOf_events]
    refine ⟨fun hk => ?_, fun hk => ?_, ?_, fun hp => hlatch (.coast hp), fun hp => hlatch (.brake hp),
      fun hp hr => hlatch (.spent hp hr), fun hp hr hdir => ?_, fun hp hk hrep => ?_, fun hp hk hrep => ?_, fun hp hk => ?_, fun hk => ?_⟩
    · rw [hlost hk] at hpl
      exact ⟨hpl.1, hpl.2.1⟩
    · rw [hkept hk] at hpl
      exact ⟨hpl.1, hpl.2.1⟩
    · refine hpl.2.2.trans ?_
      cases hk : k.lossy
      · rw [hkept hk]
      · rw [hlost hk]; rfl
    · have hz := h.retry hp hr hdir
      obtain ⟨hyd, hylast, hymo⟩ := h.retryChan_self k
      have hch : z.ch c = _ := (hz.ch c).trans (if_pos h.mem)
      rw [Channel.suspend_of_driving hyd] at hch
      refine ⟨by rw [hch], by rw [hch], by rw [hch], by rw [hch], by rw [hch]; rfl, by rw [hch]; exact hylast, by rw [hch]; exact hymo,
        ?_, ?_, ?_⟩
      · rw [hz.mv]; exact (retryMoverOf_form ..).2.2.1
      · rw [hz.bud, Work.lossOf_bud]
      · rw [hz.events, Work.lossOf_events]
    · have hno : x.reported.contains k = false := by simpa using hrep
      have hz : z = w.actOnLock m c k mo.dir := Work.raiseLock_of_driving h.mover h.motion h.driving k
      rw [hz]
      simp only [Work.actOnLock, hk, show w.policyOf c k = .reportOnly from hp, show (w.ch c).reported.contains k = false from hno,
        Work.goOn, Bool.false_eq_true, if_false, Work.noteLock, Work.ch_setCh_self, Work.setCh_setCh]
      rfl
    · have hin : (w.ch c).reported.contains k = true := by simpa using hrep
      have hz : z = w.actOnLock m c k mo.dir := Work.raiseLock_of_driving h.mover h.motion h.driving k
      rw [hz]
      simp only [Work.actOnLock, hk, show w.policyOf c k = .reportOnly from hp, hin, Work.goOn, Bool.false_eq_true, if_false, if_true]
    · have hz : z = w.actOnLock m c k mo.dir := Work.raiseLock_of_driving h.mover h.motion h.driving k
      rw [hz]
      simp only [Work.actOnLock, hk, show w.policyOf c k = .ignore from hp, Work.goOn, Bool.false_eq_true, if_false]
    · intro y noted homing goesOn
      have hLx : (w.lossOf c k).ch c = y := hlost hk
      have hgo (hp : p = .reportOnly ∨ p = .ignore) {y' : Machine.Channel} {es : List Event} (hy : reportedChan w c k c = y')
          (he : reportEvents w c k = es) (hdu : y'.duty = x.duty) : goesOn y' es := by
        have hsame := sameMotion_reportedChan w c k c
        have hym : y'.motion = some mo := by rw [← hy]; exact hsame.motion.trans hm
        have hyd : y'.driving = true := by rw [← hy]; exact hsame.driving.trans hd
        refine ⟨fun hdir => ?_, fun hdir => ?_, ?_⟩
        · have hz := h.goesOn_outward hp hk hdir hs
          have hch : z.ch c = _ := (hz.ch c).trans (if_pos h.mem)
          rw [hy, Channel.stopWith_of_driving hym hyd] at hch
          exact ⟨hch, by rw [hz.mv]; exact (haltedMover_form ..).2.1⟩
        · have hz := h.goesOn_inward hp hk hdir
          have hch : z.ch c = _ := (hz.ch c).trans (if_pos h.mem)
          rw [hy, Channel.cutHoming_of_driving hym hyd, hdu] at hch
          refine ⟨hch.trans ?_, ?_⟩
          · rw [show w.dutyOf c .homing = homing from lone_motionField hlone _]
          · rw [hz.mv, homingMover]; split <;> rfl
        · cases hdir : mo.dir
          · rw [(h.goesOn_outward hp hk hdir hs).events, Work.lossOf_events, he]
          · rw [(h.goesOn_inward hp hk hdir).events, Work.lossOf_events, he]
      have hquiet (hp : p = .ignore) : ¬ w.policyOf c k = .reportOnly := fun hh => by
        rw [show w.policyOf c k = .ignore from hp] at hh
        cases hh
      refine ⟨fun hp hrep => hgo (.inl hp) ?_ ?_ rfl, fun hp hrep => hgo (.inl hp) ?_ ?_ rfl, fun hp => hgo (.inr hp) ?_ ?_ rfl,
        fun hp hr hdir => ?_⟩
      · rw [reportedChan, if_pos ⟨hp, hrep, rfl⟩, hLx]
      · rw [reportEvents, if_pos ⟨hp, hrep⟩]
      · rw [reportedChan, if_neg fun hh => hh.2.1 hrep, hLx]
      · rw [reportEvents, if_neg fun hh => hh.2 hrep]
      · rw [reportedChan, if_neg fun hh => hquiet hp hh.1, hLx]
      · rw [reportEvents, if_neg fun hh => hquiet hp hh.1]
      · have hz := h.lost hk hp hr hdir hs
        have hn := sameMotion_noted w c k .retry
        have hch : z.ch c = _ := (hz.ch c).trans (if_pos h.mem)
        rw [Channel.stopWith_of_driving (hn.motion.trans hm) (hn.driving.trans hd), lockNoted, if_pos rfl, hLx] at hch
        exact ⟨hch, by rw [hz.mv]; exact (haltedMover_form ..).2.1, by rw [hz.events, Work.lossOf_events]⟩
  · intro s c v ha hd hf w y
    have hat := Work.overcurrentAt_of_driving hd hf v
    exact ⟨fun hle => exec_of_event ha rfl (hat.trans (if_pos hle)),
      fun hlt => exec_of_event ha rfl (hat.trans (if_neg (Nat.not_le_of_lt hlt)))⟩

end Sys2Proof.Machine
end

