-- ==== Sys2Proof/Proofs/PairLocks.lean ====
section
/-! PROOF. The two motors of a pair: racking, seats and locks (R28, R46, R47, R48, R51). -/

namespace Sys2Proof.Machine

set_option Elab.async false

open Sys2Proof.Safety

/-! ## Racking -/

/-- The pair stands apart by more than the rack limit, both counts known (R46). -/
def Apart (w : Work) (m : MoverId) (a b : ChanId) : Prop :=
  ((w.ch a).known = true ∧ (w.ch b).known = true) ∧ w.profN (0x0260 + m.val) < ((w.ch a).pos - (w.ch b).pos).natAbs

theorem pair_rackExceeded {w : Work} {m : MoverId} {a b : ChanId} (h : Pair w m a b) : w.rackExceeded m = true ↔ Apart w m a b := by
  obtain ⟨hl, hf, -⟩ := h
  simp only [Work.rackExceeded, Work.racking, hl, hf, Apart]
  cases (w.ch a).known <;> cases (w.ch b).known <;> simp

/-- The judgement of a pair of which a motor drives and none has seated. -/
theorem pair_judgeRack {w : Work} {m : MoverId} {a b : ChanId} (h : Pair w m a b) (hd : w.anyCh m Channel.driving = true)
    (hs : (w.mv m).seatedOnce = false) :
    (Apart w m a b → w.judgeRack m = w.rackLock m) ∧ (¬ Apart w m a b → w.judgeRack m = w) := by
  have hseat : w.seatTravelExceeded m = false := by
    simp only [Work.seatTravelExceeded, Mover.firstSeat_of_not_seatedOnce hs]
  refine ⟨fun ha => ?_, fun ha => ?_⟩
  · have hr := (pair_rackExceeded h).mpr ha
    simp [Work.judgeRack, pair_paired h, hd, hr]
  · have hr : w.rackExceeded m = false := Bool.eq_false_iff.mpr fun hh => ha ((pair_rackExceeded h).mp hh)
    simp [Work.judgeRack, hr, hseat]

/-- A count of one motor of a pair, before the pair is judged. -/
def Work.pairCounted (w : Work) (c : ChanId) (pos : Int) (mo : Motion) (e : Nat) : Work :=
  ({ w with now := w.now + e } : Work).setCh c { w.ch c with
    pos := pos, osRun := if (w.ch c).fenced then (w.ch c).osRun else 0, lastEdge := some (w.now + e),
    prevCount := if (w.ch c).fenced then (w.ch c).prevCount else some (w.now + e),
    motion := some { mo with lastPulse := some (w.now + e) } }

theorem Work.hallCount_of_pair {w : Work} {c : ChanId} {m : MoverId} {mo : Motion} {e : Nat} {pos : Int}
    (hm : w.moverOf c = some m) (hu : (w.ch c).used = true) (hmo : (w.ch c).motion = some mo) (hd : (w.ch c).driving = true)
    (hpos : w.nextPos c = pos) (hl : pos ≠ -64) (ht : pos ≠ w.upperLimit c)
    (hslow : ∀ t, (w.ch c).prevCount = some t → w.minPulse ≤ w.now + e - t) :
    ({ w with now := w.now + e } : Work).hallCount c = (w.pairCounted c pos mo e).judgeRack m := by
  generalize hz : ({ w with now := w.now + e } : Work) = z
  have hzch : z.ch c = w.ch c := by rw [← hz]; rfl
  have hznow : z.now = w.now + e := by rw [← hz]
  have hzpos : z.nextPos c = pos := by rw [← hpos, ← hz]; rfl
  have hzm : z.moverOf c = some m := by rw [← hz]; exact hm
  have hzmo : (z.ch c).motion = some mo := by rw [hzch]; exact hmo
  have hzd : (z.ch c).driving = true := by rw [hzch]; exact hd
  have hzu : (z.ch c).used = true := by rw [hzch]; exact hu
  have hcounted {y : Machine.Channel} (hy : y = { w.ch c with
      pos := pos, osRun := if (w.ch c).fenced then (w.ch c).osRun else 0, lastEdge := some (w.now + e),
      prevCount := if (w.ch c).fenced then (w.ch c).prevCount else some (w.now + e),
      motion := some { mo with lastPulse := some (w.now + e) } }) : z.setCh c y = w.pairCounted c pos mo e := by
    rw [hy, ← hz]; rfl
  cases hf : (w.ch c).fenced
  · have hfast : z.fast c = false := Work.not_fast fun t hpt => by
      rw [hzch] at hpt
      rw [hznow, ← hz]
      exact hslow t hpt
    have hzf : (z.ch c).fenced = false := by rw [hzch]; exact hf
    have hch : (z.countedLive c 0).ch c = _ := z.ch_setCh_self c _
    have hlive : z.countedLive c 0 = w.pairCounted c pos mo e := by
      rw [Work.countedLive]
      refine hcounted ?_
      rw [hzch, hznow, hzpos, hmo, hf]; rfl
    rw [Work.hallCount_of_live hzm hzu hzmo hzd hzf, hfast, if_neg Bool.false_ne_true,
      Work.judgeRange_of_within (by rw [hch]; exact hzpos.trans_ne hl) (by rw [hch]; exact hzpos.trans_ne (by rw [← hz]; exact ht)),
      Work.judgeOverspeed_of_short (by rw [hch]; exact Nat.succ_pos 7), hlive]
  · have hzf : (z.ch c).fenced = true := by rw [hzch]; exact hf
    have hq : z.countedQuiet c = w.pairCounted c pos mo e := by
      rw [Work.countedQuiet]
      refine hcounted ?_
      rw [hzch, hznow, hzpos, hmo, hf]; rfl
    have hj : (z.countedQuiet c).judged c = false := Work.judged_of_fenced (by rw [Work.countedQuiet_fenced]; exact hzf)
    rw [Work.hallCount_of hzm hzu, Work.countChan_of_quiet hzmo (Work.judged_of_fenced hzf), Work.judgeRange_of_not_judged hj,
      Work.judgeOverspeed_of_not_judged hj, hq]

/-- The channel RACKED has reached on its way (R46). -/
def rackedChan (x : Machine.Channel) (mo : Motion) (now : Time) : Machine.Channel :=
  { Safety.stopping x mo .fault .brake now with fault := some .racked, lastLock := some (.racked, .latchBrake) }

theorem Work.rackChan_of_driving {w : Work} {c : ChanId} {mo : Motion} (hm : (w.ch c).motion = some mo)
    (hd : (w.ch c).driving = true) : w.rackChan c =
      (w.setCh c (rackedChan (w.ch c) mo w.now)).emit (.lock c .racked .latchBrake (w.ch c).retry) := by
  have hstop := Channel.stopWith_of_driving hm hd .fault false w.now
  simp only [Work.rackChan, hm, Channel.not_starting_of_driving hd, Channel.not_stopping_of_driving hd, Bool.false_eq_true,
    if_false, hstop, Work.noteLock, Work.ch_setCh_self, Work.setCh_setCh]
  rfl

/-- The mover that RACKED has reached. -/
def rackedMover (x : Mover) : Mover := { causeNoted (claimEnded x) .fault with sync := .racked }

theorem LockEnd.rack {u z : Work} {m : MoverId} {x : Mover} {es : List Event} {g : ChanId → Machine.Channel}
    (h : LockEnd u z m x es g) {c : ChanId} {mo : Motion} (hm : (g c).motion = some mo) (hd : (g c).driving = true) :
    LockEnd u (z.rackChan c) m x (es ++ [.lock c .racked .latchBrake (g c).retry])
      fun e => if e = c then rackedChan (g c) mo u.now else g e := by
  have hch := h.ch c
  have hz := Work.rackChan_of_driving (w := z) (c := c) (mo := mo) (by rw [hch]; exact hm) (by rw [hch]; exact hd)
  have hnote := LockEnd.note z m c (rackedChan (g c) mo u.now) (.lock c .racked .latchBrake (g c).retry)
  rw [h.mv] at hnote
  have hall := h.trans hnote
  rw [hz, hch, h.now]
  exact ⟨hall.form, fun e => (hall.ch e).trans (by rw [h.ch])⟩

theorem LockEnd.setMover {u z : Work} {m : MoverId} {x : Mover} {es : List Event} {g : ChanId → Machine.Channel}
    (h : LockEnd u z m x es g) (x' : Mover) : LockEnd u (z.setMv m x') m x' es g := by
  have hset : LockEnd z (z.setMv m x') m x' [] z.ch := ⟨⟨z.chans, by rw [List.append_nil]; rfl⟩, fun _ => rfl⟩
  have hall := h.trans hset
  rw [List.append_nil] at hall
  exact ⟨hall.form, fun e => (hall.ch e).trans (h.ch e)⟩

theorem LockEnd.told (w : Work) (m : MoverId) (cause : Cause) :
    LockEnd w (w.told m cause) m (causeNoted (claimEnded (w.mv m)) cause) [] w.ch :=
  ⟨⟨w.chans, by rw [List.append_nil]; rfl⟩, fun _ => rfl⟩

/-- A mover one of whose channels still holds a motion has not come to rest. -/
theorem LockEnd.moves {u z : Work} {m : MoverId} {x : Mover} {es : List Event} {g : ChanId → Machine.Channel}
    (h : LockEnd u z m x es g) {c : ChanId} (hc : c ∈ x.chans) (hm : (g c).motion.isSome = true) : z.endIfAtRest m = z := by
  have hsome : z.anyCh m (·.motion.isSome) = true :=
    List.any_eq_true.mpr ⟨c, by rw [Work.chansOf, h.mv]; exact hc, by rw [h.ch]; exact hm⟩
  have hrest : z.atRest m = false := by rw [Work.atRest, hsome]; rfl
  rw [Work.endIfAtRest, hrest, if_neg Bool.false_ne_true]

theorem rackedMover_chans (x : Mover) : (rackedMover x).chans = x.chans :=
  (causeNoted_chans (claimEnded x) .fault).trans (claimEnded_chans _)

/-- RACKED stops both motors, the leader first (R46, log 10). -/
theorem pair_rackLock {w : Work} {m : MoverId} {a b : ChanId} (h : Pair w m a b) {ma mb : Motion}
    (hma : (w.ch a).motion = some ma) (hmb : (w.ch b).motion = some mb) (hda : (w.ch a).driving = true)
    (hdb : (w.ch b).driving = true) (hl : (w.mv m).learn = none) :
    LockEnd w (w.rackLock m) m (rackedMover (w.mv m))
      [.lock a .racked .latchBrake (w.ch a).retry, .lock b .racked .latchBrake (w.ch b).retry]
      fun e => if e = b then rackedChan (w.ch b) mb w.now else if e = a then rackedChan (w.ch a) ma w.now else w.ch e := by
  have htold : (w.endWork m).noteCause m .fault = w.told m .fault := by
    rw [Work.endWork, Work.abortLearn_of_none hl, Work.told_eq (by decide)]
  have hchans : (w.told m .fault).chansOf m = [a, b] := (w.told_chansOf m .fault).trans (pair_chansOf h)
  have hfirst := (LockEnd.told w m .fault).rack hma hda
  have hsecond := hfirst.rack (c := b) (mo := mb) (by rw [if_neg (pair_ne h)]; exact hmb) (by rw [if_neg (pair_ne h)]; exact hdb)
  rw [if_neg (pair_ne h)] at hsecond
  have hracked := hsecond.setMover (rackedMover (w.mv m))
  have hz : w.rackLock m = ((((w.told m .fault).rackChan a).rackChan b).setMv m (rackedMover (w.mv m))).endIfAtRest m := by
    simp only [Work.rackLock, htold, hchans, List.foldl_cons, List.foldl_nil, hsecond.mv]
    rfl
  have hb : b ∈ (rackedMover (w.mv m)).chans := by
    rw [rackedMover_chans, show (w.mv m).chans = [a, b] from pair_chansOf h]
    exact List.mem_cons_of_mem _ (List.mem_singleton_self b)
  rw [hz, hracked.moves hb (by rw [if_pos rfl]; rfl)]
  exact hracked

/-! ## Seats -/

/-- The two channels of a pair, one after the other. -/
def Partners (a b c d : ChanId) : Prop := c = a ∧ d = b ∨ c = b ∧ d = a

section

variable {w : Work} {m : MoverId} {a b c d : ChanId} (h : Pair w m a b) (hp : Partners a b c d)
include h hp

theorem Partners.ne : d ≠ c := by
  rcases hp with ⟨rfl, rfl⟩ | ⟨rfl, rfl⟩
  · exact pair_ne h
  · exact (pair_ne h).symm

omit h in
theorem Partners.left : c = a ∨ c = b := hp.imp And.left And.left

omit h in
theorem Partners.right : d = a ∨ d = b := hp.symm.imp And.right And.right

theorem Partners.find (hc : (w.ch c).driving = false) (hd : (w.ch d).driving = true) :
    (w.chansOf m).find? (fun e => (w.ch e).driving) = some d := by
  rw [pair_chansOf h]
  rcases hp with ⟨rfl, rfl⟩ | ⟨rfl, rfl⟩ <;> simp [hc, hd]

end

/-- The mover in which one motor has seated and the other goes on (R47). -/
def seatingMover (x : Mover) (r : Run) (d : ChanId) (pos : Int) : Mover :=
  { x with run := some { r with firstSeat := some (d, pos) }, sync := .seating }

theorem pair_afterSeat {w : Work} {m : MoverId} {a b c d : ChanId} (h : Pair w m a b) (hp : Partners a b c d)
    (hc : (w.ch c).driving = false) (hd : (w.ch d).driving = true) {r : Run} (hr : (w.mv m).run = some r) :
    w.afterSeat m = w.setMv m (seatingMover (w.mv m) r d (w.ch d).pos) := by
  simp only [Work.afterSeat, hp.find h hc hd, hr, seatingMover]

/-- A pair one of whose motors has just seated IN stands apart by the count of the other alone (R47). -/
theorem pair_judgeRack_of_seated {w : Work} {m : MoverId} {a b c d : ChanId} (h : Pair w m a b) (hp : Partners a b c d)
    (hs : (w.mv m).run.bind (·.firstSeat) = some (d, (w.ch d).pos)) (hc : (w.ch c).pos = 0)
    (hd : (w.ch d).known = true → (w.ch d).pos.natAbs ≤ w.profN (0x0260 + m.val)) : w.judgeRack m = w := by
  have htravel : w.seatTravelExceeded m = false := by
    simp only [Work.seatTravelExceeded, hs]
    split
    · simp
    · rfl
  have hnot : ¬ Apart w m a b := by
    rintro ⟨⟨hka, hkb⟩, hlt⟩
    rcases hp with ⟨rfl, rfl⟩ | ⟨rfl, rfl⟩
    · rw [hc, Int.zero_sub, Int.natAbs_neg] at hlt
      exact Nat.not_le_of_lt hlt (hd hkb)
    · rw [hc, Int.sub_zero] at hlt
      exact Nat.not_le_of_lt hlt (hd hka)
  have hrack : w.rackExceeded m = false := Bool.eq_false_iff.mpr fun hh => hnot ((pair_rackExceeded h).mp hh)
  simp [Work.judgeRack, hrack, htravel]

section

variable {w : Work} {m : MoverId} {a b c d : ChanId} (h : Pair w m a b) (hp : Partners a b c d) {mo : Motion}
  (hm : (w.ch c).motion = some mo) (hc : (w.ch c).driving = true) (hd : (w.ch d).driving = true) (hl : (w.mv m).learn = none)
  {r : Run} (hr : (w.mv m).run = some r)
include h hp hm hc hd hl hr

theorem pair_seatOut : w.seatOut m c =
    (w.setCh c (Safety.stopping { w.ch c with seat := .outSeated } mo .seated .brake w.now)).setMv m
      (seatingMover (w.mv m) r d (w.ch d).pos) := by
  have hstop := Channel.stopWith_of_driving (x := { w.ch c with seat := .outSeated }) hm hc .seated false w.now
  simp only [Work.seatOut, Work.measure_of_none hl, hstop, if_neg Bool.false_ne_true]
  have hdc : ∀ x, (w.setCh c x).ch d = w.ch d := fun x => Work.ch_setCh_ne w c d x (hp.ne h)
  have hafter := pair_afterSeat (w := w.setCh c (Safety.stopping { w.ch c with seat := .outSeated } mo .seated .brake w.now)) (m := m) h hp
    (by rw [Work.ch_setCh_self]; rfl) (by rw [hdc]; exact hd) (r := r) hr
  rw [hdc] at hafter
  exact hafter

omit hl in
/-- The pair after a seat IN of one motor (R17, R47). -/
theorem pair_seatIn (hnear : (w.ch d).known = true → (w.ch d).pos.natAbs ≤ w.profN (0x0260 + m.val)) :
    w.seatIn m c = (((w.setCh c (seatedIn (w.ch c) mo)).askCheckpoint c false).setCh c (Safety.stopping (seatedIn (w.ch c) mo)
      { mo with correction := some (w.ch c).pos } .seated .brake w.now)).setMv m (seatingMover (w.mv m) r d (w.ch d).pos) := by
  have hin : ({ w.ch c with pos := 0, known := true, seat := .inSeated, motion := (w.ch c).motion.map fun mo =>
      { mo with correction := some (w.ch c).pos } } : Machine.Channel) = seatedIn (w.ch c) mo := by rw [hm]; rfl
  have hdrive : (seatedIn (w.ch c) mo).driving = true :=
    (Channel.driving_of_motion (y := seatedIn (w.ch c) mo) hm rfl rfl rfl).trans hc
  have hstop := Channel.stopWith_of_driving (x := seatedIn (w.ch c) mo) rfl hdrive .seated false w.now
  simp only [Work.seatIn, hin]
  obtain ⟨st, he, -, hw⟩ := (w.setCh c (seatedIn (w.ch c) mo)).askCheckpoint_frame c false
  generalize hz : (w.setCh c (seatedIn (w.ch c) mo)).askCheckpoint c false = z at *
  have hch : z.ch c = seatedIn (w.ch c) mo := by rw [he]; exact Work.ch_setCh_self w c _
  have hzd : z.ch d = w.ch d := by rw [he]; exact Work.ch_setCh_ne w c d _ (hp.ne h)
  have hpair : Pair z m a b := by rw [he]; exact h
  have hmv : z.mv m = w.mv m := by rw [he]; rfl
  have hnow : z.now = w.now := by rw [he]; rfl
  have hprof : ∀ i, z.profN i = w.profN i := fun i => by
    rw [he]; simp only [Work.profN, Work.prof, hw]; rfl
  generalize hs : Safety.stopping (seatedIn (w.ch c) mo) { mo with correction := some (w.ch c).pos } .seated .brake w.now = sc at *
  have hscd : sc.driving = false := by rw [← hs]; rfl
  have hsck : sc.known = true := by rw [← hs]; rfl
  have hscp : sc.pos = 0 := by rw [← hs]; rfl
  rw [hch, hnow, hstop, if_neg Bool.false_ne_true, hs]
  have hud : (z.setCh c sc).ch d = w.ch d := (Work.ch_setCh_ne z c d sc (hp.ne h)).trans hzd
  have hafter := pair_afterSeat (w := z.setCh c sc) (m := m) hpair hp (by rw [Work.ch_setCh_self]; exact hscd)
    (by rw [hud]; exact hd) (r := r) (by rw [← hr, ← hmv]; rfl)
  rw [hafter, hud]
  have hmv' : (z.setCh c sc).mv m = w.mv m := hmv
  rw [hmv']
  have hvpair : Pair ((z.setCh c sc).setMv m (seatingMover (w.mv m) r d (w.ch d).pos)) m a b := by
    rw [← hmv]; exact pair_setMv (w := z.setCh c sc) hpair rfl rfl rfl
  have hvmv : ((z.setCh c sc).setMv m (seatingMover (w.mv m) r d (w.ch d).pos)).mv m = seatingMover (w.mv m) r d (w.ch d).pos :=
    Work.mv_setMv_self _ _ _
  have hvc : ((z.setCh c sc).setMv m (seatingMover (w.mv m) r d (w.ch d).pos)).ch c = sc := Work.ch_setCh_self z c sc
  have hvd : ((z.setCh c sc).setMv m (seatingMover (w.mv m) r d (w.ch d).pos)).ch d = w.ch d := hud
  have hvprof : ∀ i, ((z.setCh c sc).setMv m (seatingMover (w.mv m) r d (w.ch d).pos)).profN i = w.profN i := hprof
  generalize (z.setCh c sc).setMv m (seatingMover (w.mv m) r d (w.ch d).pos) = v at *
  refine pair_judgeRack_of_seated hvpair hp (d := d) ?_ ?_ ?_
  · rw [hvmv, hvd]; rfl
  · rw [hvc]; exact hscp
  · rw [hvd, hvprof]; exact hnear

end

end Sys2Proof.Machine
end

