-- ==== Sys2Proof/Proofs/PairLockPolicies.lean ====
section
/-! PROOF. The locks of a pair by their policies, and the second lock of a moment (R28, R48, R51). -/

namespace Sys2Proof.Machine

set_option Elab.async false

open Sys2Proof.Safety

/-! ## The second lock of a moment -/

theorem haltedAt_stopping (x : Machine.Channel) (mo : Motion) {cause : Cause} (b : Bridge) (now : Time)
    (hc : cause = .fault ∨ cause = .positionLost) : (Safety.stopping x mo cause b now).haltedAt now = true := by
  rcases hc with rfl | rfl <;> simp [Channel.haltedAt, Safety.stopping, Channel.stopping]

theorem Channel.haltedAt_of_waiting {x : Machine.Channel} (hm : x.motion.isSome = true) (hs : x.state = .retryWait) (t : Time) :
    x.haltedAt t = true := by
  obtain ⟨mo, hmo⟩ := Option.isSome_iff_exists.mp hm
  simp [Channel.haltedAt, hmo, hs]

theorem SameMotion.haltedAt {x y : Machine.Channel} (h : SameMotion x y) (t : Time) : y.haltedAt t = x.haltedAt t := by
  simp only [Channel.haltedAt, Channel.stopping, h.motion, h.state]

/-- A mover keeps the lock that halted it (R28). -/
def Keeps (x : Mover) (c : ChanId) (a : Policy) (now : Time) : Prop :=
  x.paired = true ∧ ∃ r, x.run = some r ∧ r.lock = some (c, a, now)

theorem lockHeld_keeps {x : Mover} (hp : x.paired = true) (hr : x.run.isSome = true) (c : ChanId) (a : Policy) (now : Time) :
    Keeps (lockHeld x c a now) c a now := by
  obtain ⟨r, hr⟩ := Option.isSome_iff_exists.mp hr
  have h : lockHeld x c a now = { x with run := some { r with lock := some (c, a, now) } } := by
    simp only [lockHeld, hr, hp, if_true]
  rw [h]
  exact ⟨hp, _, rfl, rfl⟩

theorem haltedMover_keeps {x : Mover} (hp : x.paired = true) (hr : x.run.isSome = true) (c : ChanId) (a : Policy) (now : Time)
    (cause : Cause) : Keeps (haltedMover x c a now cause) c a now := by
  obtain ⟨hpair, r, hrun, hlock⟩ := lockHeld_keeps hp hr c a now
  obtain ⟨sa, sb, hc⟩ := claimEnded_form (lockHeld x c a now)
  have h : haltedMover x c a now cause =
      { lockHeld x c a now with claim := none, swIn := sa, swOut := sb, run := some { r with firstCause := some (r.firstCause.getD cause) } } := by
    rw [haltedMover, hc]
    simp only [causeNoted, hrun]
  rw [h]
  exact ⟨hpair, _, rfl, hlock⟩

theorem retryMoverOf_keeps {x : Mover} (hp : x.paired = true) (hr : x.run.isSome = true) (c : ChanId) (k : LockKind) (now : Time) :
    Keeps (retryMoverOf x c k now) c .retry now := by
  have h := lockHeld_keeps hp hr c .retry now
  simp only [retryMoverOf, homingMover]
  repeat' split
  all_goals exact h

theorem Work.raiseLock_of_held {z : Work} {m : MoverId} {c d : ChanId} {a : Policy} (hm : z.moverOf d = some m)
    (hmo : (z.ch d).motion.isSome = true) (hk : Keeps (z.mv m) c a z.now) (hne : c ≠ d) (hh : (z.ch d).haltedAt z.now = true)
    (k : LockKind) : z.raiseLock d k = z.setCh d { z.ch d with lastLock := some (k, a) } := by
  obtain ⟨hp, r, hr, hl⟩ := hk
  obtain ⟨mo, hmo⟩ := Option.isSome_iff_exists.mp hmo
  have hlock : z.partnerLock d = some a := by
    have hcond : ((z.mv m).paired && c != d && z.now == z.now && (z.ch d).haltedAt z.now) = true := by
      simp [hp, hne, hh]
    simp only [Work.partnerLock, hm, hr, Option.bind_some, hl, hcond, if_true]
  simp only [Work.raiseLock, hm, hmo, hlock]

/-! ## A pair that drives -/

theorem sameMotion_notedAt (w : Work) (c : ChanId) (k : LockKind) (p : Policy) (e : ChanId) :
    SameMotion (w.ch e) (lockNoted (w.lossOf c k) c k p e) :=
  (sameMotion_lossOf w c k e).trans (sameMotion_lockNoted (w.lossOf c k) c k p e)

theorem reportedChan_duty (w : Work) (c : ChanId) (k : LockKind) (e : ChanId) : (reportedChan w c k e).duty = (w.ch e).duty := by
  have hl : ((w.lossOf c k).ch e).duty = (w.ch e).duty := by
    rw [Work.lossOf_ch]
    split
    · next h => obtain ⟨-, rfl⟩ := h; rfl
    · rfl
  simp only [reportedChan]
  split
  · next h => obtain ⟨-, -, rfl⟩ := h; exact hl
  · exact hl

theorem Channel.cutDuty_of_driving {x : Machine.Channel} {mo : Motion} (hm : x.motion = some mo) (hd : x.driving = true) (n : Nat) :
    (x.toHoming.cutDuty n).driving = true ∧ (x.toHoming.cutDuty n).duty = min x.duty n ∧
      (x.toHoming.cutDuty n).motion.map (·.profile) = some .homing := by
  rw [Channel.cutHoming_of_driving hm hd]
  refine ⟨Eq.trans ?_ hd, rfl, rfl⟩
  exact Channel.driving_of_motion hm rfl rfl rfl

/-- Both motors of a pair drive, without a learning run. -/
structure PairDrives (w : Work) (m : MoverId) (a b c d : ChanId) (mc md : Motion) : Prop where
  pair : Pair w m a b
  partners : Partners a b c d
  motion : (w.ch c).motion = some mc
  driving : (w.ch c).driving = true
  motion' : (w.ch d).motion = some md
  driving' : (w.ch d).driving = true
  learn : (w.mv m).learn = none

section

variable {w : Work} {m : MoverId} {a b c d : ChanId} {mc md : Motion} (h : PairDrives w m a b c d mc md)
include h

theorem PairDrives.mem_iff (e : ChanId) : e ∈ w.chansOf m ↔ e = c ∨ e = d := by
  rw [pair_chansOf h.pair]
  rcases h.partners with ⟨rfl, rfl⟩ | ⟨rfl, rfl⟩
  · simp
  · simp [or_comm]

theorem PairDrives.locking : Locking w m c mc where
  mover := pair_moverOf h.pair h.partners.left
  motion := h.motion
  driving := h.driving
  learn := h.learn
  nodup := by
    rw [pair_chansOf h.pair]
    exact List.nodup_cons.mpr ⟨by simpa using (pair_ne h.pair).symm, List.nodup_singleton b⟩
  mem := (h.mem_iff c).mpr (.inl rfl)

/-- Each of the two drives. -/
theorem PairDrives.each {e : ChanId} (he : e = c ∨ e = d) : ∃ mo, (w.ch e).motion = some mo ∧ (w.ch e).driving = true ∧
    (mc.dir = md.dir → mo.dir = mc.dir) := by
  rcases he with rfl | rfl
  · exact ⟨mc, h.motion, h.driving, fun _ => rfl⟩
  · exact ⟨md, h.motion', h.driving', fun e => e.symm⟩

theorem PairDrives.not_starting : ∀ e ∈ w.chansOf m, (w.ch e).starting = false := fun e he => by
  obtain ⟨mo, -, hd, -⟩ := h.each ((h.mem_iff e).mp he)
  exact Channel.not_starting_of_driving hd

/-- A latch, at each of the two (R48). -/
theorem PairDrives.latched {k : LockKind} {p : Policy} {coast : Bool} (hl : Latches w c k p coast) {e : ChanId} (he : e = c ∨ e = d) :
    ∃ y mo, (w.raiseLock c k).ch e =
      { Safety.stopping y mo .fault (if coast then .coast else .brake) w.now with fault := some k } := by
  obtain ⟨mo, hm, hd, -⟩ := h.each he
  have hn := sameMotion_notedAt w c k p e
  refine ⟨lockNoted (w.lossOf c k) c k p e, mo, ?_⟩
  rw [(h.locking.latch hl).ch, if_pos ((h.mem_iff e).mpr he), latched_of_driving (hn.motion.trans hm) (hn.driving.trans hd)]

/-- An OUT motion that lost its position stops, at each of the two (R51). -/
theorem PairDrives.stops {u : ChanId → Machine.Channel} (hu : ∀ e, SameMotion (w.ch e) (u e)) {e : ChanId} (he : e = c ∨ e = d) :
    ∃ mo, (u e).stopWith .positionLost false w.now = Safety.stopping (u e) mo .positionLost .brake w.now := by
  obtain ⟨mo, hm, hd, -⟩ := h.each he
  exact ⟨mo, Channel.stopWith_of_driving ((hu e).motion.trans hm) ((hu e).driving.trans hd) .positionLost false w.now⟩

/-- A retry, at each of the two (R24, R48). -/
theorem PairDrives.waits {k : LockKind} (hp : w.policyOf c k = .retry) (hr : (w.ch c).retry < w.retryLimit c)
    (hd : k.lossy = false ∨ mc.dir = .inward) {e : ChanId} (he : e = c ∨ e = d) :
    ((w.raiseLock c k).ch e).state = .retryWait ∧ ((w.raiseLock c k).ch e).duty = 0 ∧ ((w.raiseLock c k).ch e).bridge = .coast ∧
      ((w.raiseLock c k).ch e).retry = (w.ch c).retry + 1 ∧ ((w.raiseLock c k).ch e).retryEnd = some (w.now + w.retryWait c) ∧
      ((w.raiseLock c k).ch e).motion.isSome = true ∧
      (k.lossy = true → ((w.raiseLock c k).ch e).motion.map (·.profile) = some .homing) := by
  obtain ⟨mo, hm, hdr, -⟩ := h.each he
  have hn := sameMotion_notedAt w c k .retry e
  have hmem := (h.mem_iff e).mpr he
  have hy : (retryChan w m c k e).driving = true ∧ (retryChan w m c k e).motion.isSome = true ∧
      (k.lossy = true → (retryChan w m c k e).motion.map (·.profile) = some .homing) := by
    cases hk : k.lossy
    · have heq : retryChan w m c k e = lockNoted (w.lossOf c k) c k .retry e :=
        if_neg fun hh => Bool.false_ne_true (hk.symm.trans hh.1)
      rw [heq]
      exact ⟨hn.driving.trans hdr, by rw [hn.motion, hm]; rfl, fun hh => nomatch hh⟩
    · have heq : retryChan w m c k e = (lockNoted (w.lossOf c k) c k .retry e).toHoming := if_pos ⟨hk, hmem⟩
      rw [heq]
      refine ⟨(Channel.driving_toHoming _).trans (hn.driving.trans hdr), ?_, fun _ => ?_⟩ <;>
        simp only [Channel.toHoming, hn.motion, hm] <;> rfl
  obtain ⟨hyd, hym, hyh⟩ := hy
  rw [(h.locking.retry hp hr hd).ch, if_pos hmem, Channel.suspend_of_driving hyd]
  exact ⟨rfl, rfl, rfl, rfl, rfl, hym, hyh⟩

/-- A lock of a pair whose rooms table is the same halts both; a second lock on the partner is only recorded (R28). -/
theorem PairDrives.second {z : Work} {p : Policy} {x : Mover} {es : List Event} {g : ChanId → Machine.Channel} {k : LockKind}
    (hz : LockEnd (w.lossOf c k) z m x es g) (hchans : x.chans = (w.mv m).chans) (hpres : x.present = (w.mv m).present)
    (hkeeps : Keeps x c p w.now) (hm : (g d).motion.isSome = true) (hh : (g d).haltedAt w.now = true) (k2 : LockKind) :
    z.raiseLock d k2 = z.setCh d { z.ch d with lastLock := some (k2, p) } := by
  have hmover : z.moverOf d = some m := by
    rw [hz.moverOf (by rw [Work.lossOf_mv]; exact hchans) (by rw [Work.lossOf_mv]; exact hpres), Work.lossOf_moverOf]
    exact pair_moverOf h.pair h.partners.right
  have hnow : z.now = w.now := hz.now.trans (w.lossOf_now c k)
  exact Work.raiseLock_of_held hmover (by rw [hz.ch]; exact hm) (by rw [hz.mv, hnow]; exact hkeeps) (h.partners.ne h.pair).symm
    (by rw [hz.ch, hnow]; exact hh) k2

end

end Sys2Proof.Machine
end

