-- ==== Sys2Proof/Proofs/PairedMotors.lean ====
section
/-! PROOF. The two motors of a pair act together (R28, R46, R47, R48, R51). -/

namespace Sys2Proof.Machine

set_option Elab.async false

open Sys2Proof.Safety

section

variable {w : Work} {m : MoverId} {a b c d : ChanId} {mc md : Motion} (h : PairDrives w m a b c d mc md) (k : LockKind)
include h

/-- The positions of a pair after a lock of one motor. -/
theorem PairDrives.known : ((w.raiseLock c k).ch d).known = (w.ch d).known ∧
    ((w.raiseLock c k).ch c).known = if k.lossy then false else (w.ch c).known := by
  have hne : d ≠ c := h.partners.ne h.pair
  refine ⟨?_, ?_⟩
  · rw [(h.locking.placed h.not_starting k d).1, Work.lossOf_ch, if_neg fun hh => hne hh.2]
  · rw [(h.locking.placed h.not_starting k c).1, Work.lossOf_ch]
    cases k.lossy
    · rfl
    · rw [if_pos ⟨rfl, rfl⟩]; rfl

/-- The latch of a pair, with the second lock of the moment. -/
theorem PairDrives.latch_all {p : Policy} {coast : Bool} (hl : Latches w c k p coast) :
    (∀ e, (e = c ∨ e = d) → ((w.raiseLock c k).ch e).stopping = true ∧ ((w.raiseLock c k).ch e).duty = 0 ∧
      ((w.raiseLock c k).ch e).bridge = (if coast then .coast else .brake) ∧ ((w.raiseLock c k).ch e).fault = some k) ∧
    ((w.raiseLock c k).mv m).claim = none ∧ (w.raiseLock c k).events = w.events ++ [.lock c k p (w.ch c).retry] ∧
    ((w.mv m).run.isSome = true → ∀ k2, (w.raiseLock c k).raiseLock d k2 =
      (w.raiseLock c k).setCh d { (w.raiseLock c k).ch d with lastLock := some (k2, p) }) := by
  have hz := h.locking.latch hl
  obtain ⟨hxc, hxl, hxp⟩ := haltedMover_form (w.mv m) c p w.now .fault
  refine ⟨fun e he => ?_, by rw [hz.mv]; exact hxl, by rw [hz.events, Work.lossOf_events], fun hrun k2 => ?_⟩
  · obtain ⟨y, mo, hch⟩ := h.latched hl he
    rw [hch]
    exact ⟨rfl, rfl, rfl, rfl⟩
  · obtain ⟨y, mo, hch⟩ := h.latched hl (.inr rfl)
    rw [hz.ch d] at hch
    refine h.second hz hxc hxp (haltedMover_keeps (pair_paired h.pair) hrun ..) ?_ ?_ k2
    · rw [hch]; rfl
    · rw [hch]
      exact (SameMotion.haltedAt (x := Safety.stopping y mo .fault (if coast then .coast else .brake) w.now) ⟨rfl, rfl⟩ w.now).trans
        (haltedAt_stopping y mo _ w.now (.inl rfl))

/-- The stop of a pair whose OUT motion has lost its position. -/
theorem PairDrives.stop_all {p : Policy} {es : List Event} {u : ChanId → Machine.Channel} (hu : ∀ e, SameMotion (w.ch e) (u e))
    (hz : LockEnd (w.lossOf c k) (w.raiseLock c k) m (haltedMover (w.mv m) c p w.now .positionLost) es fun e =>
      if e ∈ w.chansOf m then (u e).stopWith .positionLost false w.now else u e) :
    (∀ e, (e = c ∨ e = d) → ((w.raiseLock c k).ch e).stopping = true ∧ ((w.raiseLock c k).ch e).duty = 0 ∧
      ((w.raiseLock c k).ch e).bridge = .brake ∧ ((w.raiseLock c k).ch e).motion.bind (·.cause) = some .positionLost) ∧
    ((w.raiseLock c k).mv m).claim = none ∧
    ((w.mv m).run.isSome = true → ∀ k2, (w.raiseLock c k).raiseLock d k2 =
      (w.raiseLock c k).setCh d { (w.raiseLock c k).ch d with lastLock := some (k2, p) }) := by
  obtain ⟨hxc, hxl, hxp⟩ := haltedMover_form (w.mv m) c p w.now .positionLost
  refine ⟨fun e he => ?_, by rw [hz.mv]; exact hxl, fun hrun k2 => ?_⟩
  · obtain ⟨mo, hstop⟩ := h.stops hu he
    rw [hz.ch e, if_pos ((h.mem_iff e).mpr he), hstop]
    exact ⟨rfl, rfl, rfl, rfl⟩
  · obtain ⟨mo, hstop⟩ := h.stops hu (.inr rfl)
    refine h.second hz hxc hxp (haltedMover_keeps (pair_paired h.pair) hrun ..) ?_ ?_ k2
    · rw [if_pos ((h.mem_iff d).mpr (.inr rfl)), hstop]; rfl
    · rw [if_pos ((h.mem_iff d).mpr (.inr rfl)), hstop]
      exact haltedAt_stopping _ mo .brake w.now (.inr rfl)

/-- An OUT motion stops under RETRY, REPORT_ONLY and IGNORE alike (R51). -/
theorem PairDrives.outward {k : LockKind} (hp : w.policyOf c k = .reportOnly ∨ w.policyOf c k = .ignore ∨
      w.policyOf c k = .retry ∧ (w.ch c).retry < w.retryLimit c) (hl : k.lossy = true) (hd : mc.dir = .outward) :
    (∀ e, (e = c ∨ e = d) → ((w.raiseLock c k).ch e).stopping = true ∧ ((w.raiseLock c k).ch e).duty = 0 ∧
      ((w.raiseLock c k).ch e).bridge = .brake ∧ ((w.raiseLock c k).ch e).motion.bind (·.cause) = some .positionLost) ∧
    ((w.raiseLock c k).mv m).claim = none ∧
    ((w.mv m).run.isSome = true → ∀ k2, (w.raiseLock c k).raiseLock d k2 =
      (w.raiseLock c k).setCh d { (w.raiseLock c k).ch d with lastLock := some (k2, w.policyOf c k) }) := by
  rcases hp with hp | hp | ⟨hp, hr⟩
  · exact h.stop_all k (sameMotion_reportedChan w c k) (h.locking.goesOn_outward (.inl hp) hl hd h.not_starting)
  · exact h.stop_all k (sameMotion_reportedChan w c k) (h.locking.goesOn_outward (.inr hp) hl hd h.not_starting)
  · rw [hp]
    exact h.stop_all k (sameMotion_notedAt w c k .retry) (h.locking.lost hl hp hr hd h.not_starting)

/-- A lock that lets both drive on leaves the locking channel driving. -/
theorem PairDrives.drivesOn {k : LockKind} (hp : w.policyOf c k = .reportOnly ∨ w.policyOf c k = .ignore)
    (hd : k.lossy = false ∨ mc.dir = .inward) : ((w.raiseLock c k).ch c).driving = true := by
  have hsame := sameMotion_reportedChan w c k c
  cases hl : k.lossy
  · rw [(h.locking.goesOn_kept hp hl).ch]
    exact hsame.driving.trans h.driving
  · have hdir : mc.dir = .inward := hd.resolve_left (by simp [hl])
    rw [(h.locking.goesOn_inward hp hl hdir).ch, if_pos h.locking.mem]
    exact (Channel.cutDuty_of_driving (hsame.motion.trans h.motion) (hsame.driving.trans h.driving) _).1

/-- Where the first lock halted both, the second one on the partner is recorded with its action (R28). -/
theorem PairDrives.second_lock {k : LockKind} (hrun : (w.mv m).run.isSome = true) (hnc : ((w.raiseLock c k).ch c).driving = false)
    (k2 : LockKind) : (w.raiseLock c k).raiseLock d k2 = (w.raiseLock c k).setCh d { (w.raiseLock c k).ch d with
      lastLock := some (k2, if w.policyOf c k = .retry ∧ w.retryLimit c ≤ (w.ch c).retry then .latchCoast else w.policyOf c k) } := by
  have hgoes (hp : w.policyOf c k = .reportOnly ∨ w.policyOf c k = .ignore) : k.lossy = true ∧ mc.dir = .outward := by
    have hno : ¬ (k.lossy = false ∨ mc.dir = .inward) := fun hd => Bool.false_ne_true (hnc.symm.trans (h.drivesOn hp hd))
    obtain ⟨hl, hd⟩ := not_or.mp hno
    refine ⟨Bool.not_eq_false _ ▸ hl, ?_⟩
    cases hdir : mc.dir
    · rfl
    · exact absurd hdir hd
  cases hp : w.policyOf c k with
  | latchCoast => exact (h.latch_all k (.coast hp)).2.2.2 hrun k2
  | latchBrake => exact (h.latch_all k (.brake hp)).2.2.2 hrun k2
  | reportOnly =>
    obtain ⟨hl, hd⟩ := hgoes (.inl hp)
    have hsecond := (h.outward (.inl hp) hl hd).2.2 hrun k2
    rw [hp] at hsecond
    exact hsecond
  | ignore =>
    obtain ⟨hl, hd⟩ := hgoes (.inr hp)
    have hsecond := (h.outward (.inr (.inl hp)) hl hd).2.2 hrun k2
    rw [hp] at hsecond
    exact hsecond
  | retry =>
    by_cases hr : w.retryLimit c ≤ (w.ch c).retry
    · rw [if_pos ⟨rfl, hr⟩]
      exact (h.latch_all k (.spent hp hr)).2.2.2 hrun k2
    rw [if_neg fun hh => hr hh.2]
    have hlt := Nat.lt_of_not_le hr
    by_cases hd : k.lossy = false ∨ mc.dir = .inward
    · have hz := h.locking.retry hp hlt hd
      obtain ⟨hxc, -, -, hxp⟩ := retryMoverOf_form (w.mv m) c k w.now
      obtain ⟨hstate, -, -, -, -, hmo, -⟩ := h.waits hp hlt hd (.inr rfl)
      rw [hz.ch d] at hstate hmo
      exact h.second hz hxc hxp (retryMoverOf_keeps (pair_paired h.pair) hrun c k w.now) hmo
        (Channel.haltedAt_of_waiting hmo hstate w.now) k2
    · obtain ⟨hl, hd⟩ := not_or.mp hd
      have hout : mc.dir = .outward := by
        cases hdir : mc.dir
        · rfl
        · exact absurd hdir hd
      have hsecond := (h.outward (.inr (.inr ⟨hp, hlt⟩)) (Bool.not_eq_false _ ▸ hl) hout).2.2 hrun k2
      rw [hp] at hsecond
      exact hsecond

end

theorem homingMover_sync {x : Mover} (h : x.paired = true) : (homingMover x).sync = .homing := by
  rw [homingMover, if_pos h]

/-- Settles O52: the count and the rack limit, the seats, and each policy at both motors. -/
theorem pairedMotorsActTogether : Obligations.PairedMotorsActTogether := by
  unfold Obligations.PairedMotorsActTogether
  refine ⟨?_, ?_, ?_⟩
  · intro s m a b c mo e ha h hc hmo hd hu hs w x top pos z apart known hl ht hslow
    have hm := pair_moverOf h hc
    have hpos : w.nextPos c = pos := by
      show countedPos x.pos top x.lastDir = _
      cases h : x.lastDir <;> simp [countedPos, pos, h]
    have hcount := Work.hallCount_of_pair (e := e) hm hu hmo hd hpos hl ht hslow
    have hz : w.pairCounted c pos mo e = z := rfl
    rw [hz] at hcount
    have hch : z.ch c = _ := Work.ch_setCh_self _ c _
    have hzpair : Pair z m a b := h
    have hdr : z.anyCh m Channel.driving = true := by
      refine List.any_eq_true.mpr ⟨c, by rw [pair_chansOf hzpair]; simpa using hc, ?_⟩
      rw [hch]
      refine Eq.trans ?_ hd
      exact Channel.driving_of_motion hmo rfl rfl rfl
    obtain ⟨hrack, hnone⟩ := pair_judgeRack hzpair hdr hs
    have hknown : ∀ d, (z.ch d).known = (w.ch d).known := fun d => by
      by_cases hd : d = c
      · rw [hd, hch]
      · rw [show z.ch d = w.ch d from Work.ch_setCh_ne _ _ _ _ hd]
    have hiff : Apart z m a b ↔ known ∧ apart := by
      simp only [Apart, hknown]; exact Iff.rfl
    exact ⟨fun hk hap => exec_hallCount ha hm (hcount.trans (hrack (hiff.mpr ⟨hk, hap⟩))),
      fun hn => exec_hallCount ha hm (hcount.trans (hnone (mt hiff.mp hn)))⟩
  · intro w m a b ma mb h hma hmb hda hdb hlearn x y racked z
    have hdrives {c d : ChanId} (hp : Partners a b c d) : ∃ mc md, PairDrives w m a b c d mc md ∧
        ∀ dir, ma.dir = dir → mb.dir = dir → mc.dir = dir := by
      rcases hp with ⟨rfl, rfl⟩ | ⟨rfl, rfl⟩
      · exact ⟨ma, mb, ⟨h, .inl ⟨rfl, rfl⟩, hma, hda, hmb, hdb, hlearn⟩, fun _ h _ => h⟩
      · exact ⟨mb, ma, ⟨h, .inr ⟨rfl, rfl⟩, hmb, hdb, hma, hda, hlearn⟩, fun _ _ h => h⟩
    refine ⟨?_, ?_, ?_, ?_⟩
    · have hz := pair_rackLock h hma hmb hda hdb hlearn
      refine ⟨(hz.ch a).trans ?_, (hz.ch b).trans (if_pos rfl), by rw [hz.mv]; rfl, ?_, hz.events⟩
      · rw [if_neg (pair_ne h).symm, if_pos rfl]; rfl
      · rw [hz.mv]
        exact (causeNoted_claim _ _).trans (claimEnded_claim _)
    · intro c d mo r hp hm hr z
      obtain ⟨mc, md, hpd, -⟩ := hdrives hp
      have hz : z = _ := pair_seatOut h hp hm hpd.driving hpd.driving' hlearn hr
      have hmv : z.mv m = _ := (congrArg (Work.mv · m) hz).trans (Work.mv_setMv_self _ _ _)
      refine ⟨?_, ?_, by rw [hmv]; rfl, by rw [hmv]; rfl, by rw [hz]; rfl, by rw [hmv]; rfl⟩
      · rw [hz]; exact Work.ch_setCh_self w c _
      · rw [hz]; exact Work.ch_setCh_ne w c d _ (Partners.ne h hp)
    · intro c d mo r hp hm hr z hnear
      obtain ⟨mc, md, hpd, -⟩ := hdrives hp
      have hz : z = _ := pair_seatIn h hp hm hpd.driving hpd.driving' hr hnear
      have hmv : z.mv m = _ := (congrArg (Work.mv · m) hz).trans (Work.mv_setMv_self _ _ _)
      obtain ⟨st, he, -⟩ := (w.setCh c (seatedIn (w.ch c) mo)).askCheckpoint_frame c false
      refine ⟨?_, ?_, by rw [hmv]; rfl, by rw [hmv]; rfl, ?_, by rw [hmv]; rfl⟩
      · rw [hz]; exact Work.ch_setCh_self _ c _
      · rw [hz]
        refine (Work.ch_setCh_ne _ c d _ (Partners.ne h hp)).trans ?_
        rw [Work.askCheckpoint_ch]
        exact Work.ch_setCh_ne w c d _ (Partners.ne h hp)
      · rw [hz, he]; rfl
    · intro c d k hp z p ends
      obtain ⟨mc, md, hpd, hdir⟩ := hdrives hp
      have hlatch {q : Policy} {coast : Bool} (hl : Latches w c k q coast) := hpd.latch_all k hl
      have hends {q : Policy} {coast : Bool} (hl : Latches w c k q coast) : ends c (if coast then .coast else .brake) ∧
          ends d (if coast then .coast else .brake) ∧ (z.mv m).claim = none ∧ z.events = w.events ++ [.lock c k q (w.ch c).retry] := by
        obtain ⟨he, hcl, hev, -⟩ := hlatch hl
        exact ⟨he c (.inl rfl), he d (.inr rfl), hcl, hev⟩
      refine ⟨(hpd.known k).1, (hpd.known k).2, fun hq => hends (.coast hq), fun hq => hends (.brake hq),
        fun hq hr => hends (.spent hq hr), fun hq hr hd => ?_, fun hq hl => ?_, fun hq hl h1 h2 => ?_, fun hq hl h1 h2 => ?_,
        fun k2 hrun hnc hnd => ?_⟩
      · have hd' : k.lossy = false ∨ mc.dir = .inward := hd.imp id fun ⟨h1, h2⟩ => hdir .inward h1 h2
        have hz := hpd.locking.retry hq hr hd'
        refine ⟨fun e he => ?_, fun hl => ⟨?_, fun e he => ?_⟩, ?_, ?_⟩
        · obtain ⟨h1, h2, h3, h4, h5, -⟩ := hpd.waits hq hr hd' he
          exact ⟨h1, h2, h3, h4, h5⟩
        · rw [hz.mv, retryMoverOf, if_pos hl]
          obtain ⟨q, hx⟩ := lockHeld_form (w.mv m) c .retry w.now
          exact homingMover_sync (by rw [hx]; exact pair_paired h)
        · obtain ⟨-, -, -, -, -, -, h7⟩ := hpd.waits hq hr hd' he
          exact h7 hl
        · rw [hz.mv]; exact (retryMoverOf_form ..).2.2.1
        · rw [hz.events, Work.lossOf_events]
      · have hz := hpd.locking.goesOn_kept hq hl
        have hd : z.ch d = w.ch d := by
          rw [hz.ch, reportedChan, if_neg fun hh => Partners.ne h hp hh.2.2, Work.lossOf_of_kept hl]
        have hcc : (w.lossOf c k).ch c = w.ch c := by rw [Work.lossOf_of_kept hl]
        refine ⟨hd, ?_, ?_, ?_, by rw [hz.mv], by rw [hz.mv]⟩
        · rw [hz.ch]; exact (sameMotion_reportedChan w c k c).motion
        · rw [hz.ch]; exact reportedChan_duty w c k c
        · rw [hz.ch, reportedChan, hcc]; split <;> rfl
      · have hz := hpd.locking.goesOn_inward hq hl (hdir .inward h1 h2)
        refine ⟨fun e he => ?_, by rw [hz.mv]; exact homingMover_sync (pair_paired h), ?_⟩
        · obtain ⟨mo, hm, hd, -⟩ := hpd.each he
          have hsame := sameMotion_reportedChan w c k e
          have he' : e = a ∨ e = b := he.elim (fun x => x ▸ Partners.left hp) fun x => x ▸ Partners.right hp
          have hduty : w.dutyOf e .homing = w.profN (0x0220 + a.val) := pair_motionField h he' _
          have hcut := Channel.cutDuty_of_driving (hsame.motion.trans hm) (hsame.driving.trans hd) (w.profN (0x0220 + a.val))
          rw [reportedChan_duty] at hcut
          rw [hz.ch, if_pos ((hpd.mem_iff e).mpr he), hduty]
          exact hcut
        · rw [hz.mv, homingMover]; split <;> rfl
      · exact ⟨(hpd.outward hq hl (hdir .outward h1 h2)).1, (hpd.outward hq hl (hdir .outward h1 h2)).2.1⟩
      · exact hpd.second_lock hrun hnc k2
  · intro w m a b c mo k h hc hm hd hdir hl hp z
    have hraise : Raising w m c mo := {
      mover := pair_moverOf h hc, motion := hm, driving := hd
      nodup := by
        rw [pair_chansOf h]
        exact List.nodup_cons.mpr ⟨by simpa using (pair_ne h).symm, List.nodup_singleton b⟩
      mem := by rw [pair_chansOf h]; simpa using hc }
    have hz := hraise.goesOn_inward hp hl hdir
    have hsame := sameMotion_reportedChan w c k c
    have hplaced := placed_reportedChan w c k c
    have hcut := Channel.cutDuty_of_driving (hsame.motion.trans hm) (hsame.driving.trans hd) (w.dutyOf c .homing)
    have hcp := (placed_homing (reportedChan w c k c)).trans (placed_cutDuty _ (w.dutyOf c .homing))
    have hch : z.ch c = _ := (hz.ch c).trans (if_pos hraise.mem)
    rw [Work.lossOf_ch, if_pos ⟨hl, rfl⟩] at hplaced
    have hpl := hplaced.trans hcp
    rw [hch]
    refine ⟨hcut.1, hpl.1, hpl.2.2, ?_, hcut.2.2, by rw [hz.mv]; exact homingMover_sync (pair_paired h)⟩
    rw [hcut.2.1, reportedChan_duty]
    exact congrArg (min (w.ch c).duty) (pair_motionField h hc _)

end Sys2Proof.Machine
end

