-- ==== Sys2Proof/Proofs/SwitchPresses.lean ====
section
/-! PROOF. The debounced press and release of a panel switch (R40..R43, R122, R123, R129). -/

namespace Sys2Proof.Machine

set_option Elab.async false

open Sys2Proof.Safety

/-! ## A switch that reads pressed -/

/-- The work whose switch has the debounced level pressed. -/
def Work.pressed (w : Work) (m : MoverId) (d : Dir) : Work :=
  w.setMv m ((w.mv m).setSwitch d { (w.mv m).switch d with pressed := true, count := 0 })

section pressed

variable (w : Work) (m : MoverId) (d : Dir)

theorem Work.pressed_mv : (w.pressed m d).mv m = (w.mv m).setSwitch d { (w.mv m).switch d with pressed := true, count := 0 } :=
  Work.mv_setMv_self _ _ _

/-- A field of a mover that no switch is part of. -/
theorem Work.pressed_keeps {α : Type} (f : Mover → α) (h : ∀ (x : Mover) s, f (x.setSwitch d s) = f x) (n : MoverId) :
    f ((w.pressed m d).mv n) = f (w.mv n) := by
  by_cases hn : n = m
  · subst hn; rw [Work.pressed_mv, h]
  · rw [show (w.pressed m d).mv n = w.mv n from Work.mv_setMv_ne _ _ _ _ hn]

variable (n : MoverId)

@[simp] theorem Work.pressed_claim : ((w.pressed m d).mv n).claim = (w.mv n).claim :=
  w.pressed_keeps m d Mover.claim (by intros; cases d <;> rfl) n
@[simp] theorem Work.pressed_learn : ((w.pressed m d).mv n).learn = (w.mv n).learn :=
  w.pressed_keeps m d Mover.learn (by intros; cases d <;> rfl) n
@[simp] theorem Work.pressed_run : ((w.pressed m d).mv n).run = (w.mv n).run :=
  w.pressed_keeps m d Mover.run (by intros; cases d <;> rfl) n
@[simp] theorem Work.pressed_pendRev : ((w.pressed m d).mv n).pendRev = (w.mv n).pendRev :=
  w.pressed_keeps m d Mover.pendRev (by intros; cases d <;> rfl) n
@[simp] theorem Work.pressed_pendRetract : ((w.pressed m d).mv n).pendRetract = (w.mv n).pendRetract :=
  w.pressed_keeps m d Mover.pendRetract (by intros; cases d <;> rfl) n
@[simp] theorem Work.pressed_dwellEnd : ((w.pressed m d).mv n).dwellEnd = (w.mv n).dwellEnd :=
  w.pressed_keeps m d Mover.dwellEnd (by intros; cases d <;> rfl) n
@[simp] theorem Work.pressed_present : ((w.pressed m d).mv n).present = (w.mv n).present :=
  w.pressed_keeps m d Mover.present (by intros; cases d <;> rfl) n
@[simp] theorem Work.pressed_paired : ((w.pressed m d).mv n).paired = (w.mv n).paired :=
  w.pressed_keeps m d Mover.paired (by intros; cases d <;> rfl) n
@[simp] theorem Work.pressed_chans : ((w.pressed m d).mv n).chans = (w.mv n).chans :=
  w.pressed_keeps m d Mover.chans (by intros; cases d <;> rfl) n

@[simp] theorem Work.pressed_chansOf : (w.pressed m d).chansOf n = w.chansOf n := w.pressed_chans m d n
@[simp] theorem Work.pressed_anyCh (p : Machine.Channel → Bool) : (w.pressed m d).anyCh n p = w.anyCh n p := by
  simp only [Work.anyCh, Work.pressed_chansOf]; rfl
@[simp] theorem Work.pressed_known : (w.pressed m d).known n = w.known n := by
  simp only [Work.known, Work.allCh, Work.pressed_chansOf]; rfl
@[simp] theorem Work.pressed_isQueued (t : Fin 6) : (w.pressed m d).isQueued t = w.isQueued t := rfl
@[simp] theorem Work.pressed_stopDwell : (w.pressed m d).stopDwell = w.stopDwell := rfl
@[simp] theorem Work.pressed_activity : (w.pressed m d).activity n = w.activity n := by
  simp only [Work.activity, Work.pressed_anyCh, Work.pressed_run, Work.pressed_dwellEnd]; rfl
@[simp] theorem Work.pressed_holdsRetract : (w.pressed m d).holdsRetract = w.holdsRetract := by
  simp only [Work.holdsRetract, Work.pressed_pendRetract, Work.pressed_claim]
@[simp] theorem Work.pressed_neighbour : (w.pressed m d).neighbour = w.neighbour := by
  simp only [Work.neighbour, Work.pressed_present]; rfl
@[simp] theorem Work.pressed_conflict : (w.pressed m d).conflict n = w.conflict n := by
  simp only [Work.conflict, Work.pressed_neighbour, Work.pressed_activity, Work.pressed_present, Work.pressed_pendRetract]
@[simp] theorem Work.pressed_moverDraw : (w.pressed m d).moverDraw n = w.moverDraw n := by
  simp only [Work.moverDraw, Work.pressed_paired]; rfl
@[simp] theorem Work.pressed_seatOf : (w.pressed m d).seatOf n = w.seatOf n := by
  simp only [Work.seatOf, Work.allCh, Work.pressed_chansOf]; rfl
@[simp] theorem Work.pressed_atEnd (e : Dir) : (w.pressed m d).atEnd n e = w.atEnd n e := by
  cases e <;> simp only [Work.atEnd, Work.isIn, Work.pressed_seatOf, Work.pressed_known]
theorem Work.pressed_cleared (e : Dir) : Cleared (w.pressed m d) n e ↔ Cleared w n e := by
  simp only [Cleared, Work.fenced, Work.faulted, Work.pressed_anyCh, Work.pressed_known, Work.pressed_conflict]
  exact Iff.rfl
theorem Work.pressed_profileOf : profileOf (w.pressed m d) n = profileOf w n := by
  simp only [profileOf, Work.pressed_known]
theorem Work.pressed_entryOf (c : Claim) : entryOf (w.pressed m d) n c = entryOf w n c := by
  simp only [entryOf, Work.pressed_moverDraw]; rfl
end pressed

/-! ## Refusals -/

theorem lowestBlocking_eq_none {inh : BitVec 16} {c : MoveClass} (h : lowestBlocking inh [c] = none) :
    inh &&& c.mask = 0 := by
  simp only [lowestBlocking, List.find?_eq_none, List.mem_range] at h
  refine BitVec.eq_of_getLsbD_eq fun k hk => ?_
  have := h k hk
  simpa [BitVec.getLsbD_and] using this

/-- What no check refuses has passed them all. -/
theorem Work.cleared_of_none {w : Work} {m : MoverId} {d : Dir} (h : w.claimRefusal m d true [moveClass m d] = none) :
    Cleared w m d := by
  have hf : w.fenced m = false := Bool.eq_false_iff.mpr fun hh => nomatch (Work.claimRefusal_of_fenced hh).symm.trans h
  have hx : w.faulted m = false := Bool.eq_false_iff.mpr fun hh => nomatch (Work.claimRefusal_of_faulted hf hh).symm.trans h
  have hk : (true && d == .outward && !w.known m) = false :=
    Bool.eq_false_iff.mpr fun hh => nomatch (Work.claimRefusal_of_unknown hf hx hh).symm.trans h
  rw [Work.claimRefusal_of_sound hf hx hk] at h
  have hb : ¬ w.hydBlocks = true := fun hh => by rw [if_pos hh] at h; cases h
  rw [if_neg hb] at h
  have hi : lowestBlocking w.inh [moveClass m d] = none := by
    cases hi : lowestBlocking w.inh [moveClass m d]
    · rfl
    · rw [hi] at h; cases h
  rw [hi] at h
  have hc : ¬ w.conflict m = true := fun hh => by simp [hh] at h
  rw [Work.hydBlocks_eq_true] at hb
  refine ⟨hf, hx, ?_, not_not.mp fun hh => hb (.inl hh), fun ha => ?_, lowestBlocking_eq_none hi, Bool.eq_false_iff.mpr hc⟩
  · rintro rfl
    simpa using hk
  · obtain ⟨a, e, k⟩ := Option.map_eq_some_iff.mp ha
    exact hb (.inr ⟨a, e, k⟩)

/-- No check of R32 answers that the claim was kept. -/
theorem Work.claimRefusal_not_kept {w : Work} {m : MoverId} {d : Dir} {b : Bool} {cs : List MoveClass} {r : Reply}
    (h : w.claimRefusal m d b cs = some r) : r.keepsSwitch = false := by
  simp only [Work.claimRefusal] at h
  repeat' split at h
  all_goals first | (obtain rfl := Option.some.inj h; rfl) | cases h

/-! ## The claim of a press -/

theorem Work.settlingStage_eq (w : Work) : w.settlingStage = true ↔ w.stage = .settling := by
  simp [Work.settlingStage]

section claim

variable {w : Work} {m : MoverId} {d : Dir}

theorem Work.pressClaim_of_bar (h : w.mode = .unconfigured ∨ w.stage = .settling ∨ (w.mv m).present = false) :
    w.pressClaim m d = w.spend m d := by
  rw [← Work.settlingStage_eq] at h
  exact if_pos h

/-- A press at a mover in use, by what its claim comes to. -/
theorem Work.pressClaim_of {z : Work} {r : Reply} (hm : w.mode ≠ .unconfigured) (hs : w.stage = .complete)
    (hp : (w.mv m).present = true) (h : w.claimMove m .panel d = (z, r)) :
    w.pressClaim m d = if r.keepsSwitch then z else z.spend m d := by
  have hbar : ¬ (w.mode = .unconfigured ∨ w.settlingStage = true ∨ (w.mv m).present = false) := by
    simp [hm, Work.settlingStage_eq, hs, hp]
  rw [Work.pressClaim, if_neg hbar, h]

theorem Work.claimMove_panel_free (hf : Free w m) : w.claimMove m .panel d = w.claimFrom3 m .panel d none := by
  obtain ⟨-, hidle, hrev, hlearn, hret⟩ := hf
  simp only [Work.claimMove, retract_of_none hret, hlearn, hidle, hrev]
  rfl

theorem Work.claimMove_panel_busy (hl : (w.mv m).learn = none) (hr : m = awn → w.holdsRetract = none)
    (h : w.activity m ≠ .idle ∨ (w.mv m).pendRev.isSome = true) : w.claimMove m .panel d = w.contend m .panel d := by
  have hidle : ¬ (w.activity m = .idle ∧ (w.mv m).pendRev = none) := by
    rintro ⟨h1, h2⟩
    rcases h with h | h
    · exact h h1
    · simp [h2] at h
  simp only [Work.claimMove, retract_of_none hr, hl, if_neg hidle]
  rfl

theorem Work.newClaim_panel (w : Work) (m : MoverId) (d : Dir) : w.newClaim m .panel d none = claimOf w m .panel d := by
  rw [Work.newClaim_eq]
  simp only [claimOf]
  split <;> simp

theorem Work.contendStopping_panel (w : Work) (m : MoverId) (d : Dir) :
    w.contendStopping m .panel d = (w, replyBusy .stopping) := by
  simp only [Work.contendStopping]
  split
  · exact if_neg fun h => nomatch h.2.2
  · rfl

theorem Work.contend_panel_hold {c : Claim} (hc : (w.mv m).claim = some c) (hk : c.kind = .move ∨ c.kind = .hold) :
    w.contend m .panel d = if c.dir = d ∧ c.source = .panel then (w, replyRenewed)
      else if w.activity m = .retryWait then (w, replyBusy .stopping)
      else if c.dir = d then (w, replyHeld)
      else w.reverse m .panel d := by
  rcases hk with hk | hk <;> simp only [Work.contend, hc, hk] <;> rfl

end claim

/-! ## The reversal of a press -/

theorem Mover.setSwitch_setSwitch (x : Mover) (d : Dir) (s t : Switch) : (x.setSwitch d s).setSwitch d t = x.setSwitch d t := by
  cases d <;> rfl

theorem Mover.switch_setSwitch (x : Mover) (d : Dir) (s : Switch) : (x.setSwitch d s).switch d = s := by cases d <;> rfl

theorem Work.spend_spend (w : Work) (m : MoverId) (d : Dir) : (w.spend m d).spend m d = w.spend m d := by
  simp only [Work.spend, Work.mv_setMv_self, Work.setMv_setMv, Mover.setSwitch_setSwitch, Mover.switch_setSwitch]

section reverse

variable {w : Work} {m : MoverId} {d : Dir}

theorem Work.reverse_panel_stopOnly (h : w.stopDwell = false) :
    w.reverse m .panel d = ((w.haltMover m .reversed).spend m d, replyDone) := by
  simp only [Work.reverse, h]; rfl

theorem Work.reverse_panel_stopDwell (h : w.stopDwell = true) (hq : w.isQueued (moverTarget m) = false) :
    w.reverse m .panel d = ((w.setMv m { w.mv m with
        run := (w.mv m).run.map fun (r : Run) => { r with dwellAfter := true },
        pendRev := some { source := .panel, dir := d, lease := none } }).haltMover m .reversed, replyAccepted) := by
  have hm : (w.markDwell m).setMv m { (w.markDwell m).mv m with
      pendRev := some { source := .panel, dir := d, lease := (w.markDwell m).leaseFor .panel } } =
      w.setMv m { w.mv m with
        run := (w.mv m).run.map fun (r : Run) => { r with dwellAfter := true },
        pendRev := some { source := .panel, dir := d, lease := none } } := by
    simp only [Work.markDwell, Work.mv_setMv_self, Work.setMv_setMv]; rfl
  simp only [Work.reverse, h, hq, hm, if_true, Bool.false_eq_true, if_false]
  exact congrArg (·, replyAccepted) (Work.haltMover_of_not_queued (w := w.setMv m _) hq .reversed).symm

theorem Work.reverse_panel_queued (h : w.stopDwell = true) (hq : w.isQueued (moverTarget m) = true) :
    w.reverse m .panel d = ((w.haltMover m .reversed).judgeHead).claimFrom3 m .panel d none := by
  rw [Work.haltMover_of_queued hq]
  simp only [Work.reverse, h, hq]; rfl

end reverse

/-! ## The two commands -/

theorem exec_pressOf (s : State) (m : MoverId) (d : Dir) : exec (pressOf m d) s = .next (event s fun w => w.press m d) := by
  by_cases h : m.val < 4
  · rw [show pressOf m d = .panelPress ⟨m.val, h⟩ d from dif_pos h]; rfl
  · have hm : m = awn := Fin.ext (by have := m.isLt; show m.val = 4; omega)
    subst hm; rfl

theorem exec_releaseOf (s : State) (m : MoverId) (d : Dir) :
    exec (releaseOf m d) s = .next (event s fun w => w.unpress m d) := by
  by_cases h : m.val < 4
  · rw [show releaseOf m d = .panelRelease ⟨m.val, h⟩ d from dif_pos h]; rfl
  · have hm : m = awn := Fin.ext (by have := m.isLt; show m.val = 4; omega)
    subst hm; rfl

/-- A press that is taken, by what its switch comes to. -/
theorem exec_pressOf_of {s : State} {m : MoverId} {d : Dir} {z : Work} (ha : s.work.awake = true)
    (hs : ((s.work.mv m).switch d).settled = true) (hp : ((s.work.mv m).switch d).pressed = false)
    (h : (s.work.toActive.showSwitch m d true).pressSwitch m d = z) : exec (pressOf m d) s = .next (finish s z none) := by
  refine exec_of_event ha (exec_pressOf s m d) ?_
  simp only [Work.press, hs, hp]
  exact h

theorem Work.pressSwitch_eq (w : Work) (m : MoverId) (d : Dir) : w.pressSwitch m d =
    if ((w.mv m).switch d.flip).pressed then (w.pressed m d).bothPressed m
    else if ((w.mv m).switch d).spent then w.pressed m d
    else (w.pressed m d).pressClaim m d := rfl

theorem Work.bothPressed_of_none {w : Work} {m : MoverId} {y : Mover} (hr : m = awn → w.holdsRetract = none)
    (hy : { w.mv m with swIn := { (w.mv m).swIn with spent := true }, swOut := { (w.mv m).swOut with spent := true }, pendRev := none } = y) :
    w.bothPressed m = (w.setMv m y).haltMover m .stopped := by
  subst hy
  have hr' (e : m = awn) : (w.setMv m { w.mv m with
      swIn := { (w.mv m).swIn with spent := true }, swOut := { (w.mv m).swOut with spent := true }, pendRev := none }).holdsRetract = none := by
    subst e
    rw [← hr rfl]
    simp only [Work.holdsRetract, Work.mv_setMv_self]
  simp only [Work.bothPressed, retract_of_none hr']

theorem Work.bothPressed_of_some {w : Work} {y : Mover} {p : Purpose} (hr : w.holdsRetract = some p)
    (hy : { w.mv awn with swIn := { (w.mv awn).swIn with spent := true }, swOut := { (w.mv awn).swOut with spent := true }, pendRev := none } = y) :
    w.bothPressed awn = match p with
      | .wind => w.setMv awn y
      | .travel => withoutTravel (w.setMv awn y) := by
  subst hy
  have hr' : (w.setMv awn { w.mv awn with
      swIn := { (w.mv awn).swIn with spent := true }, swOut := { (w.mv awn).swOut with spent := true }, pendRev := none }).holdsRetract = some p := by
    rw [← hr]
    simp only [Work.holdsRetract, Work.mv_setMv_self]
  simp only [Work.bothPressed, if_true, hr']
  cases p
  · rfl
  · exact Work.stopRetract_stopped _

end Sys2Proof.Machine
end

