-- ==== Sys2Proof/Proofs/PanelSwitches.lean ====
section
/-! PROOF. What a press and a release of a panel switch come to (R40..R43, R122, R123, R129). -/

namespace Sys2Proof.Machine

set_option Elab.async false

open Sys2Proof.Safety

section press

variable {w : Work} {m : MoverId} {d : Dir}

/-- A press at a mover in use whose claim is kept. -/
theorem Work.pressSwitch_of_kept {z : Work} {r : Reply} (ho : ((w.mv m).switch d.flip).pressed = false)
    (hs : ((w.mv m).switch d).spent = false) (hm : w.mode ≠ .unconfigured) (hc : w.stage = .complete)
    (hp : (w.mv m).present = true) (h : (w.pressed m d).claimMove m .panel d = (z, r)) (hk : r.keepsSwitch = true) :
    w.pressSwitch m d = z := by
  rw [Work.pressSwitch_eq, ho, hs]
  refine (Work.pressClaim_of (w := w.pressed m d) hm hc ((w.pressed_present m d m).trans hp) h).trans (if_pos hk)

/-- A press at a mover in use whose claim is not kept. -/
theorem Work.pressSwitch_of_spent {z : Work} {r : Reply} (ho : ((w.mv m).switch d.flip).pressed = false)
    (hs : ((w.mv m).switch d).spent = false) (hm : w.mode ≠ .unconfigured) (hc : w.stage = .complete)
    (hp : (w.mv m).present = true) (h : (w.pressed m d).claimMove m .panel d = (z, r)) (hk : r.keepsSwitch = false) :
    w.pressSwitch m d = z.spend m d := by
  rw [Work.pressSwitch_eq, ho, hs]
  refine (Work.pressClaim_of (w := w.pressed m d) hm hc ((w.pressed_present m d m).trans hp) h).trans (if_neg ?_)
  rw [hk]; exact Bool.false_ne_true

theorem Work.pressed_free : Free (w.pressed m d) m ↔ Free w m := by
  simp only [Free, Work.pressed_present, Work.pressed_activity, Work.pressed_pendRev, Work.pressed_learn,
    Work.pressed_holdsRetract]

theorem Work.pressed_claimed (c : Claim) : (w.pressed m d).claimed m c =
    w.setMv m { (w.mv m).setSwitch d { (w.mv m).switch d with pressed := true, count := 0 } with claim := some c } := by
  rw [Work.claimed, Work.pressed_mv, Work.pressed, Work.setMv_setMv]

/-- The claim of a press that no check refuses (R41). -/
theorem Work.pressed_claim_of_cleared (hf : Free w m) (hc : Cleared w m d) (he : w.atEnd m d = false) :
    (w.pressed m d).claimMove m .panel d = (w.pressed m d).presentClaim m (claimOf w m .panel d) none := by
  rw [Work.claimMove_panel_free (Work.pressed_free.mpr hf),
    Work.claimFrom3_of_cleared ((w.pressed_cleared m d m d).mpr hc), Work.pressed_atEnd, he, Work.newClaim_panel]
  rfl

/-- A claim that a check refuses, or that finds its end reached, is not kept. -/
theorem Work.pressed_claim_of_refused (hf : Free w m) (h : ¬ Cleared w m d ∨ w.atEnd m d = true) :
    ∃ r : Reply, (w.pressed m d).claimMove m .panel d = (w.pressed m d, r) ∧ r.keepsSwitch = false := by
  rw [Work.claimMove_panel_free (Work.pressed_free.mpr hf)]
  cases hr : (w.pressed m d).claimRefusal m d true [moveClass m d] with
  | some r => exact ⟨r, Work.claimFrom3_of_refusal hr _ _, Work.claimRefusal_not_kept hr⟩
  | none =>
    have hc := Work.cleared_of_none hr
    have he : w.atEnd m d = true := h.resolve_left fun hn => hn ((w.pressed_cleared m d m d).mp hc)
    refine ⟨replyDone, ?_, rfl⟩
    rw [Work.claimFrom3_of_cleared hc, Work.pressed_atEnd, he]; rfl

/-- A press against a claim under STOP_DWELL: the reversal it leaves pending. -/
theorem Work.pressed_reversal : (w.pressed m d).setMv m { (w.pressed m d).mv m with
      run := ((w.pressed m d).mv m).run.map fun (r : Run) => { r with dwellAfter := true },
      pendRev := some { source := .panel, dir := d, lease := none } } =
    (let y : Mover := (w.mv m).setSwitch d { (w.mv m).switch d with pressed := true, count := 0 }
     w.setMv m { y with
      run := y.run.map fun (r : Run) => { r with dwellAfter := true },
      pendRev := some { source := .panel, dir := d, lease := none } }) := by
  rw [Work.pressed_mv, Work.pressed, Work.setMv_setMv]

theorem Work.pressSwitch_of_reverse (ho : ((w.mv m).switch d.flip).pressed = false)
    (hs : ((w.mv m).switch d).spent = false) (hm : w.mode ≠ .unconfigured) (hc : w.stage = .complete)
    (hp : (w.mv m).present = true) (h : (w.pressed m d).claimMove m .panel d = (w.pressed m d).reverse m .panel d) :
    (w.stopDwell = false → w.pressSwitch m d = ((w.pressed m d).haltMover m .reversed).spend m d) ∧
    (w.stopDwell = true → w.isQueued (moverTarget m) = false → w.pressSwitch m d =
      ((w.pressed m d).setMv m { (w.pressed m d).mv m with
        run := ((w.pressed m d).mv m).run.map fun (r : Run) => { r with dwellAfter := true },
        pendRev := some { source := .panel, dir := d, lease := none } }).haltMover m .reversed) ∧
    (w.stopDwell = true → w.isQueued (moverTarget m) = true →
      let z := (((w.pressed m d).haltMover m .reversed).judgeHead).claimFrom3 m .panel d none
      w.pressSwitch m d = if z.2.status = .accepted ∨ z.2.status = .queued then z.1 else z.1.spend m d) := by
  refine ⟨fun hw => ?_, fun hw hq => ?_, fun hw hq => ?_⟩
  · rw [Work.pressSwitch_of_spent ho hs hm hc hp (h.trans (Work.reverse_panel_stopOnly hw)) rfl, Work.spend_spend]
  · exact Work.pressSwitch_of_kept ho hs hm hc hp (h.trans (Work.reverse_panel_stopDwell hw hq)) rfl
  · have hgo := h.trans (Work.reverse_panel_queued hw hq)
    intro z
    have hk := keepsSwitch_iff (Work.claimFrom3_not_renewed (((w.pressed m d).haltMover m .reversed).judgeHead) m .panel d none)
    split
    · next hz => exact Work.pressSwitch_of_kept ho hs hm hc hp hgo (hk.mpr hz)
    · next hz => exact Work.pressSwitch_of_spent ho hs hm hc hp hgo (Bool.eq_false_iff.mpr fun h => hz (hk.mp h))

end press

/-- The mover once a switch of it is released: the pending reversal of the switch is gone with it (R42). -/
def Mover.unpressed (x : Mover) (d : Dir) : Mover :=
  { x.setSwitch d { x.switch d with pressed := false, spent := false, count := 0 } with
    pendRev := x.pendRev.filter fun r => !(r.source == .panel && r.dir == d) }

theorem Mover.unpressed_eq (x : Mover) (d : Dir) (held : Bool)
    (h : held = match (x.setSwitch d { x.switch d with pressed := false, spent := false, count := 0 }).pendRev with
      | some r => r.source == .panel && r.dir == d | none => false) :
    (if held then { x.setSwitch d { x.switch d with pressed := false, spent := false, count := 0 } with pendRev := none }
      else x.setSwitch d { x.switch d with pressed := false, spent := false, count := 0 }) = x.unpressed d := by
  subst h
  obtain ⟨present, leader, follower, claim, pendRev, holdOff, dwellEnd, sync, learn, pendRetract, run, swIn, swOut⟩ := x
  rcases pendRev with - | r
  · cases d <;> rfl
  · cases d
    · cases hb : r.source == .panel && r.dir == .outward <;>
        simp [Mover.setSwitch, Mover.switch, Mover.unpressed, Option.filter, hb]
    · cases hb : r.source == .panel && r.dir == .inward <;>
        simp [Mover.setSwitch, Mover.switch, Mover.unpressed, Option.filter, hb]

theorem Work.releaseSwitch_eq (w : Work) (m : MoverId) (d : Dir) : w.releaseSwitch m d =
    match (w.mv m).claim with
    | some c => if c.source = .panel ∧ c.dir = d ∧ c.kind ≠ .oneTouch
        then (w.setMv m ((w.mv m).unpressed d)).haltMover m .released else w.setMv m ((w.mv m).unpressed d)
    | none => w.setMv m ((w.mv m).unpressed d) := by
  rw [← Mover.unpressed_eq (w.mv m) d _ rfl]
  have hc : ((w.mv m).setSwitch d { (w.mv m).switch d with pressed := false, spent := false, count := 0 }).claim =
      (w.mv m).claim := by cases d <;> rfl
  rw [← hc]
  rfl

/-- Settles O55: a press by the order of `claimMove`, a release by the claim it held. -/
theorem panelSwitchesClaimAndStop : Obligations.PanelSwitchesClaimAndStop := by
  unfold Obligations.PanelSwitchesClaimAndStop
  intro s m d ha
  refine ⟨?_, ?_⟩
  · intro w x sw y w1 spent gives hset hrel
    have hmv : (s.work.mv m) = x := (s.work.toActive_mv m).symm
    have hgives {z : Work} (h : w.pressSwitch m d = z) : gives z :=
      exec_pressOf_of ha (by rw [hmv]; exact hset) (by rw [hmv]; exact hrel) h
    have hkept {z : Work} {r : Reply} (ho : (x.switch d.flip).pressed = false) (hs : sw.spent = false)
        (hm : w.mode ≠ .unconfigured) (hst : w.stage = .complete) (hp : x.present = true)
        (h : (w.pressed m d).claimMove m .panel d = (z, r)) (hk : r.keepsSwitch = true) :
        gives z := hgives (Work.pressSwitch_of_kept ho hs hm hst hp h hk)
    have hspent {z : Work} {r : Reply} (ho : (x.switch d.flip).pressed = false) (hs : sw.spent = false)
        (hm : w.mode ≠ .unconfigured) (hst : w.stage = .complete) (hp : x.present = true)
        (h : (w.pressed m d).claimMove m .panel d = (z, r)) (hk : r.keepsSwitch = false) :
        gives (z.spend m d) := hgives (Work.pressSwitch_of_spent ho hs hm hst hp h hk)
    have hcontend (hl : x.learn = none) (hr : m = awn → w.holdsRetract = none)
        (hbusy : w.activity m ≠ .idle ∨ x.pendRev.isSome = true) :
        (w.pressed m d).claimMove m .panel d = (w.pressed m d).contend m .panel d :=
      Work.claimMove_panel_busy ((w.pressed_learn m d m).trans hl) (fun e => (w.pressed_holdsRetract m d).trans (hr e))
        (hbusy.imp (fun h => by rw [Work.pressed_activity]; exact h) fun h => by rw [Work.pressed_pendRev]; exact h)
    refine ⟨fun ho => ?_, fun ho hs => hgives ?_, fun ho hs => ⟨fun hb => hgives ?_, fun hm hst hp => ⟨fun hf => ?_, ?_,
      fun hl hr hbusy => ⟨fun hc => ?_, fun c hc => ?_⟩⟩⟩⟩
    · have hb {z : Work} (h : (w.pressed m d).bothPressed m = z) : gives z :=
        hgives ((w.pressSwitch_eq m d).trans ((if_pos ho).trans h))
      intro both
      have hboth : (w.pressed m d).setMv m { (w.pressed m d).mv m with
          swIn := { ((w.pressed m d).mv m).swIn with spent := true },
          swOut := { ((w.pressed m d).mv m).swOut with spent := true }, pendRev := none } = both := by
        rw [Work.pressed_mv]; exact w.setMv_setMv m _ _
      refine ⟨fun hr => hb ?_, fun hm hr => hb ?_, fun hm hr => hb ?_⟩
      · refine (Work.bothPressed_of_none (fun e => (w.pressed_holdsRetract m d).trans (hr e)) rfl).trans ?_
        rw [hboth]
      · subst hm
        exact (Work.bothPressed_of_some ((w.pressed_holdsRetract awn d).trans hr) rfl).trans hboth
      · subst hm
        exact (Work.bothPressed_of_some ((w.pressed_holdsRetract awn d).trans hr) rfl).trans (congrArg withoutTravel hboth)
    · rw [Work.pressSwitch_eq, if_neg (by rw [show w.mv m = x from rfl, ho]; exact Bool.false_ne_true), if_pos hs]; rfl
    · rw [Work.pressSwitch_eq, show w.mv m = x from rfl, ho, show x.switch d = sw from rfl, hs]
      exact Work.pressClaim_of_bar (w := w.pressed m d) (hb.imp id (.imp id ((w.pressed_present m d m).trans)))
    · intro c claims
      have hclaims : (w.pressed m d).claimed m c = claims := Work.pressed_claimed c
      have hlearn : ((w.pressed m d).mv m).learn = none := (w.pressed_learn m d m).trans hf.2.2.2.1
      refine ⟨fun hc he => ?_, fun h => ?_⟩
      · have hgo := Work.pressed_claim_of_cleared hf hc he
        refine ⟨fun hfit => ?_, fun hfit hroom => ?_, fun hfit hroom => ?_⟩
        · have hgo := hgo.trans (Work.presentClaim_of_fits hlearn c (by rw [Work.pressed_moverDraw]; exact hfit))
          rw [claimOf_source, claimOf_dir, Work.pressed_moverDraw, Work.pressed_profileOf, hclaims] at hgo
          exact hkept ho hs hm hst hp hgo rfl
        · have hgo := hgo.trans (Work.presentClaim_of_room hlearn c (by rw [Work.pressed_moverDraw]; exact hfit) hroom)
          rw [Work.pressed_entryOf, hclaims] at hgo
          exact hkept ho hs hm hst hp hgo rfl
        · exact hspent ho hs hm hst hp (hgo.trans
            (Work.presentClaim_of_full hlearn c (by rw [Work.pressed_moverDraw]; exact hfit) hroom)) rfl
      · obtain ⟨r, h1, h2⟩ := Work.pressed_claim_of_refused hf h
        exact hspent ho hs hm hst hp h1 h2
    · intro hm'
      subst hm'
      have hclaim {p : Purpose} (hr : w.holdsRetract = some p) := Work.claimMove_of_retract
        ((w.pressed_holdsRetract awn d).trans hr) .panel d
      refine ⟨fun hr => hspent ho hs hm hst hp (hclaim hr) rfl, fun hr => ?_⟩
      have hgo := hspent ho hs hm hst hp (hclaim hr) rfl
      rwa [Work.stopRetract_stopped] at hgo
    · exact hspent ho hs hm hst hp ((hcontend hl hr hbusy).trans
        ((Work.contend_of_none ((w.pressed_claim m d m).trans hc) .panel d).trans (Work.contendStopping_panel _ _ _))) rfl
    · have hc' : ((w.pressed m d).mv m).claim = some c := (w.pressed_claim m d m).trans hc
      have hgo := hcontend hl hr hbusy
      refine ⟨fun hk => ?_, fun hk => ?_, fun hk => ?_⟩
      · refine hspent (r := replyBusy .stopping) ho hs hm hst hp (hgo.trans ?_) rfl
        simp only [Work.contend, hc', hk]; rfl
      · refine hspent (r := replyBusy .stopping) ho hs hm hst hp (hgo.trans ?_) rfl
        simp only [Work.contend, hc', hk]; rfl
      · have hgo := hgo.trans (Work.contend_panel_hold hc' hk)
        rw [Work.pressed_activity] at hgo
        refine ⟨fun hd hsrc => hkept ho hs hm hst hp (hgo.trans (if_pos ⟨hd, hsrc⟩)) rfl, fun hd hsrc => ?_,
          fun hd hw => ?_, fun hd hw => ?_⟩
        · rw [if_neg fun h => hsrc h.2, if_pos hd] at hgo
          split at hgo
          · exact hspent ho hs hm hst hp hgo rfl
          · exact hspent ho hs hm hst hp hgo rfl
        · rw [if_neg fun h => hd h.1, if_pos hw] at hgo
          exact hspent ho hs hm hst hp hgo rfl
        · rw [if_neg fun h => hd h.1, if_neg hw, if_neg hd] at hgo
          obtain ⟨honly, hdwell, hqueued⟩ := Work.pressSwitch_of_reverse ho hs hm hst hp hgo
          refine ⟨fun h => hgives (honly h), fun h hq => hgives ((hdwell h hq).trans ?_), fun h hq => ?_⟩
          · rw [Work.pressed_reversal]
          · intro z kept
            exact ⟨fun hk => hgives ((hqueued h hq).trans (if_pos hk)), fun hk => hgives ((hqueued h hq).trans (if_neg hk))⟩
  · intro w x y gives hp
    have hgives {z : Work} (h : w.releaseSwitch m d = z) : gives z := by
      refine exec_of_event ha (exec_releaseOf s m d) ?_
      rw [Work.unpress, if_pos hp]
      exact h
    refine ⟨fun c hc hsrc hd hk => hgives ?_, fun hn => hgives ?_⟩
    · have hc' : (w.mv m).claim = some c := hc
      rw [Work.releaseSwitch_eq, hc']
      exact if_pos ⟨hsrc, hd, hk⟩
    · rw [Work.releaseSwitch_eq]
      cases hc : (w.mv m).claim with
      | none => rfl
      | some c =>
        refine if_neg fun ⟨h1, h2, h3⟩ => ?_
        rcases hn c hc with h | h | h
        · exact h h1
        · exact h h2
        · exact h3 h

end Sys2Proof.Machine
end

