-- ==== Sys2Proof/Proofs/LearningRequests.lean ====
section
/-! PROOF. LEARN_STROKE, STROKE_SET and TILT_ZERO_LEARN: what each answers, by the order of its checks (R52, R53, R58, R105). -/

namespace Sys2Proof.Machine

set_option Elab.async false

open Sys2Proof.Safety

/-- A request that is heard and finds a place, from the work and the reply it comes to. -/
theorem exec_of_request {i : Instr} {s : State} {k g : Byte} {h : State → Work × Reply} {z : Work} {r : Reply} (ht : Takes s)
    (he : exec i s = .next (request s k g h)) (hz : h s.toActive = (z, r)) : exec i s = .next (answered s k g z r) := by
  rw [he, request_of_takes ht, hz]

/-! ## Operands -/

/-- The byte of a learning method. -/
def methodByte (k : LearnMethod) : Byte := match k with | .endToEnd => 0 | .refine => 1

/-- The leg a learning method begins with. -/
def LearnMethod.firstLeg (k : LearnMethod) : Dir := match k with | .endToEnd => .inward | .refine => .outward

theorem decodeMethod_of (k : LearnMethod) : decodeMethod (methodByte k) = some k := by cases k <;> rfl

theorem decodeMethod_of_large {b : Byte} (h : 2 ≤ b.toNat) : decodeMethod b = none := by
  have h0 : b ≠ 0 := fun e => by simp [e] at h
  have h1 : b ≠ 1 := fun e => by simp [e] at h
  simp only [decodeMethod, if_neg h0, if_neg h1]

theorem decodeRoom_of {m : MoverId} (h : m ≠ awn) : decodeRoom (BitVec.ofNat 8 m.val) = some m := by
  revert m; decide

theorem decodeRoom_of_large {b : Byte} (h : 4 ≤ b.toNat) : decodeRoom b = none := by
  simp [decodeRoom, Nat.not_lt_of_le h]

theorem decodeChan_of (c : ChanId) : decodeChan (BitVec.ofNat 8 c.val) = some c := by revert c; decide

theorem decodeChan_of_large {b : Byte} (h : 8 ≤ b.toNat) : decodeChan b = none := by
  simp [decodeChan, Nat.not_lt_of_le h]

/-! ## Inhibits of several classes -/

theorem lowestBlocking_of_lowestOf {inh mask : BitVec 16} {cs : List MoveClass}
    (hc : ∀ k, mask.getLsbD k = cs.any fun c => c.mask.getLsbD k) {id : Nat} (h : LowestOf inh mask id) :
    lowestBlocking inh cs = some id := by
  obtain ⟨hlt, hi, hm, hlow⟩ := h
  simp only [lowestBlocking, ← hc]
  refine List.find?_range_eq_some.mpr ⟨by simp [hi, hm], by simpa using hlt, fun k hk => ?_⟩
  cases hb : inh.getLsbD k
  · rfl
  · have := hlow k hk
    simpa [hb] using this

theorem lowestBlocking_of_apart {inh mask : BitVec 16} {cs : List MoveClass}
    (hc : ∀ k, mask.getLsbD k = cs.any fun c => c.mask.getLsbD k) (h : inh &&& mask = 0) : lowestBlocking inh cs = none := by
  simp only [lowestBlocking, ← hc, List.find?_eq_none, List.mem_range]
  intro k _ hb
  have hk : (inh &&& mask).getLsbD k = false := by rw [h]; simp
  rw [BitVec.getLsbD_and] at hk
  simp [hk] at hb

theorem learnBlockers_bits (k : LearnMethod) (i : Nat) :
    (learnBlockers k).getLsbD i = (learnClasses k).any fun c => c.mask.getLsbD i := by
  cases k
  · simp only [learnBlockers, learnClasses, BitVec.getLsbD_or, List.any_cons, List.any_nil, Bool.or_false]
  · simp only [learnBlockers, learnClasses, List.any_cons, List.any_nil, Bool.or_false]

/-! ## LEARN_STROKE -/

section learn

variable {w : Work} {m : MoverId} {k : LearnMethod}

theorem Work.doLearn_of (hm : w.mode = .service) (hs : w.stage = .complete) (hr : m ≠ awn) :
    w.doLearn (BitVec.ofNat 8 m.val) (methodByte k) =
      if (w.mv m).present then w.learnRequest m k else (w, replyBadArgument) := by
  simp [Work.doLearn, hm, Work.settlingStage, hs, decodeRoom_of hr, decodeMethod_of]

/-- LEARN_STROKE at a room that holds no run and is free. -/
theorem Work.learnRequest_of_free (hf : Free w m) (hh : (w.mv m).holdOff = none) : w.learnRequest m k =
    if k = .refine ∧ w.isIn m = false then (w, replyNotReady .notSeated)
    else match w.claimRefusal m .outward false (learnClasses k) with
      | some r => (w, r)
      | none => w.presentClaim m
          { source := .link, dir := k.firstLeg, kind := .learn, lease := some (w.now + w.holdWindow) }
          (some { method := k, leg := k.firstLeg }) := by
  obtain ⟨-, hidle, hrev, hlearn, -⟩ := hf
  simp only [Work.learnRequest, hlearn, Work.learnClaim, Work.learnBusy, hidle, hrev, hh]
  cases k <;> rfl

/-- A learning run presented, by the three lines of R144. -/
theorem Work.presentLearn_eq (w : Work) (m : MoverId) (c : Claim) (l : LearnRun) :
    w.presentClaim m c (some l) =
      match (w.setMv m { w.mv m with claim := some c, learn := some l }).presentEntry (entryOf w m c) with
      | (w2, .accepted) => (w2.admitMover m, replyAccepted)
      | (w2, .queued) => (w2.setQueued m true, replyQueued)
      | _ => (w, replyQueueFull) := by
  have he : (w.setMv m { w.mv m with claim := some c, learn := some l }).moverEntry m c = entryOf w m c := by
    simp only [Work.moverEntry, Work.moverDraw, Work.mv_setMv_self]; rfl
  rw [← he]
  rfl

/-- The admission of a room that holds a learning run (R54). -/
theorem Work.admitMover_of_learn {c : Claim} {l : LearnRun} (hc : (w.mv m).claim = some c) (hl : (w.mv m).learn = some l) :
    w.admitMover m =
      (w.beginLearn m l).handOver m c.source l.leg (if l.leg = .inward then .homing else .learn) := by
  simp only [Work.admitMover, hc, hl]

theorem Work.beginLearn_of_refine {l : LearnRun} (h : l.method = .refine) : w.beginLearn m l =
    (w.setMv m { w.mv m with learn := some { l with held := some (heldStroke (w.nominal m)) } }).clampMover m := by
  simp only [Work.beginLearn, h]

theorem Work.beginLearn_of_endToEnd {l : LearnRun} (h : l.method = .endToEnd) : w.beginLearn m l =
    ((w.setMv m { w.mv m with learn := some { l with held := some (heldStroke (w.nominal m)) } }).clampMover m).forgetPosition m := by
  simp only [Work.beginLearn, h]

/-- The held stroke of a run that is admitted with its claim. -/
theorem admitted_held (w : Work) (m : MoverId) (c : Claim) (l : LearnRun) (t : Fin 6) (n : Nat) :
    let u := admitted (w.setMv m { w.mv m with claim := some c, learn := some l }) t n
    u.setMv m { u.mv m with learn := some { l with held := some (heldStroke (u.nominal m)) } } =
      admitted (w.setMv m { w.mv m with claim := some c, learn := some { l with held := some (heldStroke (w.nominal m)) } }) t n := by
  intro u
  have hu : u.mv m = { w.mv m with claim := some c, learn := some l } := Work.mv_setMv_self _ _ _
  have hn : u.nominal m = w.nominal m := rfl
  rw [hu, hn]
  exact congrArg (fun v => admitted v t n) (w.setMv_setMv m _ _)

theorem Work.presentLearn_fits (c : Claim) (l : LearnRun) (hf : Fits w (w.moverDraw m)) :
    w.presentClaim m c (some l) =
      (((admitted (w.setMv m { w.mv m with claim := some c, learn := some l }) (moverTarget m) (w.moverDraw m)).beginLearn m l).handOver
        m c.source l.leg (if l.leg = .inward then .homing else .learn), replyAccepted) := by
  have hp : (w.setMv m { w.mv m with claim := some c, learn := some l }).presentEntry (entryOf w m c) =
      (admitted (w.setMv m { w.mv m with claim := some c, learn := some l }) (moverTarget m) (w.moverDraw m), .accepted) :=
    Work.presentEntry_of_fits (q := entryOf w m c) hf
  have hmv : (admitted (w.setMv m { w.mv m with claim := some c, learn := some l }) (moverTarget m) (w.moverDraw m)).mv m =
      { w.mv m with claim := some c, learn := some l } := Work.mv_setMv_self _ _ _
  rw [Work.presentLearn_eq, hp]
  dsimp only
  rw [Work.admitMover_of_learn (congrArg Mover.claim hmv) (congrArg Mover.learn hmv)]

theorem Work.presentLearn_room (c : Claim) (l : LearnRun) (hf : ¬ Fits w (w.moverDraw m)) (hl : waiting w < w.queueLimit) :
    w.presentClaim m c (some l) =
      ((queued (w.setMv m { w.mv m with claim := some c, learn := some l }) (entryOf w m c)).setQueued m true, replyQueued) := by
  have hp := Work.presentEntry_of_room (w := w.setMv m { w.mv m with claim := some c, learn := some l }) (q := entryOf w m c) hf hl
  rw [Work.presentLearn_eq, hp]

theorem Work.presentLearn_full (c : Claim) (l : LearnRun) (hf : ¬ Fits w (w.moverDraw m)) (hl : w.queueLimit ≤ waiting w) :
    w.presentClaim m c (some l) = (w, replyQueueFull) := by
  have hp := Work.presentEntry_of_full (w := w.setMv m { w.mv m with claim := some c, learn := some l }) (q := entryOf w m c) hf hl
  rw [Work.presentLearn_eq, hp]

end learn

/-! ## STROKE_SET -/

section stroke

variable {w : Work}

theorem Work.moverOf_congr {v : Work} (h : v.movers = w.movers) (c : ChanId) : v.moverOf c = w.moverOf c := by
  simp only [Work.moverOf, Work.mv, h]

theorem Work.serveNext_movers (w : Work) : w.serveNext.movers = w.movers := by
  simp only [Work.serveNext]; split <;> rfl

theorem Work.askLearned_movers (w : Work) : w.askLearned.movers = w.movers := by
  simp only [Work.askLearned]
  split
  · rfl
  · rw [Work.serveNext_movers]

theorem Work.applyStroke_eq (w : Work) (c : ChanId) (v : Option Nat) : w.applyStroke c v =
    match w.moverOf c with
    | some m => (((w.setLearned c v).clampPos c).askLearned).judgeRack m
    | none => ((w.setLearned c v).clampPos c).askLearned := by
  have h : (((w.setLearned c v).clampPos c).askLearned).moverOf c = w.moverOf c :=
    Work.moverOf_congr (Work.askLearned_movers _) c
  simp only [Work.applyStroke, h] <;> rfl

theorem Work.doStrokeSet_of {c : ChanId} (hm : w.mode = .service) (n : Half) : w.doStrokeSet (BitVec.ofNat 8 c.val) n =
    if (w.ch c).used then
      if w.learning c then (w, replyConflict)
      else if n = 0 then (w.applyStroke c none, replyDone)
      else (w.applyStroke c (some (max 100 (min 20000 n.toNat))), replyChanged (max 100 (min 20000 n.toNat) != n.toNat))
    else (w, replyBadArgument) := by
  simp [Work.doStrokeSet, hm, decodeChan_of]

/-- A stroke within its bounds is DONE, another one CLAMPED. -/
theorem replyChanged_stroke (n : Nat) : replyChanged (max 100 (min 20000 n) != n) =
    { status := if 100 ≤ n ∧ n ≤ 20000 then .done else .clamped } := by
  by_cases h : 100 ≤ n ∧ n ≤ 20000
  · have he : max 100 (min 20000 n) = n := by omega
    simp [replyChanged, he, if_pos h, replyDone]
  · have he : max 100 (min 20000 n) ≠ n := by omega
    simp [replyChanged, he, if_neg h, replyClamped]

end stroke

/-- Settles O43: LEARN_STROKE by its checks and the table of R144, STROKE_SET by its channel, TILT_ZERO_LEARN by the tilt. -/
theorem learningRequests : Obligations.LearningRequests := by
  unfold Obligations.LearningRequests
  intro s tag ht w
  have hlearn {a b : Byte} {z : Work} {r : Reply} (h : w.doLearn a b = (z, r)) :
      exec (.learnStroke tag a b) s = .next (answered s 0x2A tag z r) := exec_of_request ht rfl h
  have hset {a : Byte} {n : Half} {z : Work} {r : Reply} (h : w.doStrokeSet a n = (z, r)) :
      exec (.strokeSet tag a n) s = .next (answered s 0x2B tag z r) := exec_of_request ht rfl h
  have hzero {z : Work} {r : Reply} (h : w.doZeroLearn = (z, r)) :
      exec (.tiltZeroLearn tag) s = .next (answered s 0x2C tag z r) := exec_of_request ht rfl h
  refine ⟨fun hm a b n => ⟨hlearn (if_pos hm), hset (if_pos hm), hzero (if_pos hm)⟩, fun hm => ?_⟩
  intro method no
  have hserv : ¬ w.mode ≠ .service := not_not.mpr hm
  refine ⟨fun a b => ⟨fun hs => hlearn ?_, fun hs hab => hlearn ?_⟩, ?_, ?_, fun c n hu hl => ?_, fun c n hu hl => hset ?_,
    ?_, fun hz => hzero ?_, fun hz hf => hzero ?_, fun hz hf => hzero ?_⟩
  · simp [Work.doLearn, hm, Work.settlingStage, hs]; rfl
  · have hb : ∀ (x : Option MoverId) (y : Option LearnMethod), (x = none ∨ y = none) →
        (match x, y with
          | some m, some k => if (w.mv m).present then w.learnRequest m k else (w, replyBadArgument)
          | _, _ => (w, replyBadArgument)) = (w, replyBadArgument) := by
      rintro x y (rfl | rfl)
      · rfl
      · cases x <;> rfl
    have hgo : w.doLearn a b = _ := (if_neg hserv).trans (if_neg (by simp [Work.settlingStage, hs]))
    exact hgo.trans (hb _ _ (hab.imp decodeRoom_of_large decodeMethod_of_large))
  · intro m k hr hs no
    have hno {r : Reply} (h : w.doLearn (BitVec.ofNat 8 m.val) (methodByte k) = (w, r)) : no r := hlearn h
    refine ⟨fun hp => hno ((Work.doLearn_of hm hs hr).trans (by rw [hp]; rfl)), fun hf hh => ?_⟩
    have hgo := (Work.doLearn_of (k := k) hm hs hr).trans ((if_pos hf.1).trans (Work.learnRequest_of_free hf hh))
    refine ⟨fun hk hin => hno (hgo.trans (if_pos ⟨hk, hin⟩)), fun hk => ?_⟩
    have hgo := hgo.trans (if_neg fun h => Bool.false_ne_true (h.2.symm.trans (hk h.1)))
    have href {r : Reply} (h : w.claimRefusal m .outward false (learnClasses k) = some r) : no r :=
      hno (hgo.trans (by rw [h]))
    refine ⟨fun h => href (Work.claimRefusal_of_fenced h), fun h hx => href (Work.claimRefusal_of_faulted h hx), fun h hx => ?_⟩
    have hsound := Work.claimRefusal_of_sound (d := .outward) (b := false) (cs := learnClasses k) h hx rfl
    refine ⟨fun hb => href ?_, fun hl ha => ?_⟩
    · rw [hsound, Work.hydBlocks_eq_true.mpr hb]; rfl
    · rw [hydBlocks_eq_false hl ha] at hsound
      refine ⟨fun id hid => href ?_, fun hi hcf => href ?_⟩
      · rw [hsound, lowestBlocking_of_lowestOf (learnBlockers_bits k) hid]; rfl
      · rw [hsound, lowestBlocking_of_apart (learnBlockers_bits k) hi, hcf]; rfl
  · intro m k hr hs hf hh hfen hflt hlv hact hcf hso leg run claim w1 gives
    have hgives {z : Work} {r : Reply} (h : w.doLearn (BitVec.ofNat 8 m.val) (methodByte k) = (z, r)) : gives z r := hlearn h
    have hgo := (Work.doLearn_of (k := k) hm hs hr).trans ((if_pos hf.1).trans (Work.learnRequest_of_free hf hh))
    have hclear (hin : k = .refine → w.isIn m = true) (hsi : k = .endToEnd → w.inh &&& MoveClass.si.mask = 0) :
        w.doLearn (BitVec.ofNat 8 m.val) (methodByte k) =
          w.presentClaim m claim (some { method := k, leg := leg }) := by
      have hi : w.inh &&& learnBlockers k = 0 := by
        cases k
        · simp only [learnBlockers, BitVec.and_or_distrib_left, hso, hsi rfl]; rfl
        · exact hso
      have hnone : w.claimRefusal m .outward false (learnClasses k) = none := by
        rw [Work.claimRefusal_of_sound hfen hflt rfl, hydBlocks_eq_false hlv hact,
          lowestBlocking_of_apart (learnBlockers_bits k) hi, hcf]; rfl
      rw [hgo, if_neg fun h => Bool.false_ne_true (h.2.symm.trans (hin h.1)), hnone]
      cases k <;> rfl
    refine ⟨?_, ?_, fun hfit hin hsi => ⟨fun hroom => hgives ?_, fun hroom => hgives ?_⟩⟩
    · rintro rfl hin hfit
      have hgo := (hclear (fun _ => hin) nofun).trans (Work.presentLearn_fits claim _ hfit)
      rw [Work.beginLearn_of_refine rfl, admitted_held] at hgo
      exact hgives hgo
    · rintro rfl hsi hfit
      have hgo := (hclear nofun (fun _ => hsi)).trans (Work.presentLearn_fits claim _ hfit)
      rw [Work.beginLearn_of_endToEnd rfl, admitted_held] at hgo
      exact hgives hgo
    · exact (hclear hin hsi).trans (Work.presentLearn_room claim _ hfit hroom)
    · exact (hclear hin hsi).trans (Work.presentLearn_full claim _ hfit hroom)
  · intro v z
    have hgo := w.doStrokeSet_of (c := c) hm n
    rw [hu, hl] at hgo
    by_cases hn : n = 0
    · have hv : v = none := if_pos hn
      have hst : (if n = 0 ∨ (100 ≤ n.toNat ∧ n.toNat ≤ 20000) then Status.done else .clamped) = .done := if_pos (.inl hn)
      rw [hst]
      refine hset (hgo.trans ((if_pos hn).trans ?_))
      rw [Work.applyStroke_eq, ← hv]
      rfl
    · have hv : v = some (max 100 (min 20000 n.toNat)) := if_neg hn
      refine hset (hgo.trans ((if_neg hn).trans ?_))
      rw [Work.applyStroke_eq, ← hv, replyChanged_stroke]
      simp only [hn, false_or]
      rfl
  · rw [w.doStrokeSet_of hm, hu, hl]; rfl
  · rintro a n (ha | ⟨c, rfl, hu⟩)
    · refine hset ?_
      simp [Work.doStrokeSet, hm, decodeChan_of_large ha]; rfl
    · refine hset ?_
      rw [w.doStrokeSet_of hm, hu]; rfl
  · simp [Work.doZeroLearn, hm, hz]; rfl
  · simp [Work.doZeroLearn, hm, hz, hf]; rfl
  · simp [Work.doZeroLearn, hm, hz, hf]; rfl

end Sys2Proof.Machine
end

