-- ==== Sys2Proof/Proofs/LearningArrivals.lean ====
section
/-! PROOF. What reaches a room in a learning run, or a room that is not free (R53). -/

namespace Sys2Proof.Machine

set_option Elab.async false

open Sys2Proof.Safety

section learn

variable {w : Work} {m : MoverId} {l : LearnRun}

/-- A MOVE or a press at a room in a learning run, by its leg (R53). -/
theorem Work.claimMove_of_learn (hm : m ≠ awn) (hl : (w.mv m).learn = some l) (src : Source) (d : Dir) :
    w.claimMove m src d = if l.leg = d then (w, replyHeld) else w.reverse m src d := by
  simp only [Work.claimMove, if_neg hm, hl, Work.contendLearn]

theorem Work.learnRequest_of_learn (hl : (w.mv m).learn = some l) (k : LearnMethod) :
    w.learnRequest m k = if l.method = k then (w.renew m, replyRenewed) else (w, replyConflict) := by
  simp only [Work.learnRequest, hl]

/-- LEARN_STROKE at a room that holds no run and is not free. -/
theorem Work.learnRequest_of_busy (hl : (w.mv m).learn = none)
    (h : w.activity m ≠ .idle ∨ (w.mv m).pendRev.isSome = true ∨ (w.mv m).holdOff.isSome = true) (k : LearnMethod) :
    w.learnRequest m k =
      (w, if (w.mv m).claim.isSome && w.activity m != .retryWait then replyHeld else replyBusy .stopping) := by
  have hbusy : ¬ (w.activity m = .idle ∧ (w.mv m).pendRev = none ∧ (w.mv m).holdOff = none) := by
    rintro ⟨h1, h2, h3⟩
    simp [h1, h2, h3] at h
  simp only [Work.learnRequest, hl, Work.learnClaim, Work.learnBusy, if_neg hbusy]
  cases (w.mv m).claim.isSome && w.activity m != .retryWait <;> rfl

end learn

/-- Settles O44: a request or a press by the leg of the run, LEARN_STROKE by its method. -/
theorem learningRunsSettleArrivals : Obligations.LearningRunsSettleArrivals := by
  unfold Obligations.LearningRunsSettleArrivals
  refine ⟨?_, ?_⟩
  · intro s tag m ht w x till learns moves hm hmode hs hp
    have hlearns {k : LearnMethod} {z : Work} {r : Reply} (h : w.learnRequest m k = (z, r)) : learns k z r :=
      exec_of_request ht rfl ((Work.doLearn_of (k := k) hmode hs hm).trans ((if_pos hp).trans h))
    have hmoves {d : Dir} {z : Work} {r : Reply} (h : w.claimMove m .link d = (z, r)) : moves d z r :=
      exec_move_of_eq ht tag ((w.doMove_of m d).trans
        ((Work.moveRequest_of_present (by rw [hmode]; exact nofun) hs hp d).trans h))
    refine ⟨fun l hl => ⟨hlearns ?_, fun k hk => hlearns ?_, hmoves ?_, fun d hd => ?_⟩, fun hl hb k => ⟨fun hc hw => hlearns ?_,
      fun hc => hlearns ?_⟩⟩
    · rw [Work.learnRequest_of_learn hl, if_pos rfl]; rfl
    · rw [Work.learnRequest_of_learn hl, if_neg hk.symm]; rfl
    · rw [Work.claimMove_of_learn hm hl, if_pos rfl]; rfl
    · have hgo := (Work.claimMove_of_learn hm hl .link d).trans (if_neg hd.symm)
      exact ⟨fun hw => hmoves (hgo.trans (Work.reverse_of_stopOnly hw m d)),
        fun hw hq => hmoves (hgo.trans (Work.reverse_of_stopDwell hw hq d)),
        fun hw hq => hmoves (hgo.trans (Work.reverse_of_queued hw hq d))⟩
    · rw [Work.learnRequest_of_busy hl hb, show (w.mv m).claim.isSome = true from hc, Bool.true_and, if_pos (by simpa using hw)]
      rfl
    · have hn : ((w.mv m).claim.isSome && w.activity m != .retryWait) = false := by
        rcases hc with hc | hc
        · rw [show (w.mv m).claim = none from hc]; rfl
        · simp [hc]
      rw [Work.learnRequest_of_busy hl hb, hn]; rfl
  · intro s m d l ha hm w x sw y w1 spent gives hl hp hmode hs hset hrel hsp ho
    have hmv : (s.work.mv m) = x := (s.work.toActive_mv m).symm
    have hgives {z : Work} (h : w.pressSwitch m d = z) : gives z :=
      exec_pressOf_of ha (by rw [hmv]; exact hset) (by rw [hmv]; exact hrel) h
    have hclaim := Work.claimMove_of_learn hm ((w.pressed_learn m d m).trans hl) .panel d
    refine ⟨fun hd => hgives ?_, fun hd => ?_⟩
    · exact Work.pressSwitch_of_spent ho hsp hmode hs hp (hclaim.trans (if_pos hd.symm)) rfl
    · obtain ⟨honly, hdwell, hqueued⟩ := Work.pressSwitch_of_reverse ho hsp hmode hs hp (hclaim.trans (if_neg fun h => hd h.symm))
      refine ⟨fun h => hgives (honly h), fun h hq => hgives ((hdwell h hq).trans ?_), fun h hq => hgives (hqueued h hq)⟩
      rw [Work.pressed_reversal]

end Sys2Proof.Machine
end

