-- ==== Sys2Proof/Proofs/LearningLegs.lean ====
section
/-! PROOF. The course of a learning run: its admission, its legs and the seats between them (R14, R54, R55). -/

namespace Sys2Proof.Machine

set_option Elab.async false

open Sys2Proof.Safety

/-! ## The counts of a mover -/

theorem Work.setCh_form (w : Work) (c : ChanId) (x : Machine.Channel) : ∃ v, w.setCh c x = { w with chans := v } := ⟨_, rfl⟩

/-- Steps that write channels write nothing else. -/
theorem foldl_setCh_form {f : Work → ChanId → Work} (h : ∀ w c, ∃ v, f w c = { w with chans := v }) (l : List ChanId) (w : Work) :
    l.foldl f w = { w with chans := (l.foldl f w).chans } := by
  induction l generalizing w with
  | nil => rfl
  | cons a l ih =>
    obtain ⟨v, hv⟩ := h w a
    rw [List.foldl_cons]
    refine (ih _).trans ?_
    generalize hz : (l.foldl f (f w a)).chans = y
    rw [hv]

theorem Work.forgetPosition_form (w : Work) (m : MoverId) : w.forgetPosition m = { w with chans := (w.forgetPosition m).chans } :=
  foldl_setCh_form (fun w c => w.setCh_form c _) _ w

theorem Work.clampMover_form (w : Work) (m : MoverId) : w.clampMover m = { w with chans := (w.clampMover m).chans } :=
  foldl_setCh_form (f := Work.clampPos) (fun w c => w.setCh_form c _) _ w

theorem Work.forgetPosition_ch {w : Work} {m : MoverId} (hn : (w.chansOf m).Nodup) :
    (∀ c ∈ w.chansOf m, (w.forgetPosition m).ch c = { w.ch c with known := false, seat := .between }) ∧
      ∀ c, c ∉ w.chansOf m → (w.forgetPosition m).ch c = w.ch c :=
  foldl_chans (I := fun _ => True) (h := fun _ x => { x with known := false, seat := .between }) (fun _ _ _ => trivial)
    (fun z c _ => z.ch_setCh_self c _) (fun z c d hd => z.ch_setCh_ne c d _ hd) hn trivial

theorem Work.clampMover_ch {w : Work} {m : MoverId} (hn : (w.chansOf m).Nodup) :
    (∀ c ∈ w.chansOf m, (w.clampMover m).ch c = { w.ch c with pos := min (w.ch c).pos ((w.effStroke c : Int) + 64) }) ∧
      ∀ c, c ∉ w.chansOf m → (w.clampMover m).ch c = w.ch c :=
  foldl_chans (f := Work.clampPos) (I := fun z => ∀ d, z.upperLimit d = w.upperLimit d)
    (h := fun c x => { x with pos := min x.pos ((w.effStroke c : Int) + 64) }) (fun _ _ hz => hz)
    (fun z c hz => by rw [Work.clampPos, Work.ch_setCh_self, hz c]; rfl) (fun z c d hd => z.ch_setCh_ne c d _ hd) hn (fun _ => rfl)

/-- The stroke a learning run holds is the effective one of its channels (R55). -/
theorem Work.effStroke_of_held {w : Work} {m : MoverId} {c : ChanId} {l : LearnRun} {h : Nat} (hm : w.moverOf c = some m)
    (hl : (w.mv m).learn = some l) (hh : l.held = some h) : w.effStroke c = h := by
  simp only [Work.effStroke, hm, hl, hh, Option.bind_some]

theorem Work.effStroke_of_none {w : Work} {m : MoverId} {c : ChanId} (hm : w.moverOf c = some m) (hl : (w.mv m).learn = none) :
    w.effStroke c = (w.learned c).getD (w.nominal m) := by
  simp only [Work.effStroke, hm, hl, Option.bind_none]

/-! ## The admission -/

theorem Work.beginLearn_bud (w : Work) (m : MoverId) (l : LearnRun) : (w.beginLearn m l).bud = w.bud := by
  simp only [Work.beginLearn]
  split
  · rw [Work.forgetPosition_form, Work.clampMover_form]; rfl
  · rw [Work.clampMover_form]; rfl

theorem Work.beginLearn_keeps (w : Work) (m : MoverId) (l : LearnRun) : (w.beginLearn m l).still = w.still := by
  simp only [Work.beginLearn]
  split <;> simp

/-- A room in a learning run is admitted from the queue (R54, R146). -/
theorem Work.judgeHead_of_learn {w : Work} {q : Queued} {rest : List Queued} {m : MoverId} {c : Claim} {l : LearnRun}
    (hq : w.bud.queue = q :: rest) (hd : w.headDue = true) (hf : q.draw + w.bud.sum ≤ w.budget)
    (hs : ∀ n ∈ rest.head?, w.budget < n.draw + (w.bud.sum + q.draw)) (ht : q.target = moverTarget m)
    (hc : (w.mv m).claim = some c) (hl : (w.mv m).learn = some l) :
    w.judgeHead = { ((admitted { w with bud := { w.bud with queue := rest } } q.target q.draw).beginLearn m l).handOver m c.source l.leg
      (if l.leg = .inward then .homing else .learn) with headDue := false } := by
  generalize hu : admitted { w with bud := { w.bud with queue := rest } } q.target q.draw = u
  have hum : u.mv m = w.mv m := by rw [← hu]; rfl
  have hhead : w.admitHead q rest = (u.beginLearn m l).handOver m c.source l.leg (if l.leg = .inward then .homing else .learn) := by
    have hadm : w.admitHead q rest = u.admitMover m := by
      rw [← hu, ← Work.admitTarget_mover, ← ht]; rfl
    rw [hadm, Work.admitMover_of_learn (by rw [hum]; exact hc) (by rw [hum]; exact hl)]
  have hstays : HeadStays u := by rw [← hu]; exact HeadStays.admitted hs
  refine (Work.judgeHead_of_fits hd hq hf ?_).trans (by rw [hhead])
  rw [hhead]
  refine hstays.of_eq ?_ ?_
  · rw [Work.handOver_bud, Work.beginLearn_bud]
  · rw [Work.handOver_still, Work.beginLearn_keeps]

/-! ## The end of a leg -/

section leg

variable {w : Work} {m : MoverId} {r : Run} {l : LearnRun} (hr : (w.mv m).run = some r) (hl : (w.mv m).learn = some l)
include hr hl

theorem Work.moverEnd_inward (hf : r.firstCause = none) (hleg : l.leg = .inward) : w.moverEnd m = w.outwardLeg m l := by
  simp only [Work.moverEnd, hr, hl, hf, hleg, Option.getD_none, if_true]

theorem Work.moverEnd_outward (hf : r.firstCause = none) (hleg : l.leg = .outward) :
    w.moverEnd m = (w.closeMotion m r .seated).finishLearn m l := by
  simp only [Work.moverEnd, hr, hl, hf, hleg, Option.getD_none, if_true]
  exact if_neg nofun

theorem Work.moverEnd_aborted {k : Cause} (hf : r.firstCause = some k) (hk : k ≠ .seated) :
    w.moverEnd m = (w.abortLearn m).closeMotion m r k := by
  simp only [Work.moverEnd, hr, hl, hf, Option.getD_some, if_neg hk]

omit hr in
theorem Work.abortLearn_of_some : w.abortLearn m =
    ((w.setMv m { w.mv m with learn := none }).emit (.learnRoom m .aborted none none)).clampMover m := by
  simp only [Work.abortLearn, hl]

end leg

/-! ## Seats in a learning run -/

section seat

variable {w : Work} {m : MoverId} {c : ChanId} (h : Lone w m c) {l : LearnRun} (hl : (w.mv m).learn = some l)
include h hl

/-- A seat of the inward leg keeps the claim, one of the outward leg ends it (R38, R54). -/
theorem lone_afterSeat_learn (hd : (w.ch c).driving = false) :
    w.afterSeat m = if l.leg = .inward then w else w.endClaim m := by
  simp only [Work.afterSeat, lone_chansOf h, List.find?_cons, List.find?_nil, hd, hl]

variable {mo : Motion} (hm : (w.ch c).motion = some mo) (hd : (w.ch c).driving = true)
include hm hd

theorem lone_seatIn_learn (hleg : l.leg = .inward) : w.seatIn m c =
    ((w.setCh c (seatedIn (w.ch c) mo)).askCheckpoint c false).setCh c
      (Safety.stopping (seatedIn (w.ch c) mo) { mo with correction := some (w.ch c).pos } .seated .brake w.now) := by
  rw [Work.seatIn_eq hm hd]
  generalize hz : (w.setCh c (seatedIn (w.ch c) mo)).askCheckpoint c false = z
  have hlone : Lone z m c := by rw [← hz]; exact lone_askCheckpoint (w := w.setCh c _) h false
  have hlearn : (z.mv m).learn = some l := by rw [← hz, Work.askCheckpoint_mv]; exact hl
  rw [lone_afterSeat_learn (w := z.setCh c _) hlone hlearn (by rw [Work.ch_setCh_self]; rfl), if_pos hleg]
  exact lone_judgeRack (w := z.setCh c _) hlone

theorem lone_seatOut_learn (hleg : l.leg = .outward) : w.seatOut m c =
    ((w.setMv m { w.mv m with learn := some { l with leader := some (w.ch c).pos } }).setCh c
      (Safety.stopping { w.ch c with seat := .outSeated } mo .seated .brake w.now)).endClaim m := by
  have hmeasure : w.measure m c = w.setMv m { w.mv m with learn := some { l with leader := some (w.ch c).pos } } := by
    simp only [Work.measure, hl, h.1, if_true]
  generalize hz : w.setMv m { w.mv m with learn := some { l with leader := some (w.ch c).pos } } = z
  have hlone : Lone z m c := by rw [← hz]; exact lone_setMv h rfl rfl rfl
  have hlearn : (z.mv m).learn = some { l with leader := some (w.ch c).pos } := by rw [← hz, Work.mv_setMv_self]
  have hnow : z.now = w.now := by rw [← hz]; rfl
  rw [Work.seatOut_of hm hd (hmeasure.trans hz) (by rw [← hz]; rfl), hnow,
    lone_afterSeat_learn (w := z.setCh c _) hlone hlearn (by rw [Work.ch_setCh_self]; rfl)]
  exact if_neg fun hi => by rw [hleg] at hi; cases hi

end seat

end Sys2Proof.Machine
end

