-- ==== Sys2Proof/Proofs/LearnedStrokes.lean ====
section
/-! PROOF. The judgement of measured strokes (R56), and the course of a learning run (R54, R55). -/

namespace Sys2Proof.Machine

set_option Elab.async false

open Sys2Proof.Safety

/-! ## The LEARNED job -/

/-- A LEARNED job waits, or is being written. -/
def LearnedAsked (w : Work) : Prop := .learned ∈ w.store.jobs ∨ ∃ sv, w.store.busy = some sv ∧ sv.job = .learned

theorem LearnedAsked.serveNext {w : Work} (h : .learned ∈ w.store.jobs) : LearnedAsked w.serveNext := by
  cases hb : w.store.busy with
  | some sv =>
    rw [Work.serveNext_of_busy (by simp [hb])]
    exact .inl h
  | none =>
    rw [LearnedAsked, Work.serveNext_store hb]
    cases hj : w.store.jobs with
    | nil => simp [hj] at h
    | cons a rest =>
      rw [hj] at h
      rcases List.mem_cons.mp h with h | h
      · exact .inr ⟨_, rfl, h.symm⟩
      · exact .inl h

theorem Work.askLearned_asked (w : Work) : LearnedAsked w.askLearned := by
  cases h : w.store.jobs.any Job.isLearned
  · rw [Work.askLearned, h]
    exact LearnedAsked.serveNext (List.mem_append_right _ (List.mem_singleton.mpr rfl))
  · rw [Work.askLearned, h, if_pos rfl]
    obtain ⟨j, hj, hl⟩ := List.any_eq_true.mp h
    cases j with
    | learned => exact .inl hj
    | _ => cases hl

theorem Work.serveNext_frame (w : Work) : ∃ st : Store, w.serveNext = { w with store := st } ∧ st.learned = w.store.learned := by
  simp only [Work.serveNext]
  split
  · exact ⟨_, rfl, rfl⟩
  · exact ⟨_, rfl, rfl⟩

theorem Work.askLearned_frame (w : Work) : ∃ st : Store, w.askLearned = { w with store := st } ∧ st.learned = w.store.learned := by
  simp only [Work.askLearned]
  split
  · exact ⟨_, rfl, rfl⟩
  · obtain ⟨st, h, hl⟩ := Work.serveNext_frame { w with store := { w.store with jobs := w.store.jobs ++ [.learned] } }
    exact ⟨st, by rw [h], hl⟩

/-! ## The end of a run -/

/-- The work whose learning run has ended. -/
def Work.unlearned (w : Work) (m : MoverId) : Work := w.setMv m { w.mv m with learn := none }

/-- The strokes of a run, each with its channel (R56). -/
def Work.measured (w : Work) (m : MoverId) (l : LearnRun) : List (Option ChanId × Option Int) :=
  [((w.mv m).leader, l.leader)] ++ if (w.mv m).paired then [((w.mv m).follower, l.follower)] else []

/-- A stroke of a channel within its bounds. -/
def accepted (n : Nat) (z : Option ChanId × Option Int) : Bool :=
  match z with | (some _, some s) => strokeAccepted n s | _ => false

/-- One measured stroke written. -/
def Work.takeStroke (w : Work) (z : Option ChanId × Option Int) : Work :=
  match z with | (some c, some s) => w.setLearned c (some s.toNat) | _ => w

theorem Work.finishLearn_eq (w : Work) (m : MoverId) (l : LearnRun) : w.finishLearn m l =
    if (w.measured m l).all (accepted (w.nominal m)) then
      (((((w.measured m l).foldl Work.takeStroke (w.unlearned m))).clampMover m).askLearned).emit
        (.learnRoom m .learned l.leader l.follower)
    else ((w.unlearned m).clampMover m).emit (.learnRoom m .outOfTolerance l.leader l.follower) := rfl

theorem strokeAccepted_iff (n : Nat) (v : Int) : strokeAccepted n v = true ↔
    100 ≤ v ∧ v ≤ 20000 ∧ 4 * (n : Int) ≤ 5 * v ∧ 5 * v ≤ 6 * (n : Int) := by
  simp [strokeAccepted, and_assoc]

theorem accepted_iff (n : Nat) (c : ChanId) (v : Option Int) : accepted n (some c, v) = true ↔
    ∃ u, v = some u ∧ (100 ≤ u ∧ u ≤ 20000 ∧ 4 * (n : Int) ≤ 5 * u ∧ 5 * u ≤ 6 * (n : Int)) := by
  cases v with
  | none => simp [accepted]
  | some u => simp [accepted, strokeAccepted_iff]

theorem Work.measured_of_lone {w : Work} {m : MoverId} {c : ChanId} (h : Lone w m c) (l : LearnRun) :
    w.measured m l = [(some c, l.leader)] := by
  simp only [Work.measured, h.1, lone_unpaired h]; rfl

theorem Work.measured_of_pair {w : Work} {m : MoverId} {a b : ChanId} (h : Pair w m a b) (l : LearnRun) :
    w.measured m l = [(some a, l.leader), (some b, l.follower)] := by
  obtain ⟨hl, hf, -⟩ := id h
  simp only [Work.measured, hl, hf, pair_paired h]; rfl

/-- Strokes out of their bounds leave the store (R56). -/
theorem Work.finishLearn_refused {w : Work} {m : MoverId} {l : LearnRun}
    (h : (w.measured m l).all (accepted (w.nominal m)) = false) :
    w.finishLearn m l = ((w.unlearned m).clampMover m).emit (.learnRoom m .outOfTolerance l.leader l.follower) := by
  rw [Work.finishLearn_eq, h]; rfl

theorem Work.finishLearn_refused_store {w : Work} {m : MoverId} {l : LearnRun}
    (h : (w.measured m l).all (accepted (w.nominal m)) = false) :
    (w.finishLearn m l).events = w.events ++ [.learnRoom m .outOfTolerance l.leader l.follower] ∧
      (w.finishLearn m l).store = w.store := by
  rw [Work.finishLearn_refused h, Work.clampMover_form]
  exact ⟨rfl, rfl⟩

theorem Work.finishLearn_learned {w : Work} {m : MoverId} {l : LearnRun}
    (h : (w.measured m l).all (accepted (w.nominal m)) = true) :
    w.finishLearn m l = ((((w.measured m l).foldl Work.takeStroke (w.unlearned m)).clampMover m).askLearned).emit
      (.learnRoom m .learned l.leader l.follower) := by
  rw [Work.finishLearn_eq, h]; rfl

theorem Work.takeStroke_form (w : Work) (z : Option ChanId × Option Int) :
    ∃ st, w.takeStroke z = { w with store := { w.store with learned := st } } := by
  rcases z with ⟨_ | c, _ | s⟩ <;> exact ⟨_, rfl⟩

theorem Work.takeStrokes_form (l : List (Option ChanId × Option Int)) (w : Work) :
    ∃ st, l.foldl Work.takeStroke w = { w with store := { w.store with learned := st } } := by
  induction l generalizing w with
  | nil => exact ⟨_, rfl⟩
  | cons a l ih =>
    obtain ⟨st, h⟩ := w.takeStroke_form a
    obtain ⟨st', h'⟩ := ih { w with store := { w.store with learned := st } }
    exact ⟨st', by rw [List.foldl_cons, h, h']⟩

/-- Strokes written, before the counts are cut. -/
theorem Work.finishLearn_written {w u : Work} {m : MoverId} {l : LearnRun}
    (h : (w.measured m l).all (accepted (w.nominal m)) = true) (hu : (w.measured m l).foldl Work.takeStroke (w.unlearned m) = u) :
    (w.finishLearn m l).events = w.events ++ [.learnRoom m .learned l.leader l.follower] ∧ LearnedAsked (w.finishLearn m l) ∧
      (w.finishLearn m l).store.learned = u.store.learned ∧ ∀ c, (w.finishLearn m l).ch c = (u.clampMover m).ch c := by
  rw [Work.finishLearn_learned h, hu]
  obtain ⟨st, hst, hl⟩ := (u.clampMover m).askLearned_frame
  have hask := (u.clampMover m).askLearned_asked
  obtain ⟨ls, hform⟩ := Work.takeStrokes_form (w.measured m l) (w.unlearned m)
  have hev : u.events = w.events := by rw [← hu, hform]; rfl
  refine ⟨?_, hask, ?_, fun c => ?_⟩
  · rw [hst, u.clampMover_form]
    exact congrArg (· ++ _) hev
  · refine (show _ = _ from by rw [hst]; rfl : _ = st.learned).trans (hl.trans ?_)
    rw [u.clampMover_form]
  · rw [hst]; rfl

theorem Work.finishLearn_run (w : Work) (m : MoverId) (l : LearnRun) :
    ((w.finishLearn m l).mv m).learn = none ∧ (w.finishLearn m l).bud = w.bud := by
  have hmv : ((w.unlearned m).mv m).learn = none := by rw [Work.unlearned, Work.mv_setMv_self]
  cases h : (w.measured m l).all (accepted (w.nominal m))
  · rw [Work.finishLearn_refused h, Work.clampMover_form]
    exact ⟨hmv, rfl⟩
  · obtain ⟨ls, hform⟩ := Work.takeStrokes_form (w.measured m l) (w.unlearned m)
    rw [Work.finishLearn_learned h, hform]
    generalize hu : ({ w.unlearned m with store := { (w.unlearned m).store with learned := ls } } : Work) = u
    obtain ⟨st, hst, -⟩ := (u.clampMover m).askLearned_frame
    rw [hst, u.clampMover_form, ← hu]
    exact ⟨hmv, rfl⟩

/-- The counts of a mover without a run, cut at the limits of its strokes (R14). -/
theorem Work.clampMover_unlearned {u : Work} {m : MoverId} {c : ChanId} (hl : (u.mv m).learn = none)
    (hm : u.moverOf c = some m) (hc : c ∈ u.chansOf m) (hn : (u.chansOf m).Nodup) :
    (u.clampMover m).ch c = { u.ch c with pos := min (u.ch c).pos (((u.learned c).getD (u.nominal m) : Nat) + 64) } := by
  rw [(Work.clampMover_ch hn).1 c hc, Work.effStroke_of_none hm hl]

end Sys2Proof.Machine
end

