-- ==== Sys2Proof/Proofs/LearningCourse.lean ====
section
/-! PROOF. The course of a learning run, assembled (R54, R55, R56). -/

namespace Sys2Proof.Machine

set_option Elab.async false

open Sys2Proof.Safety

theorem lone_unlearned {w : Work} {m : MoverId} {c : ChanId} (h : Lone w m c) : Lone (w.unlearned m) m c :=
  lone_setMv h rfl rfl rfl

theorem Work.unlearned_learn (w : Work) (m : MoverId) : ((w.unlearned m).mv m).learn = none := by
  rw [Work.unlearned, Work.mv_setMv_self]

theorem Work.unlearned_moverOf (w : Work) (m : MoverId) (c : ChanId) : (w.unlearned m).moverOf c = w.moverOf c :=
  w.moverOf_setMv m (x := { w.mv m with learn := none }) rfl rfl c

theorem Work.unlearned_chansOf (w : Work) (m n : MoverId) : (w.unlearned m).chansOf n = w.chansOf n := w.chansOf_setMv m n rfl

theorem Work.learned_setLearned_self (w : Work) (c : ChanId) (v : Option Nat) : (w.setLearned c v).learned c = v := by
  simp [Work.setLearned, Work.learned]

theorem Work.learned_setLearned_ne (w : Work) {c d : ChanId} (h : d ≠ c) (v : Option Nat) :
    (w.setLearned c v).learned d = w.learned d := by
  simp only [Work.setLearned, Work.learned]
  exact Vector.getElem_set_ne c.isLt d.isLt (fun e => h (Fin.ext e.symm))

/-- The end of the run of a room with one channel. -/
theorem lone_finishLearn {w : Work} {m : MoverId} {c : ChanId} (h : Lone w m c) (l : LearnRun) :
    (∀ v, l.leader = some v → strokeAccepted (w.nominal m) v = true →
      ((w.finishLearn m l).events = w.events ++ [.learnRoom m .learned l.leader l.follower] ∧ LearnedAsked (w.finishLearn m l)) ∧
      (w.finishLearn m l).store.learned.strokes = w.store.learned.strokes.set c (some v.toNat) ∧
      (w.finishLearn m l).ch c = { w.ch c with pos := min (w.ch c).pos ((v.toNat : Int) + 64) }) ∧
    (accepted (w.nominal m) (some c, l.leader) = false →
      ((w.finishLearn m l).events = w.events ++ [.learnRoom m .outOfTolerance l.leader l.follower] ∧
        (w.finishLearn m l).store = w.store) ∧
      (w.finishLearn m l).ch c = { w.ch c with pos := min (w.ch c).pos (((w.learned c).getD (w.nominal m) : Nat) + 64) }) := by
  have hms := Work.measured_of_lone h l
  refine ⟨fun v hv hok => ?_, fun hno => ?_⟩
  · have hall : (w.measured m l).all (accepted (w.nominal m)) = true := by
      rw [hms, hv]; simpa [accepted] using hok
    have hu : (w.measured m l).foldl Work.takeStroke (w.unlearned m) = (w.unlearned m).setLearned c (some v.toNat) := by
      rw [hms, hv]; rfl
    obtain ⟨hev, hask, hst, hch⟩ := Work.finishLearn_written hall hu
    refine ⟨⟨hev, hask⟩, by rw [hst]; rfl, ?_⟩
    have hlone : Lone ((w.unlearned m).setLearned c (some v.toNat)) m c := lone_unlearned h
    rw [hch, Work.clampMover_unlearned (u := (w.unlearned m).setLearned c (some v.toNat)) (c := c) (w.unlearned_learn m) hlone.2.2 (by rw [lone_chansOf hlone]; simp)
      (by rw [lone_chansOf hlone]; simp), Work.learned_setLearned_self]
    rfl
  · have hall : (w.measured m l).all (accepted (w.nominal m)) = false := by
      rw [hms]; simpa using hno
    refine ⟨Work.finishLearn_refused_store hall, ?_⟩
    have hlone := lone_unlearned h
    rw [Work.finishLearn_refused hall]
    exact Work.clampMover_unlearned (c := c) (w.unlearned_learn m) hlone.2.2 (by rw [lone_chansOf hlone]; simp)
      (by rw [lone_chansOf hlone]; simp)

/-- The end of the run of a paired room. -/
theorem pair_finishLearn {w : Work} {m : MoverId} {a b : ChanId} (h : Pair w m a b) (l : LearnRun) :
    (∀ u v, l.leader = some u → l.follower = some v → strokeAccepted (w.nominal m) u = true →
      strokeAccepted (w.nominal m) v = true →
      ((w.finishLearn m l).events = w.events ++ [.learnRoom m .learned l.leader l.follower] ∧ LearnedAsked (w.finishLearn m l)) ∧
      (w.finishLearn m l).store.learned.strokes = (w.store.learned.strokes.set a (some u.toNat)).set b (some v.toNat) ∧
      (w.finishLearn m l).ch a = { w.ch a with pos := min (w.ch a).pos ((u.toNat : Int) + 64) } ∧
      (w.finishLearn m l).ch b = { w.ch b with pos := min (w.ch b).pos ((v.toNat : Int) + 64) }) ∧
    (accepted (w.nominal m) (some a, l.leader) = false ∨ accepted (w.nominal m) (some b, l.follower) = false →
      (w.finishLearn m l).events = w.events ++ [.learnRoom m .outOfTolerance l.leader l.follower] ∧
        (w.finishLearn m l).store = w.store) := by
  have hms := Work.measured_of_pair h l
  refine ⟨fun u v hu hv hoku hokv => ?_, fun hno => ?_⟩
  · have hall : (w.measured m l).all (accepted (w.nominal m)) = true := by
      rw [hms, hu, hv]; simp [accepted, hoku, hokv]
    have hz : (w.measured m l).foldl Work.takeStroke (w.unlearned m) =
        ((w.unlearned m).setLearned a (some u.toNat)).setLearned b (some v.toNat) := by
      rw [hms, hu, hv]; rfl
    obtain ⟨hev, hask, hst, hch⟩ := Work.finishLearn_written hall hz
    have hne : a ≠ b := (pair_ne h).symm
    have hchans : (((w.unlearned m).setLearned a (some u.toNat)).setLearned b (some v.toNat)).chansOf m = [a, b] :=
      (w.unlearned_chansOf m m).trans (pair_chansOf h)
    have hnd : (((w.unlearned m).setLearned a (some u.toNat)).setLearned b (some v.toNat)).chansOf m |>.Nodup := by
      rw [hchans]; simpa using hne
    have hmover {c : ChanId} (hc : c = a ∨ c = b) :
        (((w.unlearned m).setLearned a (some u.toNat)).setLearned b (some v.toNat)).moverOf c = some m :=
      (w.unlearned_moverOf m c).trans (pair_moverOf h hc)
    refine ⟨⟨hev, hask⟩, by rw [hst]; rfl, ?_, ?_⟩
    · rw [hch, Work.clampMover_unlearned (u := ((w.unlearned m).setLearned a (some u.toNat)).setLearned b (some v.toNat)) (c := a) (w.unlearned_learn m) (hmover (.inl rfl)) (by rw [hchans]; simp) hnd,
        Work.learned_setLearned_ne _ hne, Work.learned_setLearned_self]
      rfl
    · rw [hch, Work.clampMover_unlearned (u := ((w.unlearned m).setLearned a (some u.toNat)).setLearned b (some v.toNat)) (c := b) (w.unlearned_learn m) (hmover (.inr rfl)) (by rw [hchans]; simp) hnd,
        Work.learned_setLearned_self]
      rfl
  · refine Work.finishLearn_refused_store ?_
    rw [hms]
    rcases hno with hno | hno <;> simp [hno]

/-- Settles O45: each step of a run by the lemma that says what it does. -/
theorem learningRunsTakeTheirLegs : Obligations.LearningRunsTakeTheirLegs := by
  unfold Obligations.LearningRunsTakeTheirLegs
  refine ⟨?_, ?_, ?_, ?_, ?_, ?_, ?_⟩
  · intro w q rest m c l hq hd hf hs ht hc hl w1
    have hgo := Work.judgeHead_of_learn hq hd hf hs ht hc hl
    exact ⟨fun hm => hgo.trans (by rw [Work.beginLearn_of_refine hm]; rfl),
      fun hm => hgo.trans (by rw [Work.beginLearn_of_endToEnd hm]; rfl)⟩
  · intro w m hn z
    obtain ⟨hin, hout⟩ := Work.forgetPosition_ch hn
    exact ⟨hin, hout, w.forgetPosition_form m⟩
  · intro w m hn z
    obtain ⟨hin, hout⟩ := Work.clampMover_ch hn
    exact ⟨hin, fun c l h hm hl hh => Work.effStroke_of_held hm hl hh, hout, w.clampMover_form m⟩
  · intro w m r l hr hl
    exact ⟨fun hf hleg => Work.moverEnd_inward hr hl hf hleg, fun hf hleg => Work.moverEnd_outward hr hl hf hleg,
      fun k hf hk => (Work.moverEnd_aborted hr hl hf hk).trans (by rw [Work.abortLearn_of_some hl])⟩
  · intro s c m mo r l t ha h hm hs ht hk hrack hr hl w x now' r' z gives
    have hnow : w.notBefore (mo.earliestEnd w.restWindow) = { w with now := now' } := by
      simp only [Work.notBefore, Motion.earliestEnd, ht, Option.getD_some]
      rfl
    have hrest : atRest x mo = { x with motion := none, duty := 0, retry := 0, state := .idle, bridge := .brake } := by
      simp only [atRest, hk, reduceCtorEq, Option.some.injEq, if_false]
    have hend : w.stoppingEnd c = z.moverEnd m := by
      rw [lone_stoppingEnd h hm hs, hnow, lone_endChan_moverEnd (w := { w with now := now' }) h hr hrack mo,
        show ({ w with now := now' } : Work).ch c = x from rfl, hrest]
      rfl
    have hzm : z.mv m = { w.mv m with run := some r' } := by
      show (Work.askCheckpoint _ c false).mv m = _
      rw [Work.askCheckpoint_mv, Work.mv_setMv_self]
    have hzr : (z.mv m).run = some r' := by rw [hzm]
    have hzl : (z.mv m).learn = some l := by rw [hzm]; exact hl
    refine ⟨fun hf hleg => exec_of_event ha rfl (hend.trans ((Work.moverEnd_inward hzr hzl hf hleg).trans ?_)),
      fun hf hleg => exec_of_event ha rfl (hend.trans (Work.moverEnd_outward hzr hzl hf hleg))⟩
    simp only [Work.outwardLeg, hzm]
  · intro w m l z old ok good learned refused
    refine ⟨fun c h => ?_, fun a b h => ?_, w.finishLearn_run m l⟩
    · obtain ⟨hyes, hno⟩ := lone_finishLearn h l
      refine ⟨fun v hv hok => ?_, fun hg => hno ?_⟩
      · have hnat : ((v.toNat : Nat) : Int) = v := Int.toNat_of_nonneg (by have := hok.1; omega)
        have hgo := hyes v hv ((strokeAccepted_iff _ _).mpr hok)
        rw [hnat] at hgo
        exact hgo
      · exact Bool.eq_false_iff.mpr fun hh => hg ((accepted_iff _ c _).mp hh)
    · obtain ⟨hyes, hno⟩ := pair_finishLearn h l
      refine ⟨fun u v hu hv hoku hokv => ?_, fun hg => hno ?_⟩
      · have hnatu : ((u.toNat : Nat) : Int) = u := Int.toNat_of_nonneg (by have := hoku.1; omega)
        have hnatv : ((v.toNat : Nat) : Int) = v := Int.toNat_of_nonneg (by have := hokv.1; omega)
        have hgo := hyes u v hu hv ((strokeAccepted_iff _ _).mpr hoku) ((strokeAccepted_iff _ _).mpr hokv)
        rw [hnatu, hnatv] at hgo
        exact hgo
      · by_contra hh
        rw [not_or, Bool.not_eq_false, Bool.not_eq_false] at hh
        exact hg ⟨(accepted_iff _ a _).mp hh.1, (accepted_iff _ b _).mp hh.2⟩
  · intro s c m mo v l ha h hm hd hduty hf hl hheld hdir w x z y stalled zone gives
    have hat := lone_stallAt h hm hd hduty hf (held := true) (by rw [show (w.mv m).learn = some l from hl]; exact hheld) v (z := z) rfl
    have hlone : Lone (z.judging c x v) m c := h
    have hch : (z.judging c x v).ch c = y := z.judging_ch c x v
    have hmy : ((z.judging c x v).ch c).motion = some mo := by rw [hch]; exact hm
    have hdy : ((z.judging c x v).ch c).driving = true := by rw [hch]; exact hd
    have hly : ((z.judging c x v).mv m).learn = some l := hl
    have hset : ∀ y', (z.judging c x v).setCh c y' = z.setCh c y' := fun y' => z.setCh_setCh c _ y'
    have hlock {k : LockKind} (hr : w.stallOf c mo true v = .lock k) : gives ((z.setCh c y).raiseLock c k) :=
      exec_of_event ha rfl (by rw [hat, hr]; rfl)
    refine ⟨fun hst hleg hpos => ?_, fun hst hleg => ?_, fun hst hleg hk hpos => hlock ?_, fun hst ho => hlock ?_,
      fun hst ho => hlock ?_⟩
    · intro y1
      have hr : w.stallOf c mo true v = .seatIn := by
        rw [Work.stallOf, StallResult.of_stalled hst, hdir, hleg]
        exact if_pos hpos
      refine exec_of_event ha rfl ?_
      rw [hat, hr]
      dsimp only
      rw [lone_seatIn_learn hlone hly hmy hdy hleg, hch, hset]
      rfl
    · have hr : w.stallOf c mo true v = .seatOut := by
        rw [Work.stallOf, StallResult.of_stalled hst, hdir, hleg]
        exact if_pos (.inl rfl)
      refine exec_of_event ha rfl ?_
      rw [hat, hr]
      dsimp only
      rw [lone_seatOut_learn hlone hly hmy hdy hleg, hch]
      refine congrArg (Work.endClaim · m) ?_
      exact (z.setMv m { w.mv m with learn := some { l with leader := some x.pos } }).setCh_setCh c y _
    · rw [Work.stallOf, StallResult.of_stalled hst, hdir, hleg]
      exact if_neg fun h => h.elim (fun h => Bool.false_ne_true (h.symm.trans hk)) fun h => absurd hpos (not_lt.mpr h)
    · rw [Work.stallOf, StallResult.of_not_stalled hst]
      exact if_pos ho
    · rw [Work.stallOf, StallResult.of_not_stalled hst]
      exact if_neg (Nat.not_lt_of_le ho)

end Sys2Proof.Machine
end

