-- ==== Sys2Proof/Proofs/LearningAborts.lean ====
section
/-! PROOF. A learning run that ends ABORTED, and the stop of a room that holds one (R57). -/

namespace Sys2Proof.Machine

set_option Elab.async false

open Sys2Proof.Safety

/-! ## The end of the run -/

/-- A channel of a room whose run has ended: its count is cut at the limit of the learned stroke (R14, R57). -/
def cutChan (w : Work) (m : MoverId) (e : ChanId) : Machine.Channel :=
  if e ∈ w.chansOf m then { w.ch e with pos := min (w.ch e).pos ((w.unlearned m).upperLimit e) } else w.ch e

/-- The count of a channel at the limit of its learned stroke. -/
def cutPos (w : Work) (m : MoverId) (c : ChanId) : Int := min (w.ch c).pos (((w.learned c).getD (w.nominal m) : Nat) + 64)

theorem cutChan_of_mem {w : Work} {m : MoverId} {c : ChanId} (hm : w.moverOf c = some m) (hc : c ∈ w.chansOf m) :
    cutChan w m c = { w.ch c with pos := cutPos w m c } := by
  have he : (w.unlearned m).effStroke c = (w.learned c).getD (w.nominal m) :=
    Work.effStroke_of_none ((w.unlearned_moverOf m c).trans hm) (w.unlearned_learn m)
  rw [cutChan, if_pos hc, Work.upperLimit, he]
  rfl

theorem sameMotion_cutChan (w : Work) (m : MoverId) (e : ChanId) : SameMotion (w.ch e) (cutChan w m e) := by
  simp only [cutChan]
  split <;> exact ⟨rfl, rfl⟩

/-- What the end of the run makes of the room (R57). -/
theorem Work.abortLearn_form {w : Work} {m : MoverId} {l : LearnRun} (hl : (w.mv m).learn = some l) (hn : (w.chansOf m).Nodup) :
    LockEnd w (w.abortLearn m) m { w.mv m with learn := none } [.learnRoom m .aborted none none] (cutChan w m) := by
  have hchans : ((w.unlearned m).emit (.learnRoom m .aborted none none)).chansOf m = w.chansOf m := w.unlearned_chansOf m m
  have habort : w.abortLearn m = ((w.unlearned m).emit (.learnRoom m .aborted none none)).clampMover m :=
    Work.abortLearn_of_some hl
  obtain ⟨hin, hout⟩ := Work.clampMover_ch (w := (w.unlearned m).emit (.learnRoom m .aborted none none)) (m := m)
    (by rw [hchans]; exact hn)
  rw [hchans] at hin hout
  refine ⟨⟨(w.abortLearn m).chans, ?_⟩, fun e => ?_⟩
  · rw [habort]
    exact Work.clampMover_form _ m
  · rw [habort, cutChan]
    split
    · next he => exact hin e he
    · next he => exact hout e he

/-- The end of the run alone, whatever the channels are. -/
theorem Work.abortLearn_frame {w : Work} {m : MoverId} {l : LearnRun} (hl : (w.mv m).learn = some l) :
    ∃ v, w.abortLearn m = { w.unlearned m with chans := v, events := w.events ++ [.learnRoom m .aborted none none] } := by
  rw [Work.abortLearn_of_some hl, Work.clampMover_form]
  exact ⟨_, rfl⟩

theorem Work.abortLearn_motion {w : Work} {m : MoverId} {l : LearnRun} (hl : (w.mv m).learn = some l) (e : ChanId) :
    ((w.abortLearn m).ch e).motion = (w.ch e).motion := by
  rw [Work.abortLearn_of_some hl]
  refine foldl_keep (f := Work.clampPos) (fun w => (w.ch e).motion) (fun z c => ?_) _ _
  by_cases he : e = c
  · subst he; rw [Work.clampPos, Work.ch_setCh_self]
  · rw [Work.clampPos, Work.ch_setCh_ne _ _ _ _ he]

theorem Work.abortLearn_state {w : Work} {m : MoverId} {l : LearnRun} (hl : (w.mv m).learn = some l) (e : ChanId) :
    ((w.abortLearn m).ch e).state = (w.ch e).state := by
  rw [Work.abortLearn_of_some hl]
  refine foldl_keep (f := Work.clampPos) (fun w => (w.ch e).state) (fun z c => ?_) _ _
  by_cases he : e = c
  · subst he; rw [Work.clampPos, Work.ch_setCh_self]
  · rw [Work.clampPos, Work.ch_setCh_ne _ _ _ _ he]

/-! ## The stop of a room in a learning run -/

/-- The room whose run and claim have ended, before its channels are told to stop (R57). -/
def Work.given (w : Work) (m : MoverId) : Work := (w.abortLearn m).endClaim m

section

variable {w : Work} {m : MoverId} {l : LearnRun} (hl : (w.mv m).learn = some l)
include hl

theorem Work.abortLearn_mv : (w.abortLearn m).mv m = { w.mv m with learn := none } := by
  obtain ⟨v, h⟩ := Work.abortLearn_frame hl
  rw [h]
  exact Work.mv_setMv_self _ _ _

theorem Work.given_mv : (w.given m).mv m = claimEnded { w.mv m with learn := none } := by
  rw [Work.given, Work.endClaim_eq, Work.mv_setMv_self, Work.abortLearn_mv hl]

theorem Work.given_learn : ((w.given m).mv m).learn = none := by rw [Work.given_mv hl, claimEnded_learn]

theorem Work.given_claim : ((w.given m).mv m).claim = none := by rw [Work.given_mv hl, claimEnded_claim]

theorem Work.given_run : ((w.given m).mv m).run = (w.mv m).run := by rw [Work.given_mv hl, claimEnded_run]

theorem Work.given_frame : (w.given m).bud = w.bud ∧ (w.given m).now = w.now ∧ (w.given m).store = w.store ∧
    (w.given m).events = w.events ++ [.learnRoom m .aborted none none] := by
  obtain ⟨v, h⟩ := Work.abortLearn_frame hl
  rw [Work.given, Work.endClaim_eq, h]
  exact ⟨rfl, rfl, rfl, rfl⟩

omit hl in
theorem Work.given_ch (e : ChanId) : (w.given m).ch e = (w.abortLearn m).ch e := by
  rw [Work.given, Work.endClaim_eq]; rfl

theorem Work.given_chansOf : (w.given m).chansOf m = w.chansOf m := by
  simp only [Work.chansOf, Work.given_mv hl, claimEnded_chans]; rfl

theorem Work.given_moverOf (c : ChanId) : (w.given m).moverOf c = w.moverOf c := by
  obtain ⟨v, h⟩ := Work.abortLearn_frame hl
  have ha : (w.abortLearn m).moverOf c = w.moverOf c := by
    rw [h]; exact w.unlearned_moverOf m c
  rw [Work.given, Work.endClaim_eq]
  exact ((w.abortLearn m).moverOf_setMv m (claimEnded_chans _) (claimEnded_present _) c).trans ha

theorem Work.given_sameMotion (e : ChanId) : SameMotion (w.ch e) ((w.given m).ch e) := by
  rw [Work.given_ch]
  exact ⟨Work.abortLearn_motion hl e, Work.abortLearn_state hl e⟩

theorem Work.given_cut {c : ChanId} (hn : (w.chansOf m).Nodup) (hm : w.moverOf c = some m) (hc : c ∈ w.chansOf m) :
    (w.given m).ch c = { w.ch c with pos := cutPos w m c } := by
  rw [Work.given_ch, (Work.abortLearn_form hl hn).ch, cutChan_of_mem hm hc]

/-- A stop ends the run and its claim first, and then stops what moves (R57, log 24). -/
theorem Work.stopMover_of_learn (cause : Cause) : w.stopMover m cause = (w.given m).stopMover m cause := by
  have h := Work.given_learn hl
  have hw : (if ((w.mv m).learn.isSome) = true then (w.abortLearn m).endClaim m else w) = w.given m := by rw [hl]; rfl
  have hg : (if (((w.given m).mv m).learn.isSome) = true then ((w.given m).abortLearn m).endClaim m else w.given m) = w.given m := by
    rw [h]; rfl
  rw [Work.stopMover, Work.stopMover, hw, hg]

theorem Work.haltMover_of_learn (hq : w.isQueued (moverTarget m) = false) (cause : Cause) :
    w.haltMover m cause = (w.given m).haltMover m cause := by
  have hq' : (w.given m).isQueued (moverTarget m) = false := by
    obtain ⟨hb, -⟩ := Work.given_frame hl
    rw [Work.isQueued, hb]; exact hq
  rw [Work.haltMover_of_not_queued hq, Work.haltMover_of_not_queued hq', Work.stopMover_of_learn hl]

end

/-! ## What a stop keeps of a mover whose claim and run are gone -/

/-- The mover holds neither a claim nor a learning run, and the learned strokes are as given. -/
def Bare (m : MoverId) (ls : Learned) (w : Work) : Prop :=
  (w.mv m).claim = none ∧ (w.mv m).learn = none ∧ w.store.learned = ls

theorem Bare.setMv {m n : MoverId} {ls : Learned} {w : Work} (h : Bare m ls w) {x : Mover} (hc : x.claim = (w.mv n).claim)
    (hl : x.learn = (w.mv n).learn) : Bare m ls (w.setMv n x) := by
  obtain ⟨h1, h2, h3⟩ := h
  by_cases hm : m = n
  · subst hm
    exact ⟨by rw [Work.mv_setMv_self, hc, h1], by rw [Work.mv_setMv_self, hl, h2], h3⟩
  · exact ⟨by rw [Work.mv_setMv_ne _ _ _ _ hm, h1], by rw [Work.mv_setMv_ne _ _ _ _ hm, h2], h3⟩

theorem Bare.recordEnd {m : MoverId} {ls : Learned} {w : Work} (h : Bare m ls w) (c : ChanId) (k : Option Int) :
    Bare m ls (w.recordEnd c k) := by
  simp only [Work.recordEnd]
  split
  · exact h
  · split
    · split
      · refine h.setMv ?_ ?_ <;> rfl
      · exact h
    · exact h

theorem Bare.askCheckpoint {m : MoverId} {ls : Learned} {w : Work} (h : Bare m ls w) (c : ChanId) (b : Bool) :
    Bare m ls (w.askCheckpoint c b) := by
  obtain ⟨st, he, hl, -⟩ := w.askCheckpoint_frame c b
  rw [he]
  exact ⟨h.1, h.2.1, hl.trans h.2.2⟩

theorem Bare.stopChan {m : MoverId} {ls : Learned} {w : Work} (h : Bare m ls w) (k : Cause) (c : ChanId) :
    Bare m ls (w.stopChan k c) := by
  simp only [Work.stopChan]
  split
  · exact (Bare.recordEnd (w := w.setCh c _) h c none).askCheckpoint c false
  · exact h

theorem Bare.stopChans {m : MoverId} {ls : Learned} {w : Work} (h : Bare m ls w) (k : Cause) (l : List ChanId) :
    Bare m ls (l.foldl (Work.stopChan · k) w) := by
  induction l generalizing w with
  | nil => exact h
  | cons c l ih => exact ih (h.stopChan k c)

theorem Bare.closeMotion {m : MoverId} {ls : Learned} {w : Work} (h : Bare m ls w) (hm : m ≠ awn) (r : Run) (k : Cause) :
    Bare m ls (w.closeMotion m r k) := by
  have h1 := h.1
  rw [Work.closeMotion_eq, Work.afterMotion_eq fun e => absurd e hm]
  have hended : Bare m ls (w.setMv m (motionEnded (w.mv m))) :=
    h.setMv ((claimEnded_claim _).trans h1.symm) (claimEnded_learn _)
  refine Bare.setMv (w := (((w.setMv m (motionEnded (w.mv m))).emit _).release (moverTarget m))) hended ?_ ?_ <;> rfl

theorem Bare.endIfAtRest {m : MoverId} {ls : Learned} {w : Work} (h : Bare m ls w) (hm : m ≠ awn) : Bare m ls (w.endIfAtRest m) := by
  simp only [Work.endIfAtRest]
  split
  · cases hr : (w.mv m).run with
    | none => simpa only [Work.moverEnd, hr] using h
    | some r => rw [Work.moverEnd_of_cause h.2.1 hr]; exact h.closeMotion hm r _
  · exact h

theorem Bare.stopMover {m : MoverId} {ls : Learned} {w : Work} (h : Bare m ls w) (hm : m ≠ awn) {k : Cause} (hk : k ≠ .seated) :
    Bare m ls (w.stopMover m k) := by
  cases hs : w.anyCh m Channel.stoppable
  · rw [Work.stopMover_of_nothing h.2.1 hs]; exact h
  · rw [Work.stopMover_of_stoppable h.2.1 hk hs]
    refine Bare.endIfAtRest (Bare.stopChans ?_ k _) hm
    exact h.setMv (by rw [causeNoted_claim, claimEnded_claim, h.1]) (by rw [causeNoted_learn, claimEnded_learn])

/-! ## A queued room in a learning run -/

/-- What the removal of a queued entry makes of a room in a learning run (R57). -/
theorem Work.removeQueued_parts {w : Work} {m : MoverId} (hq : w.isQueued (moverTarget m) = true) (cause : Cause) :
    ∃ v u, v = (w.dequeue (moverTarget m)).setQueued m false ∧ u = v.abortLearn m ∧
      w.removeQueued m cause = (u.emit (.motionEnded m cause (u.leaderPos m) none)).endClaim m :=
  ⟨_, _, rfl, rfl, by simp only [Work.removeQueued, hq, if_true]⟩

theorem Bare.removeQueued {w : Work} {m : MoverId} {l : LearnRun} (hq : w.isQueued (moverTarget m) = true)
    (hl : (w.mv m).learn = some l) (cause : Cause) : Bare m w.store.learned (w.removeQueued m cause) := by
  obtain ⟨v, u, hv, hu, hz⟩ := Work.removeQueued_parts hq cause
  obtain ⟨vec, hvec⟩ := (w.dequeue (moverTarget m)).setQueued_frame m false
  have hvl : (v.mv m).learn = some l := by rw [hv, hvec]; exact hl
  obtain ⟨vec', hvec'⟩ := Work.abortLearn_frame hvl
  rw [hz, Work.endClaim_eq]
  refine ⟨by rw [Work.mv_setMv_self, claimEnded_claim], ?_, ?_⟩
  · rw [Work.mv_setMv_self, claimEnded_learn]
    show (u.mv m).learn = none
    rw [hu, Work.abortLearn_mv hvl]
  · show u.store.learned = _
    rw [hu, hvec', hv, hvec]
    rfl

/-- The queue and the events of the removal, the leader's count cut (R57). -/
theorem Work.removeQueued_events {w : Work} {m : MoverId} {l : LearnRun} {c : ChanId} (hq : w.isQueued (moverTarget m) = true)
    (hl : (w.mv m).learn = some l) (hlead : (w.mv m).leader = some c) (hm : w.moverOf c = some m) (hn : (w.chansOf m).Nodup)
    (cause : Cause) : (w.removeQueued m cause).bud = (w.dequeue (moverTarget m)).bud ∧
      (w.removeQueued m cause).events =
        w.events ++ [.learnRoom m .aborted none none, .motionEnded m cause (cutPos w m c) none] := by
  obtain ⟨v, u, hv, hu, hz⟩ := Work.removeQueued_parts hq cause
  obtain ⟨vec, hvec⟩ := (w.dequeue (moverTarget m)).setQueued_frame m false
  have hvl : (v.mv m).learn = some l := by rw [hv, hvec]; exact hl
  have hc : c ∈ w.chansOf m := by simp [Work.chansOf, Mover.chans, hlead]
  have hform := Work.abortLearn_form hvl (by rw [hv, hvec]; exact hn)
  obtain ⟨vec', hvec'⟩ := Work.abortLearn_frame hvl
  have hpos : (v.ch c).pos = (w.ch c).pos := by rw [hv]; exact (w.dequeue (moverTarget m)).setQueued_pos m false c
  have hcut : (u.ch c).pos = cutPos w m c := by
    rw [hu, hform.ch, cutChan_of_mem (by rw [hv, hvec]; exact hm) (by rw [hv, hvec]; exact hc)]
    show cutPos v m c = _
    rw [cutPos, hpos, hv, hvec]
    rfl
  have hpl : u.leaderPos m = cutPos w m c := by
    have hlead' : (u.mv m).leader = some c := by
      rw [hu, Work.abortLearn_mv hvl]
      show (v.mv m).leader = some c
      rw [hv, hvec]; exact hlead
    simp only [Work.leaderPos, hlead', hcut]
  rw [hz, hpl, Work.endClaim_eq]
  refine ⟨?_, ?_⟩
  · show u.bud = _
    rw [hu, hvec', hv, hvec]
    rfl
  · show u.events ++ _ = _
    rw [hu, hvec', hv, hvec]
    exact List.append_assoc _ _ _

end Sys2Proof.Machine
end

