-- ==== Sys2Proof/Proofs/LearningLocks.lean ====
section
/-! PROOF. Locks in a learning run, and the three ways a run ends ABORTED (R57). -/

namespace Sys2Proof.Machine

set_option Elab.async false

open Sys2Proof.Safety

theorem LockEnd.store {u z : Work} {m : MoverId} {x : Mover} {es : List Event} {g : ChanId → Machine.Channel}
    (h : LockEnd u z m x es g) : z.store = u.store := by
  obtain ⟨v, rfl⟩ := h.form; rfl

theorem Work.lossOf_learned (w : Work) (c : ChanId) (k : LockKind) : (w.lossOf c k).store.learned = w.store.learned := by
  cases h : k.lossy
  · rw [Work.lossOf_of_kept h]
  · obtain ⟨st, hst, hl, -⟩ := (w.setCh c (unplaced (w.ch c))).askCheckpoint_frame c false
    have he : w.lossOf c k = (w.setCh c (unplaced (w.ch c))).askCheckpoint c false := by
      rw [Work.lossOf, h]; rfl
    rw [he, hst]
    exact hl

theorem cutChan_form (w : Work) (m : MoverId) (e : ChanId) : ∃ p, cutChan w m e = { w.ch e with pos := p } := by
  simp only [cutChan]
  split <;> exact ⟨_, rfl⟩

/-- The mover of a learning run that has ended. -/
def unlearnedMover (x : Mover) : Mover := { x with learn := none }

section

variable {y : Work} {m : MoverId} {l : LearnRun} (hl : (y.mv m).learn = some l) (hn : (y.chansOf m).Nodup)
include hl hn

theorem Work.abortLearn_chansOf : (y.abortLearn m).chansOf m = y.chansOf m :=
  (Work.abortLearn_form hl hn).chansOf rfl

/-- A latch of a room in a learning run (R57). -/
theorem Work.latchMover_learn_form (k : LockKind) (coast : Bool) :
    LockEnd y (y.latchMover m k coast) m (causeNoted (claimEnded (unlearnedMover (y.mv m))) .fault)
      [.learnRoom m .aborted none none] fun e =>
        if e ∈ y.chansOf m then latched k coast y.now (cutChan y m e) else cutChan y m e := by
  have ha := Work.abortLearn_form hl hn
  have hch := Work.abortLearn_chansOf hl hn
  have hlearn : ((y.abortLearn m).mv m).learn = none := by rw [ha.mv]
  have hlatch := Work.latchMover_form (w := y.abortLearn m) (m := m) hlearn (by rw [hch]; exact hn) k coast
  have he : y.latchMover m k coast = (y.abortLearn m).latchMover m k coast := by
    simp only [Work.latchMover, Work.endWork, Work.abortLearn_of_none hlearn, hch]
  rw [ha.mv, hch, ha.now] at hlatch
  rw [he]
  have hall := ha.trans hlatch
  refine ⟨by rw [List.append_nil] at hall; exact hall.form, fun e => (hall.ch e).trans ?_⟩
  rw [ha.ch]

/-- A retry of a room in a learning run: the run ends, the claim waits (R57). -/
theorem Work.retryMover_learn_form (c : ChanId) :
    LockEnd y (y.retryMover m c) m (unlearnedMover (y.mv m)) [.learnRoom m .aborted none none] fun e =>
      if e ∈ y.chansOf m then (cutChan y m e).suspend ((y.ch c).retry + 1) (y.now + y.retryWait c) else cutChan y m e := by
  have ha := Work.abortLearn_form hl hn
  have hch := Work.abortLearn_chansOf hl hn
  have hlearn : ((y.abortLearn m).mv m).learn = none := by rw [ha.mv]
  have hretry := Work.retryMover_form (w := y.abortLearn m) (m := m) hlearn (by rw [hch]; exact hn) c
  have hn' : ((y.abortLearn m).ch c).retry = (y.ch c).retry := by
    obtain ⟨p, hp⟩ := cutChan_form y m c
    rw [ha.ch, hp]
  have he : y.retryMover m c = (y.abortLearn m).retryMover m c := by
    simp only [Work.retryMover, Work.abortLearn_of_none hlearn, hch, hn', ha.now, ha.retryWait]
  rw [ha.mv, hch, ha.now, ha.retryWait, hn'] at hretry
  rw [he]
  have hall := ha.trans hretry
  refine ⟨by rw [List.append_nil] at hall; exact hall.form, fun e => (hall.ch e).trans ?_⟩
  rw [ha.ch]

/-- A stop of a room in a learning run that drives (R57). -/
theorem Work.stopMover_learn_form {cause : Cause} (hc : cause ≠ .seated) (hs : ∀ e ∈ y.chansOf m, (y.ch e).starting = false)
    {c : ChanId} (hcm : c ∈ y.chansOf m) (hst : (y.ch c).driving = true) :
    LockEnd y (y.stopMover m cause) m (causeNoted (claimEnded (claimEnded (unlearnedMover (y.mv m)))) cause)
      [.learnRoom m .aborted none none] fun e =>
        if e ∈ y.chansOf m then (cutChan y m e).stopWith cause false y.now else cutChan y m e := by
  have ha := Work.abortLearn_form hl hn
  have hg : LockEnd y (y.given m) m (claimEnded (unlearnedMover (y.mv m))) [.learnRoom m .aborted none none] (cutChan y m) := by
    have hend : LockEnd (y.abortLearn m) (y.given m) m (claimEnded ((y.abortLearn m).mv m)) [] ((y.abortLearn m).ch) := by
      rw [Work.given, Work.endClaim_eq]
      exact ⟨⟨_, by rw [List.append_nil]; rfl⟩, fun _ => rfl⟩
    have hall := ha.trans hend
    rw [ha.mv] at hall
    refine ⟨by rw [List.append_nil] at hall; exact hall.form, fun e => (hall.ch e).trans (ha.ch e)⟩
  have hch := Work.given_chansOf hl
  have hsame := Work.given_sameMotion hl
  have hstop := Work.stopMover_form (w := y.given m) (m := m) (cause := cause) (c := c) (Work.given_learn hl) hc
    (by rw [hch]; exact hn) (fun e he => by rw [(hsame e).starting]; exact hs e (by rwa [hch] at he)) (by rw [hch]; exact hcm)
    (Channel.stoppable_of_driving ((hsame c).driving.trans hst))
  rw [hg.mv, hch, hg.now] at hstop
  rw [Work.stopMover_of_learn hl]
  have hall := hg.trans hstop
  refine ⟨by rw [List.append_nil] at hall; exact hall.form, fun e => (hall.ch e).trans ?_⟩
  rw [hg.ch]

end

/-! ## A lock of a room with one channel in a learning run -/

section

variable {w : Work} {m : MoverId} {c : ChanId} {mo : Motion} (h : Raising w m c mo) {l : LearnRun} (hl : (w.mv m).learn = some l)
include h hl

omit h in
/-- The record of a lock, from which the policies go on. -/
theorem Work.noted_learn (k : LockKind) (a : Policy) (n : Nat) :
    let y := ((w.lossOf c k).receiveLock m c a).noteLock c k a n
    LockEnd (w.lossOf c k) y m (lockHeld (w.mv m) c a w.now) [.lock c k a n] (lockNoted (w.lossOf c k) c k a) ∧
      (y.mv m).learn = some l ∧ y.chansOf m = w.chansOf m := by
  intro y
  have hform := w.noted_form m c k a n
  obtain ⟨r, hr⟩ := lockHeld_form (w.mv m) c a w.now
  have hchans := hform.chansOf (by rw [hr, Work.lossOf_mv]; rfl)
  rw [Work.lossOf_chansOf] at hchans
  exact ⟨hform, by rw [hform.mv, hr]; exact hl, hchans⟩

theorem Raising.latch_learn {k : LockKind} {a : Policy} {coast : Bool} (hp : Latches w c k a coast) :
    ∃ x p, LockEnd (w.lossOf c k) (w.raiseLock c k) m x [.lock c k a (w.ch c).retry, .learnRoom m .aborted none none]
        ((w.raiseLock c k).ch) ∧ x.learn = none ∧ x.claim = none ∧
      (w.raiseLock c k).ch c = latched k coast w.now { lockNoted (w.lossOf c k) c k a c with pos := p } := by
  obtain ⟨hform, hyl, hyc⟩ := Work.noted_learn hl k a (w.ch c).retry
  rw [Work.raiseLock_of_driving h.mover h.motion h.driving, Work.actOnLock_of_latches hp]
  generalize ((w.lossOf c k).receiveLock m c a).noteLock c k a (w.ch c).retry = y at hform hyl hyc
  have hall := hform.trans (Work.latchMover_learn_form hyl (by rw [hyc]; exact h.nodup) k coast)
  obtain ⟨p, hp⟩ := cutChan_form y m c
  refine ⟨_, p, ⟨hall.form, fun _ => rfl⟩, ?_, ?_, ?_⟩
  · rw [causeNoted_learn, claimEnded_learn]; rfl
  · rw [causeNoted_claim, claimEnded_claim]
  · rw [hall.ch, if_pos (by rw [hyc]; exact h.mem), hp, hform.ch, hform.now, Work.lossOf_now]

theorem Raising.retry_learn {k : LockKind} (hp : w.policyOf c k = .retry) (hr : (w.ch c).retry < w.retryLimit c)
    (hd : k.lossy = false ∨ mo.dir = .inward) :
    ∃ x p, LockEnd (w.lossOf c k) (w.raiseLock c k) m x [.lock c k .retry ((w.ch c).retry + 1), .learnRoom m .aborted none none]
        ((w.raiseLock c k).ch) ∧ x.learn = none ∧ x.claim = (w.mv m).claim ∧
      (w.raiseLock c k).ch c =
        ({ retryChan w m c k c with pos := p } : Machine.Channel).suspend ((w.ch c).retry + 1) (w.now + w.retryWait c) := by
  obtain ⟨hnote, hyl, hyc⟩ := Work.noted_learn hl k .retry ((w.ch c).retry + 1)
  have hhome := Work.homedIf_form k.lossy (w := ((w.lossOf c k).receiveLock m c .retry).noteLock c k .retry ((w.ch c).retry + 1))
    (m := m) (by rw [hyc]; exact h.nodup)
  rw [hnote.mv, hyc] at hhome
  have hhome := hnote.trans hhome
  have hact : w.raiseLock c k = ((((w.lossOf c k).receiveLock m c .retry).noteLock c k .retry
      ((w.ch c).retry + 1)).homedIf m k.lossy).retryMover m c := h.raiseLock_of_retry hp hr hd
  rw [hact]
  generalize (((w.lossOf c k).receiveLock m c .retry).noteLock c k .retry ((w.ch c).retry + 1)).homedIf m k.lossy = z at hhome
  have hmover : (if k.lossy = true then homingMover (lockHeld (w.mv m) c .retry w.now) else lockHeld (w.mv m) c .retry w.now) =
      retryMoverOf (w.mv m) c k w.now := rfl
  rw [hmover] at hhome
  obtain ⟨hxc, hxl, hxclaim, -⟩ := retryMoverOf_form (w.mv m) c k w.now
  have hzc : z.chansOf m = w.chansOf m := (hhome.chansOf (by rw [hxc, Work.lossOf_mv])).trans (w.lossOf_chansOf c k m)
  have hch : ∀ e, z.ch e = retryChan w m c k e := fun e => by
    rw [hhome.ch e, retryChan, hnote.ch e]
  have hall := hhome.trans (Work.retryMover_learn_form (y := z) (m := m) (l := l) (by rw [hhome.mv, hxl]; exact hl)
    (by rw [hzc]; exact h.nodup) c)
  obtain ⟨p, hp⟩ := cutChan_form z m c
  refine ⟨_, p, ⟨by rw [List.append_nil] at hall; exact hall.form, fun _ => rfl⟩, rfl, ?_, ?_⟩
  · rw [hhome.mv]; exact hxclaim
  · rw [hall.ch, if_pos (by rw [hzc]; exact h.mem), hp, hch, retryChan_retry, hhome.now, hhome.retryWait, Work.lossOf_now,
      Work.lossOf_retryWait]

/-- A motion that loses its position stops, the run with it (R51, R57). -/
theorem Raising.stopped_learn {u : Work} {a : Policy} {es : List Event} {g : ChanId → Machine.Channel} {k : LockKind}
    (hu : LockEnd (w.lossOf c k) u m (lockHeld (w.mv m) c a w.now) es g) (hg : ∀ e, SameMotion (w.ch e) (g e))
    (hs : ∀ e ∈ w.chansOf m, (w.ch e).starting = false) :
    ∃ x p, LockEnd (w.lossOf c k) (u.stopMover m .positionLost) m x (es ++ [.learnRoom m .aborted none none])
        ((u.stopMover m .positionLost).ch) ∧ x.learn = none ∧ x.claim = none ∧
      (u.stopMover m .positionLost).ch c = ({ g c with pos := p } : Machine.Channel).stopWith .positionLost false w.now := by
  obtain ⟨r, hx⟩ := lockHeld_form (w.mv m) c a w.now
  have hchans := hu.chansOf (by rw [hx, Work.lossOf_mv]; rfl)
  rw [Work.lossOf_chansOf] at hchans
  have hstop := Work.stopMover_learn_form (y := u) (m := m) (l := l) (cause := .positionLost) (c := c) (by rw [hu.mv, hx]; exact hl)
    (by rw [hchans]; exact h.nodup) (by decide)
    (fun e he => by rw [hu.ch, (hg e).starting]; exact hs e (by rw [← hchans]; exact he))
    (by rw [hchans]; exact h.mem) (by rw [hu.ch]; exact (hg c).driving.trans h.driving)
  have hall := hu.trans hstop
  obtain ⟨p, hp⟩ := cutChan_form u m c
  refine ⟨_, p, ⟨hall.form, fun _ => rfl⟩, ?_, ?_, ?_⟩
  · rw [causeNoted_learn, claimEnded_learn, claimEnded_learn]; rfl
  · rw [causeNoted_claim, claimEnded_claim]
  · rw [hall.ch, if_pos (by rw [hchans]; exact h.mem), hp, hu.ch, hu.now, Work.lossOf_now]

end

end Sys2Proof.Machine
end

