-- ==== Sys2Proof/Proofs/LearningEnds.lean ====
section
/-! PROOF. The three ways a learning run ends ABORTED: a stop, a lock, the end of a wait (R57). -/

namespace Sys2Proof.Machine

set_option Elab.async false

open Sys2Proof.Safety

/-! ## A stop -/

section

variable {w : Work} {m : MoverId} {l : LearnRun} {cause : Cause} (hl : (w.mv m).learn = some l)
include hl

/-- Whatever a stop finds, it leaves neither run nor claim (R57). -/
theorem Work.haltMover_learn_bare (hm : m ≠ awn) (hc : cause ≠ .seated) : Bare m w.store.learned (w.haltMover m cause) := by
  cases hq : w.isQueued (moverTarget m)
  · have hb : Bare m w.store.learned (w.given m) :=
      ⟨Work.given_claim hl, Work.given_learn hl, congrArg Store.learned (Work.given_frame hl).2.2.1⟩
    rw [Work.haltMover_of_not_queued hq, Work.stopMover_of_learn hl]
    exact hb.stopMover hm hc
  · rw [Work.haltMover_of_queued hq]
    exact Bare.removeQueued hq hl cause

theorem Work.given_isQueued (t : Fin 6) : (w.given m).isQueued t = w.isQueued t := by
  rw [Work.isQueued, (Work.given_frame hl).1]; rfl

theorem Work.given_anyCh {p : Machine.Channel → Bool} (hp : ∀ x y : Machine.Channel, SameMotion x y → p y = p x) :
    (w.given m).anyCh m p = w.anyCh m p := by
  simp only [Work.anyCh, Work.given_chansOf hl, fun e => hp _ _ (Work.given_sameMotion hl e)]

end

theorem SameMotion.stoppable {x y : Machine.Channel} (h : SameMotion x y) : y.stoppable = x.stoppable := by
  simp only [Channel.stoppable, Channel.stopping, h.motion, h.state]

/-! ## A lock -/

/-- The channel that a stop reaches on a lost position. -/
theorem lostChan_of {x y : Machine.Channel} {mo : Motion} {p : Int} {t : Time} (hm : x.motion = some mo) (hd : x.driving = true)
    (hk : x.known = false) (hy : y = Machine.Channel.stopWith { x with pos := p } .positionLost false t) :
    y.stopping = true ∧ y.duty = 0 ∧ y.bridge = .brake ∧ y.motion.bind (·.cause) = some .positionLost ∧ y.known = false := by
  rw [Channel.stopWith_of_driving (x := { x with pos := p }) hm hd] at hy
  subst hy
  exact ⟨rfl, rfl, rfl, rfl, hk⟩

section

variable {w : Work} {m : MoverId} {c : ChanId} {mo : Motion} {k : LockKind} (h : Raising w m c mo)
include h

omit h in
theorem noted_known (hk : k.lossy = true) (a : Policy) : (lockNoted (w.lossOf c k) c k a c).known = false := by
  rw [lockNoted, if_pos rfl]
  show ((w.lossOf c k).ch c).known = false
  rw [Work.lossOf_ch, if_pos ⟨hk, rfl⟩]; rfl

omit h in
theorem reported_known (hk : k.lossy = true) : (reportedChan w c k c).known = false := by
  have hl : ((w.lossOf c k).ch c).known = false := by rw [Work.lossOf_ch, if_pos ⟨hk, rfl⟩]; rfl
  rw [reportedChan]
  split
  · exact hl
  · exact hl

theorem Raising.retryChan_self (k : LockKind) : (retryChan w m c k c).driving = true := by
  have hn := sameMotion_noted w c k .retry
  rw [retryChan]
  split
  · exact (Channel.driving_toHoming _).trans (hn.driving.trans h.driving)
  · exact hn.driving.trans h.driving

/-- An OUT motion that goes on without its position stops instead, the run with it (R51, R57). -/
theorem Raising.goesOn_outward_learn {l : LearnRun} (hl : (w.mv m).learn = some l)
    (hp : w.policyOf c k = .reportOnly ∨ w.policyOf c k = .ignore) (hk : k.lossy = true) (hd : mo.dir = .outward)
    (hs : ∀ e ∈ w.chansOf m, (w.ch e).starting = false) :
    ∃ x p, LockEnd (w.lossOf c k) (w.raiseLock c k) m x (reportEvents w c k ++ [.learnRoom m .aborted none none])
        ((w.raiseLock c k).ch) ∧ x.learn = none ∧ x.claim = none ∧
      (w.raiseLock c k).ch c =
        ({ reportedChan w c k c with pos := p } : Machine.Channel).stopWith .positionLost false w.now := by
  obtain ⟨u, hu, hz⟩ := h.goesOn hp
  have hact : u.goOn m c (w.policyOf c k) k.lossy mo.dir = (u.receiveLock m c (w.policyOf c k)).stopMover m .positionLost := by
    simp only [Work.goOn, hk, hd, if_true]
  have hheld : LockEnd u (u.receiveLock m c (w.policyOf c k)) m (lockHeld (w.mv m) c (w.policyOf c k) w.now) [] (reportedChan w c k) := by
    rw [Work.receiveLock_eq, hu.mv, hu.now, Work.lossOf_now]
    exact ⟨⟨u.chans, by rw [List.append_nil]; rfl⟩, hu.ch⟩
  have hall := hu.trans hheld
  rw [List.append_nil] at hall
  rw [hz, hact]
  exact h.stopped_learn hl hall (sameMotion_reportedChan w c k) hs

end

theorem lone_raising {w : Work} {m : MoverId} {c : ChanId} (h : Lone w m c) {mo : Motion} (hm : (w.ch c).motion = some mo)
    (hd : (w.ch c).driving = true) : Raising w m c mo := by
  have hc := lone_chansOf h
  exact { mover := h.2.2, motion := hm, driving := hd, nodup := by rw [hc]; exact List.nodup_singleton c,
          mem := by rw [hc]; exact List.mem_singleton_self c }

/-- Settles O46: a stop as one of the room whose run has been given up, a lock by its policy, and the end of a wait. -/
theorem learningRunsEndAborted : Obligations.LearningRunsEndAborted := by
  unfold Obligations.LearningRunsEndAborted
  refine ⟨?_, ?_, ?_⟩
  · intro w m l cause hm hl hseat hfault z cut
    obtain ⟨hclaim, hlearn, hst⟩ := Work.haltMover_learn_bare hl hm hseat
    obtain ⟨hbud, hnow, -, hev⟩ := Work.given_frame hl
    obtain ⟨-, hmove, hstart, hnone⟩ := stopRequestEndsMotion (w.given m) m cause (Work.given_learn hl) hseat hfault
    refine ⟨hlearn, hclaim, hst, fun c hq hlead hmo hn => ?_, fun hq hne hn hs => ?_, fun c r hq hlone hs hr hdw hfc => ?_,
      fun hq hs => ?_⟩
    · have hc : c ∈ w.chansOf m := by simp [Work.chansOf, Mover.chans, hlead]
      obtain ⟨hb, he⟩ := Work.removeQueued_events hq hl hlead (hmo c hc) hn cause
      have hz : z = w.removeQueued m cause := Work.haltMover_of_queued hq cause
      rw [hz]
      exact ⟨by rw [hb]; rfl, by rw [hb]; rfl, he⟩
    · have hz : z = (w.given m).haltMover m cause := Work.haltMover_of_learn hl hq cause
      have hch := Work.given_chansOf hl
      obtain ⟨hin, -, -, he, hb⟩ := hmove ((Work.given_isQueued hl _).trans hq) (by rw [hch]; exact hne) (by rw [hch]; exact hn)
        fun c hc => by
          rw [hch] at hc
          have hsame := Work.given_sameMotion hl c
          exact ⟨hsame.stoppable.trans (hs c hc).2.1, hsame.starting.trans (hs c hc).2.2⟩
      rw [hz]
      refine ⟨fun c hc => ?_, hb.trans hbud, he.trans hev⟩
      obtain ⟨mo, hmo, hzc⟩ := hin c (by rw [hch]; exact hc)
      rw [Work.given_cut hl hn (hs c hc).1 hc] at hmo hzc
      exact ⟨mo, hmo, by rw [hzc, hnow]; rfl⟩
    · have hz : z = (w.given m).haltMover m cause := Work.haltMover_of_learn hl hq cause
      have hcut := Work.given_cut hl (c := c) (by rw [lone_chansOf hlone]; exact List.nodup_singleton c) hlone.2.2
        (by rw [lone_chansOf hlone]; exact List.mem_singleton_self c)
      have hglone : Lone (w.given m) m c := by
        refine ⟨?_, ?_, (Work.given_moverOf hl c).trans hlone.2.2⟩
        · rw [Work.given_mv hl, claimEnded_leader]; exact hlone.1
        · obtain ⟨a, b, hx⟩ := claimEnded_form { w.mv m with learn := none }
          rw [Work.given_mv hl, hx]; exact hlone.2.1
      obtain ⟨hzc, -, hrun, hdue, hadm, he⟩ := hstart c r ((Work.given_isQueued hl _).trans hq) hglone
        ((Work.given_sameMotion hl c).starting.trans hs) hm ((Work.given_run hl).trans hr) hdw hfc
      rw [hcut] at hzc he
      rw [hz]
      refine ⟨hzc, hrun, hdue, by rw [hadm, hbud], ?_⟩
      rw [he, hev, List.append_assoc]
      rfl
    · have hz : z = w.given m := (Work.haltMover_of_learn hl hq cause).trans (hnone ((Work.given_isQueued hl _).trans hq)
        ((Work.given_anyCh hl fun _ _ h => h.stoppable).trans hs))
      rw [hz]
      exact ⟨fun c => (Work.given_sameMotion hl c).motion, Work.given_run hl, hbud, hev⟩
  · intro w c m mo k l hlone hm hd hl x z p ended latched lost
    have h := lone_raising hlone hm hd
    have hs := lone_not_starting hlone hd
    have hnoted (a : Policy) := sameMotion_noted w c k a
    have hstore {y : Mover} {es : List Event} (hz : LockEnd (w.lossOf c k) z m y es z.ch) : z.store.learned = w.store.learned := by
      rw [hz.store, Work.lossOf_learned]
    have hlatch {a : Policy} {b : Bool} (hp : Latches w c k a b) : latched a (if b then .coast else .brake) := by
      obtain ⟨y, p, hz, hyl, hyc, hch⟩ := h.latch_learn hl hp
      have hmo : ({ lockNoted (w.lossOf c k) c k a c with pos := p } : Machine.Channel).motion = some mo :=
        (hnoted a).motion.trans hm
      have hdr : ({ lockNoted (w.lossOf c k) c k a c with pos := p } : Machine.Channel).driving = true :=
        (hnoted a).driving.trans hd
      rw [latched_of_driving hmo hdr] at hch
      have hlast : (lockNoted (w.lossOf c k) c k a c).lastLock = some (k, a) := by rw [lockNoted, if_pos rfl]
      refine ⟨⟨by rw [hz.mv]; exact hyl, hstore hz, ?_⟩, by rw [hz.mv]; exact hyc, ?_, ?_, ?_, ?_, ?_⟩
      · rw [hz.events, Work.lossOf_events]
      · show ((w.raiseLock c k).ch c).stopping = true
        rw [hch]; rfl
      · show ((w.raiseLock c k).ch c).duty = 0
        rw [hch]; rfl
      · show ((w.raiseLock c k).ch c).bridge = _
        rw [hch]; rfl
      · show ((w.raiseLock c k).ch c).fault = some k
        rw [hch]
      · show ((w.raiseLock c k).ch c).lastLock = some (k, a)
        rw [hch]; exact hlast
    refine ⟨fun hp => hlatch (.coast hp), fun hp => hlatch (.brake hp), fun hp hr => hlatch (.spent hp hr), fun hp hr hdir => ?_,
      fun hp hr hk hdir => ?_, fun hp hk hrep => ?_, fun hp hk hrep => ?_, fun hp hk => ?_, fun hp hk => ⟨fun hdir => ?_, fun hdir => ?_⟩⟩
    · obtain ⟨y, q, hz, hyl, hyc, hch⟩ := h.retry_learn hl hp hr hdir
      have hdr : ({ retryChan w m c k c with pos := q } : Machine.Channel).driving = true := h.retryChan_self k
      rw [Channel.suspend_of_driving hdr] at hch
      refine ⟨⟨by rw [hz.mv]; exact hyl, hstore hz, ?_⟩, by rw [hz.mv]; exact hyc, ?_, ?_, ?_, ?_, ?_, ?_⟩
      · rw [hz.events, Work.lossOf_events]
      · rw [hz.bud, Work.lossOf_bud]
      all_goals rw [hch]
      rfl
    · have hz := h.stopped_learn hl (w.noted_form m c k .retry (w.ch c).retry)
        (fun e => (sameMotion_lossOf w c k e).trans (sameMotion_lockNoted (w.lossOf c k) c k .retry e)) hs
      rw [← h.raiseLock_of_lost hp hr hk hdir] at hz
      obtain ⟨y, q, hz, hyl, hyc, hch⟩ := hz
      obtain ⟨h1, h2, h3, h4, h5⟩ := lostChan_of ((hnoted .retry).motion.trans hm) ((hnoted .retry).driving.trans hd)
        (noted_known hk .retry) hch
      refine ⟨⟨by rw [hz.mv]; exact hyl, hstore hz, ?_⟩, by rw [hz.mv]; exact hyc, h1, h2, h3, h4, h5⟩
      rw [hz.events, Work.lossOf_events]; rfl
    · have hno : x.reported.contains k = false := by simpa using hrep
      have hz : z = w.actOnLock m c k mo.dir := Work.raiseLock_of_driving h.mover h.motion h.driving k
      rw [hz]
      simp only [Work.actOnLock, hk, show w.policyOf c k = .reportOnly from hp, show (w.ch c).reported.contains k = false from hno,
        Work.goOn, Bool.false_eq_true, if_false, Work.noteLock, Work.ch_setCh_self, Work.setCh_setCh]
      rfl
    · have hin : (w.ch c).reported.contains k = true := by simpa using hrep
      have hz : z = w.actOnLock m c k mo.dir := Work.raiseLock_of_driving h.mover h.motion h.driving k
      rw [hz]
      simp only [Work.actOnLock, hk, show w.policyOf c k = .reportOnly from hp, hin, Work.goOn, Bool.false_eq_true, if_false, if_true]
    · have hz : z = w.actOnLock m c k mo.dir := Work.raiseLock_of_driving h.mover h.motion h.driving k
      rw [hz]
      simp only [Work.actOnLock, hk, show w.policyOf c k = .ignore from hp, Work.goOn, Bool.false_eq_true, if_false]
    · have hz := h.goesOn_inward hp hk hdir
      have hrm : (reportedChan w c k c).motion = some mo := (sameMotion_reportedChan w c k c).motion.trans hm
      have hrd : (reportedChan w c k c).driving = true := (sameMotion_reportedChan w c k c).driving.trans hd
      have hch : z.ch c = _ := (hz.ch c).trans (if_pos h.mem)
      rw [Channel.cutHoming_of_driving hrm hrd] at hch
      have hhome : (homingMover (w.mv m)).learn = some l ∧ (homingMover (w.mv m)).claim = (w.mv m).claim := by
        simp only [homingMover]
        split <;> exact ⟨hl, rfl⟩
      refine ⟨by rw [hz.mv]; exact hhome.1, by rw [hz.mv]; exact hhome.2, ?_, ?_⟩
      · rw [hch]
        exact (Channel.driving_of_motion (y := { reportedChan w c k c with
          duty := min (reportedChan w c k c).duty (w.dutyOf c .homing),
          motion := some { mo with rampDuty := min mo.rampDuty (w.dutyOf c .homing), profile := .homing } }) hrm rfl rfl rfl).trans hrd
      · rw [hch]; exact reported_known hk
    · obtain ⟨y, q, hz, hyl, hyc, hch⟩ := h.goesOn_outward_learn hl hp hk hdir hs
      obtain ⟨h1, h2, h3, h4, h5⟩ := lostChan_of ((sameMotion_reportedChan w c k c).motion.trans hm)
        ((sameMotion_reportedChan w c k c).driving.trans hd) (reported_known hk) hch
      refine ⟨⟨by rw [hz.mv]; exact hyc, h1, h2, h3, h4, h5⟩, by rw [hz.mv]; exact hyl, ?_⟩
      rw [hz.events]
      simp
  · intro s c m cl t ha h hs ht hc hk
    refine exec_of_event ha rfl ?_
    rw [lone_retryExpiry h hs ht]
    refine Work.endRetry_of_dead ?_
    have hc' : ((s.work.notBefore t).mv m).claim = some cl := hc
    simp only [Work.aliveCause, hc', hk]

end Sys2Proof.Machine
end

