-- ==== Sys2Proof/Proofs/HydraulicRequests.lean ====
section
/-! PROOF. LEVEL_START, LEVEL_CANCEL, JACK_MOVE and JACKS_STOW, by the order of their checks (R76, R77, R79, R104, R115). -/

namespace Sys2Proof.Machine

set_option Elab.async false

open Sys2Proof.Safety

/-! ## A new activity and its pump run -/

/-- The activity whose pump run is pending on the dwell (R61). -/
def Work.pumpPending (w : Work) (a : HydActivity) : Work :=
  { w with hyd := { w.hyd with pendingStart := true, activity := some { a with phase := .running } } }

/-- The activity whose pump run starts, before its own first step (R61). -/
def Work.pumpStarted (w : Work) (a : HydActivity) : Work :=
  { w with hyd := { w.hyd with pump := .running, pdir := a.dir, runStart := some w.now, runHeld := 0, pendingStart := false,
                               activity := some { a with phase := .running, start := some w.now } } }

section start

variable {w : Work} {a : HydActivity}

theorem Work.startActivity_eq (hp : a.phase = .waiting) : w.startActivity a =
    match Work.presentEntry { w with hyd := { w.hyd with activity := some a } } (w.pumpEntry a) with
    | (w2, .accepted) => (w2.admitPump, replyAccepted)
    | (w2, .queued) => (w2, replyQueued)
    | _ => (w, replyQueueFull) := by
  have ha : ({ a with phase := .waiting } : HydActivity) = a := by rw [← hp]
  simp only [Work.startActivity, Work.presentPump, ha]
  generalize hr : Work.presentEntry { w with hyd := { w.hyd with activity := some a } } _ = r
  have hr' : Work.presentEntry { w with hyd := { w.hyd with activity := some a } } (w.pumpEntry a) = r := hr
  rw [hr']
  obtain ⟨w2, st⟩ := r
  cases st <;> rfl

theorem Work.startActivity_fits (hp : a.phase = .waiting) (hf : Fits w (w.profN 0x0274)) :
    w.startActivity a = ((admitted { w with hyd := { w.hyd with activity := some a } } hydTarget (w.profN 0x0274)).admitPump,
      replyAccepted) := by
  have h := Work.presentEntry_of_fits (w := { w with hyd := { w.hyd with activity := some a } }) (q := w.pumpEntry a) hf
  rw [Work.startActivity_eq hp, h]
  rfl

theorem Work.startActivity_off (hp : a.phase = .waiting) (hf : Fits w (w.profN 0x0274)) (ho : w.hyd.pump = .off) :
    w.startActivity a = (((admitted w hydTarget (w.profN 0x0274)).pumpStarted a).atPumpStart
      { a with phase := .running, start := some w.now }, replyAccepted) := by
  rw [Work.startActivity_fits hp hf]
  refine congrArg (·, replyAccepted) ?_
  generalize hy : admitted { w with hyd := { w.hyd with activity := some a } } hydTarget (w.profN 0x0274) = y
  have hpump : (y.setActPhase .running).hyd.pump = .off := by rw [← hy]; exact ho
  simp only [Work.admitPump, hpump]
  subst hy
  rfl

theorem Work.startActivity_dwell (hp : a.phase = .waiting) (hf : Fits w (w.profN 0x0274)) (hd : w.hyd.pump = .dwell) :
    w.startActivity a = ((admitted w hydTarget (w.profN 0x0274)).pumpPending a, replyAccepted) := by
  rw [Work.startActivity_fits hp hf]
  refine congrArg (·, replyAccepted) ?_
  generalize hy : admitted { w with hyd := { w.hyd with activity := some a } } hydTarget (w.profN 0x0274) = y
  have hpump : (y.setActPhase .running).hyd.pump = .dwell := by rw [← hy]; exact hd
  simp only [Work.admitPump]
  split
  · next ho => exact nomatch hpump.symm.trans ho
  · subst hy; rfl

theorem Work.startActivity_room (hp : a.phase = .waiting) (hf : ¬ Fits w (w.profN 0x0274)) (hl : waiting w < w.queueLimit) :
    w.startActivity a = (queued { w with hyd := { w.hyd with activity := some a } } (w.pumpEntry a), replyQueued) := by
  have h := Work.presentEntry_of_room (w := { w with hyd := { w.hyd with activity := some a } }) (q := w.pumpEntry a) hf hl
  rw [Work.startActivity_eq hp, h]

theorem Work.startActivity_full (hp : a.phase = .waiting) (hf : ¬ Fits w (w.profN 0x0274)) (hl : w.queueLimit ≤ waiting w) :
    w.startActivity a = (w, replyQueueFull) := by
  have h := Work.presentEntry_of_full (w := { w with hyd := { w.hyd with activity := some a } }) (q := w.pumpEntry a) hf hl
  rw [Work.startActivity_eq hp, h]

end start

theorem Work.classRefusal_of_lowest {w : Work} {c : MoveClass} {id : Nat} (h : LowestBlocking w.inh c id) :
    w.classRefusal c = some (replyInhibited id) := by
  rw [Work.classRefusal, lowestBlocking_of_lowest h]; rfl

theorem Work.classRefusal_of_clear {w : Work} {c : MoveClass} (h : w.inh &&& c.mask = 0) : w.classRefusal c = none := by
  rw [Work.classRefusal, lowestBlocking_of_clear h]; rfl

theorem Work.settlingStage_of_complete {w : Work} (h : w.stage = .complete) : w.settlingStage = false := by
  simp [Work.settlingStage, h]

theorem Work.settlingStage_of_settling {w : Work} (h : w.stage = .settling) : w.settlingStage = true := by
  simp [Work.settlingStage, h]

/-! ## LEVEL_START -/

/-- The byte of a levelling mode. -/
def levelModeByte (k : LevelMode) : Byte := match k with | .level => 1 | .ground => 2

theorem decodeLevelMode_of (k : LevelMode) : decodeLevelMode (levelModeByte k) = some k := by cases k <;> rfl

theorem decodeLevelMode_of_other {b : Byte} (h1 : b ≠ 1) (h2 : b ≠ 2) : decodeLevelMode b = none := by
  simp only [decodeLevelMode, if_neg h1, if_neg h2]

theorem Work.roomsIdle_iff (w : Work) : w.roomsIdle = true ↔
    (∀ m : MoverId, m ≠ awn → (w.mv m).present = true → w.activity m = .idle) ∧
      (w.mv awn).run = none ∧ (w.mv awn).claim = none ∧ w.isQueued (moverTarget awn) = false := by
  have hrooms : (allRooms.all fun r => !(w.mv r).present || w.activity r == .idle) = true ↔
      ∀ m : MoverId, m ≠ awn → (w.mv m).present = true → w.activity m = .idle := by
    have hmem : ∀ m : MoverId, m ∈ allRooms ↔ m ≠ awn := by decide
    rw [List.all_eq_true]
    refine forall_congr' fun m => ?_
    rw [hmem]
    refine forall_congr' fun _ => ?_
    cases (w.mv m).present <;> simp
  rw [Work.roomsIdle, Bool.and_eq_true, Bool.and_eq_true, Bool.and_eq_true, hrooms, Option.isNone_iff_eq_none,
    Option.isNone_iff_eq_none, Bool.not_eq_true', and_assoc, and_assoc]

section level

variable {w : Work}

/-- The procedure that begins, before its pump run (R104, R105). -/
def Work.levelBegun (w : Work) (k : LevelMode) : Work :=
  { w with
    lvl := { w.lvl with phase := .waiting, mode := some k, pass := 0, pendFlag := none, limitMark := false,
                        settleTest := none, deadline := none, levelHeld := false, drift := 0 },
    events := w.events ++ [.levelPhase .waiting (some k) 0] }

/-- The activity of a procedure (R75). -/
def Work.levelActivity (w : Work) : HydActivity :=
  { kind := .level, dir := .outward,
    jackSet := jacksWhere fun j => w.jackPresent j && !(w.jk j).fenced && (w.jk j).fault.isNone, openSet := noJacks }

theorem Work.acceptLevel_eq (w : Work) (k : LevelMode) : w.acceptLevel k =
    if ((w.levelBegun k).startActivity w.levelActivity).2.status = .queueFull
      then (w, ((w.levelBegun k).startActivity w.levelActivity).2)
      else (w.levelBegun k).startActivity w.levelActivity := rfl

theorem Work.acceptLevel_of {z : Work} {r : Reply} {k : LevelMode} (h : (w.levelBegun k).startActivity w.levelActivity = (z, r))
    (hr : r.status ≠ .queueFull) : w.acceptLevel k = (z, r) := by
  rw [Work.acceptLevel_eq, h, if_neg hr]

variable (hm : w.mode ≠ .unconfigured) (hs : w.stage = .complete)
include hm hs

theorem Work.doLevelStart_of (k : LevelMode) : w.doLevelStart (levelModeByte k) =
    match w.levelRefusal with
    | some r => (w, r)
    | none => w.acceptLevel k := by
  rw [Work.doLevelStart, if_neg hm, Work.settlingStage_of_complete hs, if_neg Bool.false_ne_true, decodeLevelMode_of] <;> rfl

theorem Work.doLevelStart_refused {r : Reply} (h : w.levelRefusal = some r) (k : LevelMode) :
    w.doLevelStart (levelModeByte k) = (w, r) := by
  rw [Work.doLevelStart_of hm hs, h]

end level

section refusal

variable {w : Work}

/-- Checks 6 to 8 of R104, behind those of the work in progress. -/
theorem Work.levelRefusal_of_free (ha : w.hyd.activity = none) (hp : w.hyd.pump ≠ .rest) (hr : w.roomsIdle = true) :
    w.levelRefusal = match w.classRefusal .je with
      | some r => some r
      | none => if w.tilt.fault then some (replyNotReady .tilt)
        else if !w.jacksReady then some (replyNotReady .jacks)
        else none := by
  simp only [Work.levelRefusal, ha, if_neg hp, hr, Option.isSome_none, Bool.false_eq_true, if_false, Bool.not_true] <;> rfl

end refusal

/-- Settles O35: the checks of R104 in order, and a procedure that begins by the table of R144. -/
theorem levelRequests : Obligations.LevelRequests := by
  unfold Obligations.LevelRequests
  intro s tag ht w draw set gives stops
  have hgives {b : Byte} {z : Work} {r : Reply} (h : w.doLevelStart b = (z, r)) : gives b z r := exec_of_request ht rfl h
  have hstops {z : Work} {r : Reply} (h : w.doLevelCancel = (z, r)) : stops z r := exec_of_request ht rfl h
  refine ⟨w.roomsIdle_iff, fun hm => ⟨fun b => hgives (if_pos hm), hstops (if_pos hm)⟩, fun hm hl => hstops ?_,
    fun hm hl => hstops ?_, fun hm hs b => hgives ?_, fun hm hs b h1 h2 => hgives ?_, ?_⟩
  · rw [Work.doLevelCancel, if_neg hm, Work.cancelHyd, if_neg (not_not.mpr hl)]; rfl
  · rw [Work.doLevelCancel, if_neg hm, Work.cancelHyd, if_pos hl]; rfl
  · rw [Work.doLevelStart, if_neg hm, Work.settlingStage_of_settling hs]; rfl
  · rw [Work.doLevelStart, if_neg hm, Work.settlingStage_of_complete hs, decodeLevelMode_of_other h1 h2]; rfl
  · intro hm hs k b hb
    have hb' : b = levelModeByte k := hb
    subst hb'
    have href {r : Reply} (h : w.levelRefusal = some r) : gives (levelModeByte k) w r :=
      hgives (Work.doLevelStart_refused hm hs h k)
    refine ⟨fun ha => href (if_pos ha), fun ha hp => href ?_, fun ha hp hr => href ?_, fun ha hp hr => ?_⟩
    · rw [Work.levelRefusal, ha, if_neg nofun, if_pos hp]; rfl
    · rw [Work.levelRefusal, ha, if_neg nofun, if_neg hp, hr]; rfl
    · have hfree := Work.levelRefusal_of_free ha hp hr
      refine ⟨fun id hid => href ?_, fun hi hf => href ?_, fun hi hf hj => href ?_, fun hi hf hj => ?_⟩
      · rw [hfree, Work.classRefusal_of_lowest hid]; rfl
      · rw [hfree, Work.classRefusal_of_clear hi, hf]; rfl
      · rw [hfree, Work.classRefusal_of_clear hi, hf, hj]; rfl
      · intro a w1 w2
        have hnone : w.levelRefusal = none := by rw [hfree, Work.classRefusal_of_clear hi, hf, hj]; rfl
        have hgo := w.doLevelStart_of hm hs k
        rw [hnone] at hgo
        have hacc {z : Work} {r : Reply} (h : (w.levelBegun k).startActivity w.levelActivity = (z, r)) (hr : r.status ≠ .queueFull) :
            gives (levelModeByte k) z r := hgives (hgo.trans (Work.acceptLevel_of h hr))
        refine ⟨fun hfit ho => ?_, fun hfit hd => ?_, fun hfit hroom => ?_, fun hfit hroom => ?_⟩
        · have hst := Work.startActivity_off (w := w.levelBegun k) (a := w.levelActivity) rfl hfit ho
          exact hacc hst nofun
        · exact hacc (Work.startActivity_dwell (w := w.levelBegun k) (a := w.levelActivity) rfl hfit hd) nofun
        · exact hacc (Work.startActivity_room (w := w.levelBegun k) (a := w.levelActivity) rfl hfit hroom) nofun
        · have hst := Work.startActivity_full (w := w.levelBegun k) (a := w.levelActivity) rfl hfit hroom
          refine hgives (hgo.trans ?_)
          rw [Work.acceptLevel_eq, hst]
          rfl

end Sys2Proof.Machine
end

