-- ==== Sys2Proof/Proofs/JackRequests.lean ====
section
/-! PROOF. JACK_MOVE and JACKS_STOW (R76, R77, R79). -/

namespace Sys2Proof.Machine

set_option Elab.async false

open Sys2Proof.Safety

section checks

variable {w : Work} {mask : Byte}

theorem Work.maskRefusal_of_fenced (h : ∃ j : JackId, mask.getLsbD j.val = true ∧ (w.jk j).fenced = true) :
    w.maskRefusal mask = some { status := .fenced } := by
  obtain ⟨j, hj, hf⟩ := h
  exact if_pos (List.any_eq_true.mpr ⟨j, mem_allJacks j, by rw [hj, hf]; rfl⟩)

theorem any_jacks_eq_false {p q : JackId → Bool} (h : ∀ j, p j = true → q j = false) : (allJacks.any fun j => p j && q j) = false := by
  refine List.any_eq_false.mpr fun j _ => ?_
  cases hp : p j
  · simp
  · simp [h j hp]

theorem Work.maskRefusal_of_faulted (h : ∀ j : JackId, mask.getLsbD j.val = true → (w.jk j).fenced = false)
    (hx : ∃ j : JackId, mask.getLsbD j.val = true ∧ (w.jk j).fault.isSome = true) :
    w.maskRefusal mask = some { status := .faulted } := by
  obtain ⟨j, hj, hf⟩ := hx
  have hany := any_jacks_eq_false (p := fun j => mask.getLsbD j.val) (q := fun j => (w.jk j).fenced) h
  rw [Work.maskRefusal, hany]
  exact if_pos (List.any_eq_true.mpr ⟨j, mem_allJacks j, by rw [hj, hf]; rfl⟩)

theorem Work.maskRefusal_of_sound (h : ∀ j : JackId, mask.getLsbD j.val = true → (w.jk j).fenced = false)
    (hx : ∀ j : JackId, mask.getLsbD j.val = true → (w.jk j).fault = none) : w.maskRefusal mask = none := by
  have hfen := any_jacks_eq_false (p := fun j => mask.getLsbD j.val) (q := fun j => (w.jk j).fenced) h
  have hflt := any_jacks_eq_false (p := fun j => mask.getLsbD j.val) (q := fun j => (w.jk j).fault.isSome)
    fun j hj => by rw [hx j hj]; rfl
  rw [Work.maskRefusal, hfen, hflt]; rfl

end checks

/-! ## JACK_MOVE -/

section move

variable {w : Work} {mask : Byte} {d : Dir}

theorem Work.doJackMove_of (hm : w.mode ≠ .unconfigured) (hs : w.stage = .complete) :
    w.doJackMove mask (dirByte d) = w.jackRequest mask (some d) := by
  rw [Work.doJackMove, if_neg hm, Work.settlingStage_of_complete hs, if_neg Bool.false_ne_true, decodeDir_of]

theorem Work.newMove_of_bad (h : w.maskOk mask = false) : w.newMove mask d = (w, replyBadArgument) := by
  rw [Work.newMove, h]; rfl

theorem Work.newMove_of_refused (h : w.maskOk mask = true) {r : Reply} (hr : w.maskRefusal mask = some r) :
    w.newMove mask d = (w, r) := by
  rw [Work.newMove, h, hr]; rfl

/-- Checks 5 to 8 of R76, behind those of the mask. -/
theorem Work.newMove_of_sound (h : w.maskOk mask = true) (hr : w.maskRefusal mask = none) : w.newMove mask d =
    if w.hyd.pump = .rest then (w, replyBusy .pumpRest)
    else match w.classRefusal (jackClass d) with
      | some r => (w, r)
      | none => if (w.movable mask d).isEmpty then (w, replyDone)
        else w.startActivity { kind := .manual, dir := d, jackSet := w.movable mask d, openSet := w.movable mask d,
                               lease := some (w.now + w.holdWindow) } := by
  rw [Work.newMove, h, hr] <;> rfl

end move

/-- The table of a new activity, as the two requests state it (R65, R144). -/
theorem startActivity_begins {w : Work} {a : HydActivity} (hp : a.phase = .waiting) {answers : Work → Reply → Prop}
    (h : ∀ {z r}, w.startActivity a = (z, r) → answers z r) :
    (Fits w (w.profN 0x0274) → w.hyd.pump = .off → answers (((admitted w hydTarget (w.profN 0x0274)).pumpStarted a).atPumpStart
      { a with phase := .running, start := some w.now }) { status := .accepted }) ∧
    (Fits w (w.profN 0x0274) → w.hyd.pump = .dwell →
      answers ((admitted w hydTarget (w.profN 0x0274)).pumpPending a) { status := .accepted }) ∧
    (¬ Fits w (w.profN 0x0274) → waiting w < w.queueLimit →
      answers (queued { w with hyd := { w.hyd with activity := some a } } (w.pumpEntry a)) { status := .queued }) ∧
    (¬ Fits w (w.profN 0x0274) → w.queueLimit ≤ waiting w → answers w { status := .queueFull }) :=
  ⟨fun hf ho => h (Work.startActivity_off hp hf ho), fun hf hd => h (Work.startActivity_dwell hp hf hd),
    fun hf hl => h (Work.startActivity_room hp hf hl), fun hf hl => h (Work.startActivity_full hp hf hl)⟩

/-! ## JACK_MOVE again -/

section again

variable {w : Work} {a : HydActivity} {mask : Byte} {d : Dir} (ha : w.hyd.activity = some a) (hk : a.kind = .manual)
include ha hk

theorem Work.jackRequest_of_manual : w.jackRequest mask (some d) = w.moveAgain a mask d := by
  simp only [Work.jackRequest, ha, hk, if_true]

omit hk in
theorem Work.jackRequest_of_other (hk : a.kind ≠ .manual) : w.jackRequest mask (some d) = (w, replyBusy .hydraulic) := by
  simp only [Work.jackRequest, ha, if_neg hk]

omit ha hk in
theorem Work.moveAgain_of_refused (hd : a.dir = d) (h : w.maskOk mask = true) {r : Reply} (hr : w.maskRefusal mask = some r) :
    w.moveAgain a mask d = (w, r) := by
  rw [Work.moveAgain, if_pos hd.symm, h, hr]; rfl

omit ha hk in
theorem Work.moveAgain_of_sound (hd : a.dir = d) (h : w.maskOk mask = true) (hr : w.maskRefusal mask = none) :
    w.moveAgain a mask d = match w.classRefusal (jackClass d) with
      | some r => (w, r)
      | none => (w.renewMove (w.movable mask d), replyRenewed) := by
  rw [Work.moveAgain, if_pos hd.symm, h, hr]
  cases w.classRefusal (jackClass d) <;> rfl

/-- The MANUAL activity with its lease moved and its jacks replaced (R77). -/
def Work.movedAgain (w : Work) (a : HydActivity) (set : JackSet) : Work :=
  { w with
    hyd := { w.hyd with activity := some { a with lease := some (w.now + w.holdWindow), jackSet := set, openSet := set } },
    bud := { w.bud with queue := w.bud.queue.map fun (e : Queued) =>
      if e.target = hydTarget then { e with lease := some (w.now + w.holdWindow) } else e } }

theorem Work.renewMove_of_manual (set : JackSet) : w.renewMove set =
    if set.isEmpty then (w.movedAgain a set).endActivity .complete false else w.movedAgain a set := by
  have hw : w.renewMove set = (w.movedAgain a set).checkWork := by
    simp only [Work.renewMove, ha]; rfl
  rw [hw]
  exact Work.checkWork_of_manual (w := w.movedAgain a set) rfl hk

end again

/-- Settles O36: the checks of R76, R77 and R79 in order, and an activity that begins by the table of R144. -/
theorem jackRequests : Obligations.JackRequests := by
  unfold Obligations.JackRequests
  intro s tag mask d ht w draw gives stow run begins
  have hgives {z : Work} {r : Reply} (h : w.doJackMove mask (dirByte d) = (z, r)) : gives z r := exec_of_request ht rfl h
  have hstow {z : Work} {r : Reply} (h : w.doStow = (z, r)) : stow z r := exec_of_request ht rfl h
  refine ⟨fun hm => ⟨hgives (if_pos hm), hstow (if_pos hm)⟩, fun hm hs => ⟨hgives ?_, hstow ?_⟩, fun hm hs ha => ?_,
    fun hm hs a ha => ?_⟩
  · rw [Work.doJackMove, if_neg hm, Work.settlingStage_of_settling hs]; rfl
  · rw [Work.doStow, if_neg hm, Work.settlingStage_of_settling hs]; rfl
  · have hmove {z : Work} {r : Reply} (h : w.newMove mask d = (z, r)) : gives z r := by
      refine hgives ((Work.doJackMove_of hm hs).trans (Eq.trans ?_ h))
      simp only [Work.jackRequest, ha]
    have hreq {z : Work} {r : Reply} (h : w.stowRequest = (z, r)) : stow z r := by
      refine hstow (Eq.trans ?_ h)
      rw [Work.doStow, if_neg hm, Work.settlingStage_of_complete hs, ha]; rfl
    refine ⟨fun hb => hmove (Work.newMove_of_bad hb), fun hb hf => hmove (Work.newMove_of_refused hb (Work.maskRefusal_of_fenced hf)),
      fun hb hf => ⟨fun hx => hmove (Work.newMove_of_refused hb (Work.maskRefusal_of_faulted hf hx)), fun hx => ?_⟩,
      fun hp => hreq (if_pos hp), fun hp => ?_⟩
    · have hnew := Work.newMove_of_sound (d := d) hb (Work.maskRefusal_of_sound hf hx)
      refine ⟨fun hp => hmove (hnew.trans (if_pos hp)), fun hp => ?_⟩
      have hnew := hnew.trans (if_neg hp)
      refine ⟨fun id hid => hmove (hnew.trans (by rw [Work.classRefusal_of_lowest hid]; rfl)), fun hi => ?_⟩
      rw [Work.classRefusal_of_clear hi] at hnew
      refine ⟨fun he => hmove (hnew.trans (if_pos he)), fun he => ?_⟩
      exact startActivity_begins rfl fun h => hmove (hnew.trans ((if_neg (by rw [he]; exact Bool.false_ne_true)).trans h))
    · have hst : w.stowRequest = match w.classRefusal .jr with
          | some r => (w, r)
          | none =>
            if w.allRetracted then (w, replyDone)
            else if w.stowSet.isEmpty then (w, replyNotReady .jacks)
            else w.startActivity { kind := .stow, dir := .inward, jackSet := w.stowSet, openSet := w.stowSet } := if_neg hp
      refine ⟨fun id hid => hreq (hst.trans (by rw [Work.classRefusal_of_lowest hid]; rfl)), fun hi => ?_⟩
      rw [Work.classRefusal_of_clear hi] at hst
      refine ⟨fun hr => hreq (hst.trans (if_pos hr)), fun hr he => hreq (hst.trans ?_), fun hr he => ?_⟩
      · dsimp only
        rw [hr, he]; rfl
      · refine startActivity_begins (a := { kind := .stow, dir := .inward, jackSet := w.stowSet, openSet := w.stowSet }) rfl fun h => hreq (hst.trans (Eq.trans ?_ h))
        dsimp only
        rw [hr, he]; rfl
  · have hreq {z : Work} {r : Reply} (h : w.jackRequest mask (some d) = (z, r)) : gives z r :=
      hgives ((Work.doJackMove_of hm hs).trans h)
    have hagain (hk : a.kind = .manual) {z : Work} {r : Reply} (h : w.moveAgain a mask d = (z, r)) : gives z r :=
      hreq ((Work.jackRequest_of_manual ha hk).trans h)
    refine ⟨hstow ?_, fun hk => hreq (Work.jackRequest_of_other ha hk), fun hk hd => hagain hk (if_neg fun e => hd e.symm),
      fun hk hd hb => hagain hk ?_, fun hk hd hb hf => hagain hk (Work.moveAgain_of_refused hd hb (Work.maskRefusal_of_fenced hf)),
      fun hk hd hb hf hx => hagain hk (Work.moveAgain_of_refused hd hb (Work.maskRefusal_of_faulted hf hx)), fun hk hd hb hsound => ?_⟩
    · rw [Work.doStow, if_neg hm, Work.settlingStage_of_complete hs, ha]; rfl
    · rw [Work.moveAgain, if_pos hd.symm, hb]; rfl
    · have hgo := Work.moveAgain_of_sound (a := a) hd hb (Work.maskRefusal_of_sound (fun j hj => (hsound j hj).1) fun j hj => (hsound j hj).2)
      refine ⟨fun id hid => hagain hk (hgo.trans (by rw [Work.classRefusal_of_lowest hid]; rfl)), fun hi => ?_⟩
      intro till u
      rw [Work.classRefusal_of_clear hi] at hgo
      have hren := Work.renewMove_of_manual ha hk (w.movable mask d)
      refine ⟨fun he => hagain hk (hgo.trans ?_), fun he => hagain hk (hgo.trans ?_)⟩
      · dsimp only
        rw [hren, he]; rfl
      · dsimp only
        rw [hren, he]; rfl

end Sys2Proof.Machine
end

