-- ==== Sys2Proof/Proofs/StrokeSamples.lean ====
section
/-! PROOF. The stroke samples and the grounded flag of a present jack (R68, R70..R73, R78). -/

namespace Sys2Proof.Machine

set_option Elab.async false

open Sys2Proof.Safety

/-! ## The grounded flag -/

theorem Work.setJk_setJk (w : Work) (j : JackId) (x y : Jack) : (w.setJk j x).setJk j y = w.setJk j y := by
  simp [Work.setJk]

theorem Work.setJk_jk (w : Work) (j : JackId) : w.setJk j (w.jk j) = w := by
  simp [Work.setJk, Work.jk]

theorem Jack.read_of_fourth {x : Jack} (hs : x.groundSettled = true) {b : Bool} (hb : b ≠ x.grounded) :
    ({ x with groundRun := 3, latestRead := b } : Jack).read b = { x with grounded := b, groundRun := 0, latestRead := b } := by
  simp [Jack.read, hs, hb]

/-- The fourth agreeing read changes the flag, which the procedure follows (R70, R106). -/
theorem Work.groundChange_of {w : Work} {j : JackId} (hp : w.jackPresent j = true) (hs : (w.jk j).groundSettled = true) {b : Bool}
    (hb : b ≠ (w.jk j).grounded) : w.groundChange j b =
      ((w.showGround j b).setJk j { w.jk j with grounded := b, groundRun := 0, latestRead := b }).followGround := by
  have hno : ((w.jk j).groundSettled && b == (w.jk j).grounded) = false := by simp [hs, hb]
  generalize hu : (w.showGround j b).setJk j { w.jk j with groundRun := 3, latestRead := b } = u
  have hup : u.jackPresent j = true := by rw [← hu]; exact hp
  have huj : u.jk j = { w.jk j with groundRun := 3, latestRead := b } := by rw [← hu, Work.jk_setJk_self]
  have hread : (u.jk j).read b = { w.jk j with grounded := b, groundRun := 0, latestRead := b } := by
    rw [huj]; exact Jack.read_of_fourth hs hb
  have hgr : (u.jk j).grounded = (w.jk j).grounded := by rw [huj]
  have hch : w.groundChange j b = u.readSwitch j b := by
    simp only [Work.groundChange, hp, hno, if_true, Bool.false_eq_true, if_false, hu]
  have hne : ¬ ((u.setJk j ((u.jk j).read b)).jk j).grounded = (u.jk j).grounded := by
    rw [Work.jk_setJk_self, hread, hgr]; exact hb
  rw [hch, Work.readSwitch, if_pos hup, if_neg hne, hread, ← hu, Work.setJk_setJk]

/-! ## A stroke sample -/

/-- The work in which a stroke is sampled. -/
def Work.strokeWork (w : Work) (j : JackId) (raw : BitVec 12) : Work :=
  (w.notBefore (match (w.jk j).sampleAt with | some t => t + 10000 | none => 0)).showStroke j raw

/-- The stroke of a sample (R71). -/
def Work.strokeAtRaw (w : Work) (j : JackId) (raw : BitVec 12) : Nat :=
  (max 0 (min 400 ((((raw.toNat : Int) - w.prof (0x0408 + j.val)) * w.prof (0x0410 + j.val)).tdiv 256))).toNat

/-- A jack's record after a sample in range. -/
def Work.strokeJack (w : Work) (j : JackId) (x : Jack) (raw : BitVec 12) : Jack :=
  x.inSample (w.strokeAtRaw j raw) (w.profN 0x0403) (w.profN 0x0404) (w.strokeWork j raw).now

/-- What a sample in range brings to the hydraulic work (R78, R80, R109). -/
def Work.noteSample (u : Work) (j : JackId) (x y : Jack) : Work :=
  if y.retracted && !x.retracted then (if y.atLimit && !x.atLimit then u.atLimitSet j else u).retractedSet j
  else if y.atLimit && !x.atLimit then u.atLimitSet j else u

section sample

variable {w : Work} {j : JackId} {raw : BitVec 12}

theorem Work.strokeAt_eq (hp : w.jackPresent j = true) : w.strokeAt j raw = (w.strokeWork j raw).sampleStroke j raw.toNat := by
  rw [Work.strokeAt, if_pos hp]
  rfl

theorem strokeInRange_iff (n : Nat) : strokeInRange n = true ↔ 32 ≤ n ∧ n ≤ 4063 := by
  simp [strokeInRange]

/-- A sample in range, of a jack whose record was written just before. -/
theorem Work.strokeAt_in (hp : w.jackPresent j = true) (hr : 32 ≤ raw.toNat ∧ raw.toNat ≤ 4063) {x : Jack}
    (hx : x.sampleAt = (w.jk j).sampleAt) : (w.setJk j x).strokeAt j raw =
      ((w.strokeWork j raw).setJk j (w.strokeJack j x raw)).noteSample j x (w.strokeJack j x raw) := by
  generalize hv : (w.setJk j x).strokeWork j raw = v
  have hw : v = (w.strokeWork j raw).setJk j x := by
    rw [← hv, Work.strokeWork, Work.jk_setJk_self, hx]; rfl
  have hvp : v.jackPresent j = true := by rw [hw]; exact hp
  have hvj : v.jk j = x := by rw [hw, Work.jk_setJk_self]
  have hy : (v.jk j).inSample (strokeOf raw.toNat (v.prof (0x0408 + j.val)) (v.prof (0x0410 + j.val))) (v.profN 0x0403)
      (v.profN 0x0404) v.now = w.strokeJack j x raw := by
    rw [hvj, hw]; rfl
  rw [Work.strokeAt_eq (w := w.setJk j x) hp, hv, Work.sampleStroke, if_pos hvp, if_pos ((strokeInRange_iff _).mpr hr)]
  simp only [Work.jk_setJk_self, hvj]
  rw [hvj] at hy
  rw [hy, hw, Work.setJk_setJk]
  rfl

theorem Work.strokeAt_plain (hp : w.jackPresent j = true) (hr : 32 ≤ raw.toNat ∧ raw.toNat ≤ 4063) : w.strokeAt j raw =
    ((w.strokeWork j raw).setJk j (w.strokeJack j (w.jk j) raw)).noteSample j (w.jk j) (w.strokeJack j (w.jk j) raw) := by
  have h := Work.strokeAt_in hp hr (x := w.jk j) rfl
  rwa [Work.setJk_jk] at h

/-- The record before the sample that completes 500 ms at or below the threshold. -/
def lowJack (x : Jack) : Jack := { x with lowRun := 49, samples := max 49 x.samples }

theorem Work.lastLowSample_of (hp : w.jackPresent j = true) (hr : 32 ≤ raw.toNat ∧ raw.toNat ≤ 4063)
    (hs : (w.jk j).retractSettled = true) : w.lastLowSample j raw =
      ((w.strokeWork j raw).setJk j (w.strokeJack j (lowJack (w.jk j)) raw)).noteSample j (lowJack (w.jk j))
        (w.strokeJack j (lowJack (w.jk j)) raw) := by
  rw [← Work.strokeAt_in hp hr (x := lowJack (w.jk j)) rfl, Work.lastLowSample, if_pos hs]
  rfl

end sample

/-! ## The record of a sample in range -/

section record

variable {x : Jack} (hf : x.fault ≠ some .strokeSensor) (v threshold limit : Nat) (now : Time)
include hf

theorem Jack.inSample_of_sound : x.inSample v threshold limit now = { x with
    stroke := v, valid := true, outOfRange := 0, strokeSettled := true,
    lowRun := if v ≤ threshold then min 50 (x.lowRun + 1) else 0,
    retracted := decide (v ≤ threshold) && (x.retracted || (if v ≤ threshold then min 50 (x.lowRun + 1) else 0) == 50),
    atLimit := decide (limit ≤ v + 5), samples := min 50 (x.samples + 1),
    retractSettled := x.retractSettled || min 50 (x.samples + 1) == 50, sampleAt := some now } := by
  have hv : (x.fault != some .strokeSensor) = true := bne_iff_ne.mpr hf
  simp [Jack.inSample, hv, Config.retractSamples]

end record

/-! ## A sample out of range -/

/-- The record of a jack that has lost its sensor (R72). -/
def sensorLost (x : Jack) (now : Time) : Jack :=
  { x with lowRun := 0, retracted := false, samples := min 50 (x.samples + 1),
           retractSettled := (x.retractSettled || min 50 (x.samples + 1) == 50) || !x.strokeSettled, sampleAt := some now,
           valid := false, outOfRange := 0, strokeSettled := true }

/-- The record after the third sample out of range, before the sensor is judged. -/
def outOfRangeJack (x : Jack) (now : Time) : Jack :=
  { x with lowRun := 0, retracted := false, samples := min 50 (x.samples + 1),
           retractSettled := x.retractSettled || min 50 (x.samples + 1) == 50, sampleAt := some now, outOfRange := 3 }

theorem Work.thirdOutOfRange_of {w : Work} {j : JackId} {raw : BitVec 12} (hp : w.jackPresent j = true)
    (hr : raw.toNat < 32 ∨ 4063 < raw.toNat) (hf : (w.jk j).fenced = false) (hx : (w.jk j).fault = none) :
    w.thirdOutOfRange j raw =
      ((w.strokeWork j raw).setJk j (sensorLost (w.jk j) (w.strokeWork j raw).now)).faultJack j .strokeSensor := by
  generalize hx' : ({ w.jk j with outOfRange := max 2 (w.jk j).outOfRange } : Jack) = x
  have hthird : w.thirdOutOfRange j raw = (w.setJk j x).strokeAt j raw := by
    have hno : ((w.jk j).fenced || (w.jk j).fault == some .strokeSensor) = false := by simp [hf, hx]
    rw [Work.thirdOutOfRange, hno, ← hx']; rfl
  generalize hv : (w.setJk j x).strokeWork j raw = v
  have hw : v = (w.strokeWork j raw).setJk j x := by
    rw [← hv, Work.strokeWork, Work.jk_setJk_self, ← hx']; rfl
  have hvp : v.jackPresent j = true := by rw [hw]; exact hp
  have hvj : v.jk j = x := by rw [hw, Work.jk_setJk_self]
  have hno : ¬ strokeInRange raw.toNat = true := by rw [strokeInRange_iff]; omega
  have hout : x.outSample v.now = outOfRangeJack x v.now := by
    have h3 : min 3 (max 2 (w.jk j).outOfRange + 1) = 3 := by omega
    subst hx'
    simp only [Jack.outSample, hf, hx, h3, outOfRangeJack]
    rfl
  generalize hy : x.outSample v.now = y at hout
  have hyr : (3 ≤ y.outOfRange && y.fault.isNone) = true := by
    subst hx'; rw [hout]; simp [outOfRangeJack, hx]
  rw [hthird, Work.strokeAt_eq (w := w.setJk j x) hp, hv, Work.sampleStroke, if_pos hvp, if_neg hno, hvj, hy]
  simp only [Work.judgeStrokeSensor, Work.jk_setJk_self, hyr, if_true]
  rw [hw, Work.setJk_setJk, Work.setJk_setJk, hout, ← hx', hw]
  rfl

end Sys2Proof.Machine
end

