-- ==== Sys2Proof/Proofs/JackSensors.lean ====
section
/-! PROOF. What the samples of a jack bring to the hydraulic work (R72, R73, R78, R80, R109, R117). -/

namespace Sys2Proof.Machine

set_option Elab.async false

open Sys2Proof.Safety

/-! ## An activity that takes no part -/

theorem Work.endActivity_activity (w : Work) (o : EndOutcome) (b : Bool) : (w.endActivity o b).hyd.activity = none := by
  cases h : w.hyd.activity with
  | none => simp only [Work.endActivity, h]
  | some a =>
    simp only [Work.endActivity, h]
    split <;> rfl

theorem Work.endLevel_activity {w : Work} (h : w.lvl.phase ≠ .idle) (o : EndOutcome) (b : Bool) :
    (w.endLevel o b).hyd.activity = none := by
  rw [Work.endLevel, if_neg h]
  exact w.endActivity_activity o b

/-- A retracted jack is nothing to an OUT move and to a procedure (R78). -/
theorem Work.retractedSet_of_other {w : Work} {j : JackId}
    (h : ∀ a, w.hyd.activity = some a → a.kind = .level ∨ (a.kind = .manual ∧ a.dir = .outward)) : w.retractedSet j = w := by
  cases ha : w.hyd.activity with
  | none => simp only [Work.retractedSet, ha]
  | some a =>
    rcases h a ha with hk | ⟨hk, hd⟩
    · simp only [Work.retractedSet, ha, hk]
    · simp only [Work.retractedSet, ha, hk, hd]
      exact if_neg nofun

/-- A jack at its limit is nothing to an IN move and to a stow (R78). -/
theorem Work.atLimitSet_of_other {w : Work} {j : JackId}
    (h : ∀ a, w.hyd.activity = some a → a.kind = .stow ∨ (a.kind = .manual ∧ a.dir = .inward)) : w.atLimitSet j = w := by
  cases ha : w.hyd.activity with
  | none => simp only [Work.atLimitSet, ha]
  | some a =>
    rcases h a ha with hk | ⟨hk, hd⟩
    · simp only [Work.atLimitSet, ha, hk]
    · simp only [Work.atLimitSet, ha, hk, hd]
      exact if_neg nofun

theorem Work.noteSample_of_none {u : Work} (h : u.hyd.activity = none) (j : JackId) (x y : Jack) : u.noteSample j x y = u := by
  have hl : u.atLimitSet j = u := Work.atLimitSet_of_other fun a ha => nomatch h.symm.trans ha
  have hr : u.retractedSet j = u := Work.retractedSet_of_other fun a ha => nomatch h.symm.trans ha
  simp only [Work.noteSample, hl, hr, ite_self]

/-! ## A jack that leaves an activity -/

/-- The work whose activity has other jack sets. -/
def Work.withSets (u : Work) (a : HydActivity) (js os : JackSet) : Work :=
  { u with hyd := { u.hyd with activity := some { a with jackSet := js, openSet := os } } }

theorem Work.dropJack_of {u : Work} {a : HydActivity} (ha : u.hyd.activity = some a) (j : JackId) :
    u.dropJack j = u.withSets a (a.jackSet.without j) (a.openSet.without j) := by
  simp only [Work.dropJack, ha]
  exact Work.setJacks_of ha _ _

theorem Work.setOpen_of {u : Work} {a : HydActivity} (ha : u.hyd.activity = some a) (s : JackSet) :
    u.setOpen s = u.withSets a a.jackSet (s.inter a.jackSet) := by
  simp only [Work.setOpen, ha]; rfl

theorem Work.checkWork_withSets_manual {u : Work} {a : HydActivity} (hk : a.kind = .manual) (js os : JackSet) :
    (u.withSets a js os).checkWork =
      if js.isEmpty = true then (u.withSets a js os).endActivity .complete false else u.withSets a js os :=
  Work.checkWork_of_manual (w := u.withSets a js os) (a := { a with jackSet := js, openSet := os }) rfl hk

section manual

variable {u : Work} {a : HydActivity} {j : JackId} {x y : Jack} (ha : u.hyd.activity = some a) (hk : a.kind = .manual)
  (hp : a.phase = .running) (hs : a.jackSet.has j = true)
include ha hk hp hs

/-- A jack of an OUT move reaches its limit (R78). -/
theorem Work.noteSample_out (hd : a.dir = .outward) (hx : x.atLimit = false) (hy : y.atLimit = true) : u.noteSample j x y =
    (u.withSets a (a.jackSet.without j) (a.openSet.without j)).checkWork := by
  have hset : u.atLimitSet j = (u.withSets a (a.jackSet.without j) (a.openSet.without j)).checkWork := by
    rw [← Work.dropJack_of ha]
    simp only [Work.atLimitSet, ha, hk]
    exact if_pos ⟨hd, hp, hs⟩
  have hret : (u.withSets a (a.jackSet.without j) (a.openSet.without j)).checkWork.retractedSet j =
      (u.withSets a (a.jackSet.without j) (a.openSet.without j)).checkWork := by
    refine Work.retractedSet_of_other fun b hb => ?_
    rw [Work.checkWork_withSets_manual hk] at hb
    split at hb
    · rw [Work.endActivity_activity] at hb; cases hb
    · obtain rfl := Option.some.inj hb
      exact .inr ⟨hk, hd⟩
  simp only [Work.noteSample, hx, hy, Bool.not_false, Bool.and_self, if_true, hset, hret, ite_self]

/-- A jack of an IN move reaches its stop (R78). -/
theorem Work.noteSample_in (hd : a.dir = .inward) (hx : x.retracted = false) (hy : y.retracted = true) : u.noteSample j x y =
    (u.withSets a (a.jackSet.without j) (a.openSet.without j)).checkWork := by
  have hlim : u.atLimitSet j = u := Work.atLimitSet_of_other fun b hb => by
    obtain rfl := Option.some.inj (ha.symm.trans hb)
    exact .inr ⟨hk, hd⟩
  have hret : u.retractedSet j = (u.withSets a (a.jackSet.without j) (a.openSet.without j)).checkWork := by
    rw [← Work.dropJack_of ha]
    simp only [Work.retractedSet, ha, hk]
    exact if_pos ⟨hd, hp, hs⟩
  simp only [Work.noteSample, hx, hy, Bool.not_false, Bool.and_self, if_true, hlim, ite_self, hret]

end manual

/-- A jack of a stow reaches its stop (R80). -/
theorem Work.noteSample_stow {u : Work} {a : HydActivity} {j : JackId} {x y : Jack} (ha : u.hyd.activity = some a)
    (hk : a.kind = .stow) (hst : a.start.isSome = true) (hx : x.retracted = false) (hy : y.retracted = true) :
    u.noteSample j x y = (u.withSets a a.jackSet ((a.openSet.without j).inter a.jackSet)).checkWork := by
  have hlim : u.atLimitSet j = u := Work.atLimitSet_of_other fun b hb => by
    obtain rfl := Option.some.inj (ha.symm.trans hb)
    exact .inl hk
  have hret : u.retractedSet j = (u.withSets a a.jackSet ((a.openSet.without j).inter a.jackSet)).checkWork := by
    rw [← Work.setOpen_of ha]
    simp only [Work.retractedSet, ha, hk, hst, if_true]
  simp only [Work.noteSample, hx, hy, Bool.not_false, Bool.and_self, if_true, hlim, ite_self, hret]

theorem Work.allRetracted_of_faulted {u : Work} {j : JackId} (hp : u.jackPresent j = true) (hf : (u.jk j).fault.isSome = true) :
    u.allRetracted = false := by
  refine Bool.eq_false_iff.mpr fun h => ?_
  have hj := List.all_eq_true.mp h j (mem_allJacks j)
  simp [hp, Work.jackState, hf] at hj

/-! ## A sensor fault -/

theorem Work.faultJack_of_none {u : Work} {j : JackId} {x : Jack} (k : JackFault) (hx : x.fault = none)
    (ha : u.hyd.activity = none) (hl : u.lvl.phase = .idle) :
    (u.setJk j x).faultJack j k = (u.setJk j { x with fault := some k }).emit (.jack j k) := by
  have hf : ¬ ((u.setJk j x).jk j).fault.isSome = true := by rw [Work.jk_setJk_self, hx]; exact nofun
  have hgive : (u.setJk j x).giveFault j k = (u.setJk j { x with fault := some k }).emit (.jack j k) := by
    rw [Work.giveFault, if_neg hf, Work.jk_setJk_self, Work.setJk_setJk]
    have hdrop : (u.setJk j { x with fault := some k }).dropJack j = u.setJk j { x with fault := some k } := by
      have ha' : (u.setJk j { x with fault := some k }).hyd.activity = none := ha
      simp only [Work.dropJack, ha']
    rw [hdrop]
  have hl' : ¬ ((u.setJk j { x with fault := some k }).emit (.jack j k)).lvl.phase ≠ .idle := not_not.mpr hl
  have hc : ((u.setJk j { x with fault := some k }).emit (.jack j k)).checkWork =
      (u.setJk j { x with fault := some k }).emit (.jack j k) := by
    have ha' : ((u.setJk j { x with fault := some k }).emit (.jack j k)).hyd.activity = none := ha
    simp only [Work.checkWork, ha']
  simp only [Work.faultJack, if_neg hf, hgive, if_neg hl', hc]

/-- A fault of a jack of the activity's set (R75, R82, R117). -/
theorem Work.faultJack_of_member {u : Work} {j : JackId} {x : Jack} {a : HydActivity} (k : JackFault) (hx : x.fault = none)
    (ha : u.hyd.activity = some a) (hs : a.jackSet.has j = true) : (u.setJk j x).faultJack j k =
      let v := ((u.setJk j { x with fault := some k }).withSets a (a.jackSet.without j) (a.openSet.without j)).emit (.jack j k)
      if u.lvl.phase ≠ .idle then v.endLevel .jackFault false else v.checkWork := by
  have hf : ¬ ((u.setJk j x).jk j).fault.isSome = true := by rw [Work.jk_setJk_self, hx]; exact nofun
  have hgive : (u.setJk j x).giveFault j k =
      ((u.setJk j { x with fault := some k }).withSets a (a.jackSet.without j) (a.openSet.without j)).emit (.jack j k) := by
    rw [Work.giveFault, if_neg hf, Work.jk_setJk_self, Work.setJk_setJk]
    rw [Work.dropJack_of (u := u.setJk j { x with fault := some k }) ha]
  have hm : (u.setJk j x).actJacks.has j = true := by
    have ha' : (u.setJk j x).hyd.activity = some a := ha
    simp only [Work.actJacks, ha', hs]
  simp only [Work.faultJack, if_neg hf, hgive, hm, if_true]
  rfl

/-! ## A procedure -/

/-- The activity, if there is one, is that of a procedure. -/
def LevelOnly (w : Work) : Prop := ∀ a, w.hyd.activity = some a → a.kind = .level

theorem LevelOnly.setOpen {w : Work} (h : LevelOnly w) (s : JackSet) : LevelOnly (w.setOpen s) := by
  intro b hb
  obtain ⟨a, ha, rfl⟩ := Option.map_eq_some_iff.mp hb
  exact h a ha

theorem LevelOnly.setActPhase {w : Work} (h : LevelOnly w) (p : ActPhase) : LevelOnly (w.setActPhase p) := by
  intro b hb
  obtain ⟨a, ha, rfl⟩ := Option.map_eq_some_iff.mp hb
  exact h a ha

theorem LevelOnly.pumpStop {w : Work} (h : LevelOnly w) (b : Bool) : LevelOnly (w.pumpStop b) := by
  simp only [Work.pumpStop]
  split
  · split <;> exact h
  · split <;> exact h
  · exact h

theorem LevelOnly.enterSettling {w : Work} (h : LevelOnly w) : LevelOnly w.enterSettling :=
  ((h.pumpStop false).setOpen noJacks).setActPhase .idlePump

theorem LevelOnly.enterStabilize {w : Work} (h : LevelOnly w) (f : Option PendFlag) : LevelOnly (w.enterStabilize f) := by
  have hopen (l : Level) (s : JackSet) : LevelOnly ((w.enterPhase l).setOpen s) := LevelOnly.setOpen (w := w.enterPhase l) h s
  simp only [Work.enterStabilize]
  split
  · exact (hopen _ _).enterSettling
  · exact hopen _ _

theorem LevelOnly.leaveLift {w : Work} (h : LevelOnly w) (j : JackId) : LevelOnly (w.leaveLift j) := by
  have hlift : LevelOnly (w.setLift (w.lvl.liftSet.without j)) := LevelOnly.setOpen (w := w.setLvl _) h _
  simp only [Work.leaveLift]
  split
  · split
    · exact hlift.enterStabilize _
    · exact hlift
  · exact h

/-- A sample in a procedure is what AT_LIMIT brings, where it sets it (R109). -/
theorem Work.noteSample_level {u : Work} {j : JackId} {x y : Jack} (h : LevelOnly u) (hl : LevelOnly (u.atLimitSet j)) :
    u.noteSample j x y = if y.atLimit && !x.atLimit then u.atLimitSet j else u := by
  have h1 : u.retractedSet j = u := Work.retractedSet_of_other fun a ha => .inl (h a ha)
  have h2 : (u.atLimitSet j).retractedSet j = u.atLimitSet j := Work.retractedSet_of_other fun a ha => .inl (hl a ha)
  simp only [Work.noteSample]
  split
  · split
    · exact h2
    · exact h1
  · rfl

theorem Work.atLimitSet_level {u : Work} {a : HydActivity} {j : JackId} (ha : u.hyd.activity = some a) (hk : a.kind = .level) :
    u.atLimitSet j =
      match u.lvl.phase with
      | .levelling => if u.lvl.liftSet.has j then (u.setLvl { u.lvl with limitMark := true }).leaveLift j else u
      | .touchdown => if a.jackSet.has j && !(u.jk j).grounded then u.faultJack j .noGround else u
      | .stabilize => if a.jackSet.has j && !(u.jk j).grounded then u.faultJack j .noGround else u
      | _ => u := by
  simp only [Work.atLimitSet, ha, hk] <;> rfl

end Sys2Proof.Machine
end

