-- ==== Sys2Proof/Proofs/SensorSamples.lean ====
section
/-! PROOF. The sensors of a present jack, assembled (R68, R70..R73, R78, R80, R109, R117). -/

namespace Sys2Proof.Machine

set_option Elab.async false

open Sys2Proof.Safety

/-! ## The record of a sample -/

section record

variable {w : Work} {j : JackId} {raw : BitVec 12} {x : Jack} (hf : x.fault ≠ some .strokeSensor)
include hf

theorem Work.strokeJack_eq : w.strokeJack j x raw = { x with
    stroke := w.strokeAtRaw j raw, valid := true, outOfRange := 0, strokeSettled := true,
    lowRun := if w.strokeAtRaw j raw ≤ w.profN 0x0403 then min 50 (x.lowRun + 1) else 0,
    retracted := decide (w.strokeAtRaw j raw ≤ w.profN 0x0403) &&
      (x.retracted || (if w.strokeAtRaw j raw ≤ w.profN 0x0403 then min 50 (x.lowRun + 1) else 0) == 50),
    atLimit := decide (w.profN 0x0404 ≤ w.strokeAtRaw j raw + 5), samples := min 50 (x.samples + 1),
    retractSettled := x.retractSettled || min 50 (x.samples + 1) == 50, sampleAt := some (w.strokeWork j raw).now } :=
  Jack.inSample_of_sound hf _ _ _ _

theorem Work.strokeJack_read : (w.strokeJack j x raw).stroke = w.strokeAtRaw j raw ∧ (w.strokeJack j x raw).valid = true := by
  rw [Work.strokeJack_eq hf]; exact ⟨rfl, rfl⟩

theorem Work.strokeJack_atLimit : (w.strokeJack j x raw).atLimit = decide (w.profN 0x0404 ≤ w.strokeAtRaw j raw + 5) := by
  rw [Work.strokeJack_eq hf]

/-- 500 ms at or below the threshold are complete (R73). -/
theorem Work.strokeJack_retracted (hv : w.strokeAtRaw j raw ≤ w.profN 0x0403) :
    (w.strokeJack j (lowJack x) raw).retracted = true := by
  rw [Work.strokeJack_eq (x := lowJack x) hf]
  simp [hv, lowJack]

end record

/-! ## A stow that goes on or ends -/

section stow

variable {u : Work} {a : HydActivity} (hk : a.kind = .stow) {js os : JackSet}
include hk

theorem Work.checkWork_withSets_away {i : JackId} (hs : js.has i = true) (hr : (u.jk i).retracted = false) :
    (u.withSets a js os).checkWork = u.withSets a js os :=
  Work.checkWork_of_away (w := u.withSets a js os) (a := { a with jackSet := js, openSet := os }) rfl hk hs hr

theorem Work.checkWork_withSets_stowed (h : ∀ i, js.has i = true → (u.jk i).retracted = true ∧ os.has i = false) :
    (u.withSets a js os).checkWork =
      (u.withSets a js os).endActivity (if (u.withSets a js os).allRetracted then .stowed else .incomplete) false :=
  Work.checkWork_of_stowed (w := u.withSets a js os) (a := { a with jackSet := js, openSet := os }) rfl hk h

end stow

/-- A work whose events alone differ is checked alike. -/
theorem Work.withSets_emit (u : Work) (a : HydActivity) (js os : JackSet) (e : Event) :
    (u.withSets a js os).emit e = (u.emit e).withSets a js os := rfl

/-- Settles O39: each sample by its record, and by what its record brings to the work in progress. -/
theorem jackSensorsFollowSamples : Obligations.JackSensorsFollowSamples := by
  unfold Obligations.JackSensorsFollowSamples
  intro s j ha hp w x z
  refine ⟨fun b hs hb => exec_of_event ha rfl (Work.groundChange_of hp hs hb), fun b hs => exec_of_event ha rfl ?_, ?_, ?_, ?_⟩
  · have hcond : (w.jackPresent j && !(w.jk j).groundSettled) = true := by
      rw [show w.jackPresent j = true from hp, show (w.jk j).groundSettled = false from hs]; rfl
    rw [Work.scanTimeout, if_pos hcond]
    rfl
  · intro hact raw v
    refine ⟨fun h1 h2 hf => ⟨w.strokeJack j x raw, exec_of_event ha rfl ?_, ?_⟩,
      fun h1 h2 hf hv hs => ⟨w.strokeJack j (lowJack x) raw, exec_of_event ha rfl ?_, Work.strokeJack_retracted hf hv,
        Work.strokeJack_read (x := lowJack x) hf⟩,
      fun hr hfen hflt hl => ⟨{ sensorLost x (z raw).now with fault := some .strokeSensor }, exec_of_event ha rfl ?_,
        rfl, rfl, rfl, rfl, rfl⟩⟩
    · rw [Work.strokeAt_plain hp ⟨h1, h2⟩]
      exact Work.noteSample_of_none (u := (z raw).setJk j (w.strokeJack j x raw)) hact j _ _
    · rw [Work.strokeJack_eq hf]
      refine ⟨rfl, rfl, rfl, rfl, rfl, rfl, rfl, rfl, fun hv => ?_, fun hv => if_pos hv⟩
      have hv' : ¬ w.strokeAtRaw j raw ≤ w.profN 0x0403 := Nat.not_le_of_lt hv
      exact ⟨by simp [hv'], if_neg hv'⟩
    · rw [if_pos hp, Work.lastLowSample_of hp ⟨h1, h2⟩ hs]
      exact Work.noteSample_of_none (u := (z raw).setJk j (w.strokeJack j (lowJack x) raw)) hact j _ _
    · rw [if_pos hp, Work.thirdOutOfRange_of hp hr hfen hflt]
      exact Work.faultJack_of_none (u := z raw) .strokeSensor hflt hact hl
  · intro a raw hact hset v left sets gives inRange lastOfStow oneMoves
    have hsample (hr : inRange) : gives (.strokeSample j raw)
        (((z raw).setJk j (w.strokeJack j x raw)).noteSample j x (w.strokeJack j x raw)) :=
      exec_of_event ha rfl (Work.strokeAt_plain hp ⟨hr.1, hr.2.1⟩)
    have hlow (hr : inRange) (hs : x.retractSettled = true) : gives (.retractedIndicatorSet j raw)
        (((z raw).setJk j (w.strokeJack j (lowJack x) raw)).noteSample j (lowJack x) (w.strokeJack j (lowJack x) raw)) :=
      exec_of_event ha rfl ((if_pos hp).trans (Work.lastLowSample_of hp ⟨hr.1, hr.2.1⟩ hs))
    have hsets (y : Jack) (js os : JackSet) : sets y js os = ((z raw).setJk j y).withSets a js os := rfl
    refine ⟨fun hl hk hph hd hr hx hlim => ?_, fun hl hk hph hd hr hx hs hv => ?_, fun hl hk hst hr hx hs hv => ?_,
      fun hr hfen hflt => ?_⟩
    · have hy : (w.strokeJack j x raw).atLimit = true := (Work.strokeJack_atLimit hr.2.2).trans (decide_eq_true hlim)
      obtain ⟨h1, h2⟩ := Work.strokeJack_read (w := w) (j := j) (raw := raw) hr.2.2
      have hgo := hsample hr
      rw [Work.noteSample_out (u := (z raw).setJk j _) hact hk hph hset hd hx hy, Work.checkWork_withSets_manual hk] at hgo
      refine ⟨w.strokeJack j x raw, hy, h1, h2, fun he => ?_, fun he => ?_⟩
      · rwa [if_neg (by rw [he]; exact Bool.false_ne_true)] at hgo
      · rwa [if_pos he] at hgo
    · have hy : (w.strokeJack j (lowJack x) raw).retracted = true := Work.strokeJack_retracted hr.2.2 hv
      obtain ⟨h1, h2⟩ := Work.strokeJack_read (w := w) (j := j) (raw := raw) (x := lowJack x) hr.2.2
      have hgo := hlow hr hs
      rw [Work.noteSample_in (u := (z raw).setJk j _) (x := lowJack x) hact hk hph hset hd hx hy, Work.checkWork_withSets_manual hk] at hgo
      refine ⟨w.strokeJack j (lowJack x) raw, hy, h1, h2, fun he => ?_, fun he => ?_⟩
      · rwa [if_neg (by rw [he]; exact Bool.false_ne_true)] at hgo
      · rwa [if_pos he] at hgo
    · have hy : (w.strokeJack j (lowJack x) raw).retracted = true := Work.strokeJack_retracted hr.2.2 hv
      obtain ⟨h1, h2⟩ := Work.strokeJack_read (w := w) (j := j) (raw := raw) (x := lowJack x) hr.2.2
      have hgo := hlow hr hs
      rw [Work.noteSample_stow (u := (z raw).setJk j _) (x := lowJack x) hact hk hst hx hy] at hgo
      refine ⟨w.strokeJack j (lowJack x) raw, hy, h1, h2, fun hm => ?_, fun hlast => ?_⟩
      · obtain ⟨i, hi, his, hir⟩ := hm
        rwa [Work.checkWork_withSets_away (u := (z raw).setJk j _) hk his ((congrArg Jack.retracted (Work.jk_setJk_ne _ _ _ _ hi)).trans hir)] at hgo
      · rwa [Work.checkWork_withSets_stowed hk fun i his => ?_] at hgo
        rw [JackSet.has_inter, JackSet.has_without]
        by_cases hi : i = j
        · subst hi
          exact ⟨(congrArg Jack.retracted (Work.jk_setJk_self _ _ _)).trans hy, by simp⟩
        · obtain ⟨h1, h2⟩ := hlast i hi his
          exact ⟨(congrArg Jack.retracted (Work.jk_setJk_ne _ _ _ _ hi)).trans h1, by simp [h2]⟩
    · generalize hy : ({ sensorLost x (z raw).now with fault := some .strokeSensor } : Jack) = y
      have hfacts : y.fault = some .strokeSensor ∧ y.valid = false ∧ y.stroke = x.stroke ∧ y.grounded = x.grounded := by
        subst hy; exact ⟨rfl, rfl, rfl, rfl⟩
      have hgo {u : Work} (hu : ((z raw).setJk j (sensorLost x (z raw).now)).faultJack j .strokeSensor = u) :
          gives (.strokeSensorFault j raw) u :=
        exec_of_event ha rfl ((if_pos hp).trans ((Work.thirdOutOfRange_of hp hr hfen hflt).trans hu))
      have hm := Work.faultJack_of_member (u := z raw) (j := j) (x := sensorLost x (z raw).now) .strokeSensor hflt hact hset
      rw [hy] at hm
      refine ⟨y, hfacts.1, hfacts.2.1, hfacts.2.2.1, hfacts.2.2.2, fun hl hk => ?_, fun hl hk => ?_, fun hl => hgo (hm.trans (if_pos hl))⟩
      · have hm := hm.trans (if_neg (not_not.mpr hl))
        rw [Work.withSets_emit, Work.checkWork_withSets_manual hk] at hm
        refine ⟨fun he => hgo (hm.trans (if_neg ?_)), fun he => hgo (hm.trans (if_pos he))⟩
        rw [he]; exact Bool.false_ne_true
      · have hm := hm.trans (if_neg (not_not.mpr hl))
        rw [Work.withSets_emit] at hm
        have hjk {i : JackId} (hi : i ≠ j) : (((z raw).setJk j y).emit (.jack j .strokeSensor)).jk i = w.jk i := Work.jk_setJk_ne _ _ _ _ hi
        refine ⟨fun ⟨i, hi, his, hir⟩ => hgo (hm.trans (Work.checkWork_withSets_away hk (i := i) ?_ ?_)), fun hlast => hgo (hm.trans ?_)⟩
        · rw [JackSet.has_without, his]; simpa using hi
        · rw [hjk hi]; exact hir
        · rw [Work.checkWork_withSets_stowed hk fun i his => ?_, Work.allRetracted_of_faulted (j := j)]
          · rfl
          · exact hp
          · show (((z raw).setJk j y).jk j).fault.isSome = true
            rw [Work.jk_setJk_self, hfacts.1]; rfl
          · rw [JackSet.has_without, Bool.and_eq_true, bne_iff_ne] at his
            obtain ⟨h1, h2⟩ := hlast i his.2 his.1
            rw [hjk his.2, JackSet.has_without, h2]
            exact ⟨h1, rfl⟩
  · intro a raw hact hk h1 h2 hf v gives ground
    have hsample : gives (((z raw).setJk j (w.strokeJack j x raw)).noteSample j x (w.strokeJack j x raw)) :=
      exec_of_event ha rfl (Work.strokeAt_plain hp ⟨h1, h2⟩)
    obtain ⟨hst, hval⟩ := Work.strokeJack_read (w := w) (j := j) (raw := raw) (x := x) hf
    have hlim := Work.strokeJack_atLimit (w := w) (j := j) (raw := raw) (x := x) hf
    have hgr : (w.strokeJack j x raw).grounded = x.grounded ∧ (w.strokeJack j x raw).fault = x.fault := by
      rw [Work.strokeJack_eq hf]; exact ⟨rfl, rfl⟩
    generalize w.strokeJack j x raw = y at hsample hst hval hlim hgr
    refine ⟨y, hst, hval, hlim, hgr.1, hgr.2, ?_⟩
    intro u
    have hlevel : LevelOnly u := fun b hb => by
      obtain rfl := Option.some.inj (hact.symm.trans hb)
      exact hk
    have hset {u' : Work} (hx : x.atLimit = false) (hy : y.atLimit = true) (he : u.atLimitSet j = u') (hu' : LevelOnly u') : gives u' := by
      have hn := Work.noteSample_level (x := x) (y := y) hlevel (he ▸ hu')
      rw [hy, hx, he] at hn
      have hg : gives (u.noteSample j x y) := hsample
      rw [hn] at hg
      exact hg
    have hat := Work.atLimitSet_level (u := u) (j := j) hact hk
    have huj : u.jk j = y := Work.jk_setJk_self _ _ _
    have hstays (hx : x.atLimit = false) (hy : y.atLimit = true) (he : u.atLimitSet j = u) : gives u := hset hx hy he hlevel
    refine ⟨fun hor => ?_, fun hx hy => ⟨fun hg hm hng hnf => ?_, fun hg hm => hstays hx hy ?_, fun hl hm => hset hx hy ?_ ?_,
      fun hl hm => hstays hx hy ?_, fun hl => hstays hx hy ?_⟩⟩
    · have hno : (y.atLimit && !x.atLimit) = false := by
        rcases hor with h | h <;> simp [h]
      have hg : gives (u.noteSample j x y) := hsample
      have hn : u.noteSample j x y = u := by
        have hr : u.retractedSet j = u := Work.retractedSet_of_other fun b hb => .inl (hlevel b hb)
        simp only [Work.noteSample, hno, Bool.false_eq_true, if_false, hr, ite_self]
      rw [hn] at hg
      exact hg
    · have hyn : y.fault = none := hgr.2.trans hnf
      have hfault := Work.faultJack_of_member (u := z raw) (j := j) (x := y) .noGround hyn hact hm
      have hne : w.lvl.phase ≠ .idle := by rcases hg with h | h <;> rw [h] <;> exact nofun
      have hcond : (a.jackSet.has j && !(u.jk j).grounded) = true := by rw [huj, hgr.1, hm, hng]; rfl
      have he : u.atLimitSet j = u.faultJack j .noGround := by
        have hph : u.lvl.phase = w.lvl.phase := rfl
        rw [hat, hph]
        rcases hg with h | h <;> rw [h] <;> exact if_pos hcond
      have hz : u.atLimitSet j = (((u.setJk j { y with fault := some .noGround }).withSets a (a.jackSet.without j)
          (a.openSet.without j)).emit (.jack j .noGround)).endLevel .jackFault false := by
        rw [show u.setJk j { y with fault := some .noGround } = (z raw).setJk j { y with fault := some .noGround } from
          Work.setJk_setJk _ _ _ _]
        exact he.trans (hfault.trans (if_pos hne))
      refine hset hx hy hz fun b hb => ?_
      exact nomatch (Work.endLevel_activity (w := ((u.setJk j { y with fault := some .noGround }).withSets a (a.jackSet.without j)
        (a.openSet.without j)).emit (.jack j .noGround)) hne .jackFault false).symm.trans hb
    · have hcond : ¬ (a.jackSet.has j && !(u.jk j).grounded) = true := by
        rw [huj, hgr.1]
        rcases hm with h | h <;> simp [h]
      have hph : u.lvl.phase = w.lvl.phase := rfl
      rw [hat, hph]
      rcases hg with h | h <;> rw [h] <;> exact if_neg hcond
    · have hph : u.lvl.phase = w.lvl.phase := rfl
      rw [hat, hph, hl]
      exact if_pos hm
    · exact LevelOnly.leaveLift (w := { u with lvl := { w.lvl with limitMark := true } }) hlevel j
    · have hph : u.lvl.phase = w.lvl.phase := rfl
      rw [hat, hph, hl]
      exact if_neg (by rw [show u.lvl.liftSet.has j = false from hm]; exact Bool.false_ne_true)
    · have hph : u.lvl.phase = w.lvl.phase := rfl
      rw [hat, hph]
      rcases hl with h | h <;> rw [h]

end Sys2Proof.Machine
end

