-- ==== Sys2Proof/Proofs/LevelPhases.lean ====
section
/-! PROOF. The phases of a procedure and their deadlines (R105, R106, R108..R113). -/

namespace Sys2Proof.Machine

set_option Elab.async false

open Sys2Proof.Safety

/-! ## The open set -/

theorem withOpen_setOpen {w : Work} {a : HydActivity} (ha : w.hyd.activity = some a) (s : JackSet) :
    w.setOpen s = withOpen w a (s.inter a.jackSet) := by
  simp only [Work.setOpen, ha]; rfl

theorem setOpen_of_within {w : Work} {a : HydActivity} (ha : w.hyd.activity = some a) {s : JackSet}
    (h : ∀ j, s.has j = true → a.jackSet.has j = true) : w.setOpen s = withOpen w a s := by
  rw [withOpen_setOpen ha, JackSet.inter_of_subset h]

theorem setOpen_noJacks {w : Work} {a : HydActivity} (ha : w.hyd.activity = some a) :
    w.setOpen noJacks = withOpen w a noJacks :=
  setOpen_of_within ha fun j hj => by simp at hj

/-- The jacks of the set that are not grounded. -/
theorem ungrounded_has {w : Work} {a : HydActivity} (ha : w.hyd.activity = some a) (j : JackId) :
    w.ungrounded.has j = true ↔ a.jackSet.has j = true ∧ (w.jk j).grounded = false := by
  simp only [Work.ungrounded, Work.actJacks, ha, JackSet.has_jacksWhere, Bool.and_eq_true, Bool.not_eq_true']

theorem ungrounded_eq {w : Work} {a : HydActivity} (ha : w.hyd.activity = some a) {s : JackSet}
    (h : ∀ j, s.has j = true ↔ a.jackSet.has j = true ∧ (w.jk j).grounded = false) : w.ungrounded = s :=
  JackSet.eq_of_has fun j => Bool.eq_iff_iff.mpr ((ungrounded_has ha j).trans (h j).symm)

theorem setOpen_ungrounded {w : Work} {a : HydActivity} (ha : w.hyd.activity = some a) :
    w.setOpen w.ungrounded = withOpen w a w.ungrounded :=
  setOpen_of_within ha fun j hj => ((ungrounded_has ha j).mp hj).1

theorem withOpen_ungrounded {w : Work} {a : HydActivity} (ha : w.hyd.activity = some a) (s : JackSet) :
    (withOpen w a s).ungrounded = w.ungrounded := by
  simp only [Work.ungrounded, Work.actJacks, ha]; rfl

/-! ## The phases -/

theorem enterLevelling_eq {w : Work} {a : HydActivity} (ha : w.hyd.activity = some a) (pass : Nat) :
    w.enterLevelling pass = enteredLevelling w a pass := by
  simp only [Work.enterLevelling]
  rw [setOpen_noJacks (a := a) (by exact ha)]
  rfl

theorem enterSettling_eq {w : Work} {a : HydActivity} {t : Time} (ha : w.hyd.activity = some a)
    (hp : w.hyd.pump = .running) (ht : w.hyd.runStart = some t) : w.enterSettling = enteredSettling w a t := by
  rw [Work.enterSettling_of_running ha hp ht]; rfl

theorem Work.pumpStop_parts (w : Work) (b : Bool) : (w.pumpStop b).lvl = w.lvl ∧ (w.pumpStop b).chans = w.chans ∧
    (w.pumpStop b).movers = w.movers ∧ (w.pumpStop b).now = w.now ∧ (w.pumpStop b).settleTime = w.settleTime := by
  simp only [Work.pumpStop]
  split
  · split <;> exact ⟨rfl, rfl, rfl, rfl, rfl⟩
  · split <;> exact ⟨rfl, rfl, rfl, rfl, rfl⟩
  · exact ⟨rfl, rfl, rfl, rfl, rfl⟩

theorem enterSettling_parts (w : Work) :
    w.enterSettling.lvl = { w.lvl with phase := .settling, settleTest := some .waiting, deadline := some (w.now + w.settleTime) } ∧
    w.enterSettling.chans = w.chans ∧ w.enterSettling.movers = w.movers := by
  obtain ⟨hl, hc, hm, hn, hs⟩ := w.pumpStop_parts false
  rw [Work.enterSettling]
  generalize w.pumpStop false = z at hl hc hm hn hs
  refine ⟨?_, hc, hm⟩
  rw [← hl, ← hn, ← hs]
  rfl

/-- The work in STABILIZE, the jacks not grounded opened (R110). -/
def enteredStabilize (w : Work) (a : HydActivity) (flag : Option PendFlag) : Work :=
  { withOpen w a w.ungrounded with
    lvl := { w.lvl with phase := .stabilize, pendFlag := flag, liftSet := noJacks,
                        deadline := some (w.now + Config.sec (w.profN 0x0425)) },
    events := w.events ++ [.levelPhase .stabilize w.lvl.mode w.lvl.pass] }

theorem enterStabilize_eq {w : Work} {a : HydActivity} (ha : w.hyd.activity = some a) (flag : Option PendFlag) :
    w.enterStabilize flag =
      if w.ungrounded.isEmpty then (enteredStabilize w a flag).enterSettling else enteredStabilize w a flag := by
  simp only [Work.enterStabilize]
  have hset : ∀ l : Level, (w.enterPhase l).setOpen (w.enterPhase l).ungrounded =
      { withOpen w a w.ungrounded with lvl := l, events := w.events ++ [.levelPhase l.phase l.mode l.pass] } := fun l => by
    rw [setOpen_ungrounded (w := w.enterPhase l) ha]; rfl
  rw [hset]
  have hall : ∀ l es, ({ withOpen w a w.ungrounded with lvl := l, events := es } : Work).allGrounded = w.ungrounded.isEmpty :=
    fun l es => congrArg JackSet.isEmpty (withOpen_ungrounded ha w.ungrounded)
  rw [hall]
  rfl

/-! ## The grounded flags -/

theorem followGround_other {w : Work} (ht : w.lvl.phase ≠ .touchdown) (hs : w.lvl.phase ≠ .stabilize) : w.followGround = w :=
  if_neg fun h => h.elim ht hs

/-- The flags in TOUCHDOWN and STABILIZE: a jack not grounded keeps the phase, the last one ends it (R106, R110). -/
theorem followGround_eq {w : Work} {a : HydActivity} (ha : w.hyd.activity = some a)
    (hp : w.lvl.phase = .touchdown ∨ w.lvl.phase = .stabilize) : w.followGround =
      if w.ungrounded.isEmpty then
        if w.lvl.phase = .touchdown ∧ w.lvl.mode ≠ some .ground then (withOpen w a w.ungrounded).enterLevelling 1
        else (withOpen w a w.ungrounded).enterSettling
      else withOpen w a w.ungrounded := by
  have hall : (withOpen w a w.ungrounded).allGrounded = w.ungrounded.isEmpty :=
    congrArg JackSet.isEmpty (withOpen_ungrounded ha w.ungrounded)
  have hl : (withOpen w a w.ungrounded).lvl = w.lvl := rfl
  rw [Work.followGround, if_pos hp, setOpen_ungrounded ha, Work.checkGrounded, hall, hl]
  rcases hp with hp | hp
  · rw [hp]
    rcases hm : w.lvl.mode with _ | m
    · simp
    · cases m <;> simp
  · simp [hp]

section flags

variable {w : Work} {a : HydActivity} {openSet : JackSet} (ha : w.hyd.activity = some a)
  (h : ∀ j, openSet.has j = true ↔ a.jackSet.has j = true ∧ (w.jk j).grounded = false)
include ha h

theorem followGround_of_open (he : openSet.isEmpty = false) (hp : w.lvl.phase = .touchdown ∨ w.lvl.phase = .stabilize) :
    w.followGround = withOpen w a openSet := by
  rw [followGround_eq ha hp, ungrounded_eq ha h, he]
  exact if_neg nofun

theorem followGround_levelling (he : openSet.isEmpty = true) (hm : w.lvl.mode = some .level) (hp : w.lvl.phase = .touchdown) :
    w.followGround = enteredLevelling w a 1 := by
  have hm' : w.lvl.mode ≠ some .ground := by rw [hm]; decide
  rw [followGround_eq ha (.inl hp), ungrounded_eq ha h, if_pos he, if_pos ⟨hp, hm'⟩,
    enterLevelling_eq (w := withOpen w a openSet) (a := { a with openSet := openSet }) rfl]
  rfl

theorem followGround_settling {t : Time} (he : openSet.isEmpty = true) (hr : w.hyd.pump = .running)
    (ht : w.hyd.runStart = some t)
    (hp : w.lvl.phase = .stabilize ∨ (w.lvl.phase = .touchdown ∧ w.lvl.mode = some .ground)) :
    w.followGround = enteredSettling w a t := by
  have hno : ¬ (w.lvl.phase = .touchdown ∧ w.lvl.mode ≠ some .ground) := fun ⟨h1, h2⟩ => by
    rcases hp with hp | hp
    · rw [hp] at h1; cases h1
    · exact h2 hp.2
  have hor : w.lvl.phase = .touchdown ∨ w.lvl.phase = .stabilize := hp.elim .inr fun h => .inl h.1
  rw [followGround_eq ha hor, ungrounded_eq ha h, if_pos he, if_neg hno,
    enterSettling_eq (w := withOpen w a openSet) (a := { a with openSet := openSet }) rfl hr ht]
  rfl

end flags

/-! ## The lift set -/

theorem leaveLift_other {w : Work} {j : JackId} (h : w.lvl.phase ≠ .levelling ∨ w.lvl.liftSet.has j = false) :
    w.leaveLift j = w :=
  if_neg fun ⟨hp, hj⟩ => h.elim (fun h => h hp) fun h => Bool.false_ne_true (h.symm.trans hj)

theorem leaveLift_member {w : Work} {a : HydActivity} {j : JackId} (ha : w.hyd.activity = some a)
    (hp : w.lvl.phase = .levelling) (hj : w.lvl.liftSet.has j = true) : w.leaveLift j =
      let lift := w.lvl.liftSet.without j
      let v : Work := { withOpen w a (lift.inter a.jackSet) with lvl := { w.lvl with liftSet := lift } }
      if lift.isEmpty then v.enterStabilize (if w.lvl.limitMark then some .range else none) else v := by
  have hset : w.setLift (w.lvl.liftSet.without j) = { withOpen w a ((w.lvl.liftSet.without j).inter a.jackSet) with
      lvl := { w.lvl with liftSet := w.lvl.liftSet.without j } } := by
    rw [Work.setLift, withOpen_setOpen (a := a) (by exact ha)]; rfl
  simp only [Work.leaveLift, hp, hj, and_self, if_true, hset]

/-! ## NO_GROUND -/

/-- The jack takes the NO_GROUND fault. -/
def lacksGround (w : Work) (j : JackId) : Bool :=
  w.actJacks.has j && !(w.jk j).grounded && (w.jk j).fault.isNone

theorem noGroundJack_of_no {w : Work} {j : JackId} (h : lacksGround w j = false) :
    (if (w.actJacks.has j && !(w.jk j).grounded) = true then w.giveFault j .noGround else w) = w := by
  split
  · next hc =>
    rw [lacksGround, hc, Bool.true_and] at h
    exact if_pos (by rw [← Option.not_isNone, h]; rfl)
  · rfl

theorem noGroundJack_of_yes {w : Work} {a : HydActivity} {j : JackId} (ha : w.hyd.activity = some a)
    (h : lacksGround w j = true) :
    (if (w.actJacks.has j && !(w.jk j).grounded) = true then w.giveFault j .noGround else w) =
      ((w.setJk j { w.jk j with fault := some .noGround }).withSets a (a.jackSet.without j) (a.openSet.without j)).emit
        (.jack j .noGround) := by
  obtain ⟨hc, hf⟩ := Bool.and_eq_true_iff.mp h
  have hf' : ¬ (w.jk j).fault.isSome = true := by rw [Option.isSome_iff_ne_none, not_not]; exact Option.isNone_iff_eq_none.mp hf
  rw [if_pos hc, Work.giveFault, if_neg hf', Work.dropJack_of (u := w.setJk j _) ha]

/-- Each jack of the list that lacks its ground takes the fault; the others keep their records. -/
theorem noGround_jk (l : List JackId) (hn : l.Nodup) : ∀ {w : Work} {a : HydActivity}, w.hyd.activity = some a →
    let u := l.foldl (fun w j => if (w.actJacks.has j && !(w.jk j).grounded) = true then w.giveFault j .noGround else w) w
    (∀ j, u.jk j = if l.contains j && lacksGround w j then { w.jk j with fault := some .noGround } else w.jk j) ∧
      u.lvl = w.lvl ∧ u.hyd.activity.isSome = true := by
  induction l with
  | nil => exact fun {w a} ha => ⟨fun j => rfl, rfl, by rw [List.foldl_nil, ha]; rfl⟩
  | cons i l ih =>
    intro w a ha
    obtain ⟨hi, hl⟩ := List.nodup_cons.mp hn
    have hnot : l.contains i = false := by simpa using hi
    have hcons : ∀ j, j ≠ i → (i :: l).contains j = l.contains j := fun j hj => by
      simp [hj]
    rw [List.foldl_cons]
    cases hs : lacksGround w i
    · rw [noGroundJack_of_no hs]
      obtain ⟨hjk, hlvl, hact⟩ := ih hl ha
      refine ⟨fun j => ?_, hlvl, hact⟩
      rw [hjk j]
      by_cases hj : j = i
      · rw [hj, hs, Bool.and_false, Bool.and_false]
      · rw [hcons j hj]
    · rw [noGroundJack_of_yes ha hs]
      obtain ⟨hjk, hlvl, hact⟩ := ih hl (w := ((w.setJk i { w.jk i with fault := some .noGround }).withSets a
        (a.jackSet.without i) (a.openSet.without i)).emit (.jack i .noGround)) rfl
      refine ⟨fun j => ?_, hlvl, hact⟩
      rw [hjk j]
      by_cases hj : j = i
      · rw [hj, hnot, hs]
        simp only [Bool.false_and, Bool.false_eq_true, if_false, List.contains_cons, beq_self_eq_true, Bool.true_or,
          Bool.and_true, if_true]
        exact Work.jk_setJk_self w i _
      · have hkeep : ((((w.setJk i { w.jk i with fault := some .noGround }).withSets a (a.jackSet.without i)
            (a.openSet.without i)).emit (.jack i .noGround)).jk j) = w.jk j := Work.jk_setJk_ne w i j _ hj
        have hlack : lacksGround (((w.setJk i { w.jk i with fault := some .noGround }).withSets a (a.jackSet.without i)
            (a.openSet.without i)).emit (.jack i .noGround)) j = lacksGround w j := by
          have hset : ((((w.setJk i { w.jk i with fault := some .noGround }).withSets a (a.jackSet.without i)
            (a.openSet.without i)).emit (.jack i .noGround)).actJacks).has j = w.actJacks.has j := by
            simp only [Work.actJacks, ha]
            exact (JackSet.has_without _ _ _).trans (by rw [bne_iff_ne.mpr hj, Bool.and_true])
          rw [lacksGround, lacksGround, hset, hkeep]
        rw [hlack, hkeep, hcons j hj]

theorem Work.endActivity_outcome {w : Work} (h : w.hyd.activity.isSome = true) (o : EndOutcome) (b : Bool) :
    (w.endActivity o b).hyd.lastOutcome = o := by
  obtain ⟨a, ha⟩ := Option.isSome_iff_exists.mp h
  simp only [Work.endActivity, ha]
  split <;> rfl

theorem Work.endLevel_outcome {w : Work} (hl : w.lvl.phase ≠ .idle) (h : w.hyd.activity.isSome = true) (o : EndOutcome)
    (b : Bool) : (w.endLevel o b).lvl.phase = .idle ∧ (w.endLevel o b).lvl.lastOutcome = o ∧
      (w.endLevel o b).hyd.activity = none ∧ (w.endLevel o b).hyd.lastOutcome = o := by
  rw [Work.endLevel_of_working hl rfl]
  exact ⟨rfl, rfl, w.endActivity_activity o b, Work.endActivity_outcome h o b⟩

end Sys2Proof.Machine
end

