-- ==== Sys2Proof/Proofs/LevelDeadlines.lean ====
section
/-! PROOF. The deadlines of a procedure, assembled (R105..R113, R117). -/

namespace Sys2Proof.Machine

set_option Elab.async false

open Sys2Proof.Safety

theorem Work.atDeadline_of {w : Work} {t : Time} {p : LevelPhase} (hd : w.lvl.deadline = some t) (hp : w.lvl.phase = p)
    (f : Work → Work) : w.atDeadline p f = f (w.notBefore t) := by
  simp only [Work.atDeadline, hd, if_pos hp]

section phases

variable {w : Work} {a : HydActivity} (ha : w.hyd.activity = some a)
include ha

/-- What STABILIZE keeps, whether it lasts or passes on at once. -/
theorem enterStabilize_parts (flag : Option PendFlag) :
    (w.enterStabilize flag).lvl.pendFlag = flag ∧ (w.enterStabilize flag).lvl.liftSet = noJacks ∧
      (w.enterStabilize flag).lvl.pass = w.lvl.pass ∧ (w.enterStabilize flag).lvl.mode = w.lvl.mode ∧
      (w.enterStabilize flag).jacks = w.jacks ∧ (w.enterStabilize flag).chans = w.chans ∧
      (w.enterStabilize flag).movers = w.movers := by
  rw [enterStabilize_eq ha]
  split
  · obtain ⟨hl, hc, hm⟩ := enterSettling_parts (enteredStabilize w a flag)
    refine ⟨by rw [hl]; rfl, by rw [hl]; rfl, by rw [hl]; rfl, by rw [hl]; rfl, ?_, hc.trans rfl, hm.trans rfl⟩
    exact (Work.enterSettling_jacks _).trans rfl
  · exact ⟨rfl, rfl, rfl, rfl, rfl, rfl, rfl⟩

theorem enterStabilize_of_open {openSet : JackSet}
    (h : ∀ j, openSet.has j = true ↔ a.jackSet.has j = true ∧ (w.jk j).grounded = false) (he : openSet.isEmpty = false)
    (flag : Option PendFlag) : w.enterStabilize flag = enteredStabilize w a flag := by
  rw [enterStabilize_eq ha, ungrounded_eq ha h, he]
  exact if_neg nofun

theorem enterStabilize_of_grounded {openSet : JackSet} {t : Time}
    (h : ∀ j, openSet.has j = true ↔ a.jackSet.has j = true ∧ (w.jk j).grounded = false) (he : openSet.isEmpty = true)
    (hp : w.hyd.pump = .running) (ht : w.hyd.runStart = some t) (flag : Option PendFlag) :
    w.enterStabilize flag = enteredSettling (enteredStabilize w a flag) { a with openSet := openSet } t := by
  rw [enterStabilize_eq ha, ungrounded_eq ha h, if_pos he]
  refine enterSettling_eq ?_ hp ht
  rw [← ungrounded_eq ha h]
  rfl

end phases

/-- NO_GROUND at a deadline (R106, R110). -/
theorem noGround_of {z : Work} {a : HydActivity} (ha : z.hyd.activity = some a) (hl : z.lvl.phase ≠ .idle) :
    z.noGround.lvl.phase = .idle ∧ z.noGround.lvl.lastOutcome = .jackFault ∧ z.noGround.hyd.activity = none ∧
      z.noGround.hyd.lastOutcome = .jackFault ∧
      ∀ j, z.noGround.jk j = if lacksGround z j then { z.jk j with fault := some .noGround } else z.jk j := by
  obtain ⟨hjk, hlvl, hact⟩ := noGround_jk allJacks (by decide) ha
  rw [Work.noGround]
  generalize (allJacks.foldl _ z) = u at hjk hlvl hact
  obtain ⟨h1, h2, h3, h4⟩ := Work.endLevel_outcome (o := .jackFault) (b := false) (hlvl ▸ hl) hact
  refine ⟨h1, h2, h3, h4, fun j => ?_⟩
  have hj := hjk j
  rw [allJacks_contains, Bool.true_and] at hj
  rw [← hj]
  exact congrArg (fun v : Vector Jack 6 => v[j]) (Work.endLevel_jacks u _ _)

theorem exec_groundDeadline {s : State} {t : Time} (ha : s.work.awake = true) (hd : s.work.lvl.deadline = some t)
    (hp : s.work.lvl.phase = .touchdown ∨ s.work.lvl.phase = .stabilize) :
    exec (if s.work.lvl.phase = .touchdown then .touchdownDeadline else .stabilizeDeadline) s =
      .next (finish s (s.work.notBefore t).noGround none) := by
  rcases hp with hp | hp
  · rw [if_pos hp]
    exact exec_of_event ha rfl (Work.atDeadline_of hd hp _)
  · rw [if_neg (by rw [hp]; nofun)]
    exact exec_of_event ha rfl (Work.atDeadline_of hd hp _)

/-- Settles O41: each phase entered, left and timed out. -/
theorem levellingDeadlines : Obligations.LevellingDeadlines := by
  unfold Obligations.LevellingDeadlines
  refine ⟨fun w a ha => ?_, fun w flag a ha => ?_, fun s t hawake hd => ?_⟩
  · refine ⟨enterLevelling_eq ha, followGround_other, fun openSet h => ⟨fun he => ?_, fun he hm => ?_, fun t he hp ht => ?_⟩,
      fun j => ⟨leaveLift_other, fun hp hj => ?_⟩⟩
    · exact ⟨followGround_of_open ha h he, followGround_of_open (w := enteredTouchdown w) ha h he (.inl rfl)⟩
    · exact ⟨followGround_levelling ha h he hm, followGround_levelling (w := enteredTouchdown w) ha h he hm rfl⟩
    · refine ⟨fun hs => followGround_settling ha h he hp ht (.inl hs), fun hm => ⟨fun htd => ?_, ?_⟩⟩
      · exact followGround_settling ha h he hp ht (.inr ⟨htd, hm⟩)
      · exact followGround_settling (w := enteredTouchdown w) ha h he hp ht (.inr ⟨rfl, hm⟩)
    · have hleave := leaveLift_member ha hp hj
      refine ⟨fun he => hleave.trans (if_neg (Bool.eq_false_iff.mp he)), fun he => hleave.trans (if_pos he)⟩
  · obtain ⟨h1, h2, h3, h4, h5, h6, h7⟩ := enterStabilize_parts ha flag
    refine ⟨h1, h2, h3, h4, h5, h6, h7, fun openSet h => ⟨fun he => ?_, fun t he hp ht => ?_⟩⟩
    · rw [enterStabilize_of_open ha h he, enteredStabilize, ungrounded_eq ha h]
      exact ⟨rfl, rfl, rfl, rfl, rfl⟩
    · rw [enterStabilize_of_grounded ha h he hp ht]
      refine ⟨rfl, rfl, rfl, rfl, rfl, rfl, ?_⟩
      exact List.append_assoc _ _ _
  · intro w z
    refine ⟨fun a hp ha => ?_, fun hp => exec_of_event hawake rfl (Work.atDeadline_of hd hp _), fun hp => ?_⟩
    · have hl : z.lvl.phase ≠ .idle := by
        rcases hp with hp | hp
        · exact fun h => nomatch hp.symm.trans h
        · exact fun h => nomatch hp.symm.trans h
      obtain ⟨h1, h2, h3, h4, hjk⟩ := noGround_of (z := z) ha hl
      have hlack : ∀ j, lacksGround z j = (a.jackSet.has j && !(w.jk j).grounded && (w.jk j).fault.isNone) := fun j => by
        have ha' : z.hyd.activity = some a := ha
        simp only [lacksGround, Work.actJacks, ha']
        rfl
      refine ⟨z.noGround, exec_groundDeadline hawake hd hp, now_of_still (Work.noGround_still z), h1, h2, h3, h4,
        fun j hs hg hf => ?_, fun j h => ?_⟩
      · rw [hjk, hlack, hs, hg, hf]; rfl
      · refine (hjk j).trans (if_neg ?_)
        rw [hlack]
        rcases h with h | h <;> simp [h]
    · have hend : ∀ y, z.settleEnd = y → exec .settleTimeEnd s = .next (finish s y none) := fun y hy =>
        exec_of_event hawake rfl ((Work.atDeadline_of hd hp _).trans hy)
      have hflag : ∀ f, w.lvl.mode = some .level → w.lvl.pendFlag = some f → z.settleEnd = z.endLevel f.outcome false :=
        fun f hm hf => by
          have hm' : z.lvl.mode = some .level := hm
          have hf' : z.lvl.pendFlag = some f := hf
          simp only [Work.settleEnd, hm', hf']
      refine ⟨fun hm => hend _ ?_, fun hm hf => hend _ (hflag _ hm hf), fun hm hf => hend _ (hflag _ hm hf),
        fun hm hf => hend _ (hflag _ hm hf), fun hm hf => hend _ ?_⟩
      · have hm' : z.lvl.mode = some .ground := hm
        simp only [Work.settleEnd, hm']
      · have hm' : z.lvl.mode = some .level := hm
        have hf' : z.lvl.pendFlag = none := hf
        rw [Work.settleEnd, hm', hf']
        rfl

end Sys2Proof.Machine
end

