-- ==== Sys2Proof/Proofs/ZeroRuns.lean ====
section
/-! PROOF. The hydraulic work takes no notice of a zero run (R92): one lemma an operation, in the order of the model. -/

namespace Sys2Proof.Machine

set_option Elab.async false

open Sys2Proof.Safety

/-- The work with another zero run. -/
def Work.withRun (w : Work) (r : Option ZeroRun) : Work := { w with tilt := { w.tilt with zeroRun := r } }

/-- An operation that takes no notice of the zero run. -/
def RunBlind (f : Work → Work) : Prop := ∀ (w : Work) (r : Option ZeroRun), f (w.withRun r) = (f w).withRun r

theorem RunBlind.comp {f g : Work → Work} (hf : RunBlind f) (hg : RunBlind g) : RunBlind fun w => f (g w) :=
  fun w r => (congrArg f (hg w r)).trans (hf (g w) r)

theorem RunBlind.ite {p : Work → Prop} [DecidablePred p] {f g : Work → Work} (hf : RunBlind f) (hg : RunBlind g)
    (hp : ∀ w r, p (w.withRun r) ↔ p w) : RunBlind fun w => if p w then f w else g w := by
  intro w r
  by_cases h : p w
  · exact (if_pos ((hp w r).mpr h)).trans ((hf w r).trans (congrArg (Work.withRun · r) (if_pos h).symm))
  · exact (if_neg (mt (hp w r).mp h)).trans ((hg w r).trans (congrArg (Work.withRun · r) (if_neg h).symm))

theorem RunBlind.id : RunBlind fun w => w := fun _ _ => rfl

/-! ## The end of an activity -/

theorem pumpStop_blind (b : Bool) : RunBlind fun w => w.pumpStop b := by
  intro w r
  simp only [Work.pumpStop]
  have hh : (w.withRun r).hyd = w.hyd := rfl
  rw [hh]
  split
  · cases b <;> rfl
  · split <;> rfl
  · rfl

/-- The pump leaves the admission queue (R66). -/
def Work.unqueued (w : Work) : Work := if w.isQueued hydTarget = true then w.dequeue hydTarget else w

theorem unqueued_blind : RunBlind Work.unqueued :=
  .ite (p := fun w => w.isQueued hydTarget = true) (fun _ _ => rfl) .id fun _ _ => Iff.rfl

/-- The activity goes, with its report (R66). -/
def Work.activityGone (w : Work) (k : ActKind) (o : EndOutcome) : Work :=
  match k with
  | .level => w.activityOver k o
  | k => (w.activityOver k o).emit (.hydraulicEnded k o)

theorem Work.endActivity_eq {w : Work} {a : HydActivity} (ha : w.hyd.activity = some a) (o : EndOutcome) (b : Bool) :
    w.endActivity o b = (w.pumpStop b).unqueued.activityGone a.kind o := by
  simp only [Work.endActivity, ha, Work.activityGone, Work.unqueued]
  cases a.kind <;> rfl

theorem endActivity_blind (o : EndOutcome) (b : Bool) : RunBlind fun w => w.endActivity o b := by
  intro w r
  cases ha : w.hyd.activity with
  | none =>
    have ha' : (w.withRun r).hyd.activity = none := ha
    simp only [Work.endActivity, ha, ha']
  | some a =>
    have ha' : (w.withRun r).hyd.activity = some a := ha
    have hgone : RunBlind fun z => z.activityGone a.kind o := by intro z r; cases a.kind <;> rfl
    show (w.withRun r).endActivity o b = (w.endActivity o b).withRun r
    rw [Work.endActivity_eq ha, Work.endActivity_eq ha']
    exact hgone.comp (unqueued_blind.comp (pumpStop_blind b)) w r

/-- The procedure goes, with its report (R114). -/
def Work.levelGone (w : Work) (o : EndOutcome) : Work :=
  (w.setLvl { w.lvl with
    phase := .idle, liftSet := noJacks, deadline := none, settleTest := none, pendFlag := none, lastOutcome := o,
    levelHeld := o == .level, drift := if o = .level then 0 else w.lvl.drift }).emit
    (.levelEnded w.lvl.mode o w.lvl.pass w.tilt.p w.tilt.q)

theorem endLevel_blind (o : EndOutcome) (b : Bool) : RunBlind fun w => w.endLevel o b := by
  have hgone : RunBlind fun w => Work.levelGone w o := fun _ _ => rfl
  refine RunBlind.ite (p := fun w => w.lvl.phase = .idle) .id (hgone.comp (endActivity_blind o b)) fun _ _ => Iff.rfl

theorem checkWork_blind : RunBlind Work.checkWork := by
  intro w r
  have hh : (w.withRun r).hyd = w.hyd := rfl
  simp only [Work.checkWork, hh]
  split
  · rfl
  · split
    · rfl
    · split
      · exact endActivity_blind _ _ w r
      · rfl
    · have hall (a : HydActivity) : (allJacks.all fun j => !a.jackSet.has j || ((w.withRun r).jk j).retracted && !(w.withRun r).valve j) =
          allJacks.all fun j => !a.jackSet.has j || (w.jk j).retracted && !w.valve j := rfl
      rw [hall]
      split
      · exact endActivity_blind _ _ w r
      · rfl

/-! ## The phases -/

theorem enterSettling_blind : RunBlind Work.enterSettling := by
  have h : RunBlind fun z => Work.enterPhase ((z.setOpen noJacks).setActPhase .idlePump)
      { z.lvl with phase := .settling, settleTest := some .waiting, deadline := some (z.now + z.settleTime) } := fun _ _ => rfl
  exact h.comp (pumpStop_blind false)

theorem enterLevelling_blind (n : Nat) : RunBlind fun w => w.enterLevelling n := fun _ _ => rfl

theorem enterStabilize_blind (f : Option PendFlag) : RunBlind fun w => w.enterStabilize f := by
  have h : RunBlind fun z => if z.allGrounded = true then z.enterSettling else z :=
    .ite enterSettling_blind .id fun _ _ => Iff.rfl
  have hopen : RunBlind fun z => z.setOpen z.ungrounded := fun _ _ => rfl
  have hphase : RunBlind fun w => w.enterPhase { w.lvl with
      phase := .stabilize, pendFlag := f, liftSet := noJacks, deadline := some (w.now + w.stabilizeTime) } := fun _ _ => rfl
  exact h.comp (hopen.comp hphase)

theorem checkGrounded_blind : RunBlind Work.checkGrounded := by
  intro w r
  have hl : (w.withRun r).lvl = w.lvl := rfl
  have hg : (w.withRun r).allGrounded = w.allGrounded := rfl
  simp only [Work.checkGrounded, hl, hg]
  split
  · split
    · exact enterSettling_blind w r
    · exact enterLevelling_blind 1 w r
    · exact enterSettling_blind w r
    · rfl
  · rfl

theorem followGround_blind : RunBlind Work.followGround := by
  have hopen : RunBlind fun z => z.setOpen z.ungrounded := fun _ _ => rfl
  exact .ite (p := fun w => w.lvl.phase = .touchdown ∨ w.lvl.phase = .stabilize) (checkGrounded_blind.comp hopen) .id
    fun _ _ => Iff.rfl

theorem enterTouchdown_blind : RunBlind Work.enterTouchdown :=
  followGround_blind.comp (f := Work.followGround) (g := fun w => w.enterPhase { w.lvl with
    phase := .touchdown, deadline := some (w.now + w.touchdownTime) }) fun _ _ => rfl

/-! ## The start of the pump -/

theorem jacksMove_blind : RunBlind Work.jacksMove := by
  intro w r
  rw [jacksMove_eq, jacksMove_eq]
  have hlost : RunBlind fun z => { z with
      lvl := { z.lvl with levelHeld := false }, events := z.events ++ [.levelLost true z.tilt.p z.tilt.q] } := fun _ _ => rfl
  exact RunBlind.ite (p := fun w => w.lvl.levelHeld = true) hlost .id (fun _ _ => Iff.rfl) w r

theorem atPumpStart_blind (a : HydActivity) : RunBlind fun w => w.atPumpStart a := by
  intro w r
  have hset (js os : JackSet) : (((w.withRun r).jacksMove).setJacks js os).checkWork =
      ((w.jacksMove.setJacks js os).checkWork).withRun r :=
    RunBlind.comp (f := fun z => (z.setJacks js os).checkWork)
      (checkWork_blind.comp (g := fun z => z.setJacks js os) fun _ _ => rfl) jacksMove_blind w r
  have hl : (w.withRun r).lvl = w.lvl := rfl
  have hj (j : JackId) : (w.withRun r).jk j = w.jk j := rfl
  simp only [Work.atPumpStart, hl, hj]
  split
  · split
    · exact enterTouchdown_blind w r
    · exact enterLevelling_blind _ w r
  · exact hset _ _
  · exact hset _ _

theorem pumpRun_blind : RunBlind Work.pumpRun := by
  intro w r
  have hh : (w.withRun r).hyd = w.hyd := rfl
  simp only [Work.pumpRun, hh]
  split
  · rfl
  · next a _ =>
    exact atPumpStart_blind { a with start := some w.now, phase := .running } (w.pumpStarted a) r

theorem admitPump_blind : RunBlind Work.admitPump := by
  intro w r
  have hstart : RunBlind fun z : Work => match z.hyd.pump with
      | .off => z.pumpRun
      | _ => { z with hyd := { z.hyd with pendingStart := true } } := by
    intro z r
    have hh : (z.withRun r).hyd = z.hyd := rfl
    simp only [hh]
    split
    · exact pumpRun_blind z r
    · rfl
  exact hstart.comp (g := fun w => w.setActPhase .running) (fun _ _ => rfl) w r

theorem presentEntry_blind (w : Work) (r : Option ZeroRun) (q : Queued) :
    (w.withRun r).presentEntry q = ((w.presentEntry q).1.withRun r, (w.presentEntry q).2) := by
  by_cases hf : Fits w q.draw
  · rw [Work.presentEntry_of_fits hf, Work.presentEntry_of_fits (w := w.withRun r) hf]
    rfl
  · by_cases hl : waiting w < w.queueLimit
    · rw [Work.presentEntry_of_room hf hl, Work.presentEntry_of_room (w := w.withRun r) hf hl]
      rfl
    · rw [Work.presentEntry_of_full hf (Nat.le_of_not_lt hl),
        Work.presentEntry_of_full (w := w.withRun r) hf (Nat.le_of_not_lt hl)]

theorem presentPump_blind : RunBlind fun w => w.presentPump.1 := by
  intro w r
  have hh : (w.withRun r).hyd = w.hyd := rfl
  have hent (h : Hyd) (q : Queued) := presentEntry_blind { w with hyd := h } r q
  show (w.withRun r).presentPump.1 = w.presentPump.1.withRun r
  simp only [Work.presentPump, hh]
  split
  · rfl
  · next a ha =>
    have h := hent { w.hyd with activity := some { a with phase := .waiting } }
      (Work.pumpEntry { w with hyd := { w.hyd with activity := some { a with phase := .waiting } } } a)
    generalize hp : Work.presentEntry { w with hyd := { w.hyd with activity := some { a with phase := .waiting } } }
      (Work.pumpEntry { w with hyd := { w.hyd with activity := some { a with phase := .waiting } } } a) = p at h
    have h' : Work.presentEntry { w.withRun r with hyd := { w.hyd with activity := some { a with phase := .waiting } } }
      (Work.pumpEntry { w.withRun r with hyd := { w.hyd with activity := some { a with phase := .waiting } } } a) =
        (p.1.withRun r, p.2) := h
    rw [h']
    obtain ⟨z, st⟩ := p
    cases st
    case accepted => exact admitPump_blind z r
    all_goals rfl

/-! ## The tilt sample -/

theorem judgeLevelling_blind : RunBlind Work.judgeLevelling := by
  intro w r
  have hl : (w.withRun r).lvl = w.lvl := rfl
  simp only [Work.judgeLevelling, hl]
  split
  · exact enterStabilize_blind _ w r
  · split
    · exact enterStabilize_blind _ w r
    · split
      · exact enterStabilize_blind _ w r
      · rfl

theorem judgeSettling_blind (level : Bool) : RunBlind fun w => w.judgeSettling level := by
  have hpass : RunBlind Work.furtherPass := presentPump_blind.comp (g := fun w => w.enterPhase { w.lvl with
    phase := .waiting, pass := w.lvl.pass + 1, settleTest := none, pendFlag := none, deadline := none }) fun _ _ => rfl
  intro w r
  cases level
  · exact RunBlind.ite (p := fun w => w.lvl.pass < w.passLimit) hpass (endLevel_blind _ _) (fun _ _ => Iff.rfl) w r
  · exact RunBlind.ite (p := fun w => 5 ≤ w.lvl.levelRun) (endLevel_blind _ _) .id (fun _ _ => Iff.rfl) w r

theorem levelWatch_blind : RunBlind Work.levelWatch := by
  intro w r
  have hl : (w.withRun r).lvl = w.lvl := rfl
  have ht : isLevel (w.withRun r).tilt.p (w.withRun r).tilt.q (3 * (w.withRun r).tolerance) =
    isLevel w.tilt.p w.tilt.q (3 * w.tolerance) := rfl
  simp only [Work.levelWatch, hl, ht]
  split
  · split
    · rfl
    · split <;> rfl
  · rfl

/-- The figures of a sample and what it takes to the judges: corner heights, demands, lift set, twist (R94..R99). -/
def Work.figured (w : Work) : Work :=
  let z := w.setLvl { w.lvl with heights := w.computeHeights, demands := demandsOf w.computeHeights }
  (if z.lvl.phase == .levelling then z.setLift z.nextLift else z).withTwist

/-- The level run follows a sample (R98). -/
def Work.runFollowed (w : Work) (level : Bool) : Work :=
  w.setLvl { w.lvl with levelRun := if level then min 255 (w.lvl.levelRun + 1) else 0 }

/-- The procedure judges a sample (R109, R111). -/
def Work.sampleJudged (w : Work) (lifting level : Bool) : Work :=
  if lifting then w.judgeLevelling
  else if w.lvl.phase = .settling ∧ w.lvl.settleTest = some .judging then w.judgeSettling level
  else w

@[simp] theorem Work.figured_still (w : Work) : w.figured.still = w.still := by
  simp only [Work.figured]
  split
  · exact (Work.withTwist_still _).trans (Work.setLift_still _ _)
  · exact Work.withTwist_still _

theorem tiltSample_eq (w : Work) : w.tiltSample =
    (w.figured.levelWatch.runFollowed (isLevel w.tilt.p w.tilt.q w.tolerance)).sampleJudged (w.lvl.phase == .levelling)
      (isLevel w.tilt.p w.tilt.q w.tolerance) := by
  have hs : w.figured.still = w.still := w.figured_still
  have hlevel : isLevel w.figured.tilt.p w.figured.tilt.q w.figured.tolerance = isLevel w.tilt.p w.tilt.q w.tolerance :=
    congrArg (fun k : Still => isLevel k.tilt.p k.tilt.q (k.working.get 0x0421).toNat) hs
  rw [← hlevel]
  rfl

theorem tiltSample_blind : RunBlind Work.tiltSample := by
  intro w r
  have hfig : RunBlind Work.figured := by
    intro w r
    simp only [Work.figured]
    exact (RunBlind.comp (f := Work.withTwist) (fun _ _ => rfl)
      (RunBlind.ite (p := fun z => (z.lvl.phase == .levelling) = true) (f := fun z => z.setLift z.nextLift) (fun _ _ => rfl)
        .id fun _ _ => Iff.rfl))
      (w.setLvl { w.lvl with heights := w.computeHeights, demands := demandsOf w.computeHeights }) r
  have hrun (l : Bool) : RunBlind fun w => w.runFollowed l := fun _ _ => rfl
  have hjudge (b l : Bool) : RunBlind fun w => w.sampleJudged b l := by
    cases b
    · exact RunBlind.ite (p := fun w => w.lvl.phase = .settling ∧ w.lvl.settleTest = some .judging) (judgeSettling_blind l) .id
        fun _ _ => Iff.rfl
    · exact judgeLevelling_blind
  have hall (b l : Bool) := (hjudge b l).comp ((hrun l).comp (levelWatch_blind.comp hfig))
  rw [tiltSample_eq, tiltSample_eq]
  exact hall _ _ w r

end Sys2Proof.Machine
end

