-- ==== Sys2Proof/Proofs/TiltFilter.lean ====
section
/-! PROOF. What a filtered sample does, good or at a rail (R86..R89, R92, R94..R99, R118). -/

namespace Sys2Proof.Machine

set_option Elab.async false

open Sys2Proof.Safety

/-! ## The block -/

/-- The work at the end of a block (R86). -/
def Work.blocked (w : Work) (sx sy : BitVec 15) : Work :=
  (w.notBefore (match w.tilt.blockAt with | some t => t + 40000 | none => 0)).showTilt
    ((sx >>> 3).setWidth 12) ((sy >>> 3).setWidth 12)

theorem Work.blockEnd_of {w : Work} (hp : w.power = .active) (sx sy : BitVec 15) :
    w.blockEnd sx sy = (w.blocked sx sy).filteredSample sx.toNat sy.toNat := by
  rw [Work.blockEnd, if_pos hp]
  rfl

section execs

variable {s : State} (ha : s.work.awake = true) (hp : s.work.power = .active)
include ha hp

theorem exec_filteredSample {sx sy : BitVec 15} {z : Work}
    (hz : (s.work.blocked sx sy).filteredSample sx.toNat sy.toNat = z) :
    exec (.filteredSample sx sy) s = .next (finish s z none) :=
  exec_of_event ha rfl ((Work.blockEnd_of hp sx sy).trans hz)

theorem exec_zeroLearnComplete {sx sy : BitVec 15} {z : Work}
    (hz : (s.work.blocked sx sy).filteredSample sx.toNat sy.toNat = z) :
    exec (.zeroLearnComplete sx sy) s = .next (finish s z none) :=
  exec_of_event ha rfl ((Work.blockEnd_of hp sx sy).trans hz)

theorem exec_tiltFaultSet {sx sy : BitVec 15} {z : Work}
    (hz : ((s.work.thirdRail sx sy).blocked sx sy).filteredSample sx.toNat sy.toNat = z) :
    exec (.tiltFaultSet sx sy) s = .next (finish s z none) :=
  exec_of_event ha rfl ((if_pos hp).trans ((Work.blockEnd_of (w := s.work.thirdRail sx sy) hp sx sy).trans hz))

theorem exec_tiltFaultClear {sx sy : BitVec 15} {z : Work}
    (hz : (s.work.lastGood.blocked sx sy).filteredSample sx.toNat sy.toNat = z) :
    exec (.tiltFaultClear sx sy) s = .next (finish s z none) :=
  exec_of_event ha rfl ((if_pos hp).trans ((Work.blockEnd_of (w := s.work.lastGood) hp sx sy).trans hz))

theorem exec_levelLost {sx sy : BitVec 15} {z : Work} (hl : s.work.lvl.levelHeld = true)
    (hz : ((s.work.setLvl { s.work.lvl with drift := max 49 s.work.lvl.drift }).blocked sx sy).filteredSample sx.toNat
      sy.toNat = z) : exec (.levelLost sx sy) s = .next (finish s z none) := by
  have hd : s.work.lastDrift = s.work.setLvl { s.work.lvl with drift := max 49 s.work.lvl.drift } := if_pos hl
  refine exec_of_event ha rfl ((if_pos hp).trans ((Work.blockEnd_of ?_ sx sy).trans ?_))
  · rw [hd]; exact hp
  · rw [hd]; exact hz

end execs

/-! ## A good sample -/

theorem railSum_eq_false {v : BitVec 15} : railSum v.toNat = false ↔ 128 ≤ v.toNat ∧ v.toNat ≤ 32632 := by
  simp only [railSum, Bool.or_eq_false_iff, decide_eq_false_iff_not, Nat.not_lt]

theorem railSum_eq_true {v : BitVec 15} : railSum v.toNat = true ↔ ¬ (128 ≤ v.toNat ∧ v.toNat ≤ 32632) := by
  rw [← railSum_eq_false, Bool.not_eq_false]

/-- The filter after a good sample, with its rail runs and its fault (R87..R89). -/
def Work.goodTilt (z : Work) (sx sy rx ry : Nat) (fault : Bool) : Tilt :=
  Tilt.convert { z.tilt with sumX := 0, sumY := 0, count := 0, blockAt := some z.now, railX := rx, railY := ry,
                             good := min 25 (z.tilt.good + 1), fault := fault }
    sx sy (z.prof 0x0428) (z.prof 0x0429) z.zero.1 z.zero.2

/-- The work with the conversion of a good sample, the fault clear (R88, R89). -/
def Work.sampled (z : Work) (sx sy : Nat) : Work :=
  { z with tilt := { z.goodTilt sx sy 0 0 false with lastSample := some z.now } }

theorem Work.filteredSample_unrailed {z : Work} {sx sy : Nat} (h : ¬ (railSum sx || railSum sy) = true) :
    z.filteredSample sx sy =
      let t := z.goodTilt sx sy (railNext sx z.tilt.railX) (railNext sy z.tilt.railY)
        (z.tilt.fault && min 25 (z.tilt.good + 1) != 25)
      if t.fault = true then { z with tilt := t }
      else ({ z with tilt := { t with lastSample := some z.now } } : Work).tiltSample.zeroSample :=
  if_neg h

theorem Work.filteredSample_of_good {z : Work} {sx sy : Nat} (hx : railSum sx = false) (hy : railSum sy = false)
    (hf : z.tilt.fault = false ∨ 24 ≤ z.tilt.good) :
    z.filteredSample sx sy = (z.sampled sx sy).tiltSample.zeroSample := by
  have hfault : (z.tilt.fault && min 25 (z.tilt.good + 1) != 25) = false := by
    rcases hf with hf | hf
    · rw [hf, Bool.false_and]
    · have h25 : min 25 (z.tilt.good + 1) = 25 := by omega
      rw [h25, bne_self_eq_false, Bool.and_false]
  have hrx : railNext sx z.tilt.railX = 0 := by simp [railNext, hx]
  have hry : railNext sy z.tilt.railY = 0 := by simp [railNext, hy]
  rw [Work.filteredSample_unrailed (by rw [hx, hy]; nofun), hfault, hrx, hry]
  exact if_neg nofun

theorem Work.zeroSample_of_none {z : Work} (h : z.tilt.zeroRun = none) : z.zeroSample = z := by
  rw [Work.zeroSample, h]

theorem Work.tiltSample_tilt (z : Work) : z.tiltSample.tilt = z.tilt := congrArg Still.tilt z.tiltSample_still

/-- A good sample outside a zero run. -/
theorem Work.filteredSample_plain {z : Work} {sx sy : Nat} (hx : railSum sx = false) (hy : railSum sy = false)
    (hf : z.tilt.fault = false ∨ 24 ≤ z.tilt.good) (hr : z.tilt.zeroRun = none) :
    z.filteredSample sx sy = (z.sampled sx sy).tiltSample := by
  rw [Work.filteredSample_of_good hx hy hf]
  exact Work.zeroSample_of_none ((congrArg Tilt.zeroRun (Work.tiltSample_tilt (z.sampled sx sy))).trans hr)

/-! ## A rail -/

/-- The work after a sample at a rail: the readings stay (R88). -/
def Work.railed (z : Work) (sx sy : Nat) : Work :=
  { z with tilt := { z.tilt with sumX := 0, sumY := 0, count := 0, blockAt := some z.now, good := 0,
                                 railX := railNext sx z.tilt.railX, railY := railNext sy z.tilt.railY } }

theorem Work.filteredSample_of_rail {z : Work} {sx sy : Nat} (h : (railSum sx || railSum sy) = true) :
    z.filteredSample sx sy =
      if (!z.tilt.fault && (railNext sx z.tilt.railX == 3 || railNext sy z.tilt.railY == 3)) = true then
        (z.railed sx sy).setTiltFault
      else z.railed sx sy := by
  simp only [Work.filteredSample, h, if_true]
  rfl

theorem railNext_of_good {n run : Nat} (h : railSum n = false) : railNext n run = 0 := by simp [railNext, h]

theorem railNext_of_rail {n run : Nat} (h : railSum n = true) : railNext n run = min 3 (run + 1) := by simp [railNext, h]

theorem railNext_ne_three {n run : Nat} (h : railSum n = true → run < 2) : (railNext n run == 3) = false := by
  cases hn : railSum n
  · rw [railNext_of_good hn]; rfl
  · have hr := h hn
    rw [railNext_of_rail hn, beq_eq_false_iff_ne]
    omega

theorem railNext_third {n run : Nat} (h : railSum n = true) : railNext n (max 2 run) = 3 := by
  rw [railNext_of_rail h]; omega

theorem Work.abortZero_parts (w : Work) : w.abortZero.tilt = { w.tilt with zeroRun := none } ∧ w.abortZero.lvl = w.lvl ∧
    w.abortZero.hyd = w.hyd ∧ w.abortZero.now = w.now ∧
    w.abortZero.events = w.events ++ (if w.tilt.zeroRun = none then [] else [.learnTilt .aborted none none]) := by
  cases h : w.tilt.zeroRun with
  | none =>
    rw [Work.abortZero_of_none h]
    refine ⟨?_, rfl, rfl, rfl, ?_⟩
    · rw [← h]
    · rw [if_pos rfl, List.append_nil]
  | some r =>
    rw [Work.abortZero_of_some h]
    exact ⟨rfl, rfl, rfl, rfl, rfl⟩

/-! ## The figures of a sample -/

/-- The record of the Levelling Engine after a sample, the level watch apart (R94..R99). -/
def Work.figures (x : Work) (lift : JackSet) (run drift : Nat) : Level :=
  { x.lvl with
    heights := x.computeHeights, demands := demandsOf x.computeHeights, liftSet := lift, twist := x.computeTwist,
    twistOver := match x.computeTwist with | some v => decide (x.profN 0x0422 < v.natAbs) | none => false,
    levelRun := run, drift := drift }

theorem levelRun_eq {p q : Int} {tol old run : Nat} (h1 : p.natAbs ≤ tol ∧ q.natAbs ≤ tol → run = min 255 (old + 1))
    (h0 : ¬ (p.natAbs ≤ tol ∧ q.natAbs ≤ tol) → run = 0) : (if isLevel p q tol then min 255 (old + 1) else 0) = run := by
  have hl : isLevel p q tol = true ↔ p.natAbs ≤ tol ∧ q.natAbs ≤ tol := by simp [isLevel]
  by_cases h : p.natAbs ≤ tol ∧ q.natAbs ≤ tol
  · rw [if_pos (hl.mpr h), h1 h]
  · rw [if_neg (mt hl.mp h), h0 h]

theorem Work.levelWatch_not_held {z : Work} (h : z.lvl.levelHeld = false) : z.levelWatch = z := by
  simp only [Work.levelWatch, h]
  exact if_neg nofun

theorem Work.levelWatch_near {z : Work} (h : z.lvl.levelHeld = true)
    (hn : isLevel z.tilt.p z.tilt.q (3 * z.tolerance) = true) : z.levelWatch = z.setLvl { z.lvl with drift := 0 } := by
  simp only [Work.levelWatch, h, hn, if_true]

theorem Work.levelWatch_far {z : Work} (h : z.lvl.levelHeld = true)
    (hn : isLevel z.tilt.p z.tilt.q (3 * z.tolerance) = false) (hd : z.lvl.drift < 49) :
    z.levelWatch = z.setLvl { z.lvl with drift := z.lvl.drift + 1 } := by
  have hd' : ¬ 50 ≤ z.lvl.drift + 1 := by omega
  simp only [Work.levelWatch, h, hn, if_true, if_neg hd', Bool.false_eq_true, if_false]

theorem Work.levelWatch_lost {z : Work} (h : z.lvl.levelHeld = true)
    (hn : isLevel z.tilt.p z.tilt.q (3 * z.tolerance) = false) (hd : 49 ≤ z.lvl.drift) :
    z.levelWatch = (z.setLvl { z.lvl with levelHeld := false, drift := 0 }).emit (.levelLost false z.tilt.p z.tilt.q) := by
  have hd' : 50 ≤ z.lvl.drift + 1 := by omega
  simp only [Work.levelWatch, h, hn, if_true, if_pos hd', Bool.false_eq_true, if_false]

/-- The drift run after a sample while no level is lost (R118). -/
def driftAfter (x : Work) : Nat :=
  if x.lvl.levelHeld then (if isLevel x.tilt.p x.tilt.q (3 * x.tolerance) then 0 else x.lvl.drift + 1) else x.lvl.drift

theorem Work.figured_quiet {x : Work} (hp : x.lvl.phase ≠ .levelling) :
    x.figured = x.setLvl (x.figures x.lvl.liftSet x.lvl.levelRun x.lvl.drift) := by
  have h : ¬ (x.lvl.phase == .levelling) = true := fun h => hp (eq_of_beq h)
  rw [Work.figured]
  exact congrArg Work.withTwist (if_neg h)

/-- A sample that no phase judges and that loses no level. -/
theorem Work.tiltSample_quiet {x : Work} (hp : x.lvl.phase ≠ .levelling)
    (hj : ¬ (x.lvl.phase = .settling ∧ x.lvl.settleTest = some .judging))
    (hw : x.lvl.levelHeld = true → isLevel x.tilt.p x.tilt.q (3 * x.tolerance) = true ∨ x.lvl.drift < 49) :
    x.tiltSample = x.setLvl (x.figures x.lvl.liftSet
      (if isLevel x.tilt.p x.tilt.q x.tolerance then min 255 (x.lvl.levelRun + 1) else 0) (driftAfter x)) := by
  have hlift : (x.lvl.phase == .levelling) = false := beq_eq_false_iff_ne.mpr hp
  rw [tiltSample_eq, hlift, Work.figured_quiet hp]
  generalize isLevel x.tilt.p x.tilt.q x.tolerance = l
  have hwatch : (x.setLvl (x.figures x.lvl.liftSet x.lvl.levelRun x.lvl.drift)).levelWatch =
      x.setLvl (x.figures x.lvl.liftSet x.lvl.levelRun (driftAfter x)) := by
    generalize hy : x.setLvl (x.figures x.lvl.liftSet x.lvl.levelRun x.lvl.drift) = y
    have hheld : y.lvl.levelHeld = x.lvl.levelHeld := by rw [← hy]; rfl
    have hnear : isLevel y.tilt.p y.tilt.q (3 * y.tolerance) = isLevel x.tilt.p x.tilt.q (3 * x.tolerance) := by rw [← hy]; rfl
    cases hh : x.lvl.levelHeld with
    | false =>
      rw [Work.levelWatch_not_held (hheld.trans hh), driftAfter, hh, ← hy]
      rfl
    | true =>
      cases hn : isLevel x.tilt.p x.tilt.q (3 * x.tolerance) with
      | true =>
        rw [Work.levelWatch_near (hheld.trans hh) (hnear.trans hn), driftAfter, hh, hn, ← hy]
        rfl
      | false =>
        have hd : x.lvl.drift < 49 := (hw hh).resolve_left fun h => Bool.false_ne_true (hn.symm.trans h)
        rw [Work.levelWatch_far (hheld.trans hh) (hnear.trans hn) (by rw [← hy]; exact hd), driftAfter, hh, hn, ← hy]
        rfl
  rw [hwatch]
  exact if_neg hj

end Sys2Proof.Machine
end

