-- ==== Sys2Proof/Proofs/SampleJudges.lean ====
section
/-! PROOF. What a sample brings to the procedure, and what TILT_FAULT ends (R88, R96, R108, R109, R111, R112). -/

namespace Sys2Proof.Machine

set_option Elab.async false

open Sys2Proof.Safety

/-! ## TILT_FAULT -/

theorem Work.unqueued_parts (w : Work) : w.unqueued.lvl = w.lvl ∧ w.unqueued.events = w.events := by
  simp only [Work.unqueued]
  split <;> exact ⟨rfl, rfl⟩

theorem Work.endActivity_level {w : Work} {a : HydActivity} (ha : w.hyd.activity = some a) (hk : a.kind = .level)
    (o : EndOutcome) (b : Bool) : (w.endActivity o b).events = w.events := by
  rw [Work.endActivity_eq ha, hk]
  exact (w.pumpStop b).unqueued_parts.2.trans (w.pumpStop_events b)

theorem Work.endActivity_lvl (w : Work) (o : EndOutcome) (b : Bool) : (w.endActivity o b).lvl = w.lvl := by
  cases ha : w.hyd.activity with
  | none => simp only [Work.endActivity, ha]
  | some a =>
    rw [Work.endActivity_eq ha]
    have h : (w.pumpStop b).unqueued.lvl = w.lvl := (w.pumpStop b).unqueued_parts.1.trans (w.pumpStop_parts b).1
    cases a.kind <;> exact h

theorem Work.endLevel_idle {w : Work} (h : w.lvl.phase = .idle) (o : EndOutcome) (b : Bool) : w.endLevel o b = w := if_pos h

theorem Work.endLevel_levelRun (w : Work) (o : EndOutcome) (b : Bool) : (w.endLevel o b).lvl.levelRun = w.lvl.levelRun := by
  by_cases h : w.lvl.phase = .idle
  · rw [Work.endLevel_idle h]
  · have hend : (w.endLevel o b).lvl.levelRun = (w.endActivity o b).lvl.levelRun := by
      rw [Work.endLevel_of_working h rfl]
      rfl
    exact hend.trans (congrArg Level.levelRun (w.endActivity_lvl o b))

theorem Work.endLevel_level {w : Work} {a : HydActivity} (ha : w.hyd.activity = some a) (hk : a.kind = .level)
    (hl : w.lvl.phase ≠ .idle) (o : EndOutcome) (b : Bool) :
    (w.endLevel o b).events = w.events ++ [.levelEnded w.lvl.mode o w.lvl.pass w.tilt.p w.tilt.q] := by
  have htilt : (w.endActivity o b).tilt = w.tilt := congrArg Still.tilt (Work.endActivity_still w o b)
  have he : (w.endLevel o b).events = (w.endActivity o b).events ++ [.levelEnded (w.endActivity o b).lvl.mode o
      (w.endActivity o b).lvl.pass (w.endActivity o b).tilt.p (w.endActivity o b).tilt.q] :=
    congrArg Work.events (Work.endLevel_of_working hl rfl)
  rw [he, w.endActivity_lvl, htilt, Work.endActivity_level ha hk]

/-- The report of a zero run cut short (R93). -/
def abortReport (r : Option ZeroRun) : List Event := if r = none then [] else [.learnTilt .aborted none none]

/-- The fault set, before the procedure ends (R88). -/
def Work.tiltFaulted (y : Work) : Work :=
  { y with tilt := { y.tilt with fault := true }, lvl := { y.lvl with levelRun := 0 } }

theorem Work.setTiltFault_parts (y : Work) : y.setTiltFault.tilt = { y.tilt with fault := true, zeroRun := none } ∧
    y.setTiltFault.now = y.now ∧ y.setTiltFault.lvl = (y.tiltFaulted.endLevel .tiltFault false).lvl ∧
    y.setTiltFault.hyd = (y.tiltFaulted.endLevel .tiltFault false).hyd ∧
    y.setTiltFault.events = (y.tiltFaulted.endLevel .tiltFault false).events ++ abortReport y.tilt.zeroRun := by
  obtain ⟨ht, hl, hh, hn, he⟩ := (y.tiltFaulted.endLevel .tiltFault false).abortZero_parts
  have hs : (y.tiltFaulted.endLevel .tiltFault false).still = y.tiltFaulted.still := Work.endLevel_still _ _ _
  have hfault : y.setTiltFault = (y.tiltFaulted.endLevel .tiltFault false).abortZero := rfl
  have htilt : (y.tiltFaulted.endLevel .tiltFault false).tilt = { y.tilt with fault := true } := congrArg Still.tilt hs
  rw [hfault]
  refine ⟨ht.trans (by rw [htilt]), hn.trans (congrArg Still.now hs), hl, hh, he.trans ?_⟩
  rw [htilt]
  rfl

theorem Work.setTiltFault_idle {y : Work} (h : y.lvl.phase = .idle) :
    y.setTiltFault.lvl = { y.lvl with levelRun := 0 } ∧ y.setTiltFault.hyd = y.hyd ∧
      y.setTiltFault.events = y.events ++ abortReport y.tilt.zeroRun := by
  obtain ⟨_, _, hl, hh, he⟩ := y.setTiltFault_parts
  rw [Work.endLevel_idle (w := y.tiltFaulted) h] at hl hh he
  exact ⟨hl, hh, he⟩

theorem Work.setTiltFault_working {y : Work} {a : HydActivity} (ha : y.hyd.activity = some a) (h : y.lvl.phase ≠ .idle) :
    y.setTiltFault.lvl.phase = .idle ∧ y.setTiltFault.lvl.lastOutcome = .tiltFault ∧
      y.setTiltFault.hyd.activity = none ∧ y.setTiltFault.hyd.lastOutcome = .tiltFault ∧
      (a.kind = .level → y.setTiltFault.events = y.events ++
        [.levelEnded y.lvl.mode .tiltFault y.lvl.pass y.tilt.p y.tilt.q] ++ abortReport y.tilt.zeroRun) := by
  obtain ⟨_, _, hl, hh, he⟩ := y.setTiltFault_parts
  have hsome : y.tiltFaulted.hyd.activity.isSome = true := by
    have ha' : y.tiltFaulted.hyd.activity = some a := ha
    rw [ha']; rfl
  obtain ⟨h1, h2, h3, h4⟩ := Work.endLevel_outcome (w := y.tiltFaulted) h hsome .tiltFault false
  rw [hl, hh, he]
  refine ⟨h1, h2, h3, h4, fun hk => ?_⟩
  rw [Work.endLevel_level (w := y.tiltFaulted) ha hk h]
  rfl

theorem Work.setTiltFault_levelRun (y : Work) : y.setTiltFault.lvl.levelRun = 0 := by
  obtain ⟨_, _, hl, _⟩ := y.setTiltFault_parts
  rw [hl]
  exact Work.endLevel_levelRun _ _ _

/-! ## A sample in LEVELLING -/

theorem Work.nextLift_eq {z : Work} {lift : JackSet} (h : ∀ j : JackId, lift.has j = true ↔ ∃ d, z.lvl.demands[j] = some d ∧
      if z.lvl.liftSet.has j then z.profN 0x0420 / 2 < d
      else z.profN 0x0420 < d ∧ (z.jk j).atLimit = false ∧ (z.jk j).fault = none) : z.nextLift = lift := by
  refine JackSet.eq_of_has fun j => Bool.eq_iff_iff.mpr (Iff.trans ?_ (h j).symm)
  have hdead : z.deadband = z.profN 0x0420 := rfl
  rw [Work.nextLift, JackSet.has_jacksWhere, hdead]
  cases hd : z.lvl.demands[j] with
  | none => simp [liftMember]
  | some d =>
    cases z.lvl.liftSet.has j <;> simp [liftMember, and_assoc]

/-- The work after a sample in LEVELLING, the lift set followed by the open set (R96, R97). -/
def Work.lifted (x : Work) (a : HydActivity) (lift : JackSet) (run : Nat) : Work :=
  { x with hyd := { x.hyd with activity := some { a with openSet := lift.inter a.jackSet } },
           lvl := x.figures lift run x.lvl.drift }

theorem Work.setLift_withTwist {y : Work} {a : HydActivity} (ha : y.hyd.activity = some a) (lift : JackSet) :
    (y.setLift lift).withTwist = { y with
      hyd := { y.hyd with activity := some { a with openSet := lift.inter a.jackSet } },
      lvl := { y.lvl with
        liftSet := lift, twist := y.computeTwist,
        twistOver := match y.computeTwist with | some v => decide (y.profN 0x0422 < v.natAbs) | none => false } } := by
  rw [Work.setLift, withOpen_setOpen (a := a) (by exact ha)]
  rfl

theorem Work.figured_levelling {x : Work} {a : HydActivity} (ha : x.hyd.activity = some a) (hp : x.lvl.phase = .levelling)
    {lift : JackSet}
    (hl : (x.setLvl { x.lvl with heights := x.computeHeights, demands := demandsOf x.computeHeights }).nextLift = lift) :
    x.figured = x.lifted a lift x.lvl.levelRun := by
  have hset : x.figured = ((x.setLvl { x.lvl with
      heights := x.computeHeights, demands := demandsOf x.computeHeights }).setLift lift).withTwist := by
    rw [Work.figured, ← hl]
    exact congrArg Work.withTwist (if_pos (beq_iff_eq.mpr hp))
  exact hset.trans (Work.setLift_withTwist (y := x.setLvl { x.lvl with
    heights := x.computeHeights, demands := demandsOf x.computeHeights }) ha lift)

theorem Work.tiltSample_levelling {x : Work} {a : HydActivity} (ha : x.hyd.activity = some a)
    (hp : x.lvl.phase = .levelling) (hh : x.lvl.levelHeld = false) {lift : JackSet} {run : Nat}
    (hl : (x.setLvl { x.lvl with heights := x.computeHeights, demands := demandsOf x.computeHeights }).nextLift = lift)
    (hr : (if isLevel x.tilt.p x.tilt.q x.tolerance then min 255 (x.lvl.levelRun + 1) else 0) = run) :
    x.tiltSample = (x.lifted a lift run).judgeLevelling := by
  have hlift : (x.lvl.phase == .levelling) = true := beq_iff_eq.mpr hp
  rw [tiltSample_eq, hlift, Work.figured_levelling ha hp hl,
    Work.levelWatch_not_held (z := x.lifted a lift x.lvl.levelRun) hh, ← hr]
  rfl

section judgeLevelling

variable {z : Work}

theorem Work.judgeLevelling_twist (h : z.lvl.twistOver = true) : z.judgeLevelling = z.enterStabilize (some .twist) := if_pos h

theorem Work.judgeLevelling_level (h : z.lvl.twistOver = false) (hr : 5 ≤ z.lvl.levelRun) :
    z.judgeLevelling = z.enterStabilize none := by
  simp only [Work.judgeLevelling, h, Bool.false_eq_true, if_false, if_pos hr]

theorem Work.judgeLevelling_done (h : z.lvl.twistOver = false) (hr : z.lvl.levelRun < 5) (he : z.lvl.liftSet.isEmpty = true) :
    z.judgeLevelling = z.enterStabilize (if z.lvl.limitMark then some .range else none) := by
  simp only [Work.judgeLevelling, h, Bool.false_eq_true, if_false, if_neg (Nat.not_le_of_lt hr), if_pos he]

theorem Work.judgeLevelling_on (h : z.lvl.twistOver = false) (hr : z.lvl.levelRun < 5) (he : z.lvl.liftSet.isEmpty = false) :
    z.judgeLevelling = z := by
  simp only [Work.judgeLevelling, h, Bool.false_eq_true, if_false, if_neg (Nat.not_le_of_lt hr), he]

end judgeLevelling

/-! ## A sample in the level test of SETTLING -/

theorem Work.sampleJudged_settling {z : Work} (hp : z.lvl.phase = .settling) (hj : z.lvl.settleTest = some .judging)
    (level : Bool) : z.sampleJudged false level = z.judgeSettling level := by
  simp only [Work.sampleJudged, hp, hj, and_self, if_true, Bool.false_eq_true, if_false]

theorem Work.tiltSample_judging {x : Work} (hp : x.lvl.phase = .settling) (hj : x.lvl.settleTest = some .judging)
    (hh : x.lvl.levelHeld = false) {run : Nat}
    (hr : (if isLevel x.tilt.p x.tilt.q x.tolerance then min 255 (x.lvl.levelRun + 1) else 0) = run) :
    x.tiltSample = (x.setLvl (x.figures x.lvl.liftSet run x.lvl.drift)).judgeSettling
      (isLevel x.tilt.p x.tilt.q x.tolerance) := by
  have hne : x.lvl.phase ≠ .levelling := by rw [hp]; nofun
  rw [tiltSample_eq, beq_eq_false_iff_ne.mpr hne, Work.figured_quiet hne,
    Work.levelWatch_not_held (z := x.setLvl (x.figures x.lvl.liftSet x.lvl.levelRun x.lvl.drift)) hh, ← hr]
  generalize isLevel x.tilt.p x.tilt.q x.tolerance = l
  exact Work.sampleJudged_settling (z := x.setLvl (x.figures x.lvl.liftSet
    (if l then min 255 (x.lvl.levelRun + 1) else 0) x.lvl.drift)) hp hj l

/-- The work that waits for a further pass (R112). -/
def Work.nextPass (z : Work) (a : HydActivity) : Work :=
  { z with
    lvl := { z.lvl with phase := .waiting, pass := z.lvl.pass + 1, settleTest := none, pendFlag := none, deadline := none },
    hyd := { z.hyd with activity := some { a with phase := .waiting } },
    events := z.events ++ [.levelPhase .waiting z.lvl.mode (z.lvl.pass + 1)] }

section pass

variable {z : Work} {a : HydActivity} (ha : z.hyd.activity = some a)
include ha

theorem Work.furtherPass_eq {w2 : Work} {st : Status}
    (h : (z.nextPass a).presentEntry ((z.nextPass a).pumpEntry a) = (w2, st)) :
    z.furtherPass = if st = .accepted then w2.admitPump else w2 := by
  have hent : (z.nextPass a).presentEntry (Work.pumpEntry (z.nextPass a) a) = (w2, st) := h
  have hz : z.furtherPass = (Work.presentPump (z.enterPhase { z.lvl with
    phase := .waiting, pass := z.lvl.pass + 1, settleTest := none, pendFlag := none, deadline := none })).1 := rfl
  rw [hz, Work.presentPump]
  have ha' : (z.enterPhase { z.lvl with
    phase := .waiting, pass := z.lvl.pass + 1, settleTest := none, pendFlag := none, deadline := none }).hyd.activity = some a := ha
  simp only [ha']
  have hent' : Work.presentEntry { z.enterPhase { z.lvl with
        phase := .waiting, pass := z.lvl.pass + 1, settleTest := none, pendFlag := none, deadline := none } with
        hyd := { (z.enterPhase { z.lvl with
          phase := .waiting, pass := z.lvl.pass + 1, settleTest := none, pendFlag := none, deadline := none }).hyd with
          activity := some { a with phase := .waiting } } }
      (Work.pumpEntry { z.enterPhase { z.lvl with
        phase := .waiting, pass := z.lvl.pass + 1, settleTest := none, pendFlag := none, deadline := none } with
        hyd := { (z.enterPhase { z.lvl with
          phase := .waiting, pass := z.lvl.pass + 1, settleTest := none, pendFlag := none, deadline := none }).hyd with
          activity := some { a with phase := .waiting } } } a) = (w2, st) := hent
  rw [hent']
  cases st <;> rfl

theorem Work.furtherPass_room (hf : ¬ Fits z (z.profN 0x0274)) (hl : waiting z < z.queueLimit) :
    z.furtherPass = queued (z.nextPass a) ((z.nextPass a).pumpEntry a) := by
  rw [Work.furtherPass_eq ha (Work.presentEntry_of_room (w := z.nextPass a) hf hl)]
  exact if_neg nofun

theorem Work.furtherPass_full (hf : ¬ Fits z (z.profN 0x0274)) (hl : z.queueLimit ≤ waiting z) :
    z.furtherPass = z.nextPass a := by
  rw [Work.furtherPass_eq ha (Work.presentEntry_of_full (w := z.nextPass a) hf hl)]
  exact if_neg nofun

theorem Work.furtherPass_fits (hf : Fits z (z.profN 0x0274)) :
    z.furtherPass = (admitted (z.nextPass a) hydTarget (z.profN 0x0274)).admitPump := by
  rw [Work.furtherPass_eq ha (Work.presentEntry_of_fits (w := z.nextPass a) hf)]
  exact if_pos rfl

theorem Work.furtherPass_dwell (hf : Fits z (z.profN 0x0274)) (hp : z.hyd.pump = .dwell) :
    z.furtherPass = (admitted (z.nextPass a) hydTarget (z.profN 0x0274)).pumpPending a := by
  rw [Work.furtherPass_fits ha hf]
  generalize hy : admitted (z.nextPass a) hydTarget (z.profN 0x0274) = y
  have hpump : (y.setActPhase .running).hyd.pump = .dwell := by rw [← hy]; exact hp
  simp only [Work.admitPump]
  split
  · next ho => exact nomatch hpump.symm.trans ho
  · subst hy; rfl

theorem Work.furtherPass_off (hk : a.kind = .level) (hf : Fits z (z.profN 0x0274)) (hp : z.hyd.pump = .off) :
    z.furtherPass = ((admitted (z.nextPass a) hydTarget (z.profN 0x0274)).pumpStarted a).enterLevelling (z.lvl.pass + 1) := by
  rw [Work.furtherPass_fits ha hf]
  generalize hy : admitted (z.nextPass a) hydTarget (z.profN 0x0274) = y
  have hpump : (y.setActPhase .running).hyd.pump = .off := by rw [← hy]; exact hp
  have hstart : y.admitPump = (y.pumpStarted a).atPumpStart { a with phase := .running, start := some y.now } := by
    simp only [Work.admitPump, hpump]
    subst hy
    rfl
  have hpass : (y.pumpStarted a).lvl.pass = z.lvl.pass + 1 := by rw [← hy]; rfl
  rw [hstart]
  simp only [Work.atPumpStart, hk, hpass, if_neg (Nat.succ_ne_zero _)]

end pass

end Sys2Proof.Machine
end

