-- ==== Sys2Proof/Proofs/TiltSamples.lean ====
section
/-! PROOF. The filtered samples, assembled (R86..R89, R92, R94..R99, R108, R109, R111, R112, R118). -/

namespace Sys2Proof.Machine

set_option Elab.async false

open Sys2Proof.Safety

theorem isLevel_iff (p q : Int) (tol : Nat) : isLevel p q tol = true ↔ p.natAbs ≤ tol ∧ q.natAbs ≤ tol := by
  simp [isLevel]

theorem isLevel_eq_false {p q : Int} {tol : Nat} (h : tol < p.natAbs ∨ tol < q.natAbs) : isLevel p q tol = false := by
  refine Bool.eq_false_iff.mpr fun hl => ?_
  obtain ⟨hp, hq⟩ := (isLevel_iff p q tol).mp hl
  omega

theorem heights_of {x : Work} {j : JackId} (hp : x.jackPresent j = true) (hf : (x.jk j).fenced = false) :
    x.computeHeights[j] = some (cornerHeight (x.coach (0x0130 + j.val)) (x.coach (0x0138 + j.val)) x.tilt.p x.tilt.q) := by
  simp [Work.computeHeights, hp, hf]

/-- A rail sample that sets no fault. -/
theorem Work.filteredSample_rail_quiet {z : Work} {sx sy : Nat} (h : (railSum sx || railSum sy) = true)
    (hq : z.tilt.fault = true ∨ ((railSum sx = true → z.tilt.railX < 2) ∧ (railSum sy = true → z.tilt.railY < 2))) :
    z.filteredSample sx sy = z.railed sx sy := by
  rw [Work.filteredSample_of_rail h]
  rcases hq with hf | ⟨hx, hy⟩
  · rw [hf]; exact if_neg nofun
  · rw [railNext_ne_three hx, railNext_ne_three hy, Bool.or_self, Bool.and_false]
    exact if_neg nofun

/-- The rails that have no third sample to come keep the run they have. -/
theorem Work.thirdRail_eq_self {w : Work} {sx sy : BitVec 15} (hx : railSum sx.toNat = true → 2 ≤ w.tilt.railX)
    (hy : railSum sy.toNat = true → 2 ≤ w.tilt.railY) : w.thirdRail sx sy = w := by
  have h1 : (if railSum sx.toNat then max 2 w.tilt.railX else w.tilt.railX) = w.tilt.railX := by
    split
    · next h => exact Nat.max_eq_right (hx h)
    · rfl
  have h2 : (if railSum sy.toNat then max 2 w.tilt.railY else w.tilt.railY) = w.tilt.railY := by
    split
    · next h => exact Nat.max_eq_right (hy h)
    · rfl
  rw [Work.thirdRail, h1, h2]

/-- The third rail sample in a row (R88). -/
theorem Work.filteredSample_third {w : Work} {sx sy : BitVec 15} (h : (railSum sx.toNat || railSum sy.toNat) = true)
    (hf : w.tilt.fault = false) : ((w.thirdRail sx sy).blocked sx sy).filteredSample sx.toNat sy.toNat =
      (((w.thirdRail sx sy).blocked sx sy).railed sx.toNat sy.toNat).setTiltFault := by
  have hf' : ((w.thirdRail sx sy).blocked sx sy).tilt.fault = false := hf
  have hx : ((w.thirdRail sx sy).blocked sx sy).tilt.railX = if railSum sx.toNat then max 2 w.tilt.railX else w.tilt.railX := rfl
  have hy : ((w.thirdRail sx sy).blocked sx sy).tilt.railY = if railSum sy.toNat then max 2 w.tilt.railY else w.tilt.railY := rfl
  rw [Work.filteredSample_of_rail h, hf']
  refine if_pos ?_
  rcases Bool.or_eq_true_iff.mp h with h | h
  · rw [hx, if_pos h, railNext_third h]; rfl
  · rw [hy, if_pos h, railNext_third h, beq_self_eq_true, Bool.or_true]; rfl

theorem thirdRail_run {n old : Nat} : (railSum n = false → railNext n (if railSum n then max 2 old else old) = 0) ∧
    (railSum n = true → railNext n (if railSum n then max 2 old else old) = 3) := by
  refine ⟨railNext_of_good, fun h => ?_⟩
  rw [if_pos h, railNext_third h]

/-- The 50th sample of a drift loses the level (R118). -/
theorem Work.tiltSample_lost {x : Work} (hp : x.lvl.phase ≠ .levelling)
    (hj : ¬ (x.lvl.phase = .settling ∧ x.lvl.settleTest = some .judging)) (hh : x.lvl.levelHeld = true)
    (hn : isLevel x.tilt.p x.tilt.q (3 * x.tolerance) = false) (hd : 49 ≤ x.lvl.drift) :
    x.tiltSample.lvl.levelHeld = false ∧ x.tiltSample.lvl.drift = 0 ∧
      x.tiltSample.events = x.events ++ [.levelLost false x.tilt.p x.tilt.q] := by
  have hlift : (x.lvl.phase == .levelling) = false := beq_eq_false_iff_ne.mpr hp
  rw [tiltSample_eq, hlift, Work.figured_quiet hp]
  generalize isLevel x.tilt.p x.tilt.q x.tolerance = l
  rw [Work.levelWatch_lost (z := x.setLvl (x.figures x.lvl.liftSet x.lvl.levelRun x.lvl.drift)) hh hn hd]
  have hquiet (u : Work) (h1 : u.lvl.phase = x.lvl.phase) (h2 : u.lvl.settleTest = x.lvl.settleTest) :
      u.sampleJudged false l = u := (if_neg Bool.false_ne_true).trans (if_neg (by rw [h1, h2]; exact hj))
  rw [hquiet]
  · exact ⟨rfl, rfl, rfl⟩
  · rfl
  · rfl

/-! ## Zero runs -/

section run

variable {z : Work} {r : ZeroRun}

theorem Work.zeroSample_on (h : z.tilt.zeroRun = some r) (hc : r.count + 1 < 25) : z.zeroSample = { z with tilt :=
    { z.tilt with zeroRun := some { count := r.count + 1, sumX := r.sumX + z.tilt.tx, sumY := r.sumY + z.tilt.ty } } } := by
  simp only [Work.zeroSample, h, if_pos hc]

theorem Work.zeroSample_end (h : z.tilt.zeroRun = some r) (hc : r.count = 24) : z.zeroSample =
    let a := (r.sumX + z.tilt.tx).tdiv 25
    let b := (r.sumY + z.tilt.ty).tdiv 25
    if 600 < a.natAbs ∨ 600 < b.natAbs then (z.withRun none).emit (.learnTilt .outOfTolerance (some a) (some b))
    else (Work.askLearned { z.withRun none with store :=
      { z.store with learned := { z.store.learned with zero := some (a, b) } } }).emit
        (.learnTilt .learned (some a) (some b)) := by
  have hc' : ¬ r.count + 1 < 25 := by omega
  simp only [Work.zeroSample, h, if_neg hc']
  rfl

end run

theorem Work.sampled_withRun (y : Work) (r : Option ZeroRun) (sx sy : Nat) :
    (y.withRun r).sampled sx sy = (y.sampled sx sy).withRun r := rfl

/-- A zero run sees each sample beside what else it does (R92). -/
theorem Work.filteredSample_run {y : Work} {r : ZeroRun} {sx sy : Nat} (hx : railSum sx = false) (hy : railSum sy = false)
    (hf : y.tilt.fault = false) (hr : y.tilt.zeroRun = some r) :
    y.filteredSample sx sy = (((y.withRun none).filteredSample sx sy).withRun (some r)).zeroSample := by
  have hself : y.sampled sx sy = ((y.withRun none).sampled sx sy).withRun (some r) := by
    rw [← Work.sampled_withRun]
    refine congrArg (fun u : Work => u.sampled sx sy) ?_
    rw [← hr]
    rfl
  rw [Work.filteredSample_of_good hx hy (.inl hf), Work.filteredSample_plain hx hy (z := y.withRun none) (.inl hf) rfl, hself]
  exact congrArg Work.zeroSample (tiltSample_blind _ _)

end Sys2Proof.Machine
end

