-- ==== Sys2Proof/Proofs/FilteredSamples.lean ====
section
/-! PROOF. The statement about filtered samples (R86..R89, R92, R94..R99, R108, R109, R111, R112, R118). -/

namespace Sys2Proof.Machine

set_option Elab.async false

open Sys2Proof.Safety

/-- Settles O40: each sample through the block, the filter and the Levelling Engine. -/
theorem tiltSamplesAreFiltered : Obligations.TiltSamplesAreFiltered := by
  unfold Obligations.TiltSamplesAreFiltered
  intro s sx sy ha hact w now' o tx ty p q good level near
  have hgood : ∀ v : BitVec 15, good v → railSum v.toNat = false := fun v h => railSum_eq_false.mpr h
  have hbad : ∀ v : BitVec 15, ¬ good v → railSum v.toNat = true := fun v h => railSum_eq_true.mpr h
  have hlevel : isLevel p q (w.profN 0x0421) = true ↔ level := isLevel_iff _ _ _
  have hnear : isLevel p q (3 * w.profN 0x0421) = true ↔ near := isLevel_iff _ _ _
  refine ⟨?_, ?_, ?_, ?_, ?_, ?_, ?_⟩
  · intro hx hy hf hp hj hw hr
    let x := (w.blocked sx sy).sampled sx.toNat sy.toNat
    have hz := (Work.filteredSample_plain (z := w.blocked sx sy) (hgood _ hx) (hgood _ hy) (.inl hf) hr).trans
      (Work.tiltSample_quiet (x := x) hp (fun h => hj h.2) fun hh => (hw hh).imp_left hnear.mpr)
    refine ⟨_, exec_filteredSample ha hact hz, rfl, rfl, rfl, rfl, rfl, rfl, rfl, rfl, rfl, rfl, rfl, rfl, rfl, rfl, fun hl => ?_,
      fun hl => ?_, rfl, fun hh => ?_, fun hh hn => ?_, fun hh hn => ?_, fun j hjp hjf => ?_, rfl⟩
    · exact if_pos (hlevel.mpr hl)
    · exact if_neg (mt hlevel.mp hl)
    · exact if_neg (Bool.eq_false_iff.mp hh)
    · exact (if_pos hh).trans (if_pos (hnear.mpr hn))
    · exact (if_pos hh).trans (if_neg (mt hnear.mp hn))
    · exact heights_of (x := x) hjp hjf
  · intro hx hy _ hp hr
    let x := (w.lastGood.blocked sx sy).sampled sx.toNat sy.toNat
    have hz := Work.filteredSample_plain (z := w.lastGood.blocked sx sy) (hgood _ hx) (hgood _ hy)
      (.inr (Nat.le_max_left 24 w.tilt.good)) hr
    have ht : x.tiltSample.tilt = x.tilt := Work.tiltSample_tilt x
    refine ⟨_, exec_tiltFaultClear ha hact hz, by rw [ht]; rfl, ?_, by rw [ht]; rfl, by rw [ht]; rfl⟩
    have h25 : x.tilt.good = min 25 (max 24 w.tilt.good + 1) := rfl
    rw [ht, h25]
    omega
  · intro hbads holds axis
    have hrail : (railSum sx.toNat || railSum sy.toNat) = true := Bool.or_eq_true_iff.mpr (hbads.imp (hbad _) (hbad _))
    refine ⟨fun hf hx hy => ?_, fun hf => ?_, fun hx hy => ?_, fun hf => ?_⟩
    · have hz := Work.filteredSample_rail_quiet (z := w.blocked sx sy) hrail
        (.inr ⟨fun h => hx (railSum_eq_true.mp h), fun h => hy (railSum_eq_true.mp h)⟩)
      exact ⟨_, exec_filteredSample ha hact hz, ⟨rfl, rfl, rfl, rfl, rfl, rfl, rfl⟩, hf,
        ⟨fun h => railNext_of_good (hgood _ h), fun h => railNext_of_rail (hbad _ h)⟩,
        ⟨fun h => railNext_of_good (hgood _ h), fun h => railNext_of_rail (hbad _ h)⟩, rfl, rfl, rfl, rfl⟩
    · have hz := Work.filteredSample_rail_quiet (z := w.blocked sx sy) hrail (.inl hf)
      exact ⟨_, exec_filteredSample ha hact hz, ⟨rfl, rfl, rfl, rfl, rfl, rfl, rfl⟩, hf, rfl, rfl, rfl, rfl⟩
    · have hself : w.thirdRail sx sy = w :=
        Work.thirdRail_eq_self (fun h => hx (railSum_eq_true.mp h)) fun h => hy (railSum_eq_true.mp h)
      rw [exec_filteredSample ha hact rfl]
      exact (exec_tiltFaultSet ha hact (congrArg (fun u : Work => (u.blocked sx sy).filteredSample sx.toNat sy.toNat) hself)).symm
    · let y := ((w.thirdRail sx sy).blocked sx sy).railed sx.toNat sy.toNat
      obtain ⟨ht, hn, -⟩ := y.setTiltFault_parts
      refine ⟨y.setTiltFault, exec_tiltFaultSet ha hact (Work.filteredSample_third hrail hf), ⟨hn, ?_⟩, by rw [ht], by rw [ht],
        fun h => ?_, fun h => ?_, fun h => ?_, fun h => ?_, Work.setTiltFault_levelRun y,
        fun hp => Work.setTiltFault_idle (y := y) hp, fun a hact hp => Work.setTiltFault_working (y := y) hact hp⟩
      · rw [ht]; exact ⟨rfl, rfl, rfl, rfl, rfl, rfl⟩
      · rw [ht]; exact thirdRail_run.1 (hgood _ h)
      · rw [ht]; exact thirdRail_run.2 (hbad _ h)
      · rw [ht]; exact thirdRail_run.1 (hgood _ h)
      · rw [ht]; exact thirdRail_run.2 (hbad _ h)
  · intro r hx hy hf hr a b plain i hi
    let x := ((w.withRun none).blocked sx sy).sampled sx.toNat sy.toNat
    have hz := Work.filteredSample_plain (z := (w.withRun none).blocked sx sy) (hgood _ hx) (hgood _ hy) (.inl hf) rfl
    have htilt : x.tiltSample.tilt = x.tilt := Work.tiltSample_tilt x
    have hrun := (Work.filteredSample_run (y := w.blocked sx sy) (hgood _ hx) (hgood _ hy) hf hr).trans
      (congrArg (fun u : Work => (u.withRun (some r)).zeroSample) hz)
    have hexec : ∀ u, (x.tiltSample.withRun (some r)).zeroSample = u → exec i s = .next (finish s u none) := fun u hu => by
      rcases hi with rfl | rfl
      · exact exec_filteredSample ha hact (hrun.trans hu)
      · exact exec_zeroLearnComplete ha hact (hrun.trans hu)
    have htx : (x.tiltSample.withRun (some r)).tilt.tx = tx := congrArg Tilt.tx htilt
    have hty : (x.tiltSample.withRun (some r)).tilt.ty = ty := congrArg Tilt.ty htilt
    have hnone : x.tiltSample.tilt.zeroRun = none := congrArg Tilt.zeroRun htilt
    have hdrop : (x.tiltSample.withRun (some r)).withRun none = x.tiltSample := by
      generalize x.tiltSample = z at hnone
      rw [← hnone]
      rfl
    have hend := Work.zeroSample_end (z := x.tiltSample.withRun (some r)) (r := r) rfl
    refine ⟨x.tiltSample, exec_filteredSample (s := plain) ha hact hz, hnone, fun hc => hexec _ ?_, fun hc hab => hexec _ ?_,
      fun hc hab => hexec _ ?_⟩
    · rw [Work.zeroSample_on (z := x.tiltSample.withRun (some r)) rfl hc, htx, hty]
      rfl
    · have hno : ¬ (600 < a.natAbs ∨ 600 < b.natAbs) := by omega
      refine (hend hc).trans ?_
      rw [htx, hty, hdrop]
      exact if_neg hno
    · have hyes : 600 < a.natAbs ∨ 600 < b.natAbs := by omega
      refine (hend hc).trans ?_
      rw [htx, hty, hdrop]
      exact if_pos hyes
  · intro hx hy hf hp hh hr hfar
    let x := ((w.setLvl { w.lvl with drift := max 49 w.lvl.drift }).blocked sx sy).sampled sx.toNat sy.toNat
    have hz := Work.filteredSample_plain (z := (w.setLvl { w.lvl with drift := max 49 w.lvl.drift }).blocked sx sy)
      (hgood _ hx) (hgood _ hy) (.inl hf) hr
    have hidle : x.lvl.phase = .idle := hp
    have hlost := Work.tiltSample_lost (x := x) (by rw [hidle]; nofun) (fun h => nomatch hidle.symm.trans h.1) hh
      (isLevel_eq_false hfar) (Nat.le_max_left 49 w.lvl.drift)
    exact ⟨x.tiltSample, exec_levelLost ha hact hh hz, hlost⟩
  · intro hh hd
    have hmax : max 49 w.lvl.drift = w.lvl.drift := Nat.max_eq_right hd
    have hself : w.setLvl { w.lvl with drift := max 49 w.lvl.drift } = w := by rw [hmax]; rfl
    rw [exec_filteredSample ha hact rfl]
    exact (exec_levelLost ha hact hh (congrArg (fun u : Work => (u.blocked sx sy).filteredSample sx.toNat sy.toNat) hself)).symm
  · intro a run hav hx hy hf hh hr hr1 hr0 heights demands twist twisted sampled gives
    let x := (w.blocked sx sy).sampled sx.toNat sy.toNat
    have hz := Work.filteredSample_plain (z := w.blocked sx sy) (hgood _ hx) (hgood _ hy) (.inl hf) hr
    have hrun : (if isLevel p q (w.profN 0x0421) then min 255 (w.lvl.levelRun + 1) else 0) = run := levelRun_eq hr1 hr0
    have hgives : ∀ u, x.tiltSample = u → gives u := fun u hu => exec_filteredSample ha hact (hz.trans hu)
    refine ⟨fun hp lift hlift => ?_, fun hp hj hk => ?_⟩
    · have htilt := Work.tiltSample_levelling (x := x) hav hp hh (lift := lift) (run := run) (Work.nextLift_eq hlift) hrun
      have hjudge : ∀ u, (x.lifted a lift run).judgeLevelling = u → gives u := fun u hu => hgives u (htilt.trans hu)
      refine ⟨x.lifted a lift run, ⟨rfl, rfl, rfl, rfl, rfl, rfl, rfl, rfl, rfl, rfl, rfl⟩, fun ht => hjudge _ ?_,
        fun ht h5 => hjudge _ ?_, fun ht h5 he => hjudge _ ?_, fun ht h5 he => hjudge _ ?_⟩
      · exact Work.judgeLevelling_twist ht
      · exact Work.judgeLevelling_level ht h5
      · exact Work.judgeLevelling_done ht h5 he
      · exact Work.judgeLevelling_on ht h5 he
    · have htilt := Work.tiltSample_judging (x := x) hp hj hh (run := run) hrun
      let z := x.setLvl (x.figures x.lvl.liftSet run x.lvl.drift)
      have hyes : level → ∀ u, z.judgeSettling true = u → gives u := fun hl u hu =>
        hgives u (htilt.trans ((congrArg z.judgeSettling (hlevel.mpr hl)).trans hu))
      have hno : ¬ level → ∀ u, z.judgeSettling false = u → gives u := fun hl u hu =>
        hgives u (htilt.trans ((congrArg z.judgeSettling (Bool.eq_false_iff.mpr (mt hlevel.mp hl))).trans hu))
      have hpass : ¬ level → w.lvl.pass < w.profN 0x0427 → ∀ u, z.furtherPass = u → gives u := fun hl hp u hu =>
        hno hl u ((if_pos hp).trans hu)
      refine ⟨z, ⟨rfl, rfl, rfl, rfl, rfl, rfl, rfl, rfl, rfl, rfl, rfl⟩, fun hl h5 => hyes hl _ (if_pos h5),
        fun hl h5 => hyes hl _ (if_neg (Nat.not_le_of_lt h5)), fun hl hp => hno hl _ (if_neg (Nat.not_lt_of_le hp)), ?_⟩
      intro hl hp draw pass b y
      refine ⟨fun hfit hoff => hpass hl hp _ ?_, fun hfit hdw => hpass hl hp _ ?_, fun hfit hroom => hpass hl hp _ ?_,
        fun hfit hroom => hpass hl hp _ ?_⟩
      · exact Work.furtherPass_off (z := z) hav hk hfit hoff
      · exact Work.furtherPass_dwell (z := z) hav hfit hdw
      · exact Work.furtherPass_room (z := z) hav hfit hroom
      · exact Work.furtherPass_full (z := z) hav hfit hroom

end Sys2Proof.Machine
end

