-- ==== Sys2Proof/Proofs/FenceMarks.lean ====
section
/-! PROOF. The role and the fence of a channel, which no motion, stop or learning run touches: one lemma an operation, in the
order of the model. -/

namespace Sys2Proof.Machine

set_option Elab.async false

/-- The role and the fence of each channel. -/
def Work.marks (w : Work) : ChanId → Role × Bool := fun c => ((w.ch c).role, (w.ch c).fenced)

theorem marks_of_chans {w z : Work} (h : z.chans = w.chans) : z.marks = w.marks :=
  congrArg (fun v : Vector Machine.Channel 8 => fun c : ChanId => (v[c].role, v[c].fenced)) h

theorem foldl_marks {α : Type} (l : List α) {f : Work → α → Work} (h : ∀ w x, (f w x).marks = w.marks) (w : Work) :
    (l.foldl f w).marks = w.marks := by
  induction l generalizing w with
  | nil => rfl
  | cons a l ih => rw [List.foldl_cons, ih, h]

/-- A record with the role and the fence of the one before it. -/
theorem Work.setCh_marks {w : Work} {c : ChanId} {x : Machine.Channel} (hr : x.role = (w.ch c).role)
    (hf : x.fenced = (w.ch c).fenced) : (w.setCh c x).marks = w.marks := by
  funext d
  by_cases h : d = c
  · subst h
    simp only [Work.marks, Work.ch_setCh_self, hr, hf]
  · simp only [Work.marks, Work.ch_setCh_ne w c d x h]

@[simp] theorem Work.setMv_marks (w : Work) (m : MoverId) (x : Mover) : (w.setMv m x).marks = w.marks := rfl
@[simp] theorem Work.emit_marks (w : Work) (e : Event) : (w.emit e).marks = w.marks := rfl
@[simp] theorem Work.setLvl_marks (w : Work) (l : Level) : (w.setLvl l).marks = w.marks := rfl
@[simp] theorem Work.release_marks (w : Work) (t : Fin 6) : (w.release t).marks = w.marks := rfl
@[simp] theorem Work.dequeue_marks (w : Work) (t : Fin 6) : (w.dequeue t).marks = w.marks := rfl
@[simp] theorem Work.setLearned_marks (w : Work) (c : ChanId) (s : Option Nat) : (w.setLearned c s).marks = w.marks := rfl

@[simp] theorem Work.serveNext_marks (w : Work) : w.serveNext.marks = w.marks := by
  simp only [Work.serveNext]; split <;> rfl

@[simp] theorem Work.askCheckpoint_marks (w : Work) (c : ChanId) (b : Bool) : (w.askCheckpoint c b).marks = w.marks := by
  simp only [Work.askCheckpoint, Work.serveNext_marks]; rfl

@[simp] theorem Work.askLearned_marks (w : Work) : w.askLearned.marks = w.marks := by
  simp only [Work.askLearned]
  split
  · rfl
  · rw [Work.serveNext_marks]; rfl

/-! ## Motions -/

@[simp] theorem Work.handOver_marks (w : Work) (m : MoverId) (s : Source) (d : Dir) (p : MotionProfile) :
    (w.handOver m s d p).marks = w.marks := by
  simp only [Work.handOver]
  rw [foldl_marks _ fun w c => ?_]
  · rfl
  · rw [Work.askCheckpoint_marks]; exact Work.setCh_marks rfl rfl

@[simp] theorem Work.setQueued_marks (w : Work) (m : MoverId) (q : Bool) : (w.setQueued m q).marks = w.marks := by
  simp only [Work.setQueued]
  refine foldl_marks _ (fun w c => ?_) w
  split <;> split
  · exact Work.setCh_marks rfl rfl
  · rfl
  · exact Work.setCh_marks rfl rfl
  · rfl

@[simp] theorem Work.forgetPosition_marks (w : Work) (m : MoverId) : (w.forgetPosition m).marks = w.marks := by
  exact foldl_marks (f := fun w c => w.setCh c { w.ch c with known := false, seat := .between }) _
    (fun w c => Work.setCh_marks (w := w) (c := c) rfl rfl) w

@[simp] theorem Work.clampMover_marks (w : Work) (m : MoverId) : (w.clampMover m).marks = w.marks := by
  exact foldl_marks (f := Work.clampPos) _ (fun w c => Work.setCh_marks (w := w) (c := c) rfl rfl) w

@[simp] theorem Work.beginLearn_marks (w : Work) (m : MoverId) (l : LearnRun) : (w.beginLearn m l).marks = w.marks := by
  simp only [Work.beginLearn]; split <;> simp

@[simp] theorem Work.admitMover_marks (w : Work) (m : MoverId) : (w.admitMover m).marks = w.marks := by
  simp only [Work.admitMover]
  split
  · rfl
  · split <;> simp

@[simp] theorem Work.dropRetract_marks (w : Work) (c : Cause) : (w.dropRetract c).marks = w.marks := by
  simp only [Work.dropRetract]; split <;> simp

@[simp] theorem Work.presentRetract_marks (w : Work) (p : Purpose) : (w.presentRetract p).marks = w.marks := by
  simp only [Work.presentRetract]
  repeat' split
  all_goals simp only [Work.dropRetract_marks, Work.setQueued_marks, Work.admitMover_marks, Work.queueHead, Work.setMv_marks]
  all_goals rfl

@[simp] theorem Work.endClaim_marks (w : Work) (m : MoverId) : (w.endClaim m).marks = w.marks := by
  simp only [Work.endClaim]
  split
  · rfl
  · split <;> rfl

@[simp] theorem Work.abortLearn_marks (w : Work) (m : MoverId) : (w.abortLearn m).marks = w.marks := by
  simp only [Work.abortLearn]; split <;> simp

@[simp] theorem Work.noteCause_marks (w : Work) (m : MoverId) (c : Cause) : (w.noteCause m c).marks = w.marks := by
  simp only [Work.noteCause]
  split
  · rfl
  · split <;> rfl

@[simp] theorem Work.afterMotion_marks (w : Work) (m : MoverId) (r : Run) : (w.afterMotion m r).marks = w.marks := by
  simp only [Work.afterMotion]; repeat' split
  all_goals simp

@[simp] theorem Work.closeMotion_marks (w : Work) (m : MoverId) (r : Run) (c : Cause) :
    (w.closeMotion m r c).marks = w.marks := by
  simp [Work.closeMotion]

@[simp] theorem Work.finishLearn_marks (w : Work) (m : MoverId) (l : LearnRun) : (w.finishLearn m l).marks = w.marks := by
  simp only [Work.finishLearn]
  rw [apply_ite Work.marks]
  simp only [Work.emit_marks, Work.askLearned_marks, Work.clampMover_marks]
  rw [foldl_marks _ fun w c => by split <;> simp]
  exact ite_self _

@[simp] theorem Work.outwardLeg_marks (w : Work) (m : MoverId) (l : LearnRun) : (w.outwardLeg m l).marks = w.marks := by
  simp [Work.outwardLeg]

@[simp] theorem Work.moverEnd_marks (w : Work) (m : MoverId) : (w.moverEnd m).marks = w.marks := by
  simp only [Work.moverEnd]; repeat' split
  all_goals simp

@[simp] theorem Work.recordEnd_marks (w : Work) (c : ChanId) (x : Option Int) : (w.recordEnd c x).marks = w.marks := by
  simp only [Work.recordEnd]; repeat' split
  all_goals simp

@[simp] theorem Work.endIfAtRest_marks (w : Work) (m : MoverId) : (w.endIfAtRest m).marks = w.marks := by
  simp only [Work.endIfAtRest]; split <;> simp

/-! ## Stops -/

theorem Channel.endStarting_marks (x : Machine.Channel) (c : Cause) :
    (x.endStarting c).role = x.role ∧ (x.endStarting c).fenced = x.fenced := by
  simp only [Channel.endStarting]; split <;> exact ⟨rfl, rfl⟩

theorem Channel.stopWith_marks (x : Machine.Channel) (c : Cause) (b : Bool) (t : Time) :
    (x.stopWith c b t).role = x.role ∧ (x.stopWith c b t).fenced = x.fenced := by
  simp only [Channel.stopWith]
  split
  · exact ⟨rfl, rfl⟩
  · split <;> exact ⟨rfl, rfl⟩

@[simp] theorem Work.stopChan_marks (w : Work) (c : Cause) (d : ChanId) : (w.stopChan c d).marks = w.marks := by
  simp only [Work.stopChan]
  split
  · rw [Work.askCheckpoint_marks, Work.recordEnd_marks]
    obtain ⟨hr, hf⟩ := Channel.endStarting_marks (w.ch d) c
    exact Work.setCh_marks hr hf
  · obtain ⟨hr, hf⟩ := Channel.stopWith_marks (w.ch d) c false w.now
    exact Work.setCh_marks hr hf

@[simp] theorem Work.stopMover_marks (w : Work) (m : MoverId) (c : Cause) : (w.stopMover m c).marks = w.marks := by
  have hl : (if (w.mv m).learn.isSome then (w.abortLearn m).endClaim m else w).marks = w.marks := by split <;> simp
  simp only [Work.stopMover]
  generalize (if (w.mv m).learn.isSome then (w.abortLearn m).endClaim m else w) = z at hl ⊢
  split
  · rw [Work.endIfAtRest_marks, foldl_marks _ fun w d => Work.stopChan_marks w c d, Work.noteCause_marks,
      Work.endClaim_marks, hl]
  · exact hl

@[simp] theorem Work.removeQueued_marks (w : Work) (m : MoverId) (c : Cause) : (w.removeQueued m c).marks = w.marks := by
  simp only [Work.removeQueued]; split <;> simp

@[simp] theorem Work.haltMover_marks (w : Work) (m : MoverId) (c : Cause) : (w.haltMover m c).marks = w.marks := by
  simp only [Work.haltMover]; split <;> simp

/-! ## The hydraulic work -/

@[simp] theorem Work.pumpStop_chans (w : Work) (b : Bool) : (w.pumpStop b).chans = w.chans := (w.pumpStop_parts b).2.1

@[simp] theorem Work.endActivity_chans (w : Work) (o : EndOutcome) (b : Bool) : (w.endActivity o b).chans = w.chans := by
  cases ha : w.hyd.activity with
  | none => simp only [Work.endActivity, ha]
  | some a =>
    have h : (w.pumpStop b).unqueued.chans = w.chans := by
      simp only [Work.unqueued]
      split <;> exact w.pumpStop_chans b
    rw [Work.endActivity_eq ha]
    cases a.kind <;> exact h

@[simp] theorem Work.endLevel_chans (w : Work) (o : EndOutcome) (b : Bool) : (w.endLevel o b).chans = w.chans := by
  simp only [Work.endLevel]
  split
  · rfl
  · exact w.endActivity_chans o b

@[simp] theorem Work.dropJack_chans (w : Work) (j : JackId) : (w.dropJack j).chans = w.chans := by
  simp only [Work.dropJack]; split <;> rfl

@[simp] theorem Work.enterSettling_chans (w : Work) : w.enterSettling.chans = w.chans := (enterSettling_parts w).2.1

@[simp] theorem Work.enterStabilize_chans (w : Work) (f : Option PendFlag) : (w.enterStabilize f).chans = w.chans := by
  simp only [Work.enterStabilize]
  split
  · exact (Work.enterSettling_chans _).trans rfl
  · rfl

@[simp] theorem Work.leaveLift_chans (w : Work) (j : JackId) : (w.leaveLift j).chans = w.chans := by
  simp only [Work.leaveLift]
  split
  · split
    · exact (Work.enterStabilize_chans _ _).trans rfl
    · rfl
  · rfl

@[simp] theorem Work.checkGrounded_chans (w : Work) : w.checkGrounded.chans = w.chans := by
  simp only [Work.checkGrounded]
  split
  · split
    · exact w.enterSettling_chans
    · rfl
    · exact w.enterSettling_chans
    · rfl
  · rfl

@[simp] theorem Work.followGround_chans (w : Work) : w.followGround.chans = w.chans := by
  simp only [Work.followGround]
  split
  · exact (Work.checkGrounded_chans _).trans rfl
  · rfl

@[simp] theorem Work.checkWork_chans (w : Work) : w.checkWork.chans = w.chans := by
  simp only [Work.checkWork]
  repeat' split
  all_goals first | rfl | exact Work.endActivity_chans _ _ _

/-! ## Fences -/

/-- The record of a jack with its fence. -/
def fencedJack (x : Jack) : Jack := { x with fenced := true, outOfRange := 0 }

@[simp] theorem Work.dropJack_jacks (w : Work) (j : JackId) : (w.dropJack j).jacks = w.jacks := by
  simp only [Work.dropJack]; split <;> rfl

@[simp] theorem Work.leaveLift_jacks (w : Work) (j : JackId) : (w.leaveLift j).jacks = w.jacks := by
  simp only [Work.leaveLift]
  split
  · split
    · exact (Work.enterStabilize_jacks _ _).trans rfl
    · rfl
  · rfl

/-- The hydraulic work follows the fence of a jack, a member of its set or not (R82, R117). -/
def Work.fenceFollowed (w : Work) (j : JackId) (member : Bool) : Work :=
  if w.lvl.phase ≠ .idle then
    if member then
      if w.actJacks.size < 3 then w.endLevel .cancelled false
      else (w.leaveLift j).followGround
    else w.leaveLift j
  else if member then w.checkWork else w

theorem Work.fenceJack_eq (w : Work) (j : JackId) :
    w.fenceJack j = ((w.setJk j (fencedJack (w.jk j))).dropJack j).fenceFollowed j (w.actJacks.has j) := rfl

theorem Work.fenceFollowed_parts (w : Work) (j : JackId) (b : Bool) :
    (w.fenceFollowed j b).chans = w.chans ∧ (w.fenceFollowed j b).jacks = w.jacks := by
  simp only [Work.fenceFollowed]
  split
  · split
    · split <;> simp
    · simp
  · split <;> simp

theorem Work.fenceJack_jacks (w : Work) (j : JackId) : (w.fenceJack j).jacks = (w.setJk j (fencedJack (w.jk j))).jacks := by
  rw [Work.fenceJack_eq]
  exact (Work.fenceFollowed_parts _ j _).2.trans (Work.dropJack_jacks _ j)

theorem Work.fenceJack_chans (w : Work) (j : JackId) : (w.fenceJack j).chans = w.chans := by
  rw [Work.fenceJack_eq]
  exact (Work.fenceFollowed_parts _ j _).1.trans (Work.dropJack_chans _ j)

/-- The record of a channel with its fence, the runs cleared (R25). -/
def fencedCh (x : Machine.Channel) : Machine.Channel :=
  { x with fenced := true, ocRun := 0, osRun := 0, prevCount := none, lastJudge := none }

/-- What the fence of a channel brings to its mover (R25, R130). -/
def Work.fenceTold (w : Work) (m : MoverId) : Work :=
  Work.haltMover (if m = awn then w.dropRetract .fenced else w) m .fenced

theorem Work.fenceChan_eq (w : Work) (c : ChanId) : w.fenceChan c =
    match w.moverOf c with
    | none => w.setCh c (fencedCh (w.ch c))
    | some m => (w.setCh c (fencedCh (w.ch c))).fenceTold m := by
  rfl

theorem Work.fenceTold_parts (w : Work) (m : MoverId) :
    (w.fenceTold m).marks = w.marks ∧ (w.fenceTold m).jacks = w.jacks ∧ (w.fenceTold m).still = w.still := by
  simp only [Work.fenceTold]
  split <;> simp

theorem Work.fenceChan_parts (w : Work) (c : ChanId) :
    (w.fenceChan c).marks = (w.setCh c (fencedCh (w.ch c))).marks ∧ (w.fenceChan c).jacks = w.jacks ∧
      (w.fenceChan c).still = w.still := by
  rw [Work.fenceChan_eq]
  split
  · exact ⟨rfl, rfl, rfl⟩
  · next m _ => exact (w.setCh c (fencedCh (w.ch c))).fenceTold_parts m

theorem Work.setCh_fenced_marks (w : Work) (c d : ChanId) :
    (w.setCh c (fencedCh (w.ch c))).marks d = ((w.marks d).1, d == c || (w.marks d).2) := by
  by_cases h : d = c
  · subst h
    simp only [Work.marks, Work.ch_setCh_self, beq_self_eq_true, Bool.true_or]
    rfl
  · simp only [Work.marks, Work.ch_setCh_ne w c d _ h, beq_eq_false_iff_ne.mpr h, Bool.false_or]

/-- The mask and the channels in use (R25). -/
def fenceAt (w : Work) (cm : Byte) (c : ChanId) : Bool := cm.getLsbD c.val && (w.ch c).used

theorem fenceAt_marks {w z : Work} (cm : Byte) {c : ChanId} (h : (z.marks c).1 = (w.marks c).1) :
    fenceAt z cm c = fenceAt w cm c := by
  have hr : (z.ch c).role = (w.ch c).role := h
  simp only [fenceAt, Machine.Channel.used, hr]

/-- Fences at channels, one after another (R25). -/
theorem foldl_fenceChan (cm : Byte) (l : List ChanId) (w : Work) :
    let z := l.foldl (fun w c => if cm.getLsbD c.val && (w.ch c).used then w.fenceChan c else w) w
    (∀ d, z.marks d = ((w.marks d).1, (l.contains d && fenceAt w cm d) || (w.marks d).2)) ∧ z.jacks = w.jacks ∧
      z.still = w.still := by
  induction l generalizing w with
  | nil => exact ⟨fun d => rfl, rfl, rfl⟩
  | cons c l ih =>
    rw [List.foldl_cons]
    by_cases hc : fenceAt w cm c = true
    · have hstep : (if cm.getLsbD c.val && (w.ch c).used then w.fenceChan c else w) = w.fenceChan c := if_pos hc
      obtain ⟨hm, hj, hs⟩ := w.fenceChan_parts c
      obtain ⟨ihm, ihj, ihs⟩ := ih (w.fenceChan c)
      rw [hstep]
      refine ⟨fun d => ?_, ihj.trans hj, ihs.trans hs⟩
      have hd : (w.fenceChan c).marks d = ((w.marks d).1, d == c || (w.marks d).2) :=
        (congrFun hm d).trans (w.setCh_fenced_marks c d)
      rw [ihm d, fenceAt_marks (w := w) cm (c := d) (by rw [hd]), hd]
      by_cases hdc : d = c
      · subst hdc
        simp [hc]
      · simp [hdc, beq_eq_false_iff_ne.mpr hdc]
    · have hstep : (if cm.getLsbD c.val && (w.ch c).used then w.fenceChan c else w) = w := if_neg hc
      obtain ⟨ihm, ihj, ihs⟩ := ih w
      rw [hstep]
      refine ⟨fun d => ?_, ihj, ihs⟩
      rw [ihm d]
      by_cases hdc : d = c
      · subst hdc
        simp [Bool.eq_false_iff.mpr hc]
      · simp [hdc]

/-- The mask and the jacks present (R82). -/
def fenceOn (w : Work) (jm : Byte) (j : JackId) : Bool := jm.getLsbD j.val && w.jackPresent j

theorem jackPresent_of_still {w z : Work} (h : z.still = w.still) (j : JackId) : z.jackPresent j = w.jackPresent j :=
  congrArg (fun k : Still => decide (j.val < (k.coach.get 0x0120).toNat)) h

/-- Fences at jacks, one after another (R82). -/
theorem foldl_fenceJack (jm : Byte) (l : List JackId) (w : Work) :
    let z := l.foldl (fun w j => if jm.getLsbD j.val && w.jackPresent j then w.fenceJack j else w) w
    (∀ i, (z.jk i).fenced = ((l.contains i && fenceOn w jm i) || (w.jk i).fenced)) ∧ z.chans = w.chans ∧
      z.still = w.still := by
  induction l generalizing w with
  | nil => exact ⟨fun d => rfl, rfl, rfl⟩
  | cons j l ih =>
    rw [List.foldl_cons]
    by_cases hc : fenceOn w jm j = true
    · have hstep : (if jm.getLsbD j.val && w.jackPresent j then w.fenceJack j else w) = w.fenceJack j := if_pos hc
      obtain ⟨ihm, ihc, ihs⟩ := ih (w.fenceJack j)
      rw [hstep]
      refine ⟨fun i => ?_, ihc.trans (w.fenceJack_chans j), ihs.trans (w.fenceJack_still j)⟩
      have hjk : (w.fenceJack j).jk i = (w.setJk j (fencedJack (w.jk j))).jk i :=
        congrArg (fun v : Vector Jack 6 => v[i]) (w.fenceJack_jacks j)
      have hon : fenceOn (w.fenceJack j) jm i = fenceOn w jm i := by
        rw [fenceOn, fenceOn, jackPresent_of_still (w.fenceJack_still j)]
      rw [ihm i, hon, hjk]
      by_cases hij : i = j
      · subst hij
        rw [Work.jk_setJk_self]
        simp [hc, fencedJack]
      · rw [Work.jk_setJk_ne w j i _ hij]
        simp [hij]
    · have hstep : (if jm.getLsbD j.val && w.jackPresent j then w.fenceJack j else w) = w := if_neg hc
      obtain ⟨ihm, ihc, ihs⟩ := ih w
      rw [hstep]
      refine ⟨fun i => ?_, ihc, ihs⟩
      rw [ihm i]
      by_cases hij : i = j
      · subst hij
        simp [Bool.eq_false_iff.mpr hc]
      · simp [hij]

end Sys2Proof.Machine
end

