-- ==== Sys2Proof/Proofs/FaultsFences.lean ====
section
/-! PROOF. FAULT_CLEAR, FENCE_SET and FENCE_CLEAR (R25, R26, R82, R83, R117, R130, R138, R139). -/

namespace Sys2Proof.Machine

set_option Elab.async false

open Sys2Proof.Safety

/-! ## FAULT_CLEAR -/

section clear

variable {s : State} (ht : Takes s) {tag t : Byte}
include ht

theorem exec_faultClear_of {z : Work} {r : Reply} (h : s.toActive.work.doFaultClear t = (z, r)) :
    exec (.faultClear tag t) s = .next (answered s 0x18 tag z r) := exec_of_request ht rfl h

theorem exec_fenceSet_of {cm jm : Byte} {z : Work} {r : Reply}
    (h : (if s.toActive.work.mode = .unconfigured then (s.toActive.work, replyBadMode)
      else (s.toActive.work.setFences cm jm, replyChanged (s.toActive.work.fenceClamped cm jm))) = (z, r)) :
    exec (.fenceSet tag cm jm) s = .next (answered s 0x19 tag z r) := exec_of_request ht rfl h

theorem exec_fenceClear_of {cm jm : Byte} {z : Work} {r : Reply}
    (h : (if s.toActive.work.mode = .unconfigured then (s.toActive.work, replyBadMode)
      else (s.toActive.work.clearFences cm jm, replyChanged (s.toActive.work.fenceClamped cm jm))) = (z, r)) :
    exec (.fenceClear tag cm jm) s = .next (answered s 0x1A tag z r) := exec_of_request ht rfl h

end clear

theorem decodeClear_chan (c : ChanId) : decodeClear (BitVec.ofNat 8 c.val) = some (.chan c) := by revert c; decide

theorem decodeClear_jack (j : JackId) : decodeClear (BitVec.ofNat 8 (16 + j.val)) = some (.jack j) := by revert j; decide

section clears

variable {w : Work} (hm : w.mode ≠ .unconfigured)
include hm

theorem Work.doFaultClear_chan (c : ChanId) : w.doFaultClear (BitVec.ofNat 8 c.val) =
    if (w.ch c).used then (w.clearChan c, replyDone) else (w, replyBadArgument) := by
  simp only [Work.doFaultClear, if_neg hm, decodeClear_chan]

theorem Work.doFaultClear_jack (j : JackId) : w.doFaultClear (BitVec.ofNat 8 (16 + j.val)) =
    if w.jackPresent j then (w.clearJack j, replyDone) else (w, replyBadArgument) := by
  simp only [Work.doFaultClear, if_neg hm, decodeClear_jack]

theorem Work.doFaultClear_supply : w.doFaultClear 0x20 = w.clearSupply := by
  have h : decodeClear 0x20 = some .supply := by decide
  simp only [Work.doFaultClear, if_neg hm, h]

end clears

theorem Work.clearChan_of_faulted {w : Work} {c : ChanId} {m : MoverId} (hf : (w.ch c).state = .faulted)
    (hm : w.moverOf c = some m) (hs : (w.mv m).sync ≠ .racked) : w.clearChan c =
      w.setCh c { w.ch c with state := .idle, fault := none, lastLock := none, bridge := .brake } := by
  have hm' : (w.setCh c { w.ch c with state := .idle, fault := none, lastLock := none, bridge := .brake }).moverOf c =
    some m := hm
  simp only [Work.clearChan, if_pos hf, hm']
  exact if_neg fun h => hs h.1

/-- Both flags within their hysteresis, or not set, are cleared (R138, R139). -/
theorem Work.clearSupply_done {w : Work} (hl : w.sup.low = true → w.lowRestart ≤ w.sup.voltage)
    (hh : w.sup.high = true → w.sup.voltage ≤ w.highRestart) :
    w.clearSupply = ((w.setLow false).setHigh false, replyDone) := by
  have h1 : (!w.sup.low || decide (w.lowRestart ≤ w.sup.voltage)) = true := by
    cases h : w.sup.low
    · rfl
    · simp [hl h]
  have h2 : (!w.sup.high || decide (w.sup.voltage ≤ w.highRestart)) = true := by
    cases h : w.sup.high
    · rfl
    · simp [hh h]
  simp only [Work.clearSupply, h1, h2, Bool.and_self, if_true]

theorem Work.clearSupply_kept {w : Work} (h : (w.sup.low = true ∧ w.sup.voltage < w.lowRestart) ∨
    (w.sup.high = true ∧ w.highRestart < w.sup.voltage)) : w.clearSupply = (w, replyNotReady .supply) := by
  refine if_neg fun hc => ?_
  obtain ⟨h1, h2⟩ := Bool.and_eq_true_iff.mp hc
  rcases h with ⟨hf, hv⟩ | ⟨hf, hv⟩
  · rw [hf, Bool.not_true, Bool.false_or, decide_eq_true_eq] at h1
    omega
  · rw [hf, Bool.not_true, Bool.false_or, decide_eq_true_eq] at h2
    omega

theorem Work.setLow_set {w : Work} (h : w.sup.low = true) : w.setLow false =
    ({ w with sup := { w.sup with low := false } } : Work).emit (.supply false w.sup.high w.sup.voltage w.latchPolicy) :=
  if_neg fun e => Bool.false_ne_true (e.symm.trans h)

theorem Work.setHigh_set {w : Work} (h : w.sup.high = true) : w.setHigh false =
    ({ w with sup := { w.sup with high := false } } : Work).emit (.supply w.sup.low false w.sup.voltage w.latchPolicy) :=
  if_neg fun e => Bool.false_ne_true (e.symm.trans h)

theorem Work.setLow_clear {w : Work} (h : w.sup.low = false) : w.setLow false = w := if_pos h

theorem Work.setHigh_clear {w : Work} (h : w.sup.high = false) : w.setHigh false = w := if_pos h

/-! ## One fence -/

theorem foldl_unchanged {α β : Type} {f : β → α → β} (l : List α) (h : ∀ w, ∀ x ∈ l, f w x = w) (w : β) :
    l.foldl f w = w := by
  induction l with
  | nil => rfl
  | cons x l ih =>
    rw [List.foldl_cons, h w x (List.mem_cons_self ..)]
    exact ih fun v y hy => h v y (List.mem_cons_of_mem x hy)

theorem foldl_single {α β : Type} {f : β → α → β} {a : α} (l : List α) (hn : l.Nodup) (ha : a ∈ l)
    (h : ∀ w x, x ≠ a → f w x = w) (w : β) : l.foldl f w = f w a := by
  induction l generalizing w with
  | nil => cases ha
  | cons x l ih =>
    obtain ⟨hx, hl⟩ := List.nodup_cons.mp hn
    rw [List.foldl_cons]
    by_cases hxa : x = a
    · subst hxa
      exact foldl_unchanged l (fun v y hy => h v y fun e => hx (e ▸ hy)) _
    · rw [h w x hxa, ih hl ((List.mem_cons.mp ha).resolve_left fun e => hxa e.symm)]

theorem allChans_contains (c : ChanId) : allChans.contains c = true := by revert c; decide

theorem bit_one_chan (c d : ChanId) : (1 <<< c.val : Byte).getLsbD d.val = (d == c) := by revert c d; decide

theorem bit_one_jack (j i : JackId) : (1 <<< j.val : Byte).getLsbD i.val = (i == j) := by revert j i; decide

theorem bit_one_jack_high (j : JackId) : (1 <<< j.val : Byte).getLsbD 6 = false ∧ (1 <<< j.val : Byte).getLsbD 7 = false := by
  revert j; decide

/-- FENCE_SET of one channel in use (R25). -/
theorem Work.setFences_chan {w : Work} {c : ChanId} {m : MoverId} (hu : (w.ch c).used = true) (hm : w.moverOf c = some m) :
    w.setFences (1 <<< c.val) 0 = (w.setCh c (fencedCh (w.ch c))).fenceTold m := by
  have hchans : allChans.foldl (fun w d => if (1 <<< c.val : Byte).getLsbD d.val && (w.ch d).used then w.fenceChan d else w) w =
      w.fenceChan c := by
    rw [foldl_single (a := c) allChans (by decide) (List.contains_iff_mem.mp (allChans_contains c)) fun v d hd => ?_]
    · rw [bit_one_chan, beq_self_eq_true, hu]; rfl
    · rw [bit_one_chan, beq_eq_false_iff_ne.mpr hd]; rfl
  simp only [Work.setFences, hchans]
  rw [foldl_unchanged allJacks fun v j _ => by simp]
  rw [Work.fenceChan_eq, hm]

theorem Work.fenceClamped_chan {w : Work} {c : ChanId} (hu : (w.ch c).used = true) :
    w.fenceClamped (1 <<< c.val) 0 = false := by
  have hany : (allChans.any fun d => (1 <<< c.val : Byte).getLsbD d.val && !(w.ch d).used) = false := by
    refine List.any_eq_false.mpr fun d _ => ?_
    rw [bit_one_chan]
    by_cases h : d = c
    · rw [h, hu, Bool.not_true, Bool.and_false]; nofun
    · rw [beq_eq_false_iff_ne.mpr h, Bool.false_and]; nofun
  have hnone : (allJacks.any fun j => (0 : Byte).getLsbD j.val && !w.jackPresent j) = false :=
    List.any_eq_false.mpr fun j _ => by simp
  rw [Work.fenceClamped, hany, hnone]
  rfl

/-- FENCE_SET of one jack present (R82). -/
theorem Work.setFences_jack {w : Work} {j : JackId} (hp : w.jackPresent j = true) :
    w.setFences 0 (1 <<< j.val) = w.fenceJack j := by
  have hchans : allChans.foldl (fun w d => if (0 : Byte).getLsbD d.val && (w.ch d).used then w.fenceChan d else w) w = w :=
    foldl_unchanged allChans (fun v d _ => by simp) w
  simp only [Work.setFences, hchans]
  rw [foldl_single (a := j) allJacks (by decide) (mem_allJacks j) fun v i hi => ?_]
  · rw [bit_one_jack, beq_self_eq_true, hp]; rfl
  · rw [bit_one_jack, beq_eq_false_iff_ne.mpr hi]; rfl

theorem Work.fenceClamped_jack {w : Work} {j : JackId} (hp : w.jackPresent j = true) :
    w.fenceClamped 0 (1 <<< j.val) = false := by
  have hany : (allJacks.any fun i => (1 <<< j.val : Byte).getLsbD i.val && !w.jackPresent i) = false := by
    refine List.any_eq_false.mpr fun i _ => ?_
    rw [bit_one_jack]
    by_cases h : i = j
    · rw [h, hp, Bool.not_true, Bool.and_false]; nofun
    · rw [beq_eq_false_iff_ne.mpr h, Bool.false_and]; nofun
  have hnone : (allChans.any fun d => (0 : Byte).getLsbD d.val && !(w.ch d).used) = false :=
    List.any_eq_false.mpr fun d _ => by simp
  obtain ⟨h6, h7⟩ := bit_one_jack_high j
  rw [Work.fenceClamped, hany, hnone, h6, h7]
  rfl

/-! ## FENCE_CLEAR -/

theorem foldl_clearCh (cm : Byte) (l : List ChanId) (w : Work) :
    let z := l.foldl (fun w c => if cm.getLsbD c.val && (w.ch c).used then w.setCh c { w.ch c with fenced := false } else w) w
    (∀ d, z.ch d = if l.contains d && fenceAt w cm d then { w.ch d with fenced := false } else w.ch d) ∧
      z = { w with chans := z.chans } := by
  induction l generalizing w with
  | nil => exact ⟨fun d => rfl, rfl⟩
  | cons c l ih =>
    rw [List.foldl_cons]
    by_cases hc : fenceAt w cm c = true
    · obtain ⟨ihc, ihf⟩ := ih (w.setCh c { w.ch c with fenced := false })
      rw [show (if cm.getLsbD c.val && (w.ch c).used then w.setCh c { w.ch c with fenced := false } else w) =
        w.setCh c { w.ch c with fenced := false } from if_pos hc]
      refine ⟨fun d => ?_, ihf⟩
      have hon : fenceAt (w.setCh c { w.ch c with fenced := false }) cm d = fenceAt w cm d := by
        by_cases hd : d = c
        · subst hd
          rw [fenceAt, fenceAt, Work.ch_setCh_self]; rfl
        · rw [fenceAt, fenceAt, Work.ch_setCh_ne w c d _ hd]
      rw [ihc d, hon]
      by_cases hd : d = c
      · subst hd
        rw [Work.ch_setCh_self]
        simp [hc]
      · rw [Work.ch_setCh_ne w c d _ hd]
        simp [hd]
    · obtain ⟨ihc, ihf⟩ := ih w
      rw [show (if cm.getLsbD c.val && (w.ch c).used then w.setCh c { w.ch c with fenced := false } else w) = w from if_neg hc]
      refine ⟨fun d => ?_, ihf⟩
      rw [ihc d]
      by_cases hd : d = c
      · subst hd
        simp [Bool.eq_false_iff.mpr hc]
      · simp [hd]

theorem foldl_clearJk (jm : Byte) (l : List JackId) (w : Work) :
    let z := l.foldl (fun w j => if jm.getLsbD j.val && w.jackPresent j then w.setJk j { w.jk j with fenced := false } else w) w
    (∀ i, z.jk i = if l.contains i && fenceOn w jm i then { w.jk i with fenced := false } else w.jk i) ∧
      z = { w with jacks := z.jacks } := by
  induction l generalizing w with
  | nil => exact ⟨fun d => rfl, rfl⟩
  | cons j l ih =>
    rw [List.foldl_cons]
    by_cases hc : fenceOn w jm j = true
    · obtain ⟨ihc, ihf⟩ := ih (w.setJk j { w.jk j with fenced := false })
      rw [show (if jm.getLsbD j.val && w.jackPresent j then w.setJk j { w.jk j with fenced := false } else w) =
        w.setJk j { w.jk j with fenced := false } from if_pos hc]
      refine ⟨fun i => ?_, ihf⟩
      have hon : fenceOn (w.setJk j { w.jk j with fenced := false }) jm i = fenceOn w jm i := rfl
      rw [ihc i, hon]
      by_cases hi : i = j
      · subst hi
        rw [Work.jk_setJk_self]
        simp [hc]
      · rw [Work.jk_setJk_ne w j i _ hi]
        simp [hi]
    · obtain ⟨ihc, ihf⟩ := ih w
      rw [show (if jm.getLsbD j.val && w.jackPresent j then w.setJk j { w.jk j with fenced := false } else w) = w from if_neg hc]
      refine ⟨fun i => ?_, ihf⟩
      rw [ihc i]
      by_cases hi : i = j
      · subst hi
        simp [Bool.eq_false_iff.mpr hc]
      · simp [hi]

theorem Work.clearFences_parts (w : Work) (cm jm : Byte) :
    (∀ c, (w.clearFences cm jm).ch c = if fenceAt w cm c = true then { w.ch c with fenced := false } else w.ch c) ∧
      (∀ j, (w.clearFences cm jm).jk j = if fenceOn w jm j = true then { w.jk j with fenced := false } else w.jk j) ∧
      w.clearFences cm jm = { w with chans := (w.clearFences cm jm).chans, jacks := (w.clearFences cm jm).jacks } := by
  obtain ⟨hc, hcf⟩ := foldl_clearCh cm allChans w
  rw [Work.clearFences]
  generalize (allChans.foldl (fun w c => if cm.getLsbD c.val && (w.ch c).used then w.setCh c { w.ch c with fenced := false }
    else w) w) = y at hc hcf
  obtain ⟨hj, hjf⟩ := foldl_clearJk jm allJacks y
  generalize (allJacks.foldl (fun w j => if jm.getLsbD j.val && w.jackPresent j then w.setJk j { w.jk j with fenced := false }
    else w) y) = z at hj hjf
  have hjack : ∀ j, y.jk j = w.jk j ∧ fenceOn y jm j = fenceOn w jm j := fun j => by rw [hcf]; exact ⟨rfl, rfl⟩
  refine ⟨fun c => ?_, fun j => ?_, ?_⟩
  · have hch : z.ch c = y.ch c := by rw [hjf]; rfl
    rw [hch, hc c, allChans_contains, Bool.true_and]
  · rw [hj j, allJacks_contains, Bool.true_and, (hjack j).1, (hjack j).2]
  · rw [hjf, hcf]

end Sys2Proof.Machine
end

