-- ==== Sys2Proof/Proofs/FaultsAndFences.lean ====
section
/-! PROOF. Faults cleared and fences, assembled (R25, R26, R82, R83, R117, R130, R138, R139). -/

namespace Sys2Proof.Machine

set_option Elab.async false

open Sys2Proof.Safety

/-! ## The fence of one jack -/

section jack

variable {w : Work} {j : JackId} {a : HydActivity}

/-- The work with the fence of a jack, out of the sets of the activity (R82). -/
def Work.fencedOut (w : Work) (j : JackId) (a : HydActivity) : Work :=
  (w.setJk j (fencedJack (w.jk j))).withSets a (a.jackSet.without j) (a.openSet.without j)

theorem Work.fenceJack_of_none (ha : w.hyd.activity = none) (hl : w.lvl.phase = .idle) :
    w.fenceJack j = w.setJk j (fencedJack (w.jk j)) := by
  have hmember : w.actJacks.has j = false := by simp [Work.actJacks, ha]
  have hdrop : (w.setJk j (fencedJack (w.jk j))).dropJack j = w.setJk j (fencedJack (w.jk j)) := by
    have ha' : (w.setJk j (fencedJack (w.jk j))).hyd.activity = none := ha
    simp only [Work.dropJack, ha']
  rw [Work.fenceJack_eq, hmember, hdrop]
  exact (if_neg (not_not.mpr hl)).trans (if_neg nofun)

variable (ha : w.hyd.activity = some a)
include ha

theorem Work.fenceJack_of_some {b : Bool} (hb : a.jackSet.has j = b) :
    w.fenceJack j = (w.fencedOut j a).fenceFollowed j b := by
  have hmember : w.actJacks.has j = b := by simp only [Work.actJacks, ha, hb]
  rw [Work.fenceJack_eq, hmember, Work.dropJack_of (u := w.setJk j (fencedJack (w.jk j))) (a := a) ha]
  rfl

theorem Work.fenceJack_idle (hb : a.jackSet.has j = true) (hl : w.lvl.phase = .idle) :
    w.fenceJack j = (w.fencedOut j a).checkWork := by
  rw [Work.fenceJack_of_some ha hb]
  exact (if_neg (not_not.mpr hl)).trans (if_pos rfl)

theorem Work.fenceJack_aside (hb : a.jackSet.has j = false) (hl : w.lvl.phase = .idle) :
    w.fenceJack j = w.fencedOut j a := by
  rw [Work.fenceJack_of_some ha hb]
  exact (if_neg (not_not.mpr hl)).trans (if_neg nofun)

theorem Work.fenceJack_beside (hb : a.jackSet.has j = false) (hl : w.lvl.phase ≠ .idle) :
    w.fenceJack j = (w.fencedOut j a).leaveLift j := by
  rw [Work.fenceJack_of_some ha hb]
  exact (if_pos hl).trans (if_neg nofun)

theorem Work.fenceJack_ends (hb : a.jackSet.has j = true) (hl : w.lvl.phase ≠ .idle) (hn : (a.jackSet.without j).size < 3) :
    w.fenceJack j = (w.fencedOut j a).endLevel .cancelled false := by
  rw [Work.fenceJack_of_some ha hb]
  exact (if_pos hl).trans ((if_pos rfl).trans (if_pos hn))

theorem Work.fenceJack_goesOn (hb : a.jackSet.has j = true) (hl : w.lvl.phase ≠ .idle)
    (hn : 3 ≤ (a.jackSet.without j).size) : w.fenceJack j = ((w.fencedOut j a).leaveLift j).followGround := by
  rw [Work.fenceJack_of_some ha hb]
  exact (if_pos hl).trans ((if_pos rfl).trans (if_neg (Nat.not_lt_of_le hn)))

theorem Work.fenceJack_waits (hb : a.jackSet.has j = true) (hn : 3 ≤ (a.jackSet.without j).size)
    (hp : w.lvl.phase = .waiting ∨ w.lvl.phase = .settling) : w.fenceJack j = w.fencedOut j a := by
  have hne : ∀ p, p ≠ .waiting → p ≠ .settling → w.lvl.phase ≠ p := fun p h1 h2 h =>
    hp.elim (fun e => h1 (h.symm.trans e)) fun e => h2 (h.symm.trans e)
  rw [Work.fenceJack_goesOn ha hb (hne _ nofun nofun) hn,
    leaveLift_other (w := w.fencedOut j a) (.inl (hne _ nofun nofun)),
    followGround_other (w := w.fencedOut j a) (hne _ nofun nofun) (hne _ nofun nofun)]

end jack

theorem Work.fencedOut_jk {w : Work} {i j : JackId} (h : i ≠ j) (a : HydActivity) : (w.fencedOut j a).jk i = w.jk i :=
  Work.jk_setJk_ne w j i _ h

theorem Work.leaderPos_setCh (w : Work) (c : ChanId) {x : Machine.Channel} (h : x.pos = (w.ch c).pos) {m : MoverId} :
    (w.setCh c x).leaderPos m = w.leaderPos m := by
  simp only [Work.leaderPos]
  have hmv : (w.setCh c x).mv m = w.mv m := rfl
  rw [hmv]
  split
  · next d _ =>
    by_cases hd : d = c
    · subst hd
      rw [Work.ch_setCh_self, h]
    · rw [Work.ch_setCh_ne w c d x hd]
  · rfl

theorem Work.setFences_parts (w : Work) (cm jm : Byte) :
    (∀ c, (w.setFences cm jm).marks c = ((w.marks c).1, fenceAt w cm c || (w.marks c).2)) ∧
      (∀ j, ((w.setFences cm jm).jk j).fenced = (fenceOn w jm j || (w.jk j).fenced)) ∧
      (w.setFences cm jm).still = w.still := by
  obtain ⟨hm, hj, hs⟩ := foldl_fenceChan cm allChans w
  rw [Work.setFences]
  generalize (allChans.foldl (fun w c => if cm.getLsbD c.val && (w.ch c).used then w.fenceChan c else w) w) = y at hm hj hs
  obtain ⟨hf, hc, hs2⟩ := foldl_fenceJack jm allJacks y
  generalize (allJacks.foldl (fun w j => if jm.getLsbD j.val && w.jackPresent j then w.fenceJack j else w) y) = z at hf hc hs2
  have hjk : ∀ j, y.jk j = w.jk j := fun j => congrArg (fun v : Vector Jack 6 => v[j]) hj
  refine ⟨fun c => ?_, fun j => ?_, hs2.trans hs⟩
  · rw [marks_of_chans hc, hm c, allChans_contains, Bool.true_and]
  · rw [hf j, allJacks_contains, Bool.true_and, hjk, fenceOn, fenceOn, jackPresent_of_still hs]

/-- Settles O42: faults cleared one by one, fences by their masks, and one fence at a channel and at a jack. -/
theorem faultsAndFences : Obligations.FaultsAndFences := by
  unfold Obligations.FaultsAndFences
  intro s tag ht w clears
  have hclear : ∀ {t z r}, w.doFaultClear t = (z, r) → clears t z r := fun h => exec_faultClear_of ht h
  refine ⟨fun hm => ⟨fun t => ?_, fun cm jm => ⟨?_, ?_⟩⟩, fun hm => ⟨fun c => ⟨fun hu => ?_, fun hu hf => ?_, fun m hu hf hmo hs => ?_⟩,
    fun j => ⟨fun hp => ?_, fun hp hf => ?_, fun hp hf => ?_⟩, fun hk => ?_, fun hl hh hv => ?_, fun hl hh hv => ?_,
    fun hl hh hv hv2 => ?_, fun hl hh => ?_, ?_⟩, fun hm => ⟨?_, ?_⟩⟩
  · exact hclear (if_pos hm)
  · exact exec_fenceSet_of ht (if_pos hm)
  · exact exec_fenceClear_of ht (if_pos hm)
  · exact hclear ((Work.doFaultClear_chan hm c).trans (if_neg (Bool.eq_false_iff.mp hu)))
  · refine hclear ((Work.doFaultClear_chan hm c).trans ((if_pos hu).trans ?_))
    rw [Work.clearChan, if_neg hf]
    rfl
  · refine hclear ((Work.doFaultClear_chan hm c).trans ((if_pos hu).trans ?_))
    rw [Work.clearChan_of_faulted hf hmo hs]
    rfl
  · exact hclear ((Work.doFaultClear_jack hm j).trans (if_neg (Bool.eq_false_iff.mp hp)))
  · refine hclear ((Work.doFaultClear_jack hm j).trans ((if_pos hp).trans ?_))
    rw [Work.clearJack, hf]
    rfl
  · refine hclear ((Work.doFaultClear_jack hm j).trans ((if_pos hp).trans ?_))
    rw [Work.clearJack, if_pos hf]
    rfl
  · exact hclear ((Work.doFaultClear_supply hm).trans (Work.clearSupply_kept hk))
  · have hdone := Work.clearSupply_done (w := w) (fun _ => hv) fun h => nomatch hh.symm.trans h
    rw [Work.setLow_set hl, Work.setHigh_clear (by exact hh), hh] at hdone
    exact hclear ((Work.doFaultClear_supply hm).trans hdone)
  · have hdone := Work.clearSupply_done (w := w) (fun h => nomatch hl.symm.trans h) fun _ => hv
    rw [Work.setLow_clear hl, Work.setHigh_set hh, hl] at hdone
    exact hclear ((Work.doFaultClear_supply hm).trans hdone)
  · have hdone := Work.clearSupply_done (w := w) (fun _ => hv) fun _ => hv2
    rw [Work.setLow_set hl, Work.setHigh_set (by exact hh), hh] at hdone
    exact hclear ((Work.doFaultClear_supply hm).trans hdone)
  · have hdone := Work.clearSupply_done (w := w) (fun h => nomatch hl.symm.trans h) fun h => nomatch hh.symm.trans h
    rw [Work.setLow_clear hl, Work.setHigh_clear hh] at hdone
    exact hclear ((Work.doFaultClear_supply hm).trans hdone)
  · intro cm jm odd onC onJ
    have hodd : w.fenceClamped cm jm = odd := rfl
    refine ⟨⟨w.setFences cm jm, exec_fenceSet_of ht ?_, fun c => ?_, fun j => ?_, ?_, ?_⟩,
      ⟨w.clearFences cm jm, exec_fenceClear_of ht ?_, (w.clearFences_parts cm jm).1, (w.clearFences_parts cm jm).2.1,
        (w.clearFences_parts cm jm).2.2⟩⟩
    · rw [← hodd, ← replyChanged_eq]
      exact if_neg hm
    · exact congrArg Prod.snd ((w.setFences_parts cm jm).1 c)
    · exact (w.setFences_parts cm jm).2.1 j
    · exact congrArg Still.tilt (w.setFences_parts cm jm).2.2
    · exact congrArg Still.sup (w.setFences_parts cm jm).2.2
    · rw [← hodd, ← replyChanged_eq]
      exact if_neg hm
  · intro c m hu hmo y gives
    have hgives : ∀ z, (w.setCh c (fencedCh (w.ch c))).fenceTold m = z → gives z := fun z hz => by
      refine exec_fenceSet_of ht ((if_neg hm).trans ?_)
      rw [Work.setFences_chan hu hmo, Work.fenceClamped_chan hu, hz]
      rfl
    refine ⟨fun h => hgives _ ?_, fun hma hp => hgives _ ?_⟩
    · by_cases hma : m = awn
      · have hnone : ((w.setCh c (fencedCh (w.ch c))).mv awn).pendRetract = none := h.resolve_left fun e => e hma
        have hdrop : (w.setCh c (fencedCh (w.ch c))).dropRetract .fenced = w.setCh c (fencedCh (w.ch c)) := by
          simp only [Work.dropRetract, hnone]
        rw [Work.fenceTold, if_pos hma, hdrop]
        rfl
      · rw [Work.fenceTold, if_neg hma]
        rfl
    · subst hma
      obtain ⟨p, hp⟩ := Option.isSome_iff_exists.mp hp
      rw [Work.fenceTold, if_pos rfl, Work.dropRetract_of_some (w := w.setCh c (fencedCh (w.ch c))) hp,
        Work.leaderPos_setCh w c (x := fencedCh (w.ch c)) rfl]
      rfl
  · intro j hp y gives
    have hgives : ∀ z, w.fenceJack j = z → gives z := fun z hz => by
      refine exec_fenceSet_of ht ((if_neg hm).trans ?_)
      rw [Work.setFences_jack hp, Work.fenceClamped_jack hp, hz]
      rfl
    refine ⟨fun ha hl => hgives _ (Work.fenceJack_of_none ha hl), ?_⟩
    intro a ha b v
    refine ⟨fun hk hs hl => ?_, fun hk hs hl => ⟨?_, ?_⟩, fun hs hl => ⟨fun hn => ?_, fun hn => ?_, fun hn hp => ?_⟩,
      fun hs hl => ?_, fun hs hl => ?_⟩
    · exact hgives _ ((Work.fenceJack_idle ha hs hl).trans (Work.checkWork_of_manual (w := v) (a := b) rfl hk))
    · rintro ⟨i, hij, hi, hr⟩
      refine hgives _ ((Work.fenceJack_idle ha hs hl).trans (Work.checkWork_of_away (w := v) (a := b) (j := i) rfl hk ?_ ?_))
      · rw [JackSet.has_without, hi, bne_iff_ne.mpr hij]; rfl
      · exact (congrArg Jack.retracted (w.fencedOut_jk hij a)).trans hr
    · intro hall
      refine hgives _ ((Work.fenceJack_idle ha hs hl).trans (Work.checkWork_of_stowed (w := v) (a := b) rfl hk fun i hi => ?_))
      rw [JackSet.has_without, Bool.and_eq_true, bne_iff_ne] at hi
      obtain ⟨hr, ho⟩ := hall i hi.2 hi.1
      refine ⟨(congrArg Jack.retracted (w.fencedOut_jk hi.2 a)).trans hr, ?_⟩
      rw [JackSet.has_without, ho, Bool.false_and]
    · exact hgives _ (Work.fenceJack_ends ha hs hl hn)
    · exact hgives _ (Work.fenceJack_goesOn ha hs hl hn)
    · exact hgives _ (Work.fenceJack_waits ha hs hn hp)
    · exact hgives _ (Work.fenceJack_beside ha hs hl)
    · exact hgives _ (Work.fenceJack_aside ha hs hl)

end Sys2Proof.Machine
end

