-- ==== Sys2Proof/Proofs/ReplyLayouts.lean ====
section
/-! PROOF. The layouts of the query replies (Section 12.4), byte by byte. -/

namespace Sys2Proof.Machine

set_option Elab.async false

open Sys2Proof.Safety

/-! ## The items of a layout -/

/-- The lower and the upper byte of a half word (Section 12.1). -/
def loByte (h : Half) : Byte := h.setWidth 8
def hiByte (h : Half) : Byte := (h >>> 8).setWidth 8

theorem u8_eq (n : Nat) : u8 n = [BitVec.ofNat 8 n] := rfl

/-- An unsigned item of two bytes. -/
def half16 (n : Nat) : Half := BitVec.ofNat 16 (min n 65535)

/-- A signed item of two bytes. -/
def halfS16 (v : Int) : Half := BitVec.ofInt 16 (max (-32767) (min 32767 v))

/-- Items that may be absent. -/
def byteOpt (o : Option Nat) : Byte := match o with | some n => BitVec.ofNat 8 n | none => 0xFF
def halfOpt (o : Option Nat) : Half := match o with | some n => half16 n | none => 0xFFFF
def halfOptS (o : Option Int) : Half := match o with | some v => halfS16 v | none => 0x8000

theorem u16_eq (n : Nat) : u16 n = [loByte (half16 n), hiByte (half16 n)] := rfl
theorem s16_eq (v : Int) : s16 v = [loByte (halfS16 v), hiByte (halfS16 v)] := rfl
theorem opt8_eq (o : Option Nat) : opt8 o = [byteOpt o] := by cases o <;> rfl
theorem opt16_eq (o : Option Nat) : opt16 o = [loByte (halfOpt o), hiByte (halfOpt o)] := by cases o <;> rfl
theorem optS16_eq (o : Option Int) : optS16 o = [loByte (halfOptS o), hiByte (halfOptS o)] := by cases o <;> rfl

theorem loByte_half16 (n : Nat) : loByte (half16 n) = BitVec.ofNat 8 (min n 65535) := by
  refine BitVec.eq_of_toNat_eq ?_
  simp only [loByte, half16, BitVec.toNat_setWidth, BitVec.toNat_ofNat]
  omega

theorem hiByte_half16 (n : Nat) : hiByte (half16 n) = BitVec.ofNat 8 (min n 65535 / 256) := by
  refine BitVec.eq_of_toNat_eq ?_
  simp only [hiByte, half16, BitVec.toNat_setWidth, BitVec.toNat_ushiftRight, BitVec.toNat_ofNat, Nat.shiftRight_eq_div_pow]
  omega

theorem half16_toNat (h : Half) : half16 h.toNat = h := by
  refine BitVec.eq_of_toNat_eq ?_
  have := h.isLt
  simp only [half16, BitVec.toNat_ofNat]
  omega

theorem halfS16_of {v : Int} (h1 : -32767 ≤ v) (h2 : v ≤ 32767) : halfS16 v = BitVec.ofInt 16 v := by
  rw [halfS16, show max (-32767) (min 32767 v) = v by omega]

theorem loByte_ofInt (v : Int) : loByte (BitVec.ofInt 16 v) = BitVec.ofInt 8 v := by
  refine BitVec.eq_of_toNat_eq ?_
  simp only [loByte, BitVec.toNat_setWidth, BitVec.toNat_ofInt]
  omega

theorem hiByte_ofInt (v : Int) : hiByte (BitVec.ofInt 16 v) = BitVec.ofInt 8 (v / 256) := by
  refine BitVec.eq_of_toNat_eq ?_
  simp only [hiByte, BitVec.toNat_setWidth, BitVec.toNat_ushiftRight, BitVec.toNat_ofInt, Nat.shiftRight_eq_div_pow]
  omega

/-! ## Flag bytes -/

/-- The weight of a flag at its bit. -/
def bitAt (b : Bool) (k : Nat) : Nat := if b then 2 ^ k else 0

/-- A flag byte. -/
def flags (l : List Bool) : Byte := (bits16 l).setWidth 8

theorem flagByte_eq (l : List Bool) : flagByte l = [flags l] := rfl

theorem flags_one (a : Bool) : flags [a] = BitVec.ofNat 8 (bitAt a 0) := by revert a; decide

theorem flags_two (a b : Bool) : flags [a, b] = BitVec.ofNat 8 (bitAt a 0 + bitAt b 1) := by revert a b; decide

theorem flags_three (a b c : Bool) : flags [a, b, c] = BitVec.ofNat 8 (bitAt a 0 + bitAt b 1 + bitAt c 2) := by
  revert a b c; decide

theorem flags_four (a b c d : Bool) : flags [a, b, c, d] =
    BitVec.ofNat 8 (bitAt a 0 + bitAt b 1 + bitAt c 2 + bitAt d 3) := by
  revert a b c d; decide

theorem flags_six (a b c d e f : Bool) : flags [a, b, c, d, e, f] =
    BitVec.ofNat 8 (bitAt a 0 + bitAt b 1 + bitAt c 2 + bitAt d 3 + bitAt e 4 + bitAt f 5) := by
  revert a b c d e f; decide

theorem supplyCode_eq (a b : Bool) : supplyCode a b = BitVec.ofNat 8 (bitAt a 0 + bitAt b 1) := by revert a b; decide

/-! ## IDENT and POSTURE -/

theorem identData_eq (s : State) : s.identData = [0x20, 0x46, Config.revision, BitVec.ofNat 8 s.work.mode.code,
    flags [s.work.service], BitVec.ofNat 8 s.work.resetCause.code, s.work.store.note.setWidth 8,
    BitVec.ofNat 8 s.work.power.code, s.work.wakeCauses.setWidth 8, loByte s.port.attn, hiByte s.port.attn,
    loByte (half16 (s.linkTimer / 1000000)), hiByte (half16 (s.linkTimer / 1000000))] := rfl

/-- The posture of a room in its three bytes. -/
theorem roomPosture_eq (w : Work) (m : MoverId) : w.roomPosture m =
    [if (w.mv m).present then flags [true, w.known m] else 0,
     if (w.mv m).present then BitVec.ofNat 8 (w.seatOf m).code else 0,
     if (w.mv m).present then byteOpt (w.percent m) else 0] := by
  simp only [Work.roomPosture]
  split
  · rw [opt8_eq]; rfl
  · rfl

theorem awningPosture_eq (w : Work) : w.awningPosture = [if (w.mv awn).present then
    BitVec.ofNat 8 (1 + (if w.stowed then 2 else 0) + 4 * (w.seatOf awn).code) else 0] := by
  simp only [Work.awningPosture]
  split <;> rfl

/-- The bytes of POSTURE in front of the rooms. -/
def postureHead (s : State) : List Byte :=
  [BitVec.ofNat 8 s.ready.travel.code,
   flags [s.ready.hazard, s.ready.travelOk, s.work.allRetracted, s.work.stabilized, s.work.lvl.levelHeld, s.work.speed.moving],
   BitVec.ofNat 8 s.ready.alert.code, loByte s.work.inh, hiByte s.work.inh,
   flags [s.work.inputs.ign.level, s.work.inputs.pbrk.level, s.work.inputs.park.level, s.work.inputs.eng.level,
     s.work.inputs.wake.level],
   flags [s.work.inputs.ign.settled, s.work.inputs.pbrk.settled, s.work.inputs.park.settled, s.work.inputs.eng.settled,
     s.work.inputs.wake.settled],
   loByte (half16 s.work.speed.last), hiByte (half16 s.work.speed.last), BitVec.ofNat 8 s.work.speed.below]

theorem postureData_eq (s : State) : s.postureData = postureHead s ++ (s.work.roomPosture 0 ++ s.work.roomPosture 1 ++
    s.work.roomPosture 2 ++ s.work.roomPosture 3) ++ s.work.awningPosture ++
      [BitVec.ofNat 8 s.work.lvl.lastOutcome.code, supplyCode s.work.sup.low s.work.sup.high] := by
  simp only [State.postureData, allRooms, List.flatMap_cons, List.flatMap_nil, List.append_nil, List.append_assoc]
  rfl

/-! ## CHANNEL and ROOM -/

theorem channelData_eq {w : Work} {c : ChanId} (hu : (w.ch c).role ≠ .unused) : w.channelData c =
    [BitVec.ofNat 8 (w.ch c).role.code, BitVec.ofNat 8 (w.ch c).state.code, byteOpt ((w.ch c).motion.map (·.phase.code)),
     byteOpt ((w.ch c).motion.map fun m => dirCode m.dir), byteOpt ((w.ch c).motion.map (·.source.code)),
     flags [(w.ch c).fenced, (w.ch c).known, (w.learned c).isSome], loByte (halfS16 (w.ch c).pos),
     hiByte (halfS16 (w.ch c).pos), BitVec.ofNat 8 (w.ch c).seat.code, loByte (half16 (w.effStroke c)),
     hiByte (half16 (w.effStroke c)), BitVec.ofNat 8 (w.ch c).duty, BitVec.ofNat 8 (w.ch c).bridge.code,
     loByte (half16 (w.ch c).current), hiByte (half16 (w.ch c).current), BitVec.ofNat 8 (w.ch c).retry,
     byteOpt ((w.ch c).fault.map LockKind.code), byteOpt ((w.ch c).lastLock.map fun l => l.1.code),
     byteOpt ((w.ch c).lastLock.map fun l => l.2.code)] := by
  have hu' : (w.ch c).used = true := bne_iff_ne.mpr hu
  simp only [Work.channelData, if_pos hu', opt8_eq]
  rfl

theorem channelData_unused {w : Work} {c : ChanId} (hu : (w.ch c).role = .unused) : w.channelData c =
    [3, 0, 0, 0, 0, 0, 0, 0, 2, 0, 0, 0, 3, loByte (half16 (w.ch c).current), hiByte (half16 (w.ch c).current), 0, 0, 0, 0] := by
  have hu' : ¬ (w.ch c).used = true := by simp [Channel.used, hu]
  simp only [Work.channelData, if_neg hu', Channel.unusedData, hu]
  rfl

/-- The bytes of ROOM in front of the positions. -/
def roomHead (w : Work) (m : MoverId) : List Byte :=
  [flags [true, w.known m, w.faulted m, w.fenced m], BitVec.ofNat 8 (w.seatOf m).code,
   byteOpt ((w.mv m).leader.map (·.val)), byteOpt ((w.mv m).follower.map (·.val)),
   loByte (half16 (w.nominal m)), hiByte (half16 (w.nominal m)), BitVec.ofNat 8 (w.activity m).code,
   byteOpt ((w.mv m).claim.map (·.source.code)), byteOpt ((w.mv m).claim.map fun c => dirCode c.dir),
   byteOpt ((w.mv m).claim.map (·.kind.code)),
   loByte (halfOpt (((w.mv m).claim.bind (·.lease)).map (msLeft w.now))),
   hiByte (halfOpt (((w.mv m).claim.bind (·.lease)).map (msLeft w.now))),
   byteOpt ((w.mv m).pendRev.map (·.source.code)), byteOpt ((w.mv m).pendRev.map fun r => dirCode r.dir),
   byteOpt ((w.mv m).holdOffDir.map dirCode)]

/-- Position and effective stroke of one channel of a room. -/
def placeBytes (w : Work) (c : Option ChanId) : List Byte :=
  [loByte (halfOptS (c.map fun c => (w.ch c).pos)), hiByte (halfOptS (c.map fun c => (w.ch c).pos)),
   loByte (halfOpt (c.map w.effStroke)), hiByte (halfOpt (c.map w.effStroke))]

/-- The bytes of ROOM behind the positions. -/
def roomTail (w : Work) (m : MoverId) : List Byte :=
  [loByte (halfOptS (w.racking m)), hiByte (halfOptS (w.racking m)), BitVec.ofNat 8 (w.mv m).sync.code,
   byteOpt ((w.mv m).learn.map (·.method.code)), byteOpt ((w.mv m).learn.map fun l => legCode l.leg),
   flags [(w.mv m).swIn.pressed, (w.mv m).swOut.pressed]]

theorem roomData_eq (w : Work) (m : MoverId) : w.roomData m =
    roomHead w m ++ placeBytes w (w.mv m).leader ++ placeBytes w (w.mv m).follower ++ roomTail w m := by
  have hplace : ∀ c, w.placeData c = placeBytes w c := fun c => by rw [Work.placeData, optS16_eq, opt16_eq]; rfl
  unfold Work.roomData
  simp only [hplace, opt8_eq, leaseLeft, opt16_eq, optS16_eq]
  simp only [roomHead, roomTail, u8_eq, u16_eq, flagByte_eq, Mover.switchByte, List.cons_append, List.nil_append,
    List.append_assoc]

/-! ## JACKS -/

/-- The state and the fault of a jack in one byte. -/
def jackStateByte (w : Work) (j : JackId) : Byte :=
  BitVec.ofNat 8 ((w.jackState j).code + 16 * (match (w.jk j).fault with | some f => f.code | none => 0))

/-- The four bytes of a jack. -/
theorem jackData_eq (w : Work) (j : JackId) : w.jackData j =
    [if w.jackPresent j then jackStateByte w j else 0,
     if w.jackPresent j then
       flags [true, (w.jk j).valid, (w.jk j).grounded, (w.jk j).retracted, (w.jk j).atLimit, (w.jk j).fenced] else 0,
     if w.jackPresent j then loByte (half16 (w.jk j).stroke) else 0,
     if w.jackPresent j then hiByte (half16 (w.jk j).stroke) else 0] := by
  simp only [Work.jackData]
  split <;> rfl

/-- The activity in its seven bytes. -/
def activityBytes (w : Work) : List Byte :=
  [byteOpt (w.hyd.activity.map (·.kind.code)), byteOpt (w.hyd.activity.map fun a => dirCode a.dir),
   byteOpt (w.hyd.activity.map (·.phase.code)), w.actJacks.byte,
   match w.hyd.activity with | some a => a.openSet.byte | none => 0,
   loByte (halfOpt (w.hyd.activity.bind w.activityTime)), hiByte (halfOpt (w.hyd.activity.bind w.activityTime))]

theorem activityData_eq (w : Work) : w.activityData = activityBytes w := by
  cases ha : w.hyd.activity with
  | none => simp only [Work.activityData, activityBytes, ha, opt16_eq, Work.actJacks]; rfl
  | some a => simp only [Work.activityData, activityBytes, ha, opt16_eq, Work.actJacks]; rfl

/-- The bytes of JACKS in front of the jacks. -/
def jacksHead (w : Work) : List Byte :=
  [BitVec.ofNat 8 w.jackCount, BitVec.ofNat 8 w.hyd.pump.code, BitVec.ofNat 8 (dirCode w.hyd.pdir),
   loByte (half16 w.hyd.current), hiByte (half16 w.hyd.current), loByte (halfOpt w.runSeconds), hiByte (halfOpt w.runSeconds),
   loByte (halfOpt w.pumpLeft), hiByte (halfOpt w.pumpLeft)] ++ activityBytes w ++
  [BitVec.ofNat 8 (match w.hyd.lastKind with | some k => k.code | none => 3), BitVec.ofNat 8 w.hyd.lastOutcome.code]

theorem jacksData_eq (s : State) : s.jacksData = jacksHead s.work ++ (s.work.jackData 0 ++ s.work.jackData 1 ++
    s.work.jackData 2 ++ s.work.jackData 3 ++ s.work.jackData 4 ++ s.work.jackData 5) := by
  simp only [State.jacksData, activityData_eq, opt16_eq, allJacks, List.flatMap_cons, List.flatMap_nil, List.append_nil,
    List.append_assoc, jacksHead, u16_eq, u8_eq, List.cons_append, List.nil_append] <;> rfl

end Sys2Proof.Machine
end

