-- ==== Sys2Proof/Proofs/StatusLayouts.lean ====
section
/-! PROOF. The layouts of LEVEL_STATUS, WIND, SUPPLY and QUEUE (Section 12.4). -/

namespace Sys2Proof.Machine

set_option Elab.async false

open Sys2Proof.Safety

theorem vector_six {α : Type} (v : Vector α 6) : v.toList = [v[0], v[1], v[2], v[3], v[4], v[5]] := by
  obtain ⟨⟨l⟩, h⟩ := v
  match l, h with
  | [a, b, c, d, e, f], _ => rfl

/-- The bytes of LEVEL_STATUS in front of the heights. -/
def levelHead (w : Work) : List Byte :=
  [BitVec.ofNat 8 (w.lvl.phase.code + 8 * levelModeCode w.lvl.mode + (if w.lvl.levelHeld then 32 else 0) +
     (if w.stabilized then 64 else 0) + (if w.tilt.fault then 128 else 0)),
   BitVec.ofNat 8 w.lvl.lastOutcome.code, BitVec.ofNat 8 (w.tilt.good + 32 * w.lvl.pass),
   flags [w.tilt.clamped, w.store.learned.zero.isSome, w.store.learned.zero.isSome, w.lvl.twistOver],
   loByte (halfS16 w.tilt.tx), hiByte (halfS16 w.tilt.tx), loByte (halfS16 w.tilt.ty), hiByte (halfS16 w.tilt.ty),
   loByte (halfS16 w.zero.1), hiByte (halfS16 w.zero.1), loByte (halfS16 w.zero.2), hiByte (halfS16 w.zero.2),
   loByte (halfS16 w.tilt.p), hiByte (halfS16 w.tilt.p), loByte (halfS16 w.tilt.q), hiByte (halfS16 w.tilt.q),
   loByte (halfOpt w.tiltAge), hiByte (halfOpt w.tiltAge), byteOpt (w.tilt.zeroRun.map (·.count))]

/-- Six optional items of two bytes. -/
def sixHalves (f : JackId → Half) : List Byte := allJacks.flatMap fun j => [loByte (f j), hiByte (f j)]

theorem heights_eq (v : Vector (Option Int) 6) : v.toList.flatMap optS16 = sixHalves fun j => halfOptS v[j] := by
  simp only [vector_six, sixHalves, allJacks, List.flatMap_cons, List.flatMap_nil, optS16_eq]
  rfl

theorem demands_eq (v : Vector (Option Nat) 6) : v.toList.flatMap opt16 = sixHalves fun j => halfOpt v[j] := by
  simp only [vector_six, sixHalves, allJacks, List.flatMap_cons, List.flatMap_nil, opt16_eq]
  rfl

theorem levelData_eq (s : State) : s.levelData = levelHead s.work ++ (sixHalves fun j => halfOptS s.work.lvl.heights[j]) ++
    (sixHalves fun j => halfOpt s.work.lvl.demands[j]) ++ [s.work.lvl.liftSet.byte, BitVec.ofNat 8 s.work.lvl.levelRun,
      loByte (halfOptS s.work.lvl.twist), hiByte (halfOptS s.work.lvl.twist)] := by
  simp only [State.levelData, heights_eq, demands_eq, opt16_eq, opt8_eq, optS16_eq, levelHead, u8_eq, s16_eq, flagByte_eq,
    List.cons_append, List.nil_append, List.append_assoc]

theorem windData_eq {s : State} {c : ChanId} (h : (s.work.mv awn).leader = some c) : s.windData =
    [flags [true, s.work.wind.lockout.isSome, true, s.work.stowed, s.work.faulted awn, s.work.fenced awn, s.work.oneTouch,
       s.work.travelRetract],
     loByte (half16 s.work.wind.speed), hiByte (half16 s.work.wind.speed), loByte (half16 s.work.wind.count),
     hiByte (half16 s.work.wind.count), BitVec.ofNat 8 s.work.wind.gustRun, loByte (half16 s.work.lockoutLeft),
     hiByte (half16 s.work.lockoutLeft), loByte (half16 s.work.gustThreshold), hiByte (half16 s.work.gustThreshold),
     BitVec.ofNat 8 s.work.gustCount, loByte (half16 s.work.hardThreshold), hiByte (half16 s.work.hardThreshold),
     BitVec.ofNat 8 (s.work.profN 0x0506), BitVec.ofNat 8 c.val, byteOpt (s.work.neighbour.map (·.val)),
     BitVec.ofNat 8 (s.work.activity awn).code, byteOpt ((s.work.mv awn).claim.map (·.source.code)),
     byteOpt ((s.work.mv awn).claim.map fun c => dirCode c.dir), byteOpt ((s.work.mv awn).claim.map (·.kind.code)),
     byteOpt (((s.work.mv awn).claim.bind (·.purpose)).map Purpose.code),
     loByte (halfOpt (((s.work.mv awn).claim.bind (·.lease)).map (msLeft s.work.now))),
     hiByte (halfOpt (((s.work.mv awn).claim.bind (·.lease)).map (msLeft s.work.now))),
     byteOpt ((s.work.mv awn).pendRetract.map Purpose.code), byteOpt ((s.work.mv awn).pendRev.map fun r => dirCode r.dir),
     byteOpt ((s.work.mv awn).holdOffDir.map dirCode), loByte (halfS16 (s.work.ch c).pos), hiByte (halfS16 (s.work.ch c).pos),
     BitVec.ofNat 8 (statusCode (s.work.ch c).known), BitVec.ofNat 8 (s.work.seatOf awn).code,
     loByte (half16 (s.work.effStroke c)), hiByte (half16 (s.work.effStroke c)),
     flags [(s.work.mv awn).swIn.pressed, (s.work.mv awn).swOut.pressed]] := by
  simp only [State.windData, h, Work.watchData, Work.awningClaim, Work.awningPlace, Mover.switchByte, leaseLeft, opt16_eq,
    opt8_eq, u8_eq, u16_eq, s16_eq, flagByte_eq, List.cons_append, List.nil_append]

theorem windData_absent {s : State} (h : (s.work.mv awn).leader = none) : s.windData = List.replicate 33 0 := by
  simp only [State.windData, h]

theorem supplyData_eq (s : State) : s.supplyData =
    [loByte (half16 s.work.sup.voltage), hiByte (half16 s.work.sup.voltage), BitVec.ofNat 8 s.work.sup.window.length,
     flags [s.work.sup.low, s.work.sup.high, s.work.latchPolicy, s.work.sup.tripped],
     supplyCode s.work.sup.low s.work.sup.high, BitVec.ofNat 8 s.work.sup.lowRun, BitVec.ofNat 8 s.work.sup.highRun,
     BitVec.ofNat 8 s.work.sup.lowClear, BitVec.ofNat 8 s.work.sup.highClear, loByte (half16 s.work.lowThreshold),
     hiByte (half16 s.work.lowThreshold), loByte (half16 s.work.highThreshold), hiByte (half16 s.work.highThreshold),
     loByte (half16 s.work.lowRestart), hiByte (half16 s.work.lowRestart), loByte (half16 s.work.highRestart),
     hiByte (half16 s.work.highRestart), loByte (half16 s.work.sup.busSum), hiByte (half16 s.work.sup.busSum),
     BitVec.ofNat 8 s.work.sup.busRun, loByte (half16 (s.work.profN 0x0605)), hiByte (half16 (s.work.profN 0x0605)),
     loByte (half16 s.work.budget), hiByte (half16 s.work.budget), loByte (half16 s.work.bud.sum),
     hiByte (half16 s.work.bud.sum), loByte (half16 (s.work.budget - s.work.bud.sum)),
     hiByte (half16 (s.work.budget - s.work.bud.sum))] := by
  simp only [State.supplyData, u8_eq, u16_eq, flagByte_eq, List.cons_append, List.nil_append]

/-- The bytes of QUEUE in front of the entries. -/
def queueHead7 (w : Work) : List Byte :=
  [loByte (half16 w.budget), hiByte (half16 w.budget), loByte (half16 w.bud.sum), hiByte (half16 w.bud.sum),
   BitVec.ofNat 8 w.queueLimit, BitVec.ofNat 8 (w.profN 0x0607), BitVec.ofNat 8 w.bud.admitted.length]

theorem queueData_eq (s : State) : s.queueData =
    queueHead7 s.work ++ s.work.bud.admitted.flatMap s.work.admittedData ++ s.work.bud.queue.flatMap s.work.queuedData := by
  simp only [State.queueData, u8_eq, u16_eq, queueHead7, List.cons_append, List.nil_append]

theorem admittedData_eq (w : Work) (e : Admitted) : w.admittedData e =
    [BitVec.ofNat 8 (w.entryTarget e.target), BitVec.ofNat 8 e.draw, loByte (half16 ((w.now - e.since) / 1000)),
     hiByte (half16 ((w.now - e.since) / 1000))] := rfl

theorem queuedData_length (w : Work) (e : Queued) : (w.queuedData e).length = 6 := by
  simp only [Work.queuedData, leaseLeft, opt16_eq]
  rfl

end Sys2Proof.Machine
end

