-- ==== Sys2Proof/Proofs/QueryReplies.lean ====
section
/-! PROOF. The queries answer with their layouts and change nothing (R27, R59, R84, R101, R135, R149, R150, R166, R186). -/

namespace Sys2Proof.Machine

set_option Elab.async false

open Sys2Proof.Safety

/-! ## Items at their places -/

section items

variable {d : List Byte} {k : Nat}

theorem at16_of {n : Nat} (h0 : d[k]? = some (loByte (half16 n))) (h1 : d[k + 1]? = some (hiByte (half16 n))) :
    d[k]? = some (BitVec.ofNat 8 (min n 65535)) ∧ d[k + 1]? = some (BitVec.ofNat 8 (min n 65535 / 256)) := by
  rw [h0, h1, loByte_half16, hiByte_half16]
  exact ⟨rfl, rfl⟩

theorem at16_of_half {h : Half} (h0 : d[k]? = some (loByte h)) (h1 : d[k + 1]? = some (hiByte h)) :
    d[k]? = some (BitVec.ofNat 8 (min h.toNat 65535)) ∧ d[k + 1]? = some (BitVec.ofNat 8 (min h.toNat 65535 / 256)) :=
  at16_of (by rw [half16_toNat, h0]) (by rw [half16_toNat, h1])

theorem signed_of {v : Int} (h0 : d[k]? = some (loByte (halfS16 v))) (h1 : d[k + 1]? = some (hiByte (halfS16 v)))
    (hlo : -32767 ≤ v) (hhi : v ≤ 32767) :
    d[k]? = some (BitVec.ofInt 8 v) ∧ d[k + 1]? = some (BitVec.ofInt 8 (v / 256)) := by
  rw [h0, h1, halfS16_of hlo hhi, loByte_ofInt, hiByte_ofInt]
  exact ⟨rfl, rfl⟩

end items

/-! ## The answers -/

theorem exec_query {s : State} (ht : Takes s) {i : Instr} {k t : Byte} {f : State → List Byte}
    (h : exec i s = .next (query s k t f)) :
    exec i s = .next (replied s.toActive k t { status := .done, data := f s.toActive }) :=
  h.trans (congrArg Host.Outcome.next (portAct_of_takes ht k t fun s => (s, replyData (f s))))

theorem exec_portReply {s : State} (ht : Takes s) {i : Instr} {k t : Byte} {f : State → Reply} {r : Reply}
    (h : exec i s = .next (portRequest s k t fun s => (s, f s))) (hr : f s.toActive = r) :
    exec i s = .next (replied s.toActive k t r) :=
  h.trans (congrArg Host.Outcome.next ((portAct_of_takes ht k t fun s => (s, f s)).trans
    (congrArg (replied s.toActive k t) hr)))

/-- The answers of the queries, line by line. -/
theorem queries_answer {s : State} (tag : Byte) (ht : Takes s) :
    let a := s.toActive
    let done (kind : Byte) (data : List Byte) : State := replied a kind tag { status := .done, data := data }
    exec (.nop tag) s = .next (done 0x01 []) ∧
    exec (.ident tag) s = .next (done 0x02 a.identData) ∧
    exec (.attention tag) s = .next (done 0x03
      (halfBytes s.port.attn ++ halfBytes s.port.mask ++
        [s.work.wakeCauses.setWidth 8, BitVec.ofNat 8 s.port.outq.length])) ∧
    exec (.posture tag) s = .next (done 0x04 a.postureData) ∧
    (∀ c : ChanId, exec (.channel tag (BitVec.ofNat 8 c.val)) s = .next (done 0x05 (a.work.channelData c))) ∧
    (∀ m : MoverId, m ≠ awn → (s.work.mv m).present = true →
      exec (.room tag (BitVec.ofNat 8 m.val)) s = .next (done 0x06 (a.work.roomData m))) ∧
    (∀ m : MoverId, m ≠ awn → (s.work.mv m).present = false →
      exec (.room tag (BitVec.ofNat 8 m.val)) s = .next (done 0x06 (List.replicate 29 0))) ∧
    exec (.jacks tag) s = .next (done 0x07 a.jacksData) ∧
    exec (.levelStatus tag) s = .next (done 0x08 a.levelData) ∧
    exec (.wind tag) s = .next (done 0x09 a.windData) ∧
    exec (.supply tag) s = .next (done 0x0A a.supplyData) ∧
    exec (.queue tag) s = .next (done 0x0B a.queueData) ∧
    (∀ n : Byte, 8 ≤ n.toNat → exec (.channel tag n) s = .next (replied a 0x05 tag { status := .badArgument })) ∧
    (∀ n : Byte, 4 ≤ n.toNat → exec (.room tag n) s = .next (replied a 0x06 tag { status := .badArgument })) ∧
    ({ status := .badArgument : Reply }).payload = [19, 0] := by
  intro a done
  have hattn : a.attentionData = halfBytes s.port.attn ++ halfBytes s.port.mask ++
      [s.work.wakeCauses.setWidth 8, BitVec.ofNat 8 s.port.outq.length] := by
    have hw : a.work.wakeCauses = s.work.wakeCauses := Work.toActive_wakeCauses s.work
    rw [State.attentionData, hw, List.append_assoc _ [_] _]
    rfl
  have hroom : ∀ m : MoverId, m ≠ awn → a.work.roomReply (BitVec.ofNat 8 m.val) =
      replyData (if (s.work.mv m).present then a.work.roomData m else List.replicate 29 0) := fun m hm => by
    have hmv : a.work.mv m = s.work.mv m := Work.toActive_mv s.work m
    simp only [Work.roomReply, decodeRoom_of hm, hmv]
  refine ⟨exec_query ht (f := fun _ => []) rfl, exec_query ht (f := State.identData) rfl, ?_,
    exec_query ht (f := State.postureData) rfl, fun c => ?_, fun m hm hp => ?_, fun m hm hp => ?_,
    exec_query ht (f := State.jacksData) rfl, exec_query ht (f := State.levelData) rfl,
    exec_query ht (f := State.windData) rfl, exec_query ht (f := State.supplyData) rfl,
    exec_query ht (f := State.queueData) rfl, fun n hn => ?_, fun n hn => ?_, rfl⟩
  · exact (exec_query ht (f := State.attentionData) rfl).trans (by rw [show s.toActive.attentionData = _ from hattn])
  · exact exec_portReply ht rfl (by simp only [decodeChan_of]; rfl)
  · exact exec_portReply ht rfl ((hroom m hm).trans (congrArg replyData (if_pos hp)))
  · exact exec_portReply ht rfl ((hroom m hm).trans (congrArg replyData (if_neg (Bool.eq_false_iff.mp hp))))
  · exact exec_portReply ht rfl (by simp only [decodeChan_of_large hn]; rfl)
  · exact exec_portReply ht rfl (by simp only [Work.roomReply, decodeRoom_of_large hn]; rfl)

/-! ## The lengths -/

theorem channelData_length (w : Work) (c : ChanId) : (w.channelData c).length = 19 := by
  by_cases h : (w.ch c).role = .unused
  · rw [channelData_unused h]; rfl
  · rw [channelData_eq h]; rfl

theorem windData_length (s : State) : s.windData.length = 33 := by
  cases h : (s.work.mv awn).leader with
  | none => rw [windData_absent h]; rfl
  | some c => rw [windData_eq h]; rfl

theorem queueData_length (s : State) :
    s.queueData.length = 7 + 4 * s.work.bud.admitted.length + 6 * s.work.bud.queue.length := by
  have ha : (s.work.bud.admitted.flatMap s.work.admittedData).length = 4 * s.work.bud.admitted.length := by
    simp only [List.length_flatMap, admittedData_eq, List.length_cons, List.length_nil, List.map_const', List.sum_replicate]
    exact Nat.mul_comm _ _
  have hq : (s.work.bud.queue.flatMap s.work.queuedData).length = 6 * s.work.bud.queue.length := by
    simp only [List.length_flatMap, queuedData_length, List.map_const', List.sum_replicate]
    exact Nat.mul_comm _ _
  rw [queueData_eq, List.length_append, List.length_append, ha, hq]
  rfl

theorem layout_lengths (s : State) : s.identData.length = 13 ∧ s.attentionData.length = 6 ∧ s.postureData.length = 25 ∧
    (∀ c, (s.work.channelData c).length = 19) ∧ (∀ m, (s.work.roomData m).length = 29) ∧ s.jacksData.length = 42 ∧
    s.levelData.length = 47 ∧ s.windData.length = 33 ∧ s.supplyData.length = 28 ∧
    s.queueData.length = 7 + 4 * s.work.bud.admitted.length + 6 * s.work.bud.queue.length := by
  refine ⟨rfl, rfl, ?_, channelData_length s.work, fun m => ?_, ?_, ?_, windData_length s, ?_, queueData_length s⟩
  · simp only [postureData_eq, roomPosture_eq, awningPosture_eq]; rfl
  · rw [roomData_eq]; rfl
  · simp only [jacksData_eq, jackData_eq]; rfl
  · rw [levelData_eq]; rfl
  · rw [supplyData_eq]; rfl

end Sys2Proof.Machine
end

