-- ==== Sys2Proof/Proofs/QueryBytes.lean ====
section
/-! PROOF. The bytes of the query replies at their places (Section 12.4). -/

namespace Sys2Proof.Machine

set_option Elab.async false

open Sys2Proof.Safety

/-- A byte at its place, an unsigned item of two bytes and a signed one. -/
abbrev HasByte (d : List Byte) (k n : Nat) : Prop := d[k]? = some (BitVec.ofNat 8 n)
abbrev HasHalf (d : List Byte) (k n : Nat) : Prop := HasByte d k (min n 65535) ∧ HasByte d (k + 1) (min n 65535 / 256)
abbrev HasSigned (d : List Byte) (k : Nat) (v : Int) : Prop := -32767 ≤ v → v ≤ 32767 →
  d[k]? = some (BitVec.ofInt 8 v) ∧ d[k + 1]? = some (BitVec.ofInt 8 (v / 256))

theorem HasByte.of_flags {d : List Byte} {k n : Nat} {l : List Bool} (h : d[k]? = some (flags l))
    (hl : flags l = BitVec.ofNat 8 n) : HasByte d k n := h.trans (congrArg some hl)

theorem ofNat_setWidth (x : BitVec 5) : x.setWidth 8 = BitVec.ofNat 8 x.toNat := by
  refine BitVec.eq_of_toNat_eq ?_
  simp

theorem identBytes (s : State) : HasByte s.identData 0 0x20 ∧ HasByte s.identData 1 0x46 ∧
    HasByte s.identData 3 (match s.work.mode with | .normal => 0 | .service => 1 | .unconfigured => 2) ∧
    HasByte s.identData 4 (bitAt s.work.service 0) ∧ HasByte s.identData 8 s.work.wakeCauses.toNat ∧
    HasHalf s.identData 9 s.port.attn.toNat ∧ HasHalf s.identData 11 (s.linkTimer / 1000000) := by
  rw [identData_eq]
  refine ⟨rfl, rfl, rfl, .of_flags rfl (flags_one _), congrArg some (ofNat_setWidth _), at16_of_half rfl rfl, at16_of rfl rfl⟩

theorem postureBytes (s : State) :
    HasByte s.postureData 0 (match s.ready.travel with | .inMotion => 0 | .travelReady => 1 | .deployed => 2) ∧
    HasByte s.postureData 1 (bitAt s.ready.hazard 0 + bitAt s.ready.travelOk 1 + bitAt s.work.allRetracted 2 +
      bitAt s.work.stabilized 3 + bitAt s.work.lvl.levelHeld 4 + bitAt s.work.speed.moving 5) ∧
    HasByte s.postureData 2 (match s.ready.alert with | .off => 0 | .slow => 1 | .steady => 2) ∧
    HasHalf s.postureData 3 s.work.inh.toNat ∧ HasByte s.postureData 9 s.work.speed.below ∧
    ∀ r : Fin 4, HasByte s.postureData (10 + 3 * r.val) (if (s.work.mv (roomMover r)).present then
      1 + bitAt (s.work.known (roomMover r)) 1 else 0) := by
  have hroom : ∀ m : MoverId, (if (s.work.mv m).present then flags [true, s.work.known m] else 0) =
      BitVec.ofNat 8 (if (s.work.mv m).present then 1 + bitAt (s.work.known m) 1 else 0) := fun m => by
    split
    · exact flags_two _ _
    · rfl
  simp only [postureData_eq, roomPosture_eq]
  refine ⟨rfl, .of_flags rfl (flags_six ..), rfl, at16_of_half rfl rfl, rfl, fun r => ?_⟩
  match r with
  | 0 => exact congrArg some (hroom 0)
  | 1 => exact congrArg some (hroom 1)
  | 2 => exact congrArg some (hroom 2)
  | 3 => exact congrArg some (hroom 3)

theorem channelBytes (w : Work) (c : ChanId) :
    ((w.ch c).role = .unused → w.channelData c = [3, 0, 0, 0, 0, 0, 0, 0, 2, 0, 0, 0, 3] ++
      halfBytes (BitVec.ofNat 16 (min (w.ch c).current 65535)) ++ [0, 0, 0, 0]) ∧
    ((w.ch c).role ≠ .unused →
      HasByte (w.channelData c) 0 (match (w.ch c).role with | .roomLeader => 0 | .roomFollower => 1 | .awning => 2 | .unused => 3) ∧
      HasByte (w.channelData c) 1 (match (w.ch c).state with
        | .idle => 0 | .queued => 1 | .moving => 2 | .retryWait => 3 | .faulted => 4) ∧
      ((w.ch c).motion = none → HasByte (w.channelData c) 2 0xFF ∧ HasByte (w.channelData c) 3 0xFF ∧
        HasByte (w.channelData c) 4 0xFF) ∧
      (∀ mo, (w.ch c).motion = some mo →
        HasByte (w.channelData c) 2 (match mo.phase with
          | .starting => 0 | .ramp => 1 | .run => 2 | .approach => 3 | .stopping => 4) ∧
        HasByte (w.channelData c) 3 (match mo.dir with | .outward => 0 | .inward => 1) ∧
        HasByte (w.channelData c) 4 (match mo.source with | .link => 0 | .panel => 1 | .auto => 2)) ∧
      HasByte (w.channelData c) 5 (bitAt (w.ch c).fenced 0 + bitAt (w.ch c).known 1 + bitAt (w.learned c).isSome 2) ∧
      HasSigned (w.channelData c) 6 (w.ch c).pos ∧
      HasByte (w.channelData c) 8 (match (w.ch c).seat with | .inSeated => 0 | .outSeated => 1 | .between => 2) ∧
      HasHalf (w.channelData c) 9 (w.effStroke c) ∧
      HasByte (w.channelData c) 11 (w.ch c).duty ∧
      HasByte (w.channelData c) 12 (match (w.ch c).bridge with | .driveOut => 0 | .driveIn => 1 | .brake => 2 | .coast => 3) ∧
      HasHalf (w.channelData c) 13 (w.ch c).current ∧ HasByte (w.channelData c) 15 (w.ch c).retry ∧
      ((w.ch c).fault = none → HasByte (w.channelData c) 16 0xFF) ∧
      ((w.ch c).lastLock = none → HasByte (w.channelData c) 17 0xFF ∧ HasByte (w.channelData c) 18 0xFF)) := by
  refine ⟨channelData_unused, fun hu => ?_⟩
  rw [channelData_eq hu]
  refine ⟨rfl, rfl, fun hm => ?_, fun mo hm => ?_, .of_flags rfl (flags_three ..), signed_of rfl rfl, rfl, at16_of rfl rfl, rfl,
    rfl, at16_of rfl rfl, rfl, fun hf => ?_, fun hl => ?_⟩
  · rw [hm]; exact ⟨rfl, rfl, rfl⟩
  · rw [hm]; exact ⟨rfl, rfl, rfl⟩
  · rw [hf]; rfl
  · rw [hl]; exact ⟨rfl, rfl⟩

theorem roomBytes (w : Work) (m : MoverId) :
    HasByte (w.roomData m) 0 (1 + bitAt (w.known m) 1 + bitAt (w.faulted m) 2 + bitAt (w.fenced m) 3) ∧
    (∀ c, (w.mv m).leader = some c → HasByte (w.roomData m) 2 c.val ∧ HasSigned (w.roomData m) 15 (w.ch c).pos ∧
      HasHalf (w.roomData m) 17 (w.effStroke c)) ∧
    ((w.mv m).follower = none → HasByte (w.roomData m) 3 0xFF ∧ HasHalf (w.roomData m) 19 0x8000 ∧
      HasHalf (w.roomData m) 21 0xFFFF ∧ HasHalf (w.roomData m) 23 0x8000) ∧
    HasHalf (w.roomData m) 4 (w.nominal m) ∧
    ((w.mv m).claim = none → HasByte (w.roomData m) 7 0xFF ∧ HasByte (w.roomData m) 8 0xFF ∧ HasByte (w.roomData m) 9 0xFF ∧
      HasHalf (w.roomData m) 10 0xFFFF) ∧
    HasByte (w.roomData m) 28 (bitAt (w.mv m).swIn.pressed 0 + bitAt (w.mv m).swOut.pressed 1) := by
  rw [roomData_eq]
  refine ⟨.of_flags rfl (flags_four true ..), fun c hc => ?_, fun hf => ?_, at16_of rfl rfl, fun hc => ?_,
    .of_flags rfl (flags_two ..)⟩
  · rw [roomHead, hc]
    exact ⟨rfl, signed_of rfl rfl, at16_of rfl rfl⟩
  · have hrack : w.racking m = none := by
      simp only [Work.racking, hf]
      split <;> simp_all
    rw [roomHead, roomTail, hf, hrack]
    exact ⟨rfl, at16_of (n := 0x8000) rfl rfl, at16_of (n := 0xFFFF) rfl rfl, at16_of (n := 0x8000) rfl rfl⟩
  · rw [roomHead, hc]
    exact ⟨rfl, rfl, rfl, at16_of (n := 0xFFFF) rfl rfl⟩

theorem jacksBytes (s : State) : HasByte s.jacksData 0 s.work.jackCount ∧
    HasByte s.jacksData 1 (match s.work.hyd.pump with | .off => 0 | .running => 1 | .dwell => 2 | .rest => 3) ∧
    HasByte s.jacksData 2 (match s.work.hyd.pdir with | .outward => 0 | .inward => 1) ∧
    HasHalf s.jacksData 3 s.work.hyd.current ∧
    (s.work.hyd.activity = none → HasByte s.jacksData 9 0xFF ∧ HasByte s.jacksData 10 0xFF ∧ HasByte s.jacksData 11 0xFF ∧
      HasHalf s.jacksData 14 0xFFFF) ∧
    ∀ j : JackId,
      (s.work.jackPresent j = true → HasByte s.jacksData (19 + 4 * j.val) (1 + bitAt (s.work.jk j).valid 1 +
        bitAt (s.work.jk j).grounded 2 + bitAt (s.work.jk j).retracted 3 + bitAt (s.work.jk j).atLimit 4 +
        bitAt (s.work.jk j).fenced 5) ∧ HasHalf s.jacksData (20 + 4 * j.val) (s.work.jk j).stroke) ∧
      (s.work.jackPresent j = false → HasHalf s.jacksData (18 + 4 * j.val) 0 ∧ HasHalf s.jacksData (20 + 4 * j.val) 0) := by
  have hplaces : ∀ j : JackId, ∀ i : Fin 4, s.jacksData[18 + 4 * j.val + i.val]? = (s.work.jackData j)[i.val]? := fun j i => by
    simp only [jacksData_eq, jackData_eq]
    match j, i with
    | 0, 0 | 0, 1 | 0, 2 | 0, 3 | 1, 0 | 1, 1 | 1, 2 | 1, 3 | 2, 0 | 2, 1 | 2, 2 | 2, 3 | 3, 0 | 3, 1 | 3, 2 | 3, 3
    | 4, 0 | 4, 1 | 4, 2 | 4, 3 | 5, 0 | 5, 1 | 5, 2 | 5, 3 => rfl
  have h0 (j : JackId) : s.jacksData[18 + 4 * j.val]? = _ := hplaces j 0
  have h1 (j : JackId) : s.jacksData[19 + 4 * j.val]? = _ := (congrArg (s.jacksData[·]?) (by omega)).trans (hplaces j 1)
  have h2 (j : JackId) : s.jacksData[20 + 4 * j.val]? = _ := (congrArg (s.jacksData[·]?) (by omega)).trans (hplaces j 2)
  have h3 (j : JackId) : s.jacksData[20 + 4 * j.val + 1]? = _ := (congrArg (s.jacksData[·]?) (by omega)).trans (hplaces j 3)
  refine ⟨rfl, rfl, rfl, at16_of rfl rfl, fun ha => ?_, fun j => ⟨fun hp => ?_, fun hp => ?_⟩⟩
  · rw [jacksData_eq, jacksHead, activityBytes, ha]
    exact ⟨rfl, rfl, rfl, at16_of (n := 0xFFFF) rfl rfl⟩
  · have hj := jackData_eq s.work j
    simp only [hp, if_true] at hj
    refine ⟨.of_flags ((h1 j).trans (by rw [hj]; rfl)) (flags_six true ..), at16_of ((h2 j).trans ?_) ((h3 j).trans ?_)⟩
    · rw [hj]; rfl
    · rw [hj]; rfl
  · have hj := jackData_eq s.work j
    simp only [hp, Bool.false_eq_true, if_false] at hj
    have hz (i : Fin 4) : (s.work.jackData j)[i.val]? = some 0 := by rw [hj]; revert i; decide
    refine ⟨⟨(h0 j).trans (hz 0), ?_⟩, (h2 j).trans (hz 2), (h3 j).trans (hz 3)⟩
    exact (congrArg (s.jacksData[·]?) (by omega)).trans ((h1 j).trans (hz 1))

theorem levelBytes (s : State) : HasSigned s.levelData 4 s.work.tilt.tx ∧ HasSigned s.levelData 6 s.work.tilt.ty ∧
    HasSigned s.levelData 12 s.work.tilt.p ∧ HasSigned s.levelData 14 s.work.tilt.q ∧
    HasByte s.levelData 44 s.work.lvl.levelRun ∧
    (∀ j : JackId, s.work.lvl.heights[j] = none → HasHalf s.levelData (19 + 2 * j.val) 0x8000) ∧
    (∀ j : JackId, ∀ v, s.work.lvl.demands[j] = some v → HasHalf s.levelData (31 + 2 * j.val) v) := by
  have hheight : ∀ j : JackId, s.levelData[19 + 2 * j.val]? = some (loByte (halfOptS s.work.lvl.heights[j])) ∧
      s.levelData[19 + 2 * j.val + 1]? = some (hiByte (halfOptS s.work.lvl.heights[j])) := fun j => by
    rw [levelData_eq]
    match j with
    | 0 | 1 | 2 | 3 | 4 | 5 => exact ⟨rfl, rfl⟩
  have hdemand : ∀ j : JackId, s.levelData[31 + 2 * j.val]? = some (loByte (halfOpt s.work.lvl.demands[j])) ∧
      s.levelData[31 + 2 * j.val + 1]? = some (hiByte (halfOpt s.work.lvl.demands[j])) := fun j => by
    rw [levelData_eq]
    match j with
    | 0 | 1 | 2 | 3 | 4 | 5 => exact ⟨rfl, rfl⟩
  refine ⟨?_, ?_, ?_, ?_, ?_, fun j hj => ?_, fun j v hj => ?_⟩
  · rw [levelData_eq]; exact signed_of rfl rfl
  · rw [levelData_eq]; exact signed_of rfl rfl
  · rw [levelData_eq]; exact signed_of rfl rfl
  · rw [levelData_eq]; exact signed_of rfl rfl
  · rw [levelData_eq]; rfl
  · obtain ⟨hlo, hhi⟩ := hheight j
    rw [hj] at hlo hhi
    exact at16_of (n := 0x8000) hlo hhi
  · obtain ⟨hlo, hhi⟩ := hdemand j
    rw [hj] at hlo hhi
    exact at16_of hlo hhi

theorem windBytes {s : State} {c : ChanId} (hc : (s.work.mv awn).leader = some c) :
    HasHalf s.windData 1 s.work.wind.speed ∧ HasHalf s.windData 3 s.work.wind.count ∧
      HasByte s.windData 5 s.work.wind.gustRun ∧ HasByte s.windData 14 c.val ∧ HasSigned s.windData 26 (s.work.ch c).pos ∧
      HasByte s.windData 28 (if (s.work.ch c).known then 0 else 1) := by
  rw [windData_eq hc]
  exact ⟨at16_of rfl rfl, at16_of rfl rfl, rfl, rfl, signed_of rfl rfl, rfl⟩

theorem supplyBytes (s : State) : HasHalf s.supplyData 0 s.work.sup.voltage ∧
    HasByte s.supplyData 3 (bitAt s.work.sup.low 0 + bitAt s.work.sup.high 1 + bitAt s.work.latchPolicy 2 +
      bitAt s.work.sup.tripped 3) ∧
    HasByte s.supplyData 4 (bitAt s.work.sup.low 0 + bitAt s.work.sup.high 1) ∧ HasHalf s.supplyData 17 s.work.sup.busSum ∧
    HasHalf s.supplyData 22 s.work.budget ∧ HasHalf s.supplyData 24 s.work.bud.sum ∧
    HasHalf s.supplyData 26 (s.work.budget - s.work.bud.sum) := by
  rw [supplyData_eq]
  exact ⟨at16_of rfl rfl, .of_flags rfl (flags_four ..), congrArg some (supplyCode_eq _ _), at16_of rfl rfl, at16_of rfl rfl,
    at16_of rfl rfl, at16_of rfl rfl⟩

theorem queueBytes (s : State) : HasHalf s.queueData 0 s.work.budget ∧ HasHalf s.queueData 2 s.work.bud.sum ∧
    HasByte s.queueData 4 s.work.queueLimit ∧ HasByte s.queueData 6 s.work.bud.admitted.length ∧
    ∀ a rest, s.work.bud.admitted = a :: rest → HasByte s.queueData 8 a.draw ∧
      HasHalf s.queueData 9 ((s.work.now - a.since) / 1000) := by
  refine ⟨at16_of rfl rfl, at16_of rfl rfl, rfl, rfl, fun a rest h => ?_⟩
  have hentries : s.work.bud.admitted.flatMap s.work.admittedData =
      s.work.admittedData a ++ rest.flatMap s.work.admittedData := by rw [h, List.flatMap_cons]
  rw [queueData_eq, hentries, admittedData_eq]
  exact ⟨rfl, at16_of rfl rfl⟩

/-- Settles O18: the answers line by line, the lengths of the layouts, and the bytes at their places. -/
theorem queriesAnswerAndChangeNothing : Obligations.QueriesAnswerAndChangeNothing := by
  unfold Obligations.QueriesAnswerAndChangeNothing
  refine ⟨fun s tag ht => queries_answer tag ht, layout_lengths, fun s => ?_⟩
  intro w at8 at16 signed bit
  exact ⟨identBytes s, postureBytes s, channelBytes w, roomBytes w, jacksBytes s, levelBytes s, windData_absent,
    fun c hc => windBytes hc, supplyBytes s, queueBytes s⟩

end Sys2Proof.Machine
end

