-- ==== Sys2Proof/Proofs/HydLaw.lean ====
section
/-! PROOF. The law of the hydraulic circuit for the operations on pump, activity, jacks and procedure. An activity is sound by
itself (`Formed`), and pump, procedure and queue serve it (`Serves`); a running procedure passes from phase to phase
(`LevelRuns`). With the law goes that a pump that is not OFF starts in no direction (`Steady`). -/

namespace Sys2Proof.Machine

set_option Elab.async false

open Sys2Proof.Safety

/-! ## The law in parts -/

/-- The law of the hydraulic circuit, at the blocks. -/
def HydLaw (w : Work) : Prop := HydraulicLaw { work := w }

/-- Nothing is pumped, pending or queued. -/
structure NoPumping (w : Work) : Prop where
  pump : w.hyd.pump ≠ .running
  start : w.hyd.pendingStart = false
  waits : w.bud.waits = 0

/-- What an activity is by itself. -/
structure Formed (w : Work) (a : HydActivity) : Prop where
  loaded : w.stage.loaded = true
  sets : SoundSets w a
  level : a.kind = .level → a.dir = .outward
  stow : a.kind = .stow → a.dir = .inward
  lease : a.lease.isSome = true → a.kind = .manual

/-- Pump, procedure and queue serve an activity. -/
structure Serves (w : Work) (a : HydActivity) : Prop extends Formed w a where
  pump : PumpServes w.hyd a
  proc : ProcedureServed w a
  waits : w.bud.waits ≠ 0 → a.phase = .waiting
  one : w.bud.waits ≤ 1

theorem isQueued_hyd (w : Work) : w.isQueued hydTarget = true ↔ w.bud.waits ≠ 0 := by
  simp [Work.isQueued, Budget.waits]

theorem hydLaw_iff (w : Work) : HydLaw w ↔ (w.hyd.activity = none ∧ NoPumping w ∧ w.lvl.phase = .idle) ∨
    ∃ a, w.hyd.activity = some a ∧ Serves w a := by
  have hq : w.isQueued hydTarget = false ↔ w.bud.waits = 0 := by
    rw [← Bool.not_eq_true, isQueued_hyd, not_not]
  constructor
  · rintro ⟨hnone, hsome, hone⟩
    cases ha : w.hyd.activity with
    | none =>
      obtain ⟨hp, hs, hw, hl⟩ := hnone ha
      exact .inl ⟨rfl, ⟨hp, hs, hq.1 hw⟩, hl⟩
    | some a =>
      obtain ⟨h₁, h₂, h₃, h₄, h₅, h₆, h₇, h₈⟩ := hsome a ha
      exact .inr ⟨a, rfl, ⟨h₁, h₂, h₅, h₆, h₇⟩, h₃, h₄, fun h => h₈ ((isQueued_hyd w).2 h), hone⟩
  · rintro (⟨ha, ⟨hp, hs, hw⟩, hl⟩ | ⟨a, ha, h⟩)
    · exact ⟨fun _ => ⟨hp, hs, hq.2 hw, hl⟩, fun a e => (nomatch ha.symm.trans e), Nat.le_trans (Nat.le_of_eq hw) (Nat.zero_le 1)⟩
    · refine ⟨fun e => (nomatch ha.symm.trans e), fun b e => ?_, h.one⟩
      cases ha.symm.trans e
      exact ⟨h.loaded, h.sets, h.pump, h.proc, h.level, h.stow, h.lease, fun hw => h.waits ((isQueued_hyd w).1 hw)⟩

theorem HydLaw.of_none {w : Work} (ha : w.hyd.activity = none) (h : NoPumping w) (hl : w.lvl.phase = .idle) : HydLaw w :=
  (hydLaw_iff w).2 (.inl ⟨ha, h, hl⟩)

theorem HydLaw.of_serves {w : Work} {a : HydActivity} (ha : w.hyd.activity = some a) (h : Serves w a) : HydLaw w :=
  (hydLaw_iff w).2 (.inr ⟨a, ha, h⟩)

theorem HydLaw.none {w : Work} (h : HydLaw w) (ha : w.hyd.activity = none) : NoPumping w ∧ w.lvl.phase = .idle := by
  rcases (hydLaw_iff w).1 h with ⟨-, h⟩ | ⟨a, e, -⟩
  · exact h
  · rw [ha] at e; cases e

theorem HydLaw.serves {w : Work} (h : HydLaw w) {a : HydActivity} (ha : w.hyd.activity = some a) : Serves w a := by
  rcases (hydLaw_iff w).1 h with ⟨e, -⟩ | ⟨b, e, hb⟩
  · rw [ha] at e; cases e
  · cases ha.symm.trans e; exact hb

/-- A part that works on something has an activity. -/
theorem HydLaw.activity {w : Work} (h : HydLaw w) (hw : w.lvl.phase ≠ .idle ∨ w.bud.waits ≠ 0) :
    ∃ a, w.hyd.activity = some a := by
  cases ha : w.hyd.activity with
  | some a => exact ⟨a, rfl⟩
  | none =>
    obtain ⟨hn, hl⟩ := h.none ha
    rcases hw with hw | hw
    · exact absurd hl hw
    · exact absurd hn.waits hw

/-! ## A pump that is not OFF -/

/-- A pump that dwells goes on dwelling, or has begun to dwell no earlier than now. -/
def Dwells (w z : Work) : Prop :=
  z.hyd.pump = .dwell ∧
    (w.hyd.pump = .dwell ∧ z.hyd.dwellEnd = w.hyd.dwellEnd ∨ ∃ t, z.hyd.dwellEnd = some t ∧ w.now < t)

/-- A pump that runs on goes in the direction it had. -/
def RunsOn (w z : Work) : Prop := z.hyd.pump = .running ∧ w.hyd.pump = .running ∧ z.hyd.pdir = w.hyd.pdir

/-- A pump that is not OFF stops to dwell or goes on as it was, and the clock does not go back. -/
structure Steady (w z : Work) : Prop where
  clock : w.now ≤ z.now
  pump : w.hyd.pump ≠ .off → Dwells w z ∨ z.hyd.pump = .rest ∧ w.hyd.pump = .rest ∨ RunsOn w z

theorem Steady.of_eq {w z : Work} (hp : z.hyd.pump = w.hyd.pump) (hd : z.hyd.pdir = w.hyd.pdir)
    (he : z.hyd.dwellEnd = w.hyd.dwellEnd := by rfl) (hn : w.now ≤ z.now := by exact Nat.le_refl _) : Steady w z := by
  refine ⟨hn, fun h => ?_⟩
  cases hw : w.hyd.pump
  · exact absurd hw h
  · exact .inr (.inr ⟨hp.trans hw, hw, hd⟩)
  · exact .inl ⟨hp.trans hw, .inl ⟨hw, he⟩⟩
  · exact .inr (.inl ⟨hp.trans hw, rfl⟩)

theorem Steady.refl (w : Work) : Steady w w := .of_eq rfl rfl

theorem Dwells.trans {w z u : Work} (h₁ : Dwells w z) (hn : w.now ≤ z.now) (h₂ : Dwells z u) : Dwells w u := by
  obtain ⟨hu, ⟨-, he⟩ | ⟨t, ht, hlt⟩⟩ := h₂
  · obtain ⟨-, ⟨hw, he'⟩ | ⟨t, ht, hlt⟩⟩ := h₁
    · exact ⟨hu, .inl ⟨hw, he.trans he'⟩⟩
    · exact ⟨hu, .inr ⟨t, he.trans ht, hlt⟩⟩
  · exact ⟨hu, .inr ⟨t, ht, Nat.lt_of_le_of_lt hn hlt⟩⟩

theorem Steady.trans {w z u : Work} (h₁ : Steady w z) (h₂ : Steady z u) : Steady w u := by
  refine ⟨Nat.le_trans h₁.clock h₂.clock, fun h => ?_⟩
  rcases h₁.pump h with hz | ⟨hz, hw⟩ | ⟨hz, hw, hd⟩
  · rcases h₂.pump (by rw [hz.1]; decide) with hu | ⟨-, hr⟩ | ⟨-, hr, -⟩
    · exact .inl (hz.trans h₁.clock hu)
    · exact nomatch hz.1.symm.trans hr
    · exact nomatch hz.1.symm.trans hr
  · rcases h₂.pump (by rw [hz]; decide) with ⟨hu, ⟨hr, -⟩ | ⟨t, ht, hlt⟩⟩ | ⟨hu, -⟩ | ⟨-, hr, -⟩
    · exact nomatch hz.symm.trans hr
    · exact .inl ⟨hu, .inr ⟨t, ht, Nat.lt_of_le_of_lt h₁.clock hlt⟩⟩
    · exact .inr (.inl ⟨hu, hw⟩)
    · exact nomatch hz.symm.trans hr
  · rcases h₂.pump (by rw [hz]; decide) with ⟨hu, ⟨hr, -⟩ | ⟨t, ht, hlt⟩⟩ | ⟨-, hr⟩ | ⟨hu, -, hd'⟩
    · exact nomatch hz.symm.trans hr
    · exact .inl ⟨hu, .inr ⟨t, ht, Nat.lt_of_le_of_lt h₁.clock hlt⟩⟩
    · exact nomatch hz.symm.trans hr
    · exact .inr (.inr ⟨hu, hw, hd'.trans hd⟩)

/-- A pump that is not OFF dwells, rests, or runs on. -/
def Slowed (w z : Work) : Prop := w.hyd.pump ≠ .off → z.hyd.pump = .dwell ∨ z.hyd.pump = .rest ∨ RunsOn w z

theorem Steady.slowed {w z : Work} (h : Steady w z) : Slowed w z := by
  intro hw
  rcases h.pump hw with ⟨hz, -⟩ | ⟨hz, -⟩ | hz
  · exact .inl hz
  · exact .inr (.inl hz)
  · exact .inr (.inr hz)

theorem Slowed.trans {w z u : Work} (h₁ : Slowed w z) (h₂ : Slowed z u) : Slowed w u := by
  intro hw
  have hz : z.hyd.pump ≠ .off := by
    rcases h₁ hw with hz | hz | ⟨hz, -⟩ <;> rw [hz] <;> decide
  rcases h₂ hz with hu | hu | ⟨hu, hz', hd⟩
  · exact .inl hu
  · exact .inr (.inl hu)
  · rcases h₁ hw with e | e | ⟨-, hw', hd'⟩
    · exact nomatch e.symm.trans hz'
    · exact nomatch e.symm.trans hz'
    · exact .inr (.inr ⟨hu, hw', hd.trans hd'⟩)

/-- The law and the steady pump, after an operation. -/
structure HydGood (w z : Work) : Prop where
  law : HydLaw z
  steady : Steady w z

theorem HydGood.refl {w : Work} (h : HydLaw w) : HydGood w w := ⟨h, .refl w⟩

theorem HydGood.trans {w z u : Work} (h₁ : HydGood w z) (h₂ : HydLaw z → HydGood z u) : HydGood w u :=
  ⟨(h₂ h₁.law).law, h₁.steady.trans (h₂ h₁.law).steady⟩

/-- The blocks around the circuit stand as they were. -/
structure SamePart (w z : Work) : Prop where
  jacks : ∀ j, (z.jk j).fenced = (w.jk j).fenced ∧ (z.jk j).fault = (w.jk j).fault
  base : z.base = w.base

theorem SamePart.of_eq {w z : Work} (hj : z.jacks = w.jacks) (hb : z.base = w.base) : SamePart w z :=
  ⟨fun j => by simp [Work.jk, hj], hb⟩

theorem SamePart.loaded {w z : Work} (h : SamePart w z) : z.stage.loaded = w.stage.loaded := by
  have : z.stage = w.stage := congrArg Prod.fst h.base
  rw [this]

theorem jackPresent_of_base {w z : Work} (h : z.base = w.base) (j : JackId) : z.jackPresent j = w.jackPresent j := by
  have hc : z.store.coach = w.store.coach := congrArg (·.2.2.2) h
  rw [Work.jackPresent, Work.jackPresent, Work.jackCount, Work.jackCount, Work.coach, Work.coach, hc]

theorem Formed.same {w z : Work} {a : HydActivity} (h : Formed w a) (hs : SamePart w z) : Formed z a := by
  refine ⟨hs.loaded.trans h.loaded, fun j => ⟨(h.sets j).1, fun hj => ?_⟩, h.level, h.stow, h.lease⟩
  rw [jackPresent_of_base hs.base, (hs.jacks j).1, (hs.jacks j).2]
  exact (h.sets j).2 hj

/-- What leaves the circuit and the parts around it leaves the law. -/
theorem hydGood_of_wet {w z : Work} (h : HydLaw w) (hw : z.wet = w.wet) (hb : z.base = w.base)
    (hn : w.now ≤ z.now := by exact Nat.le_refl _) : HydGood w z := by
  have hh : z.hyd = w.hyd := congrArg Wet.hyd hw
  have hl : z.lvl = w.lvl := congrArg Wet.lvl hw
  have hq : z.bud.waits = w.bud.waits := congrArg Wet.waits hw
  have hs : SamePart w z := .of_eq (congrArg Wet.jacks hw) hb
  refine ⟨?_, .of_eq (by rw [hh]) (by rw [hh]) (by rw [hh]) hn⟩
  rcases (hydLaw_iff w).1 h with ⟨ha, hn, hi⟩ | ⟨a, ha, hv⟩
  · exact .of_none (hh ▸ ha) ⟨hh ▸ hn.pump, hh ▸ hn.start, hq ▸ hn.waits⟩ (hl ▸ hi)
  · exact .of_serves (hh ▸ ha) ⟨hv.toFormed.same hs, hh ▸ hv.pump, by simpa only [ProcedureServed, hl, hh] using hv.proc,
      by rw [hq]; exact hv.waits, hq ▸ hv.one⟩

/-- An operation on rooms and awning. -/
theorem hydGood_of_still {w z : Work} (h : HydLaw w) (hw : z.wet = w.wet) (hs : z.still = w.still) : HydGood w z :=
  hydGood_of_wet h hw (base_of_still hs) (Nat.le_of_eq (now_of_still hs).symm)

/-! ## The end of an activity (R61, R66) -/

/-- What a pump stop does: a running pump stops, a pending start is dropped, or nothing. -/
theorem Work.pumpStop_cases (w : Work) (b : Bool) :
    (w.hyd.pump = .running ∧ ∃ h : Hyd, (h.pump = if b then .rest else .dwell) ∧
      (b = false → h.dwellEnd = some (w.now + Config.pumpDwell)) ∧ h.activity = w.hyd.activity ∧ h.pendingStart = w.hyd.pendingStart ∧ w.pumpStop b = Work.release { w with hyd := h } hydTarget) ∨
    (w.hyd.pump = .dwell ∧ w.hyd.pendingStart = true ∧
      w.pumpStop b = Work.release { w with hyd := { w.hyd with pendingStart := false } } hydTarget) ∨
    (w.hyd.pump ≠ .running ∧ (w.hyd.pump = .dwell → w.hyd.pendingStart = false) ∧ w.pumpStop b = w) := by
  cases hp : w.hyd.pump
  case running =>
    refine .inl ⟨rfl, ?_⟩
    simp only [Work.pumpStop, hp]
    exact ⟨_, by cases b <;> rfl, by rintro rfl; rfl, by cases b <;> rfl, by cases b <;> rfl, rfl⟩
  case dwell =>
    cases hs : w.hyd.pendingStart
    · exact .inr (.inr ⟨by decide, fun _ => rfl, by simp [Work.pumpStop, hp, hs]⟩)
    · exact .inr (.inl ⟨rfl, rfl, by simp [Work.pumpStop, hp, hs]⟩)
  all_goals exact .inr (.inr ⟨by decide, (nomatch ·), by simp [Work.pumpStop, hp]⟩)

/-- The state a pump stop leaves, when it served an activity. -/
structure Stopped (b : Bool) (w z : Work) : Prop where
  pump : z.hyd.pump ≠ .running
  start : z.hyd.pendingStart = false
  activity : z.hyd.activity = w.hyd.activity
  lvl : z.lvl = w.lvl
  waits : z.bud.waits = w.bud.waits
  same : SamePart w z
  slowed : Slowed w z
  steady : b = false → Steady w z
  dwell : b = false → w.hyd.pump = .running → z.hyd.pump = .dwell

theorem Work.pumpStop_stopped {w : Work} {a : HydActivity} (hs : PumpServes w.hyd a) (b : Bool) :
    Stopped b w (w.pumpStop b) := by
  obtain ⟨hidle, hrun⟩ := hs
  have hrunning : w.hyd.pump = .running → w.hyd.pendingStart = false := by
    intro hp
    by_cases hph : a.phase = .running
    · rcases hrun hph with ⟨-, h, -⟩ | ⟨h, -⟩
      · exact h
      · rw [hp] at h; cases h
    · exact (hidle hph).2
  have hother : w.hyd.pump ≠ .running → w.hyd.pump ≠ .dwell → w.hyd.pendingStart = false := by
    intro h₁ h₂
    by_cases hph : a.phase = .running
    · rcases hrun hph with ⟨h, -⟩ | ⟨h, -⟩
      · exact absurd h h₁
      · exact absurd h h₂
    · exact (hidle hph).2
  rcases w.pumpStop_cases b with ⟨hp, h, hh, he, ha, hst, e⟩ | ⟨hp, hst, e⟩ | ⟨hp, hd, e⟩ <;> rw [e]
  · have hne : h.pump ≠ .running := by rw [hh]; split <;> decide
    refine ⟨hne, hst.trans (hrunning hp), ha, rfl, rfl, .of_eq rfl rfl, fun _ => ?_, fun hb => ⟨Nat.le_refl _, fun _ => ?_⟩,
      fun hb _ => ?_⟩
    · show h.pump = _ ∨ h.pump = _ ∨ _
      rw [hh]
      cases b
      · exact .inl rfl
      · exact .inr (.inl rfl)
    · exact .inl ⟨by subst hb; exact hh, .inr ⟨_, he hb, Nat.lt_add_of_pos_right (by decide)⟩⟩
    · subst hb; exact hh
  · have hpump : w.hyd.pump ≠ .running := by rw [hp]; decide
    exact ⟨hpump, rfl, rfl, rfl, rfl, .of_eq rfl rfl, fun _ => .inl hp, fun _ => .of_eq rfl rfl,
      fun _ h => absurd h hpump⟩
  · refine ⟨hp, ?_, rfl, rfl, rfl, .of_eq rfl rfl, (Steady.refl w).slowed, fun _ => .refl w, fun _ h => absurd h hp⟩
    by_cases hdw : w.hyd.pump = .dwell
    · exact hd hdw
    · exact hother hp hdw

/-- The state the end of an activity leaves: nothing works, and the procedure stands as it was. -/
structure Ended (b : Bool) (w z : Work) : Prop where
  idle : NoPumping z
  activity : z.hyd.activity = none
  lvl : z.lvl = w.lvl
  same : SamePart w z
  slowed : Slowed w z
  steady : b = false → Steady w z

theorem Work.dequeue_hyd_waits (w : Work) : (w.dequeue hydTarget).bud.waits = 0 := by
  simp [Work.dequeue, Budget.waits]

theorem Work.unqueued_eq (w : Work) : ∃ (b : Budget) (d : Bool),
    (if w.isQueued hydTarget then w.dequeue hydTarget else w) = { w with bud := b, headDue := d } ∧ b.waits = 0 := by
  by_cases h : w.isQueued hydTarget = true
  · exact ⟨(w.dequeue hydTarget).bud, true, by rw [if_pos h]; rfl, w.dequeue_hyd_waits⟩
  · exact ⟨w.bud, w.headDue, by rw [if_neg h], not_not.1 fun e => h ((isQueued_hyd w).2 e)⟩

theorem Work.endActivity_ended {w : Work} {a : HydActivity} (ha : w.hyd.activity = some a) (hs : PumpServes w.hyd a)
    (o : EndOutcome) (b : Bool) : Ended b w (w.endActivity o b) := by
  have hst := w.pumpStop_stopped hs b
  obtain ⟨bud, d, hu, hw⟩ := (w.pumpStop b).unqueued_eq
  simp only [Work.endActivity, ha]
  rw [hu]
  generalize w.pumpStop b = z at hst
  split
  all_goals exact ⟨⟨hst.pump, hst.start, hw⟩, rfl, hst.lvl, ⟨hst.same.jacks, hst.same.base⟩, fun h => hst.slowed h,
    fun hb => (hst.steady hb).trans (.of_eq rfl rfl)⟩

theorem Ended.law {b : Bool} {w z : Work} (h : Ended b w z) (hl : w.lvl.phase = .idle) : HydLaw z :=
  .of_none h.activity h.idle (h.lvl ▸ hl)

theorem Work.endActivity_law {w : Work} (h : HydLaw w) (hl : w.lvl.phase = .idle) (o : EndOutcome) (b : Bool) :
    HydLaw (w.endActivity o b) ∧ Slowed w (w.endActivity o b) ∧ (b = false → Steady w (w.endActivity o b)) := by
  cases ha : w.hyd.activity with
  | none => simp only [Work.endActivity, ha]; exact ⟨h, (Steady.refl w).slowed, fun _ => .refl w⟩
  | some a =>
    have he := Work.endActivity_ended ha (h.serves ha).pump o b
    exact ⟨he.law hl, he.slowed, he.steady⟩

theorem Work.endLevel_law {w : Work} (h : HydLaw w) (o : EndOutcome) (b : Bool) :
    HydLaw (w.endLevel o b) ∧ Slowed w (w.endLevel o b) ∧ (b = false → Steady w (w.endLevel o b)) := by
  by_cases hl : w.lvl.phase = .idle
  · simp only [Work.endLevel, hl, if_true]; exact ⟨h, (Steady.refl w).slowed, fun _ => .refl w⟩
  · obtain ⟨a, ha⟩ := h.activity (.inl hl)
    have he := Work.endActivity_ended ha (h.serves ha).pump o b
    simp only [Work.endLevel, hl, if_false]
    generalize w.endActivity o b = z at he
    exact ⟨.of_none he.activity ⟨he.idle.pump, he.idle.start, he.idle.waits⟩ rfl, fun hp => he.slowed hp,
      fun hb => (he.steady hb).trans (.of_eq rfl rfl)⟩

/-- The end of whatever the circuit works on. -/
theorem Work.endWork_law {w : Work} (h : HydLaw w) (o : EndOutcome) (b : Bool) {z : Work}
    (hz : z = if w.lvl.phase ≠ .idle then w.endLevel o b else w.endActivity o b) :
    HydLaw z ∧ Slowed w z ∧ (b = false → Steady w z) := by
  subst hz
  split
  · exact Work.endLevel_law h o b
  · next hl => exact Work.endActivity_law h (not_not.1 hl) o b

theorem Work.endActivity_good {w : Work} (h : HydLaw w) (hl : w.lvl.phase = .idle) (o : EndOutcome) :
    HydGood w (w.endActivity o false) := by
  obtain ⟨hlaw, -, hsteady⟩ := Work.endActivity_law h hl o false
  exact ⟨hlaw, hsteady rfl⟩

theorem Work.endLevel_good {w : Work} (h : HydLaw w) (o : EndOutcome) : HydGood w (w.endLevel o false) := by
  obtain ⟨hlaw, -, hsteady⟩ := Work.endLevel_law h o false
  exact ⟨hlaw, hsteady rfl⟩

theorem Work.endWork_good {w : Work} (h : HydLaw w) (o : EndOutcome) :
    HydGood w (if w.lvl.phase ≠ .idle then w.endLevel o false else w.endActivity o false) := by
  obtain ⟨hlaw, -, hsteady⟩ := Work.endWork_law h o false rfl
  exact ⟨hlaw, hsteady rfl⟩

end Sys2Proof.Machine
end

