-- ==== Sys2Proof/Proofs/HydPhases.lean ====
section
/-! PROOF. The law of the hydraulic circuit for the phases of the procedure, the jacks that leave an activity, the pump start and
the admission of its run. -/

namespace Sys2Proof.Machine

set_option Elab.async false

open Sys2Proof.Safety

/-! ## The phases of a running procedure (R105..R113) -/

/-- A procedure's run of the pump goes on. -/
structure LevelRuns (w : Work) (a : HydActivity) : Prop where
  activity : w.hyd.activity = some a
  formed : Formed w a
  kind : a.kind = .level
  phase : a.phase = .running
  pump : w.hyd.pump = .running
  start : w.hyd.pendingStart = false
  pdir : w.hyd.pdir = .outward
  waits : w.bud.waits = 0

/-- TOUCHDOWN, LEVELLING and STABILIZE. -/
def LevelPhase.pumps (p : LevelPhase) : Prop := p = .touchdown ∨ p = .levelling ∨ p = .stabilize

theorem LevelRuns.law {w : Work} {a : HydActivity} (h : LevelRuns w a) (hp : w.lvl.phase.pumps) : HydLaw w := by
  refine .of_serves h.activity ⟨h.formed, ⟨fun e => absurd h.phase e, fun _ => .inl ⟨h.pump, h.start, ?_⟩⟩,
    ⟨?_, ?_, ?_, fun _ => h.pump⟩, fun e => absurd h.waits e, by rw [h.waits]; exact Nat.zero_le 1⟩
  · rw [h.pdir, h.formed.level h.kind]
  · rw [h.kind]
    rcases hp with hp | hp | hp <;> simp [hp]
  · rw [h.phase]
    rcases hp with hp | hp | hp <;> simp [hp]
  · rcases hp with hp | hp | hp <;> simp [hp]

theorem HydLaw.levelRuns {w : Work} (h : HydLaw w) (hp : w.lvl.phase.pumps) : ∃ a, LevelRuns w a := by
  have hne : w.lvl.phase ≠ .idle := by rcases hp with hp | hp | hp <;> rw [hp] <;> decide
  obtain ⟨a, ha⟩ := h.activity (.inl hne)
  have hs := h.serves ha
  obtain ⟨hkind, -, -, hpump⟩ := hs.proc
  have hk : a.kind = .level := by
    by_contra hk
    exact hne (hkind.2 hk)
  have hr := hpump hp
  have hph : a.phase = .running := by
    by_contra hph
    rcases (hs.pump.1 hph).1 with e | e <;> rw [hr] at e <;> cases e
  rcases hs.pump.2 hph with ⟨-, hst, hd⟩ | ⟨e, -⟩
  · refine ⟨a, ha, hs.toFormed, hk, hph, hr, hst, hd.trans (hs.level hk), ?_⟩
    by_contra hw
    have := hs.waits hw
    rw [hph] at this
    cases this
  · rw [hr] at e; cases e

theorem LevelRuns.steady {w z : Work} {a b : HydActivity} (hw : LevelRuns w a) (hz : LevelRuns z b)
    (hn : w.now ≤ z.now := by exact Nat.le_refl _) : Steady w z :=
  ⟨hn, fun _ => .inr (.inr ⟨hz.pump, hw.pump, hz.pdir.trans hw.pdir.symm⟩)⟩

/-- What leaves pump, activity, queue and jacks leaves a running procedure. -/
theorem LevelRuns.same {w z : Work} {a : HydActivity} (h : LevelRuns w a) (hh : z.hyd = w.hyd) (hb : z.bud = w.bud)
    (hs : SamePart w z) : LevelRuns z a := by
  obtain ⟨h₁, h₂, h₃, h₄, h₅, h₆, h₇, h₈⟩ := h
  rw [← hh] at h₁ h₅ h₆ h₇
  rw [← hb] at h₈
  exact ⟨h₁, h₂.same hs, h₃, h₄, h₅, h₆, h₇, h₈⟩

theorem LevelRuns.enterPhase {w : Work} {a : HydActivity} (h : LevelRuns w a) (l : Level) : LevelRuns (w.enterPhase l) a :=
  h.same rfl rfl (.of_eq rfl rfl)

theorem Formed.withOpen {w : Work} {a : HydActivity} (h : Formed w a) (s : JackSet) (p : ActPhase) :
    Formed w { a with openSet := s.inter a.jackSet, phase := p } := by
  refine ⟨h.loaded, fun j => ⟨fun hj => ?_, (h.sets j).2⟩, h.level, h.stow, h.lease⟩
  rw [JackSet.has_inter, Bool.and_eq_true] at hj
  exact hj.2

theorem LevelRuns.setOpen {w : Work} {a : HydActivity} (h : LevelRuns w a) (s : JackSet) :
    LevelRuns (w.setOpen s) { a with openSet := s.inter a.jackSet } := by
  refine ⟨?_, ?_, h.kind, h.phase, h.pump, h.start, h.pdir, h.waits⟩
  · simp [Work.setOpen, h.activity]
  · have hf := h.formed.withOpen s a.phase
    exact hf.same (z := w.setOpen s) (.of_eq rfl rfl)

/-- SETTLING, after the pump has stopped (R111). -/
def Work.settleFrom (z : Work) : Work :=
  ((z.setOpen noJacks).setActPhase .idlePump).enterPhase
    { z.lvl with phase := .settling, settleTest := some .waiting, deadline := some (z.now + z.settleTime) }

theorem Work.enterSettling_from (w : Work) : w.enterSettling = (w.pumpStop false).settleFrom := rfl

theorem Work.settleFrom_hyd {z : Work} {a : HydActivity} (h : z.hyd.activity = some a) : z.settleFrom.hyd =
    { z.hyd with activity := some { a with openSet := noJacks.inter a.jackSet, phase := .idlePump } } := by
  have h1 : z.settleFrom.hyd = ((z.setOpen noJacks).setActPhase .idlePump).hyd := rfl
  rw [h1]
  simp only [Work.setActPhase, Work.setOpen, h, Option.map_some]

theorem Work.settleFrom_parts (z : Work) : z.settleFrom.bud = z.bud ∧ z.settleFrom.lvl.phase = .settling ∧
    z.settleFrom.base = z.base ∧ z.settleFrom.jacks = z.jacks := by
  have hphase (y : Work) (l : Level) : (y.enterPhase l).bud = y.bud ∧ (y.enterPhase l).lvl = l ∧
      (y.enterPhase l).base = y.base ∧ (y.enterPhase l).jacks = y.jacks := ⟨rfl, rfl, rfl, rfl⟩
  have hact (y : Work) (p : ActPhase) : (y.setActPhase p).bud = y.bud ∧ (y.setActPhase p).base = y.base ∧
      (y.setActPhase p).jacks = y.jacks := ⟨rfl, rfl, rfl⟩
  have hopen (y : Work) (s : JackSet) : (y.setOpen s).bud = y.bud ∧ (y.setOpen s).base = y.base ∧
      (y.setOpen s).jacks = y.jacks := ⟨rfl, rfl, rfl⟩
  obtain ⟨hb, hl, hs, hj⟩ := hphase ((z.setOpen noJacks).setActPhase .idlePump)
    { z.lvl with phase := .settling, settleTest := some .waiting, deadline := some (z.now + z.settleTime) }
  obtain ⟨hb1, hs1, hj1⟩ := hact (z.setOpen noJacks) .idlePump
  obtain ⟨hb2, hs2, hj2⟩ := hopen z noJacks
  exact ⟨hb.trans (hb1.trans hb2), congrArg Level.phase hl, hs.trans (hs1.trans hs2), hj.trans (hj1.trans hj2)⟩

theorem Work.enterSettling_good {w : Work} {a : HydActivity} (h : LevelRuns w a) : HydGood w w.enterSettling := by
  have hserve : PumpServes w.hyd a := ⟨fun e => absurd h.phase e, fun _ => .inl ⟨h.pump, h.start, by
    rw [h.pdir, h.formed.level h.kind]⟩⟩
  have hst := w.pumpStop_stopped hserve false
  rw [Work.enterSettling_from]
  generalize w.pumpStop false = z at hst
  have hd := hst.dwell rfl h.pump
  have hact : z.hyd.activity = some a := hst.activity.trans h.activity
  have hh := z.settleFrom_hyd hact
  obtain ⟨hbud, hphase, hbase, hjacks⟩ := z.settleFrom_parts
  have hnow : z.now ≤ z.settleFrom.now := Nat.le_refl _
  generalize z.settleFrom = u at hh hbud hphase hbase hjacks hnow
  have hf : Formed u { a with openSet := noJacks.inter a.jackSet, phase := .idlePump } :=
    ((h.formed.withOpen noJacks .idlePump).same hst.same).same (.of_eq hjacks hbase)
  have hwaits : u.bud.waits = 0 := by rw [hbud]; exact hst.waits.trans h.waits
  refine ⟨.of_serves (congrArg Hyd.activity hh) ⟨hf, ⟨fun _ => ?_, nofun⟩, ⟨?_, ?_, ?_, ?_⟩, fun e => absurd hwaits e,
      Nat.le_trans (Nat.le_of_eq hwaits) (Nat.zero_le 1)⟩, ?_⟩
  · rw [hh]; exact ⟨.inr hd, hst.start⟩
  · rw [hphase]; exact ⟨nofun, fun e => absurd h.kind e⟩
  · rw [hphase]; exact ⟨fun _ => rfl, fun _ => rfl⟩
  · rw [hphase]; nofun
  · rw [hphase]; rintro (e | e | e) <;> cases e
  · exact (hst.steady rfl).trans (.of_eq (by rw [hh]) (by rw [hh]) (by rw [hh]) hnow)

theorem Work.enterStabilize_good {w : Work} {a : HydActivity} (h : LevelRuns w a) (f : Option PendFlag) :
    HydGood w (w.enterStabilize f) := by
  simp only [Work.enterStabilize]
  have hp := h.enterPhase { w.lvl with phase := .stabilize, pendFlag := f, liftSet := noJacks,
                                       deadline := some (w.now + w.stabilizeTime) }
  have hz := hp.setOpen (Work.ungrounded (w.enterPhase { w.lvl with
    phase := .stabilize, pendFlag := f, liftSet := noJacks, deadline := some (w.now + w.stabilizeTime) }))
  split
  · exact ⟨(Work.enterSettling_good hz).law, (h.steady hz).trans (Work.enterSettling_good hz).steady⟩
  · exact ⟨hz.law (.inr (.inr rfl)), h.steady hz⟩

theorem Work.enterLevelling_good {w : Work} {a : HydActivity} (h : LevelRuns w a) (n : Nat) :
    HydGood w (w.enterLevelling n) := by
  have hz := (h.enterPhase { w.lvl with phase := .levelling, pass := n, levelRun := 0, limitMark := false,
                                        liftSet := noJacks, deadline := some (w.now + w.levellingTime) }).setOpen noJacks
  exact ⟨hz.law (.inr (.inl rfl)), h.steady hz⟩

theorem Work.checkGrounded_good {w : Work} (h : HydLaw w) : HydGood w w.checkGrounded := by
  simp only [Work.checkGrounded]
  split
  · split
    · next hp _ => obtain ⟨a, hr⟩ := h.levelRuns (.inl hp); exact Work.enterSettling_good hr
    · next hp _ => obtain ⟨a, hr⟩ := h.levelRuns (.inl hp); exact Work.enterLevelling_good hr 1
    · next hp => obtain ⟨a, hr⟩ := h.levelRuns (.inr (.inr hp)); exact Work.enterSettling_good hr
    · exact .refl h
  · exact .refl h

theorem Work.setOpen_good {w : Work} (h : HydLaw w) (s : JackSet) : HydGood w (w.setOpen s) := by
  refine ⟨?_, .of_eq rfl rfl⟩
  cases ha : w.hyd.activity with
  | none =>
    obtain ⟨hn, hl⟩ := h.none ha
    exact .of_none (by simp [Work.setOpen, ha]) ⟨hn.pump, hn.start, hn.waits⟩ hl
  | some a =>
    have hs := h.serves ha
    refine .of_serves (a := { a with openSet := s.inter a.jackSet }) (by simp [Work.setOpen, ha])
      ⟨(hs.toFormed.withOpen s a.phase).same (.of_eq rfl rfl), hs.pump, hs.proc, hs.waits, hs.one⟩

theorem Work.followGround_good {w : Work} (h : HydLaw w) : HydGood w w.followGround := by
  simp only [Work.followGround]
  split
  · exact (Work.setOpen_good h _).trans Work.checkGrounded_good
  · exact .refl h

theorem Work.enterTouchdown_good {w : Work} {a : HydActivity} (h : LevelRuns w a) : HydGood w w.enterTouchdown := by
  have hz := h.enterPhase { w.lvl with phase := .touchdown, deadline := some (w.now + w.touchdownTime) }
  exact HydGood.trans ⟨hz.law (.inl rfl), h.steady hz⟩ Work.followGround_good

/-- A write of the level record that keeps the phase. -/
theorem Work.setLvl_good {w : Work} (h : HydLaw w) {l : Level} (hl : l.phase = w.lvl.phase) : HydGood w (w.setLvl l) := by
  refine ⟨?_, .of_eq rfl rfl⟩
  cases ha : w.hyd.activity with
  | none =>
    obtain ⟨hn, hi⟩ := h.none ha
    exact .of_none ha ⟨hn.pump, hn.start, hn.waits⟩ (hl.trans hi)
  | some a =>
    have hs := h.serves ha
    have hp : ProcedureServed (w.setLvl l) a := by
      have := hs.proc
      simp only [ProcedureServed, ← hl] at this
      exact this
    exact .of_serves ha ⟨hs.toFormed.same (.of_eq rfl rfl), hs.pump, hp, hs.waits, hs.one⟩

theorem Work.emit_good {w : Work} (h : HydLaw w) (e : Event) : HydGood w (w.emit e) := hydGood_of_wet h rfl rfl

theorem Work.setLift_good {w : Work} (h : HydLaw w) (s : JackSet) : HydGood w (w.setLift s) :=
  HydGood.trans (z := w.setLvl { w.lvl with liftSet := s }) (Work.setLvl_good h rfl) fun h => Work.setOpen_good h s

theorem Work.leaveLift_good {w : Work} (h : HydLaw w) (j : JackId) : HydGood w (w.leaveLift j) := by
  simp only [Work.leaveLift]
  split
  · next hl =>
    have hz := Work.setLift_good h (w.lvl.liftSet.without j)
    split
    · refine hz.trans fun hz' => ?_
      obtain ⟨a, hr⟩ := hz'.levelRuns (.inr (.inl hl.1))
      exact Work.enterStabilize_good hr _
    · exact hz
  · exact .refl h

theorem Work.jacksMove_good {w : Work} (h : HydLaw w) : HydGood w w.jacksMove := by
  simp only [Work.jacksMove]
  split
  · exact HydGood.trans (z := w.setLvl { w.lvl with levelHeld := false }) (Work.setLvl_good h rfl) fun h => Work.emit_good h _
  · exact .refl h

/-! ## Jacks leaving an activity (R74, R78, R80, R82) -/

theorem Work.checkWork_good {w : Work} (h : HydLaw w) : HydGood w w.checkWork := by
  cases ha : w.hyd.activity with
  | none => simp only [Work.checkWork, ha]; exact .refl h
  | some a =>
    have hi : a.kind ≠ .level → w.lvl.phase = .idle := (h.serves ha).proc.1.2
    cases hk : a.kind <;> simp only [Work.checkWork, ha, hk]
    · exact .refl h
    · split
      · exact Work.endActivity_good h (hi (by rw [hk]; decide)) _
      · exact .refl h
    · split
      · exact Work.endActivity_good h (hi (by rw [hk]; decide)) _
      · exact .refl h

/-- The activity takes other jacks, all of them sound. -/
theorem Work.withSets_good {w z : Work} {a : HydActivity} (ha : w.hyd.activity = some a) (h : HydLaw w) {js os : JackSet}
    (hz : z.hyd = { w.hyd with activity := some { a with jackSet := js, openSet := os } }) (hl : z.lvl = w.lvl)
    (hb : z.bud = w.bud) (hbase : z.base = w.base) (hs : SoundSets z { a with jackSet := js, openSet := os })
    (hn : w.now ≤ z.now := by exact Nat.le_refl _) : HydGood w z := by
  have hv := h.serves ha
  have hst : z.stage = w.stage := congrArg Prod.fst hbase
  refine ⟨.of_serves (a := { a with jackSet := js, openSet := os }) (by rw [hz]) ⟨⟨?_, hs, hv.level, hv.stow, hv.lease⟩,
    by rw [hz]; exact hv.pump, ?_, by rw [hb]; exact hv.waits, by rw [hb]; exact hv.one⟩,
    .of_eq (by rw [hz]) (by rw [hz]) (by rw [hz]) hn⟩
  · rw [hst]; exact hv.loaded
  · have := hv.proc
    simp only [ProcedureServed, hl, hz]
    exact this

/-- A jack that leaves the activity may take a fence or a fault. -/
theorem Work.dropJack_good {w : Work} (h : HydLaw w) (j : JackId) (x : Jack) :
    HydGood w ((w.setJk j x).dropJack j) := by
  cases ha : w.hyd.activity with
  | none =>
    obtain ⟨hn, hl⟩ := h.none ha
    have ha' : (w.setJk j x).hyd.activity = none := ha
    simp only [Work.dropJack, ha']
    exact ⟨.of_none ha ⟨hn.pump, hn.start, hn.waits⟩ hl, .of_eq rfl rfl⟩
  | some a =>
    have hv := h.serves ha
    have ha' : (w.setJk j x).hyd.activity = some a := ha
    simp only [Work.dropJack, ha']
    refine Work.withSets_good ha h (js := a.jackSet.without j) (os := a.openSet.without j) ?_ rfl rfl rfl fun i => ⟨?_, ?_⟩
    · simp [Work.setJacks, Work.setJk, ha]
    · intro hi
      rw [JackSet.has_without, Bool.and_eq_true] at hi ⊢
      exact ⟨(hv.sets i).1 hi.1, hi.2⟩
    · intro hi
      rw [JackSet.has_without, Bool.and_eq_true, bne_iff_ne] at hi
      have hjk : (((w.setJk j x).setJacks (a.jackSet.without j) (a.openSet.without j)).jk i) = w.jk i := by
        show (w.setJk j x).jk i = _
        exact Work.jk_setJk_ne w j i x hi.2
      rw [hjk]
      exact (hv.sets i).2 hi.1

end Sys2Proof.Machine
end

