-- ==== Sys2Proof/Proofs/HydPump.lean ====
section
/-! PROOF. The law of the hydraulic circuit for faults and fences of jacks, the start of the pump and its admission. -/

namespace Sys2Proof.Machine

set_option Elab.async false

open Sys2Proof.Safety

/-! ## What the law reads -/

/-- What the law reads of circuit, procedure and queue. -/
def Work.hydCore (w : Work) : Option HydActivity × Pump × Bool × Dir × LevelPhase × Nat × Option Time :=
  (w.hyd.activity, w.hyd.pump, w.hyd.pendingStart, w.hyd.pdir, w.lvl.phase, w.bud.waits, w.hyd.dwellEnd)

theorem hydCore_eq {w z : Work} (h : z.hydCore = w.hydCore) : z.hyd.activity = w.hyd.activity ∧ z.hyd.pump = w.hyd.pump ∧
    z.hyd.pendingStart = w.hyd.pendingStart ∧ z.hyd.pdir = w.hyd.pdir ∧ z.lvl.phase = w.lvl.phase ∧
    z.bud.waits = w.bud.waits ∧ z.hyd.dwellEnd = w.hyd.dwellEnd := by
  simp only [Work.hydCore, Prod.mk.injEq] at h
  exact h

theorem hydGood_of_core {w z : Work} (h : HydLaw w) (hc : z.hydCore = w.hydCore) (hs : SamePart w z)
    (hn : w.now ≤ z.now := by exact Nat.le_refl _) : HydGood w z := by
  obtain ⟨ha, hp, hst, hd, hl, hq, he⟩ := hydCore_eq hc
  refine ⟨?_, .of_eq hp hd he hn⟩
  rcases (hydLaw_iff w).1 h with ⟨e, hn, hi⟩ | ⟨a, e, hv⟩
  · exact .of_none (ha.trans e) ⟨by rw [hp]; exact hn.pump, hst.trans hn.start, hq.trans hn.waits⟩ (hl.trans hi)
  · have hpump : PumpServes z.hyd a := by
      simp only [PumpServes, hp, hst, hd]
      exact hv.pump
    have hproc : ProcedureServed z a := by
      simp only [ProcedureServed, hl, hp]
      exact hv.proc
    exact .of_serves (ha.trans e) ⟨hv.toFormed.same hs, hpump, hproc, by rw [hq]; exact hv.waits, by rw [hq]; exact hv.one⟩

/-! ## Faults and fences of jacks (R72, R75, R82) -/

theorem Work.giveFault_good {w : Work} (h : HydLaw w) (j : JackId) (k : JackFault) : HydGood w (w.giveFault j k) := by
  simp only [Work.giveFault]
  split
  · exact .refl h
  · exact (Work.dropJack_good h j _).trans fun h => Work.emit_good h _

theorem Work.setJk_good {w : Work} (h : HydLaw w) {j : JackId} {x : Jack} (hf : x.fenced = (w.jk j).fenced)
    (hx : x.fault = (w.jk j).fault) : HydGood w (w.setJk j x) := by
  refine hydGood_of_core h rfl ⟨fun i => ?_, rfl⟩
  by_cases hi : i = j
  · subst hi
    rw [Work.jk_setJk_self]
    exact ⟨hf, hx⟩
  · rw [Work.jk_setJk_ne w j i x hi]
    exact ⟨rfl, rfl⟩

theorem Work.faultJack_good {w : Work} (h : HydLaw w) (j : JackId) (k : JackFault) : HydGood w (w.faultJack j k) := by
  simp only [Work.faultJack]
  split
  · exact .refl h
  · refine (Work.giveFault_good h j k).trans fun h => ?_
    generalize w.giveFault j k = z at h
    split
    · split
      · exact Work.endLevel_good h _
      · exact Work.leaveLift_good h j
    · exact Work.checkWork_good h

theorem Work.fenceFollowed_good {w : Work} (h : HydLaw w) (j : JackId) (b : Bool) : HydGood w (w.fenceFollowed j b) := by
  simp only [Work.fenceFollowed]
  split
  · split
    · split
      · exact Work.endLevel_good h _
      · exact (Work.leaveLift_good h j).trans Work.followGround_good
    · exact Work.leaveLift_good h j
  · split
    · exact Work.checkWork_good h
    · exact .refl h

theorem Work.fenceJack_good {w : Work} (h : HydLaw w) (j : JackId) : HydGood w (w.fenceJack j) := by
  rw [Work.fenceJack_eq]
  exact (Work.dropJack_good h j _).trans fun h => Work.fenceFollowed_good h j _

/-- A jack that leaves the activity as it is. -/
theorem Work.dropSame_good {w : Work} (h : HydLaw w) (j : JackId) : HydGood w (w.dropJack j) := by
  have hself : w.setJk j (w.jk j) = w := by
    have hv : w.jacks.set j (w.jk j) = w.jacks := by
      ext i hi : 1
      rw [Vector.getElem_set]
      split
      · next e => subst e; rfl
      · rfl
    simp only [Work.setJk, hv]
  have := Work.dropJack_good h j (w.jk j)
  rwa [hself] at this

theorem foldl_good {α : Type} (l : List α) {f : Work → α → Work} (hf : ∀ {w}, HydLaw w → ∀ x, HydGood w (f w x)) {w : Work}
    (h : HydLaw w) : HydGood w (l.foldl f w) := by
  induction l generalizing w with
  | nil => exact .refl h
  | cons a l ih => exact (hf h a).trans ih

theorem good_ite {p : Prop} [Decidable p] {w z u : Work} (hz : p → HydGood w z) (hu : ¬ p → HydGood w u) :
    HydGood w (if p then z else u) := by
  split
  · next h => exact hz h
  · next h => exact hu h

/-! ## The start of the pump (R61, R65) -/

/-- A pump run that may start: an activity by itself, no entry queued, and the phase of the procedure that goes with it. -/
structure Startable (w : Work) (a : HydActivity) : Prop where
  formed : Formed w a
  waits : w.bud.waits = 0
  idle : a.kind ≠ .level → w.lvl.phase = .idle

theorem Work.jacksMove_core (w : Work) : w.jacksMove.hydCore = w.hydCore ∧ SamePart w w.jacksMove := by
  rw [jacksMove_eq]
  split
  · exact ⟨rfl, .of_eq rfl rfl⟩
  · exact ⟨rfl, .of_eq rfl rfl⟩

/-- The law for a pump that has just started for an activity that is no procedure. -/
theorem pumpStarted_law {w : Work} {a : HydActivity} (hs : Startable w a) (hk : a.kind ≠ .level) : HydLaw (w.pumpStarted a) := by
  have hl : (w.pumpStarted a).lvl.phase = .idle := hs.idle hk
  have hf : Formed (w.pumpStarted a) { a with phase := .running, start := some w.now } :=
    Formed.same (w := w) (a := { a with phase := .running, start := some w.now })
      ⟨hs.formed.loaded, hs.formed.sets, hs.formed.level, hs.formed.stow, hs.formed.lease⟩ (.of_eq rfl rfl)
  refine .of_serves (a := { a with phase := .running, start := some w.now }) rfl
    ⟨hf, ⟨fun e => absurd rfl e, fun _ => .inl ⟨rfl, rfl, rfl⟩⟩, ⟨⟨fun _ => hk, fun _ => hl⟩, ?_, ?_, ?_⟩,
      fun e => absurd hs.waits e, Nat.le_trans (Nat.le_of_eq hs.waits) (Nat.zero_le 1)⟩
  · rw [hl]; exact ⟨nofun, nofun⟩
  · rw [hl]; nofun
  · rw [hl]; rintro (e | e | e) <;> cases e

theorem pumpStarted_runs {w : Work} {a : HydActivity} (hs : Startable w a) (hk : a.kind = .level) :
    LevelRuns (w.pumpStarted a) { a with phase := .running, start := some w.now } :=
  ⟨rfl, Formed.same (w := w) (a := { a with phase := .running, start := some w.now })
    ⟨hs.formed.loaded, hs.formed.sets, hs.formed.level, hs.formed.stow, hs.formed.lease⟩ (.of_eq rfl rfl), hk, rfl, rfl, rfl,
    hs.formed.level hk, hs.waits⟩

/-- The activity keeps other jacks of its own set (R78, R80). -/
theorem Work.setJacks_law {w : Work} {a : HydActivity} (h : HydLaw w) (ha : w.hyd.activity = some a) {js os : JackSet}
    (hjs : ∀ j, js.has j = true → a.jackSet.has j = true) (hos : ∀ j, os.has j = true → js.has j = true) :
    HydGood w (w.setJacks js os) := by
  refine Work.withSets_good ha h (z := w.setJacks js os) ?_ rfl rfl rfl fun j => ⟨hos j, fun hj => ?_⟩
  · rw [Work.setJacks_of ha]
  · exact ((h.serves ha).sets j).2 (hjs j hj)

theorem Work.atPumpStart_good {w : Work} {a : HydActivity} (hs : Startable w a) :
    HydLaw ((w.pumpStarted a).atPumpStart { a with phase := .running, start := some w.now }) := by
  by_cases hk : a.kind = .level
  · have hr := pumpStarted_runs hs hk
    simp only [Work.atPumpStart, hk]
    split
    · exact (Work.enterTouchdown_good hr).law
    · exact (Work.enterLevelling_good hr _).law
  · have hlaw := pumpStarted_law hs hk
    obtain ⟨hc, hp⟩ := (w.pumpStarted a).jacksMove_core
    have hmoved : HydLaw (w.pumpStarted a).jacksMove := (Work.jacksMove_good hlaw).law
    have hact : (w.pumpStarted a).jacksMove.hyd.activity = some { a with phase := .running, start := some w.now } :=
      (hydCore_eq hc).1
    have hsets (js os : JackSet) (hjs : ∀ j, js.has j = true → a.jackSet.has j = true)
        (hos : ∀ j, os.has j = true → js.has j = true) :
        HydLaw (((w.pumpStarted a).jacksMove.setJacks js os).checkWork) :=
      (Work.checkWork_good (Work.setJacks_law hmoved hact hjs hos).law).law
    simp only [Work.atPumpStart]
    split
    · next e => exact absurd e hk
    · refine hsets _ _ (fun j hj => ?_) fun j hj => hj
      rw [JackSet.has_jacksWhere, Bool.and_eq_true] at hj
      exact hj.1
    · refine hsets _ _ (fun j hj => hj) fun j hj => ?_
      rw [JackSet.has_jacksWhere, Bool.and_eq_true] at hj
      exact hj.1

theorem Work.pumpRun_eq {w : Work} {a : HydActivity} (ha : w.hyd.activity = some a) :
    w.pumpRun = (w.pumpStarted a).atPumpStart { a with phase := .running, start := some w.now } := by
  simp only [Work.pumpRun, ha]
  rfl

/-- A pump in DWELL goes on dwelling. -/
theorem Work.admitPump_steady (w : Work) : Steady w w.admitPump := by
  have hnow : w.now ≤ w.admitPump.now := Nat.le_of_eq (now_of_still w.admitPump_still).symm
  refine ⟨hnow, fun h => ?_⟩
  simp only [Work.admitPump]
  split
  · next hoff => exact absurd hoff h
  · exact (Steady.of_eq (w := w)
      (z := { w.setActPhase .running with hyd := { (w.setActPhase .running).hyd with pendingStart := true } }) rfl rfl).pump h

/-- The admission of a pump run whose activity waits (R65). -/
theorem Work.admitPump_law {w : Work} {a : HydActivity} (ha : w.hyd.activity = some a) (hs : Startable w a)
    (hp : w.hyd.pump = .off ∨ w.hyd.pump = .dwell) (hl : a.kind = .level → w.lvl.phase = .waiting) :
    HydLaw w.admitPump := by
  have hact : (w.setActPhase .running).hyd.activity = some { a with phase := .running } := by
    simp only [Work.setActPhase, ha, Option.map_some]
  have hf : Formed w { a with phase := .running } :=
    ⟨hs.formed.loaded, hs.formed.sets, hs.formed.level, hs.formed.stow, hs.formed.lease⟩
  have hs' : Startable (w.setActPhase .running) { a with phase := .running } :=
    ⟨hf.same (.of_eq rfl rfl), hs.waits, hs.idle⟩
  have hpump : (w.setActPhase .running).hyd.pump = w.hyd.pump := rfl
  simp only [Work.admitPump]
  generalize hz : w.setActPhase .running = z at hact hs' hpump
  have hphase : z.lvl.phase = w.lvl.phase := by rw [← hz]; rfl
  split
  · rw [Work.pumpRun_eq hact]
    exact Work.atPumpStart_good hs'
  · next hoff =>
    have hd : z.hyd.pump = .dwell := hp.elim (fun e => absurd (hpump.trans e) hoff) hpump.trans
    have hne : ∀ p, p = .idle ∨ p = .waiting → p ≠ LevelPhase.settling ∧ p ≠ .touchdown ∧ p ≠ .levelling ∧ p ≠ .stabilize := by
      rintro p (rfl | rfl) <;> exact ⟨nofun, nofun, nofun, nofun⟩
    have hcase : z.lvl.phase = .idle ∨ z.lvl.phase = .waiting := by
      by_cases hk : a.kind = .level
      · exact .inr (hphase.trans (hl hk))
      · exact .inl (hs'.idle hk)
    obtain ⟨h1, h2, h3, h4⟩ := hne _ hcase
    refine .of_serves (w := { z with hyd := { z.hyd with pendingStart := true } }) (a := { a with phase := .running }) hact
      ⟨hs'.formed.same (.of_eq rfl rfl), ⟨fun e => absurd rfl e, fun _ => .inr ⟨hd, rfl⟩⟩, ⟨⟨fun e hk => ?_, hs'.idle⟩,
        ⟨fun e => absurd e h1, nofun⟩, fun _ e => ?_, ?_⟩, fun e => absurd hs'.waits e,
        Nat.le_trans (Nat.le_of_eq hs'.waits) (Nat.zero_le 1)⟩
    · exact nomatch ((hphase.trans (hl hk)).symm.trans e)
    · exact nomatch hd.symm.trans e
    · rintro (e | e | e)
      · exact absurd e h2
      · exact absurd e h3
      · exact absurd e h4

end Sys2Proof.Machine
end

