-- ==== Sys2Proof/Proofs/HydAdmission.lean ====
section
/-! PROOF. The law of the hydraulic circuit for the admission of pump runs, from the queue and newly presented, and for the
tests of a procedure (R65, R109, R111, R112, R144). -/

namespace Sys2Proof.Machine

set_option Elab.async false

open Sys2Proof.Safety

/-! ## Newly presented (R65) -/

/-- An activity whose pump run may be presented. -/
structure Presentable (w : Work) (a : HydActivity) : Prop extends Startable w a where
  pump : w.hyd.pump = .off ∨ w.hyd.pump = .dwell
  start : w.hyd.pendingStart = false
  level : a.kind = .level → w.lvl.phase = .waiting

/-- The work whose activity waits. -/
def Work.awaiting (w : Work) (a : HydActivity) : Work :=
  { w with hyd := { w.hyd with activity := some { a with phase := .waiting } } }

theorem Presentable.awaiting {w : Work} {a : HydActivity} (h : Presentable w a) :
    Presentable (w.awaiting a) { a with phase := .waiting } :=
  ⟨⟨Formed.same (w := w) ⟨h.formed.loaded, h.formed.sets, h.formed.level, h.formed.stow, h.formed.lease⟩ (.of_eq rfl rfl),
    h.waits, h.idle⟩, h.pump, h.start, h.level⟩

/-- The law while the pump run of an activity waits, queued once or not at all. -/
theorem Presentable.law {z : Work} {a : HydActivity} (h : Presentable z a) (ha : z.hyd.activity = some a)
    (hp : a.phase = .waiting) {b : Budget} (hb : b.waits ≤ 1) : HydLaw { z with bud := b } := by
  have hne : z.lvl.phase ≠ .settling ∧ ¬ (z.lvl.phase = .touchdown ∨ z.lvl.phase = .levelling ∨ z.lvl.phase = .stabilize) := by
    have hcase : z.lvl.phase = .idle ∨ z.lvl.phase = .waiting := by
      by_cases hk : a.kind = .level
      · exact .inr (h.level hk)
      · exact .inl (h.idle hk)
    rcases hcase with e | e <;> rw [e] <;> exact ⟨nofun, nofun⟩
  have hpump : z.hyd.pump ≠ .running := by rcases h.pump with e | e <;> rw [e] <;> nofun
  refine .of_serves (w := { z with bud := b }) ha ⟨h.formed.same (.of_eq rfl rfl), ⟨fun _ => ⟨h.pump, h.start⟩, fun e => ?_⟩,
    ⟨⟨fun e hk => ?_, h.idle⟩, ⟨fun e => absurd e hne.1, fun e => ?_⟩, fun _ => hpump, fun e => absurd e hne.2⟩, fun _ => hp, hb⟩
  · rw [hp] at e; cases e
  · exact nomatch (h.level hk).symm.trans e
  · rw [hp] at e; cases e

theorem waits_append_pump {b : Budget} {q : Queued} (h : b.waits = 0) : ({ b with queue := b.queue ++ [q] } : Budget).waits ≤ 1 := by
  simp only [Budget.waits, List.filter_append, List.length_append]
  have h0 : (b.queue.filter fun q => q.target == hydTarget).length = 0 := h
  have h1 : ([q].filter fun q => q.target == hydTarget).length ≤ 1 := List.length_filter_le _ [q]
  omega

theorem Work.presentPump_eq {w : Work} {a : HydActivity} (ha : w.hyd.activity = some a) : w.presentPump =
    match (w.awaiting a).presentEntry ((w.awaiting a).pumpEntry a) with
    | (w2, .accepted) => (w2.admitPump, .accepted)
    | r => r := by
  simp only [Work.presentPump, ha] <;> rfl

/-- A pump run presented is admitted, waits in the queue, or finds no place. -/
theorem Work.presentPump_good {w : Work} {a : HydActivity} (ha : w.hyd.activity = some a) (h : Presentable w a) :
    HydGood w w.presentPump.1 := by
  have hz := h.awaiting
  have hsteady : Steady w (w.awaiting a) := .of_eq rfl rfl
  rw [Work.presentPump_eq ha]
  have hact : (w.awaiting a).hyd.activity = some { a with phase := .waiting } := rfl
  generalize w.awaiting a = z at hz hsteady hact
  have hq := hz.waits
  by_cases hf : Fits z (z.pumpEntry a).draw
  · rw [Work.presentEntry_of_fits hf]
    refine ⟨Work.admitPump_law (w := admitted z (z.pumpEntry a).target (z.pumpEntry a).draw)
      (a := { a with phase := .waiting }) hact ⟨hz.formed.same (.of_eq rfl rfl), hq, hz.idle⟩ hz.pump hz.level,
      hsteady.trans (Steady.trans (z := admitted z (z.pumpEntry a).target (z.pumpEntry a).draw) (.of_eq rfl rfl)
        (Work.admitPump_steady _))⟩
  · by_cases hl : waiting z < z.queueLimit
    · rw [Work.presentEntry_of_room hf hl]
      exact ⟨hz.law hact rfl (waits_append_pump hq), hsteady.trans (.of_eq rfl rfl)⟩
    · rw [Work.presentEntry_of_full hf (Nat.le_of_not_lt hl)]
      exact ⟨hz.law (b := z.bud) hact rfl (Nat.le_trans (Nat.le_of_eq hq) (Nat.zero_le 1)), hsteady⟩

/-! ## From the queue (R144) -/

/-- A procedure whose activity waits is in WAITING. -/
theorem Serves.level_waiting {w : Work} {a : HydActivity} (h : Serves w a) (hp : a.phase = .waiting) (hk : a.kind = .level) :
    w.lvl.phase = .waiting := by
  obtain ⟨hidle, hsettling, -, hpumps⟩ := h.proc
  have hpump : w.hyd.pump ≠ .running := by
    rcases (h.pump.1 (by rw [hp]; nofun)).1 with e | e <;> rw [e] <;> nofun
  cases hl : w.lvl.phase
  case idle => exact absurd hk (hidle.1 hl)
  case waiting => rfl
  case settling => exact nomatch hp.symm.trans (hsettling.1 hl)
  case touchdown => exact absurd (hpumps (.inl hl)) hpump
  case levelling => exact absurd (hpumps (.inr (.inl hl))) hpump
  case stabilize => exact absurd (hpumps (.inr (.inr hl))) hpump

theorem Budget.enlist_waits (b : Budget) (t : Fin 6) (n : Nat) (now : Time) : (b.enlist t n now).waits = b.waits := rfl

theorem Work.admitHead_good {w : Work} (h : HydLaw w) {q : Queued} {rest : List Queued} (hq : w.bud.queue = q :: rest) :
    HydGood w (w.admitHead q rest) := by
  have hcount : w.bud.waits = ({ w.bud with queue := rest } : Budget).waits + (if q.target = hydTarget then 1 else 0) := by
    simp only [Budget.waits, hq, List.filter_cons, beq_iff_eq]
    split <;> simp
  simp only [Work.admitHead, Work.admitTarget]
  split
  · next hv =>
    have hne : q.target ≠ hydTarget := fun e => by rw [e] at hv; exact absurd hv (by decide)
    rw [if_neg hne] at hcount
    have hgood := hydGood_of_core h
      (z := { w with bud := ({ w.bud with queue := rest } : Budget).enlist q.target q.draw w.now })
      (by simp only [Work.hydCore, Budget.enlist_waits, hcount, Nat.add_zero]) (.of_eq rfl rfl)
    exact hgood.trans fun h => hydGood_of_still h (Work.admitMover_wet _ _) (Work.admitMover_still _ _)
  · next hv =>
    have heq : q.target = hydTarget := by
      have hlt := q.target.isLt
      refine Fin.ext ?_
      show q.target.val = 5
      omega
    rw [if_pos heq] at hcount
    obtain ⟨a, ha⟩ := h.activity (.inr (by omega))
    have hs := h.serves ha
    have hone := hs.one
    have hphase : a.phase = .waiting := hs.waits (by omega)
    have hrest : ({ w.bud with queue := rest } : Budget).waits = 0 := by omega
    refine ⟨Work.admitPump_law
      (w := { w with bud := ({ w.bud with queue := rest } : Budget).enlist q.target q.draw w.now }) ha
      ⟨hs.toFormed.same (.of_eq rfl rfl), hrest, hs.proc.1.2⟩ (hs.pump.1 (by rw [hphase]; nofun)).1 (hs.level_waiting hphase),
      Steady.trans (z := { w with bud := ({ w.bud with queue := rest } : Budget).enlist q.target q.draw w.now })
        (.of_eq rfl rfl) (Work.admitPump_steady _)⟩

theorem Work.admitHeads_good (n : Nat) {w : Work} (h : HydLaw w) : HydGood w (Work.admitHeads n w) := by
  induction n generalizing w with
  | zero => exact .refl h
  | succ n ih =>
    simp only [Work.admitHeads]
    split
    · exact .refl h
    · next hq =>
      split
      · exact (Work.admitHead_good h hq).trans ih
      · exact .refl h

theorem Work.judgeHead_good {w : Work} (h : HydLaw w) : HydGood w w.judgeHead := by
  simp only [Work.judgeHead]
  split
  · exact (Work.admitHeads_good 16 h).trans fun h => hydGood_of_core h rfl (.of_eq rfl rfl)
  · exact .refl h

/-! ## The tests of a procedure (R109, R111, R112) -/

theorem Work.furtherPass_good {w : Work} (h : HydLaw w) (hp : w.lvl.phase = .settling) : HydGood w w.furtherPass := by
  obtain ⟨a, ha⟩ := h.activity (.inl (by rw [hp]; nofun))
  have hs := h.serves ha
  obtain ⟨hkind, hsettling, -, -⟩ := hs.proc
  have hidle : a.phase = .idlePump := hsettling.1 hp
  have hk : a.kind = .level := by
    by_contra hk
    exact nomatch (hkind.2 hk).symm.trans hp
  obtain ⟨hpump, hstart⟩ := hs.pump.1 (by rw [hidle]; nofun)
  have hwaits : w.bud.waits = 0 := by
    by_contra hw
    exact nomatch hidle.symm.trans (hs.waits hw)
  have hpres : Presentable (w.enterPhase { w.lvl with
      phase := .waiting, pass := w.lvl.pass + 1, settleTest := none, pendFlag := none, deadline := none }) a :=
    ⟨⟨hs.toFormed.same (.of_eq rfl rfl), hwaits, fun hne => absurd hk hne⟩, hpump, hstart, fun _ => rfl⟩
  have hgood := Work.presentPump_good (w := w.enterPhase { w.lvl with
    phase := .waiting, pass := w.lvl.pass + 1, settleTest := none, pendFlag := none, deadline := none }) ha hpres
  exact ⟨hgood.law, Steady.trans (z := w.enterPhase { w.lvl with
    phase := .waiting, pass := w.lvl.pass + 1, settleTest := none, pendFlag := none, deadline := none }) (.of_eq rfl rfl)
    hgood.steady⟩

theorem Work.judgeLevelling_good {w : Work} (h : HydLaw w) (hp : w.lvl.phase = .levelling) : HydGood w w.judgeLevelling := by
  obtain ⟨a, hr⟩ := h.levelRuns (.inr (.inl hp))
  simp only [Work.judgeLevelling]
  split
  · exact Work.enterStabilize_good hr _
  · split
    · exact Work.enterStabilize_good hr _
    · split
      · exact Work.enterStabilize_good hr _
      · exact .refl h

theorem Work.judgeSettling_good {w : Work} (h : HydLaw w) (hp : w.lvl.phase = .settling) (l : Bool) :
    HydGood w (w.judgeSettling l) := by
  simp only [Work.judgeSettling]
  split
  · split
    · exact Work.endLevel_good h _
    · exact .refl h
  · split
    · exact Work.furtherPass_good h hp
    · exact Work.endLevel_good h _

theorem Work.settleEnd_good {w : Work} (h : HydLaw w) : HydGood w w.settleEnd := by
  simp only [Work.settleEnd]
  split
  · exact Work.endLevel_good h _
  · exact Work.endLevel_good h _
  · exact Work.setLvl_good h rfl

theorem Work.figured_good {w : Work} (h : HydLaw w) : HydGood w w.figured := by
  have hset : HydGood w (w.setLvl { w.lvl with heights := w.computeHeights, demands := demandsOf w.computeHeights }) :=
    Work.setLvl_good h rfl
  simp only [Work.figured]
  generalize w.setLvl { w.lvl with heights := w.computeHeights, demands := demandsOf w.computeHeights } = z at hset
  have hlift : HydGood z (if (z.lvl.phase == .levelling) = true then z.setLift z.nextLift else z) :=
    good_ite (fun _ => Work.setLift_good hset.law _) fun _ => .refl hset.law
  exact (hset.trans fun _ => hlift).trans fun h => Work.setLvl_good h rfl

theorem Work.levelWatch_good {w : Work} (h : HydLaw w) : HydGood w w.levelWatch := by
  simp only [Work.levelWatch]
  split
  · split
    · exact Work.setLvl_good h rfl
    · split
      · exact HydGood.trans (z := w.setLvl { w.lvl with levelHeld := false, drift := 0 }) (Work.setLvl_good h rfl)
          fun h => Work.emit_good h _
      · exact Work.setLvl_good h rfl
  · exact .refl h

theorem Work.levelWatch_phase (w : Work) : w.levelWatch.lvl.phase = w.lvl.phase := by
  simp only [Work.levelWatch]
  split
  · split
    · rfl
    · split <;> rfl
  · rfl

theorem Work.figured_phase (w : Work) : w.figured.lvl.phase = w.lvl.phase := by
  simp only [Work.figured]
  split <;> rfl

theorem Work.runFollowed_good {w : Work} (h : HydLaw w) (l : Bool) : HydGood w (w.runFollowed l) :=
  Work.setLvl_good h rfl

theorem Work.tiltSample_good {w : Work} (h : HydLaw w) : HydGood w w.tiltSample := by
  rw [tiltSample_eq]
  generalize isLevel w.tilt.p w.tilt.q w.tolerance = l
  have hz := (Work.figured_good h).trans fun h => (Work.levelWatch_good h).trans fun h => Work.runFollowed_good h l
  have hphase : (w.figured.levelWatch.runFollowed l).lvl.phase = w.lvl.phase :=
    w.figured.levelWatch_phase.trans w.figured_phase
  generalize w.figured.levelWatch.runFollowed l = z at hz hphase
  refine hz.trans fun h => ?_
  simp only [Work.sampleJudged]
  split
  · next hp => exact Work.judgeLevelling_good h (hphase.trans (eq_of_beq hp))
  · split
    · next hs => exact Work.judgeSettling_good h hs.1 l
    · exact .refl h

end Sys2Proof.Machine
end

