-- ==== Sys2Proof/Proofs/DryEvents.lean ====
section
/-! PROOF. The events of rooms, awning, panel, store, wind, supply and clock leave the hydraulic circuit, jacks and procedure, and
do not take the clock back (`Dry`). -/

namespace Sys2Proof.Machine

set_option Elab.async false

open Sys2Proof.Safety

/-- The circuit, jacks and procedure are as they were, and the clock has not gone back. -/
structure Dry (w z : Work) : Prop where
  wet : z.wet = w.wet
  clock : w.now ≤ z.now

theorem Dry.refl (w : Work) : Dry w w := ⟨rfl, Nat.le_refl _⟩

theorem Dry.trans {w z u : Work} (h₁ : Dry w z) (h₂ : Dry z u) : Dry w u :=
  ⟨h₂.wet.trans h₁.wet, Nat.le_trans h₁.clock h₂.clock⟩

/-- An operation on rooms and awning. -/
theorem Dry.of_still {w z : Work} (hw : z.wet = w.wet) (hs : z.still = w.still) : Dry w z :=
  ⟨hw, Nat.le_of_eq (now_of_still hs).symm⟩

theorem Dry.of_rfl {w z : Work} (hw : z.wet = w.wet := by rfl) (hn : z.now = w.now := by rfl) : Dry w z :=
  ⟨hw, Nat.le_of_eq hn.symm⟩

theorem Work.notBefore_dry (w : Work) (t : Time) : Dry w (w.notBefore t) := ⟨rfl, Nat.le_max_left _ _⟩

/-! ## Motor channels and store jobs -/

theorem Work.hallCount_dry (w : Work) (c : ChanId) : Dry w (w.hallCount c) := .of_still (w.hallCount_wet c) (w.hallCount_still c)

theorem Work.dutyUpdate_dry (w : Work) (c : ChanId) : Dry w (w.dutyUpdate c) := by
  simp only [Work.dutyUpdate]
  split
  · exact .refl w
  · split
    · exact .refl w
    · split
      · exact ((w.notBefore_dry _).trans .of_rfl).trans (.of_still (Work.updateMover_wet ..) (Work.updateMover_still ..))
      · exact .refl w

theorem Work.stallAt_dry (w : Work) (c : ChanId) (n : Nat) : Dry w (w.stallAt c n) := by
  simp only [Work.stallAt]
  split
  · split
    · exact ((w.notBefore_dry _).trans .of_rfl).trans (.of_still (Work.judgeStall_wet ..) (Work.judgeStall_still ..))
    · exact .refl w
  · exact .refl w

theorem Work.overcurrentAt_dry (w : Work) (c : ChanId) (n : Nat) : Dry w (w.overcurrentAt c n) := by
  simp only [Work.overcurrentAt]
  split
  · exact Dry.trans .of_rfl (.of_still (Work.judgeOvercurrent_wet ..) (Work.judgeOvercurrent_still ..))
  · exact .refl w

theorem Work.overspeedAt_dry (w : Work) (c : ChanId) (n : Nat) : Dry w (w.overspeedAt c n) := by
  simp only [Work.overspeedAt]
  split
  · exact (Dry.trans .of_rfl (Work.notBefore_dry _ _)).trans (Work.hallCount_dry _ c)
  · exact .refl w

theorem Work.retryExpiry_dry (w : Work) (c : ChanId) : Dry w (w.retryExpiry c) := by
  simp only [Work.retryExpiry]
  split
  · split
    · exact (w.notBefore_dry _).trans (.of_still (Work.endRetry_wet ..) (Work.endRetry_still ..))
    · exact .refl w
  · exact .refl w

theorem Work.stoppingEnd_dry (w : Work) (c : ChanId) : Dry w (w.stoppingEnd c) := by
  simp only [Work.stoppingEnd]
  split
  · split
    · exact (w.notBefore_dry _).trans (.of_still (Work.endChan_wet ..) (Work.endChan_still ..))
    · exact .refl w
  · exact .refl w

theorem Work.endJob_dry (w : Work) (j : Service) (f : BitVec 6) : Dry w (w.endJob j f) :=
  ⟨w.endJob_wet j f, Nat.le_of_eq (w.endJob_now j f).symm⟩

theorem Work.checkpointWritten_dry (w : Work) (c : ChanId) : Dry w (w.checkpointWritten c) := by
  simp only [Work.checkpointWritten]
  split
  · split
    · exact (w.notBefore_dry _).trans (Work.endJob_dry ..)
    · exact .refl w
  · exact .refl w

theorem Work.learnedWritten_dry (w : Work) : Dry w w.learnedWritten := by
  simp only [Work.learnedWritten]
  split
  · split
    · exact (w.notBefore_dry _).trans (Work.endJob_dry ..)
    · exact .refl w
  · exact .refl w

theorem Work.commitComplete_dry (w : Work) (f : BitVec 6) : Dry w (w.commitComplete f) := by
  simp only [Work.commitComplete]
  split
  · split
    · exact Work.endJob_dry ..
    · exact .refl w
  · exact .refl w

/-! ## Rooms, awning, panel and wind -/

theorem Work.leaseExpiry_dry (w : Work) (m : MoverId) : Dry w (w.leaseExpiry m) := by
  simp only [Work.leaseExpiry]
  split
  · exact (w.notBefore_dry _).trans (.of_still (Work.haltMover_wet ..) (Work.haltMover_still ..))
  · exact .refl w

theorem Work.holdOffExpiry_dry (w : Work) (m : MoverId) : Dry w (w.holdOffExpiry m) := by
  simp only [Work.holdOffExpiry]
  split
  · exact (w.notBefore_dry _).trans .of_rfl
  · exact .refl w

theorem Work.reversalExpiry_dry (w : Work) (m : MoverId) : Dry w (w.reversalExpiry m) := by
  simp only [Work.reversalExpiry]
  split
  · exact (w.notBefore_dry _).trans .of_rfl
  · exact .refl w

theorem Work.takeReversal_dry (w : Work) (m : MoverId) : Dry w (w.takeReversal m) :=
  .of_still (w.takeReversal_wet m) (w.takeReversal_still m)

theorem Work.roomDwellEnd_dry (w : Work) (m : MoverId) : Dry w (w.roomDwellEnd m) := by
  simp only [Work.roomDwellEnd]
  split
  · exact ((w.notBefore_dry _).trans .of_rfl).trans (Work.takeReversal_dry _ m)
  · exact .refl w

theorem Work.awningDwellEnd_dry (w : Work) : Dry w w.awningDwellEnd := by
  simp only [Work.awningDwellEnd]
  split
  · exact .refl w
  · split
    · exact ((w.notBefore_dry _).trans .of_rfl).trans (.of_still (Work.presentRetract_wet ..) (Work.presentRetract_still ..))
    · exact ((w.notBefore_dry _).trans .of_rfl).trans (Work.takeReversal_dry _ awn)

theorem Work.lockoutExpiry_dry (w : Work) : Dry w w.lockoutExpiry := by
  simp only [Work.lockoutExpiry]
  split
  · exact .refl w
  · exact (w.notBefore_dry _).trans .of_rfl

theorem Work.gust_dry (w : Work) (n : Nat) : Dry w (w.gust n) := by
  have hlockout : Dry w w.startLockout := .of_rfl
  have hretract := hlockout.trans (.of_still (w.startLockout.retractTrigger_wet .wind) (w.startLockout.retractTrigger_still .wind))
  simp only [Work.gust]
  exact hretract.trans .of_rfl

/-- The wind speed of a gate, with its run of gusts. -/
theorem Work.windGate_dry (w : Work) (n : Nat) : Dry w (w.windGate n) := by
  simp only [Work.windGate]
  split
  · have hjudged (x : Wind) : Dry w { w.notBefore (w.wind.gateEnd.getD 0) with wind := x } := (w.notBefore_dry _).trans .of_rfl
    split
    · exact (hjudged _).trans (Work.gust_dry _ _)
    · split
      · exact (hjudged _).trans .of_rfl
      · exact hjudged _
  · exact .refl w

theorem Work.settleSwitch_dry (w : Work) (m : MoverId) (d : Dir) (b : Bool) : Dry w (w.settleSwitch m d b) := by
  simp only [Work.settleSwitch]
  split
  · exact .refl w
  · exact (w.notBefore_dry _).trans .of_rfl

theorem Work.unpress_dry (w : Work) (m : MoverId) (d : Dir) : Dry w (w.unpress m d) := by
  simp only [Work.unpress]
  split
  · exact Dry.trans .of_rfl (.of_still (Work.releaseSwitch_wet ..) (Work.releaseSwitch_still ..))
  · exact .refl w

theorem Work.speedGate_dry (w : Work) (n : Nat) : Dry w (w.speedGate n) := (w.notBefore_dry _).trans .of_rfl

/-! ## Supply -/

theorem Work.judgeVoltage_dry (w : Work) (v : Nat) : Dry w (w.judgeVoltage v) :=
  ⟨w.judgeVoltage_wet v, Nat.le_of_eq (w.judgeVoltage_now v).symm⟩

theorem Work.lastLowVoltage_dry (w : Work) (x : SupplySide) : Dry w (w.lastLowVoltage x) := by
  cases x <;> exact .of_rfl

theorem Work.lastClearVoltage_dry (w : Work) (x : SupplySide) : Dry w (w.lastClearVoltage x) := by
  cases x <;> exact .of_rfl

theorem Work.withVoltage_dry (w : Work) (v : Nat) : Dry w (w.withVoltage v) := Dry.trans .of_rfl (Work.judgeVoltage_dry _ v)

theorem Work.sampleSupply_dry (w : Work) (n : Nat) : Dry w (w.sampleSupply n) := Dry.trans .of_rfl (Work.judgeVoltage_dry _ _)

end Sys2Proof.Machine
end

