-- ==== Sys2Proof/Proofs/HydClaims.lean ====
section
/-! PROOF. The law of the hydraulic circuit for the arrivals at a mover, whose reversals judge the head of the queue, and for the
sensors of the jacks (R35, R71..R73, R76). -/

namespace Sys2Proof.Machine

set_option Elab.async false

open Sys2Proof.Safety

/-! ## Arrivals at a mover (R33, R35, R40, R123) -/

/-- What an operation leaves of circuit and profile keeps the law. -/
theorem hydGood_of_quiet {w z : Work} (hw : z.wet = w.wet) (hs : z.still = w.still) (h : HydLaw w) : HydGood w z :=
  hydGood_of_still h hw hs

theorem Work.reverse_good {w : Work} (h : HydLaw w) (m : MoverId) (s : Source) (d : Dir) :
    HydGood w (w.reverse m s d).1 := by
  simp only [Work.reverse]
  split
  · split
    · have hremoved := hydGood_of_still h (w.removeQueued_wet m .reversed) (w.removeQueued_still m .reversed)
      exact (hremoved.trans Work.judgeHead_good).trans (hydGood_of_quiet (Work.claimFrom3_wet ..) (Work.claimFrom3_still ..))
    · exact hydGood_of_still h ((Work.stopMover_wet ..).trans rfl) ((Work.stopMover_still ..).trans rfl)
  · split
    · exact hydGood_of_still h (Work.haltMover_wet w m .reversed) (Work.haltMover_still w m .reversed)
    · exact hydGood_of_still h (Work.haltMover_wet w m .reversed) (Work.haltMover_still w m .reversed)

theorem Work.contend_good {w : Work} (h : HydLaw w) (m : MoverId) (s : Source) (d : Dir) :
    HydGood w (w.contend m s d).1 := by
  have hhalt : HydGood w (w.haltMover m .stopped) := hydGood_of_still h (w.haltMover_wet ..) (w.haltMover_still ..)
  simp only [Work.contend]
  split
  · exact hydGood_of_still h (w.contendStopping_wet ..) (w.contendStopping_still ..)
  · split
    · split
      · exact hhalt
      · split
        · exact .refl h
        · exact hhalt
    · exact .refl h
    · split
      · exact good_ite (fun _ => hydGood_of_still h (w.renew_wet m) (w.renew_still m)) fun _ => .refl h
      · split
        · exact .refl h
        · split
          · exact .refl h
          · exact Work.reverse_good h m s d

theorem Work.claimMove_good {w : Work} (h : HydLaw w) (m : MoverId) (s : Source) (d : Dir) :
    HydGood w (w.claimMove m s d).1 := by
  simp only [Work.claimMove]
  split
  · exact hydGood_of_still h (w.contendRetract_wet ..) (w.contendRetract_still ..)
  · simp only [Work.contendLearn]
    split
    · exact .refl h
    · exact Work.reverse_good h m s d
  · split
    · exact hydGood_of_still h rfl rfl
    · split
      · exact hydGood_of_still h (w.claimFrom3_wet ..) (w.claimFrom3_still ..)
      · exact Work.contend_good h m s d

theorem Work.pressClaim_good {w : Work} (h : HydLaw w) (m : MoverId) (d : Dir) : HydGood w (w.pressClaim m d) := by
  simp only [Work.pressClaim]
  split
  · exact hydGood_of_still h rfl rfl
  · split
    · exact Work.claimMove_good h m .panel d
    · exact (Work.claimMove_good h m .panel d).trans (hydGood_of_quiet rfl rfl)

theorem Work.pressSwitch_good {w : Work} (h : HydLaw w) (m : MoverId) (d : Dir) : HydGood w (w.pressSwitch m d) := by
  simp only [Work.pressSwitch]
  have hz (x : Mover) : HydGood w (w.setMv m x) := hydGood_of_still h rfl rfl
  split
  · exact (hz _).trans (hydGood_of_quiet (Work.bothPressed_wet ..) (Work.bothPressed_still ..))
  · split
    · exact hz _
    · exact (hz _).trans fun h => Work.pressClaim_good h m d

theorem Work.returnActive_good {w : Work} (h : HydLaw w) : HydGood w w.returnActive :=
  hydGood_of_core h rfl (.of_eq rfl rfl)

theorem Work.toActive_good {w : Work} (h : HydLaw w) : HydGood w w.toActive := by
  simp only [Work.toActive]
  exact good_ite (fun _ => Work.returnActive_good h) fun _ => .refl h

theorem Work.press_good {w : Work} (h : HydLaw w) (m : MoverId) (d : Dir) : HydGood w (w.press m d) := by
  simp only [Work.press]
  split
  · exact ((Work.toActive_good h).trans fun h => hydGood_of_wet (z := w.toActive.showSwitch m d true) h rfl rfl).trans
      fun h => Work.pressSwitch_good h m d
  · exact .refl h

/-! ## Grounded switches and strokes (R71..R73, R77) -/

theorem Jack.read_keeps (x : Jack) (b : Bool) : (x.read b).fenced = x.fenced ∧ (x.read b).fault = x.fault := by
  simp only [Jack.read]
  repeat' split
  all_goals exact ⟨rfl, rfl⟩

theorem Jack.outSample_keeps (x : Jack) (t : Time) :
    (x.outSample t).fenced = x.fenced ∧ (x.outSample t).fault = x.fault := by
  simp only [Jack.outSample]
  repeat' split
  all_goals exact ⟨rfl, rfl⟩

theorem Work.readSwitch_good {w : Work} (h : HydLaw w) (j : JackId) (b : Bool) : HydGood w (w.readSwitch j b) := by
  simp only [Work.readSwitch]
  split
  · have hz := Work.setJk_good h ((w.jk j).read_keeps b).1 ((w.jk j).read_keeps b).2
    split
    · exact hz
    · exact hz.trans Work.followGround_good
  · exact .refl h

theorem Work.scanBank_good {w : Work} (h : HydLaw w) : HydGood w w.scanBank := by
  simp only [Work.scanBank]
  have hread : HydGood w ((bankJacks w.hyd.bankB).foldl (fun w j => w.readSwitch j w.pins.psw[j]) w) :=
    foldl_good _ (fun h j => Work.readSwitch_good h j _) h
  generalize (bankJacks w.hyd.bankB).foldl (fun w j => w.readSwitch j w.pins.psw[j]) w = z at hread
  exact hread.trans fun h => hydGood_of_core h rfl (.of_eq rfl rfl)

theorem Work.showGround_good {w : Work} (h : HydLaw w) (j : JackId) (b : Bool) : HydGood w (w.showGround j b) :=
  hydGood_of_wet h rfl rfl

theorem Work.notBefore_good {w : Work} (h : HydLaw w) (t : Time) : HydGood w (w.notBefore t) :=
  hydGood_of_wet h rfl rfl (w.notBefore_dry t).clock

theorem Work.groundChange_good {w : Work} (h : HydLaw w) (j : JackId) (b : Bool) : HydGood w (w.groundChange j b) := by
  simp only [Work.groundChange]
  split
  · refine ((Work.showGround_good h j b).trans fun h => Work.setJk_good (w := w.showGround j b) (j := j) h ?_ ?_).trans
      fun h => Work.readSwitch_good h j b
    · split <;> rfl
    · split <;> rfl
  · exact .refl h

theorem Work.scanTimeout_good {w : Work} (h : HydLaw w) (j : JackId) (b : Bool) : HydGood w (w.scanTimeout j b) := by
  simp only [Work.scanTimeout]
  split
  · exact ((Work.notBefore_good h _).trans fun h => Work.showGround_good h j b).trans
      fun h => Work.setJk_good (w := (w.notBefore (w.loadAt + Config.scanSettle)).showGround j b) h rfl rfl
  · exact .refl h

theorem Work.atLimitSet_good {w : Work} (h : HydLaw w) (j : JackId) : HydGood w (w.atLimitSet j) := by
  have hfault (b : Bool) : HydGood w (if b = true then w.faultJack j .noGround else w) :=
    good_ite (fun _ => Work.faultJack_good h j _) fun _ => .refl h
  simp only [Work.atLimitSet]
  split
  · exact .refl h
  · split
    · exact good_ite (fun _ => (Work.dropSame_good h j).trans Work.checkWork_good) fun _ => .refl h
    · exact .refl h
    · split
      · refine good_ite (fun _ => ?_) fun _ => .refl h
        exact HydGood.trans (z := w.setLvl { w.lvl with limitMark := true }) (Work.setLvl_good h rfl)
          fun h => Work.leaveLift_good h j
      · exact hfault _
      · exact hfault _
      · exact .refl h

theorem Work.retractedSet_good {w : Work} (h : HydLaw w) (j : JackId) : HydGood w (w.retractedSet j) := by
  simp only [Work.retractedSet]
  split
  · exact .refl h
  · split
    · exact good_ite (fun _ => (Work.dropSame_good h j).trans Work.checkWork_good) fun _ => .refl h
    · exact (good_ite (fun _ => Work.setOpen_good h _) fun _ => .refl h).trans Work.checkWork_good
    · exact .refl h

theorem Work.judgeStrokeSensor_good {w : Work} (h : HydLaw w) (j : JackId) : HydGood w (w.judgeStrokeSensor j) := by
  simp only [Work.judgeStrokeSensor]
  split
  · refine HydGood.trans (Work.setJk_good h ?_ ?_) fun h => Work.faultJack_good h j .strokeSensor
    · rfl
    · rfl
  · split
    · exact Work.setJk_good h rfl rfl
    · exact .refl h

theorem Work.sampleStroke_good {w : Work} (h : HydLaw w) (j : JackId) (raw : Nat) : HydGood w (w.sampleStroke j raw) := by
  simp only [Work.sampleStroke]
  split
  · split
    · have hz := Work.setJk_good (x := (w.jk j).inSample (strokeOf raw (w.prof (0x0408 + j.val)) (w.prof (0x0410 + j.val)))
        (w.profN 0x0403) (w.profN 0x0404) w.now) h rfl rfl
      refine (hz.trans fun h => good_ite (fun _ => Work.atLimitSet_good h j) fun _ => .refl h).trans fun h =>
        good_ite (fun _ => Work.retractedSet_good h j) fun _ => .refl h
    · exact (Work.setJk_good h ((w.jk j).outSample_keeps _).1 ((w.jk j).outSample_keeps _).2).trans
        fun h => Work.judgeStrokeSensor_good h j
  · exact .refl h

theorem Work.strokeAt_good {w : Work} (h : HydLaw w) (j : JackId) (raw : BitVec 12) : HydGood w (w.strokeAt j raw) := by
  simp only [Work.strokeAt]
  split
  · have hshown (t : Time) : HydGood w ((w.notBefore t).showStroke j raw) :=
      (Work.notBefore_good h t).trans fun h => hydGood_of_wet h rfl rfl
    exact (hshown _).trans fun h => Work.sampleStroke_good h j _
  · exact .refl h

theorem Work.thirdOutOfRange_good {w : Work} (h : HydLaw w) (j : JackId) (raw : BitVec 12) :
    HydGood w (w.thirdOutOfRange j raw) := by
  simp only [Work.thirdOutOfRange]
  refine (Work.setJk_good (w := w) (j := j) h ?_ ?_).trans fun h => Work.strokeAt_good h j raw
  · split <;> rfl
  · split <;> rfl

theorem Work.lastLowSample_good {w : Work} (h : HydLaw w) (j : JackId) (raw : BitVec 12) :
    HydGood w (w.lastLowSample j raw) := by
  have hz : ∀ {z : Work}, z.jk j = w.jk j → HydGood w z →
      HydGood w ((z.setJk j { w.jk j with lowRun := 49, samples := max 49 (w.jk j).samples }).strokeAt j raw) := by
    intro z hj hz
    exact (hz.trans fun h => Work.setJk_good (w := z) (j := j) h (by rw [hj]) (by rw [hj])).trans
      fun h => Work.strokeAt_good h j raw
  simp only [Work.lastLowSample]
  split
  · exact hz rfl (.refl h)
  · exact hz rfl (Work.notBefore_good h _)

end Sys2Proof.Machine
end

