-- ==== Sys2Proof/Proofs/HydEvents.lean ====
section
/-! PROOF. The law of the hydraulic circuit for every event. All but the ends of pump dwell and rest leave the pump steady. -/

namespace Sys2Proof.Machine

set_option Elab.async false

open Sys2Proof.Safety

/-! ## Tilt (R84..R89) -/

theorem Work.zeroSample_good {w : Work} (h : HydLaw w) : HydGood w w.zeroSample := by
  simp only [Work.zeroSample]
  split
  · exact .refl h
  · split
    · exact hydGood_of_wet h rfl rfl
    · split
      · exact hydGood_of_wet h rfl rfl
      · refine (HydGood.trans ?_ fun h => hydGood_of_still h (Work.askLearned_wet _) (Work.askLearned_still _)).trans
          fun h => Work.emit_good h _
        exact hydGood_of_wet h rfl rfl

theorem Work.abortZero_base (w : Work) : w.abortZero.base = w.base := by
  simp only [Work.abortZero]
  split <;> rfl

theorem Work.abortZero_good {w : Work} (h : HydLaw w) : HydGood w w.abortZero :=
  hydGood_of_wet h w.abortZero_wet w.abortZero_base (Nat.le_of_eq w.abortZero_now.symm)

/-- A write of the tilt record. -/
theorem Work.setTilt_good {w : Work} (h : HydLaw w) (t : Tilt) : HydGood w { w with tilt := t } := hydGood_of_wet h rfl rfl

theorem Work.setTiltFault_good {w : Work} (h : HydLaw w) : HydGood w w.setTiltFault := by
  simp only [Work.setTiltFault]
  refine ((HydGood.trans (Work.setTilt_good h _) fun h => Work.setLvl_good h ?_).trans
    fun h => Work.endLevel_good h _).trans fun h => Work.abortZero_good h
  rfl

theorem Work.filteredSample_good {w : Work} (h : HydLaw w) (x y : Nat) : HydGood w (w.filteredSample x y) := by
  simp only [Work.filteredSample]
  split
  · exact (Work.setTilt_good h _).trans fun h => good_ite (fun _ => Work.setTiltFault_good h) fun _ => .refl h
  · split
    · exact Work.setTilt_good h _
    · exact ((Work.setTilt_good h _).trans Work.tiltSample_good).trans Work.zeroSample_good

theorem Work.blockEnd_good {w : Work} (h : HydLaw w) (x y : BitVec 15) : HydGood w (w.blockEnd x y) := by
  have hshown (t : Time) (a b : BitVec 12) : HydGood w ((w.notBefore t).showTilt a b) :=
    (Work.notBefore_good h t).trans fun h => hydGood_of_wet h rfl rfl
  simp only [Work.blockEnd]
  split
  · exact (hshown _ _ _).trans fun h => Work.filteredSample_good h _ _
  · exact .refl h

theorem Work.lastDrift_good {w : Work} (h : HydLaw w) : HydGood w w.lastDrift := by
  simp only [Work.lastDrift]
  exact good_ite (fun _ => Work.setLvl_good h rfl) fun _ => .refl h

/-! ## Deadlines (R62, R66, R72, R79, R81, R105..R113, R144) -/

theorem Work.noGround_good {w : Work} (h : HydLaw w) : HydGood w w.noGround := by
  simp only [Work.noGround]
  refine (foldl_good allJacks (fun h j => ?_) h).trans fun h => Work.endLevel_good h _
  exact good_ite (fun _ => Work.giveFault_good h j _) fun _ => .refl h

theorem Work.atDeadline_good {w : Work} (h : HydLaw w) {p : LevelPhase} {f : Work → Work}
    (hf : ∀ {z : Work}, HydLaw z → z.lvl.phase = p → HydGood z (f z)) : HydGood w (w.atDeadline p f) := by
  simp only [Work.atDeadline]
  split
  · next t _ =>
    split
    · next hp => exact (Work.notBefore_good h t).trans fun h => hf h hp
    · exact .refl h
  · exact .refl h

theorem Work.stowTimeout_good {w : Work} (h : HydLaw w) : HydGood w w.stowTimeout := by
  simp only [Work.stowTimeout]
  split
  · exact .refl h
  · split
    · refine ((Work.notBefore_good h _).trans fun h => foldl_good allJacks (fun h j => ?_) h).trans Work.checkWork_good
      simp only [Work.stowTimeoutJack]
      exact good_ite (fun _ => Work.giveFault_good h j _) fun _ => .refl h
    · exact .refl h

theorem HydLaw.lease_idle {w : Work} (h : HydLaw w) {a : HydActivity} (ha : w.hyd.activity = some a)
    (hl : a.lease.isSome = true) : w.lvl.phase = .idle :=
  (h.serves ha).proc.1.2 (by rw [(h.serves ha).lease hl]; nofun)

theorem Work.manualExpiry_good {w : Work} (h : HydLaw w) : HydGood w w.manualExpiry := by
  simp only [Work.manualExpiry]
  split
  · exact .refl h
  · next a ha =>
    split
    · next t ht =>
      have hi : w.lvl.phase = .idle := h.lease_idle ha (by rw [ht]; rfl)
      exact (Work.notBefore_good h t).trans fun h => Work.endActivity_good (w := w.notBefore t) h hi _
    · exact .refl h

theorem Work.overrunStop_law {w : Work} (h : HydLaw w) : HydLaw w.overrunStop ∧ Slowed w w.overrunStop := by
  obtain ⟨hlaw, hslowed, -⟩ := Work.endWork_law h .pumpOverrun true rfl
  exact ⟨hlaw, hslowed⟩

theorem Work.pumpOverrun_law {w : Work} (h : HydLaw w) : HydLaw w.pumpOverrun ∧ Slowed w w.pumpOverrun := by
  simp only [Work.pumpOverrun]
  split
  · exact Work.overrunStop_law (Work.notBefore_good h _).law
  · exact ⟨h, (Steady.refl w).slowed⟩

theorem Work.maxWaitEnd_good {w : Work} (h : HydLaw w) (t : Fin 6) : HydGood w (w.maxWaitEnd t) := by
  simp only [Work.maxWaitEnd]
  split
  · exact .refl h
  · next q _ =>
    refine (Work.notBefore_good h q.waitEnd).trans fun h => ?_
    split
    · exact hydGood_of_still h (Work.removeQueued_wet ..) (Work.removeQueued_still ..)
    · exact Work.endWork_good h _

/-! ## The bus (R140) -/

theorem Work.setSup_good {w : Work} (h : HydLaw w) (s : Supply) : HydGood w { w with sup := s } := hydGood_of_wet h rfl rfl

theorem Work.busTrip_good {w : Work} (h : HydLaw w) (n : Nat) : HydGood w (w.busTrip n) := by
  simp only [Work.busTrip]
  have hhalted {z : Work} (h : HydLaw z) : HydGood z (allMovers.foldl Work.tripMover z) :=
    foldl_good allMovers (fun h m => hydGood_of_still h (Work.haltMover_wet _ m _) (Work.haltMover_still _ m _)) h
  have hdropped {z : Work} (h : HydLaw z) : HydGood z (z.dropRetract .overcurrentBus) :=
    hydGood_of_still h (Work.dropRetract_wet ..) (Work.dropRetract_still ..)
  exact (((Work.setSup_good h _).trans hhalted).trans hdropped).trans fun h =>
    (Work.endWork_good h _).trans fun h => Work.emit_good h _

theorem Work.judgeBus_good {w : Work} (h : HydLaw w) (n : Nat) : HydGood w (w.judgeBus n) := by
  simp only [Work.judgeBus]
  generalize (if (decide (w.busLimit < n) != w.sup.tripped) = true then w.sup.busRun + 1 else 0) = run
  split
  · split
    · exact hydGood_of_wet h rfl rfl
    · exact HydGood.trans (z := { w with sup := { w.sup with busSum := n } }) (Work.setSup_good h _)
        fun h => Work.busTrip_good h n
  · exact hydGood_of_wet h rfl rfl

theorem Work.lastBus_good {w : Work} (h : HydLaw w) (b : Bool) : HydGood w (w.lastBus b) := by
  simp only [Work.lastBus]
  exact good_ite (fun _ => Work.setSup_good h _) fun _ => .refl h

/-! ## Coach inputs (R67, R128, R155) -/

theorem Work.putLevel_good {w : Work} (h : HydLaw w) (i : CoachInput) (b : Bool) : HydGood w (w.putLevel i b) :=
  hydGood_of_wet h rfl rfl

theorem Work.handToPower_good {w : Work} (h : HydLaw w) (i : CoachInput) (b : Bool) : HydGood w (w.handToPower i b) := by
  simp only [Work.handToPower]
  split
  · exact Work.toActive_good h
  · exact Work.toActive_good h
  · exact Work.toActive_good h
  · exact .refl h

theorem Work.inputSettled_good {w : Work} (h : HydLaw w) (i : CoachInput) (b : Bool) : HydGood w (w.inputSettled i b) := by
  simp only [Work.inputSettled]
  split
  · exact .refl h
  · exact ((Work.notBefore_good h _).trans fun h => Work.putLevel_good h i b).trans fun h =>
      good_ite (fun _ => .refl h) fun _ => Work.handToPower_good h i b

theorem Work.ignTrigger_good {w : Work} (h : HydLaw w) (i : CoachInput) (b : Bool) : HydGood w (w.ignTrigger i b) := by
  simp only [Work.ignTrigger]
  exact good_ite (fun _ => hydGood_of_still h (w.retractTrigger_wet _) (w.retractTrigger_still _)) fun _ => .refl h

theorem Work.inputChange_good {w : Work} (h : HydLaw w) (i : CoachInput) (b : Bool) : HydGood w (w.inputChange i b) := by
  simp only [Work.inputChange]
  split
  · exact ((Work.putLevel_good h i b).trans fun h => Work.handToPower_good h i b).trans fun h => Work.ignTrigger_good h i b
  · exact .refl h

end Sys2Proof.Machine
end

