-- ==== Sys2Proof/Proofs/HydEventLaw.lean ====
section
/-! PROOF. The law of the hydraulic circuit for the ends of pump dwell and rest, and for all events together (R61, R66). -/

namespace Sys2Proof.Machine

set_option Elab.async false

open Sys2Proof.Safety

/-! ## The pump becomes OFF (R61, R66) -/

/-- The work whose pump has become OFF. -/
def Work.pumpOff (w : Work) : Work := { w with hyd := { w.hyd with pump := .off, dwellEnd := none } }

theorem Serves.phase_of_pending {w : Work} {a : HydActivity} (h : Serves w a) (hs : w.hyd.pendingStart = true) :
    a.phase = .running := by
  by_contra hp
  rw [(h.pump.1 hp).2] at hs
  cases hs

theorem Serves.waits_zero {w : Work} {a : HydActivity} (h : Serves w a) (hp : a.phase ≠ .waiting) : w.bud.waits = 0 := by
  by_contra hw
  exact hp (h.waits hw)

theorem Serves.startable {w : Work} {a : HydActivity} (h : Serves w a) (hp : a.phase ≠ .waiting) : Startable w a :=
  ⟨h.toFormed, h.waits_zero hp, h.proc.1.2⟩

theorem pumpOff_law {w : Work} (h : HydLaw w) (hd : w.hyd.pump = .dwell) (hs : w.hyd.pendingStart = false) :
    HydLaw w.pumpOff := by
  cases ha : w.hyd.activity with
  | none =>
    obtain ⟨hn, hl⟩ := h.none ha
    exact .of_none ha ⟨nofun, hs, hn.waits⟩ hl
  | some a =>
    have hv := h.serves ha
    have hrun : ¬ a.phase = .running := by
      intro hp
      rcases hv.pump.2 hp with ⟨e, -⟩ | ⟨-, e⟩
      · rw [hd] at e; cases e
      · rw [hs] at e; cases e
    obtain ⟨hidle, hsettling, -, hpumps⟩ := hv.proc
    refine .of_serves (w := w.pumpOff) ha ⟨hv.toFormed.same (.of_eq rfl rfl), ⟨fun _ => ⟨.inl rfl, hs⟩, fun e => absurd e hrun⟩,
      ⟨hidle, hsettling, fun _ => nofun, fun e => ?_⟩, hv.waits, hv.one⟩
    rw [hd] at hpumps
    exact nomatch hpumps e

theorem Work.pumpDwellEnd_law {w : Work} (h : HydLaw w) : HydLaw w.pumpDwellEnd := by
  simp only [Work.pumpDwellEnd]
  split
  · next hd =>
    have hz := (Work.notBefore_good h (w.hyd.dwellEnd.getD 0)).law
    have hdz : (w.notBefore (w.hyd.dwellEnd.getD 0)).hyd.pump = .dwell := hd
    have hoff : HydLaw (if (w.notBefore (w.hyd.dwellEnd.getD 0)).pumpOff.hyd.pendingStart
        then (w.notBefore (w.hyd.dwellEnd.getD 0)).pumpOff.pumpRun else (w.notBefore (w.hyd.dwellEnd.getD 0)).pumpOff) := by
      generalize w.notBefore (w.hyd.dwellEnd.getD 0) = z at hz hdz
      split
      · next hs =>
        obtain ⟨a, ha⟩ : ∃ a, z.hyd.activity = some a := by
          cases ha : z.hyd.activity with
          | none => exact nomatch (hz.none ha).1.start.symm.trans hs
          | some a => exact ⟨a, rfl⟩
        have hv := hz.serves ha
        have hphase := hv.phase_of_pending hs
        rw [Work.pumpRun_eq (w := z.pumpOff) ha]
        have hst := hv.startable (by rw [hphase]; nofun)
        exact Work.atPumpStart_good (w := z.pumpOff) ⟨hst.formed.same (.of_eq rfl rfl), hst.waits, hst.idle⟩
      · next hs => exact pumpOff_law hz hdz (Bool.eq_false_iff.2 hs)
    exact hoff
  · exact h

theorem HydLaw.not_rest {w : Work} (h : HydLaw w) {a : HydActivity} (ha : w.hyd.activity = some a) : w.hyd.pump ≠ .rest := by
  intro hr
  have hv := (h.serves ha).pump
  simp only [PumpServes, hr] at hv
  by_cases hp : a.phase = .running
  · rcases hv.2 hp with ⟨e, -⟩ | ⟨e, -⟩ <;> cases e
  · rcases (hv.1 hp).1 with e | e <;> cases e

theorem Work.pumpRestEnd_law {w : Work} (h : HydLaw w) : HydLaw w.pumpRestEnd := by
  simp only [Work.pumpRestEnd]
  split
  · next hr =>
    cases ha : w.hyd.activity with
    | some a => exact absurd hr (h.not_rest ha)
    | none =>
      obtain ⟨hn, hl⟩ := h.none ha
      exact .of_none ha ⟨nofun, hn.start, hn.waits⟩ hl
  · exact h

/-! ## Every event -/

/-- The events that may take a pump from DWELL or REST to OFF. -/
def PumpFreed (w z : Work) : Prop := z = w.pumpDwellEnd ∨ z = w.pumpRestEnd

/-- What an event leaves of the circuit keeps the law. -/
theorem EventWork.hydGood_of_dry {w z : Work} (h : HydLaw w) (he : EventWork w z) (hd : Dry w z) : HydGood w z :=
  hydGood_of_wet h hd.wet (base_of_frame he.frame) hd.clock

theorem EventWork.hydGood {w z : Work} (h : HydLaw w) (he : EventWork w z) : PumpFreed w z ∨ z = w.pumpOverrun ∨ HydGood w z := by
  have hdry := fun hd => he.hydGood_of_dry h hd
  cases he with
  | pumpDwellEnd => exact .inl (.inl rfl)
  | pumpRestEnd => exact .inl (.inr rfl)
  | settleSwitch m d b => exact .inr (.inr (hdry (w.settleSwitch_dry m d b)))
  | inputSettled i b => exact .inr (.inr (Work.inputSettled_good h i b))
  | inputChange i b => exact .inr (.inr (Work.inputChange_good h i b))
  | hallCount c n => exact .inr (.inr (hdry (by split <;> [exact (w.notBefore_dry _).trans (Work.hallCount_dry _ c); exact .refl w])))
  | dutyUpdate c => exact .inr (.inr (hdry (w.dutyUpdate_dry c)))
  | stallAt c n => exact .inr (.inr (hdry (w.stallAt_dry c n)))
  | judgeStall m c mo => exact .inr (.inr (hdry (.of_still (w.judgeStall_wet m c mo) (w.judgeStall_still m c mo))))
  | overcurrentAt c n => exact .inr (.inr (hdry (w.overcurrentAt_dry c n)))
  | judgeOvercurrent c => exact .inr (.inr (hdry (.of_still (w.judgeOvercurrent_wet c) (w.judgeOvercurrent_still c))))
  | overspeedAt c n => exact .inr (.inr (hdry (w.overspeedAt_dry c n)))
  | retryExpiry c => exact .inr (.inr (hdry (w.retryExpiry_dry c)))
  | stoppingEnd c => exact .inr (.inr (hdry (w.stoppingEnd_dry c)))
  | checkpointWritten c => exact .inr (.inr (hdry (w.checkpointWritten_dry c)))
  | learnedWritten => exact .inr (.inr (hdry w.learnedWritten_dry))
  | commitComplete f => exact .inr (.inr (hdry (w.commitComplete_dry f)))
  | leaseExpiry m => exact .inr (.inr (hdry (w.leaseExpiry_dry m)))
  | holdOffExpiry m => exact .inr (.inr (hdry (w.holdOffExpiry_dry m)))
  | reversalExpiry m => exact .inr (.inr (hdry (w.reversalExpiry_dry m)))
  | roomDwellEnd r => exact .inr (.inr (hdry (w.roomDwellEnd_dry (roomMover r))))
  | awningDwellEnd => exact .inr (.inr (hdry w.awningDwellEnd_dry))
  | press m d => exact .inr (.inr (Work.press_good h m d))
  | unpress m d => exact .inr (.inr (hdry (w.unpress_dry m d)))
  | windGate n => exact .inr (.inr (hdry (w.windGate_dry n)))
  | lockoutExpiry => exact .inr (.inr (hdry w.lockoutExpiry_dry))
  | pumpOverrun => exact .inr (.inl rfl)
  | stowTimeout => exact .inr (.inr (Work.stowTimeout_good h))
  | manualExpiry => exact .inr (.inr (Work.manualExpiry_good h))
  | groundChange j b => exact .inr (.inr (Work.groundChange_good h j b))
  | scanBank => exact .inr (.inr (Work.scanBank_good h))
  | scanTimeout j b => exact .inr (.inr (Work.scanTimeout_good h j b))
  | strokeAt j raw => exact .inr (.inr (Work.strokeAt_good h j raw))
  | thirdOutOfRange j raw => exact .inr (.inr (good_ite (fun _ => Work.thirdOutOfRange_good h j raw) fun _ => .refl h))
  | lastLowSample j raw => exact .inr (.inr (good_ite (fun _ => Work.lastLowSample_good h j raw) fun _ => .refl h))
  | blockEnd x y => exact .inr (.inr (Work.blockEnd_good h x y))
  | thirdRail x y =>
    exact .inr (.inr (good_ite (fun _ => (Work.setTilt_good h _).trans fun h => Work.blockEnd_good h x y) fun _ => .refl h))
  | lastGood x y =>
    exact .inr (.inr (good_ite (fun _ => (Work.setTilt_good h _).trans fun h => Work.blockEnd_good h x y) fun _ => .refl h))
  | lastDrift x y =>
    exact .inr (.inr (good_ite (fun _ => (Work.lastDrift_good h).trans fun h => Work.blockEnd_good h x y) fun _ => .refl h))
  | touchdownDeadline => exact .inr (.inr (Work.atDeadline_good h fun h _ => Work.noGround_good h))
  | levellingDeadline =>
    refine .inr (.inr (Work.atDeadline_good h fun h hp => ?_))
    obtain ⟨a, hr⟩ := h.levelRuns (.inr (.inl hp))
    exact Work.enterStabilize_good hr _
  | stabilizeDeadline => exact .inr (.inr (Work.atDeadline_good h fun h _ => Work.noGround_good h))
  | settleTimeEnd => exact .inr (.inr (Work.atDeadline_good h fun h _ => Work.settleEnd_good h))
  | supplySet x v => exact .inr (.inr (hdry ((w.lastLowVoltage_dry x).trans (Work.withVoltage_dry _ v))))
  | supplyClear x v => exact .inr (.inr (hdry ((w.lastClearVoltage_dry x).trans (Work.withVoltage_dry _ v))))
  | sampleSupply n => exact .inr (.inr (hdry (w.sampleSupply_dry n)))
  | busAt b n =>
    exact .inr (.inr (good_ite (fun _ => (Work.lastBus_good h b).trans fun h => Work.judgeBus_good h n) fun _ => .refl h))
  | judgeBus => exact .inr (.inr (good_ite (fun _ => Work.judgeBus_good h _) fun _ => .refl h))
  | maxWaitEnd t => exact .inr (.inr (Work.maxWaitEnd_good h t))
  | speedGate n => exact .inr (.inr (hdry (w.speedGate_dry n)))
  | nothing => exact .inr (.inr (.refl h))

/-- Every event keeps the law. -/
theorem EventWork.hydLaw {w z : Work} (h : HydLaw w) (he : EventWork w z) : HydLaw z := by
  rcases he.hydGood h with (rfl | rfl) | rfl | hz
  · exact Work.pumpDwellEnd_law h
  · exact Work.pumpRestEnd_law h
  · exact (Work.pumpOverrun_law h).1
  · exact hz.law

end Sys2Proof.Machine
end

