-- ==== Sys2Proof/Proofs/HydRequests.lean ====
section
/-! PROOF. The law of the hydraulic circuit for every request (R64..R82, R103, R157, R183). -/

namespace Sys2Proof.Machine

set_option Elab.async false

open Sys2Proof.Safety

/-! ## The start of an activity (R65) -/

/-- The activity handed to `startActivity`. -/
def Work.withActivity (w : Work) (a : HydActivity) : Work := { w with hyd := { w.hyd with activity := some a } }

theorem Work.startActivity_cases (w : Work) (a : HydActivity) :
    (w.startActivity a = (w, replyQueueFull)) ∨ (w.startActivity a).1 = (w.withActivity a).presentPump.1 ∧
      (w.startActivity a).2.status ≠ .queueFull := by
  simp only [Work.startActivity, Work.withActivity]
  split
  · next h => exact .inr ⟨by rw [h], nofun⟩
  · next h => exact .inr ⟨by rw [h], nofun⟩
  · exact .inl rfl

/-- The circuit is free: no activity, and the pump not in REST. -/
structure CircuitFree (w : Work) : Prop where
  law : HydLaw w
  loaded : w.stage.loaded = true
  activity : w.hyd.activity = none
  rest : w.hyd.pump ≠ .rest

theorem CircuitFree.pump {w : Work} (h : CircuitFree w) : w.hyd.pump = .off ∨ w.hyd.pump = .dwell := by
  have hrun := (h.law.none h.activity).1.pump
  have hrest := h.rest
  cases hp : w.hyd.pump
  · exact .inl rfl
  · exact absurd hp hrun
  · exact .inr rfl
  · exact absurd hp hrest

/-- A new activity on a free circuit, with the phase of the procedure that goes with it. -/
theorem Work.startActivity_good {w z : Work} {a : HydActivity} (h : CircuitFree w) (hf : Formed w a)
    (hh : z.hyd = w.hyd) (hb : z.bud = w.bud) (hs : SamePart w z) (hl : a.kind = .level → z.lvl.phase = .waiting)
    (hi : a.kind ≠ .level → z.lvl.phase = .idle) (hclock : w.now ≤ z.now := by exact Nat.le_refl _) :
    z.startActivity a = (z, replyQueueFull) ∨ (z.startActivity a).2.status ≠ .queueFull ∧ HydGood w (z.startActivity a).1 := by
  obtain ⟨hn, -⟩ := h.law.none h.activity
  rcases z.startActivity_cases a with e | ⟨e, hne⟩
  · exact .inl e
  · refine .inr ⟨hne, ?_⟩
    have hpump := h.pump
    rw [← hh] at hpump
    have hstart : z.hyd.pendingStart = false := by rw [hh]; exact hn.start
    have hwaits : z.bud.waits = 0 := by rw [hb]; exact hn.waits
    have hsteady : Steady w z := .of_eq (by rw [hh]) (by rw [hh]) (by rw [hh]) hclock
    have hgood := Work.presentPump_good (w := z.withActivity a) (a := a) rfl
      ⟨⟨(hf.same hs).same (.of_eq rfl rfl), hwaits, hi⟩, hpump, hstart, hl⟩
    rw [e]
    exact ⟨hgood.law, hsteady.trans (Steady.trans (z := z.withActivity a) (.of_eq rfl rfl) hgood.steady)⟩

theorem Work.startActivity_idle_good {w : Work} {a : HydActivity} (h : CircuitFree w) (hf : Formed w a)
    (hk : a.kind ≠ .level) : HydGood w (w.startActivity a).1 := by
  rcases Work.startActivity_good h hf rfl rfl (.of_eq rfl rfl) (fun e => absurd e hk)
    (fun _ => (h.law.none h.activity).2) with e | ⟨-, hg⟩
  · rw [e]; exact .refl h.law
  · exact hg

/-- A set of jacks that are present, neither fenced nor FAULTED. -/
def SoundJacks (w : Work) (s : JackSet) : Prop :=
  ∀ j, s.has j = true → w.jackPresent j = true ∧ (w.jk j).fenced = false ∧ (w.jk j).fault = none

theorem sound_jacksWhere {w : Work} {p : JackId → Bool}
    (h : ∀ j, p j = true → w.jackPresent j = true ∧ (w.jk j).fenced = false ∧ (w.jk j).fault = none) :
    SoundJacks w (jacksWhere p) := by
  intro j hj
  rw [JackSet.has_jacksWhere] at hj
  exact h j hj

theorem Formed.of_sound {w : Work} {a : HydActivity} (hw : w.stage.loaded = true) (hs : SoundJacks w a.jackSet)
    (ho : ∀ j, a.openSet.has j = true → a.jackSet.has j = true) (hl : a.kind = .level → a.dir = .outward)
    (hst : a.kind = .stow → a.dir = .inward) (hm : a.lease.isSome = true → a.kind = .manual) : Formed w a :=
  ⟨hw, fun j => ⟨ho j, hs j⟩, hl, hst, hm⟩

theorem sound_ready (w : Work) (p : JackId → Bool) :
    SoundJacks w (jacksWhere fun j => w.jackPresent j && p j && !(w.jk j).fenced && (w.jk j).fault.isNone) := by
  refine sound_jacksWhere fun j hj => ?_
  simp only [Bool.and_eq_true, Bool.not_eq_true', Option.isNone_iff_eq_none] at hj
  obtain ⟨⟨⟨hp, -⟩, hf⟩, hx⟩ := hj
  exact ⟨hp, hf, hx⟩

theorem Work.levelActivity_formed {w : Work} (hw : w.stage.loaded = true) : Formed w w.levelActivity := by
  have hsound := sound_ready w fun _ => true
  simp only [Bool.and_true] at hsound
  have hno (j : JackId) : noJacks.has j = false := by simp [noJacks, JackSet.has]
  exact Formed.of_sound hw hsound (fun j hj => (nomatch (hno j).symm.trans hj)) (fun _ => rfl) nofun nofun

theorem Work.acceptLevel_good {w : Work} (h : CircuitFree w) (k : LevelMode) : HydGood w (w.acceptLevel k).1 := by
  rw [Work.acceptLevel_eq]
  rcases Work.startActivity_good (z := w.levelBegun k) h (Work.levelActivity_formed h.loaded) rfl rfl (.of_eq rfl rfl)
    (fun _ => rfl) (fun e => absurd rfl e) with e | ⟨hne, hg⟩
  · rw [e]; exact .refl h.law
  · rw [if_neg hne]; exact hg

theorem Work.doLevelStart_good {w : Work} (h : HydLaw w) (hw : w.stage.loaded = true) (m : Byte) :
    HydGood w (w.doLevelStart m).1 := by
  simp only [Work.doLevelStart]
  split
  · exact .refl h
  · split
    · exact .refl h
    · split
      · exact .refl h
      · split
        · exact .refl h
        · next k _ _ hr =>
          simp only [Work.levelRefusal] at hr
          split at hr
          · cases hr
          · next ha =>
            split at hr
            · cases hr
            · next hrest => exact Work.acceptLevel_good ⟨h, hw, by simpa using ha, hrest⟩ k

/-- What checks 2 and 3 of JACK_MOVE say of the jacks of the mask (R80). -/
theorem Work.mask_sound {w : Work} {mask : Byte} (hok : w.maskOk mask = true) (hr : w.maskRefusal mask = none) (d : Dir) :
    SoundJacks w (w.movable mask d) := by
  refine sound_jacksWhere fun j hj => ?_
  simp only [Bool.and_eq_true] at hj
  obtain ⟨hm, -⟩ := hj
  have hmem : j ∈ allJacks := mem_allJacks j
  simp only [Work.maskOk, Bool.and_eq_true, List.all_eq_true, Bool.or_eq_true, Bool.not_eq_true'] at hok
  obtain ⟨-, hpresent⟩ := hok
  simp only [Work.maskRefusal] at hr
  split at hr
  · cases hr
  · next hf =>
    split at hr
    · cases hr
    · next hx =>
      simp only [List.any_eq_true, Bool.and_eq_true, not_exists, not_and] at hf hx
      refine ⟨(hpresent j hmem).resolve_left (by rw [hm]; nofun), Bool.eq_false_iff.2 (hf j hmem hm), ?_⟩
      simpa using hx j hmem hm

theorem Work.newMove_good {w : Work} (h : HydLaw w) (hw : w.stage.loaded = true) (ha : w.hyd.activity = none) (m : Byte)
    (d : Dir) : HydGood w (w.newMove m d).1 := by
  simp only [Work.newMove]
  split
  · next hok =>
    split
    · exact .refl h
    · next hr =>
      split
      · exact .refl h
      · next hrest =>
        split
        · exact .refl h
        · split
          · exact .refl h
          · exact Work.startActivity_idle_good ⟨h, hw, ha, hrest⟩
              (Formed.of_sound hw (Work.mask_sound hok hr d) (fun _ hj => hj) nofun nofun fun _ => rfl) nofun
  · exact .refl h

theorem Work.doStow_good {w : Work} (h : HydLaw w) (hw : w.stage.loaded = true) : HydGood w w.doStow.1 := by
  simp only [Work.doStow]
  split
  · exact .refl h
  · split
    · exact .refl h
    · split
      · exact .refl h
      · next ha =>
        simp only [Work.stowRequest]
        split
        · exact .refl h
        · next hrest =>
          split
          · exact .refl h
          · split
            · exact .refl h
            · split
              · exact .refl h
              · exact Work.startActivity_idle_good ⟨h, hw, by simpa using ha, hrest⟩
                  (Formed.of_sound hw (sound_ready w _) (fun _ hj => hj) nofun (fun _ => rfl) nofun) nofun

theorem Work.renewMove_good {w : Work} (h : HydLaw w) {a : HydActivity} (ha : w.hyd.activity = some a)
    (hk : a.kind = .manual) {s : JackSet} (hs : SoundJacks w s) : HydGood w (w.renewMove s) := by
  have hv := h.serves ha
  simp only [Work.renewMove]
  refine HydGood.trans ?_ fun h => Work.checkWork_good h
  have hf : Formed w { a with lease := some (w.now + w.holdWindow), jackSet := s, openSet := s } :=
    Formed.of_sound hv.loaded hs (fun _ hj => hj) hv.level hv.stow fun _ => hk
  have hwaits := w.bud.waits_map (f := fun e => if e.target = hydTarget then { e with lease := some (w.now + w.holdWindow) } else e)
    fun q => by split <;> rfl
  refine ⟨.of_serves (a := { a with lease := some (w.now + w.holdWindow), jackSet := s, openSet := s }) (by simp only [ha]; rfl)
    ⟨hf.same (.of_eq rfl rfl), hv.pump, hv.proc, fun e => hv.waits (hwaits ▸ e), hwaits ▸ hv.one⟩, .of_eq rfl rfl⟩

theorem Work.moveAgain_good {w : Work} (h : HydLaw w) {a : HydActivity} (ha : w.hyd.activity = some a)
    (hk : a.kind = .manual) (m : Byte) (d : Dir) : HydGood w (w.moveAgain a m d).1 := by
  simp only [Work.moveAgain]
  split
  · split
    · next hok =>
      split
      · exact .refl h
      · exact .refl h
      · next hr _ => exact Work.renewMove_good h ha hk (Work.mask_sound hok hr d)
    · exact .refl h
  · exact .refl h

theorem Work.doJackMove_good {w : Work} (h : HydLaw w) (hw : w.stage.loaded = true) (m d : Byte) :
    HydGood w (w.doJackMove m d).1 := by
  simp only [Work.doJackMove]
  split
  · exact .refl h
  · split
    · exact .refl h
    · simp only [Work.jackRequest]
      split
      · next a _ ha _ =>
        split
        · next hk => exact Work.moveAgain_good h ha hk m _
        · exact .refl h
      · exact .refl h
      · next ha _ => exact Work.newMove_good h hw ha m _
      · exact .refl h

end Sys2Proof.Machine
end

