-- ==== Sys2Proof/Proofs/HydRequestLaw.lean ====
section
/-! PROOF. The law of the hydraulic circuit for stops, clears, fences, profile writes and all requests together. -/

namespace Sys2Proof.Machine

set_option Elab.async false

open Sys2Proof.Safety

/-! ## Jacks freed of faults and fences (R75, R157) -/

/-- A jack may lose a fence or a fault. -/
theorem Work.setJk_freed_good {w : Work} (h : HydLaw w) {j : JackId} {x : Jack}
    (hf : (w.jk j).fenced = false → x.fenced = false) (hx : (w.jk j).fault = none → x.fault = none) :
    HydGood w (w.setJk j x) := by
  refine ⟨?_, .of_eq rfl rfl⟩
  cases ha : w.hyd.activity with
  | none =>
    obtain ⟨hn, hl⟩ := h.none ha
    exact .of_none ha ⟨hn.pump, hn.start, hn.waits⟩ hl
  | some a =>
    have hv := h.serves ha
    refine .of_serves (w := w.setJk j x) ha ⟨⟨hv.loaded, fun i => ⟨(hv.sets i).1, fun hi => ?_⟩, hv.level, hv.stow, hv.lease⟩,
      hv.pump, hv.proc, hv.waits, hv.one⟩
    obtain ⟨hp, hfence, hfault⟩ := (hv.sets i).2 hi
    by_cases he : i = j
    · subst he
      rw [Work.jk_setJk_self]
      exact ⟨hp, hf hfence, hx hfault⟩
    · rw [Work.jk_setJk_ne w j i x he]
      exact ⟨hp, hfence, hfault⟩

theorem Work.clearJack_good {w : Work} (h : HydLaw w) (j : JackId) : HydGood w (w.clearJack j) := by
  simp only [Work.clearJack]
  exact good_ite (fun _ => Work.setJk_freed_good h (fun hf => hf) fun _ => rfl) fun _ => .refl h

theorem Work.setFences_good {w : Work} (h : HydLaw w) (c j : Byte) : HydGood w (w.setFences c j) := by
  simp only [Work.setFences]
  refine (foldl_good allChans (fun h i => ?_) h).trans fun h => foldl_good allJacks (fun h i => ?_) h
  · exact good_ite (fun _ => hydGood_of_still h (Work.fenceChan_wet ..) (Work.fenceChan_still ..)) fun _ => .refl h
  · exact good_ite (fun _ => Work.fenceJack_good h i) fun _ => .refl h

theorem Work.clearFences_good {w : Work} (h : HydLaw w) (c j : Byte) : HydGood w (w.clearFences c j) := by
  simp only [Work.clearFences]
  refine (foldl_good allChans (fun h i => ?_) h).trans fun h => foldl_good allJacks (fun h i => ?_) h
  · exact good_ite (fun _ => hydGood_of_still h rfl rfl) fun _ => .refl h
  · exact good_ite (fun _ => Work.setJk_freed_good h (fun _ => rfl) fun hx => hx) fun _ => .refl h

theorem Work.doFaultClear_good {w : Work} (h : HydLaw w) (a : Byte) : HydGood w (w.doFaultClear a).1 := by
  have hsupply : w.clearSupply.1.wet = w.wet := by
    simp only [Work.clearSupply]
    split <;> simp
  have hclock : w.now ≤ w.clearSupply.1.now := by
    simp only [Work.clearSupply]
    split <;> simp
  rcases w.doFaultClear_cases a with e | e | ⟨c, e⟩ | ⟨j, e⟩ <;> rw [e]
  · exact .refl h
  · exact hydGood_of_wet h hsupply (base_of_frame (frame_clearSupply w)) hclock
  · exact hydGood_of_still h (w.clearChan_wet c) (w.clearChan_still c)
  · exact Work.clearJack_good h j

/-! ## Stops (R63, R122, R126) -/

theorem Work.stopEverything_good {w : Work} (h : HydLaw w) : HydGood w w.stopEverything := by
  simp only [Work.stopEverything]
  have hrooms : HydGood w (allRooms.foldl Work.stopAllOf w) :=
    foldl_good allRooms (fun h m => hydGood_of_still h (Work.stopAllOf_wet _ m) (Work.stopAllOf_still _ m)) h
  exact (hrooms.trans fun h => hydGood_of_still h (Work.stopAwningOfAll_wet _) (Work.stopAwningOfAll_still _)).trans
    fun h => Work.endWork_good h _

theorem Work.doStop_good {w : Work} (h : HydLaw w) (a : Byte) : HydGood w (w.doStop a).1 := by
  simp only [Work.doStop]
  split
  · exact .refl h
  · exact Work.stopEverything_good h
  · split
    · split
      · exact hydGood_of_still h w.stopAwning_wet w.stopAwning_still
      · exact hydGood_of_still h (Work.stopAllOf_wet ..) (Work.stopAllOf_still ..)
    · exact .refl h

theorem Work.doLevelCancel_good {w : Work} (h : HydLaw w) : HydGood w w.doLevelCancel.1 := by
  simp only [Work.doLevelCancel]
  split
  · exact .refl h
  · exact Work.endWork_good h _

theorem Work.endService_good {w : Work} (h : HydLaw w) : HydGood w w.endService := by
  simp only [Work.endService]
  refine ((foldl_good allRooms (fun h r => ?_) h).trans Work.abortZero_good).trans fun h => hydGood_of_wet h rfl rfl
  exact good_ite (fun _ => hydGood_of_still h (Work.haltMover_wet ..) (Work.haltMover_still ..)) fun _ => .refl h

/-! ## Movers (R33, R49) -/

theorem Work.doMove_good {w : Work} (h : HydLaw w) (a d : Byte) : HydGood w (w.doMove a d).1 := by
  simp only [Work.doMove]
  split
  · next m d _ _ =>
    simp only [Work.moveRequest]
    split
    · exact .refl h
    · split
      · exact .refl h
      · split
        · exact Work.claimMove_good h m .link d
        · exact .refl h
  · split
    · exact .refl h
    · split
      · exact .refl h
      · split <;> exact .refl h
  · exact .refl h

/-! ## Profile and power (R181, R183, R190) -/

theorem Work.afterWrite_law {w : Work} (h : HydLaw w) : HydLaw w.afterWrite ∧ Slowed w w.afterWrite := by
  have hclamp : HydGood w w.clampAll :=
    foldl_good allChans (fun h c => hydGood_of_still h (Work.clampPos_wet _ c) (Work.clampPos_still _ c)) h
  have hracks : HydGood w (allRooms.foldl Work.judgeRack w.clampAll) := hclamp.trans fun h =>
    foldl_good allRooms (fun h m => hydGood_of_still h (Work.judgeRack_wet _ m) (Work.judgeRack_still _ m)) h
  obtain ⟨z, hz, he⟩ := w.afterWrite_cases
  generalize allRooms.foldl Work.judgeRack w.clampAll = y at hracks hz
  have hdue : HydGood w z := by
    subst hz
    exact hracks.trans fun h => hydGood_of_wet h rfl rfl
  rcases he with e | e <;> rw [e]
  · exact ⟨hdue.law, hdue.steady.slowed⟩
  · obtain ⟨hlaw, hslowed⟩ := Work.overrunStop_law hdue.law
    exact ⟨hlaw, hdue.steady.slowed.trans hslowed⟩

theorem Work.doWrite_law {w : Work} (h : HydLaw w) (ps : List (Half × Half)) :
    HydLaw (w.doWrite ps).1 ∧ Slowed w (w.doWrite ps).1 := by
  rcases w.doWrite_cases ps with e | e <;> rw [e]
  · exact ⟨h, (Steady.refl w).slowed⟩
  · have hz : HydGood w { w with store := { w.store with working := (ps.foldl writePair (w.store.working, false)).1 } } :=
      hydGood_of_wet h rfl rfl
    obtain ⟨hlaw, hslowed⟩ := Work.afterWrite_law hz.law
    exact ⟨hlaw, hz.steady.slowed.trans hslowed⟩

theorem Work.enterDormant_good {w : Work} (h : HydLaw w) : HydGood w w.enterDormant := by
  simp only [Work.enterDormant]
  exact (Work.abortZero_good h).trans fun h => hydGood_of_core h rfl (.of_eq rfl rfl)

/-! ## Learning (R52..R56) -/

theorem Work.doZeroLearn_good {w : Work} (h : HydLaw w) : HydGood w w.doZeroLearn.1 := by
  rcases w.doZeroLearn_cases with e | e <;> rw [e]
  · exact .refl h
  · exact Work.setTilt_good h _

/-! ## Every request -/

theorem RequestWork.hydLaw {s : State} {z : Work × Reply} (h : HydLaw s.work) (hw : s.work.stage.loaded = true)
    (hr : RequestWork s z) : HydLaw z.1 ∧ Slowed s.work z.1 := by
  have hgood : ∀ {y : Work}, HydGood s.work y → HydLaw y ∧ Slowed s.work y := fun hy => ⟨hy.law, hy.steady.slowed⟩
  cases hr with
  | move a d => exact hgood (Work.doMove_good h a d)
  | stop a => exact hgood (Work.doStop_good h a)
  | levelStart m => exact hgood (Work.doLevelStart_good h hw m)
  | levelCancel => exact hgood (Work.doLevelCancel_good h)
  | jackMove m d => exact hgood (Work.doJackMove_good h hw m d)
  | stow => exact hgood (Work.doStow_good h hw)
  | faultClear a => exact hgood (Work.doFaultClear_good h a)
  | fenceSet c j => split <;> [exact hgood (.refl h); exact hgood (Work.setFences_good h c j)]
  | fenceClear c j => split <;> [exact hgood (.refl h); exact hgood (Work.clearFences_good h c j)]
  | inhibitSet m => exact hgood (hydGood_of_wet h rfl rfl)
  | inhibitClear m => exact hgood (hydGood_of_wet h rfl rfl)
  | serviceEnter =>
    rcases doServiceEnter_cases s.work s.ready.travel with e | ⟨m, e⟩ <;> rw [e]
    · exact hgood (.refl h)
    · exact hgood (hydGood_of_wet h rfl rfl)
  | serviceLeave =>
    rcases s.work.doServiceLeave_cases with e | e | e <;> rw [e]
    · exact hgood (.refl h)
    · exact hgood (Work.endService_good h)
    · exact hgood (hydGood_of_wet h rfl rfl)
  | learn a m => exact hgood (hydGood_of_still h (Work.doLearn_wet ..) (Work.doLearn_still ..))
  | strokeSet a n => exact hgood (hydGood_of_still h (Work.doStrokeSet_wet ..) (Work.doStrokeSet_still ..))
  | zeroLearn => exact hgood (Work.doZeroLearn_good h)
  | write ps => exact Work.doWrite_law h ps
  | commit =>
    rcases s.work.doCommit_cases with e | e <;> rw [e]
    · exact hgood (.refl h)
    · exact hgood (hydGood_of_wet h ((Work.serveNext_wet _).trans rfl) (base_of_still (Work.serveNext_still _))
        (Nat.le_of_eq (congrArg Still.now (Work.serveNext_still
          { s.work with store := { s.work.store with jobs := s.work.store.jobs ++ [.commit] } })).symm))
  | sleep =>
    rcases s.doSleep_cases with e | e <;> rw [e]
    · exact hgood (.refl h)
    · exact hgood (Work.enterDormant_good h)

end Sys2Proof.Machine
end

