-- ==== Sys2Proof/Proofs/HydFinish.lean ====
section
/-! PROOF. The law of the hydraulic circuit for what ends a command: arrivals of inhibits, the head of the queue, the ready level
and STANDBY; and for load, start-up and wake (R158, R160, R192, R196). -/

namespace Sys2Proof.Machine

set_option Elab.async false

open Sys2Proof.Safety

/-! ## Arrivals of inhibits (R158) -/

theorem Work.arriveHyd_good {w : Work} (h : HydLaw w) (x : BitVec 16) : HydGood w (w.arriveHyd x) := by
  simp only [Work.arriveHyd]
  split
  · exact good_ite (fun _ => Work.endLevel_good h _) fun _ => .refl h
  · next hl =>
    split
    · exact good_ite (fun _ => Work.endActivity_good h (not_not.1 hl) _) fun _ => .refl h
    · exact .refl h

theorem Work.arrive_good {w : Work} (h : HydLaw w) (x : BitVec 16) : HydGood w (w.arrive x) := by
  have hmovers : HydGood w (allMovers.foldl (Work.arriveMover x) w) := by
    refine foldl_good allMovers (fun h m => ?_) h
    simp only [Work.arriveMover]
    exact good_ite (fun _ => hydGood_of_still h (Work.haltMover_wet ..) (Work.haltMover_still ..)) fun _ => .refl h
  have hretract {z : Work} (h : HydLaw z) : HydGood z (z.arriveRetract x) := by
    simp only [Work.arriveRetract]
    split
    · exact good_ite (fun _ => hydGood_of_still h (z.dropRetract_wet _) (z.dropRetract_still _)) fun _ => .refl h
    · exact .refl h
  exact (hmovers.trans hretract).trans fun h => Work.arriveHyd_good h x

theorem Work.setInh_good {w : Work} (h : HydLaw w) (x : BitVec 16) : HydGood w { w with inh := x } := hydGood_of_wet h rfl rfl

theorem Work.settleLoop_good (n : Nat) {w : Work} (h : HydLaw w) : HydGood w (Work.settleLoop n w) := by
  induction n generalizing w with
  | zero => exact Work.judgeHead_good h
  | succ n ih =>
    simp only [Work.settleLoop]
    refine (Work.judgeHead_good h).trans fun h => ?_
    split
    · exact Work.setInh_good h _
    · exact ((Work.setInh_good h _).trans fun h => Work.arrive_good h _).trans ih

theorem Work.settled_good {w : Work} (h : HydLaw w) : HydGood w w.settled := by
  simp only [Work.settled]
  have hz := Work.settleLoop_good 4 h
  generalize Work.settleLoop 4 w = z at hz
  exact hz.trans fun h => hydGood_of_wet h rfl rfl

theorem Work.setEvents_good {w : Work} (h : HydLaw w) (l : List Event) : HydGood w { w with events := l } :=
  hydGood_of_wet h rfl rfl

theorem Work.settleEvents_good {w : Work} (h : HydLaw w) (b : Bool) (x : BitVec 16) : HydGood w (w.settleEvents b x) := by
  simp only [Work.settleEvents]
  have hz : HydGood w (Work.settled { w.judgeHead with events := [] }) :=
    ((Work.judgeHead_good h).trans fun h => Work.setEvents_good h []).trans Work.settled_good
  generalize Work.settled { w.judgeHead with events := [] } = z at hz
  exact hz.trans fun h => Work.setEvents_good h _

/-! ## Stage, ready level and power -/

/-- A loaded part may move to another loaded stage. -/
theorem hydGood_of_stage {w z : Work} (h : HydLaw w) (hc : z.hydCore = w.hydCore) (hj : z.jacks = w.jacks)
    (hk : z.store.coach = w.store.coach) (hl : w.stage.loaded = true → z.stage.loaded = true)
    (hn : w.now ≤ z.now := by exact Nat.le_refl _) : HydGood w z := by
  obtain ⟨ha, hp, hst, hd, hphase, hq, he⟩ := hydCore_eq hc
  have hjk (j : JackId) : z.jk j = w.jk j := by simp only [Work.jk, hj]
  have hpresent (j : JackId) : z.jackPresent j = w.jackPresent j := by
    rw [Work.jackPresent, Work.jackPresent, Work.jackCount, Work.jackCount, Work.coach, Work.coach, hk]
  refine ⟨?_, .of_eq hp hd he hn⟩
  rcases (hydLaw_iff w).1 h with ⟨e, hno, hi⟩ | ⟨a, e, hv⟩
  · exact .of_none (ha.trans e) ⟨by rw [hp]; exact hno.pump, hst.trans hno.start, hq.trans hno.waits⟩ (hphase.trans hi)
  · have hf : Formed z a := ⟨hl hv.loaded, fun j => by rw [hjk, hpresent]; exact hv.sets j, hv.level, hv.stow, hv.lease⟩
    have hpump : PumpServes z.hyd a := by
      simp only [PumpServes, hp, hst, hd]
      exact hv.pump
    have hproc : ProcedureServed z a := by
      simp only [ProcedureServed, hphase, hp]
      exact hv.proc
    exact .of_serves (ha.trans e) ⟨hf, hpump, hproc, by rw [hq]; exact hv.waits, by rw [hq]; exact hv.one⟩

theorem Work.startupCheck_good {w : Work} (h : HydLaw w) : HydGood w w.startupCheck := by
  simp only [Work.startupCheck]
  exact good_ite (fun _ => hydGood_of_stage h rfl rfl rfl fun _ => rfl) fun _ => .refl h

theorem Work.returnOnMotion_good {w : Work} (h : HydLaw w) (t : Travel) : HydGood w (w.returnOnMotion t) := by
  simp only [Work.returnOnMotion]
  exact good_ite (fun _ => Work.returnActive_good h) fun _ => .refl h

theorem Work.enterStandby_good {w : Work} (h : HydLaw w) : HydGood w w.enterStandby := by
  simp only [Work.enterStandby]
  exact (Work.abortZero_good h).trans fun h => hydGood_of_wet h rfl rfl

theorem State.standbyCheck_good {s : State} (h : HydLaw s.work) : HydGood s.work s.standbyCheck.work := by
  simp only [State.standbyCheck]
  split
  · exact (Work.enterStandby_good h).trans fun h => Work.setEvents_good h []
  · split
    · exact .refl h
    · exact hydGood_of_wet h rfl rfl

/-- The end of a command (R158). -/
theorem finish_good {s : State} {w : Work} (h : HydLaw w) (r : Option Frame) : HydGood w (finish s w r).work := by
  have hwork : HydGood w (finishWork s w) := by
    simp only [finishWork]
    exact (Work.startupCheck_good h).trans fun h => Work.settleEvents_good h _ _
  have hreturn := hwork.trans fun h => Work.returnOnMotion_good h (finishReady s w).travel
  have hstate : HydGood w (finishState s w r).work := by
    simp only [finishState]
    generalize (finishWork s w).returnOnMotion (finishReady s w).travel = z at hreturn
    exact hreturn.trans fun h => Work.setEvents_good h []
  rw [finish_eq]
  generalize finishState s w r = t at hstate
  exact hstate.trans State.standbyCheck_good

/-! ## Load, start-up and wake (R192, R196) -/

theorem Work.activity_of_unloaded {w : Work} (h : HydLaw w) (hl : w.stage.loaded = false) : w.hyd.activity = none := by
  cases ha : w.hyd.activity with
  | none => rfl
  | some a => exact nomatch hl.symm.trans (h.serves ha).loaded

theorem Work.formed_parts (w : Work) : w.formed.hyd.activity = w.hyd.activity ∧ w.formed.hyd.pump = w.hyd.pump ∧
    w.formed.hyd.pendingStart = w.hyd.pendingStart ∧ w.formed.bud = w.bud ∧ w.formed.lvl = w.lvl := ⟨rfl, rfl, rfl, rfl, rfl⟩

theorem Work.restoreChan_good {w : Work} (h : HydLaw w) (c : ChanId) : HydGood w (w.restoreChan c) := by
  rw [Work.restoreChan]
  exact hydGood_of_still h (w.setCh_wet c _) (w.setCh_still c _)

theorem Work.load_law {w : Work} (h : HydLaw w) (hl : w.stage = .loading) : HydLaw w.load := by
  have hnone := Work.activity_of_unloaded h (by rw [hl]; rfl)
  obtain ⟨hn, hi⟩ := h.none hnone
  obtain ⟨ha, hp, hs, hb, hlvl⟩ := w.formed_parts
  simp only [Work.load]
  generalize w.formed = z at ha hp hs hb hlvl
  have hz : HydLaw z := .of_none (ha.trans hnone) ⟨by rw [hp]; exact hn.pump, hs.trans hn.start, by rw [hb]; exact hn.waits⟩
    (by rw [hlvl]; exact hi)
  have hrestored := foldl_good allChans Work.restoreChan_good hz
  generalize allChans.foldl Work.restoreChan z = y at hrestored
  exact (Work.setInh_good hrestored.law _).law

theorem Jack.settle_keeps (x : Jack) : x.settle.fenced = x.fenced ∧ x.settle.fault = x.fault := ⟨rfl, rfl⟩

theorem Work.settleJacks_good {w : Work} (h : HydLaw w) : HydGood w w.settleJacks := by
  refine (Work.notBefore_good h (w.loadAt + Config.scanSettle)).trans fun h =>
    hydGood_of_core (z := w.settleJacks) h rfl ⟨fun j => ?_, rfl⟩
  have hj : w.settleJacks.jk j = if w.jackPresent j then (w.jk j).settle else w.jk j := by
    simp only [Work.settleJacks, Work.jk]
    exact Vector.getElem_ofFn j.isLt
  rw [hj]
  split
  · exact (w.jk j).settle_keeps
  · exact ⟨rfl, rfl⟩

theorem Work.thaw_law {w : Work} (h : HydLaw w) (d : Time) : HydLaw (w.thaw d) := h

theorem Work.restartSamplers_good {w : Work} (h : HydLaw w) : HydGood w w.restartSamplers := by
  refine hydGood_of_core h rfl ⟨fun j => ?_, rfl⟩
  have hj : w.restartSamplers.jk j = { w.jk j with groundRun := 0, lowRun := 0 } := by
    simp only [Work.restartSamplers, Work.jk]
    exact Vector.getElem_map _ j.isLt
  rw [hj]
  exact ⟨rfl, rfl⟩

theorem Work.wakeUp_law {w : Work} (h : HydLaw w) (x : WakeSigns) : HydLaw (w.wakeUp x) := by
  have hz : HydLaw (w.thaw (w.now - w.dormantAt.getD w.now)).restartSamplers :=
    (Work.restartSamplers_good (Work.thaw_law h _)).law
  simp only [Work.wakeUp]
  generalize (w.thaw (w.now - w.dormantAt.getD w.now)).restartSamplers = z at hz
  exact (hydGood_of_wet hz rfl rfl).law

theorem Work.wakeUp_slowed (w : Work) (x : WakeSigns) : Slowed w (w.wakeUp x) := by
  have hp : (w.wakeUp x).hyd.pump = w.hyd.pump := rfl
  have hd : (w.wakeUp x).hyd.pdir = w.hyd.pdir := rfl
  intro h
  cases hw : w.hyd.pump
  · exact absurd hw h
  · exact .inr (.inr ⟨hp.trans hw, hw, hd⟩)
  · exact .inl (hp.trans hw)
  · exact .inr (.inl (hp.trans hw))

end Sys2Proof.Machine
end

