-- ==== Sys2Proof/Proofs/HydSteps.lean ====
section
/-! PROOF. Every step keeps the law of the hydraulic circuit, and a pump that runs on keeps its direction (R62). A command comes to
one event; within an instant the pump's own timers are taken apart, because a REST may end in the instant in which it began. -/

namespace Sys2Proof.Machine

set_option Elab.async false

open Sys2Proof.Safety

/-! ## Commands -/

/-- What an event, a request or a wake comes to: the law, and a pump that is not OFF stops or runs on. -/
def HydOutcome (w z : Work) : Prop := HydLaw z ∧ Slowed w z

theorem HydGood.outcome {w z : Work} (h : HydGood w z) : HydOutcome w z := ⟨h.law, h.steady.slowed⟩

theorem HydOutcome.then {w z u : Work} (h₁ : HydOutcome w z) (h₂ : HydLaw z → HydGood z u) : HydOutcome w u :=
  ⟨(h₂ h₁.1).law, h₁.2.trans (h₂ h₁.1).steady.slowed⟩

/-- Every event but those that take the pump from DWELL or REST to OFF. -/
theorem EventWork.outcome {w z : Work} (h : HydLaw w) (he : EventWork w z) : PumpFreed w z ∨ HydOutcome w z := by
  rcases he.hydGood h with hf | rfl | hz
  · exact .inl hf
  · exact .inr (Work.pumpOverrun_law h)
  · exact .inr hz.outcome

theorem Work.sampleCurrents_good {w : Work} (h : HydLaw w) : HydGood w w.sampleCurrents := by
  have hz : HydGood w (allChans.foldl (fun w c => w.setCh c ((w.ch c).sampleCurrent w.pins.isns[c])) w) :=
    foldl_good allChans (fun h c => hydGood_of_still h (Work.setCh_wet _ c _) (Work.setCh_still _ c _)) h
  simp only [Work.sampleCurrents]
  generalize allChans.foldl (fun w c => w.setCh c ((w.ch c).sampleCurrent w.pins.isns[c])) w = z at hz
  exact hz.trans fun h => hydGood_of_core h rfl (.of_eq rfl rfl)

theorem Work.sampleWind_good {w : Work} (h : HydLaw w) : HydGood w w.sampleWind := by
  simp only [Work.sampleWind]
  exact good_ite (fun _ => hydGood_of_wet h rfl rfl) fun _ => .refl h

theorem SamplerWork.good {w z : Work} (h : HydLaw w) (hw : SamplerWork w z) : HydGood w z := by
  cases hw with
  | free n => exact hydGood_of_wet h rfl rfl
  | wakePrev x => exact hydGood_of_wet h rfl rfl
  | hall c f => exact hydGood_of_wet h rfl rfl
  | currents => exact Work.sampleCurrents_good h
  | gates => exact (Work.sampleWind_good h).trans fun h => hydGood_of_wet h rfl rfl
  | input i b => exact hydGood_of_wet h rfl rfl
  | switch m d b => exact hydGood_of_wet h rfl rfl
  | tilt x y n => exact hydGood_of_wet h rfl rfl

/-- What is written without an event leaves the circuit as it is. -/
theorem SilentWork.hydLaw {w z : Work} (h : HydLaw w) (hw : SilentWork w z) : HydLaw z := by
  cases hw with
  | time t => exact h
  | wakeCauses => exact h
  | resetPin b => exact h
  | sampler hw => exact (hw.good h).law

theorem SilentWork.pump {w z : Work} (hw : SilentWork w z) : z.hyd.pump = w.hyd.pump ∧ z.hyd.pdir = w.hyd.pdir := by
  cases hw with
  | time t => exact ⟨rfl, rfl⟩
  | wakeCauses => exact ⟨rfl, rfl⟩
  | resetPin b => exact ⟨rfl, rfl⟩
  | sampler hw =>
    cases hw with
    | currents =>
      have hz := foldl_wet allChans (f := fun w c => w.setCh c ((w.ch c).sampleCurrent w.pins.isns[c]))
        (fun w c => w.setCh_wet c _) w
      simp only [Work.sampleCurrents]
      generalize allChans.foldl (fun w c => w.setCh c ((w.ch c).sampleCurrent w.pins.isns[c])) w = y at hz
      exact ⟨congrArg (·.hyd.pump) hz, congrArg (·.hyd.pdir) hz⟩
    | gates =>
      simp only [Work.sampleWind]
      split <;> exact ⟨rfl, rfl⟩
    | _ => exact ⟨rfl, rfl⟩

theorem reset_hydLaw (s : State) (stage : Stage) (cause : ResetCause) : HydLaw (s.resetTo stage cause).work :=
  .of_none rfl ⟨nofun, rfl, rfl⟩ rfl

theorem reset_pump (s : State) (stage : Stage) (cause : ResetCause) : (s.resetTo stage cause).work.hyd.pump = .off := rfl

theorem loaded_of_awake {w : Work} (h : w.awake = true) : w.stage.loaded = true := by
  simp only [Work.awake, Bool.and_eq_true] at h
  exact h.1

theorem State.wakeUp_outcome {s : State} (h : HydLaw s.work) (x : WakeSigns) : HydOutcome s.work (s.wakeUp x).work := by
  rw [State.wakeUp_eq]
  exact HydOutcome.then ⟨Work.wakeUp_law h x, Work.wakeUp_slowed s.work x⟩ fun h => finish_good h none

theorem State.toggleAlert_hyd (s : State) (h : HydLaw s.work) :
    HydLaw s.toggleAlert.work ∧ s.toggleAlert.work.hyd = s.work.hyd := by
  simp only [State.toggleAlert]
  split
  · exact ⟨h, rfl⟩
  · exact ⟨(Work.notBefore_good h _).law, rfl⟩

/-- Every step keeps the law of the hydraulic circuit. -/
theorem hydraulic_law : StepLaw HydraulicLaw where
  port h _ := h
  silent h hw := hw.hydLaw h
  toActive h := (Work.toActive_good h).law
  standbyCheck h := (State.standbyCheck_good h).law
  event h _ he := (finish_good (he.hydLaw h) none).law
  request _ _ h ha _ _ hr := (finish_good (hr.hydLaw h (loaded_of_awake ha)).1 _).law
  reset {s} cause stage _ _ := reset_hydLaw s stage cause
  load {s} h hl := Work.load_law (w := s.work) h hl
  settle h _ := (finish_good (Work.settleJacks_good h).law none).law
  wake x h _ := (State.wakeUp_outcome h x).1
  toggle {s} h _ := (s.toggleAlert_hyd h).1

/-! ## The direction, through a command (R62) -/

/-- The pump is RUNNING in a direction. -/
def PumpOn (d : Dir) (s : State) : Prop := HydraulicLaw s ∧ s.work.hyd.pump = .running ∧ s.work.hyd.pdir = d

/-- A RUNNING pump has a direction. -/
def PumpDir (d : Dir) (s : State) : Prop := HydraulicLaw s ∧ (s.work.hyd.pump = .running → s.work.hyd.pdir = d)

theorem PumpOn.dir {d : Dir} {s t : State} (h : PumpOn d s) (ho : HydOutcome s.work t.work) : PumpDir d t := by
  obtain ⟨-, hp, hd⟩ := h
  obtain ⟨hlaw, hs⟩ := ho
  refine ⟨hlaw, fun ht => ?_⟩
  rcases hs (by rw [hp]; decide) with e | e | ⟨-, -, e⟩
  · exact nomatch e.symm.trans ht
  · exact nomatch e.symm.trans ht
  · exact e.trans hd

/-- A RUNNING pump is not freed. -/
theorem PumpFreed.eq {w z : Work} (h : PumpFreed w z) (hp : w.hyd.pump = .running) : z = w := by
  rcases h with rfl | rfl
  · simp [Work.pumpDwellEnd, hp]
  · simp [Work.pumpRestEnd, hp]

theorem pumpDir_law (d : Dir) : StepLaw (PumpOn d) (PumpDir d) where
  done h := ⟨h.1, fun _ => h.2.2⟩
  port h _ := h
  silent h hw := ⟨hw.hydLaw h.1, hw.pump.1.trans h.2.1, hw.pump.2.trans h.2.2⟩
  toActive {s} h := by
    obtain ⟨hl, hp, hd⟩ := h
    refine ⟨(Work.toActive_good hl).law, ?_, ?_⟩
    · simp only [State.toActive, Work.toActive]; split <;> exact hp
    · simp only [State.toActive, Work.toActive]; split <;> exact hd
  standbyCheck h := h.dir (State.standbyCheck_good h.1).outcome
  event {s w} h _ he := by
    refine h.dir (HydOutcome.then (z := w) ?_ fun h => finish_good h none)
    rcases he.outcome h.1 with hf | ho
    · rw [hf.eq h.2.1]; exact ⟨h.1, (Steady.refl _).slowed⟩
    · exact ho
  request _ _ h ha _ _ hr := h.dir (HydOutcome.then (hr.hydLaw h.1 (loaded_of_awake ha)) fun h => finish_good h _)
  reset {s} cause stage _ _ := ⟨reset_hydLaw s stage cause, fun e => nomatch (reset_pump s stage cause).symm.trans e⟩
  load {s} h hl := by
    obtain ⟨hlaw, hp, -⟩ := h
    obtain ⟨hn, -⟩ := HydLaw.none (w := s.work) hlaw (Work.activity_of_unloaded hlaw (by rw [hl]; rfl))
    exact absurd hp hn.pump
  settle h _ := h.dir ((Work.settleJacks_good h.1).trans fun h => finish_good h none).outcome
  wake x h _ := h.dir (State.wakeUp_outcome h.1 x)
  toggle {s} h _ := by
    obtain ⟨hl, hh⟩ := s.toggleAlert_hyd h.1
    exact ⟨hl, fun _ => by rw [hh]; exact h.2.2⟩

end Sys2Proof.Machine
end

