-- ==== Sys2Proof/Proofs/HydInstants.lean ====
section
/-! PROOF. The direction of a running pump through an instant: up to the pump's own timers it runs on or has just begun to dwell,
and behind them it may rest as well, but no REST ends there (R62, R66). -/

namespace Sys2Proof.Machine

set_option Elab.async false

open Sys2Proof.Safety

/-! ## What the clock fires -/

theorem event_good {s : State} {f : Work → Work} (h : HydLaw s.work) (hf : HydGood s.work (f s.work)) :
    HydGood s.work (event s f).work := by
  rcases event_cases s f with ⟨-, e⟩ | ⟨-, e⟩ <;> rw [e]
  · exact .refl h
  · exact hf.trans fun h => finish_good h none

theorem State.fire_of_exec {s t : State} {i : Instr} (h : exec i s = .next t) : s.fire i = t := by
  simp only [State.fire, h]

theorem Fires.good {s : State} {i : Instr} (h : HydLaw s.work) (hf : Fires s i) (hr : ¬ RareRow i) :
    HydGood s.work (s.fire i).work := by
  have hdry {z : Work} (he : EventWork s.work z) (hd : Dry s.work z) := he.hydGood_of_dry h hd
  cases hf with
  | load => exact absurd (.inl rfl) hr
  | pumpDwell _ => exact absurd (.inr (.inl rfl)) hr
  | pumpRest _ => exact absurd (.inr (.inr (.inl rfl))) hr
  | overrun _ => exact absurd (.inr (.inr (.inr rfl))) hr
  | hall c =>
    rw [State.fire_of_exec rfl]
    refine event_good h (hdry (.hallCount c 0) ?_)
    split
    · exact (Work.notBefore_dry _ _).trans (Work.hallCount_dry _ c)
    · exact .refl _
  | inputChange i b => rw [State.fire_of_exec rfl]; exact event_good h (Work.inputChange_good h i b)
  | inputSettled i b _ => rw [State.fire_of_exec rfl]; exact event_good h (Work.inputSettled_good h i b)
  | tilt x y _ _ => rw [State.fire_of_exec rfl]; exact event_good h (Work.blockEnd_good h x y)
  | stroke j raw _ => rw [State.fire_of_exec rfl]; exact event_good h (Work.strokeAt_good h j raw)
  | @job j _ _ =>
    cases hj : j.job with
    | checkpoint c cp n =>
      rw [Work.jobEnd, State.fire_of_exec rfl]
      exact event_good h (hdry (.checkpointWritten c) (Work.checkpointWritten_dry _ c))
    | learned =>
      rw [Work.jobEnd, State.fire_of_exec rfl]
      exact event_good h (hdry .learnedWritten (Work.learnedWritten_dry _))
    | commit =>
      rw [Work.jobEnd, State.fire_of_exec rfl]
      exact event_good h (hdry (.commitComplete _) (Work.commitComplete_dry _ _))
  | duty c _ => rw [State.fire_of_exec rfl]; exact event_good h (hdry (.dutyUpdate c) (Work.dutyUpdate_dry _ c))
  | retry c _ => rw [State.fire_of_exec rfl]; exact event_good h (hdry (.retryExpiry c) (Work.retryExpiry_dry _ c))
  | rest c _ => rw [State.fire_of_exec rfl]; exact event_good h (hdry (.stoppingEnd c) (Work.stoppingEnd_dry _ c))
  | lease m _ => rw [State.fire_of_exec rfl]; exact event_good h (hdry (.leaseExpiry m) (Work.leaseExpiry_dry _ m))
  | holdOff m _ => rw [State.fire_of_exec rfl]; exact event_good h (hdry (.holdOffExpiry m) (Work.holdOffExpiry_dry _ m))
  | reversal m _ => rw [State.fire_of_exec rfl]; exact event_good h (hdry (.reversalExpiry m) (Work.reversalExpiry_dry _ m))
  | dwell m _ =>
    simp only [dwellRow]
    split
    · rw [State.fire_of_exec rfl]
      exact event_good h (hdry (.roomDwellEnd _) (Work.roomDwellEnd_dry _ _))
    · rw [State.fire_of_exec rfl]
      exact event_good h (hdry .awningDwellEnd (Work.awningDwellEnd_dry _))
  | stow _ => rw [State.fire_of_exec rfl]; exact event_good h (Work.stowTimeout_good h)
  | manual _ => rw [State.fire_of_exec rfl]; exact event_good h (Work.manualExpiry_good h)
  | level hi _ =>
    cases hp : s.work.lvl.phase <;> rw [hp] at hi <;> cases hi
    · rw [State.fire_of_exec rfl]
      exact event_good h (Work.atDeadline_good h fun h _ => Work.noGround_good h)
    · rw [State.fire_of_exec rfl]
      refine event_good h (Work.atDeadline_good h fun h hp => ?_)
      obtain ⟨a, hr⟩ := h.levelRuns (.inr (.inl hp))
      exact Work.enterStabilize_good hr _
    · rw [State.fire_of_exec rfl]
      exact event_good h (Work.atDeadline_good h fun h _ => Work.noGround_good h)
    · rw [State.fire_of_exec rfl]
      exact event_good h (Work.atDeadline_good h fun h _ => Work.settleEnd_good h)
  | wait t _ => rw [State.fire_of_exec rfl]; exact event_good h (Work.maxWaitEnd_good h t)
  | wind n _ => rw [State.fire_of_exec rfl]; exact event_good h (hdry (.windGate n) (Work.windGate_dry _ n))
  | lockout _ => rw [State.fire_of_exec rfl]; exact event_good h (hdry .lockoutExpiry (Work.lockoutExpiry_dry _))
  | speed n _ => rw [State.fire_of_exec rfl]; exact event_good h (hdry (.speedGate n) (Work.speedGate_dry _ n))
  | scan j b _ => rw [State.fire_of_exec rfl]; exact event_good h (Work.scanTimeout_good h j b)
  | startup _ =>
    rw [State.fire_of_exec rfl]
    split
    · exact (Work.settleJacks_good h).trans fun h => finish_good h none
    · exact .refl h
  | alert _ =>
    rw [State.fire_of_exec rfl]
    split
    · simp only [State.toggleAlert]
      split
      · exact .refl h
      · exact Work.notBefore_good h _
    · exact .refl h
  | standby _ =>
    rw [State.fire_of_exec rfl]
    have hlate : HydGood s.work (s.work.notBefore s.quietAt) := Work.notBefore_good h _
    split
    · exact hlate.trans fun h => State.standbyCheck_good (s := { s with work := s.work.notBefore s.quietAt }) h
    · exact .refl h

theorem SamplerEvent.good {w z : Work} (h : HydLaw w) (he : SamplerEvent w z) : HydGood w z := by
  have hdry (hd : Dry w z) := he.eventWork.hydGood_of_dry h hd
  cases he with
  | overcurrent c => exact hydGood_of_still h (w.judgeOvercurrent_wet c) (w.judgeOvercurrent_still c)
  | bus => exact good_ite (fun _ => Work.judgeBus_good h _) fun _ => .refl h
  | bank => exact Work.scanBank_good h
  | supply n => exact hdry (w.sampleSupply_dry n)
  | press m d => exact Work.press_good h m d
  | unpress m d => exact hdry (w.unpress_dry m d)
  | settleSwitch m d b _ => exact hdry (w.settleSwitch_dry m d b)
  | nothing => exact .refl h
  | stall m c mo _ _ _ => exact hydGood_of_still h (w.judgeStall_wet m c mo) (w.judgeStall_still m c mo)

/-! ## A pump in an instant -/

/-- The pump runs in a direction, or dwells past a moment; where it may have stopped, it dwells or rests. -/
def Spin (r : Prop) (n : Time) (d : Dir) (w : Work) : Prop :=
  (w.hyd.pump = .running ∧ w.hyd.pdir = d) ∨ (w.hyd.pump = .dwell ∧ (r ∨ ∃ t, w.hyd.dwellEnd = some t ∧ n < t)) ∨
    (r ∧ w.hyd.pump = .rest)

theorem Spin.ne_off {r : Prop} {n : Time} {d : Dir} {w : Work} (h : Spin r n d w) : w.hyd.pump ≠ .off := by
  rcases h with ⟨e, -⟩ | ⟨e, -⟩ | ⟨-, e⟩ <;> rw [e] <;> decide

theorem Spin.slowed {r : Prop} {n : Time} {d : Dir} {w z : Work} (h : Spin r n d w) (hs : Slowed w z) : Spin True n d z := by
  rcases hs h.ne_off with e | e | ⟨hz, hw, he⟩
  · exact .inr (.inl ⟨e, .inl trivial⟩)
  · exact .inr (.inr ⟨trivial, e⟩)
  · rcases h with ⟨-, e⟩ | ⟨e, -⟩ | ⟨-, e⟩
    · exact .inl ⟨hz, he.trans e⟩
    · exact nomatch hw.symm.trans e
    · exact nomatch hw.symm.trans e

theorem Spin.steady {r : Prop} {n : Time} {d : Dir} {w z : Work} (h : Spin r n d w) (hs : Steady w z) (hn : w.now = n) :
    Spin r n d z := by
  rcases hs.pump h.ne_off with ⟨hz, ⟨hw, he⟩ | ⟨t, ht, hlt⟩⟩ | ⟨hz, hw⟩ | ⟨hz, hw, he⟩
  · rcases h with ⟨e, -⟩ | ⟨-, hr | ⟨t, ht, hlt⟩⟩ | ⟨-, e⟩
    · exact nomatch hw.symm.trans e
    · exact .inr (.inl ⟨hz, .inl hr⟩)
    · exact .inr (.inl ⟨hz, .inr ⟨t, he.trans ht, hlt⟩⟩)
    · exact nomatch hw.symm.trans e
  · exact .inr (.inl ⟨hz, .inr ⟨t, ht, hn ▸ hlt⟩⟩)
  · rcases h with ⟨e, -⟩ | ⟨e, -⟩ | ⟨hr, -⟩
    · exact nomatch hw.symm.trans e
    · exact nomatch hw.symm.trans e
    · exact .inr (.inr ⟨hr, hz⟩)
  · rcases h with ⟨-, e⟩ | ⟨e, -⟩ | ⟨-, e⟩
    · exact .inl ⟨hz, he.trans e⟩
    · exact nomatch hw.symm.trans e
    · exact nomatch hw.symm.trans e

/-- A state of an instant whose pump runs in a direction, dwells past it, or rests where it may. -/
structure InTick (r : Prop) (n : Time) (d : Dir) (s : State) : Prop where
  law : HydLaw s.work
  now : s.work.now = n
  spin : Spin r n d s.work

theorem InTick.good {r : Prop} {n : Time} {d : Dir} {s t : State} (h : InTick r n d s) (hg : HydGood s.work t.work)
    (hn : t.work.now = s.work.now) : InTick r n d t :=
  ⟨hg.law, hn.trans h.now, h.spin.steady hg.steady h.now⟩

theorem inTick_law (r : Prop) (n : Time) (d : Dir) : InstantLaw (InTick r n d) where
  sampler h hw := h.good (hw.good h.law) hw.now
  event h _ he := h.good ((he.good h.law).trans fun h => finish_good h none) ((finish_now _ _ _).trans he.now)
  fire h hf hr := h.good (hf.good h.law hr) (((instant_law _ _).fire ⟨rfl, rfl⟩ hf).1)

/-- The pump's own timers: a dwell that has just begun does not end, and an overrun may bring it to rest. -/
theorem hydTimers_inTick {n : Time} {d : Dir} {s : State} (h : InTick False n d s) : InTick True n d s.hydTimers := by
  have hdwell : s.fireIf (s.work.hyd.pump == .dwell && due s.work.hyd.dwellEnd s.work.now) .pumpDwellEnd = s := by
    refine if_neg fun hb => ?_
    simp only [Bool.and_eq_true, beq_iff_eq] at hb
    obtain ⟨hp, hdue⟩ := hb
    rcases h.spin with ⟨e, -⟩ | ⟨-, e | ⟨t, ht, hlt⟩⟩ | ⟨e, -⟩
    · exact nomatch hp.symm.trans e
    · exact e
    · rw [ht, h.now] at hdue
      exact absurd (of_decide_eq_true hdue) (Nat.not_le_of_lt hlt)
    · exact e.elim
  have hrest : s.fireIf (s.work.hyd.pump == .rest && due s.work.hyd.restEnd s.work.now) .pumpRestEnd = s := by
    refine if_neg fun hb => ?_
    simp only [Bool.and_eq_true, beq_iff_eq] at hb
    rcases h.spin with ⟨e, -⟩ | ⟨e, -⟩ | ⟨e, -⟩
    · exact nomatch hb.1.symm.trans e
    · exact nomatch hb.1.symm.trans e
    · exact e
  have hspin : Spin True n d s.work := h.spin.slowed (Steady.refl _).slowed
  have hover : InTick True n d (s.fireIf (due s.work.overrunAt s.work.now) .pumpOverrun) := by
    simp only [State.fireIf]
    split
    · next hdue =>
      have hnow := ((instant_law s.work.now s.pending).fire ⟨rfl, rfl⟩ (.overrun hdue)).1
      have hout : HydOutcome s.work (s.fire .pumpOverrun).work := by
        rw [State.fire_of_exec rfl]
        rcases event_cases s Work.pumpOverrun with ⟨-, e⟩ | ⟨-, e⟩ <;> rw [e]
        · exact (HydGood.refl h.law).outcome
        · exact HydOutcome.then (Work.pumpOverrun_law h.law) fun h => finish_good h none
      exact ⟨hout.1, hnow.trans h.now, hspin.slowed hout.2⟩
    · exact ⟨h.law, h.now, hspin⟩
  simp only [State.hydTimers]
  rw [hdwell, hrest]
  exact (inTick_law True n d).jackTimers hover

theorem timers_inTick {n : Time} {d : Dir} {s : State} (h : InTick False n d s) : InTick True n d s.timers := by
  simp only [State.timers]
  exact (inTick_law True n d).lateTimers (hydTimers_inTick ((inTick_law False n d).motionTimers h))

/-- The direction of the pump, through an instant. -/
theorem tick_pumpDir {d : Dir} {s t : State} (h : PumpOn d s) (ht : tick s = .next t) : PumpDir d t := by
  obtain ⟨hlaw, hp, hd⟩ := h
  have hon : PumpOn d s.advance := ⟨hlaw, hp, hd⟩
  have hin : InTick False s.advance.work.now d s.advance := ⟨hlaw, rfl, .inl ⟨hp, hd⟩⟩
  cases ht
  generalize s.advance = u at hon hin
  have hdone : PumpDir d u := (pumpDir_law d).done hon
  split
  · exact hdone
  · next hl =>
    obtain ⟨hn, -⟩ := hin.law.none (Work.activity_of_unloaded hin.law (by rw [hl]; rfl))
    exact absurd hon.2.1 hn.pump
  · split
    · split
      · simp only [State.watchWake]
        split
        · exact (pumpDir_law d).done ((pumpDir_law d).silent hon (.sampler (.wakePrev _)))
        · exact hon.dir (State.wakeUp_outcome hon.1 _)
      · exact hdone
    · have hsampled := (inTick_law False _ d).sampleAll hin
      have hend := timers_inTick hsampled
      generalize u.sampleAll.timers = v at hend
      refine ⟨hend.law, fun hrun => ?_⟩
      rcases hend.spin with ⟨-, e⟩ | ⟨e, -⟩ | ⟨-, e⟩
      · exact e
      · exact nomatch hrun.symm.trans e
      · exact nomatch hrun.symm.trans e

/-! ## The valves (R62) -/

theorem HydLaw.valves {w : Work} (h : HydLaw w) : ValvesAllowed w := by
  constructor
  · intro j hv
    cases ha : w.hyd.activity with
    | none => simp [Work.valve, ha] at hv
    | some a =>
      simp only [Work.valve, ha, Bool.and_eq_true, beq_iff_eq, Bool.not_eq_true', Option.isNone_iff_eq_none] at hv
      obtain ⟨⟨⟨⟨⟨hp, ho⟩, hpresent⟩, hf⟩, hx⟩, hd⟩ := hv
      exact ⟨a, rfl, hp, hd.symm, ho, ((h.serves ha).sets j).1 ho, hpresent, hf, hx⟩
  · intro a j ha hp ho
    have hv := h.serves ha
    obtain ⟨hpresent, hf, hx⟩ := (hv.sets j).2 ((hv.sets j).1 ho)
    have hd : w.hyd.pdir = a.dir := by
      by_cases hr : a.phase = .running
      · rcases hv.pump.2 hr with ⟨-, -, e⟩ | ⟨e, -⟩
        · exact e
        · exact nomatch hp.symm.trans e
      · rcases (hv.pump.1 hr).1 with e | e
        · exact nomatch hp.symm.trans e
        · exact nomatch hp.symm.trans e
    simp [Work.valve, ha, hp, ho, hpresent, hf, hx, hd]

/-- Settles O8: the law is what every command keeps; the valves follow from it; a command comes to one event, and an instant takes
the pump's timers in an order in which no stopped pump starts again. -/
theorem stepKeepsHydraulicLaw : Obligations.StepKeepsHydraulicLaw := by
  unfold Obligations.StepKeepsHydraulicLaw
  refine ⟨fun s t hs h => hydraulic_law.step (fun _ h => h) hs h, fun s hs => HydLaw.valves (w := s.work) hs,
    fun s t hs h hp ht => ?_⟩
  simp only [step] at h
  split at h
  · next rest _ =>
    have hon : PumpOn s.work.hyd.pdir { s with pending := rest } := ⟨hs, hp, rfl⟩
    exact ((pumpDir_law s.work.hyd.pdir).exec hon h).2 ht
  · exact (tick_pumpDir ⟨hs, hp, rfl⟩ h).2 ht

end Sys2Proof.Machine
end

