-- ==== Sys2Proof/Proofs/DriveView.lean ====
section
/-! PROOF. What the laws of the drive and of the budget read of a mover (`View`); what an operation on channels leaves of it
(`Over`), and what an operation on one mover leaves of the others (`Touch`). -/

namespace Sys2Proof.Machine

set_option Elab.async false

open Sys2Proof.Safety

/-! ## The kind of a channel -/

/-- What a channel does; `odd` where state and motion do not agree. -/
inductive Kind where
  | rest | starting | driving | stopping | waiting | odd

/-- The kinds that a stop request can still stop. -/
def Kind.live : Kind → Prop
  | .starting => True
  | .driving => True
  | .waiting => True
  | _ => False

def Phase.kind : Phase → Kind
  | .starting => .starting
  | .stopping => .stopping
  | _ => .driving

def Channel.kind (x : Machine.Channel) : Kind :=
  match x.motion with
  | none => if x.state = .moving ∨ x.state = .retryWait then .odd else .rest
  | some mo => if x.state = .moving then mo.phase.kind else if x.state = .retryWait then .waiting else .odd

variable {x : Machine.Channel}

theorem kind_of_none (h : x.motion = none) : x.kind = if x.state = .moving ∨ x.state = .retryWait then .odd else .rest := by
  simp only [Channel.kind, h]

theorem kind_of_some {mo : Motion} (h : x.motion = some mo) : x.kind =
    if x.state = .moving then mo.phase.kind else if x.state = .retryWait then .waiting else .odd := by
  simp only [Channel.kind, h]

theorem driving_iff_kind : x.driving = true ↔ x.kind = .driving := by
  cases hm : x.motion with
  | none => rw [kind_of_none hm]; simp only [Channel.driving, hm]; split <;> simp
  | some mo =>
    rw [kind_of_some hm]
    by_cases hs : x.state = .moving
    · cases hp : mo.phase <;> simp [Channel.driving, hm, hs, hp, Phase.drives, Phase.kind]
    · simp only [Channel.driving, hm, if_neg hs]; split <;> simp [hs]

theorem starting_iff_kind : x.starting = true ↔ x.kind = .starting := by
  cases hm : x.motion with
  | none => rw [kind_of_none hm]; simp only [Channel.starting, hm]; split <;> simp
  | some mo =>
    rw [kind_of_some hm]
    by_cases hs : x.state = .moving
    · cases hp : mo.phase <;> simp [Channel.starting, hm, hs, hp, Phase.kind]
    · simp only [Channel.starting, hm, if_neg hs]; split <;> simp [hs]

theorem stopping_iff_kind : x.stopping = true ↔ x.kind = .stopping := by
  cases hm : x.motion with
  | none => rw [kind_of_none hm]; simp only [Channel.stopping, hm]; split <;> simp
  | some mo =>
    rw [kind_of_some hm]
    by_cases hs : x.state = .moving
    · cases hp : mo.phase <;> simp [Channel.stopping, hm, hs, hp, Phase.kind]
    · simp only [Channel.stopping, hm, if_neg hs]; split <;> simp [hs]

theorem sound_iff_kind : (x.motion.isSome = true ↔ x.state = .moving ∨ x.state = .retryWait) ↔ x.kind ≠ .odd := by
  cases hm : x.motion with
  | none => rw [kind_of_none hm]; split <;> simp_all
  | some mo =>
    rw [kind_of_some hm]
    by_cases hs : x.state = .moving
    · cases hp : mo.phase <;> simp [hs, Phase.kind]
    · by_cases hr : x.state = .retryWait <;> simp [hs, hr]

theorem motion_iff_kind (h : x.kind ≠ .odd) : x.motion.isSome = true ↔ x.kind ≠ .rest := by
  cases hm : x.motion with
  | none => rw [kind_of_none hm] at h ⊢; split at h <;> simp_all
  | some mo =>
    rw [kind_of_some hm]
    by_cases hs : x.state = .moving
    · cases hp : mo.phase <;> simp [hs, Phase.kind]
    · by_cases hr : x.state = .retryWait <;> simp [hs, hr]

theorem stoppable_iff_kind (h : x.kind ≠ .odd) : x.stoppable = true ↔ x.kind.live := by
  rw [Channel.stoppable, Bool.and_eq_true, motion_iff_kind h, Bool.not_eq_true', ← Bool.not_eq_true, stopping_iff_kind]
  cases hk : x.kind <;> simp_all [Kind.live]

/-- A channel with the same state and the phases of the same kind. -/
theorem kind_eq {y : Machine.Channel} (hs : y.state = x.state) (hm : y.motion.map (·.phase.kind) = x.motion.map (·.phase.kind)) :
    y.kind = x.kind := by
  cases hx : x.motion with
  | none =>
    have hy : y.motion = none := by rw [hx] at hm; exact Option.map_eq_none_iff.mp hm
    rw [kind_of_none hx, kind_of_none hy, hs]
  | some mo =>
    rw [hx] at hm
    obtain ⟨no, hy, hp⟩ := Option.map_eq_some_iff.mp hm
    rw [kind_of_some hx, kind_of_some hy, hs, hp]

/-! ## The view of a mover -/

/-- A claim without its source and lease. -/
def Claim.gist (c : Claim) : Claim := { c with source := .link, lease := none }

/-- What the laws read of a mover's record. -/
structure Core where
  run : Bool
  claim : Option Claim
  learn : Option (LearnMethod × Dir)
  dwell : Bool

/-- What the laws read of a mover, its channels and its entries. -/
structure View extends Core where
  kinds : List Kind
  fenced : Bool
  waits : Nat
  draws : Nat
  inh : BitVec 16

def Mover.core (x : Mover) : Core :=
  { run := x.run.isSome, claim := x.claim.map Claim.gist, learn := x.learn.map fun l => (l.method, l.leg),
    dwell := x.dwellEnd.isSome }

/-- The channels of a mover, and whether it is there. -/
def Mover.wiring (x : Mover) : Bool × Option ChanId × Option ChanId := (x.present, x.leader, x.follower)

/-- The entries of a target in the admission queue. -/
def Work.waitsOf (w : Work) (t : Fin 6) : Nat := (w.bud.queue.filter fun q => q.target == t).length

/-- The entries of a target in the admitted list. -/
def Work.drawsOf (w : Work) (t : Fin 6) : Nat := (w.bud.admitted.filter fun a => a.target == t).length

/-- The admitted draws stay within the budget. -/
def Within (w : Work) : Prop := w.bud.sum ≤ w.budget

def Work.kindsOf (w : Work) (m : MoverId) : List Kind := (w.chansOf m).map fun c => (w.ch c).kind

def Work.view (w : Work) (m : MoverId) : View :=
  { (w.mv m).core with
    kinds := w.kindsOf m, fenced := w.fenced m, waits := w.waitsOf (moverTarget m), draws := w.drawsOf (moverTarget m),
    inh := w.inh }

theorem isQueued_iff_waits (w : Work) (t : Fin 6) : w.isQueued t = true ↔ w.waitsOf t ≠ 0 := by
  simp [Work.isQueued, Work.waitsOf]

theorem isQueued_false_iff_waits (w : Work) (t : Fin 6) : w.isQueued t = false ↔ w.waitsOf t = 0 := by
  rw [← Bool.not_eq_true, isQueued_iff_waits, not_not]

theorem wiring_eq {x y : Mover} (h : y.wiring = x.wiring) : y.present = x.present ∧ y.chans = x.chans := by
  simp only [Mover.wiring, Prod.mk.injEq] at h
  obtain ⟨hp, hl, hf⟩ := h
  exact ⟨hp, by simp only [Mover.chans, hl, hf]⟩

/-! ## Operations on channels -/

/-- An operation that writes the channels of a list, and of what the laws read changes no more than their kinds. -/
structure Over (l : List ChanId) (w z : Work) : Prop where
  core : ∀ n, (z.mv n).core = (w.mv n).core
  wiring : ∀ n, (z.mv n).wiring = (w.mv n).wiring
  kinds : ∀ d, d ∉ l → (z.ch d).kind = (w.ch d).kind
  fences : ∀ d, (z.ch d).fenced = (w.ch d).fenced
  ease : ∀ d, atEase (w.ch d) → atEase (z.ch d)
  waits : ∀ t, z.waitsOf t = w.waitsOf t
  draws : ∀ t, z.drawsOf t = w.drawsOf t
  within : Within w → Within z
  inh : z.inh = w.inh
  wet : z.wet = w.wet
  base : z.base = w.base

/-- An operation of which the laws see nothing. -/
abbrev Alike (w z : Work) : Prop := Over [] w z

variable {l : List ChanId} {w z u : Work}

theorem Over.refl (w : Work) : Over l w w :=
  ⟨fun _ => rfl, fun _ => rfl, fun _ _ => rfl, fun _ => rfl, fun _ h => h, fun _ => rfl, fun _ => rfl, id, rfl, rfl, rfl⟩

theorem Over.trans (h₁ : Over l w z) (h₂ : Over l z u) : Over l w u where
  core n := (h₂.core n).trans (h₁.core n)
  wiring n := (h₂.wiring n).trans (h₁.wiring n)
  kinds d hd := (h₂.kinds d hd).trans (h₁.kinds d hd)
  fences d := (h₂.fences d).trans (h₁.fences d)
  ease d h := h₂.ease d (h₁.ease d h)
  waits t := (h₂.waits t).trans (h₁.waits t)
  draws t := (h₂.draws t).trans (h₁.draws t)
  within h := h₂.within (h₁.within h)
  inh := h₂.inh.trans h₁.inh
  wet := h₂.wet.trans h₁.wet
  base := h₂.base.trans h₁.base

theorem Over.mono {k : List ChanId} (h : Over l w z) (hk : ∀ c ∈ l, c ∈ k) : Over k w z :=
  { h with kinds := fun d hd => h.kinds d fun hl => hd (hk d hl) }

theorem Alike.over (h : Alike w z) : Over l w z := h.mono fun _ hc => nomatch hc

theorem Over.ite {p : Prop} [Decidable p] (hz : p → Over l w z) (hu : ¬ p → Over l w u) : Over l w (if p then z else u) := by
  split
  · next h => exact hz h
  · next h => exact hu h

/-- Equal channels, movers, budget and profile. -/
theorem Over.of_eq (hc : z.chans = w.chans := by rfl) (hm : z.movers = w.movers := by rfl)
    (hb : z.bud = w.bud := by rfl) (hi : z.inh = w.inh := by rfl) (hp : z.store.working = w.store.working := by rfl)
    (hw : z.wet = w.wet := by rfl) (hs : z.base = w.base := by rfl) : Over l w z := by
  have hch (c : ChanId) : z.ch c = w.ch c := by simp only [Work.ch, hc]
  have hmv (n : MoverId) : z.mv n = w.mv n := by simp only [Work.mv, hm]
  refine ⟨fun n => by rw [hmv], fun n => by rw [hmv], fun c _ => by rw [hch], fun c => by rw [hch],
    fun c h => by rw [hch]; exact h, fun t => ?_, fun t => ?_, fun h => ?_, hi, hw, hs⟩
  · simp only [Work.waitsOf, hb]
  · simp only [Work.drawsOf, hb]
  · simp only [Within, Work.budget, Work.profN, Work.prof, hb, hp] at h ⊢; exact h

theorem Over.of_setCh (w : Work) (c : ChanId) {x : Machine.Channel} (hf : x.fenced = (w.ch c).fenced)
    (he : atEase (w.ch c) → atEase x) : Over [c] w (w.setCh c x) := by
  refine ⟨fun _ => rfl, fun _ => rfl, fun d hd => ?_, fun d => ?_, fun d hd => ?_, fun _ => rfl, fun _ => rfl, id, rfl, rfl, rfl⟩
  · rw [Work.ch_setCh_ne _ _ _ _ fun e => hd (by rw [e]; exact List.mem_singleton.mpr rfl)]
  · by_cases h : d = c
    · subst h; rw [Work.ch_setCh_self]; exact hf
    · rw [Work.ch_setCh_ne _ _ _ _ h]
  · by_cases h : d = c
    · subst h; rw [Work.ch_setCh_self]; exact he hd
    · rw [Work.ch_setCh_ne _ _ _ _ h]; exact hd

/-- A channel that keeps its kind, fence and ease. -/
theorem Alike.of_setCh (w : Work) (c : ChanId) {x : Machine.Channel} (hk : x.kind = (w.ch c).kind)
    (hf : x.fenced = (w.ch c).fenced) (he : atEase (w.ch c) → atEase x) : Alike w (w.setCh c x) := by
  refine { Over.of_setCh w c hf he with kinds := fun d _ => ?_ }
  by_cases h : d = c
  · subst h; rw [Work.ch_setCh_self]; exact hk
  · rw [Work.ch_setCh_ne _ _ _ _ h]

/-- A mover that keeps its core and wiring. -/
theorem Alike.of_setMv (w : Work) (m : MoverId) {x : Mover} (hx : x.core = (w.mv m).core)
    (hw : x.wiring = (w.mv m).wiring) : Alike w (w.setMv m x) := by
  have h (n : MoverId) : ((w.setMv m x).mv n).core = (w.mv n).core ∧ ((w.setMv m x).mv n).wiring = (w.mv n).wiring := by
    by_cases h : n = m
    · subst h; rw [Work.mv_setMv_self]; exact ⟨hx, hw⟩
    · rw [Work.mv_setMv_ne _ _ _ _ h]; exact ⟨rfl, rfl⟩
  exact ⟨fun n => (h n).1, fun n => (h n).2, fun _ _ => rfl, fun _ => rfl, fun _ h => h, fun _ => rfl, fun _ => rfl, id, rfl, rfl, rfl⟩

theorem Over.chansOf (h : Over l w z) (m : MoverId) : z.chansOf m = w.chansOf m := (wiring_eq (h.wiring m)).2

theorem foldl_over (k : List ChanId) {f : Work → ChanId → Work} (h : ∀ w c, Over [c] w (f w c)) (w : Work) :
    Over k w (k.foldl f w) := by
  induction k generalizing w with
  | nil => exact .refl w
  | cons a k ih =>
    exact ((h w a).mono fun c hc => List.mem_cons.mpr (.inl (List.mem_singleton.mp hc))).trans
      ((ih (f w a)).mono fun c hc => List.mem_cons_of_mem a hc)

theorem foldl_alike {α : Type} (k : List α) {f : Work → α → Work} (h : ∀ w a, Alike w (f w a)) (w : Work) :
    Alike w (k.foldl f w) := by
  induction k generalizing w with
  | nil => exact .refl w
  | cons a k ih => exact (h w a).trans (ih _)

/-- A fold that treats every channel of a list by its kind alone; it may come to a channel twice. -/
theorem foldl_kinds {g : Kind → Kind} {f : Work → ChanId → Work} (h : ∀ w c, Over [c] w (f w c))
    (hk : ∀ w c, (w.ch c).kind ≠ .odd → ((f w c).ch c).kind = g (w.ch c).kind) (hg : ∀ k, g (g k) = g k)
    (ho : ∀ k, k ≠ .odd → g k ≠ .odd) (k : List ChanId) (w : Work) (hw : ∀ c ∈ k, (w.ch c).kind ≠ .odd) :
    ∀ c ∈ k, ((k.foldl f w).ch c).kind = g (w.ch c).kind := by
  induction k generalizing w with
  | nil => exact fun c hc => nomatch hc
  | cons a k ih =>
    intro c hc
    rw [List.foldl_cons]
    have ha := hk w a (hw a List.mem_cons_self)
    have hne (d : ChanId) (hd : d ≠ a) : ((f w a).ch d).kind = (w.ch d).kind :=
      (h w a).kinds d fun e => hd (List.mem_singleton.mp e)
    have hodd : ∀ d ∈ k, ((f w a).ch d).kind ≠ .odd := by
      intro d hd
      by_cases e : d = a
      · rw [e, ha]; exact ho _ (hw a List.mem_cons_self)
      · rw [hne d e]; exact hw d (List.mem_cons_of_mem a hd)
    by_cases hm : c ∈ k
    · rw [ih (f w a) hodd c hm]
      by_cases e : c = a
      · rw [e, ha, hg]
      · rw [hne c e]
    · have e : c = a := by simpa [hm] using hc
      rw [(foldl_over k h (f w a)).kinds c hm, e, ha]

/-! ## Operations on one mover -/

/-- An operation on one mover, as the laws see it: the rest stays. -/
structure Touch (m : MoverId) (w z : Work) : Prop where
  core : ∀ n, n ≠ m → (z.mv n).core = (w.mv n).core
  wiring : ∀ n, (z.mv n).wiring = (w.mv n).wiring
  kinds : ∀ c, c ∉ w.chansOf m → (z.ch c).kind = (w.ch c).kind
  fences : ∀ c, c ∉ w.chansOf m → (z.ch c).fenced = (w.ch c).fenced
  ease : ∀ c, atEase (w.ch c) → atEase (z.ch c)
  waits : ∀ t, t ≠ moverTarget m → z.waitsOf t = w.waitsOf t
  draws : ∀ t, t ≠ moverTarget m → z.drawsOf t = w.drawsOf t
  within : Within w → Within z
  inh : z.inh = w.inh
  wet : z.wet = w.wet
  base : z.base = w.base

variable {m : MoverId}

theorem Over.touch (h : Over l w z) (hl : ∀ c ∈ l, c ∈ w.chansOf m) : Touch m w z where
  core n _ := h.core n
  wiring := h.wiring
  kinds c hc := h.kinds c fun hi => hc (hl c hi)
  fences c _ := h.fences c
  ease := h.ease
  waits t _ := h.waits t
  draws t _ := h.draws t
  within := h.within
  inh := h.inh
  wet := h.wet
  base := h.base

theorem Alike.touch (h : Alike w z) : Touch m w z := Over.touch h fun _ hc => nomatch hc

theorem Touch.refl (w : Work) : Touch m w w := Alike.touch (Over.refl w)

theorem Touch.chansOf (h : Touch m w z) (n : MoverId) : z.chansOf n = w.chansOf n := (wiring_eq (h.wiring n)).2

theorem Touch.trans (h₁ : Touch m w z) (h₂ : Touch m z u) : Touch m w u where
  core n hn := (h₂.core n hn).trans (h₁.core n hn)
  wiring n := (h₂.wiring n).trans (h₁.wiring n)
  kinds c hc := (h₂.kinds c (by rw [h₁.chansOf]; exact hc)).trans (h₁.kinds c hc)
  fences c hc := (h₂.fences c (by rw [h₁.chansOf]; exact hc)).trans (h₁.fences c hc)
  ease d h := h₂.ease d (h₁.ease d h)
  waits t ht := (h₂.waits t ht).trans (h₁.waits t ht)
  draws t ht := (h₂.draws t ht).trans (h₁.draws t ht)
  within h := h₂.within (h₁.within h)
  inh := h₂.inh.trans h₁.inh
  wet := h₂.wet.trans h₁.wet
  base := h₂.base.trans h₁.base

theorem Touch.ite {p : Prop} [Decidable p] (hz : p → Touch m w z) (hu : ¬ p → Touch m w u) : Touch m w (if p then z else u) := by
  split
  · next h => exact hz h
  · next h => exact hu h

theorem Touch.of_setMv (w : Work) {x : Mover} (hx : x.wiring = (w.mv m).wiring) : Touch m w (w.setMv m x) := by
  refine ⟨fun n hn => ?_, fun n => ?_, fun _ _ => rfl, fun _ _ => rfl, fun _ h => h, fun _ _ => rfl, fun _ _ => rfl, id, rfl, rfl, rfl⟩
  · rw [Work.mv_setMv_ne _ _ _ _ hn]
  · by_cases h : n = m
    · subst h; rw [Work.mv_setMv_self]; exact hx
    · rw [Work.mv_setMv_ne _ _ _ _ h]

/-- The mover of a channel has it. -/
theorem mem_of_moverOf {c : ChanId} (h : w.moverOf c = some m) : c ∈ w.chansOf m := by
  have := List.find?_some h
  simp only [Bool.and_eq_true] at this
  exact List.contains_iff_mem.mp this.2

/-! ## What an operation makes of a view -/

theorem fenced_congr (hc : z.chansOf m = w.chansOf m) (hf : ∀ c ∈ w.chansOf m, (z.ch c).fenced = (w.ch c).fenced) :
    z.fenced m = w.fenced m := by
  rw [Work.fenced, Work.fenced, Work.anyCh, Work.anyCh, hc, Bool.eq_iff_iff, List.any_eq_true, List.any_eq_true]
  exact exists_congr fun c => and_congr_right fun h => by rw [hf c h]

theorem Over.fenced (h : Over l w z) (m : MoverId) : z.fenced m = w.fenced m :=
  fenced_congr (h.chansOf m) fun c _ => h.fences c

/-- Only the kinds may change. -/
theorem Over.view_eq (h : Over l w z) (m : MoverId) : z.view m = { w.view m with kinds := z.kindsOf m } := by
  simp only [Work.view, h.core m, h.fenced m, h.waits, h.draws, h.inh]

theorem Alike.view (h : Alike w z) (m : MoverId) : z.view m = w.view m := by
  have hk : z.kindsOf m = w.kindsOf m := by
    rw [Work.kindsOf, Over.chansOf h m]
    exact List.map_congr_left fun c _ => h.kinds c List.not_mem_nil
  rw [Over.view_eq h, hk]; rfl

/-- Every channel of the mover is treated alike. -/
theorem Over.view_map (h : Over l w z) {g : Kind → Kind} (hg : ∀ c ∈ w.chansOf m, (z.ch c).kind = g (w.ch c).kind) :
    z.view m = { w.view m with kinds := (w.view m).kinds.map g } := by
  have hk : z.kindsOf m = (w.view m).kinds.map g := by
    rw [Work.kindsOf, h.chansOf m]
    simp only [Work.view, Work.kindsOf, List.map_map]
    exact List.map_congr_left hg
  rw [h.view_eq, hk]

theorem view_setMv (w : Work) {x : Mover} (hx : x.wiring = (w.mv m).wiring) :
    (w.setMv m x).view m = { w.view m with toCore := x.core } := by
  have hc : (w.setMv m x).chansOf m = w.chansOf m := by
    rw [Work.chansOf, Work.mv_setMv_self]; exact (wiring_eq hx).2
  simp only [Work.view, Work.kindsOf, Work.fenced, Work.anyCh, hc, Work.mv_setMv_self]
  rfl

end Sys2Proof.Machine
end

