-- ==== Sys2Proof/Proofs/DriveLawful.lean ====
section
/-! PROOF. The law of a mover as a statement about its view, and which changes of a view keep it. -/

namespace Sys2Proof.Machine

set_option Elab.async false

open Sys2Proof.Safety

/-! ## The law of a view -/

/-- No channel holds a motion. -/
def View.Rests (v : View) : Prop := ∀ k ∈ v.kinds, k = .rest

/-- A channel can still be stopped. -/
def View.Live (v : View) : Prop := ∃ k ∈ v.kinds, k.live

/-- The members that apply to the work of the mover. -/
def View.mask (m : MoverId) (v : View) : BitVec 16 :=
  match v.learn, v.claim with
  | some l, _ => learnMask l.1
  | none, some c => c.mask m
  | none, none => 0

/-- Neither fence nor member stands against the work of the mover. -/
def View.Free (m : MoverId) (v : View) : Prop := v.fenced = false ∧ v.inh &&& v.mask m = 0

/-- The law of a learning run. -/
def View.LearnsWell (m : MoverId) (v : View) : Prop :=
  ∀ l, v.learn = some l → m ≠ awn ∧ (l.1 = .refine → l.2 = .outward) ∧ (l.2 = .inward → v.claim.isSome = true) ∧
    ∀ c, v.claim = some c → c.kind = .learn ∧ c.dir = l.2

/-- The entries of the mover in the budget. -/
structure Books (v : View) : Prop where
  one : v.draws + v.waits ≤ 1
  held : v.draws ≠ 0 ↔ v.run = true
  claimed : v.waits ≠ 0 → v.claim.isSome = true
  moves : v.run = true → v.dwell = false

/-- The law of a mover but for fences and members; with `β` the law of its entries too. -/
structure Shaped (β : Prop) (m : MoverId) (v : View) : Prop where
  sound : Kind.odd ∉ v.kinds
  step : ∀ x ∈ v.kinds, ∀ y ∈ v.kinds, x.live → y.live → x = y
  held : ¬ v.Rests → v.run = true
  claimed : v.Live → v.claim.isSome = true
  queued : v.waits ≠ 0 → v.Rests ∧ v.dwell = false ∧ v.waits ≤ 1
  dwells : v.dwell = true → v.Rests
  learns : v.LearnsWell m
  books : β → Books v

/-- The law of a mover. -/
structure Lawful (β : Prop) (m : MoverId) (v : View) : Prop extends Shaped β m v where
  allowed : v.Live ∨ v.waits ≠ 0 ∨ v.learn.isSome = true → v.Free m

/-- The mover holds no motion and no entry. -/
structure Parked (β : Prop) (v : View) : Prop where
  rests : v.Rests
  waits : v.waits = 0
  books : β → v.run = false ∧ v.draws = 0

variable {β : Prop} {m : MoverId} {v : View}

theorem View.Rests.not_live (h : v.Rests) : ¬ v.Live := by
  rintro ⟨k, hk, hl⟩
  rw [h k hk] at hl
  exact hl

theorem View.Live.not_rests (h : v.Live) : ¬ v.Rests := fun hr => hr.not_live h

theorem not_rests_of {k : Kind} (hk : k ∈ v.kinds) (hr : k ≠ .rest) : ¬ v.Rests := fun h => hr (h k hk)

theorem Shaped.waits_zero (h : Shaped β m v) (hr : ¬ v.Rests) : v.waits = 0 := by
  by_contra hw
  exact hr (h.queued hw).1

theorem Shaped.not_dwelling (h : Shaped β m v) (hr : ¬ v.Rests) : v.dwell = false := by
  rw [← Bool.not_eq_true]
  exact fun hd => hr (h.dwells hd)

theorem Shaped.learn_awn (h : Shaped β awn v) : v.learn = none :=
  Option.eq_none_iff_forall_not_mem.mpr fun l hl => (h.learns l hl).1 rfl

/-- Where nothing can be stopped, waits or learns, fences and members matter to nothing. -/
theorem Shaped.lawful (h : Shaped β m v) (hl : ¬ v.Live) (hw : v.waits = 0) (hn : v.learn = none) : Lawful β m v :=
  { h with
    allowed := by
      rintro (hi | hi | hi)
      · exact absurd hi hl
      · exact absurd hw hi
      · rw [hn] at hi; cases hi }

theorem learnsWell_none (h : v.learn = none) : v.LearnsWell m := fun l hl => by rw [h] at hl; cases hl

theorem Parked.lawful (h : Parked β v) (hn : v.learn = none) : Lawful β m v := by
  refine Shaped.lawful ⟨fun ho => ?_, fun x hx y hy _ _ => ?_, fun hr => absurd h.rests hr,
    fun hl => absurd hl h.rests.not_live, fun hw => absurd h.waits hw, fun _ => h.rests, learnsWell_none hn, fun hb => ?_⟩
    h.rests.not_live h.waits hn
  · cases h.rests _ ho
  · rw [h.rests x hx, h.rests y hy]
  · obtain ⟨hr, hd⟩ := h.books hb
    exact ⟨by rw [hd, h.waits]; decide, by simp [hd, hr], fun hw => absurd h.waits hw, fun hr' => by simp [hr] at hr'⟩

/-- A mover that neither moves nor waits is parked. -/
theorem Shaped.parked (h : Shaped β m v) (hr : v.Rests) (hw : v.waits = 0) (hb : β → v.run = false) : Parked β v := by
  refine ⟨hr, hw, fun b => ⟨hb b, ?_⟩⟩
  by_contra hd
  rw [((h.books b).held).1 hd] at hb
  cases hb b

theorem Shaped.parked_of_run (h : Shaped β m v) (hr : v.run = false) (hw : v.waits = 0) : Parked β v := by
  refine h.parked ?_ hw fun _ => hr
  by_contra hn
  rw [h.held hn] at hr
  cases hr

theorem Shaped.parked_of_dwell (h : Shaped β m v) (hd : v.dwell = true) : Parked β v := by
  refine h.parked (h.dwells hd) ?_ fun b => ?_
  · by_contra hw
    rw [(h.queued hw).2.1] at hd
    cases hd
  · rw [← Bool.not_eq_true]
    intro hr
    rw [(h.books b).moves hr] at hd
    cases hd

/-! ## Stops -/

/-- A stop request. -/
def Kind.stop : Kind → Kind
  | .starting => .rest
  | .driving => .stopping
  | .waiting => .stopping
  | k => k

/-- A latching lock. -/
def Kind.latch : Kind → Kind
  | .driving => .stopping
  | k => k

/-- A retry. -/
def Kind.suspend : Kind → Kind
  | .driving => .waiting
  | k => k

/-- Entry to RAMP from STARTING, and from RETRY_WAIT. -/
def Kind.depart : Kind → Kind
  | .starting => .driving
  | k => k

def Kind.resume : Kind → Kind
  | .waiting => .driving
  | k => k

/-- Everything the mover holds is stopped. -/
theorem Shaped.stopped (h : Shaped β m v) (hw : v.waits = 0) :
    Lawful β m { v with claim := none, learn := none, kinds := v.kinds.map Kind.stop } := by
  have hk : ∀ k ∈ v.kinds.map Kind.stop, k ≠ .odd ∧ ¬ k.live ∧ (k ≠ .rest → ¬ v.Rests) := by
    intro k hk
    obtain ⟨j, hj, rfl⟩ := List.mem_map.mp hk
    have ho : j ≠ .odd := fun e => h.sound (e ▸ hj)
    refine ⟨?_, ?_, fun hr => not_rests_of hj fun e => hr ?_⟩
    · cases j <;> simp_all [Kind.stop]
    · cases j <;> simp_all [Kind.stop, Kind.live]
    · rw [e]; rfl
  have hl : ∀ k ∈ v.kinds.map Kind.stop, ¬ k.live := fun k hi => (hk k hi).2.1
  refine Shaped.lawful ⟨fun ho => (hk _ ho).1 rfl, fun x hx y _ hlx => absurd hlx (hl x hx), fun hr => ?_,
    fun ⟨k, hi, hlk⟩ => absurd hlk (hl k hi), fun hn => absurd hw hn, fun hd k hi => ?_, learnsWell_none rfl, fun hb => ?_⟩
    (fun ⟨k, hi, hlk⟩ => hl k hi hlk) hw rfl
  · refine h.held fun hv => hr fun k hi => ?_
    by_contra hne
    exact (hk k hi).2.2 hne hv
  · by_contra hne
    exact (hk k hi).2.2 hne (h.dwells hd)
  · obtain ⟨ho, hh, _, hm⟩ := h.books hb
    exact ⟨ho, hh, fun hn => absurd hw hn, hm⟩

/-- Where one channel drives, a latching lock stops what a stop request would. -/
theorem Shaped.latched (h : Shaped β m v) (hd : Kind.driving ∈ v.kinds) :
    Lawful β m { v with claim := none, learn := none, kinds := v.kinds.map Kind.latch } := by
  have hk : v.kinds.map Kind.latch = v.kinds.map Kind.stop := by
    refine List.map_congr_left fun k hi => ?_
    have := h.step k hi .driving hd
    cases k <;> simp_all [Kind.latch, Kind.stop, Kind.live]
  rw [hk]
  exact h.stopped (h.waits_zero (not_rests_of hd nofun))

/-- Some channels come to rest or to STOPPING, others stay. -/
theorem Lawful.fewer (h : Lawful β m v) (hr : ¬ v.Rests) {l : List Kind}
    (hl : ∀ k ∈ l, k = .stopping ∨ k = .rest ∨ k ∈ v.kinds) : Lawful β m { v with kinds := l } := by
  have live : ∀ k ∈ l, k.live → k ∈ v.kinds := by
    intro k hk hi
    rcases hl k hk with rfl | rfl | hm
    · exact hi.elim
    · exact hi.elim
    · exact hm
  have hlive : (∃ k ∈ l, k.live) → v.Live := fun ⟨k, hk, hi⟩ => ⟨k, live k hk hi, hi⟩
  refine ⟨⟨fun ho => ?_, fun x hx y hy hxl hyl => h.step x (live x hx hxl) y (live y hy hyl) hxl hyl, fun _ => h.held hr,
    fun hi => h.claimed (hlive hi), fun hw => absurd (h.waits_zero hr) hw, fun hd => ?_, h.learns,
    fun hb => ⟨(h.books hb).one, (h.books hb).held, (h.books hb).claimed, (h.books hb).moves⟩⟩, fun hi => ?_⟩
  · rcases hl _ ho with e | e | e
    · cases e
    · cases e
    · exact h.sound e
  · rw [h.not_dwelling hr] at hd; cases hd
  · exact h.allowed (hi.imp_left hlive)

/-- A claim ends with the last seat (R38), but not in the inward leg of a learning run. -/
theorem Lawful.unclaimed (h : Lawful β m v) (hl : ¬ v.Live) (hw : v.waits = 0) (hn : ∀ l, v.learn = some l → l.2 ≠ .inward) :
    Lawful β m { v with claim := none } := by
  refine ⟨⟨h.sound, h.step, h.held, fun hi => absurd hi hl, fun hi => absurd hw hi, h.dwells, fun l hi => ?_,
    fun hb => ⟨(h.books hb).one, (h.books hb).held, fun hi => absurd hw hi, (h.books hb).moves⟩⟩, fun hi => ?_⟩
  · obtain ⟨ha, hr, _, _⟩ := h.learns l hi
    exact ⟨ha, hr, fun e => absurd e (hn l hi), fun c hc => by cases hc⟩
  · have hs : v.learn.isSome = true := by
      rcases hi with hi | hi | hi
      · exact absurd hi hl
      · exact absurd hw hi
      · exact hi
    obtain ⟨l, hv⟩ := Option.isSome_iff_exists.mp hs
    have := h.allowed (.inr (.inr hs))
    simp only [View.Free, View.mask, hv] at this ⊢
    exact this

/-! ## Retries and the entry to RAMP -/

theorem and_zero_of_sub {w a b : BitVec 16} (h : w &&& a = 0) (hs : a &&& b = b) : w &&& b = 0 := by
  rw [← hs, ← BitVec.and_assoc, h]; simp

/-- A claim of a learning run is reached by fewer members than the run (R158). -/
theorem mask_learn {w : BitVec 16} {k : LearnMethod} {d : Dir} {c : Claim} (hm : m ≠ awn) (hk : k = .refine → d = .outward)
    (hc : c.kind = .learn ∧ c.dir = d) (h : w &&& learnMask k = 0) : w &&& c.mask m = 0 := by
  have hmask : c.mask m = (moveClass m d).mask := by
    simp only [Claim.mask, hc.1, hc.2]
  refine and_zero_of_sub h ?_
  rw [hmask]
  simp only [moveClass, if_neg hm]
  cases k with
  | endToEnd => cases d <;> decide
  | refine => rw [hk rfl]; decide

/-- The run of a mover that drives is suspended, its claim goes on (R24, R57). -/
theorem Lawful.suspended (h : Lawful β m v) (hd : Kind.driving ∈ v.kinds) :
    Lawful β m { v with learn := none, kinds := v.kinds.map Kind.suspend } := by
  have hr : ¬ v.Rests := not_rests_of hd nofun
  have hw := h.waits_zero hr
  have hlive : v.Live := ⟨_, hd, trivial⟩
  have hk : ∀ k ∈ v.kinds.map Kind.suspend, k = .rest ∨ k = .stopping ∨ k = .waiting := by
    intro k hi
    obtain ⟨j, hj, rfl⟩ := List.mem_map.mp hi
    have ho : j ≠ .odd := fun e => h.sound (e ▸ hj)
    have := h.step j hj .driving hd
    cases j <;> simp_all [Kind.suspend, Kind.live]
  have live : ∀ k ∈ v.kinds.map Kind.suspend, k.live → k = .waiting := by
    intro k hi hl
    rcases hk k hi with rfl | rfl | rfl
    · exact hl.elim
    · exact hl.elim
    · rfl
  refine ⟨⟨fun ho => by simpa using hk _ ho, fun x hx y hy hxl hyl => (live x hx hxl).trans (live y hy hyl).symm,
    fun _ => h.held hr, fun _ => h.claimed hlive, fun hn => absurd hw hn, fun hb => ?_, learnsWell_none rfl,
    fun hb => ⟨(h.books hb).one, (h.books hb).held, (h.books hb).claimed, (h.books hb).moves⟩⟩, fun _ => ?_⟩
  · rw [h.not_dwelling hr] at hb; cases hb
  · obtain ⟨hf, hm⟩ := h.allowed (.inl hlive)
    refine ⟨hf, ?_⟩
    obtain ⟨c, hc⟩ := Option.isSome_iff_exists.mp (h.claimed hlive)
    simp only [View.mask, hc] at hm ⊢
    cases hl : v.learn with
    | none => rw [hl] at hm; exact hm
    | some l =>
      rw [hl] at hm
      obtain ⟨ha, hk, _, hg⟩ := h.learns l hl
      exact mask_learn ha hk (hg c hc) hm

/-- The live channels of a mover, alike, enter RAMP. -/
theorem Lawful.ramped (h : Lawful β m v) {k : Kind} (hk : k ∈ v.kinds) (hl : k.live) {g : Kind → Kind} (hg : g k = .driving)
    (hs : ∀ j, j ≠ k → g j = j) : Lawful β m { v with kinds := v.kinds.map g } := by
  have hr : ¬ v.Rests := View.Live.not_rests ⟨k, hk, hl⟩
  have hw := h.waits_zero hr
  have cases_ : ∀ j ∈ v.kinds.map g, j = .driving ∨ (j ∈ v.kinds ∧ ¬ j.live) := by
    intro j hj
    obtain ⟨i, hi, rfl⟩ := List.mem_map.mp hj
    by_cases e : i = k
    · rw [e]; exact .inl hg
    · rw [hs i e]; exact .inr ⟨hi, fun hil => e (h.step i hi k hk hil hl)⟩
  have live : ∀ j ∈ v.kinds.map g, j.live → j = .driving := fun j hj hjl =>
    (cases_ j hj).resolve_right fun hn => hn.2 hjl
  refine ⟨⟨fun ho => ?_, fun x hx y hy hxl hyl => (live x hx hxl).trans (live y hy hyl).symm, fun _ => h.held hr,
    fun _ => h.claimed ⟨k, hk, hl⟩, fun hn => absurd hw hn, fun hb => ?_, h.learns,
    fun hb => ⟨(h.books hb).one, (h.books hb).held, (h.books hb).claimed, (h.books hb).moves⟩⟩,
    fun _ => h.allowed (.inl ⟨k, hk, hl⟩)⟩
  · rcases cases_ _ ho with e | e
    · cases e
    · exact h.sound e.1
  · rw [h.not_dwelling hr] at hb; cases hb

/-! ## Claims -/

/-- A motion is handed over to a parked mover with a claim (R4, R33). -/
theorem lawful_handed {m : MoverId} {v : View} (hw : v.waits = 0) (hc : v.claim.isSome = true) (hl : v.LearnsWell m)
    (hf : v.Free m) (hb : β → v.draws = 1) :
    Lawful β m { v with run := true, dwell := false, kinds := v.kinds.map fun _ => .starting } := by
  have hk : ∀ k ∈ v.kinds.map (fun _ => Kind.starting), k = .starting := by
    intro k hi
    obtain ⟨_, _, rfl⟩ := List.mem_map.mp hi
    rfl
  refine ⟨⟨fun ho => Kind.noConfusion (hk _ ho), fun x hx y hy _ _ => (hk x hx).trans (hk y hy).symm, fun _ => rfl, fun _ => hc,
    fun hn => absurd hw hn, fun hd => Bool.noConfusion hd, hl, fun b => ⟨?_, ?_, fun _ => hc, fun _ => rfl⟩⟩, fun _ => hf⟩
  · show v.draws + v.waits ≤ 1; rw [hb b, hw]
  · show v.draws ≠ 0 ↔ true = true; simp [hb b]

/-- A parked mover's claim joins the queue (R144). -/
theorem lawful_queued {m : MoverId} {v : View} (hp : Parked β v) (hd : v.dwell = false) (hc : v.claim.isSome = true)
    (hl : v.LearnsWell m) (hf : v.Free m) : Lawful β m { v with waits := v.waits + 1 } := by
  have hr := hp.rests
  refine ⟨⟨fun ho => ?_, fun x hx y hy _ _ => ?_, fun hn => absurd hr hn, fun _ => hc,
    fun _ => ⟨hr, hd, by rw [hp.waits]⟩, fun _ => hr, hl, fun b => ⟨?_, ?_, fun _ => hc, fun _ => hd⟩⟩, fun _ => hf⟩
  · cases hr _ ho
  · rw [hr x hx, hr y hy]
  · show v.draws + (v.waits + 1) ≤ 1; rw [(hp.books b).2, hp.waits]
  · show v.draws ≠ 0 ↔ v.run = true; simp [hp.books b]

/-- A queued entry is taken out of the queue, with what stood behind it. -/
theorem Shaped.removed (h : Shaped β m v) (hq : v.waits ≠ 0) :
    Parked β { v with claim := none, learn := none, waits := 0 } ∧ v.dwell = false := by
  obtain ⟨hr, hd, _⟩ := h.queued hq
  refine ⟨⟨hr, rfl, fun b => ?_⟩, hd⟩
  obtain ⟨ho, hh, _, _⟩ := h.books b
  have hz : v.draws = 0 := by omega
  refine ⟨?_, hz⟩
  rw [← Bool.not_eq_true]
  exact fun hrun => hh.2 hrun hz

/-- A dwell, begun or dropped, in a mover at rest. -/
theorem Parked.dwell (h : Parked β v) (b : Bool) : Parked β { v with dwell := b } := ⟨h.rests, h.waits, h.books⟩

theorem Lawful.undwell (h : Lawful β m v) : Lawful β m { v with dwell := false } :=
  ⟨⟨h.sound, h.step, h.held, h.claimed, fun hw => ⟨(h.queued hw).1, rfl, (h.queued hw).2.2⟩, fun hd => Bool.noConfusion hd, h.learns,
    fun b => ⟨(h.books b).one, (h.books b).held, (h.books b).claimed, fun _ => rfl⟩⟩, h.allowed⟩

end Sys2Proof.Machine
end

