-- ==== Sys2Proof/Proofs/DriveWork.lean ====
section
/-! PROOF. The laws of the drive and of the budget of a whole part, read mover by mover; what keeps them. -/

namespace Sys2Proof.Machine

set_option Elab.async false

open Sys2Proof.Safety

/-! ## The entries of the pump -/

/-- The entries of the pump in the budget. -/
structure Pumped (w : Work) : Prop where
  one : w.bud.draws.length + w.bud.waits ≤ 1
  held : w.bud.draws ≠ [] ↔ w.hyd.pump = .running ∨ w.hyd.pendingStart = true
  apart : w.hyd.pump = .running → w.hyd.pendingStart = false

/-- The law of the circuit with that of its entries. -/
structure Circuit (w : Work) : Prop where
  law : HydLaw w
  pumped : Pumped w

theorem hydLaw_of_wet {w z : Work} (h : HydLaw w) (hw : z.wet = w.wet) (hb : z.base = w.base) : HydLaw z :=
  (hydGood_of_wet (z := { z with now := w.now }) h hw hb).law

theorem Pumped.of_wet {w z : Work} (h : Pumped w) (hw : z.wet = w.wet) : Pumped z := by
  have hh : z.hyd = w.hyd := congrArg Wet.hyd hw
  have hq : z.bud.waits = w.bud.waits := congrArg Wet.waits hw
  have hd : z.bud.draws = w.bud.draws := congrArg Wet.draws hw
  exact ⟨by rw [hq, hd]; exact h.one, by rw [hd, hh]; exact h.held, by rw [hh]; exact h.apart⟩

theorem Circuit.of_wet {w z : Work} (h : Circuit w) (hw : z.wet = w.wet) (hb : z.base = w.base) : Circuit z :=
  ⟨hydLaw_of_wet h.law hw hb, h.pumped.of_wet hw⟩

/-! ## The law of a part -/

/-- Every mover keeps `L`, a channel serves one mover at most, and with `β` budget and circuit are in order. -/
structure Drive (L : MoverId → View → Prop) (β : Prop) (w : Work) : Prop where
  wired : ∀ m, ∀ c ∈ w.chansOf m, w.moverOf c = some m
  loose : ∀ c, w.moverOf c = none → (w.ch c).kind = .rest
  movers : ∀ m, L m (w.view m)
  books : β → Within w ∧ Circuit w

/-- The law of a part: no motor is driven outside RAMP, RUN and APPROACH; with `α` the law of the drive; with `β` that of the
budget too. -/
structure Law (α β : Prop) (w : Work) : Prop where
  ease : ∀ c, atEase (w.ch c)
  drive : α → Drive (Lawful β) β w

variable {α β : Prop} {L K : MoverId → View → Prop} {w z : Work} {m : MoverId}

theorem moverOf_congr (h : ∀ n, (z.mv n).wiring = (w.mv n).wiring) (c : ChanId) : z.moverOf c = w.moverOf c := by
  have hp : (fun m => (z.mv m).present && (z.mv m).chans.contains c) = fun m => (w.mv m).present && (w.mv m).chans.contains c := by
    funext n
    rw [(wiring_eq (h n)).1, (wiring_eq (h n)).2]
  rw [Work.moverOf, Work.moverOf, hp]

/-- No channel serves two movers. -/
theorem Drive.not_mem (h : Drive L β w) {n : MoverId} (hn : n ≠ m) {c : ChanId} (hc : c ∈ w.chansOf n) : c ∉ w.chansOf m := by
  intro hm
  have := (h.wired n c hc).symm.trans (h.wired m c hm)
  exact hn (Option.some.inj this)

theorem Drive.weaken (h : Drive L β w) (hk : ∀ m v, L m v → K m v) : Drive K β w :=
  { h with movers := fun m => hk m _ (h.movers m) }

theorem moverTarget_inj {n m : MoverId} (h : n ≠ m) : moverTarget n ≠ moverTarget m := fun e => h (by
  have := congrArg Fin.val e
  exact Fin.ext this)

theorem Touch.view_ne (ht : Touch m w z) (h : Drive L β w) {n : MoverId} (hn : n ≠ m) : z.view n = w.view n := by
  have hk : z.kindsOf n = w.kindsOf n := by
    rw [Work.kindsOf, ht.chansOf]
    exact List.map_congr_left fun c hc => ht.kinds c (h.not_mem hn hc)
  have hf : z.fenced n = w.fenced n := fenced_congr (ht.chansOf n) fun c hc => ht.fences c (h.not_mem hn hc)
  have ht' := moverTarget_inj hn
  simp only [Work.view, ht.core n hn, hk, hf, ht.waits _ ht', ht.draws _ ht', ht.inh]

theorem Drive.touch (h : Drive L β w) (ht : Touch m w z) (hm : K m (z.view m)) (ho : ∀ n, n ≠ m → L n (w.view n) → K n (w.view n)) :
    Drive K β z where
  wired n c hc := by
    rw [ht.chansOf] at hc
    rw [moverOf_congr ht.wiring]
    exact h.wired n c hc
  loose c hc := by
    rw [moverOf_congr ht.wiring] at hc
    rw [ht.kinds c fun hm => by rw [h.wired m c hm] at hc; cases hc]
    exact h.loose c hc
  movers n := by
    by_cases e : n = m
    · rw [e]; exact hm
    · rw [ht.view_ne h e]; exact ho n e (h.movers n)
  books b := ⟨ht.within (h.books b).1, (h.books b).2.of_wet ht.wet ht.base⟩

theorem Drive.alike (h : Drive L β w) (ha : Alike w z) : Drive L β z :=
  h.touch (m := awn) ha.touch (by rw [ha.view]; exact h.movers awn) fun _ _ => id

theorem Law.touch (h : Law α β w) (ht : Touch m w z) (hm : α → Drive (Lawful β) β w → Lawful β m (z.view m)) : Law α β z :=
  ⟨fun c => ht.ease c (h.ease c), fun a => (h.drive a).touch ht (hm a (h.drive a)) fun _ _ => id⟩

theorem Law.alike (h : Law α β w) (ha : Alike w z) : Law α β z :=
  ⟨fun c => ha.ease c (h.ease c), fun a => (h.drive a).alike ha⟩

/-! ## Operations on the circuit -/

/-- An operation on the hydraulic circuit, as the laws of drive and budget see it; under `P` the entries of the pump stay in
order. -/
structure Beside (P : Prop) (w z : Work) : Prop where
  chans : z.chans = w.chans
  movers : z.movers = w.movers
  inh : z.inh = w.inh
  waits : ∀ t, t ≠ hydTarget → z.waitsOf t = w.waitsOf t
  draws : ∀ t, t ≠ hydTarget → z.drawsOf t = w.drawsOf t
  within : Within w → Within z
  pumped : P → Pumped w → Pumped z

/-- One that always keeps the entries of the pump in order. -/
abbrev Aside (w z : Work) : Prop := Beside True w z

variable {P Q : Prop}

theorem Beside.refl (w : Work) : Beside P w w := ⟨rfl, rfl, rfl, fun _ _ => rfl, fun _ _ => rfl, id, fun _ => id⟩

theorem Beside.then {u : Work} (h₁ : Beside P w z) (hq : P → Q) (h₂ : Beside Q z u) : Beside P w u :=
  ⟨h₂.chans.trans h₁.chans, h₂.movers.trans h₁.movers, h₂.inh.trans h₁.inh, fun t ht => (h₂.waits t ht).trans (h₁.waits t ht),
    fun t ht => (h₂.draws t ht).trans (h₁.draws t ht), fun h => h₂.within (h₁.within h),
    fun p h => h₂.pumped (hq p) (h₁.pumped p h)⟩

theorem Beside.trans {u : Work} (h₁ : Beside P w z) (h₂ : Aside z u) : Beside P w u := h₁.then (fun _ => trivial) h₂

theorem Aside.beside (h : Aside w z) : Beside P w z := { h with pumped := fun _ => h.pumped trivial }

theorem Beside.ite {p : Prop} [Decidable p] {u : Work} (hz : p → Beside P w z) (hu : ¬ p → Beside P w u) :
    Beside P w (if p then z else u) := by
  split
  · next h => exact hz h
  · next h => exact hu h

theorem foldl_aside {γ : Type} (k : List γ) {f : Work → γ → Work} (h : ∀ w a, Aside w (f w a)) (w : Work) :
    Aside w (k.foldl f w) := by
  induction k generalizing w with
  | nil => exact .refl w
  | cons a k ih => exact (h w a).trans (ih _)

theorem within_of_eq (h : Within w) (hb : z.bud = w.bud) (hp : z.store.working = w.store.working) : Within z := by
  simp only [Within, Work.budget, Work.profN, Work.prof, hb, hp] at h ⊢
  exact h

/-- An operation that leaves channels, movers, budget, pump and profile. -/
theorem Beside.of_eq (hc : z.chans = w.chans := by rfl) (hm : z.movers = w.movers := by rfl) (hb : z.bud = w.bud := by rfl)
    (hi : z.inh = w.inh := by rfl) (hp : z.store.working = w.store.working := by rfl) (hu : z.hyd.pump = w.hyd.pump := by rfl)
    (hs : z.hyd.pendingStart = w.hyd.pendingStart := by rfl) : Beside P w z :=
  ⟨hc, hm, hi, fun t _ => by simp only [Work.waitsOf, hb], fun t _ => by simp only [Work.drawsOf, hb],
    fun h => within_of_eq h hb hp, fun _ h => ⟨by rw [hb]; exact h.one, by rw [hb, hu, hs]; exact h.held, by rw [hu, hs]; exact h.apart⟩⟩

theorem moverTarget_ne {m : MoverId} : moverTarget m ≠ hydTarget := by
  revert m; decide

theorem Beside.view (h : Beside P w z) (m : MoverId) : z.view m = w.view m := by
  have hch (c : ChanId) : z.ch c = w.ch c := by simp only [Work.ch, h.chans]
  have hmv (n : MoverId) : z.mv n = w.mv n := by simp only [Work.mv, h.movers]
  simp only [Work.view, Work.kindsOf, Work.fenced, Work.anyCh, Work.chansOf, hch, hmv, h.inh,
    h.waits _ moverTarget_ne, h.draws _ moverTarget_ne]

theorem Drive.beside (h : Drive L β w) (ha : Beside (HydLaw w) w z) (hh : HydLaw w → HydLaw z) : Drive L β z := by
  have hch (c : ChanId) : z.ch c = w.ch c := by simp only [Work.ch, ha.chans]
  have hmv (n : MoverId) : z.mv n = w.mv n := by simp only [Work.mv, ha.movers]
  have hmo (c : ChanId) : z.moverOf c = w.moverOf c := moverOf_congr (fun n => by rw [hmv]) c
  refine ⟨fun m c hc => ?_, fun c hc => ?_, fun m => by rw [ha.view]; exact h.movers m,
    fun b => ⟨ha.within (h.books b).1, hh (h.books b).2.law, ha.pumped (h.books b).2.law (h.books b).2.pumped⟩⟩
  · rw [hmo]
    simp only [Work.chansOf, hmv] at hc
    exact h.wired m c hc
  · rw [hmo] at hc
    rw [hch]; exact h.loose c hc

theorem Law.beside (h : Law α β w) (ha : Beside (HydLaw w) w z) (hh : HydLaw w → HydLaw z) : Law α β z :=
  ⟨fun c => by simp only [Work.ch, ha.chans]; exact h.ease c, fun a => (h.drive a).beside ha hh⟩

/-! ## The law of the drive -/

/-- A channel that holds no motion and neither moves nor waits. -/
theorem rest_iff_kind {x : Machine.Channel} : x.kind = .rest ↔ x.motion = none ∧ x.kind ≠ .odd := by
  constructor
  · intro h
    have ho : x.kind ≠ .odd := by rw [h]; nofun
    refine ⟨?_, ho⟩
    by_contra hm
    exact (motion_iff_kind ho).mp (Option.isSome_iff_ne_none.mpr hm) h
  · rintro ⟨hm, ho⟩
    by_contra hr
    have := (motion_iff_kind ho).mpr hr
    rw [hm] at this
    cases this

theorem mem_view_kinds {k : Kind} : k ∈ (w.view m).kinds ↔ ∃ c ∈ w.chansOf m, (w.ch c).kind = k := by
  simp only [Work.view, Work.kindsOf, List.mem_map]

/-- What a sound mover's view says of its channels. -/
theorem atRest_iff (hs : ∀ c ∈ w.chansOf m, (w.ch c).kind ≠ .odd) : w.atRest m = true ↔ (w.view m).Rests := by
  have hr : w.atRest m = true ↔ ∀ c ∈ w.chansOf m, (w.ch c).motion.isSome = false := by
    simp [Work.atRest, Work.anyCh]
  rw [hr]
  constructor
  · intro h k hk
    obtain ⟨c, hc, rfl⟩ := mem_view_kinds.mp hk
    by_contra hne
    exact Bool.eq_false_iff.mp (h c hc) ((motion_iff_kind (hs c hc)).mpr hne)
  · intro h c hc
    rw [← Bool.not_eq_true, motion_iff_kind (hs c hc), not_not]
    exact h _ (mem_view_kinds.mpr ⟨c, hc, rfl⟩)

theorem anyStoppable_iff (hs : ∀ c ∈ w.chansOf m, (w.ch c).kind ≠ .odd) :
    w.anyCh m Channel.stoppable = true ↔ (w.view m).Live := by
  rw [Work.anyCh, List.any_eq_true]
  constructor
  · rintro ⟨c, hc, h⟩
    exact ⟨_, mem_view_kinds.mpr ⟨c, hc, rfl⟩, (stoppable_iff_kind (hs c hc)).mp h⟩
  · rintro ⟨k, hk, hl⟩
    obtain ⟨c, hc, rfl⟩ := mem_view_kinds.mp hk
    exact ⟨c, hc, (stoppable_iff_kind (hs c hc)).mpr hl⟩

theorem view_claim : (w.view m).claim = (w.mv m).claim.map Claim.gist := rfl

theorem view_learn : (w.view m).learn = (w.mv m).learn.map fun l => (l.method, l.leg) := rfl

theorem view_mask (w : Work) (m : MoverId) : (w.view m).mask m = w.claimMask m := by
  simp only [View.mask, Work.claimMask, view_claim, view_learn]
  cases (w.mv m).learn with
  | some l => rfl
  | none => cases (w.mv m).claim <;> rfl

end Sys2Proof.Machine
end

