-- ==== Sys2Proof/Proofs/DriveLawIff.lean ====
section
/-! PROOF. The law of the drive and that of the budget, as the statements give them, in terms of views. -/

namespace Sys2Proof.Machine

set_option Elab.async false

open Sys2Proof.Safety

variable {β : Prop} {w z : Work} {m : MoverId}

/-- No channel of the mover is in a state that its motion contradicts. -/
def SoundChans (w : Work) (m : MoverId) : Prop := ∀ c ∈ w.chansOf m, (w.ch c).kind ≠ .odd

theorem soundChans_iff : SoundChans w m ↔ Kind.odd ∉ (w.view m).kinds :=
  ⟨fun h ho => by obtain ⟨c, hc, hk⟩ := mem_view_kinds.mp ho; exact h c hc hk,
    fun h c hc ho => h (mem_view_kinds.mpr ⟨c, hc, ho⟩)⟩

theorem inStep_iff (hs : SoundChans w m) :
    InStep w m ↔ ∀ x ∈ (w.view m).kinds, ∀ y ∈ (w.view m).kinds, x.live → y.live → x = y := by
  constructor
  · intro h x hx y hy hxl hyl
    obtain ⟨c, hc, rfl⟩ := mem_view_kinds.mp hx
    obtain ⟨d, hd, rfl⟩ := mem_view_kinds.mp hy
    obtain ⟨h₁, h₂⟩ := h c hc d hd ((stoppable_iff_kind (hs c hc)).mpr hxl) ((stoppable_iff_kind (hs d hd)).mpr hyl)
    rw [Bool.eq_iff_iff, starting_iff_kind, starting_iff_kind] at h₁
    rw [Bool.eq_iff_iff, driving_iff_kind, driving_iff_kind] at h₂
    revert hxl hyl h₁ h₂
    cases (w.ch c).kind <;> cases (w.ch d).kind <;> simp [Kind.live]
  · intro h c hc d hd hcs hds
    have hk := h _ (mem_view_kinds.mpr ⟨c, hc, rfl⟩) _ (mem_view_kinds.mpr ⟨d, hd, rfl⟩)
      ((stoppable_iff_kind (hs c hc)).mp hcs) ((stoppable_iff_kind (hs d hd)).mp hds)
    constructor
    · rw [Bool.eq_iff_iff, starting_iff_kind, starting_iff_kind, hk]
    · rw [Bool.eq_iff_iff, driving_iff_kind, driving_iff_kind, hk]

theorem claim_isSome (w : Work) (m : MoverId) : (w.view m).claim.isSome = (w.mv m).claim.isSome := Option.isSome_map ..

theorem learn_isSome (w : Work) (m : MoverId) : (w.view m).learn.isSome = (w.mv m).learn.isSome := Option.isSome_map ..

theorem learnLaw_iff : LearnLaw w m ↔ (w.view m).LearnsWell m := by
  simp only [View.LearnsWell, view_learn, view_claim, Option.isSome_map, Option.map_eq_some_iff]
  constructor
  · rintro h l ⟨r, hr, rfl⟩
    obtain ⟨ha, hf, hi, hc⟩ := h r hr
    refine ⟨ha, hf, hi, ?_⟩
    rintro _ ⟨c, hcl, rfl⟩
    exact hc c hcl
  · intro h r hr
    obtain ⟨ha, hf, hi, hc⟩ := h _ ⟨r, hr, rfl⟩
    exact ⟨ha, hf, hi, fun c hcl => hc c.gist ⟨c, hcl, rfl⟩⟩

theorem allowed_iff (hs : SoundChans w m) : Allowed w m ↔
    ((w.view m).Live ∨ (w.view m).waits ≠ 0 ∨ (w.view m).learn.isSome = true → (w.view m).Free m) := by
  rw [View.Free, view_mask, learn_isSome, ← anyStoppable_iff hs, Allowed, isQueued_iff_waits]
  rfl

theorem heldAsOne_iff (hs : SoundChans w m) : HeldAsOne w m ↔
    (¬ (w.view m).Rests → (w.view m).run = true) ∧ ((w.view m).Live → (w.view m).claim.isSome = true) ∧
    ((w.view m).waits ≠ 0 → (w.view m).Rests ∧ (w.view m).dwell = false ∧ (w.view m).waits ≤ 1) ∧
    ((w.view m).dwell = true → (w.view m).Rests) := by
  have hd : (w.view m).dwell = (w.mv m).dwellEnd.isSome := rfl
  have hn : (w.mv m).dwellEnd = none ↔ (w.view m).dwell = false := by rw [hd]; simp
  rw [HeldAsOne, ← Bool.not_eq_true, atRest_iff hs, anyStoppable_iff hs, isQueued_iff_waits, claim_isSome, hn, ← hd]
  rfl

theorem lawful_iff (hs : SoundChans w m) :
    (InStep w m ∧ HeldAsOne w m ∧ LearnLaw w m ∧ Allowed w m) ↔ Lawful False m (w.view m) := by
  rw [inStep_iff hs, heldAsOne_iff hs, learnLaw_iff, allowed_iff hs]
  constructor
  · rintro ⟨hi, ⟨hh, hc, hq, hd⟩, hl, ha⟩
    exact ⟨⟨soundChans_iff.mp hs, hi, hh, hc, hq, hd, hl, False.elim⟩, ha⟩
  · intro h
    exact ⟨h.step, ⟨h.held, h.claimed, h.queued, h.dwells⟩, h.learns, h.allowed⟩

/-- The law of the drive of a part. -/
theorem driveLaw_iff (s : State) : DriveLaw s ↔ Law True False s.work := by
  constructor
  · rintro ⟨⟨hw, hn⟩, hc, hm⟩
    have hs (c : ChanId) : (s.work.ch c).kind ≠ .odd := sound_iff_kind.mp (hc c).2
    exact ⟨fun c => (hc c).1, fun _ => ⟨hw, fun c ho => rest_iff_kind.mpr ⟨hn c ho, hs c⟩,
      fun m => (lawful_iff fun c _ => hs c).mp (hm m), False.elim⟩⟩
  · rintro ⟨he, hd⟩
    obtain ⟨hw, hl, hm, _⟩ := hd trivial
    have hs (c : ChanId) : (s.work.ch c).kind ≠ .odd := by
      cases ho : s.work.moverOf c with
      | none => rw [hl c ho]; nofun
      | some m => exact soundChans_iff.mpr (hm m).sound c (mem_of_moverOf ho)
    exact ⟨⟨hw, fun c ho => (rest_iff_kind.mp (hl c ho)).1⟩, fun c => ⟨he c, sound_iff_kind.mpr (hs c)⟩,
      fun m => (lawful_iff fun c _ => hs c).mpr (hm m)⟩

theorem drivesOnlyInMotion_iff (s : State) : DrivesOnlyInMotion s ↔ Law False False s.work :=
  ⟨fun h => ⟨h, False.elim⟩, fun h => h.ease⟩

/-! ## A duty (R10) -/

theorem motion_of_driving {x : Machine.Channel} (h : x.driving = true) : x.motion.isSome = true ∧ x.state = .moving := by
  rw [Channel.driving] at h
  cases hm : x.motion with
  | none => rw [hm] at h; cases h
  | some mo => simp only [hm, Bool.and_eq_true, beq_iff_eq] at h; exact ⟨rfl, h.1⟩

/-- In a part that keeps the law a duty is allowed. -/
theorem dutyAllowed_of_law {s : State} (h : DriveLaw s) (c : ChanId) : DutyAllowed s.work c := by
  intro hduty
  obtain ⟨⟨hw, hn⟩, hc, hm⟩ := h
  have hdrive : (s.work.ch c).driving = true := (hc c).1.resolve_right fun hz => hduty hz.1
  obtain ⟨hmo, hst⟩ := motion_of_driving hdrive
  obtain ⟨m, hown⟩ : ∃ m, s.work.moverOf c = some m := by
    rw [← Option.isSome_iff_exists, Option.isSome_iff_ne_none]
    intro ho
    rw [hn c ho] at hmo; cases hmo
  have hmem : c ∈ s.work.chansOf m := mem_of_moverOf hown
  have hstop : s.work.anyCh m Machine.Channel.stoppable = true := by
    refine List.any_eq_true.mpr ⟨c, hmem, ?_⟩
    have hk := driving_iff_kind.mp hdrive
    exact (stoppable_iff_kind (by rw [hk]; nofun)).mpr (by rw [hk]; trivial)
  obtain ⟨_, ⟨_, hclaim, _, _⟩, _, hallowed⟩ := hm m
  obtain ⟨hfence, hmask⟩ := hallowed (.inl hstop)
  refine ⟨hdrive, ?_, by rw [hst]; nofun, m, hown, hclaim hstop, hmask⟩
  exact Bool.eq_false_iff.mpr (List.any_eq_false.mp hfence c hmem)

end Sys2Proof.Machine
end

