-- ==== Sys2Proof/Proofs/DriveAlike.lean ====
section
/-! PROOF. The operations on channels, movers and store of which the laws of drive and budget see nothing, in the order of the
model. -/

namespace Sys2Proof.Machine

set_option Elab.async false

open Sys2Proof.Safety

variable {l : List ChanId}

/-! ## Channels and movers -/

theorem ease_of {x y : Machine.Channel} (hd : x.driving = true → y.driving = true) (hu : x.duty = 0 → y.duty = 0)
    (hb : y.bridge = x.bridge := by rfl) (h : atEase x) : atEase y := by
  rcases h with h | ⟨h, hx⟩
  · exact .inl (hd h)
  · exact .inr ⟨hu h, by rw [hb]; exact hx⟩

theorem driving_of_kind {x y : Machine.Channel} (h : y.kind = x.kind) (hx : x.driving = true) : y.driving = true := by
  rw [driving_iff_kind] at hx ⊢
  rw [h, hx]

/-- A channel that keeps state, kind of phase, fence, duty and bridge. -/
theorem Work.setCh_alike (w : Work) (c : ChanId) {x : Machine.Channel} (hs : x.state = (w.ch c).state := by rfl)
    (hm : x.motion.map (·.phase.kind) = (w.ch c).motion.map (·.phase.kind) := by rfl)
    (hf : x.fenced = (w.ch c).fenced := by rfl) (hu : (w.ch c).duty = 0 → x.duty = 0 := by exact id)
    (hb : x.bridge = (w.ch c).bridge := by rfl) : Alike w (w.setCh c x) :=
  have hk : x.kind = (w.ch c).kind := kind_eq hs hm
  .of_setCh w c hk hf (ease_of (driving_of_kind hk) hu hb)

theorem Work.setMv_alike (w : Work) (m : MoverId) {x : Mover} (hx : x.core = (w.mv m).core := by rfl)
    (hw : x.wiring = (w.mv m).wiring := by rfl) : Alike w (w.setMv m x) := .of_setMv w m hx hw

theorem Work.emit_alike (w : Work) (e : Event) : Alike w (w.emit e) := .of_eq

theorem Work.notBefore_alike (w : Work) (t : Time) : Alike w (w.notBefore t) := .of_eq

theorem setStore_alike (w : Work) {st : Store} (hp : st.working = w.store.working) (hc : st.coach = w.store.coach) :
    Alike w { w with store := st } :=
  .of_eq (hp := hp) (hs := by simp only [Work.base, hc])

theorem Work.serveNext_alike (w : Work) : Alike w w.serveNext := by
  simp only [Work.serveNext]
  split
  · exact setStore_alike w rfl rfl
  · exact .refl w

theorem Alike.serveNext {w z : Work} (h : Alike w z) : Alike w z.serveNext := h.trans z.serveNext_alike

theorem Work.askCheckpoint_alike (w : Work) (c : ChanId) (b : Bool) : Alike w (w.askCheckpoint c b) := by
  simp only [Work.askCheckpoint]
  exact Alike.serveNext (setStore_alike w rfl rfl)

theorem Work.askLearned_alike (w : Work) : Alike w w.askLearned := by
  simp only [Work.askLearned]
  split
  · exact .refl w
  · exact Alike.serveNext (setStore_alike w rfl rfl)

theorem Work.setLearned_alike (w : Work) (c : ChanId) (s : Option Nat) : Alike w (w.setLearned c s) := setStore_alike w rfl rfl

theorem Work.clampPos_alike (w : Work) (c : ChanId) : Alike w (w.clampPos c) := w.setCh_alike c

theorem Work.clampMover_alike (w : Work) (m : MoverId) : Alike w (w.clampMover m) := foldl_alike _ Work.clampPos_alike w

theorem Work.clampAll_alike (w : Work) : Alike w w.clampAll := foldl_alike _ Work.clampPos_alike w

theorem Work.forgetPosition_alike (w : Work) (m : MoverId) : Alike w (w.forgetPosition m) :=
  foldl_alike _ (fun w c => w.setCh_alike c) w

theorem Work.beginLearn_alike (w : Work) (m : MoverId) {l : LearnRun} (h : (w.mv m).learn = some l) : Alike w (w.beginLearn m l) := by
  simp only [Work.beginLearn]
  have hw : Alike w (w.setMv m { w.mv m with learn := some { l with held := some (heldStroke (w.nominal m)) } }) :=
    w.setMv_alike m (by simp only [Mover.core, h, Option.map_some])
  split
  · exact (hw.trans (Work.clampMover_alike _ m)).trans (Work.forgetPosition_alike _ m)
  · exact hw.trans (Work.clampMover_alike _ m)

/-- A state other than MOVING and RETRY_WAIT says nothing of the kind. -/
theorem kind_of_state {x y : Machine.Channel} (hm : y.motion = x.motion) (hx : x.state ≠ .moving ∧ x.state ≠ .retryWait)
    (hy : y.state ≠ .moving ∧ y.state ≠ .retryWait) : y.kind = x.kind := by
  cases h : x.motion with
  | none => rw [kind_of_none h, kind_of_none (hm.trans h)]; simp [hx, hy]
  | some mo => rw [kind_of_some h, kind_of_some (hm.trans h)]; simp [hx, hy]

theorem setState_alike (w : Work) (c : ChanId) {s t : ChanState} (hs : (w.ch c).state = s) (h₁ : s ≠ .moving ∧ s ≠ .retryWait)
    (h₂ : t ≠ .moving ∧ t ≠ .retryWait) : Alike w (w.setCh c { w.ch c with state := t }) :=
  have hk := kind_of_state (x := w.ch c) (y := { w.ch c with state := t }) rfl (by rw [hs]; exact h₁) h₂
  .of_setCh w c hk rfl (ease_of (driving_of_kind hk) id)

/-- The channels of a mover follow the admission queue without a change of kind. -/
theorem setQueued_chan_alike (w : Work) (c : ChanId) (q : Bool) : Alike w
    (if q then (if (w.ch c).state = .idle then w.setCh c { w.ch c with state := .queued } else w)
     else (if (w.ch c).state = .queued then w.setCh c { w.ch c with state := .idle } else w)) := by
  split
  · exact .ite (fun h => setState_alike w c h (by decide) (by decide)) fun _ => .refl w
  · exact .ite (fun h => setState_alike w c h (by decide) (by decide)) fun _ => .refl w

theorem Work.setQueued_alike (w : Work) (m : MoverId) (q : Bool) : Alike w (w.setQueued m q) :=
  foldl_alike _ (fun w c => setQueued_chan_alike w c q) w

/-! ## Claims, runs and locks -/

theorem Work.noteCause_alike (w : Work) (m : MoverId) (c : Cause) : Alike w (w.noteCause m c) := by
  simp only [Work.noteCause]
  split
  · exact .refl w
  · next r hr =>
    exact .ite (fun _ => .refl w) fun _ => w.setMv_alike m (by simp only [Mover.core, hr, Option.isSome_some])

theorem Work.recordEnd_alike (w : Work) (c : ChanId) (x : Option Int) : Alike w (w.recordEnd c x) := by
  simp only [Work.recordEnd]
  split
  · exact .refl w
  · next m _ =>
    split
    · next r hr => exact .ite (fun _ => w.setMv_alike m (by simp only [Mover.core, hr, Option.isSome_some])) fun _ => .refl w
    · exact .refl w

theorem Work.noteLock_alike (w : Work) (c : ChanId) (k : LockKind) (a : Policy) (n : Nat) : Alike w (w.noteLock c k a n) :=
  (w.setCh_alike c).trans (Work.emit_alike _ _)

theorem Work.receiveLock_alike (w : Work) (m : MoverId) (c : ChanId) (a : Policy) : Alike w (w.receiveLock m c a) := by
  simp only [Work.receiveLock]
  split
  · next r hr => exact .ite (fun _ => w.setMv_alike m (by simp only [Mover.core, hr, Option.isSome_some])) fun _ => .refl w
  · exact .refl w

theorem Work.losePosition_alike (w : Work) (c : ChanId) : Alike w (w.losePosition c) :=
  (w.setCh_alike c).trans (Work.askCheckpoint_alike _ _ _)

theorem Work.makeHoming_alike (w : Work) (m : MoverId) : Alike w (w.makeHoming m) := by
  simp only [Work.makeHoming]
  refine Over.trans (z := if (w.mv m).paired = true then w.setMv m { w.mv m with sync := .homing } else w)
    (.ite (fun _ => w.setMv_alike m) fun _ => .refl w) (foldl_alike _ (fun w c => w.setCh_alike c (x := (w.ch c).toHoming) rfl ?_) _)
  simp only [Channel.toHoming, Option.map_map]; rfl

theorem Work.cutDuty_alike (w : Work) (c : ChanId) (n : Nat) : Alike w (w.setCh c ((w.ch c).cutDuty n)) := by
  simp only [Channel.cutDuty]
  split
  · exact w.setCh_alike c rfl (by simp only [Option.map_map]; rfl) rfl fun h => by simp [h]
  · exact w.setCh_alike c

theorem Work.turnHoming_alike (w : Work) (m : MoverId) : Alike w (w.turnHoming m) :=
  (w.makeHoming_alike m).trans (foldl_alike _ (fun w c => w.cutDuty_alike c _) _)

theorem Work.countChan_alike (w : Work) (c : ChanId) : Alike w (w.countChan c) :=
  w.setCh_alike c rfl (by simp only [Option.map_map]; rfl)

theorem Work.measure_alike (w : Work) (m : MoverId) (c : ChanId) : Alike w (w.measure m c) := by
  simp only [Work.measure]
  split
  · exact .refl w
  · next l hl =>
    exact .ite (fun _ => w.setMv_alike m (by simp only [Mover.core, hl, Option.map_some]))
      fun _ => w.setMv_alike m (by simp only [Mover.core, hl, Option.map_some])

theorem Work.markDwell_alike (w : Work) (m : MoverId) : Alike w (w.markDwell m) :=
  w.setMv_alike m (by simp only [Mover.core, Option.isSome_map])

theorem setSwitch_core (x : Mover) (d : Dir) (s : Switch) : (x.setSwitch d s).core = x.core := by
  cases d <;> rfl

theorem setSwitch_wiring (x : Mover) (d : Dir) (s : Switch) : (x.setSwitch d s).wiring = x.wiring := by
  cases d <;> rfl

theorem Work.setSwitch_alike (w : Work) (m : MoverId) (d : Dir) (s : Switch) : Alike w (w.setMv m ((w.mv m).setSwitch d s)) :=
  w.setMv_alike m (setSwitch_core _ _ _) (setSwitch_wiring _ _ _)

theorem Work.spend_alike (w : Work) (m : MoverId) (d : Dir) : Alike w (w.spend m d) := w.setSwitch_alike m d _

theorem filter_map_target {f : Queued → Queued} (hf : ∀ q, (f q).target = q.target) (l : List Queued) (t : Fin 6) :
    ((l.map f).filter fun q => q.target == t).length = (l.filter fun q => q.target == t).length := by
  simp [List.filter_map, Function.comp_def, hf]

/-- Entries of the queue that change, but not in their targets. -/
theorem setQueue_alike (w : Work) {f : Queued → Queued} (hf : ∀ q, (f q).target = q.target) :
    Alike w { w with bud := { w.bud with queue := w.bud.queue.map f } } where
  core _ := rfl
  wiring _ := rfl
  kinds _ _ := rfl
  fences _ := rfl
  ease _ h := h
  waits t := filter_map_target hf w.bud.queue t
  draws _ := rfl
  within := id
  inh := rfl
  wet := wet_eq rfl rfl rfl (Budget.waits_map w.bud hf) rfl
  base := rfl

theorem Work.renew_alike (w : Work) (m : MoverId) : Alike w (w.renew m) := by
  simp only [Work.renew]
  refine Over.trans (z := w.setMv m { w.mv m with claim := (w.mv m).claim.map fun c =>
    { c with lease := some (w.now + w.holdWindow) } }) (w.setMv_alike m ?_) (setQueue_alike _ fun q => ?_)
  · simp only [Mover.core, Option.map_map]; rfl
  · split <;> rfl

theorem stepDuty_zero (x : Machine.Channel) (hx : atEase x) (hd : x.driving = false) : x.duty = 0 :=
  (hx.resolve_left (by simp [hd])).1

/-- An update leaves the kind (R10). -/
theorem update_kind (x : Machine.Channel) (p : DutyLine) (n : Nat) (t r : Time) : (x.update p n t r).kind = x.kind := by
  have hp : p.phase.kind = .driving := by cases p <;> rfl
  cases hm : x.motion with
  | none => simp only [Channel.update, hm]
  | some mo =>
    simp only [Channel.update, hm]
    split
    · next hd =>
      have hk := driving_iff_kind.mp hd
      have hs := (motion_of_driving hd).2
      have hph : mo.phase.kind = .driving := by rw [kind_of_some hm, if_pos hs] at hk; exact hk
      split
      · refine kind_eq rfl ?_
        simp only [hm, Option.map_some]
        split
        · rw [hph, ← hp]
        · rfl
      · refine kind_eq rfl ?_
        simp only [hm, Option.map_some]
        rw [hph, ← hp]
    · rfl

theorem update_keeps (x : Machine.Channel) (p : DutyLine) (n : Nat) (t r : Time) :
    (x.update p n t r).fenced = x.fenced ∧ (atEase x → atEase (x.update p n t r)) := by
  have hk := update_kind x p n t r
  refine ⟨?_, fun he => ?_⟩
  · simp only [Channel.update]; repeat' split <;> try rfl
  · rcases he with he | he
    · exact .inl (driving_of_kind hk he)
    · by_cases hd : x.driving = true
      · exact .inl (driving_of_kind hk hd)
      · have : x.update p n t r = x := by
          simp only [Channel.update]
          split
          · rfl
          · rw [if_neg hd]
        rw [this]; exact .inr he

theorem Work.updateMover_alike (w : Work) (m : MoverId) (mo : Motion) : Alike w (w.updateMover m mo) := by
  simp only [Work.updateMover]
  exact (w.setMv_alike m).trans (foldl_alike _ (fun w c =>
    .of_setCh w c (update_kind ..) (update_keeps ..).1 (update_keeps ..).2) _)

theorem Work.dutyUpdate_alike (w : Work) (c : ChanId) : Alike w (w.dutyUpdate c) := by
  simp only [Work.dutyUpdate]
  split
  · exact .refl w
  · split
    · exact .refl w
    · refine .ite (fun _ => ?_) fun _ => .refl w
      exact ((w.notBefore_alike _).trans (Work.setCh_alike _ _)).trans (Work.updateMover_alike _ _ _)

end Sys2Proof.Machine
end

