-- ==== Sys2Proof/Proofs/DriveBudget.lean ====
section
/-! PROOF. What claims, hand-overs and the entries of the budget make of the view of their mover, and what they leave of the
others. -/

namespace Sys2Proof.Machine

set_option Elab.async false

open Sys2Proof.Safety

variable {m : MoverId}

/-! ## Claims and learning runs (R38, R57) -/

theorem claimEnded_core (x : Mover) : (claimEnded x).core = { x.core with claim := none } ∧ (claimEnded x).wiring = x.wiring := by
  obtain ⟨a, b, h⟩ := claimEnded_form x
  rw [h]; exact ⟨rfl, rfl⟩

theorem Work.endClaim_touch (w : Work) (m : MoverId) : Touch m w (w.endClaim m) := by
  rw [Work.endClaim_eq]; exact .of_setMv w (claimEnded_core _).2

theorem Work.endClaim_view (w : Work) (m : MoverId) : (w.endClaim m).view m = { w.view m with claim := none } := by
  rw [Work.endClaim_eq, view_setMv w (claimEnded_core _).2, (claimEnded_core _).1]; rfl

theorem Work.abortLearn_touch (w : Work) (m : MoverId) : Touch m w (w.abortLearn m) := by
  simp only [Work.abortLearn]
  split
  · exact .refl w
  · refine Touch.trans (z := w.setMv m { w.mv m with learn := none }) (.of_setMv w rfl) ?_
    exact (Work.emit_alike _ _).touch.trans (Work.clampMover_alike _ _).touch

theorem Work.abortLearn_view (w : Work) (m : MoverId) : (w.abortLearn m).view m = { w.view m with learn := none } := by
  simp only [Work.abortLearn]
  split
  · next h => simp only [Work.view, Mover.core, h]; rfl
  · rw [Alike.view (Work.clampMover_alike _ m), Alike.view (Work.emit_alike _ _), view_setMv w (x := { w.mv m with learn := none }) rfl]
    rfl

theorem Work.endWork_touch (w : Work) (m : MoverId) : Touch m w (w.endWork m) :=
  (w.abortLearn_touch m).trans (Work.endClaim_touch _ m)

theorem Work.endWork_view (w : Work) (m : MoverId) : (w.endWork m).view m = { w.view m with claim := none, learn := none } := by
  rw [Work.endWork, Work.endClaim_view, Work.abortLearn_view]

/-! ## Hand-over (R4) -/

theorem handOver_chan (x : Machine.Channel) (mo : Motion) (top : Int) (h : mo.phase = .starting) :
    (x.handOver mo top).kind = .starting ∧ (x.handOver mo top).fenced = x.fenced ∧ atEase (x.handOver mo top) := by
  refine ⟨?_, rfl, .inr ⟨rfl, .inl rfl⟩⟩
  rw [kind_of_some (mo := { mo with lastPulse := x.lastEdge }) rfl]
  simp [Channel.handOver, h, Phase.kind]

theorem Work.handChan_over (w : Work) (mo : ChanId → Motion) (h : ∀ c, (mo c).phase = .starting) (c : ChanId) :
    Over [c] w (w.handChan mo c) := by
  obtain ⟨_, hf, he⟩ := handOver_chan (w.ch c) (mo c) (w.upperLimit c) (h c)
  exact (Over.of_setCh w c hf fun _ => he).trans (Alike.over (Work.askCheckpoint_alike _ _ _))

theorem Work.handChan_kind (w : Work) (mo : ChanId → Motion) (h : ∀ c, (mo c).phase = .starting) (c : ChanId) :
    ((w.handChan mo c).ch c).kind = .starting := by
  rw [Work.handChan_self]; exact (handOver_chan _ _ _ (h c)).1

theorem Work.handMover_touch (w : Work) (m : MoverId) (d : Dir) : Touch m w (w.handMover m d) :=
  Touch.trans (z := { w with serial := w.serial + 1 }) (Alike.touch .of_eq) (.of_setMv _ rfl)

theorem handed_phase (x : Mover) (n : Nat) (m : MoverId) (s : Source) (d : Dir) (p : MotionProfile) (c : ChanId) :
    (handed x n m s d p c).phase = .starting := rfl

theorem Work.handOver_over (w : Work) (m : MoverId) (s : Source) (d : Dir) (p : MotionProfile) :
    Over (w.chansOf m) (w.handMover m d) (w.handOver m s d p) := by
  rw [Work.handOver_eq]
  exact foldl_over _ (fun w c => w.handChan_over _ (handed_phase _ _ _ _ _ _) c) _

theorem Work.handMover_chansOf (w : Work) (m : MoverId) (d : Dir) : (w.handMover m d).chansOf m = w.chansOf m :=
  (w.handMover_touch m d).chansOf m

theorem Work.handOver_touch (w : Work) (m : MoverId) (s : Source) (d : Dir) (p : MotionProfile) : Touch m w (w.handOver m s d p) :=
  (w.handMover_touch m d).trans ((w.handOver_over m s d p).touch fun c hc => by rw [Work.handMover_chansOf]; exact hc)

/-- Every channel of a fold takes a motion in STARTING. -/
theorem foldl_handChan (mo : ChanId → Motion) (h : ∀ c, (mo c).phase = .starting) (l : List ChanId) (w : Work) :
    ∀ c ∈ l, ((l.foldl (Work.handChan mo) w).ch c).kind = .starting := by
  induction l generalizing w with
  | nil => exact fun c hc => nomatch hc
  | cons a l ih =>
    intro c hc
    rw [List.foldl_cons]
    by_cases hm : c ∈ l
    · exact ih _ c hm
    · have e : c = a := by simpa [hm] using hc
      rw [(foldl_over l (fun w c => w.handChan_over mo h c) _).kinds c hm, e, Work.handChan_kind w mo h]

theorem Work.handOver_view (w : Work) (m : MoverId) (s : Source) (d : Dir) (p : MotionProfile) : (w.handOver m s d p).view m =
    { w.view m with run := true, dwell := false, kinds := (w.view m).kinds.map fun _ => .starting } := by
  have hv : (w.handMover m d).view m = { w.view m with run := true, dwell := false } := by
    rw [Work.handMover, view_setMv _ (by rfl)]; rfl
  rw [(w.handOver_over m s d p).view_map (g := fun _ => .starting) ?_, hv]
  intro c hc
  rw [Work.handMover_chansOf] at hc
  rw [Work.handOver_eq]
  exact foldl_handChan _ (handed_phase _ _ _ _ _ _) _ _ c hc

/-! ## Entries of the budget (R142..R146) -/

theorem filter_ne_length {γ : Type} (l : List γ) (f : γ → Fin 6) {t u : Fin 6} (h : u ≠ t) :
    ((l.filter fun a => f a != t).filter fun a => f a == u).length = (l.filter fun a => f a == u).length := by
  rw [filter_ne_filter_eq l f (by simpa using h.symm)]

theorem filter_ne_self {γ : Type} (l : List γ) (f : γ → Fin 6) (t : Fin 6) :
    ((l.filter fun a => f a != t).filter fun a => f a == t).length = 0 := by
  rw [List.filter_filter, List.length_eq_zero_iff, List.filter_eq_nil_iff]
  intro a _
  simp

theorem sum_filter_le (l : List Admitted) (p : Admitted → Bool) : ((l.filter p).map (·.draw)).sum ≤ (l.map (·.draw)).sum := by
  induction l with
  | nil => exact Nat.le_refl _
  | cons a l ih =>
    rw [List.filter_cons]
    split
    · simpa using ih
    · simp only [List.map_cons, List.sum_cons]; omega

theorem Work.release_touch (w : Work) (m : MoverId) : Touch m w (w.release (moverTarget m)) where
  core _ _ := rfl
  wiring _ := rfl
  kinds _ _ := rfl
  fences _ _ := rfl
  ease _ h := h
  waits _ _ := rfl
  draws _ ht := filter_ne_length w.bud.admitted (·.target) ht
  within h := Nat.le_trans (sum_filter_le w.bud.admitted _) h
  inh := rfl
  wet := w.release_wet m
  base := rfl

theorem Work.release_view (w : Work) (m : MoverId) : (w.release (moverTarget m)).view m = { w.view m with draws := 0 } := by
  have h : (w.release (moverTarget m)).drawsOf (moverTarget m) = 0 := filter_ne_self w.bud.admitted (·.target) _
  simp only [Work.view, h]; rfl

theorem Work.dequeue_touch (w : Work) (m : MoverId) : Touch m w (w.dequeue (moverTarget m)) where
  core _ _ := rfl
  wiring _ := rfl
  kinds _ _ := rfl
  fences _ _ := rfl
  ease _ h := h
  waits _ ht := filter_ne_length w.bud.queue (·.target) ht
  draws _ _ := rfl
  within := id
  inh := rfl
  wet := w.dequeue_wet m
  base := rfl

theorem Work.dequeue_view (w : Work) (m : MoverId) : (w.dequeue (moverTarget m)).view m = { w.view m with waits := 0 } := by
  have h : (w.dequeue (moverTarget m)).waitsOf (moverTarget m) = 0 := filter_ne_self w.bud.queue (·.target) _
  simp only [Work.view, h]; rfl

theorem admitted_drawsOf (w : Work) (t u : Fin 6) (n : Nat) : (admitted w t n).drawsOf u = w.drawsOf u + if t = u then 1 else 0 := by
  simp only [Work.drawsOf, admitted, List.filter_append, List.length_append]
  by_cases h : t = u <;> simp [h]

theorem admitted_within {w : Work} {n : Nat} (hf : w.fits n = true) (t : Fin 6) : Within (admitted w t n) := by
  have h : n + w.bud.sum ≤ w.budget := by simpa [Work.fits] using hf
  have hs : (admitted w t n).bud.sum = w.bud.sum + n := by simp [Budget.sum, admitted]
  show (admitted w t n).bud.sum ≤ w.budget
  omega

/-- A draw that fits joins the admitted list. -/
theorem admitted_touch {w : Work} {n : Nat} (hf : w.fits n = true) (m : MoverId) : Touch m w (admitted w (moverTarget m) n) where
  core _ _ := rfl
  wiring _ := rfl
  kinds _ _ := rfl
  fences _ _ := rfl
  ease _ h := h
  waits _ _ := rfl
  draws t ht := by rw [admitted_drawsOf, if_neg ht.symm]; rfl
  within _ := admitted_within hf _
  inh := rfl
  wet := wet_eq rfl rfl rfl rfl (Budget.draws_enlist w.bud m n w.now)
  base := rfl

theorem admitted_view (w : Work) (m : MoverId) (n : Nat) :
    (admitted w (moverTarget m) n).view m = { w.view m with draws := (w.view m).draws + 1 } := by
  have h : (admitted w (moverTarget m) n).drawsOf (moverTarget m) = w.drawsOf (moverTarget m) + 1 := by
    rw [admitted_drawsOf, if_pos rfl]
  simp only [Work.view, h]; rfl

/-- A new queue in which the entries of one mover differ from the old ones. -/
def Work.withQueue (w : Work) (q : List Queued) : Work := { w with bud := { w.bud with queue := q } }

theorem Work.withQueue_touch {w : Work} {l : List Queued} (h : ∀ t, t ≠ moverTarget m →
    (l.filter fun q => q.target == t) = w.bud.queue.filter fun q => q.target == t) : Touch m w (w.withQueue l) where
  core _ _ := rfl
  wiring _ := rfl
  kinds _ _ := rfl
  fences _ _ := rfl
  ease _ h := h
  waits t ht := congrArg List.length (h t ht)
  draws _ _ := rfl
  within := id
  inh := rfl
  wet := wet_eq rfl rfl rfl (congrArg List.length (h hydTarget moverTarget_ne.symm)) rfl
  base := rfl

theorem Work.withQueue_view (w : Work) (m : MoverId) (l : List Queued) :
    (w.withQueue l).view m = { w.view m with waits := (l.filter fun q => q.target == moverTarget m).length } := rfl

theorem filter_entry_ne {q : Queued} (hq : q.target = moverTarget m) {t : Fin 6} (ht : t ≠ moverTarget m) :
    (q.target == t) = false := by
  rw [hq]; simpa using ht.symm

/-- An entry joins the end of the queue. -/
theorem queued_touch (w : Work) {q : Queued} (hq : q.target = moverTarget m) : Touch m w (queued w q) :=
  Work.withQueue_touch fun t ht => by simp [List.filter_append, filter_entry_ne hq ht]

theorem queued_view (w : Work) {q : Queued} (hq : q.target = moverTarget m) :
    (queued w q).view m = { w.view m with waits := (w.view m).waits + 1 } := by
  have : queued w q = w.withQueue (w.bud.queue ++ [q]) := rfl
  rw [this, Work.withQueue_view, List.filter_append, List.length_append]
  simp [hq]; rfl

/-- An entry goes to the head of the queue (R145). -/
theorem Work.queueHead_touch (w : Work) {q : Queued} (hq : q.target = moverTarget m) : Touch m w (w.queueHead q) :=
  Work.withQueue_touch (l := q :: w.bud.queue) fun t ht => by simp [filter_entry_ne hq ht]

theorem Work.queueHead_view (w : Work) {q : Queued} (hq : q.target = moverTarget m) :
    (w.queueHead q).view m = { w.view m with waits := (w.view m).waits + 1 } := by
  have : w.queueHead q = w.withQueue (q :: w.bud.queue) := rfl
  rw [this, Work.withQueue_view, List.filter_cons_of_pos (by simp [hq])]
  rfl

end Sys2Proof.Machine
end

