-- ==== Sys2Proof/Proofs/DriveAdmission.lean ====
section
/-! PROOF. Presentation and admission of the motions of a mover keep its law (R33, R127, R144, R145). -/

namespace Sys2Proof.Machine

set_option Elab.async false

open Sys2Proof.Safety

variable {β : Prop} {m : MoverId} {w : Work}

/-! ## Admission -/

/-- A view with a motion in STARTING. -/
def View.handed (v : View) : View := { v with run := true, dwell := false, kinds := v.kinds.map fun _ => .starting }

theorem Work.admitMover_of_none (h : (w.mv m).claim = none) : w.admitMover m = w := by
  simp only [Work.admitMover, h]

theorem Work.admitMover_touch (w : Work) (m : MoverId) : Touch m w (w.admitMover m) := by
  simp only [Work.admitMover]
  split
  · exact .refl w
  · split
    · next l hl => exact (Work.beginLearn_alike w m hl).touch.trans (Work.handOver_touch _ _ _ _ _)
    · exact Work.handOver_touch _ _ _ _ _

theorem Work.admitMover_view {c : Claim} (h : (w.mv m).claim = some c) : (w.admitMover m).view m = (w.view m).handed := by
  simp only [Work.admitMover, h]
  split
  · next l hl => rw [Work.handOver_view, Alike.view (Work.beginLearn_alike w m hl)]; rfl
  · rw [Work.handOver_view]; rfl

/-! ## Presentation (R144) -/

theorem Work.presentEntry_cases (w : Work) {q : Queued} (hq : q.target = moverTarget m) :
    (w.fits q.draw = true ∧ w.presentEntry q = (admitted w (moverTarget m) q.draw, .accepted)) ∨
      w.presentEntry q = (queued w q, .queued) ∨ w.presentEntry q = (w, .queueFull) := by
  simp only [Work.presentEntry]
  split
  · next h => exact .inl ⟨(Bool.and_eq_true_iff.mp h).2, by rw [hq]; rfl⟩
  · split
    · exact .inr (.inl rfl)
    · exact .inr (.inr rfl)

/-- The mover with a claim and, perhaps, a learning run. -/
def Work.withClaim (w : Work) (m : MoverId) (c : Claim) (l : Option LearnRun) : Work :=
  w.setMv m { w.mv m with claim := some c, learn := l }

/-- The view with a claim and, perhaps, a learning run. -/
def View.withClaim (v : View) (c : Claim) (l : Option LearnRun) : View :=
  { v with claim := some c.gist, learn := l.map fun l => (l.method, l.leg) }

theorem Work.withClaim_touch (w : Work) (m : MoverId) (c : Claim) (l : Option LearnRun) : Touch m w (w.withClaim m c l) :=
  .of_setMv w rfl

theorem Work.withClaim_view (w : Work) (m : MoverId) (c : Claim) (l : Option LearnRun) :
    (w.withClaim m c l).view m = (w.view m).withClaim c l := by
  rw [Work.withClaim, view_setMv w (by rfl)]; rfl

theorem Work.presentClaim_cases (w : Work) (m : MoverId) (c : Claim) (l : Option LearnRun) :
    (∃ n, (w.withClaim m c l).fits n = true ∧ (w.presentClaim m c l).1 = (admitted (w.withClaim m c l) (moverTarget m) n).admitMover m) ∨
      (∃ q, q.target = moverTarget m ∧ (w.presentClaim m c l).1 =
        (queued (w.withClaim m c l) q).setQueued m true) ∨
      (w.presentClaim m c l).1 = w := by
  have hdef : w.presentClaim m c l = match (w.withClaim m c l).presentEntry ((w.withClaim m c l).moverEntry m c) with
      | (w2, .accepted) => (w2.admitMover m, replyAccepted)
      | (w2, .queued) => (w2.setQueued m true, replyQueued)
      | _ => (w, replyQueueFull) := rfl
  rw [hdef]
  have hq : ((w.withClaim m c l).moverEntry m c).target = moverTarget m := rfl
  rcases (w.withClaim m c l).presentEntry_cases hq with ⟨hf, h⟩ | h | h
  · rw [h]; exact .inl ⟨_, hf, rfl⟩
  · rw [h]; exact .inr (.inl ⟨_, hq, rfl⟩)
  · rw [h]; exact .inr (.inr rfl)

theorem Work.presentClaim_touch (w : Work) (m : MoverId) (c : Claim) (l : Option LearnRun) :
    Touch m w (w.presentClaim m c l).1 := by
  have hc := w.withClaim_touch m c l
  rcases w.presentClaim_cases m c l with ⟨n, hf, h⟩ | ⟨q, hq, h⟩ | h
  · rw [h]; exact (hc.trans (admitted_touch hf m)).trans (Work.admitMover_touch _ m)
  · rw [h]; exact (hc.trans (queued_touch _ hq)).trans (Work.setQueued_alike _ m true).touch
  · rw [h]; exact .refl w

theorem withClaim_mv (w : Work) (m : MoverId) (c : Claim) (l : Option LearnRun) (n : Nat) :
    ((admitted (w.withClaim m c l) (moverTarget m) n).mv m).claim = some c := by
  have : (admitted (w.withClaim m c l) (moverTarget m) n).mv m = (w.withClaim m c l).mv m := rfl
  rw [this, Work.withClaim, Work.mv_setMv_self]

/-- What the checks of a claim leave to be admitted. -/
structure Claimable (β : Prop) (m : MoverId) (v : View) (c : Claim) (l : Option LearnRun) : Prop where
  parked : Parked β v
  dwell : v.dwell = false
  learns : (v.withClaim c l).LearnsWell m
  free : (v.withClaim c l).Free m

/-- An accepted, queued or refused claim leaves the law of its mover. -/
theorem Work.presentClaim_lawful {c : Claim} {l : Option LearnRun} (h : Lawful β m (w.view m))
    (hc : Claimable β m (w.view m) c l) : Lawful β m ((w.presentClaim m c l).1.view m) := by
  obtain ⟨hp, hd, hl, hf⟩ := hc
  rcases w.presentClaim_cases m c l with ⟨n, _, he⟩ | ⟨q, hq, he⟩ | he
  · rw [he, Work.admitMover_view (withClaim_mv w m c l n), admitted_view, Work.withClaim_view]
    refine lawful_handed hp.waits rfl hl hf fun b => ?_
    show (w.view m).draws + 1 = 1
    rw [(hp.books b).2]
  · rw [he, Alike.view (Work.setQueued_alike _ m true), queued_view _ hq, Work.withClaim_view]
    exact lawful_queued (v := (w.view m).withClaim c l) ⟨hp.rests, hp.waits, hp.books⟩ hd rfl hl hf
  · rw [he]; exact h

/-! ## Automatic retracts (R127, R130, R145) -/

theorem Work.dropRetract_touch (w : Work) (c : Cause) : Touch awn w (w.dropRetract c) := by
  simp only [Work.dropRetract]
  split
  · exact .refl w
  · exact Touch.trans (z := w.setMv awn { w.mv awn with pendRetract := none, dwellEnd := none }) (.of_setMv w rfl)
      (Work.emit_alike _ _).touch

theorem Work.dropRetract_view (w : Work) (c : Cause) :
    (w.dropRetract c).view awn = w.view awn ∨ (w.dropRetract c).view awn = { w.view awn with dwell := false } := by
  simp only [Work.dropRetract]
  split
  · exact .inl rfl
  · right
    rw [Alike.view (Work.emit_alike _ _), view_setMv w (x := { w.mv awn with pendRetract := none, dwellEnd := none }) rfl]
    rfl

theorem Work.dropRetract_lawful (h : Lawful β awn (w.view awn)) (c : Cause) : Lawful β awn ((w.dropRetract c).view awn) := by
  rcases w.dropRetract_view c with e | e <;> rw [e]
  · exact h
  · exact h.undwell

/-- The awning with a retract pending. -/
def Work.pending (w : Work) (p : Purpose) : Work := w.setMv awn { w.mv awn with pendRetract := some p }

theorem Work.pending_alike (w : Work) (p : Purpose) : Alike w (w.pending p) := w.setMv_alike awn

theorem Work.retracting_touch (w : Work) (p : Purpose) : Touch awn w (w.retracting p) := .of_setMv w rfl

theorem Work.retracting_view (w : Work) (p : Purpose) : (w.retracting p).view awn =
    { w.view awn with claim := some (retractClaim p).gist, dwell := false } := by
  rw [Work.retracting, view_setMv w (by rfl)]
  rfl

theorem Work.presentRetract_touch (w : Work) (p : Purpose) : Touch awn w (w.presentRetract p) := by
  have hdrop (c : Cause) : Touch awn w ((w.pending p).dropRetract c) :=
    (w.pending_alike p).touch.trans (Work.dropRetract_touch _ _)
  have hc := w.retracting_touch p
  cases hs : w.stowed with
  | true => rw [Work.presentRetract_of_stowed hs]; exact .of_setMv w rfl
  | false =>
    rw [Work.presentRetract_eq hs]
    refine .ite (fun _ => hdrop _) fun _ => .ite (fun _ => hdrop _) fun _ => .ite (fun _ => hdrop _) fun _ =>
      .ite (fun hf => ?_) fun _ => ?_
    · exact (hc.trans (admitted_touch hf awn)).trans (Work.admitMover_touch _ awn)
    · exact (hc.trans (Work.queueHead_touch _ rfl)).trans (Work.setQueued_alike _ awn true).touch

theorem retracting_admitted_claim (w : Work) (p : Purpose) (n : Nat) :
    ((admitted (w.retracting p) (moverTarget awn) n).mv awn).claim = some (retractClaim p) := by
  have : (admitted (w.retracting p) (moverTarget awn) n).mv awn = (w.retracting p).mv awn := rfl
  rw [this, Work.retracting, Work.mv_setMv_self]

/-- A retract presented at a parked awning leaves its law. -/
theorem Work.presentRetract_lawful (hp : Parked β (w.view awn)) (hl : (w.view awn).learn = none) (p : Purpose) :
    Lawful β awn ((w.presentRetract p).view awn) := by
  have hv : (w.pending p).view awn = w.view awn := Alike.view (w.pending_alike p) awn
  have hdrop (c : Cause) : Lawful β awn (((w.pending p).dropRetract c).view awn) := by
    refine Work.dropRetract_lawful ?_ c
    rw [hv]; exact hp.lawful hl
  cases hs : w.stowed with
  | true =>
    rw [Work.presentRetract_of_stowed hs, view_setMv w (by rfl)]
    exact Parked.lawful (v := { w.view awn with dwell := false }) (hp.dwell false) hl
  | false =>
    rw [Work.presentRetract_eq hs]
    split
    · exact hdrop _
    split
    · exact hdrop _
    split
    · exact hdrop _
    next hfence _ hmask =>
    have hf : ({ w.view awn with claim := some (retractClaim p).gist, dwell := false } : View).Free awn := by
      refine ⟨Bool.eq_false_iff.mpr hfence, ?_⟩
      simp only [View.mask, hl]
      have : w.inh &&& retractMask p = 0 := by simpa using hmask
      exact this
    split
    · rw [Work.admitMover_view (retracting_admitted_claim _ p _), admitted_view, Work.retracting_view]
      refine lawful_handed hp.waits rfl (learnsWell_none hl) hf fun b => ?_
      show (w.view awn).draws + 1 = 1
      rw [(hp.books b).2]
    · rw [Alike.view (Work.setQueued_alike _ awn true), Work.queueHead_view _ rfl, Work.retracting_view]
      exact lawful_queued (v := { w.view awn with claim := some (retractClaim p).gist, dwell := false })
        ⟨hp.rests, hp.waits, hp.books⟩ rfl rfl (learnsWell_none hl) hf

end Sys2Proof.Machine
end

