-- ==== Sys2Proof/Proofs/DriveEnds.lean ====
section
/-! PROOF. The end of a motion and the stops of a mover keep its law (R22, R38, R49, R56, R130, R148). -/

namespace Sys2Proof.Machine

set_option Elab.async false

open Sys2Proof.Safety

variable {β : Prop} {m : MoverId} {w : Work}

/-! ## The end of a motion (R49, R130) -/

theorem dwell_touch (w : Work) (m : MoverId) (t : Option Time) : Touch m w (w.setMv m { w.mv m with dwellEnd := t }) :=
  .of_setMv w rfl

theorem dwell_view (w : Work) (m : MoverId) (t : Option Time) :
    (w.setMv m { w.mv m with dwellEnd := t }).view m = { w.view m with dwell := t.isSome } := by
  rw [view_setMv w (by rfl)]; rfl

theorem Work.afterMotion_touch (w : Work) (m : MoverId) (r : Run) : Touch m w (w.afterMotion m r) := by
  simp only [Work.afterMotion]
  refine .ite (fun hm => ?_) fun _ => .ite (fun _ => dwell_touch w m _) fun _ => .refl w
  subst hm
  split
  · exact .ite (fun _ => dwell_touch w awn _) fun _ => w.presentRetract_touch _
  · exact dwell_touch w awn _
  · exact .refl w

/-- A room at most dwells after its motion. -/
theorem Work.afterMotion_room (w : Work) (hm : m ≠ awn) (r : Run) : ∃ b, (w.afterMotion m r).view m = { w.view m with dwell := b } := by
  simp only [Work.afterMotion, if_neg hm]
  split
  · exact ⟨_, dwell_view w m _⟩
  · exact ⟨_, rfl⟩

theorem Work.afterMotion_lawful (hp : Parked β (w.view m)) (hl : (w.view m).learn = none) (r : Run) :
    Lawful β m ((w.afterMotion m r).view m) := by
  have hd (t : Option Time) : Lawful β m ((w.setMv m { w.mv m with dwellEnd := t }).view m) := by
    rw [dwell_view]; exact (hp.dwell _).lawful hl
  by_cases hm : m = awn
  · subst hm
    simp only [Work.afterMotion, if_true]
    split
    · split
      · exact hd _
      · exact Work.presentRetract_lawful hp hl _
    · exact hd _
    · exact hp.lawful hl
  · obtain ⟨b, h⟩ := w.afterMotion_room hm r
    rw [h]; exact (hp.dwell b).lawful hl

/-- A mover whose motion has been closed, before what follows it. -/
def Work.closed (w : Work) (m : MoverId) (fin : Int × Option Int) (cause : Cause) : Work :=
  ((w.setMv m (motionEnded (w.mv m))).emit (.motionEnded m cause fin.1 fin.2)).release (moverTarget m)

theorem motionEnded_core (x : Mover) :
    (motionEnded x).core = { x.core with claim := none, run := false } ∧ (motionEnded x).wiring = x.wiring := by
  obtain ⟨hc, hw⟩ := claimEnded_core x
  exact ⟨congrArg (fun c : Core => { c with run := false }) hc, hw⟩

theorem Work.closed_touch (w : Work) (m : MoverId) (fin : Int × Option Int) (cause : Cause) : Touch m w (w.closed m fin cause) :=
  (Touch.trans (.of_setMv w (motionEnded_core _).2) (Work.emit_alike _ _).touch).trans (Work.release_touch _ m)

theorem Work.closed_view (w : Work) (m : MoverId) (fin : Int × Option Int) (cause : Cause) :
    (w.closed m fin cause).view m = { w.view m with claim := none, run := false, draws := 0 } := by
  rw [Work.closed, Work.release_view, Alike.view (Work.emit_alike _ _), view_setMv w (motionEnded_core _).2,
    (motionEnded_core _).1]
  rfl

theorem Work.closed_parked (hr : (w.view m).Rests) (hw : (w.view m).waits = 0) (fin : Int × Option Int) (cause : Cause) :
    Parked β ((w.closed m fin cause).view m) := by
  rw [Work.closed_view]
  exact ⟨hr, hw, fun _ => ⟨rfl, rfl⟩⟩

theorem Work.closeMotion_touch (w : Work) (m : MoverId) (r : Run) (cause : Cause) : Touch m w (w.closeMotion m r cause) := by
  rw [Work.closeMotion_eq]
  exact (w.closed_touch m (r.leaderEnd.getD (w.leaderPos m, none)) cause).trans (Work.afterMotion_touch _ m r)

theorem Work.closeMotion_lawful (hr : (w.view m).Rests) (hw : (w.view m).waits = 0) (hl : (w.view m).learn = none) (r : Run)
    (cause : Cause) : Lawful β m ((w.closeMotion m r cause).view m) := by
  rw [Work.closeMotion_eq]
  have hv := w.closed_view m (r.leaderEnd.getD (w.leaderPos m, none)) cause
  exact Work.afterMotion_lawful (Work.closed_parked hr hw _ cause) (by rw [hv]; exact hl) r

/-- The end of the last motion of a learning run leaves its room parked. -/
theorem Work.closeMotion_parked (hr : (w.view m).Rests) (hw : (w.view m).waits = 0) (hm : m ≠ awn) (r : Run)
    (cause : Cause) : Parked β ((w.closeMotion m r cause).view m) := by
  rw [Work.closeMotion_eq]
  obtain ⟨b, h⟩ := (w.closed m (r.leaderEnd.getD (w.leaderPos m, none)) cause).afterMotion_room hm r
  rw [Work.closed] at h
  rw [h]
  exact (Work.closed_parked hr hw _ cause).dwell b

/-! ## Learning runs (R54, R56) -/

theorem unlearn_touch (w : Work) (m : MoverId) : Touch m w (w.setMv m { w.mv m with learn := none }) := .of_setMv w rfl

theorem unlearn_view (w : Work) (m : MoverId) :
    (w.setMv m { w.mv m with learn := none }).view m = { w.view m with learn := none } := by
  rw [view_setMv w (by rfl)]; rfl

theorem Work.finishLearn_alike (w : Work) (m : MoverId) (l : LearnRun) :
    Alike (w.setMv m { w.mv m with learn := none }) (w.finishLearn m l) := by
  simp only [Work.finishLearn]
  refine .ite (fun _ => ?_) fun _ => (Work.clampMover_alike _ m).trans (Work.emit_alike _ _)
  refine Over.trans (((foldl_alike _ (fun w z => ?_) _).trans (Work.clampMover_alike _ m)).trans (Work.askLearned_alike _))
    (Work.emit_alike _ _)
  split
  · exact Work.setLearned_alike _ _ _
  · exact .refl w

theorem Work.finishLearn_touch (w : Work) (m : MoverId) (l : LearnRun) : Touch m w (w.finishLearn m l) :=
  (unlearn_touch w m).trans (w.finishLearn_alike m l).touch

theorem Work.finishLearn_view (w : Work) (m : MoverId) (l : LearnRun) :
    (w.finishLearn m l).view m = { w.view m with learn := none } := by
  rw [Alike.view (w.finishLearn_alike m l), unlearn_view]

/-- The learning run of a room and its claim turn outward (R54; log 36). -/
def Work.turned (w : Work) (m : MoverId) (l : LearnRun) : Work :=
  w.setMv m { w.mv m with learn := some { l with leg := .outward },
                          claim := (w.mv m).claim.map fun c => { c with dir := .outward }, sync := .off }

def View.turned (v : View) (k : LearnMethod) : View :=
  { v with learn := some (k, .outward), claim := v.claim.map fun c => { c with dir := .outward } }

theorem Work.turned_view (w : Work) (m : MoverId) (l : LearnRun) : (w.turned m l).view m = (w.view m).turned l.method := by
  rw [Work.turned, view_setMv w (by rfl)]
  simp only [Mover.core, View.turned, Work.view, Option.map_map, Option.map_some]
  rfl

theorem Work.outwardLeg_touch (w : Work) (m : MoverId) (l : LearnRun) : Touch m w (w.outwardLeg m l) :=
  Touch.trans (z := w.turned m l) (.of_setMv w rfl) (Work.handOver_touch _ _ _ _ _)

theorem Work.outwardLeg_view (w : Work) (m : MoverId) (l : LearnRun) :
    (w.outwardLeg m l).view m = ((w.view m).turned l.method).handed := by
  have : w.outwardLeg m l = (w.turned m l).handOver m .link .outward .learn := rfl
  rw [this, Work.handOver_view, Work.turned_view]; rfl

theorem Work.outwardLeg_lawful (h : Lawful β m (w.view m)) (hw : (w.view m).waits = 0) (hr : (w.view m).run = true) {l : LearnRun}
    (hl : (w.view m).learn = some (l.method, l.leg)) (hi : l.leg = .inward) : Lawful β m ((w.outwardLeg m l).view m) := by
  obtain ⟨ha, _, hc, hg⟩ := h.learns _ hl
  obtain ⟨hf, hm⟩ := h.allowed (.inr (.inr (by rw [hl]; rfl)))
  obtain ⟨c, hv⟩ := Option.isSome_iff_exists.mp (hc hi)
  rw [Work.outwardLeg_view]
  refine lawful_handed (v := (w.view m).turned l.method) hw ?_ ?_ ⟨hf, ?_⟩ fun b => ?_
  · simp only [View.turned, hv]; rfl
  · intro k hk
    obtain rfl := Option.some.inj hk
    refine ⟨ha, fun _ => rfl, fun e => Dir.noConfusion e, fun d hd => ?_⟩
    simp only [View.turned, hv, Option.map_some, Option.some.injEq] at hd
    obtain rfl := hd
    exact ⟨(hg c hv).1, rfl⟩
  · simp only [View.mask, hl] at hm
    exact hm
  · have ho := (h.books b).one
    have hd := (h.books b).held.mpr hr
    show (w.view m).draws = 1
    omega

/-! ## The end at rest (R47, R49) -/

theorem Work.moverEnd_touch (w : Work) (m : MoverId) : Touch m w (w.moverEnd m) := by
  simp only [Work.moverEnd]
  split
  · exact .refl w
  · split
    · exact w.closeMotion_touch m _ _
    · refine .ite (fun _ => .ite (fun _ => w.outwardLeg_touch m _) fun _ => ?_) fun _ => ?_
      · exact (w.closeMotion_touch m _ _).trans (Work.finishLearn_touch _ m _)
      · exact (w.abortLearn_touch m).trans (Work.closeMotion_touch _ m _ _)

theorem Work.moverEnd_lawful (h : Lawful β m (w.view m)) (hr : (w.view m).Rests) (hw : (w.view m).waits = 0) :
    Lawful β m ((w.moverEnd m).view m) := by
  simp only [Work.moverEnd]
  split
  · exact h
  · next r hrun =>
    split
    · next hl => exact Work.closeMotion_lawful hr hw (by rw [view_learn, hl]; rfl) r _
    · next l hl =>
      have hv : (w.view m).learn = some (l.method, l.leg) := by rw [view_learn, hl]; rfl
      split
      · split
        · next hi => exact Work.outwardLeg_lawful h hw (by show (w.mv m).run.isSome = true; rw [hrun]; rfl) hv hi
        · rw [Work.finishLearn_view]
          have hp : Parked β ((w.closeMotion m r (r.firstCause.getD .seated)).view m) :=
            Work.closeMotion_parked hr hw (h.learns _ hv).1 r _
          exact Parked.lawful (v := { (w.closeMotion m r (r.firstCause.getD .seated)).view m with learn := none })
            ⟨hp.rests, hp.waits, hp.books⟩ rfl
      · have ha := w.abortLearn_view m
        refine Work.closeMotion_lawful ?_ ?_ ?_ r _ <;> rw [ha]
        · exact hr
        · exact hw

theorem Work.endIfAtRest_touch (w : Work) (m : MoverId) : Touch m w (w.endIfAtRest m) :=
  .ite (fun _ => w.moverEnd_touch m) fun _ => .refl w

theorem Work.endIfAtRest_lawful (h : Lawful β m (w.view m)) (hw : (w.view m).waits = 0) : Lawful β m ((w.endIfAtRest m).view m) := by
  simp only [Work.endIfAtRest]
  split
  · next hr => exact Work.moverEnd_lawful h ((atRest_iff (soundChans_iff.mpr h.sound)).mp hr) hw
  · exact h

end Sys2Proof.Machine
end

