-- ==== Sys2Proof/Proofs/DriveStops.lean ====
section
/-! PROOF. The stops of a mover keep its law, whatever fences and members stand against it (R6, R22, R38, R148). -/

namespace Sys2Proof.Machine

set_option Elab.async false

open Sys2Proof.Safety

variable {β : Prop} {m : MoverId} {w : Work}

/-! ## Folds over the channels of a mover -/

theorem foldl_view {g : Kind → Kind} {f : Work → ChanId → Work} (h : ∀ w c, Over [c] w (f w c))
    (hk : ∀ w c, (w.ch c).kind ≠ .odd → ((f w c).ch c).kind = g (w.ch c).kind) (hg : ∀ k, g (g k) = g k)
    (ho : ∀ k, k ≠ .odd → g k ≠ .odd) (hs : SoundChans w m) :
    ((w.chansOf m).foldl f w).view m = { w.view m with kinds := (w.view m).kinds.map g } :=
  (foldl_over _ h w).view_map (foldl_kinds h hk hg ho _ w hs)

theorem foldl_touch {f : Work → ChanId → Work} (h : ∀ w c, Over [c] w (f w c)) (w : Work) (m : MoverId) :
    Touch m w ((w.chansOf m).foldl f w) := (foldl_over _ h w).touch fun _ hc => hc

theorem SoundChans.of_view {z : Work} (h : SoundChans w m) (hk : (z.view m).kinds = (w.view m).kinds) : SoundChans z m :=
  soundChans_iff.mpr (by rw [hk]; exact soundChans_iff.mp h)

theorem Shaped.soundChans (h : Shaped β m (w.view m)) : SoundChans w m := soundChans_iff.mpr h.sound

/-! ## One channel -/

variable {x : Machine.Channel}

theorem Channel.stopWith_cases (x : Machine.Channel) (cause : Cause) (coast : Bool) (now : Time) :
    ((x.motion = none ∨ x.stopping = true) ∧ x.stopWith cause coast now = x) ∨
      (∃ mo, x.motion = some mo ∧ x.stopping = false ∧ x.stopWith cause coast now =
        { x with state := .moving, duty := 0, bridge := if coast then .coast else .brake, retryEnd := none,
                 motion := some { mo with phase := .stopping, stopTime := some now, cause := some cause } }) := by
  cases hm : x.motion with
  | none => exact .inl ⟨.inl rfl, by simp only [Channel.stopWith, hm]⟩
  | some mo =>
    by_cases hs : x.stopping = true
    · exact .inl ⟨.inr hs, by simp only [Channel.stopWith, hm, if_pos hs]⟩
    · exact .inr ⟨mo, rfl, by simpa using hs, by simp only [Channel.stopWith, hm, if_neg hs]⟩

/-- What a stop makes of a kind that does not start. -/
def Kind.halt : Kind → Kind
  | .rest => .rest
  | _ => .stopping

theorem Channel.stopWith_kind (ho : x.kind ≠ .odd) (cause : Cause) (coast : Bool) (now : Time) :
    (x.stopWith cause coast now).kind = x.kind.halt := by
  rcases x.stopWith_cases cause coast now with ⟨h, e⟩ | ⟨mo, hm, _, e⟩ <;> rw [e]
  · rcases h with h | h
    · have : x.kind = .rest := rest_iff_kind.mpr ⟨h, ho⟩
      rw [this]; rfl
    · rw [stopping_iff_kind.mp h]; rfl
  · have hr : x.kind ≠ .rest := (motion_iff_kind ho).mp (by rw [hm]; rfl)
    rw [kind_of_some (mo := { mo with phase := .stopping, stopTime := some now, cause := some cause }) rfl]
    simp only [if_true, Phase.kind]
    cases hk : x.kind <;> simp_all [Kind.halt]

theorem Channel.stopWith_keeps (x : Machine.Channel) (cause : Cause) (coast : Bool) (now : Time) :
    (x.stopWith cause coast now).fenced = x.fenced ∧ (atEase x → atEase (x.stopWith cause coast now)) := by
  rcases x.stopWith_cases cause coast now with ⟨_, e⟩ | ⟨mo, _, _, e⟩ <;> rw [e]
  · exact ⟨rfl, id⟩
  · refine ⟨rfl, fun _ => .inr ⟨rfl, ?_⟩⟩
    cases coast
    · exact .inl rfl
    · exact .inr rfl

theorem Channel.endStarting_keeps (x : Machine.Channel) (cause : Cause) : (x.endStarting cause).kind = .rest ∧
    (x.endStarting cause).fenced = x.fenced ∧ atEase (x.endStarting cause) := by
  simp only [Channel.endStarting]
  split
  · exact ⟨by rw [kind_of_none (by rfl)]; rfl, rfl, .inr ⟨rfl, .inl rfl⟩⟩
  · exact ⟨by rw [kind_of_none (by rfl)]; rfl, rfl, .inr ⟨rfl, .inl rfl⟩⟩

theorem Work.stopChan_over (w : Work) (cause : Cause) (c : ChanId) : Over [c] w (w.stopChan cause c) := by
  simp only [Work.stopChan]
  split
  · obtain ⟨_, hf, he⟩ := (w.ch c).endStarting_keeps cause
    exact ((Over.of_setCh w c hf fun _ => he).trans (Alike.over (Work.recordEnd_alike _ _ _))).trans
      (Alike.over (Work.askCheckpoint_alike _ _ _))
  · obtain ⟨hf, he⟩ := (w.ch c).stopWith_keeps cause false w.now
    exact Over.of_setCh w c hf he

theorem Work.stopChan_kind (w : Work) (cause : Cause) (c : ChanId) (ho : (w.ch c).kind ≠ .odd) :
    ((w.stopChan cause c).ch c).kind = (w.ch c).kind.stop := by
  simp only [Work.stopChan]
  split
  · next hs =>
    have hr := Over.kinds (Work.recordEnd_alike (w.setCh c ((w.ch c).endStarting cause)) c none) c List.not_mem_nil
    rw [Work.askCheckpoint_ch, hr, Work.ch_setCh_self, ((w.ch c).endStarting_keeps cause).1, starting_iff_kind.mp hs]
    rfl
  · next hs =>
    rw [Work.ch_setCh_self, Channel.stopWith_kind ho]
    rw [starting_iff_kind] at hs
    cases hk : (w.ch c).kind <;> simp_all [Kind.halt, Kind.stop]

theorem Kind.stop_stop (k : Kind) : k.stop.stop = k.stop := by cases k <;> rfl

theorem Kind.stop_sound (k : Kind) (h : k ≠ .odd) : k.stop ≠ .odd := by cases k <;> simp_all [Kind.stop]

/-! ## A mover that is stopped -/

/-- A fold that stops every channel, after which the motion ends where all are at rest. -/
theorem Shaped.fold_stopped {f : Work → ChanId → Work} (h : ∀ w c, Over [c] w (f w c))
    (hk : ∀ w c, (w.ch c).kind ≠ .odd → ((f w c).ch c).kind = (w.ch c).kind.stop) {v : View} (hv : Shaped β m v)
    (hw : v.waits = 0) (hz : w.view m = { v with claim := none, learn := none }) :
    Lawful β m (((w.chansOf m).foldl f w).view m) ∧ (((w.chansOf m).foldl f w).view m).waits = 0 := by
  have hs : SoundChans w m := soundChans_iff.mpr (by rw [hz]; exact hv.sound)
  rw [foldl_view h hk Kind.stop_stop Kind.stop_sound hs, hz]
  exact ⟨hv.stopped hw, hw⟩

/-- The learning run of a mover that is stopped has ended, with its claim. -/
def Work.learnEnded (w : Work) (m : MoverId) : Work := if (w.mv m).learn.isSome then w.endWork m else w

theorem Work.stopMover_eq (w : Work) (m : MoverId) (cause : Cause) : w.stopMover m cause =
    if (w.learnEnded m).anyCh m Channel.stoppable then
      (((((w.learnEnded m).endClaim m).noteCause m cause).chansOf m).foldl (Work.stopChan · cause)
        (((w.learnEnded m).endClaim m).noteCause m cause)).endIfAtRest m
    else w.learnEnded m := rfl

theorem Work.learnEnded_touch (w : Work) (m : MoverId) : Touch m w (w.learnEnded m) :=
  .ite (fun _ => w.endWork_touch m) fun _ => .refl w

theorem Work.stopMover_touch (w : Work) (m : MoverId) (cause : Cause) : Touch m w (w.stopMover m cause) := by
  rw [Work.stopMover_eq]
  refine (w.learnEnded_touch m).trans (.ite (fun _ => ?_) fun _ => .refl _)
  have h := ((w.learnEnded m).endClaim_touch m).trans (Work.noteCause_alike _ m cause).touch
  exact (h.trans (foldl_touch (fun w c => w.stopChan_over cause c) _ m)).trans (Work.endIfAtRest_touch _ m)

theorem view_learn_none {v : View} (h : v.learn = none) : ({ v with learn := none } : View) = v := by rw [← h]

theorem Work.learnEnded_view (w : Work) (m : MoverId) : (w.learnEnded m).view m = { w.view m with claim := none, learn := none } ∨
    ((w.view m).learn = none ∧ w.learnEnded m = w) := by
  simp only [Work.learnEnded]
  split
  · exact .inl (w.endWork_view m)
  · next h => exact .inr ⟨by rw [← Option.not_isSome_iff_eq_none, learn_isSome]; exact h, rfl⟩

theorem Shaped.ended {v : View} (h : Shaped β m v) (hw : v.waits = 0) (hl : ¬ v.Live) :
    Lawful β m { v with claim := none, learn := none } := by
  have hk : v.kinds.map Kind.stop = v.kinds := by
    conv_rhs => rw [← List.map_id v.kinds]
    refine List.map_congr_left fun k hk => ?_
    by_contra hne
    refine hl ⟨k, hk, ?_⟩
    have : k ≠ .odd := fun e => h.sound (e ▸ hk)
    cases k <;> simp_all [Kind.stop, Kind.live]
  have := h.stopped hw
  rwa [hk] at this

theorem Work.stopMover_lawful (h : Shaped β m (w.view m)) (hw : (w.view m).waits = 0) (cause : Cause) :
    Lawful β m ((w.stopMover m cause).view m) := by
  have hv : (((w.learnEnded m).endClaim m).noteCause m cause).view m = { w.view m with claim := none, learn := none } := by
    rw [Alike.view (Work.noteCause_alike _ m cause), Work.endClaim_view]
    rcases w.learnEnded_view m with e | ⟨hl, e⟩
    · rw [e]
    · rw [e, ← view_learn_none hl]
  rw [Work.stopMover_eq]
  split
  · obtain ⟨hz, hwz⟩ := h.fold_stopped (fun w c => w.stopChan_over cause c) (fun w c => w.stopChan_kind cause c) hw hv
    exact Work.endIfAtRest_lawful hz hwz
  · next hn =>
    have hlive (hs : SoundChans (w.learnEnded m) m) (hk : ((w.learnEnded m).view m).kinds = (w.view m).kinds) :
        ¬ (w.view m).Live := by
      intro hl
      refine hn ((anyStoppable_iff hs).mpr ?_)
      rw [View.Live, hk]; exact hl
    rcases w.learnEnded_view m with e | ⟨hl, e⟩
    · have hk : ((w.learnEnded m).view m).kinds = (w.view m).kinds := by rw [e]
      rw [e]
      exact h.ended hw (hlive (h.soundChans.of_view hk) hk)
    · rw [e] at hlive ⊢
      exact h.lawful (hlive h.soundChans rfl) hw hl

/-! ## A queued entry that is removed -/

theorem Work.removeQueued_touch (w : Work) (m : MoverId) (cause : Cause) : Touch m w (w.removeQueued m cause) := by
  simp only [Work.removeQueued]
  refine .ite (fun _ => ?_) fun _ => .refl w
  have h := ((w.dequeue_touch m).trans (Work.setQueued_alike _ m false).touch).trans (Work.abortLearn_touch _ m)
  exact (h.trans (Work.emit_alike _ _).touch).trans (Work.endClaim_touch _ m)

theorem Work.removeQueued_view (hq : (w.view m).waits ≠ 0) (cause : Cause) :
    (w.removeQueued m cause).view m = { w.view m with claim := none, learn := none, waits := 0 } := by
  have hi : w.isQueued (moverTarget m) = true := (isQueued_iff_waits w _).mpr hq
  simp only [Work.removeQueued, if_pos hi]
  rw [Work.endClaim_view, Alike.view (Work.emit_alike _ _), Work.abortLearn_view, Alike.view (Work.setQueued_alike _ m false),
    Work.dequeue_view]

theorem Work.removeQueued_of_idle (hq : (w.view m).waits = 0) (cause : Cause) : w.removeQueued m cause = w := by
  have hi : w.isQueued (moverTarget m) = false := (isQueued_false_iff_waits w _).mpr hq
  simp only [Work.removeQueued, hi]; rfl

/-- A mover whose queued entry was removed is parked. -/
theorem Work.removeQueued_parked (h : Shaped β m (w.view m)) (hq : (w.view m).waits ≠ 0) (cause : Cause) :
    Parked β ((w.removeQueued m cause).view m) ∧ ((w.removeQueued m cause).view m).dwell = false ∧
      ((w.removeQueued m cause).view m).learn = none := by
  rw [Work.removeQueued_view hq]
  exact ⟨(h.removed hq).1, (h.removed hq).2, rfl⟩

theorem Work.haltMover_touch (w : Work) (m : MoverId) (cause : Cause) : Touch m w (w.haltMover m cause) :=
  .ite (fun _ => w.removeQueued_touch m cause) fun _ => w.stopMover_touch m cause

theorem Work.haltMover_lawful (h : Shaped β m (w.view m)) (cause : Cause) : Lawful β m ((w.haltMover m cause).view m) := by
  simp only [Work.haltMover]
  split
  · next hq =>
    obtain ⟨hp, _, hl⟩ := Work.removeQueued_parked h ((isQueued_iff_waits w _).mp hq) cause
    exact hp.lawful hl
  · next hq => exact Work.stopMover_lawful h ((isQueued_false_iff_waits w _).mp (by simpa using hq)) cause

theorem Work.removeQueued_lawful (h : Lawful β m (w.view m)) (cause : Cause) : Lawful β m ((w.removeQueued m cause).view m) := by
  by_cases hq : (w.view m).waits = 0
  · rw [Work.removeQueued_of_idle hq]; exact h
  · obtain ⟨hp, _, hl⟩ := Work.removeQueued_parked h.toShaped hq cause
    exact hp.lawful hl

end Sys2Proof.Machine
end

