-- ==== Sys2Proof/Proofs/DriveLocks.lean ====
section
/-! PROOF. Locks, retries and the entry to RAMP keep the law of their mover (R8, R20, R24, R46, R48). -/

namespace Sys2Proof.Machine

set_option Elab.async false

open Sys2Proof.Safety

variable {β : Prop} {m : MoverId} {w : Work} {c : ChanId}

theorem Alike.moverOf {z : Work} (h : Alike w z) (c : ChanId) : z.moverOf c = w.moverOf c := moverOf_congr h.wiring c

theorem Alike.kind {z : Work} (h : Alike w z) (c : ChanId) : (z.ch c).kind = (w.ch c).kind := Over.kinds h c List.not_mem_nil

/-- A channel of a mover that drives. -/
theorem driving_mem (hm : w.moverOf c = some m) (hd : (w.ch c).driving = true) : Kind.driving ∈ (w.view m).kinds :=
  mem_view_kinds.mpr ⟨c, mem_of_moverOf hm, driving_iff_kind.mp hd⟩

theorem Shaped.waits_of_driving {v : View} (h : Shaped β m v) (hd : Kind.driving ∈ v.kinds) : v.waits = 0 :=
  h.waits_zero (not_rests_of hd nofun)

/-! ## Latching locks (R20, R48) -/

theorem Work.latchChan_over (w : Work) (k : LockKind) (b : Bool) (c : ChanId) : Over [c] w (w.latchChan k b c) := by
  simp only [Work.latchChan]
  refine .ite (fun _ => ?_) fun _ => .refl w
  obtain ⟨hf, he⟩ := (w.ch c).stopWith_keeps .fault b w.now
  exact .of_setCh w c hf he

theorem Work.latchChan_kind (w : Work) (k : LockKind) (b : Bool) (c : ChanId) (ho : (w.ch c).kind ≠ .odd) :
    ((w.latchChan k b c).ch c).kind = (w.ch c).kind.latch := by
  simp only [Work.latchChan]
  split
  · next hd =>
    rw [Work.ch_setCh_self, driving_iff_kind.mp hd]
    refine (kind_eq (x := (w.ch c).stopWith .fault b w.now) rfl rfl).trans ?_
    rw [Channel.stopWith_kind ho, driving_iff_kind.mp hd]
    rfl
  · next hd =>
    rw [driving_iff_kind] at hd
    cases hk : (w.ch c).kind <;> simp_all [Kind.latch]

theorem Work.endedFor_view (w : Work) (m : MoverId) (cause : Cause) :
    ((w.endWork m).noteCause m cause).view m = { w.view m with claim := none, learn := none } := by
  rw [Alike.view (Work.noteCause_alike _ m cause), Work.endWork_view]

theorem Work.endedFor_touch (w : Work) (m : MoverId) (cause : Cause) : Touch m w ((w.endWork m).noteCause m cause) :=
  (w.endWork_touch m).trans (Work.noteCause_alike _ m cause).touch

theorem Work.latchMover_eq (w : Work) (m : MoverId) (k : LockKind) (b : Bool) : w.latchMover m k b =
    ((((w.endWork m).noteCause m .fault).chansOf m).foldl (Work.latchChan · k b) ((w.endWork m).noteCause m .fault)) := by
  rw [(w.endedFor_touch m .fault).chansOf]; rfl

theorem Work.latchMover_touch (w : Work) (m : MoverId) (k : LockKind) (b : Bool) : Touch m w (w.latchMover m k b) := by
  rw [Work.latchMover_eq]
  exact (w.endedFor_touch m .fault).trans (foldl_touch (fun w c => w.latchChan_over k b c) _ m)

theorem Work.latchMover_lawful (h : Lawful β m (w.view m)) (hd : Kind.driving ∈ (w.view m).kinds) (k : LockKind) (b : Bool) :
    Lawful β m ((w.latchMover m k b).view m) := by
  have hv := w.endedFor_view m .fault
  have hs : SoundChans ((w.endWork m).noteCause m .fault) m := h.soundChans.of_view (by rw [hv])
  rw [Work.latchMover_eq, foldl_view (fun w c => w.latchChan_over k b c) (fun w c => w.latchChan_kind k b c)
    (by intro k; cases k <;> rfl) (by intro k h; cases k <;> simp_all [Kind.latch]) hs, hv]
  exact h.latched hd

/-! ## Retries (R24) -/

theorem suspend_chan (x : Machine.Channel) (n : Nat) (t : Time) : (x.suspend n t).kind = x.kind.suspend ∧
    (x.suspend n t).fenced = x.fenced ∧ (atEase x → atEase (x.suspend n t)) := by
  simp only [Channel.suspend]
  split
  · next hd =>
    obtain ⟨mo, hm⟩ := Option.isSome_iff_exists.mp (motion_of_driving hd).1
    refine ⟨?_, rfl, fun _ => .inr ⟨rfl, .inr rfl⟩⟩
    rw [driving_iff_kind.mp hd]
    refine Eq.trans (kind_of_some (mo := mo) ?_) ?_
    · exact hm
    · rfl
  · next hd =>
    refine ⟨?_, rfl, id⟩
    rw [driving_iff_kind] at hd
    cases hk : x.kind <;> simp_all [Kind.suspend]

theorem suspend_over (w : Work) (n : Nat) (t : Time) (c : ChanId) : Over [c] w (w.setCh c ((w.ch c).suspend n t)) :=
  .of_setCh w c (suspend_chan _ _ _).2.1 (suspend_chan _ _ _).2.2

theorem Work.retryMover_eq (w : Work) (m : MoverId) (c : ChanId) : w.retryMover m c = ((w.abortLearn m).chansOf m).foldl
    (fun z d => z.setCh d ((z.ch d).suspend ((w.ch c).retry + 1) (w.now + w.retryWait c))) (w.abortLearn m) := by
  rw [(w.abortLearn_touch m).chansOf]; rfl

theorem Work.retryMover_touch (w : Work) (m : MoverId) (c : ChanId) : Touch m w (w.retryMover m c) := by
  rw [Work.retryMover_eq]
  exact (w.abortLearn_touch m).trans (foldl_touch (fun w c => suspend_over w _ _ c) _ m)

theorem Work.retryMover_lawful (h : Lawful β m (w.view m)) (hd : Kind.driving ∈ (w.view m).kinds) (c : ChanId) :
    Lawful β m ((w.retryMover m c).view m) := by
  have hv := w.abortLearn_view m
  have hs : SoundChans (w.abortLearn m) m := h.soundChans.of_view (by rw [hv])
  rw [Work.retryMover_eq, foldl_view (g := Kind.suspend) (fun w c => suspend_over w _ _ c)
    (fun w c _ => by rw [Work.ch_setCh_self]; exact (suspend_chan _ _ _).1)
    (by intro k; cases k <;> rfl) (by intro k h; cases k <;> simp_all [Kind.suspend]) hs, hv]
  exact h.suspended hd

/-! ## A lock by its policy (R20, R21, R51) -/

theorem Work.goOn_touch (w : Work) (m : MoverId) (c : ChanId) (a : Policy) (b : Bool) (d : Dir) : Touch m w (w.goOn m c a b d) := by
  simp only [Work.goOn]
  refine .ite (fun _ => ?_) fun _ => .refl w
  split
  · exact (w.receiveLock_alike m c a).touch.trans (Work.stopMover_touch _ m _)
  · exact (w.turnHoming_alike m).touch

theorem Work.goOn_lawful (h : Lawful β m (w.view m)) (hd : Kind.driving ∈ (w.view m).kinds) (c : ChanId) (a : Policy) (b : Bool)
    (d : Dir) : Lawful β m ((w.goOn m c a b d).view m) := by
  simp only [Work.goOn]
  split
  · split
    · have hv := Alike.view (w.receiveLock_alike m c a) m
      exact Work.stopMover_lawful (by rw [hv]; exact h.toShaped) (by rw [hv]; exact h.waits_of_driving hd) _
    · rw [Alike.view (w.turnHoming_alike m)]; exact h
  · exact h

/-- The lock recorded before it acts. -/
theorem lockNoted_alike (w : Work) (m : MoverId) (c : ChanId) (k : LockKind) (a : Policy) (n : Nat) :
    Alike w ((w.receiveLock m c a).noteLock c k a n) := (w.receiveLock_alike m c a).trans (Work.noteLock_alike _ c k a n)

/-- What an operation on a driving mover comes to. -/
structure Acts (β : Prop) (m : MoverId) (w z : Work) : Prop where
  touch : Touch m w z
  lawful : Lawful β m (w.view m) → Kind.driving ∈ (w.view m).kinds → Lawful β m (z.view m)

theorem Alike.acts {z u : Work} (h : Alike w z) (ha : Acts β m z u) : Acts β m w u := by
  refine ⟨h.touch.trans ha.touch, fun hl hd => ?_⟩
  have hv := Alike.view h m
  exact ha.lawful (by rw [hv]; exact hl) (by rw [hv]; exact hd)

theorem Acts.ite {p : Prop} [Decidable p] {z u : Work} (hz : p → Acts β m w z) (hu : ¬ p → Acts β m w u) :
    Acts β m w (if p then z else u) := by
  split
  · next h => exact hz h
  · next h => exact hu h

theorem Work.latchMover_acts (w : Work) (m : MoverId) (k : LockKind) (b : Bool) : Acts β m w (w.latchMover m k b) :=
  ⟨w.latchMover_touch m k b, fun h hd => Work.latchMover_lawful h hd k b⟩

theorem Work.retryMover_acts (w : Work) (m : MoverId) (c : ChanId) : Acts β m w (w.retryMover m c) :=
  ⟨w.retryMover_touch m c, fun h hd => Work.retryMover_lawful h hd c⟩

theorem Work.goOn_acts (w : Work) (m : MoverId) (c : ChanId) (a : Policy) (b : Bool) (d : Dir) : Acts β m w (w.goOn m c a b d) :=
  ⟨w.goOn_touch m c a b d, fun h hd => Work.goOn_lawful h hd c a b d⟩

theorem Work.stopMover_acts (w : Work) (m : MoverId) (cause : Cause) : Acts β m w (w.stopMover m cause) :=
  ⟨w.stopMover_touch m cause, fun h hd => Work.stopMover_lawful h.toShaped (h.waits_of_driving hd) cause⟩

theorem Work.actOnLock_acts (w : Work) (m : MoverId) (c : ChanId) (k : LockKind) (d : Dir) : Acts β m w (w.actOnLock m c k d) := by
  simp only [Work.actOnLock]
  refine Alike.acts (z := if k.lossy = true then w.losePosition c else w) (.ite (fun _ => w.losePosition_alike c) fun _ => .refl w) ?_
  generalize (if k.lossy = true then w.losePosition c else w) = z
  split
  · exact (lockNoted_alike z m c k _ _).acts (Work.latchMover_acts _ m k _)
  · exact (lockNoted_alike z m c k _ _).acts (Work.latchMover_acts _ m k _)
  · refine .ite (fun _ => ?_) fun _ => (lockNoted_alike z m c k _ _).acts (Work.latchMover_acts _ m k _)
    refine (z.receiveLock_alike m c .retry).acts (.ite (fun _ => ?_) fun _ => ?_)
    · exact (Work.noteLock_alike _ c k _ _).acts (Work.stopMover_acts _ m _)
    · exact (Work.noteLock_alike _ c k _ _).acts
        (Alike.acts (.ite (fun _ => Work.makeHoming_alike _ m) fun _ => .refl _) (Work.retryMover_acts _ m c))
  · refine Alike.acts (.ite (fun _ => .refl z) fun _ => ?_) (Work.goOn_acts _ m c _ _ d)
    exact (z.setCh_alike c).trans (Work.noteLock_alike _ c k _ _)
  · exact Work.goOn_acts z m c _ _ d

/-! ## A lock that is raised (R18, R28) -/

/-- A lock reaches a channel that drives, or that the partner's lock of this moment has halted. -/
def Reached (w : Work) (c : ChanId) : Prop := (w.ch c).driving = true ∨ (w.partnerLock c).isSome = true

theorem Reached.of_judged (h : w.judged c = true) : Reached w c := by
  simp only [Work.judged, Bool.and_eq_true, Bool.or_eq_true] at h
  exact h.2

theorem reached_setCh {x : Machine.Channel} (h : Reached w c) (hs : x.state = (w.ch c).state := by rfl)
    (hm : x.motion = (w.ch c).motion := by rfl) : Reached (w.setCh c x) c := by
  have hmo : (w.setCh c x).moverOf c = w.moverOf c := rfl
  have hmv (n : MoverId) : (w.setCh c x).mv n = w.mv n := rfl
  have hhalt (t : Time) : x.haltedAt t = (w.ch c).haltedAt t := by
    simp only [Channel.haltedAt, Channel.stopping, hs, hm]
  have hdr : x.driving = (w.ch c).driving := by simp only [Channel.driving, hs, hm]
  have hp : (w.setCh c x).partnerLock c = w.partnerLock c := by
    simp only [Work.partnerLock, hmo, hmv, Work.ch_setCh_self, Work.setCh_now, hhalt]
  rw [Reached, hp, Work.ch_setCh_self, hdr]
  exact h

theorem Work.raiseLock_touch (hm : w.moverOf c = some m) (k : LockKind) : Touch m w (w.raiseLock c k) := by
  simp only [Work.raiseLock, hm]
  split
  · next _ _ e _ =>
    obtain rfl := Option.some.inj e
    split
    · exact (w.setCh_alike c).touch
    · exact (w.actOnLock_acts (β := False) _ c k _).touch
  · exact .refl w

theorem Work.raiseLock_lawful (hm : w.moverOf c = some m) (h : Lawful β m (w.view m)) (hr : Reached w c) (k : LockKind) :
    Lawful β m ((w.raiseLock c k).view m) := by
  simp only [Work.raiseLock, hm]
  split
  · next _ _ e _ =>
    obtain rfl := Option.some.inj e
    split
    · rw [Alike.view (w.setCh_alike c)]; exact h
    · next hp =>
      have hd : (w.ch c).driving = true := hr.resolve_right (by rw [hp]; nofun)
      exact (w.actOnLock_acts _ c k _).lawful h (driving_mem hm hd)
  · exact h

end Sys2Proof.Machine
end

