-- ==== Sys2Proof/Proofs/DriveRamp.lean ====
section
/-! PROOF. Racking, the entry to RAMP, seats and the end of STOPPING keep the law of their mover (R8, R17, R23, R38, R46). -/

namespace Sys2Proof.Machine

set_option Elab.async false

open Sys2Proof.Safety

variable {β : Prop} {m : MoverId} {w : Work} {c : ChanId}

/-! ## Racking (R46) -/

theorem rackStop_keeps (x : Machine.Channel) (t : Time) :
    ({ x.stopWith .fault false t with fault := some .racked } : Machine.Channel).fenced = x.fenced ∧
      (atEase x → atEase { x.stopWith .fault false t with fault := some .racked }) := x.stopWith_keeps .fault false t

theorem Work.rackChan_over (w : Work) (c : ChanId) : Over [c] w (w.rackChan c) := by
  simp only [Work.rackChan]
  split
  · next hm =>
    refine .ite (fun _ => .refl w) fun _ => .of_setCh w c rfl fun he => .inr ⟨?_, .inl rfl⟩
    refine stepDuty_zero (w.ch c) he ?_
    simp only [Channel.driving, hm]
  · refine .ite (fun _ => w.stopChan_over .fault c) fun _ => .ite (fun _ => (w.setCh_alike c).over) fun _ => ?_
    obtain ⟨hf, he⟩ := rackStop_keeps (w.ch c) w.now
    exact (Over.of_setCh w c hf he).trans (Alike.over (Work.noteLock_alike _ c _ _ _))

theorem Work.rackChan_kind (w : Work) (c : ChanId) (ho : (w.ch c).kind ≠ .odd) :
    ((w.rackChan c).ch c).kind = (w.ch c).kind.stop := by
  simp only [Work.rackChan]
  split
  · next hm =>
    have hr : (w.ch c).kind = .rest := rest_iff_kind.mpr ⟨hm, ho⟩
    split
    · rw [hr]; rfl
    · rw [Work.ch_setCh_self, hr]
      refine Eq.trans (kind_of_none ?_) ?_
      · exact hm
      · rfl
  · split
    · exact w.stopChan_kind .fault c ho
    · next hs =>
      split
      · next hp => rw [Alike.kind (w.setCh_alike c), stopping_iff_kind.mp hp]; rfl
      · rw [Alike.kind (Work.noteLock_alike _ c _ _ _), Work.ch_setCh_self]
        refine (kind_eq (x := (w.ch c).stopWith .fault false w.now) rfl rfl).trans ?_
        rw [Channel.stopWith_kind ho]
        rw [starting_iff_kind] at hs
        cases hk : (w.ch c).kind <;> simp_all [Kind.halt, Kind.stop]

theorem Work.rackLock_eq (w : Work) (m : MoverId) : w.rackLock m =
    (((((w.endWork m).noteCause m .fault).chansOf m).foldl Work.rackChan ((w.endWork m).noteCause m .fault)).setMv m
      { ((((w.endWork m).noteCause m .fault).chansOf m).foldl Work.rackChan ((w.endWork m).noteCause m .fault)).mv m with
        sync := .racked }).endIfAtRest m := rfl

theorem Work.rackLock_touch (w : Work) (m : MoverId) : Touch m w (w.rackLock m) := by
  rw [Work.rackLock_eq]
  exact (((w.endedFor_touch m .fault).trans (foldl_touch Work.rackChan_over _ m)).trans
    (Work.setMv_alike _ m).touch).trans (Work.endIfAtRest_touch _ m)

theorem Work.rackLock_lawful (h : Shaped β m (w.view m)) (hw : (w.view m).waits = 0) : Lawful β m ((w.rackLock m).view m) := by
  rw [Work.rackLock_eq]
  obtain ⟨hz, hwz⟩ := h.fold_stopped Work.rackChan_over Work.rackChan_kind hw (w.endedFor_view m .fault)
  have hv := Alike.view (Work.setMv_alike ((((w.endWork m).noteCause m .fault).chansOf m).foldl Work.rackChan
    ((w.endWork m).noteCause m .fault)) m (x := { ((((w.endWork m).noteCause m .fault).chansOf m).foldl Work.rackChan
    ((w.endWork m).noteCause m .fault)).mv m with sync := .racked })) m
  exact Work.endIfAtRest_lawful (by rw [hv]; exact hz) (by rw [hv]; exact hwz)

theorem Work.judgeRack_touch (w : Work) (m : MoverId) : Touch m w (w.judgeRack m) :=
  .ite (fun _ => w.rackLock_touch m) fun _ => .refl w

theorem driving_mem_of_any (h : w.anyCh m Channel.driving = true) : Kind.driving ∈ (w.view m).kinds := by
  obtain ⟨c, hc, hd⟩ := List.any_eq_true.mp h
  exact mem_view_kinds.mpr ⟨c, hc, driving_iff_kind.mp hd⟩

theorem Work.judgeRack_lawful (h : Lawful β m (w.view m)) : Lawful β m ((w.judgeRack m).view m) := by
  simp only [Work.judgeRack]
  split
  · next hc =>
    simp only [Bool.and_eq_true] at hc
    exact Work.rackLock_lawful h.toShaped (h.waits_of_driving (driving_mem_of_any hc.1.2))
  · exact h

/-! ## The entry to RAMP (R8) -/

theorem enterRamp_chan (x : Machine.Channel) (a b : Nat) (t : Time) : (x.kind ≠ .odd → x.kind ≠ .rest → (x.enterRamp a b t).kind = .driving) ∧
    (x.enterRamp a b t).fenced = x.fenced ∧ (atEase x → atEase (x.enterRamp a b t)) := by
  cases hm : x.motion with
  | none =>
    have he : x.enterRamp a b t = x := by simp only [Channel.enterRamp, hm]
    rw [he]
    exact ⟨fun ho hr => absurd (rest_iff_kind.mpr ⟨hm, ho⟩) hr, rfl, id⟩
  | some mo =>
    have hk : (x.enterRamp a b t).kind = .driving := by
      simp only [Channel.enterRamp, hm]
      exact (kind_of_some (mo := { mo with phase := .ramp, rampStart := t, rampDuty := min a b }) rfl).trans rfl
    refine ⟨fun _ _ => hk, ?_, fun _ => .inl (driving_iff_kind.mpr hk)⟩
    simp only [Channel.enterRamp, hm]

/-- One channel of a mover that enters RAMP. -/
def Work.rampChan (w : Work) (p : Machine.Channel → Bool) (line : DutyLine) (c : ChanId) : Work :=
  if p (w.ch c) then w.setCh c ((w.ch c).enterRamp (w.motionField 0x0200 c) (w.dutyOf c line) w.now) else w

theorem Work.rampChan_over (w : Work) (p : Machine.Channel → Bool) (line : DutyLine) (c : ChanId) :
    Over [c] w (w.rampChan p line c) :=
  .ite (fun _ => .of_setCh w c (enterRamp_chan _ _ _ _).2.1 (enterRamp_chan _ _ _ _).2.2) fun _ => .refl w

/-- A selection of channels by one of their kinds. -/
structure Picks (p : Machine.Channel → Bool) (k : Kind) (g : Kind → Kind) : Prop where
  pick : ∀ x : Machine.Channel, x.kind ≠ .odd → (p x = true ↔ x.kind = k)
  live : k.live
  goes : g k = .driving
  stays : ∀ j, j ≠ k → g j = j

theorem Picks.goes_goes {p : Machine.Channel → Bool} {k : Kind} {g : Kind → Kind} (h : Picks p k g) (j : Kind) : g (g j) = g j := by
  by_cases e : j = k
  · rw [e, h.goes]
    by_cases d : Kind.driving = k
    · rw [d, h.goes, d]
    · exact h.stays _ d
  · rw [h.stays j e, h.stays j e]

theorem Picks.sound {p : Machine.Channel → Bool} {k : Kind} {g : Kind → Kind} (h : Picks p k g) (j : Kind) (hj : j ≠ .odd) :
    g j ≠ .odd := by
  by_cases e : j = k
  · rw [e, h.goes]; nofun
  · rw [h.stays j e]; exact hj

theorem Work.rampChan_kind {p : Machine.Channel → Bool} {k : Kind} {g : Kind → Kind} (h : Picks p k g) (w : Work) (line : DutyLine)
    (c : ChanId) (ho : (w.ch c).kind ≠ .odd) : ((w.rampChan p line c).ch c).kind = g (w.ch c).kind := by
  simp only [Work.rampChan]
  split
  · next hp =>
    have hk := (h.pick _ ho).mp hp
    rw [Work.ch_setCh_self, (enterRamp_chan _ _ _ _).1 ho (by rw [hk]; intro e; have := h.live; rw [e] at this; exact this), hk,
      h.goes]
  · next hp => rw [h.stays _ fun e => hp ((h.pick _ ho).mpr e)]

theorem Work.enterRamp_eq (w : Work) (m : MoverId) (p : Machine.Channel → Bool) : w.enterRamp m p =
    if (w.mv m).paired && w.rackExceeded m then w.rackLock m
    else match w.motionOf m with
      | none => w
      | some mo => (w.chansOf m).foldl (fun z c => z.rampChan p (w.dutyLine m mo) c) w := by
  simp only [Work.enterRamp]
  split
  · rfl
  · cases w.motionOf m <;> rfl

theorem Work.enterRamp_touch (w : Work) (m : MoverId) (p : Machine.Channel → Bool) : Touch m w (w.enterRamp m p) := by
  rw [Work.enterRamp_eq]
  refine .ite (fun _ => w.rackLock_touch m) fun _ => ?_
  split
  · exact .refl w
  · exact foldl_touch (fun w c => w.rampChan_over p _ c) w m

theorem Work.enterRamp_lawful {p : Machine.Channel → Bool} {k : Kind} {g : Kind → Kind} (hp : Picks p k g)
    (h : Lawful β m (w.view m)) (hk : k ∈ (w.view m).kinds) : Lawful β m ((w.enterRamp m p).view m) := by
  rw [Work.enterRamp_eq]
  split
  · exact Work.rackLock_lawful h.toShaped (h.waits_zero (View.Live.not_rests ⟨k, hk, hp.live⟩))
  · split
    · exact h
    · rw [foldl_view (g := g) (fun w c => w.rampChan_over p _ c) (fun w c => Work.rampChan_kind hp w _ c) hp.goes_goes hp.sound
        h.soundChans]
      exact h.ramped hk hp.live hp.goes hp.stays

theorem picks_starting : Picks Channel.starting .starting Kind.depart :=
  ⟨fun _ _ => starting_iff_kind, trivial, rfl, fun j hj => by cases j <;> simp_all [Kind.depart]⟩

theorem picks_waiting : Picks (fun x => x.state == .retryWait) .waiting Kind.resume := by
  refine ⟨fun x ho => ?_, trivial, rfl, fun j hj => by cases j <;> simp_all [Kind.resume]⟩
  rw [beq_iff_eq]
  constructor
  · intro hs
    obtain ⟨mo, hm⟩ := Option.isSome_iff_exists.mp ((sound_iff_kind.mpr ho).mpr (.inr hs))
    rw [kind_of_some hm, hs]; rfl
  · intro hk
    have hm : x.motion.isSome = true := (motion_iff_kind ho).mpr (by rw [hk]; nofun)
    rcases (sound_iff_kind.mpr ho).mp hm with hs | hs
    · obtain ⟨mo, hmo⟩ := Option.isSome_iff_exists.mp hm
      rw [kind_of_some hmo, if_pos hs] at hk
      cases hp : mo.phase <;> rw [hp] at hk <;> cases hk
    · exact hs

/-! ## One channel that seats or ends -/

/-- The kinds after an operation on one channel. -/
theorem kinds_of_over {z : Work} (h : Over [c] w z) {k : Kind} (hk : k ∈ (z.view m).kinds) :
    k = (z.ch c).kind ∨ k ∈ (w.view m).kinds := by
  obtain ⟨d, hd, rfl⟩ := mem_view_kinds.mp hk
  rw [h.chansOf] at hd
  by_cases e : d = c
  · rw [e]; exact .inl rfl
  · rw [h.kinds d fun hi => e (List.mem_singleton.mp hi)]
    exact .inr (mem_view_kinds.mpr ⟨d, hd, rfl⟩)

/-- One channel of a mover in motion stops or comes to rest. -/
theorem Lawful.over {z : Work} (h : Lawful β m (w.view m)) (hz : Over [c] w z) (hr : ¬ (w.view m).Rests)
    (hk : (z.ch c).kind = .stopping ∨ (z.ch c).kind = .rest) : Lawful β m (z.view m) := by
  rw [hz.view_eq]
  refine h.fewer hr fun k hi => ?_
  rcases kinds_of_over (m := m) hz (k := k) hi with e | e
  · rw [e, ← or_assoc]; exact .inl hk
  · exact .inr (.inr e)

/-! ## Seats (R17, R38) -/

theorem Work.afterSeat_touch (w : Work) (m : MoverId) : Touch m w (w.afterSeat m) := by
  simp only [Work.afterSeat]
  split
  · split
    · next r hr => exact (w.setMv_alike m (by simp only [Mover.core, hr, Option.isSome_some])).touch
    · exact .refl w
  · split
    · exact .ite (fun _ => .refl w) fun _ => w.endClaim_touch m
    · exact w.endClaim_touch m

theorem Work.afterSeat_lawful (h : Lawful β m (w.view m)) (hw : (w.view m).waits = 0)
    (hl : ∀ k ∈ (w.view m).kinds, k.live → k = .driving) : Lawful β m ((w.afterSeat m).view m) := by
  simp only [Work.afterSeat]
  split
  · split
    · next r hr => rw [Alike.view (w.setMv_alike m (by simp only [Mover.core, hr, Option.isSome_some]))]; exact h
    · exact h
  · next hn =>
    have hlive : ¬ (w.view m).Live := by
      rintro ⟨k, hk, hi⟩
      obtain ⟨d, hd, rfl⟩ := mem_view_kinds.mp hk
      exact List.find?_eq_none.mp hn d hd (driving_iff_kind.mpr (hl _ hk hi))
    split
    · next l hlr =>
      split
      · exact h
      · next hleg =>
        rw [Work.endClaim_view]
        refine h.unclaimed hlive hw fun k hk => ?_
        rw [view_learn, hlr] at hk
        obtain rfl := Option.some.inj hk
        exact hleg
    · next hlr =>
      rw [Work.endClaim_view]
      refine h.unclaimed hlive hw fun k hk => ?_
      rw [view_learn, hlr] at hk; cases hk

/-- A channel of a driving mover enters STOPPING at a seat. -/
theorem seated_lawful {z : Work} (h : Lawful β m (w.view m)) (hd : Kind.driving ∈ (w.view m).kinds) (hz : Over [c] w z)
    (hk : (z.ch c).kind = .stopping) : Lawful β m ((z.afterSeat m).view m) := by
  have hr := not_rests_of hd (nofun : Kind.driving ≠ .rest)
  have hl := h.over hz hr (.inl hk)
  refine Work.afterSeat_lawful hl ?_ fun k hi hlive => ?_
  · rw [hz.view_eq]; exact h.waits_zero hr
  · rcases kinds_of_over hz hi with e | e
    · rw [e, hk] at hlive; exact hlive.elim
    · exact h.step k e _ hd hlive trivial

/-- A channel that enters STOPPING with cause SEATED. -/
def Work.seatStop (w : Work) (c : ChanId) : Work := w.setCh c ((w.ch c).stopWith .seated false w.now)

theorem Work.seatStop_over (w : Work) (c : ChanId) : Over [c] w (w.seatStop c) :=
  .of_setCh w c ((w.ch c).stopWith_keeps .seated false w.now).1 ((w.ch c).stopWith_keeps .seated false w.now).2

theorem Work.seatStop_kind (hd : (w.ch c).driving = true) : ((w.seatStop c).ch c).kind = .stopping := by
  have hk := driving_iff_kind.mp hd
  rw [Work.seatStop, Work.ch_setCh_self, Channel.stopWith_kind (by rw [hk]; nofun), hk]
  rfl

/-- What seat IN writes into the channel (R17). -/
def inSeated (x : Machine.Channel) : Machine.Channel :=
  { x with pos := 0, known := true, seat := .inSeated, motion := x.motion.map fun mo => { mo with correction := some x.pos } }

theorem inSeated_alike (w : Work) (c : ChanId) : Alike w ((w.setCh c (inSeated (w.ch c))).askCheckpoint c false) := by
  refine Over.trans (w.setCh_alike c (x := inSeated (w.ch c)) rfl ?_) (Work.askCheckpoint_alike _ c false)
  simp only [inSeated, Option.map_map]; rfl

theorem Work.seatIn_steps (w : Work) (m : MoverId) (c : ChanId) : w.seatIn m c =
    ((((w.setCh c (inSeated (w.ch c))).askCheckpoint c false).seatStop c).afterSeat m).judgeRack m := rfl

/-- A seat after what it wrote into the channel. -/
theorem seat_touch {z : Work} (ha : Alike w z) (hc : c ∈ w.chansOf m) : Touch m w ((z.seatStop c).afterSeat m) := by
  have h : Touch m z (z.seatStop c) := (z.seatStop_over c).touch fun d hd => by
    rw [Over.chansOf ha, List.mem_singleton.mp hd]; exact hc
  exact (ha.touch.trans h).trans (Work.afterSeat_touch _ m)

theorem seat_lawful {z : Work} (ha : Alike w z) (hm : w.moverOf c = some m) (hd : (w.ch c).driving = true)
    (h : Lawful β m (w.view m)) : Lawful β m (((z.seatStop c).afterSeat m).view m) := by
  have hv := Alike.view ha m
  have hdz : (z.ch c).driving = true := by rw [driving_iff_kind, Alike.kind ha, ← driving_iff_kind]; exact hd
  exact seated_lawful (by rw [hv]; exact h) (by rw [hv]; exact driving_mem hm hd) (z.seatStop_over c) (Work.seatStop_kind hdz)

theorem Work.seatIn_touch (hc : c ∈ w.chansOf m) : Touch m w (w.seatIn m c) := by
  rw [Work.seatIn_steps]; exact (seat_touch (inSeated_alike w c) hc).trans (Work.judgeRack_touch _ m)

theorem Work.seatIn_lawful (hm : w.moverOf c = some m) (hd : (w.ch c).driving = true) (h : Lawful β m (w.view m)) :
    Lawful β m ((w.seatIn m c).view m) := by
  rw [Work.seatIn_steps]; exact Work.judgeRack_lawful (seat_lawful (inSeated_alike w c) hm hd h)

/-- The channel that seats OUT, before it stops. -/
def Work.outSeated (w : Work) (c : ChanId) : Work := w.setCh c { w.ch c with seat := .outSeated }

theorem Work.outSeated_alike (w : Work) (c : ChanId) : Alike w (w.outSeated c) := w.setCh_alike c

theorem Work.seatOut_eq (w : Work) (m : MoverId) (c : ChanId) : w.seatOut m c =
    (((w.measure m c).outSeated c).seatStop c).afterSeat m := by
  rw [Work.seatStop, Work.outSeated, Work.ch_setCh_self, Work.setCh_setCh]; rfl

theorem seatOut_alike (w : Work) (m : MoverId) (c : ChanId) : Alike w ((w.measure m c).outSeated c) :=
  (w.measure_alike m c).trans (Work.outSeated_alike _ c)

theorem Work.seatOut_touch (hc : c ∈ w.chansOf m) : Touch m w (w.seatOut m c) := by
  rw [Work.seatOut_eq]; exact seat_touch (seatOut_alike w m c) hc

theorem Work.seatOut_lawful (hm : w.moverOf c = some m) (hd : (w.ch c).driving = true) (h : Lawful β m (w.view m)) :
    Lawful β m ((w.seatOut m c).view m) := by
  rw [Work.seatOut_eq]; exact seat_lawful (seatOut_alike w m c) hm hd h

/-! ## The end of STOPPING (R23) -/

theorem endStopping_chan (x : Machine.Channel) (cause : Cause) : (x.endStopping cause).kind = .rest ∧
    (x.endStopping cause).fenced = x.fenced ∧ (x.stopping = true → atEase x → atEase (x.endStopping cause)) := by
  have hb (hs : x.stopping = true) (he : atEase x) : x.bridge = .brake ∨ x.bridge = .coast := by
    refine (he.resolve_left fun hd => ?_).2
    rw [driving_iff_kind, stopping_iff_kind.mp hs] at hd
    cases hd
  simp only [Channel.endStopping]
  split
  · exact ⟨kind_of_none rfl |>.trans rfl, rfl, fun _ _ => .inr ⟨rfl, .inl rfl⟩⟩
  · split
    · exact ⟨kind_of_none rfl |>.trans rfl, rfl, fun hs he => .inr ⟨rfl, hb hs he⟩⟩
    · exact ⟨kind_of_none rfl |>.trans rfl, rfl, fun _ _ => .inr ⟨rfl, .inl rfl⟩⟩

/-- A channel whose motion in STOPPING has ended, before the motion of its mover ends. -/
def Work.restChan (w : Work) (c : ChanId) (mo : Motion) : Work :=
  ((w.setCh c ((w.ch c).endStopping (mo.cause.getD .stopped))).recordEnd c mo.correction).askCheckpoint c false

theorem Work.restChan_over (hs : (w.ch c).stopping = true) (mo : Motion) : Over [c] w (w.restChan c mo) :=
  ((Over.of_setCh w c (endStopping_chan _ _).2.1 ((endStopping_chan _ _).2.2 hs)).trans
    (Alike.over (Work.recordEnd_alike _ c _))).trans (Alike.over (Work.askCheckpoint_alike _ c false))

theorem Work.restChan_kind (w : Work) (c : ChanId) (mo : Motion) : ((w.restChan c mo).ch c).kind = .rest := by
  rw [Work.restChan, Alike.kind (Work.askCheckpoint_alike _ c false), Alike.kind (Work.recordEnd_alike _ c _), Work.ch_setCh_self]
  exact (endStopping_chan _ _).1

theorem Work.endChan_eq (w : Work) (m : MoverId) (c : ChanId) (mo : Motion) :
    w.endChan m c mo = (w.restChan c mo).endIfAtRest m := rfl

theorem Work.endChan_touch (hc : c ∈ w.chansOf m) (hs : (w.ch c).stopping = true) (mo : Motion) : Touch m w (w.endChan m c mo) := by
  rw [Work.endChan_eq]
  exact ((Work.restChan_over hs mo).touch fun d hd => by rw [List.mem_singleton.mp hd]; exact hc).trans
    (Work.endIfAtRest_touch _ m)

theorem Work.endChan_lawful (hc : c ∈ w.chansOf m) (hs : (w.ch c).stopping = true) (h : Lawful β m (w.view m)) (mo : Motion) :
    Lawful β m ((w.endChan m c mo).view m) := by
  have hk : Kind.stopping ∈ (w.view m).kinds := mem_view_kinds.mpr ⟨c, hc, stopping_iff_kind.mp hs⟩
  have hr := not_rests_of hk (nofun : Kind.stopping ≠ .rest)
  have hz := Work.restChan_over hs mo
  rw [Work.endChan_eq]
  refine Work.endIfAtRest_lawful (h.over hz hr (.inr (w.restChan_kind c mo))) ?_
  rw [hz.view_eq]; exact h.waits_zero hr

end Sys2Proof.Machine
end

