-- ==== Sys2Proof/Proofs/DriveCounts.lean ====
section
/-! PROOF. Hall counts, judgements and the time-driven rows of a channel keep the law of its mover (R5, R12, R17, R18, R23, R24). -/

namespace Sys2Proof.Machine

set_option Elab.async false

open Sys2Proof.Safety

/-! ## Operations on one mover that keep its law -/

/-- An operation on one mover that keeps its law. -/
structure MoverKept (β : Prop) (m : MoverId) (w z : Work) : Prop where
  touch : Touch m w z
  lawful : Lawful β m (w.view m) → Lawful β m (z.view m)

variable {α β : Prop} {m : MoverId} {w z u : Work} {c : ChanId}

theorem MoverKept.trans (h₁ : MoverKept β m w z) (h₂ : MoverKept β m z u) : MoverKept β m w u :=
  ⟨h₁.touch.trans h₂.touch, fun h => h₂.lawful (h₁.lawful h)⟩

theorem Alike.keeps (h : Alike w z) : MoverKept β m w z := ⟨h.touch, fun hl => by rw [Alike.view h]; exact hl⟩

theorem MoverKept.refl (w : Work) : MoverKept β m w w := Alike.keeps (.refl w)

theorem MoverKept.ite {p : Prop} [Decidable p] (hz : p → MoverKept β m w z) (hu : ¬ p → MoverKept β m w u) :
    MoverKept β m w (if p then z else u) := by
  split
  · next h => exact hz h
  · next h => exact hu h

theorem Law.keeps (h : Law α β w) (hk : MoverKept β m w z) : Law α β z :=
  h.touch hk.touch fun _ hd => hk.lawful (hd.movers m)

theorem Touch.moverOf (h : Touch m w z) (c : ChanId) : z.moverOf c = w.moverOf c := moverOf_congr h.wiring c

theorem MoverKept.moverOf (h : MoverKept β m w z) (hm : w.moverOf c = some m) : z.moverOf c = some m := by
  rw [h.touch.moverOf]; exact hm

theorem Work.judgeRack_keeps (w : Work) (m : MoverId) : MoverKept β m w (w.judgeRack m) :=
  ⟨w.judgeRack_touch m, Work.judgeRack_lawful⟩

theorem Work.haltMover_keeps (w : Work) (m : MoverId) (cause : Cause) : MoverKept β m w (w.haltMover m cause) :=
  ⟨w.haltMover_touch m cause, fun h => Work.haltMover_lawful h.toShaped cause⟩

theorem Work.removeQueued_keeps (w : Work) (m : MoverId) (cause : Cause) : MoverKept β m w (w.removeQueued m cause) :=
  ⟨w.removeQueued_touch m cause, fun h => Work.removeQueued_lawful h cause⟩

theorem Work.dropRetract_keeps (w : Work) (cause : Cause) : MoverKept β awn w (w.dropRetract cause) :=
  ⟨w.dropRetract_touch cause, fun h => Work.dropRetract_lawful h cause⟩

/-! ## Judgements (R13, R17, R18) -/

theorem Work.raiseLock_keeps (hm : w.moverOf c = some m) (hr : Reached w c) (k : LockKind) : MoverKept β m w (w.raiseLock c k) :=
  ⟨Work.raiseLock_touch hm k, fun h => Work.raiseLock_lawful hm h hr k⟩

theorem Work.judgeRange_keeps (hm : w.moverOf c = some m) : MoverKept β m w (w.judgeRange c) := by
  refine .ite (fun h => Work.raiseLock_keeps hm (.of_judged ?_) _) fun _ => .refl w
  exact (Bool.and_eq_true_iff.mp h).1

theorem Work.judgeOverspeed_keeps (hm : w.moverOf c = some m) : MoverKept β m w (w.judgeOverspeed c) := by
  refine .ite (fun h => ?_) fun _ => .refl w
  have ha : Alike w (w.setCh c { w.ch c with osRun := 0 }) := w.setCh_alike c
  refine (Alike.keeps ha).trans (Work.raiseLock_keeps ?_ (reached_setCh (.of_judged (Bool.and_eq_true_iff.mp h).1)) _)
  exact (MoverKept.moverOf (β := β) (Alike.keeps ha) hm)

theorem Work.judgeOvercurrent_keeps (hm : w.moverOf c = some m) : MoverKept β m w (w.judgeOvercurrent c) := by
  simp only [Work.judgeOvercurrent]
  refine .ite (fun hj => .ite (fun _ => .ite (fun _ => ?_) fun _ => ?_) fun _ => ?_) fun _ => .refl w
  · have ha : Alike w (w.setCh c { w.ch c with ocRun := 0 }) := w.setCh_alike c
    exact (Alike.keeps ha).trans (Work.raiseLock_keeps (MoverKept.moverOf (β := β) (Alike.keeps ha) hm) (reached_setCh (.of_judged hj)) _)
  · exact Alike.keeps (w.setCh_alike c)
  · exact Alike.keeps (w.setCh_alike c)

theorem Work.hallCount_keeps (hm : w.moverOf c = some m) : MoverKept β m w (w.hallCount c) := by
  simp only [Work.hallCount, hm]
  refine .ite (fun _ => ?_) fun _ => .refl w
  have h₁ : MoverKept β m w (w.countChan c) := Alike.keeps (w.countChan_alike c)
  have h₂ := h₁.trans (Work.judgeRange_keeps (h₁.moverOf hm))
  have h₃ := h₂.trans (Work.judgeOverspeed_keeps (h₂.moverOf hm))
  exact h₃.trans (Work.judgeRack_keeps _ m)

theorem Work.seatIn_keeps (hm : w.moverOf c = some m) (hd : (w.ch c).driving = true) : MoverKept β m w (w.seatIn m c) :=
  ⟨Work.seatIn_touch (mem_of_moverOf hm), Work.seatIn_lawful hm hd⟩

theorem Work.seatOut_keeps (hm : w.moverOf c = some m) (hd : (w.ch c).driving = true) : MoverKept β m w (w.seatOut m c) :=
  ⟨Work.seatOut_touch (mem_of_moverOf hm), Work.seatOut_lawful hm hd⟩

theorem Work.judgeStall_keeps (hm : w.moverOf c = some m) (hr : Reached w c) (mo : Motion) : MoverKept β m w (w.judgeStall m c mo) := by
  simp only [Work.judgeStall]
  have ha : Alike w (w.setCh c { w.ch c with lastJudge := some w.now }) := w.setCh_alike c
  have hmz := MoverKept.moverOf (β := β) (Alike.keeps ha) hm
  have hd (h : (w.ch c).driving = true) : ((w.setCh c { w.ch c with lastJudge := some w.now }).ch c).driving = true := by
    rw [driving_iff_kind, Alike.kind ha, ← driving_iff_kind]; exact h
  split
  · exact .ite (fun h => (Alike.keeps ha).trans (Work.seatIn_keeps hmz (hd h))) fun _ => (Alike.keeps ha)
  · exact .ite (fun h => (Alike.keeps ha).trans (Work.seatOut_keeps hmz (hd h))) fun _ => (Alike.keeps ha)
  · exact (Alike.keeps ha).trans (Work.raiseLock_keeps hmz (reached_setCh hr) _)

theorem reached_of_stallJudged {mo : Motion} (h : w.stallJudged c mo = true) : Reached w c := by
  simp only [Work.stallJudged, Bool.and_eq_true] at h
  by_cases hd : (w.ch c).driving = true
  · exact .inl hd
  · simp only [hd] at h
    exact .inr (Bool.and_eq_true_iff.mp h.2).1

/-- A channel that drives is reached at any later moment, another one at this moment alone. -/
theorem Work.stallJudged_later {mo : Motion} (h : w.stallJudged c mo = true) :
    Reached (w.notBefore (w.stallDue (w.ch c) mo)) c := by
  by_cases hd : (w.ch c).driving = true
  · exact .inl hd
  · simp only [Work.stallJudged, Bool.and_eq_true, hd] at h
    have hn : w.stallDue (w.ch c) mo ≤ w.now := of_decide_eq_true (Bool.and_eq_true_iff.mp h.2).2
    have he : w.notBefore (w.stallDue (w.ch c) mo) = w := by
      rw [Work.notBefore, Nat.max_eq_left hn]
    rw [he]
    exact .inr (Bool.and_eq_true_iff.mp h.2).1

theorem Work.stallAt_keeps (hm : w.moverOf c = some m) (n : Nat) : MoverKept β m w (w.stallAt c n) := by
  simp only [Work.stallAt, hm]
  split
  · next _ mo e hmo =>
    obtain rfl := Option.some.inj e
    refine .ite (fun hj => ?_) fun _ => .refl w
    have hr := Work.stallJudged_later hj
    have ha : Alike w ((w.notBefore (w.stallDue (w.ch c) mo)).showCurrent c n) := (w.notBefore_alike (w.stallDue (w.ch c) mo)).trans .of_eq
    have hs : Alike ((w.notBefore (w.stallDue (w.ch c) mo)).showCurrent c n)
      (((w.notBefore (w.stallDue (w.ch c) mo)).showCurrent c n).setCh c ((w.ch c).withReading n)) := Work.setCh_alike _ c
    have hz := ha.trans hs
    refine (Alike.keeps hz).trans (Work.judgeStall_keeps (MoverKept.moverOf (β := β) (Alike.keeps hz) hm) ?_ mo)
    exact reached_setCh (w := (w.notBefore (w.stallDue (w.ch c) mo)).showCurrent c n) hr
  · exact .refl w

theorem Work.overcurrentAt_keeps (hm : w.moverOf c = some m) (n : Nat) : MoverKept β m w (w.overcurrentAt c n) := by
  simp only [Work.overcurrentAt]
  refine .ite (fun _ => ?_) fun _ => .refl w
  have ha : Alike w (w.showCurrent c n) := .of_eq
  have hs : Alike (w.showCurrent c n) ((w.showCurrent c n).setCh c { (w.ch c).withReading n with ocRun := max 1 (w.ch c).ocRun }) :=
    Work.setCh_alike _ c
  have hz := ha.trans hs
  exact (Alike.keeps hz).trans (Work.judgeOvercurrent_keeps (MoverKept.moverOf (β := β) (Alike.keeps hz) hm))

theorem Work.overspeedAt_keeps (hm : w.moverOf c = some m) (n : Nat) : MoverKept β m w (w.overspeedAt c n) := by
  simp only [Work.overspeedAt]
  refine .ite (fun _ => ?_) fun _ => .refl w
  have ha : Alike w (w.setCh c { w.ch c with osRun := max 7 (w.ch c).osRun, prevCount := some w.now }) := w.setCh_alike c
  have hz := ha.trans (Work.notBefore_alike _ ((w.setCh c { w.ch c with
    osRun := max 7 (w.ch c).osRun, prevCount := some w.now }).now + n))
  exact (Alike.keeps hz).trans (Work.hallCount_keeps (MoverKept.moverOf (β := β) (Alike.keeps hz) hm))

/-! ## The end of STARTING, of STOPPING and of a retry wait (R5, R23, R24) -/

theorem Work.enterRamp_keeps {p : Machine.Channel → Bool} {k : Kind} {g : Kind → Kind} (hp : Picks p k g)
    (hk : Lawful β m (w.view m) → k ∈ (w.view m).kinds) : MoverKept β m w (w.enterRamp m p) :=
  ⟨w.enterRamp_touch m p, fun h => Work.enterRamp_lawful hp h (hk h)⟩

theorem Work.reportWritten_keeps (hm : w.moverOf c = some m) (n : Option Nat) : MoverKept β m w (w.reportWritten c n) := by
  simp only [Work.reportWritten, hm]
  split
  · next _ mo _ e hmo =>
    obtain rfl := Option.some.inj e
    refine .ite (fun hs => ?_) fun _ => .refl w
    have hstart : (w.ch c).starting = true := (Bool.and_eq_true_iff.mp hs).1
    have ha : Alike w (w.setCh c { w.ch c with motion := some { mo with written := true } }) :=
      w.setCh_alike c rfl (by rw [hmo]; rfl)
    refine .ite (fun _ => (Alike.keeps ha).trans (Work.enterRamp_keeps picks_starting fun _ => ?_)) fun _ => Alike.keeps ha
    exact mem_view_kinds.mpr ⟨c, mem_of_moverOf (MoverKept.moverOf (β := β) (Alike.keeps ha) hm), by
      rw [Alike.kind ha]; exact starting_iff_kind.mp hstart⟩
  · exact .refl w

theorem Work.endRetry_keeps (hm : w.moverOf c = some m) (hs : (w.ch c).state = .retryWait) : MoverKept β m w (w.endRetry m) := by
  have hc := mem_of_moverOf hm
  have hk (h : Lawful β m (w.view m)) : Kind.waiting ∈ (w.view m).kinds :=
    mem_view_kinds.mpr ⟨c, hc, (picks_waiting.pick _ (h.soundChans c hc)).mp (by rw [hs]; rfl)⟩
  simp only [Work.endRetry]
  split
  · exact Work.enterRamp_keeps picks_waiting hk
  · refine ⟨w.stopMover_touch m _, fun h => Work.stopMover_lawful h.toShaped ?_ _⟩
    exact h.waits_zero (not_rests_of (hk h) nofun)

theorem Work.retryExpiry_keeps (hm : w.moverOf c = some m) : MoverKept β m w (w.retryExpiry c) := by
  simp only [Work.retryExpiry, hm]
  refine .ite (fun hs => ?_) fun _ => .refl w
  have ha := w.notBefore_alike ((w.ch c).retryEnd.getD 0)
  exact (Alike.keeps ha).trans (Work.endRetry_keeps (MoverKept.moverOf (β := β) (Alike.keeps ha) hm) hs)

theorem Work.stoppingEnd_keeps (hm : w.moverOf c = some m) : MoverKept β m w (w.stoppingEnd c) := by
  simp only [Work.stoppingEnd, hm]
  split
  · next _ mo e _ =>
    obtain rfl := Option.some.inj e
    refine .ite (fun hs => ?_) fun _ => .refl w
    have ha := w.notBefore_alike (mo.earliestEnd w.restWindow)
    have hc := mem_of_moverOf (MoverKept.moverOf (β := β) (Alike.keeps ha) hm)
    exact (Alike.keeps ha).trans ⟨Work.endChan_touch hc hs mo, fun h => Work.endChan_lawful hc hs h mo⟩
  · exact .refl w

end Sys2Proof.Machine
end

