-- ==== Sys2Proof/Proofs/DriveAside.lean ====
section
/-! PROOF. The operations on the hydraulic circuit leave rooms, awning and their entries, and keep those of the pump. -/

namespace Sys2Proof.Machine

set_option Elab.async false

open Sys2Proof.Safety

variable {P : Prop}

/-! ## The pump and the end of an activity (R61, R66) -/

theorem draws_release (w : Work) : (w.release hydTarget).bud.draws = [] := by
  refine List.length_eq_zero_iff.mp ?_
  exact filter_ne_self w.bud.admitted (·.target) hydTarget

/-- A pump that stops, or drops its pending start, gives up its draw. -/
theorem release_aside (w : Work) {h : Hyd} (hp : h.pump ≠ .running) (hs : Pumped w → h.pendingStart = false) :
    Aside w (Work.release { w with hyd := h } hydTarget) where
  chans := rfl
  movers := rfl
  inh := rfl
  waits _ _ := rfl
  draws _ ht := filter_ne_length w.bud.admitted (·.target) ht
  within hw := Nat.le_trans (sum_filter_le w.bud.admitted _) hw
  pumped _ hq := by
    have hd : (Work.release { w with hyd := h } hydTarget).bud.draws = [] := draws_release { w with hyd := h }
    have hpump : (Work.release { w with hyd := h } hydTarget).hyd = h := rfl
    refine ⟨?_, ?_, fun e => absurd e hp⟩
    · rw [hd]
      have := hq.one
      exact Nat.le_trans (Nat.le_of_eq (Nat.zero_add _)) (Nat.le_trans (Nat.le_add_left _ _) this)
    · rw [hd, hpump, hs hq]; simp [hp]

theorem Work.pumpStop_aside (w : Work) (b : Bool) : Aside w (w.pumpStop b) := by
  simp only [Work.pumpStop]
  split
  · next hr =>
    split
    · exact release_aside w nofun fun hq => hq.apart hr
    · exact release_aside w nofun fun hq => hq.apart hr
  · next hd => exact .ite (fun _ => release_aside w (by rw [hd]; nofun) fun _ => rfl) fun _ => .refl w
  · exact .refl w

/-- The entry of the pump leaves the queue. -/
theorem Work.dequeue_aside (w : Work) : Aside w (w.dequeue hydTarget) where
  chans := rfl
  movers := rfl
  inh := rfl
  waits _ ht := filter_ne_length w.bud.queue (·.target) ht
  draws _ _ := rfl
  within := id
  pumped _ h := by
    have hq : (w.dequeue hydTarget).bud.waits = 0 := w.dequeue_hyd_waits
    refine ⟨?_, h.held, h.apart⟩
    have := h.one
    show w.bud.draws.length + _ ≤ 1
    omega

theorem Work.setHyd_aside (w : Work) {h : Hyd} (hp : h.pump = w.hyd.pump := by rfl)
    (hs : h.pendingStart = w.hyd.pendingStart := by rfl) : Aside w { w with hyd := h } :=
  .of_eq rfl rfl rfl rfl rfl hp hs

theorem Work.emit_aside (w : Work) (e : Event) : Aside w (w.emit e) := .of_eq
theorem Work.setLvl_aside (w : Work) (l : Level) : Aside w (w.setLvl l) := .of_eq
theorem Work.setJk_aside (w : Work) (j : JackId) (x : Jack) : Aside w (w.setJk j x) := .of_eq
theorem Work.setJacks_aside (w : Work) (s t : JackSet) : Aside w (w.setJacks s t) := w.setHyd_aside
theorem Work.setOpen_aside (w : Work) (s : JackSet) : Aside w (w.setOpen s) := w.setHyd_aside
theorem Work.setActPhase_aside (w : Work) (p : ActPhase) : Aside w (w.setActPhase p) := w.setHyd_aside
theorem Work.enterPhase_aside (w : Work) (l : Level) : Aside w (w.enterPhase l) := .of_eq

theorem Work.endActivity_aside (w : Work) (o : EndOutcome) (b : Bool) : Aside w (w.endActivity o b) := by
  simp only [Work.endActivity]
  split
  · exact .refl w
  · have hstop := (w.pumpStop_aside b).trans (.ite (p := (w.pumpStop b).isQueued hydTarget = true)
      (fun _ => (w.pumpStop b).dequeue_aside) fun _ => .refl (w.pumpStop b))
    split
    · exact hstop.trans (Work.setHyd_aside _)
    · exact (hstop.trans (Work.setHyd_aside _)).trans (Work.emit_aside _ _)

theorem Work.endLevel_aside (w : Work) (o : EndOutcome) (b : Bool) : Aside w (w.endLevel o b) := by
  simp only [Work.endLevel]
  exact .ite (fun _ => .refl w) fun _ => ((w.endActivity_aside o b).trans (Work.setLvl_aside _ _)).trans (Work.emit_aside _ _)

/-! ## The phases of a procedure (R104..R113) -/

theorem Work.enterSettling_aside (w : Work) : Aside w w.enterSettling :=
  (((w.pumpStop_aside false).trans (Work.setOpen_aside _ _)).trans (Work.setActPhase_aside _ _)).trans (Work.enterPhase_aside _ _)

theorem Work.enterStabilize_aside (w : Work) (f : Option PendFlag) : Aside w (w.enterStabilize f) := by
  simp only [Work.enterStabilize]
  exact ((w.enterPhase_aside _).trans (Work.setOpen_aside _ _)).trans (.ite (fun _ => Work.enterSettling_aside _) fun _ => .refl _)

theorem Work.enterLevelling_aside (w : Work) (n : Nat) : Aside w (w.enterLevelling n) :=
  (w.enterPhase_aside _).trans (Work.setOpen_aside _ _)

theorem Work.checkGrounded_aside (w : Work) : Aside w w.checkGrounded := by
  simp only [Work.checkGrounded]
  split
  · split
    · exact w.enterSettling_aside
    · exact w.enterLevelling_aside 1
    · exact w.enterSettling_aside
    · exact .refl w
  · exact .refl w

theorem Work.followGround_aside (w : Work) : Aside w w.followGround :=
  .ite (fun _ => (w.setOpen_aside _).trans (Work.checkGrounded_aside _)) fun _ => .refl w

theorem Work.enterTouchdown_aside (w : Work) : Aside w w.enterTouchdown :=
  (w.enterPhase_aside _).trans (Work.followGround_aside _)

theorem Work.setLift_aside (w : Work) (s : JackSet) : Aside w (w.setLift s) := (w.setLvl_aside _).trans (Work.setOpen_aside _ _)

theorem Work.leaveLift_aside (w : Work) (j : JackId) : Aside w (w.leaveLift j) := by
  simp only [Work.leaveLift]
  exact .ite (fun _ => (w.setLift_aside _).trans (.ite (fun _ => Work.enterStabilize_aside _ _) fun _ => .refl _)) fun _ => .refl w

theorem Work.jacksMove_aside (w : Work) : Aside w w.jacksMove :=
  .ite (fun _ => (w.setLvl_aside _).trans (Work.emit_aside _ _)) fun _ => .refl w

/-! ## Jacks leaving an activity (R72, R74, R75, R82) -/

theorem Work.checkWork_aside (w : Work) : Aside w w.checkWork := by
  simp only [Work.checkWork]
  split
  · exact .refl w
  · split
    · exact .refl w
    · exact .ite (fun _ => w.endActivity_aside _ _) fun _ => .refl w
    · exact .ite (fun _ => w.endActivity_aside _ _) fun _ => .refl w

theorem Work.dropJack_aside (w : Work) (j : JackId) : Aside w (w.dropJack j) := by
  simp only [Work.dropJack]
  split
  · exact .refl w
  · exact w.setJacks_aside _ _

theorem Work.giveFault_aside (w : Work) (j : JackId) (k : JackFault) : Aside w (w.giveFault j k) := by
  simp only [Work.giveFault]
  exact .ite (fun _ => .refl w) fun _ => ((w.setJk_aside _ _).trans (Work.dropJack_aside _ _)).trans (Work.emit_aside _ _)

theorem Work.faultJack_aside (w : Work) (j : JackId) (k : JackFault) : Aside w (w.faultJack j k) := by
  simp only [Work.faultJack]
  refine .ite (fun _ => .refl w) fun _ => (w.giveFault_aside j k).trans (.ite (fun _ => .ite ?_ ?_) ?_)
  · exact fun _ => Work.endLevel_aside _ _ _
  · exact fun _ => Work.leaveLift_aside _ _
  · exact fun _ => Work.checkWork_aside _

theorem Work.fenceFollowed_aside (w : Work) (j : JackId) (b : Bool) : Aside w (w.fenceFollowed j b) := by
  simp only [Work.fenceFollowed]
  refine .ite (fun _ => .ite (fun _ => .ite ?_ ?_) ?_) fun _ => .ite ?_ ?_
  · exact fun _ => w.endLevel_aside _ _
  · exact fun _ => (w.leaveLift_aside j).trans (Work.followGround_aside _)
  · exact fun _ => w.leaveLift_aside j
  · exact fun _ => w.checkWork_aside
  · exact fun _ => .refl w

theorem Work.fenceJack_leaves (w : Work) (j : JackId) : Aside w (w.fenceJack j) := by
  rw [Work.fenceJack_eq]
  exact ((w.setJk_aside _ _).trans (Work.dropJack_aside _ _)).trans (Work.fenceFollowed_aside _ _ _)

theorem Work.clearJack_aside (w : Work) (j : JackId) : Aside w (w.clearJack j) :=
  .ite (fun _ => w.setJk_aside _ _) fun _ => .refl w

/-! ## The start of the pump (R61, R65, R146) -/

theorem Work.atPumpStart_aside (w : Work) (a : HydActivity) : Aside w (w.atPumpStart a) := by
  simp only [Work.atPumpStart]
  split
  · exact .ite (fun _ => w.enterTouchdown_aside) fun _ => w.enterLevelling_aside _
  · exact (w.jacksMove_aside.trans (Work.setJacks_aside _ _ _)).trans (Work.checkWork_aside _)
  · exact (w.jacksMove_aside.trans (Work.setJacks_aside _ _ _)).trans (Work.checkWork_aside _)

/-! ## Sensors (R71..R73, R77, R84..R99) -/

theorem Work.readSwitch_aside (w : Work) (j : JackId) (b : Bool) : Aside w (w.readSwitch j b) := by
  simp only [Work.readSwitch]
  exact .ite (fun _ => (w.setJk_aside _ _).trans (.ite (fun _ => .refl _) fun _ => Work.followGround_aside _)) fun _ => .refl w

theorem Work.atLimitSet_aside (w : Work) (j : JackId) : Aside w (w.atLimitSet j) := by
  have hfault (b : Bool) : Aside w (if b = true then w.faultJack j .noGround else w) :=
    .ite (fun _ => w.faultJack_aside j _) fun _ => .refl w
  simp only [Work.atLimitSet]
  split
  · exact .refl w
  · split
    · exact .ite (fun _ => (w.dropJack_aside j).trans (Work.checkWork_aside _)) fun _ => .refl w
    · exact .refl w
    · split
      · exact .ite (fun _ => (w.setLvl_aside _).trans (Work.leaveLift_aside _ j)) fun _ => .refl w
      · exact hfault _
      · exact hfault _
      · exact .refl w

theorem Work.retractedSet_aside (w : Work) (j : JackId) : Aside w (w.retractedSet j) := by
  simp only [Work.retractedSet]
  split
  · exact .refl w
  · split
    · exact .ite (fun _ => (w.dropJack_aside j).trans (Work.checkWork_aside _)) fun _ => .refl w
    · exact (Beside.ite (fun _ => w.setOpen_aside _) fun _ => .refl w).trans (Work.checkWork_aside _)
    · exact .refl w

theorem Work.judgeStrokeSensor_aside (w : Work) (j : JackId) : Aside w (w.judgeStrokeSensor j) := by
  simp only [Work.judgeStrokeSensor]
  exact .ite (fun _ => (w.setJk_aside _ _).trans (Work.faultJack_aside _ _ _))
    fun _ => .ite (fun _ => w.setJk_aside _ _) fun _ => .refl w

theorem Work.sampleStroke_aside (w : Work) (j : JackId) (raw : Nat) : Aside w (w.sampleStroke j raw) := by
  simp only [Work.sampleStroke]
  refine .ite (fun _ => .ite (fun _ => ?_) fun _ => ?_) fun _ => .refl w
  · exact ((w.setJk_aside _ _).trans (.ite (fun _ => Work.atLimitSet_aside _ j) fun _ => .refl _)).trans
      (.ite (fun _ => Work.retractedSet_aside _ j) fun _ => .refl _)
  · exact (w.setJk_aside _ _).trans (Work.judgeStrokeSensor_aside _ _)

theorem Work.judgeLevelling_aside (w : Work) : Aside w w.judgeLevelling :=
  .ite (fun _ => w.enterStabilize_aside _) fun _ => .ite (fun _ => w.enterStabilize_aside _)
    fun _ => .ite (fun _ => w.enterStabilize_aside _) fun _ => .refl w

theorem Work.levelWatch_aside (w : Work) : Aside w w.levelWatch := by
  simp only [Work.levelWatch]
  exact .ite (fun _ => .ite (fun _ => w.setLvl_aside _)
    fun _ => .ite (fun _ => (w.setLvl_aside _).trans (Work.emit_aside _ _)) fun _ => w.setLvl_aside _) fun _ => .refl w

theorem Work.figured_aside (w : Work) : Aside w w.figured := by
  simp only [Work.figured]
  exact ((w.setLvl_aside _).trans (.ite (fun _ => Work.setLift_aside _ _) fun _ => .refl _)).trans (Work.setLvl_aside _ _)

theorem Work.abortZero_aside (w : Work) : Aside w w.abortZero := by
  simp only [Work.abortZero]
  split
  · exact .refl w
  · exact .of_eq

theorem Work.serveNext_aside (w : Work) : Aside w w.serveNext := by
  simp only [Work.serveNext]
  split
  · exact .of_eq
  · exact .refl w

theorem Work.askLearned_aside (w : Work) : Aside w w.askLearned := by
  refine .ite (fun _ => .refl w) fun _ => .trans (z := { w with store := { w.store with jobs := w.store.jobs ++ [.learned] } })
    ?_ (Work.serveNext_aside _)
  exact .of_eq

theorem Work.zeroSample_aside (w : Work) : Aside w w.zeroSample := by
  simp only [Work.zeroSample]
  split
  · exact .refl w
  · refine .ite (fun _ => .of_eq) fun _ => .ite (fun _ => .of_eq) fun _ => ?_
    refine (Beside.trans ?_ (Work.askLearned_aside _)).trans (Work.emit_aside _ _)
    exact .of_eq

theorem Work.setTilt_aside (w : Work) (t : Tilt) : Aside w { w with tilt := t } := .of_eq

theorem Work.setTiltFault_aside (w : Work) : Aside w w.setTiltFault := by
  simp only [Work.setTiltFault]
  exact (((w.setTilt_aside _).trans (Work.setLvl_aside _ _)).trans (Work.endLevel_aside _ _ _)).trans (Work.abortZero_aside _)

end Sys2Proof.Machine
end

