-- ==== Sys2Proof/Proofs/DrivePump.lean ====
section
/-! PROOF. The admission of pump runs and the hydraulic events leave rooms, awning and their entries, and keep those of the
pump. -/

namespace Sys2Proof.Machine

set_option Elab.async false

open Sys2Proof.Safety

variable {P : Prop} {w z : Work} {a : HydActivity}

/-! ## The admission of a pump run (R61, R65, R146) -/

theorem Beside.with {w z : Work} (h : Beside False w z) (hp : P → Pumped w → Pumped z) : Beside P w z := { h with pumped := hp }

theorem Beside.forget (h : Beside P w z) : Beside False w z := { h with pumped := False.elim }

theorem pumpStarted_beside (w : Work) (a : HydActivity) : Beside False w (w.pumpStarted a) :=
  ⟨rfl, rfl, rfl, fun _ _ => rfl, fun _ _ => rfl, id, False.elim⟩

/-- A pump that holds its draw starts. -/
theorem Work.pumpRun_pumped (ha : w.hyd.activity = some a) (hd : w.bud.draws ≠ [])
    (h : w.bud.draws.length + w.bud.waits ≤ 1) : Pumped w.pumpRun := by
  rw [Work.pumpRun_eq ha]
  exact (Work.atPumpStart_aside _ _).pumped trivial ⟨h, ⟨fun _ => .inl rfl, fun _ => hd⟩, fun _ => rfl⟩

/-- A pump that starts has an activity, and its draw with the pending start. -/
theorem Work.pumpRun_beside (w : Work) : Beside (w.hyd.activity.isSome = true ∧ w.hyd.pendingStart = true) w w.pumpRun := by
  cases ha : w.hyd.activity with
  | none =>
    simp only [Work.pumpRun, ha]
    exact ⟨rfl, rfl, rfl, fun _ _ => rfl, fun _ _ => rfl, id, fun h => Bool.noConfusion h.1⟩
  | some a =>
    have hrun : Beside False w w.pumpRun := by
      rw [Work.pumpRun_eq ha]
      exact (pumpStarted_beside w a).trans (Work.atPumpStart_aside _ _)
    exact hrun.with fun h hp => Work.pumpRun_pumped ha (hp.held.2 (.inr h.2)) hp.one

theorem Work.setActPhase_activity (ha : w.hyd.activity = some a) (p : ActPhase) :
    (w.setActPhase p).hyd.activity = some { a with phase := p } := by
  simp only [Work.setActPhase, ha, Option.map_some]

theorem Work.admitPump_beside (w : Work) : Beside False w w.admitPump := by
  simp only [Work.admitPump]
  split
  · exact (w.setActPhase_aside .running).forget.then id (Work.pumpRun_beside _).forget
  · exact ⟨rfl, rfl, rfl, fun _ _ => rfl, fun _ _ => rfl, id, False.elim⟩

/-- The pump starts, or will after its dwell. -/
theorem Work.admitPump_pumped (ha : w.hyd.activity = some a) (hp : w.hyd.pump ≠ .running) (hd : w.bud.draws ≠ [])
    (h : w.bud.draws.length + w.bud.waits ≤ 1) : Pumped w.admitPump := by
  have hact := Work.setActPhase_activity ha .running
  have hpump : (w.setActPhase .running).hyd.pump = w.hyd.pump := rfl
  simp only [Work.admitPump]
  split
  · exact Work.pumpRun_pumped hact hd h
  · exact ⟨h, ⟨fun _ => .inr rfl, fun _ => hd⟩, fun e => absurd (hpump.symm.trans e) hp⟩

/-- An entry of the pump joins the admitted list. -/
theorem admitted_beside {n : Nat} (hf : w.fits n = true) : Beside False w (admitted w hydTarget n) :=
  ⟨rfl, rfl, rfl, fun _ _ => rfl, fun t ht => by rw [admitted_drawsOf, if_neg ht.symm]; rfl, fun _ => admitted_within hf _, False.elim⟩

theorem admitted_draws (w : Work) (n : Nat) : (admitted w hydTarget n).bud.draws.length = w.bud.draws.length + 1 :=
  admitted_drawsOf w hydTarget hydTarget n

/-- An entry of the pump joins the queue. -/
theorem queued_beside (w : Work) {q : Queued} (hq : q.target = hydTarget) : Beside (w.bud.draws = [] ∧ w.bud.waits = 0) w (queued w q) := by
  have hfilter (t : Fin 6) (ht : t ≠ hydTarget) : (queued w q).waitsOf t = w.waitsOf t := by
    simp only [Work.waitsOf, queued, List.filter_append]
    have : (q.target == t) = false := by rw [hq]; simpa using ht.symm
    simp [this]
  refine ⟨rfl, rfl, rfl, hfilter, fun _ _ => rfl, id, ?_⟩
  rintro ⟨hd, hw⟩ h
  refine ⟨?_, h.held, h.apart⟩
  have := waits_append_pump (q := q) hw
  show w.bud.draws.length + _ ≤ 1
  rw [hd]
  exact Nat.le_trans (Nat.le_of_eq (Nat.zero_add _)) this

/-- No entry of the pump is held or queued, and the pump may be admitted. -/
structure Unclaimed (w : Work) : Prop where
  pump : w.hyd.pump ≠ .running
  start : w.hyd.pendingStart = false
  waits : w.bud.waits = 0

theorem Unclaimed.draws (h : Unclaimed w) (hp : Pumped w) : w.bud.draws = [] := by
  by_contra hd
  rcases hp.held.1 hd with e | e
  · exact h.pump e
  · rw [h.start] at e; cases e

theorem Presentable.unclaimed (h : Presentable w a) : Unclaimed w :=
  ⟨by rcases h.pump with e | e <;> rw [e] <;> nofun, h.start, h.waits⟩

theorem Work.pumpEntry_target (w : Work) (a : HydActivity) : (w.pumpEntry a).target = hydTarget := rfl

/-- A pump run newly presented. -/
theorem Work.presentPump_beside (w : Work) : Beside (Unclaimed w) w w.presentPump.1 := by
  cases ha : w.hyd.activity with
  | none => simp only [Work.presentPump, ha]; exact .refl w
  | some a =>
    have hz : Aside w (w.awaiting a) := w.setHyd_aside
    have hact : (w.awaiting a).hyd.activity = some { a with phase := .waiting } := rfl
    have hu : Unclaimed w → Unclaimed (w.awaiting a) := fun h => ⟨h.pump, h.start, h.waits⟩
    rw [Work.presentPump_eq ha]
    generalize w.awaiting a = z at hz hact hu
    refine hz.beside.then hu ?_
    by_cases hf : Fits z (z.pumpEntry a).draw
    · rw [Work.presentEntry_of_fits hf, Work.pumpEntry_target]
      have hfits : z.fits (z.pumpEntry a).draw = true := by simpa [Work.fits] using hf.2
      generalize (z.pumpEntry a).draw = n at hfits
      have hadm : (admitted z hydTarget n).hyd.activity = some { a with phase := .waiting } := hact
      refine ((admitted_beside hfits).then id (Work.admitPump_beside _)).with fun h hp => ?_
      have hlen : (admitted z hydTarget n).bud.draws.length = 1 := by rw [admitted_draws, h.draws hp]; rfl
      have hwaits : (admitted z hydTarget n).bud.waits = 0 := h.waits
      exact Work.admitPump_pumped hadm h.pump (fun e => by rw [e] at hlen; cases hlen) (by omega)
    · by_cases hl : waiting z < z.queueLimit
      · rw [Work.presentEntry_of_room hf hl]
        exact { queued_beside z (z.pumpEntry_target a) with
          pumped := fun h hp => (queued_beside z (z.pumpEntry_target a)).pumped ⟨h.draws hp, h.waits⟩ hp }
      · rw [Work.presentEntry_of_full hf (Nat.le_of_not_lt hl)]
        exact .refl z

/-! ## The tests of a procedure (R109..R112) -/

theorem Work.furtherPass_beside (w : Work) : Beside (HydLaw w ∧ w.lvl.phase = .settling) w w.furtherPass := by
  refine (w.enterPhase_aside _).beside.then (fun ⟨h, hp⟩ => ?_) (Work.presentPump_beside _)
  obtain ⟨a, ha⟩ := h.activity (.inl (by rw [hp]; nofun))
  have hs := h.serves ha
  have hidle : a.phase = .idlePump := hs.proc.2.1.1 hp
  obtain ⟨hpump, hstart⟩ := hs.pump.1 (by rw [hidle]; nofun)
  exact ⟨by show w.hyd.pump ≠ _; rcases hpump with e | e <;> rw [e] <;> nofun, hstart, hs.waits_zero (by rw [hidle]; nofun)⟩

theorem Work.judgeSettling_beside (w : Work) (b : Bool) : Beside (HydLaw w ∧ w.lvl.phase = .settling) w (w.judgeSettling b) := by
  simp only [Work.judgeSettling]
  exact .ite (fun _ => .ite (fun _ => (w.endLevel_aside _ _).beside) fun _ => .refl w)
    fun _ => .ite (fun _ => w.furtherPass_beside) fun _ => (w.endLevel_aside _ _).beside

theorem Work.tiltSample_beside (w : Work) : Beside (HydLaw w) w w.tiltSample := by
  rw [tiltSample_eq]
  generalize isLevel w.tilt.p w.tilt.q w.tolerance = l
  have ha : Aside w (w.figured.levelWatch.runFollowed l) :=
    (w.figured_aside.trans (Work.levelWatch_aside _)).trans (Work.setLvl_aside _ _)
  have hg : HydLaw w → HydLaw (w.figured.levelWatch.runFollowed l) := fun h =>
    ((Work.figured_good h).trans fun h => (Work.levelWatch_good h).trans fun h => Work.runFollowed_good h l).law
  generalize w.figured.levelWatch.runFollowed l = z at ha hg
  refine ha.beside.then hg ?_
  simp only [Work.sampleJudged]
  refine .ite (fun _ => z.judgeLevelling_aside.beside) fun _ => .ite (fun hs => ?_) fun _ => .refl z
  exact (Beside.refl z).then (fun h => ⟨h, hs.1⟩) (z.judgeSettling_beside l)

theorem Work.filteredSample_beside (w : Work) (x y : Nat) : Beside (HydLaw w) w (w.filteredSample x y) := by
  simp only [Work.filteredSample]
  refine .ite (fun _ => ?_) fun _ => .ite (fun _ => ?_) fun _ => ?_
  · exact (w.setTilt_aside _).beside.trans (.ite (fun _ => Work.setTiltFault_aside _) fun _ => .refl _)
  · exact (w.setTilt_aside _).beside
  · exact ((w.setTilt_aside _).beside.then (fun h => (Work.setTilt_good h _).law) (Work.tiltSample_beside _)).trans
      (Work.zeroSample_aside _)

end Sys2Proof.Machine
end

