-- ==== Sys2Proof/Proofs/DriveCircuit.lean ====
section
/-! PROOF. The hydraulic events and requests keep the laws of drive and budget. -/

namespace Sys2Proof.Machine

set_option Elab.async false

open Sys2Proof.Safety

variable {P α β : Prop} {w z : Work}

/-! ## Sensors of jacks and tilt (R71..R93) -/

theorem Work.notBefore_aside (w : Work) (t : Time) : Aside w (w.notBefore t) := .of_eq

/-- What the inputs show. -/
theorem Work.setPins_aside (w : Work) (p : Pins) : Aside w { w with pins := p } := .of_eq

theorem Work.groundChange_aside (w : Work) (j : JackId) (b : Bool) : Aside w (w.groundChange j b) := by
  simp only [Work.groundChange]
  exact .ite (fun _ => ((w.setPins_aside _).trans (Work.setJk_aside _ _ _)).trans (Work.readSwitch_aside _ _ _)) fun _ => .refl w

theorem Work.scanBank_aside (w : Work) : Aside w w.scanBank := by
  have hread : Aside w ((bankJacks w.hyd.bankB).foldl (fun w j => w.readSwitch j w.pins.psw[j]) w) :=
    foldl_aside _ (fun w j => w.readSwitch_aside j _) w
  exact hread.trans (Work.setHyd_aside _)

theorem Work.scanTimeout_aside (w : Work) (j : JackId) (b : Bool) : Aside w (w.scanTimeout j b) := by
  simp only [Work.scanTimeout]
  exact .ite (fun _ => ((w.notBefore_aside _).trans (Work.setPins_aside _ _)).trans (Work.setJk_aside _ _ _)) fun _ => .refl w

theorem Work.strokeAt_aside (w : Work) (j : JackId) (raw : BitVec 12) : Aside w (w.strokeAt j raw) := by
  simp only [Work.strokeAt]
  exact .ite (fun _ => ((w.notBefore_aside _).trans (Work.setPins_aside _ _)).trans (Work.sampleStroke_aside _ _ _)) fun _ => .refl w

theorem Work.thirdOutOfRange_aside (w : Work) (j : JackId) (raw : BitVec 12) : Aside w (w.thirdOutOfRange j raw) := by
  simp only [Work.thirdOutOfRange]
  exact (w.setJk_aside _ _).trans (Work.strokeAt_aside _ _ _)

theorem Work.lastLowSample_aside (w : Work) (j : JackId) (raw : BitVec 12) : Aside w (w.lastLowSample j raw) := by
  simp only [Work.lastLowSample]
  exact ((Beside.ite (fun _ => .refl w) fun _ => w.notBefore_aside _).trans (Work.setJk_aside _ _ _)).trans
    (Work.strokeAt_aside _ _ _)

theorem Work.blockEnd_beside (w : Work) (x y : BitVec 15) : Beside (HydLaw w) w (w.blockEnd x y) := by
  have hshown (t : Time) (a b : BitVec 12) : HydLaw w → HydLaw ((w.notBefore t).showTilt a b) := fun h =>
    ((Work.notBefore_good h t).trans fun h => hydGood_of_wet h rfl rfl).law
  simp only [Work.blockEnd]
  exact .ite (fun _ => (Aside.beside ((w.notBefore_aside _).trans (Work.setPins_aside _ _))).then (hshown _ _ _)
    (Work.filteredSample_beside _ _ _)) fun _ => .refl w

theorem Work.lastDrift_aside (w : Work) : Aside w w.lastDrift := .ite (fun _ => w.setLvl_aside _) fun _ => .refl w

/-! ## Deadlines (R62, R66, R79, R81, R105..R113) -/

theorem Work.noGround_aside (w : Work) : Aside w w.noGround := by
  simp only [Work.noGround]
  exact (foldl_aside allJacks (fun w j => .ite (fun _ => w.giveFault_aside j _) fun _ => .refl w) w).trans
    (Work.endLevel_aside _ _ _)

theorem Work.settleEnd_aside (w : Work) : Aside w w.settleEnd := by
  simp only [Work.settleEnd]
  split
  · exact w.endLevel_aside _ _
  · exact w.endLevel_aside _ _
  · exact w.setLvl_aside _

theorem Work.atDeadline_aside (w : Work) (p : LevelPhase) {f : Work → Work} (hf : ∀ z, Aside z (f z)) :
    Aside w (w.atDeadline p f) := by
  simp only [Work.atDeadline]
  split
  · exact .ite (fun _ => (w.notBefore_aside _).trans (hf _)) fun _ => .refl w
  · exact .refl w

theorem Work.stowTimeout_aside (w : Work) : Aside w w.stowTimeout := by
  simp only [Work.stowTimeout]
  split
  · exact .refl w
  · split
    · exact ((w.notBefore_aside _).trans (foldl_aside allJacks
        (fun w j => .ite (fun _ => w.giveFault_aside j _) fun _ => .refl w) _)).trans (Work.checkWork_aside _)
    · exact .refl w

theorem Work.manualExpiry_aside (w : Work) : Aside w w.manualExpiry := by
  simp only [Work.manualExpiry]
  split
  · exact .refl w
  · split
    · exact (w.notBefore_aside _).trans (Work.endActivity_aside _ _ _)
    · exact .refl w

/-- The end of whatever the circuit works on. -/
theorem Work.endWork_aside (w : Work) (o : EndOutcome) (b : Bool) :
    Aside w (if w.lvl.phase ≠ .idle then w.endLevel o b else w.endActivity o b) :=
  .ite (fun _ => w.endLevel_aside o b) fun _ => w.endActivity_aside o b

theorem Work.overrunStop_aside (w : Work) : Aside w w.overrunStop := w.endWork_aside _ _
theorem Work.cancelHyd_aside (w : Work) : Aside w w.cancelHyd := w.endWork_aside _ _
theorem Work.tripHyd_aside (w : Work) : Aside w w.tripHyd := w.endWork_aside _ _

theorem Work.pumpOverrun_aside (w : Work) : Aside w w.pumpOverrun := by
  simp only [Work.pumpOverrun]
  split
  · exact (w.notBefore_aside _).trans (Work.overrunStop_aside _)
  · exact .refl w

theorem Work.arriveHyd_aside (w : Work) (x : BitVec 16) : Aside w (w.arriveHyd x) := by
  simp only [Work.arriveHyd]
  refine .ite (fun _ => .ite (fun _ => w.endLevel_aside _ _) fun _ => .refl w) fun _ => ?_
  split
  · exact .ite (fun _ => w.endActivity_aside _ _) fun _ => .refl w
  · exact .refl w

/-! ## The pump becomes OFF (R61, R66) -/

/-- A pump in DWELL or REST becomes OFF and keeps its entries. -/
theorem freed_aside {h : Hyd} (hp : w.hyd.pump ≠ .running) (ho : h.pump = .off := by rfl)
    (hs : h.pendingStart = w.hyd.pendingStart := by rfl) : Aside w { w with hyd := h } :=
  ⟨rfl, rfl, rfl, fun _ _ => rfl, fun _ _ => rfl, id, fun _ hq => by
    refine ⟨hq.one, ?_, fun e => ?_⟩
    · show w.bud.draws ≠ [] ↔ h.pump = _ ∨ h.pendingStart = _
      rw [hq.held, ho, hs]
      simp [hp]
    · have : h.pump = .running := e
      rw [ho] at this; cases this⟩

theorem Work.pumpRestEnd_aside (w : Work) : Aside w w.pumpRestEnd := by
  simp only [Work.pumpRestEnd]
  refine .ite (fun hr => (w.notBefore_aside (w.hyd.restEnd.getD 0)).trans ?_) fun _ => .refl w
  exact freed_aside (w := w.notBefore _) (by show w.hyd.pump ≠ _; rw [hr]; nofun)

theorem Work.pumpDwellEnd_beside (w : Work) : Beside (HydLaw w) w w.pumpDwellEnd := by
  simp only [Work.pumpDwellEnd]
  refine .ite (fun hd => ?_) fun _ => .refl w
  have hoff : Aside w (w.notBefore (w.hyd.dwellEnd.getD 0)).pumpOff :=
    (w.notBefore_aside (w.hyd.dwellEnd.getD 0)).trans
      (freed_aside (w := w.notBefore (w.hyd.dwellEnd.getD 0)) (by show w.hyd.pump ≠ _; rw [hd]; nofun))
  refine Beside.ite (fun hs => (Aside.beside hoff).then (fun h => ⟨?_, hs⟩) (Work.pumpRun_beside _)) fun _ => Aside.beside hoff
  show w.hyd.activity.isSome = true
  rw [Option.isSome_iff_ne_none]
  intro ha
  have hs' : w.hyd.pendingStart = true := hs
  rw [(h.none ha).1.start] at hs'
  cases hs'

/-! ## Activities (R65, R80) -/

theorem CircuitFree.unclaimed (h : CircuitFree w) : Unclaimed w := by
  obtain ⟨⟨hp, hs, hw⟩, _⟩ := h.law.none h.activity
  exact ⟨hp, hs, hw⟩

theorem Work.startActivity_beside (w : Work) (a : HydActivity) : Beside (Unclaimed w) w (w.startActivity a).1 := by
  have hz : Aside w (w.withActivity a) := w.setHyd_aside
  rcases w.startActivity_cases a with e | ⟨e, _⟩ <;> rw [e]
  · exact .refl w
  · exact (Aside.beside hz).then (fun h => ⟨h.pump, h.start, h.waits⟩) (Work.presentPump_beside _)

theorem Work.acceptLevel_beside (w : Work) (k : LevelMode) : Beside (Unclaimed w) w (w.acceptLevel k).1 := by
  have hb : Aside w (w.levelBegun k) := .of_eq
  have hs : Beside (Unclaimed w) w ((w.levelBegun k).startActivity w.levelActivity).1 :=
    (Aside.beside hb).then (fun h => ⟨h.pump, h.start, h.waits⟩) (Work.startActivity_beside _ _)
  rw [Work.acceptLevel_eq]
  split
  · exact .refl w
  · exact hs

theorem Work.doLevelStart_beside (w : Work) (m : Byte) :
    Beside (HydLaw w ∧ w.stage.loaded = true) w (w.doLevelStart m).1 := by
  simp only [Work.doLevelStart]
  split
  · exact .refl w
  · split
    · exact .refl w
    · split
      · exact .refl w
      · split
        · exact .refl w
        · next k _ _ hr =>
          refine (Beside.refl w).then (fun h => ?_) (w.acceptLevel_beside k)
          simp only [Work.levelRefusal] at hr
          split at hr
          · cases hr
          · next ha =>
            split at hr
            · cases hr
            · next hrest => exact CircuitFree.unclaimed ⟨h.1, h.2, by simpa using ha, hrest⟩

theorem Work.newMove_beside (w : Work) (m : Byte) (d : Dir) :
    Beside (HydLaw w ∧ w.stage.loaded = true ∧ w.hyd.activity = none) w (w.newMove m d).1 := by
  simp only [Work.newMove]
  split
  · split
    · exact .refl w
    · split
      · exact .refl w
      · next hrest =>
        split
        · exact .refl w
        · split
          · exact .refl w
          · exact (Beside.refl w).then (fun h => CircuitFree.unclaimed ⟨h.1, h.2.1, h.2.2, hrest⟩) (w.startActivity_beside _)
  · exact .refl w

theorem Work.doStow_beside (w : Work) : Beside (HydLaw w ∧ w.stage.loaded = true) w w.doStow.1 := by
  simp only [Work.doStow]
  split
  · exact .refl w
  · split
    · exact .refl w
    · split
      · exact .refl w
      · next ha =>
        simp only [Work.stowRequest]
        split
        · exact .refl w
        · next hrest =>
          split
          · exact .refl w
          · split
            · exact .refl w
            · split
              · exact .refl w
              · exact (Beside.refl w).then (fun h => CircuitFree.unclaimed ⟨h.1, h.2, by simpa using ha, hrest⟩)
                  (w.startActivity_beside _)

/-- Entries of the queue change, but not in their targets, and with them the activity. -/
theorem setQueue_aside (w : Work) {f : Queued → Queued} (hf : ∀ q, (f q).target = q.target) {h : Hyd}
    (hp : h.pump = w.hyd.pump) (hs : h.pendingStart = w.hyd.pendingStart) :
    Aside w { w with hyd := h, bud := { w.bud with queue := w.bud.queue.map f } } where
  chans := rfl
  movers := rfl
  inh := rfl
  waits t _ := filter_map_target hf w.bud.queue t
  draws _ _ := rfl
  within := id
  pumped _ hq := by
    refine ⟨?_, ?_, fun e => hs.trans (hq.apart (hp.symm.trans e))⟩
    · show w.bud.draws.length + _ ≤ 1
      rw [Budget.waits_map w.bud hf]; exact hq.one
    · show w.bud.draws ≠ [] ↔ h.pump = _ ∨ h.pendingStart = _
      rw [hp, hs]; exact hq.held

theorem Work.renewMove_aside (w : Work) (s : JackSet) : Aside w (w.renewMove s) := by
  simp only [Work.renewMove]
  refine Beside.trans ?_ (Work.checkWork_aside _)
  exact setQueue_aside w (fun q => by split <;> rfl) rfl rfl

theorem Work.moveAgain_aside (w : Work) (a : HydActivity) (m : Byte) (d : Dir) : Aside w (w.moveAgain a m d).1 := by
  simp only [Work.moveAgain]
  split
  · split
    · split
      · exact .refl w
      · exact .refl w
      · exact w.renewMove_aside _
    · exact .refl w
  · exact .refl w

theorem Work.doJackMove_beside (w : Work) (m d : Byte) : Beside (HydLaw w ∧ w.stage.loaded = true) w (w.doJackMove m d).1 := by
  simp only [Work.doJackMove]
  split
  · exact .refl w
  · split
    · exact .refl w
    · simp only [Work.jackRequest]
      split
      · split
        · exact Aside.beside (w.moveAgain_aside _ m _)
        · exact .refl w
      · exact .refl w
      · next ha _ => exact (Beside.refl w).then (fun h => ⟨h.1, h.2, ha⟩) (w.newMove_beside m _)
      · exact .refl w

end Sys2Proof.Machine
end

