-- ==== Sys2Proof/Proofs/DriveHead.lean ====
section
/-! PROOF. The judgement of the head of the queue keeps the laws of drive and budget (R144). -/

namespace Sys2Proof.Machine

set_option Elab.async false

open Sys2Proof.Safety

variable {α β : Prop} {L : MoverId → View → Prop} {w z : Work} {m : MoverId} {q : Queued} {rest : List Queued}

/-- The entry that is admitted has left the queue. -/
theorem Lawful.admitted {v : View} {k : Nat} (h : Lawful β m v) (hk : v.waits = k + 1) :
    (v.claim = none → Lawful β m { v with waits := k, draws := v.draws + 1 }) ∧
      (v.claim.isSome = true → Lawful β m (View.handed { v with waits := k, draws := v.draws + 1 })) := by
  have hw : v.waits ≠ 0 := by omega
  obtain ⟨hr, hd, hone⟩ := h.queued hw
  have hk0 : k = 0 := by omega
  subst hk0
  refine ⟨fun hc => ?_, fun hc => ?_⟩
  · refine ⟨⟨h.sound, h.step, h.held, h.claimed, fun e => absurd rfl e, h.dwells, h.learns, fun b => ?_⟩,
      fun _ => h.allowed (.inr (.inl hw))⟩
    have := (h.books b).claimed hw
    rw [hc] at this; cases this
  · refine lawful_handed (v := { v with waits := 0, draws := v.draws + 1 }) rfl hc h.learns (h.allowed (.inr (.inl hw))) fun b => ?_
    have := (h.books b).one
    show v.draws + 1 = 1
    omega

/-- The entry moves from the head of the queue to the admitted list. -/
def Work.headTaken (w : Work) (q : Queued) (rest : List Queued) : Work := Safety.admitted (w.withQueue rest) q.target q.draw

theorem Work.admitHead_eq (w : Work) (q : Queued) (rest : List Queued) :
    w.admitHead q rest = (w.headTaken q rest).admitTarget q.target := rfl

theorem head_filter (hq : w.bud.queue = q :: rest) {t : Fin 6} (ht : t ≠ q.target) :
    (rest.filter fun e => e.target == t) = w.bud.queue.filter fun e => e.target == t := by
  rw [hq, List.filter_cons_of_neg (by simpa using ht.symm)]

theorem head_waits (hq : w.bud.queue = q :: rest) (ht : q.target = moverTarget m) :
    (w.view m).waits = (rest.filter fun e => e.target == moverTarget m).length + 1 := by
  have : (w.view m).waits = (w.bud.queue.filter fun e => e.target == moverTarget m).length := rfl
  rw [this, hq, List.filter_cons_of_pos (by simp [ht]), List.length_cons]

theorem Work.headTaken_touch (hq : w.bud.queue = q :: rest) (hf : w.fits q.draw = true) (ht : q.target = moverTarget m) :
    Touch m w (w.headTaken q rest) := by
  rw [Work.headTaken, ht]
  exact (Work.withQueue_touch fun t hne => head_filter hq (by rw [ht]; exact hne)).trans (admitted_touch (w := w.withQueue rest) hf m)

theorem Work.headTaken_view (w : Work) (q : Queued) (rest : List Queued) (ht : q.target = moverTarget m) :
    (w.headTaken q rest).view m =
      { w.view m with waits := (rest.filter fun e => e.target == moverTarget m).length, draws := (w.view m).draws + 1 } := by
  rw [Work.headTaken, ht, admitted_view, Work.withQueue_view]

theorem Work.admitMover_head (h : Lawful β m (w.view m)) (hq : w.bud.queue = q :: rest) (ht : q.target = moverTarget m) :
    Lawful β m (((w.headTaken q rest).admitMover m).view m) := by
  obtain ⟨hnone, hsome⟩ := h.admitted (head_waits hq ht)
  have hv := w.headTaken_view q rest ht
  have hclaim : (w.view m).claim = ((w.headTaken q rest).mv m).claim.map Claim.gist := rfl
  cases hc : ((w.headTaken q rest).mv m).claim with
  | none =>
    rw [Work.admitMover_of_none hc, hv]
    exact hnone (by rw [hclaim, hc]; rfl)
  | some c =>
    rw [Work.admitMover_view hc, hv]
    exact hsome (by rw [hclaim, hc]; rfl)

theorem Work.admitHead_touch (hq : w.bud.queue = q :: rest) (hf : w.fits q.draw = true) (ht : q.target = moverTarget m) :
    Touch m w ((w.headTaken q rest).admitMover m) := (Work.headTaken_touch hq hf ht).trans (Work.admitMover_touch _ m)

/-- The pump's entry at the head is admitted. -/
theorem Work.admitHead_beside (hq : w.bud.queue = q :: rest) (hf : w.fits q.draw = true) (ht : q.target = hydTarget) :
    Beside (HydLaw w) w (w.headTaken q rest).admitPump := by
  have hqueue : Beside False w (w.withQueue rest) :=
    ⟨rfl, rfl, rfl, fun t hne => congrArg List.length (head_filter hq (by rw [ht]; exact hne)), fun _ _ => rfl, id, False.elim⟩
  have htaken : Beside False w (w.headTaken q rest) := by
    rw [Work.headTaken, ht]
    exact hqueue.then id (admitted_beside (w := w.withQueue rest) hf)
  refine (htaken.then id (Work.admitPump_beside _)).with fun h hp => ?_
  have hwaits : w.bud.waits = (rest.filter fun e => e.target == hydTarget).length + 1 := by
    rw [Budget.waits, hq, List.filter_cons_of_pos (by simp [ht]), List.length_cons]
  obtain ⟨a, ha⟩ := h.activity (.inr (by omega))
  have hs := h.serves ha
  have hphase : a.phase = .waiting := hs.waits (by omega)
  have hpump : w.hyd.pump ≠ .running := by
    rcases (hs.pump.1 (by rw [hphase]; nofun)).1 with e | e <;> rw [e] <;> nofun
  have hdraws : (w.headTaken q rest).bud.draws.length = w.bud.draws.length + 1 := by
    rw [Work.headTaken, ht, admitted_draws]; rfl
  have hrest : (w.headTaken q rest).bud.waits = (rest.filter fun e => e.target == hydTarget).length := rfl
  have hone := hp.one
  exact Work.admitPump_pumped (w := w.headTaken q rest) ha hpump
    (fun e => by rw [e, List.length_nil] at hdraws; omega) (by omega)

/-- Whose entry stands at the head. -/
theorem target_cases (t : Fin 6) : (∃ m, t = moverTarget m) ∨ t = hydTarget := by
  revert t; decide

theorem admitTarget_mover (w : Work) (m : MoverId) : w.admitTarget (moverTarget m) = w.admitMover m := by
  have h : (moverTarget m).val < 5 := m.isLt
  simp only [Work.admitTarget, dif_pos h]; rfl

theorem admitTarget_hyd (w : Work) : w.admitTarget hydTarget = w.admitPump := rfl

theorem Work.admitHead_law (h : Law α β w) (hq : w.bud.queue = q :: rest) (hf : w.fits q.draw = true) :
    Law α β (w.admitHead q rest) := by
  have hgood : HydLaw w → HydLaw (w.admitHead q rest) := fun hl => (Work.admitHead_good hl hq).law
  rw [Work.admitHead_eq] at hgood ⊢
  rcases target_cases q.target with ⟨m, ht⟩ | ht
  · rw [ht, admitTarget_mover]
    exact h.touch (Work.admitHead_touch hq hf ht) fun _ hd => Work.admitMover_head (hd.movers m) hq ht
  · rw [ht, admitTarget_hyd] at hgood ⊢
    exact h.beside (Work.admitHead_beside hq hf ht) hgood

/-- A mover without an entry in the queue. -/
theorem Work.admitHead_view (h : Drive L β w) (hq : w.bud.queue = q :: rest) (hf : w.fits q.draw = true)
    (hm : (w.view m).waits = 0) : (w.admitHead q rest).view m = w.view m := by
  rw [Work.admitHead_eq]
  rcases target_cases q.target with ⟨n, ht⟩ | ht
  · have hne : m ≠ n := by
      rintro rfl
      rw [head_waits hq ht] at hm; omega
    rw [ht, admitTarget_mover]
    exact (Work.admitHead_touch hq hf ht).view_ne h hne
  · rw [ht, admitTarget_hyd]
    exact (Work.admitHead_beside hq hf ht).view m

theorem Work.admitHeads_law (n : Nat) (h : Law α β w) : Law α β (Work.admitHeads n w) := by
  induction n generalizing w with
  | zero => exact h
  | succ n ih =>
    simp only [Work.admitHeads]
    split
    · exact h
    · next hq =>
      split
      · next hf => exact ih (Work.admitHead_law h hq hf)
      · exact h

theorem Work.admitHeads_view (n : Nat) (h : Law True β w) (hm : (w.view m).waits = 0) :
    (Work.admitHeads n w).view m = w.view m := by
  induction n generalizing w with
  | zero => rfl
  | succ n ih =>
    simp only [Work.admitHeads]
    split
    · rfl
    · next hq =>
      split
      · next hf =>
        have hv := Work.admitHead_view (h.drive trivial) hq hf hm
        rw [ih (Work.admitHead_law h hq hf) (by rw [hv]; exact hm), hv]
      · rfl

theorem Work.setHeadDue_alike (w : Work) (b : Bool) : Alike w { w with headDue := b } := .of_eq

theorem Work.judgeHead_law (h : Law α β w) : Law α β w.judgeHead := by
  simp only [Work.judgeHead]
  split
  · exact (Work.admitHeads_law 16 h).alike (Work.setHeadDue_alike _ _)
  · exact h

theorem Work.judgeHead_view (h : Law True β w) (hm : (w.view m).waits = 0) : w.judgeHead.view m = w.view m := by
  simp only [Work.judgeHead]
  split
  · rw [Alike.view (Work.setHeadDue_alike _ _), Work.admitHeads_view 16 h hm]
  · rfl

end Sys2Proof.Machine
end

