-- ==== Sys2Proof/Proofs/DriveClaims.lean ====
section
/-! PROOF. Claims, reversals, contention and switches keep the laws of drive and budget (R33..R43, R123, R126, R127). -/

namespace Sys2Proof.Machine

set_option Elab.async false

open Sys2Proof.Safety

variable {α β : Prop} {w z : Work} {m : MoverId}

/-! ## A mover at IDLE -/

/-- The mover is parked and does not dwell. -/
structure Idle (β : Prop) (v : View) : Prop extends Parked β v where
  still : v.dwell = false

theorem Shaped.idle_of_activity (h : Shaped β m (w.view m)) (ha : w.activity m = .idle) : Idle β (w.view m) := by
  simp only [Work.activity] at ha
  split at ha
  · cases ha
  next hq =>
  split at ha
  · cases ha
  split at ha
  · cases ha
  split at ha
  · cases ha
  split at ha
  · cases ha
  next hr =>
  split at ha
  · cases ha
  next hd =>
  exact ⟨h.parked_of_run (Bool.eq_false_iff.mpr hr) ((isQueued_false_iff_waits w _).mp (Bool.eq_false_iff.mpr hq)),
    Bool.eq_false_iff.mpr hd⟩

theorem Work.isQueued_of_activity (ha : w.activity m = .queued) : w.isQueued (moverTarget m) = true := by
  by_contra hq
  simp only [Work.activity, if_neg hq] at ha
  split at ha
  · cases ha
  split at ha
  · cases ha
  split at ha
  · cases ha
  split at ha
  · cases ha
  split at ha <;> cases ha

theorem Work.waits_of_activity (ha : w.activity m ≠ .queued) : (w.view m).waits = 0 := by
  by_contra hq
  exact ha (by simp only [Work.activity, if_pos ((isQueued_iff_waits w _).mpr hq)])

/-! ## A claim (R33) -/

theorem Work.claimFrom3_touch (w : Work) (m : MoverId) (s : Source) (d : Dir) (l : Option Time) :
    Touch m w (w.claimFrom3 m s d l).1 := by
  simp only [Work.claimFrom3]
  split
  · exact .refl w
  · split
    · exact .refl w
    · exact w.presentClaim_touch _ _ _

theorem newClaim_mask (w : Work) (m : MoverId) (s : Source) (d : Dir) (l : Option Time) :
    (w.newClaim m s d l).gist.mask m = (moveClass m d).mask := by
  simp only [Claim.mask, Claim.gist, Work.newClaim]
  cases w.claimKind m <;> rfl

/-- What passes the checks of a claim at a mover at IDLE. -/
theorem Work.claimFrom3_lawful (h : Lawful β m (w.view m)) (hi : Idle β (w.view m)) (s : Source) (d : Dir) (l : Option Time) :
    Lawful β m ((w.claimFrom3 m s d l).1.view m) := by
  simp only [Work.claimFrom3]
  split
  · exact h
  · next hr =>
    split
    · exact h
    · obtain ⟨hfence, _, _, _, _, hinh, _⟩ := Work.cleared_of_none hr
      refine Work.presentClaim_lawful h ⟨hi.toParked, hi.still, learnsWell_none rfl, hfence, ?_⟩
      show w.inh &&& (w.newClaim m s d l).gist.mask m = 0
      rw [newClaim_mask]
      exact hinh

theorem Work.claimFrom3_law (h : Law α β w) (hi : α → Idle β (w.view m)) (s : Source) (d : Dir) (l : Option Time) :
    Law α β (w.claimFrom3 m s d l).1 :=
  h.touch (w.claimFrom3_touch m s d l) fun a hd => Work.claimFrom3_lawful (hd.movers m) (hi a) s d l

/-! ## Reversals (R36, R37) -/

theorem Law.ite {p : Prop} [Decidable p] {u : Work} (hz : p → Law α β z) (hu : ¬ p → Law α β u) : Law α β (if p then z else u) := by
  split
  · next h => exact hz h
  · next h => exact hu h

theorem Law.haltMover (h : Law α β w) (m : MoverId) (c : Cause) : Law α β (w.haltMover m c) := h.keeps (w.haltMover_keeps m c)

theorem Law.setMv (h : Law α β w) (m : MoverId) {x : Mover} (hx : x.core = (w.mv m).core := by rfl)
    (hw : x.wiring = (w.mv m).wiring := by rfl) : Law α β (w.setMv m x) := h.alike (w.setMv_alike m hx hw)

theorem Law.spend (h : Law α β w) (m : MoverId) (d : Dir) : Law α β (w.spend m d) := h.alike (w.spend_alike m d)

/-- A mover whose queued entry was removed is at IDLE, also after the head of the queue was judged. -/
theorem Work.removed_idle (h : Law α β w) (hq : w.isQueued (moverTarget m) = true) (c : Cause) (a : α) :
    Idle β (((w.removeQueued m c).judgeHead).view m) := by
  have hr : Law True β (w.removeQueued m c) :=
    Law.keeps (α := True) ⟨h.ease, fun _ => h.drive a⟩ (w.removeQueued_keeps m c)
  have hw : (w.view m).waits ≠ 0 := (isQueued_iff_waits w _).mp hq
  obtain ⟨hp, hd, _⟩ := Work.removeQueued_parked ((h.drive a).movers m).toShaped hw c
  rw [Work.judgeHead_view hr hp.waits]
  exact ⟨hp, hd⟩

theorem Work.stopMover_law (h : Law α β w) (hw : w.isQueued (moverTarget m) = false) (c : Cause) : Law α β (w.stopMover m c) :=
  h.touch (w.stopMover_touch m c) fun _ hd =>
    Work.stopMover_lawful (hd.movers m).toShaped ((isQueued_false_iff_waits w _).mp hw) c

theorem Work.reverse_law (h : Law α β w) (m : MoverId) (s : Source) (d : Dir) : Law α β (w.reverse m s d).1 := by
  simp only [Work.reverse]
  split
  · split
    · next hq =>
      exact Work.claimFrom3_law (Work.judgeHead_law (h.keeps (w.removeQueued_keeps m _))) (Work.removed_idle h hq _) _ _ _
    · next hq => exact Work.stopMover_law ((h.alike (w.markDwell_alike m)).setMv m) (Bool.eq_false_iff.mpr hq) _
  · split
    · exact (h.haltMover m _).setMv m
    · exact (h.haltMover m _).spend m d

/-! ## Contention (R35, R53, R123, R129) -/

theorem Work.stopRetract_law (h : Law α β w) (c : Cause) : Law α β (w.stopRetract c) := by
  simp only [Work.stopRetract]
  split
  · exact h.keeps (w.dropRetract_keeps c)
  · exact h.haltMover awn c

theorem Work.contendStopping_law (h : Law α β w) (m : MoverId) (s : Source) (d : Dir) : Law α β (w.contendStopping m s d).1 := by
  simp only [Work.contendStopping]
  split
  · split
    · exact h.setMv m
    · exact h
  · exact h

theorem Work.contendRetract_law (h : Law α β w) (p : Purpose) (s : Source) (d : Dir) : Law α β (w.contendRetract p s d).1 := by
  simp only [Work.contendRetract]
  split
  · exact h
  · exact Work.stopRetract_law h _
  · exact h
  · exact Work.stopRetract_law h _

theorem Work.contend_law (h : Law α β w) (m : MoverId) (s : Source) (d : Dir) : Law α β (w.contend m s d).1 := by
  simp only [Work.contend]
  split
  · exact Work.contendStopping_law h m s d
  · split
    · split
      · exact h.haltMover m _
      · split
        · exact h
        · exact h.haltMover m _
    · exact h
    · split
      · split
        · exact h.alike (w.renew_alike m)
        · exact h
      · split
        · exact h
        · split
          · exact h
          · exact Work.reverse_law h m s d

theorem Work.claimMove_law (h : Law α β w) (m : MoverId) (s : Source) (d : Dir) : Law α β (w.claimMove m s d).1 := by
  simp only [Work.claimMove]
  split
  · exact Work.contendRetract_law h _ s d
  · simp only [Work.contendLearn]
    split
    · exact h
    · exact Work.reverse_law h m s d
  · split
    · exact h.setMv m
    · split
      · next hi => exact Work.claimFrom3_law h (fun a => ((h.drive a).movers m).toShaped.idle_of_activity hi.1) _ _ _
      · exact Work.contend_law h m s d

/-! ## Switches (R40..R43, R125) -/

theorem Work.pressClaim_law (h : Law α β w) (m : MoverId) (d : Dir) : Law α β (w.pressClaim m d) := by
  simp only [Work.pressClaim]
  split
  · exact h.spend m d
  · split
    · exact Work.claimMove_law h m _ d
    · exact (Work.claimMove_law h m _ d).spend m d

theorem Work.bothPressed_law (h : Law α β w) (m : MoverId) : Law α β (w.bothPressed m) := by
  simp only [Work.bothPressed]
  split
  · exact h.setMv m
  · exact Work.stopRetract_law (h.setMv m) _
  · exact (h.setMv m).haltMover m _

theorem Work.pressSwitch_law (h : Law α β w) (m : MoverId) (d : Dir) : Law α β (w.pressSwitch m d) := by
  simp only [Work.pressSwitch]
  have hs (x : Switch) : Law α β (w.setMv m ((w.mv m).setSwitch d x)) := h.alike (w.setSwitch_alike m d x)
  split
  · exact Work.bothPressed_law (hs _) m
  · split
    · exact hs _
    · exact Work.pressClaim_law (hs _) m d

theorem Work.releaseSwitch_law (h : Law α β w) (m : MoverId) (d : Dir) : Law α β (w.releaseSwitch m d) := by
  have hs (x : Switch) (b : Bool) : Law α β (w.setMv m (if b then { (w.mv m).setSwitch d x with pendRev := none }
      else (w.mv m).setSwitch d x)) := by
    refine h.setMv m ?_ ?_
    · split
      · exact setSwitch_core ..
      · exact setSwitch_core ..
    · split
      · exact setSwitch_wiring ..
      · exact setSwitch_wiring ..
  simp only [Work.releaseSwitch]
  split
  · split
    · exact (hs _ _).haltMover m _
    · exact hs _ _
  · exact hs _ _

/-- A change of every channel of which the laws see nothing. -/
theorem mapChans_alike (w : Work) {f : Machine.Channel → Machine.Channel} (hk : ∀ x, (f x).kind = x.kind)
    (hf : ∀ x, (f x).fenced = x.fenced) (he : ∀ x, atEase x → atEase (f x)) : Alike w { w with chans := w.chans.map f } := by
  have hch (c : ChanId) : (Work.ch { w with chans := w.chans.map f } c) = f (w.ch c) := by simp [Work.ch]
  refine ⟨fun _ => rfl, fun _ => rfl, fun c _ => ?_, fun c => ?_, fun c h => ?_, fun _ => rfl, fun _ => rfl, id, rfl, rfl, rfl⟩
  · rw [hch]; exact hk _
  · rw [hch]; exact hf _
  · rw [hch]; exact he _ h

theorem Work.returnActive_law (h : Law α β w) : Law α β w.returnActive := by
  have hc : Alike w { w with chans := w.chans.map fun (x : Machine.Channel) => { x with window := [] } } :=
    mapChans_alike w (fun _ => rfl) (fun _ => rfl) fun _ h => h
  exact (h.alike hc).beside (z := w.returnActive) .of_eq fun hh => (hydGood_of_core hh rfl (.of_eq rfl rfl)).law

theorem Work.toActive_law (h : Law α β w) : Law α β w.toActive := by
  simp only [Work.toActive]
  split
  · exact Work.returnActive_law h
  · exact h

theorem Work.press_law (h : Law α β w) (m : MoverId) (d : Dir) : Law α β (w.press m d) := by
  simp only [Work.press]
  split
  · exact Work.pressSwitch_law ((Work.toActive_law h).alike (z := w.toActive.showSwitch m d true) .of_eq) m d
  · exact h

theorem Work.unpress_law (h : Law α β w) (m : MoverId) (d : Dir) : Law α β (w.unpress m d) := by
  simp only [Work.unpress]
  split
  · exact Work.releaseSwitch_law (h.alike (z := w.showSwitch m d false) .of_eq) m d
  · exact h

/-! ## Stops (R39, R126) -/

/-- The dwell of a mover is dropped. -/
theorem Law.undwell (h : Law α β w) (m : MoverId) {x : Mover} (hx : x.core = { (w.mv m).core with dwell := false })
    (hw : x.wiring = (w.mv m).wiring := by rfl) : Law α β (w.setMv m x) :=
  h.touch (.of_setMv w hw) fun _ hd => by
    rw [view_setMv w hw, hx]
    exact (hd.movers m).undwell

theorem Work.stopAllOf_law (h : Law α β w) (m : MoverId) : Law α β (w.stopAllOf m) :=
  (h.undwell m rfl).haltMover m _

theorem Work.stopAwning_law (h : Law α β w) : Law α β w.stopAwning.1 := by
  simp only [Work.stopAwning]
  split
  · exact h
  · exact Work.stopAllOf_law (Work.stopRetract_law h _) awn
  · exact Work.stopAllOf_law h awn

theorem Work.stopAwningOfAll_law (h : Law α β w) : Law α β w.stopAwningOfAll := by
  simp only [Work.stopAwningOfAll]
  split
  · exact h.setMv awn
  · exact Work.stopAwning_law h

theorem foldl_law {γ : Type} (l : List γ) {f : Work → γ → Work} (hf : ∀ {w}, Law α β w → ∀ x, Law α β (f w x))
    (h : Law α β w) : Law α β (l.foldl f w) := by
  induction l generalizing w with
  | nil => exact h
  | cons a l ih => exact ih (hf h a)

theorem Work.stopEverything_law (h : Law α β w) : Law α β w.stopEverything := by
  simp only [Work.stopEverything]
  have hr : Law α β (allRooms.foldl Work.stopAllOf w) := foldl_law allRooms (fun h m => Work.stopAllOf_law h m) h
  refine (Work.stopAwningOfAll_law hr).beside (Aside.beside (Work.cancelHyd_aside _)) fun hh => ?_
  exact (Work.endWork_good hh _).law

/-! ## Dwell ends and leases (R34, R36, R37, R39) -/

theorem Work.dwellDropped_idle (h : Lawful β m (w.view m)) (hd : (w.mv m).dwellEnd.isSome = true) {x : Mover}
    (hx : x.core = { (w.mv m).core with dwell := false }) (hw : x.wiring = (w.mv m).wiring) :
    Idle β ((w.setMv m x).view m) := by
  rw [view_setMv w hw, hx]
  exact ⟨(h.toShaped.parked_of_dwell hd).dwell false, rfl⟩

theorem Work.takeReversal_law (h : Law α β w) (hi : α → Idle β (w.view m)) : Law α β (w.takeReversal m) := by
  simp only [Work.takeReversal]
  split
  · exact h
  · have hz : Law α β (w.setMv m { w.mv m with pendRev := none }) := h.setMv m
    have hv : (w.setMv m { w.mv m with pendRev := none }).view m = w.view m := Alike.view (w.setMv_alike m) m
    rw [← hv] at hi
    have hc (r : Reversal) := Work.claimFrom3_law hz hi r.source r.dir r.lease
    exact .ite (fun _ => .ite (fun _ => (hc _).spend m _) fun _ => hc _) fun _ => hz

theorem Work.roomDwellEnd_law (h : Law α β w) (m : MoverId) : Law α β (w.roomDwellEnd m) := by
  simp only [Work.roomDwellEnd]
  split
  · next t ht =>
    have hz := h.alike (w.notBefore_alike t)
    refine Work.takeReversal_law (Law.undwell (w := w.notBefore t) hz m rfl) fun a => ?_
    exact Work.dwellDropped_idle (w := w.notBefore t) ((hz.drive a).movers m) (by show (w.mv m).dwellEnd.isSome = true; rw [ht]; rfl)
      rfl rfl
  · exact h

theorem Work.awningDwellEnd_law (h : Law α β w) : Law α β w.awningDwellEnd := by
  simp only [Work.awningDwellEnd]
  split
  · exact h
  · next t ht =>
    have hz := h.alike (w.notBefore_alike t)
    have hl := Law.undwell (w := w.notBefore t) (x := { w.mv awn with dwellEnd := none }) hz awn rfl
    have hi (a : α) : Idle β (((w.notBefore t).setMv awn { w.mv awn with dwellEnd := none }).view awn) :=
      Work.dwellDropped_idle (w := w.notBefore t) ((hz.drive a).movers awn) (by show (w.mv awn).dwellEnd.isSome = true; rw [ht]; rfl)
        rfl rfl
    generalize (w.notBefore t).setMv awn { w.mv awn with dwellEnd := none } = z at hl hi
    split
    · exact hl.touch (Work.presentRetract_touch _ _) fun a hd =>
        Work.presentRetract_lawful (hi a).toParked (hd.movers awn).toShaped.learn_awn _
    · exact Work.takeReversal_law hl hi

theorem Work.leaseExpiry_law (h : Law α β w) (m : MoverId) : Law α β (w.leaseExpiry m) := by
  simp only [Work.leaseExpiry]
  split
  · exact (h.alike (w.notBefore_alike _)).haltMover m _
  · exact h

theorem Work.holdOffExpiry_alike (w : Work) (m : MoverId) : Alike w (w.holdOffExpiry m) := by
  simp only [Work.holdOffExpiry]
  split
  · exact (w.notBefore_alike _).trans (Work.setMv_alike _ m)
  · exact .refl w

theorem Work.reversalExpiry_alike (w : Work) (m : MoverId) : Alike w (w.reversalExpiry m) := by
  simp only [Work.reversalExpiry]
  split
  · exact (w.notBefore_alike _).trans (Work.setMv_alike _ m)
  · exact .refl w

/-! ## Automatic retracts (R126, R127, R130) -/

theorem Work.superseded_law (h : Law α β w) : Law α β w.superseded := by
  simp only [Work.superseded]
  split
  · exact h
  · split
    · exact (h.haltMover _ _).setMv _
    · exact h.haltMover _ _

theorem Work.startRetract_law (h : Law α β w) (p : Purpose) : Law α β (w.startRetract p) := by
  have hs := Work.superseded_law h
  simp only [Work.startRetract]
  generalize w.superseded = z at hs
  split
  · next hq =>
    have hw : (z.view awn).waits ≠ 0 := (isQueued_iff_waits z _).mp (Work.isQueued_of_activity hq)
    refine (hs.keeps (z.removeQueued_keeps awn _)).touch (Work.presentRetract_touch _ p) fun a _ => ?_
    obtain ⟨hp, _, hn⟩ := Work.removeQueued_parked ((hs.drive a).movers awn).toShaped hw .superseded
    exact Work.presentRetract_lawful hp hn p
  · next hi =>
    exact hs.touch (Work.presentRetract_touch _ p) fun a hd =>
      Work.presentRetract_lawful ((hd.movers awn).toShaped.idle_of_activity hi).toParked (hd.movers awn).toShaped.learn_awn p
  · next hq _ =>
    have hw : z.isQueued (moverTarget awn) = false := (isQueued_false_iff_waits z _).mpr (Work.waits_of_activity hq)
    exact Work.stopMover_law (hs.setMv awn) hw _

/-- A claim that fewer members reach. -/
theorem Lawful.reclaimed {v : View} (h : Lawful β m v) (hl : v.learn = none) {c : Option Claim} (hc : c.isSome = v.claim.isSome)
    (hm : v.inh &&& v.mask m = 0 → v.inh &&& ({ v with claim := c } : View).mask m = 0) : Lawful β m { v with claim := c } := by
  refine ⟨⟨h.sound, h.step, h.held, fun hi => hc.trans (h.claimed hi), h.queued, h.dwells, learnsWell_none hl, fun b =>
    ⟨(h.books b).one, (h.books b).held, fun hw => hc.trans ((h.books b).claimed hw), (h.books b).moves⟩⟩, fun hi => ?_⟩
  obtain ⟨hf, hx⟩ := h.allowed hi
  exact ⟨hf, hm hx⟩

/-- The claim of a retract whose purpose has become wind. -/
def windward (c : Claim) : Claim := { c with purpose := c.purpose.map fun _ => .wind }

theorem windward_mask (c : Claim) (m : MoverId) {x : BitVec 16} (h : x &&& c.gist.mask m = 0) : x &&& (windward c).gist.mask m = 0 := by
  refine and_zero_of_sub h ?_
  obtain ⟨s, d, k, p, l⟩ := c
  have hself (y : BitVec 16) : y &&& y = y := by simp
  cases k with
  | retract =>
    cases p with
    | none => exact hself _
    | some p =>
      show retractMask p &&& retractMask .wind = retractMask .wind
      cases p <;> decide
  | _ => exact hself _

theorem Work.turnWind_law (h : Law α β w) : Law α β w.turnWind := by
  have hz : Law α β (w.setMv awn { w.mv awn with
      pendRetract := (w.mv awn).pendRetract.map fun _ => .wind, claim := (w.mv awn).claim.map windward }) := by
    refine h.touch (.of_setMv w rfl) fun _ hd => ?_
    have hv : (w.setMv awn { w.mv awn with
        pendRetract := (w.mv awn).pendRetract.map fun _ => .wind, claim := (w.mv awn).claim.map windward }).view awn =
        { w.view awn with claim := (w.mv awn).claim.map fun c => (windward c).gist } := by
      rw [view_setMv w (by rfl)]
      simp only [Mover.core, Option.map_map]
      rfl
    have hl := (hd.movers awn).toShaped.learn_awn
    rw [hv]
    refine (hd.movers awn).reclaimed hl ?_ fun hx => ?_
    · rw [claim_isSome, Option.isSome_map]
    · simp only [View.mask, hl, view_claim] at hx ⊢
      cases hc : (w.mv awn).claim with
      | none => simp
      | some c =>
        rw [hc] at hx
        exact windward_mask c awn hx
  exact hz.alike (setQueue_alike _ fun _ => rfl)

theorem Work.retractTrigger_law (h : Law α β w) (p : Purpose) : Law α β (w.retractTrigger p).1 := by
  simp only [Work.retractTrigger]
  split
  · exact Work.turnWind_law h
  · exact h
  · split
    · exact Work.startRetract_law h _
    · exact h

end Sys2Proof.Machine
end

