-- ==== Sys2Proof/Proofs/DriveEvents.lean ====
section
/-! PROOF. Every event keeps the laws of drive and budget. -/

namespace Sys2Proof.Machine

set_option Elab.async false

open Sys2Proof.Safety

variable {α β : Prop} {w z : Work} {m : MoverId} {c : ChanId}

/-! ## A channel, with or without a mover -/

/-- An operation on a channel keeps the law of its mover, or leaves a channel without one alike. -/
theorem Law.chan (h : Law α β w) (c : ChanId) (hs : ∀ m, w.moverOf c = some m → MoverKept β m w z)
    (hn : w.moverOf c = none → Alike w z) : Law α β z := by
  cases hm : w.moverOf c with
  | none => exact h.alike (hn hm)
  | some m => exact h.keeps (hs m hm)

theorem Work.raiseLock_of_none (hn : w.moverOf c = none) (k : LockKind) : w.raiseLock c k = w := by
  simp only [Work.raiseLock, hn]

theorem Work.hallCount_of_none (hn : w.moverOf c = none) : w.hallCount c = w := by
  simp only [Work.hallCount, hn]

theorem Alike.moverOf_none (h : Alike w z) (hn : w.moverOf c = none) : z.moverOf c = none := (h.touch (m := awn)).moverOf c ▸ hn

theorem Work.judgeOvercurrent_alike (hn : w.moverOf c = none) : Alike w (w.judgeOvercurrent c) := by
  simp only [Work.judgeOvercurrent]
  refine .ite (fun _ => .ite (fun _ => .ite (fun _ => ?_) fun _ => w.setCh_alike c) fun _ => w.setCh_alike c) fun _ => .refl w
  have ha : Alike w (w.setCh c { w.ch c with ocRun := 0 }) := w.setCh_alike c
  rw [Work.raiseLock_of_none (Alike.moverOf_none ha hn)]
  exact ha

theorem Work.overcurrentAt_alike (hn : w.moverOf c = none) (n : Nat) : Alike w (w.overcurrentAt c n) := by
  simp only [Work.overcurrentAt]
  refine .ite (fun _ => ?_) fun _ => .refl w
  have ha : Alike w (w.showCurrent c n) := .of_eq
  have hz := ha.trans (Work.setCh_alike (w.showCurrent c n) c (x := { (w.ch c).withReading n with ocRun := max 1 (w.ch c).ocRun }))
  exact hz.trans (Work.judgeOvercurrent_alike (Alike.moverOf_none hz hn))

theorem Work.overspeedAt_alike (hn : w.moverOf c = none) (n : Nat) : Alike w (w.overspeedAt c n) := by
  simp only [Work.overspeedAt]
  refine .ite (fun _ => ?_) fun _ => .refl w
  have ha : Alike w (w.setCh c { w.ch c with osRun := max 7 (w.ch c).osRun, prevCount := some w.now }) := w.setCh_alike c
  have hz := ha.trans (Work.notBefore_alike _ ((w.setCh c { w.ch c with
    osRun := max 7 (w.ch c).osRun, prevCount := some w.now }).now + n))
  rw [Work.hallCount_of_none (Alike.moverOf_none hz hn)]
  exact hz

theorem Work.stallAt_of_none (hn : w.moverOf c = none) (n : Nat) : w.stallAt c n = w := by simp only [Work.stallAt, hn]
theorem Work.retryExpiry_of_none (hn : w.moverOf c = none) : w.retryExpiry c = w := by simp only [Work.retryExpiry, hn]
theorem Work.stoppingEnd_of_none (hn : w.moverOf c = none) : w.stoppingEnd c = w := by simp only [Work.stoppingEnd, hn]
theorem Work.reportWritten_of_none (hn : w.moverOf c = none) (n : Option Nat) : w.reportWritten c n = w := by
  simp only [Work.reportWritten, hn]

theorem alike_of_eq (h : z = w) : Alike w z := by rw [h]; exact .refl w

theorem Work.hallRow_law (h : Law α β w) (c : ChanId) (n : Nat) :
    Law α β (if (w.moverOf c).isSome then (w.notBefore (w.now + n)).hallCount c else w) := by
  have ha := w.notBefore_alike (w.now + n)
  refine .ite (fun _ => (h.alike ha).chan c (fun m hm => Work.hallCount_keeps hm) fun hn => ?_) fun _ => h
  exact alike_of_eq (Work.hallCount_of_none hn)

/-! ## Store jobs (R4, R187, R188) -/

theorem Work.endJob_law (h : Law α β w) (j : Service) (f : BitVec 6) : Law α β (w.endJob j f) := by
  have hw : (w.store.write j f).working = w.store.working := by simp only [Store.write]; split <;> rfl
  have hc : (w.store.write j f).coach = w.store.coach := by simp only [Store.write]; split <;> rfl
  have hz := h.alike (setStore_alike w (st := { w.store.write j f with busy := none }) hw hc)
  simp only [Work.endJob]
  generalize ({ w with store := { w.store.write j f with busy := none } } : Work) = z at hz
  split
  · next c _ serial _ =>
    exact (hz.chan c (fun m hm => Work.reportWritten_keeps hm serial)
      fun hn => alike_of_eq (Work.reportWritten_of_none hn serial)).alike (Work.serveNext_alike _)
  · exact hz.alike (Work.serveNext_alike _)
  · exact (hz.alike (Work.emit_alike _ _)).alike (Work.serveNext_alike _)

theorem Work.checkpointWritten_law (h : Law α β w) (c : ChanId) : Law α β (w.checkpointWritten c) := by
  simp only [Work.checkpointWritten]
  split
  · exact .ite (fun _ => Work.endJob_law (h.alike (w.notBefore_alike _)) _ _) fun _ => h
  · exact h

theorem Work.learnedWritten_law (h : Law α β w) : Law α β w.learnedWritten := by
  simp only [Work.learnedWritten]
  split
  · exact .ite (fun _ => Work.endJob_law (h.alike (w.notBefore_alike _)) _ _) fun _ => h
  · exact h

theorem Work.commitComplete_law (h : Law α β w) (f : BitVec 6) : Law α β (w.commitComplete f) := by
  simp only [Work.commitComplete]
  split
  · exact .ite (fun _ => Work.endJob_law h _ _) fun _ => h
  · exact h

/-! ## Panel, wind and coach inputs (R40, R128..R135, R155) -/

theorem Work.settleSwitch_alike (w : Work) (m : MoverId) (d : Dir) (b : Bool) : Alike w (w.settleSwitch m d b) := by
  simp only [Work.settleSwitch]
  have hz (t : Time) : Alike w ((w.notBefore t).showSwitch m d b) := (w.notBefore_alike t).trans .of_eq
  exact .ite (fun _ => .refl w) fun _ => (hz _).trans (Work.setMv_alike _ m (setSwitch_core ..) (setSwitch_wiring ..))

/-- A write of the wind record. -/
theorem Work.setWind_alike (w : Work) (x : Wind) : Alike w { w with wind := x } := .of_eq

theorem Work.gust_law (h : Law α β w) (n : Nat) : Law α β (w.gust n) :=
  (Work.retractTrigger_law (h.alike (w.setWind_alike _)) _).alike (Work.emit_alike _ _)

theorem Work.windGate_law (h : Law α β w) (n : Nat) : Law α β (w.windGate n) := by
  have hz (x : Wind) : Law α β { w.notBefore (w.wind.gateEnd.getD 0) with wind := x } :=
    (h.alike (w.notBefore_alike _)).alike (Work.setWind_alike _ x)
  simp only [Work.windGate]
  refine .ite (fun _ => .ite (fun _ => ?_) fun _ => .ite (fun _ => ?_) fun _ => ?_) fun _ => h
  · exact Work.gust_law (hz _) _
  · exact (hz _).alike (Work.setWind_alike _ _)
  · exact hz _

theorem Work.lockoutExpiry_alike (w : Work) : Alike w w.lockoutExpiry := by
  simp only [Work.lockoutExpiry]
  split
  · exact .refl w
  · exact ((w.notBefore_alike _).trans (Work.setWind_alike _ _)).trans (Work.emit_alike _ _)

theorem Work.putLevel_alike (w : Work) (i : CoachInput) (b : Bool) : Alike w (w.putLevel i b) := .of_eq

theorem Work.handToPower_law (h : Law α β w) (i : CoachInput) (b : Bool) : Law α β (w.handToPower i b) := by
  simp only [Work.handToPower]
  split
  · exact Work.toActive_law h
  · exact Work.toActive_law h
  · exact Work.toActive_law h
  · exact h

theorem Work.inputSettled_law (h : Law α β w) (i : CoachInput) (b : Bool) : Law α β (w.inputSettled i b) := by
  have hz (t : Time) := h.alike ((w.notBefore_alike t).trans (Work.putLevel_alike _ i b))
  simp only [Work.inputSettled]
  exact .ite (fun _ => h) fun _ => .ite (fun _ => hz _) fun _ => Work.handToPower_law (hz _) i b

theorem Work.ignTrigger_law (h : Law α β w) (i : CoachInput) (b : Bool) : Law α β (w.ignTrigger i b) :=
  .ite (fun _ => Work.retractTrigger_law h _) fun _ => h

theorem Work.inputChange_law (h : Law α β w) (i : CoachInput) (b : Bool) : Law α β (w.inputChange i b) :=
  .ite (fun _ => Work.ignTrigger_law (Work.handToPower_law (h.alike (w.putLevel_alike i b)) i b) i b) fun _ => h

/-! ## Supply and bus (R136..R140) -/

/-- A write of the supply record. -/
theorem Work.setSup_alike (w : Work) (x : Supply) : Alike w { w with sup := x } := .of_eq

theorem Work.setLow_alike (w : Work) (b : Bool) : Alike w (w.setLow b) := .ite (fun _ => .refl w) fun _ => .of_eq
theorem Work.setHigh_alike (w : Work) (b : Bool) : Alike w (w.setHigh b) := .ite (fun _ => .refl w) fun _ => .of_eq

theorem Work.judgeVoltage_alike (w : Work) (v : Nat) : Alike w (w.judgeVoltage v) := by
  have hcleared {y : Work} (p : Prop) [Decidable p] (b : Bool) : Alike y (if p then y.setLow b else y) :=
    .ite (fun _ => y.setLow_alike b) fun _ => .refl y
  have hlowered {y : Work} (p : Prop) [Decidable p] (b : Bool) : Alike y (if p then y.setHigh b else y) :=
    .ite (fun _ => y.setHigh_alike b) fun _ => .refl y
  exact ((((w.setSup_alike _).trans (hcleared _ _)).trans (hlowered _ _)).trans (hcleared _ _)).trans (hlowered _ _)

theorem Work.withVoltage_alike (w : Work) (v : Nat) : Alike w (w.withVoltage v) := by
  refine Over.trans (z := { w.showSupply (rawOf v) with sup := { w.sup with window := List.replicate 8 v } }) ?_
    (Work.judgeVoltage_alike _ v)
  exact .of_eq

theorem Work.lastLowVoltage_alike (w : Work) (x : SupplySide) : Alike w (w.lastLowVoltage x) := by cases x <;> exact .of_eq
theorem Work.lastClearVoltage_alike (w : Work) (x : SupplySide) : Alike w (w.lastClearVoltage x) := by cases x <;> exact .of_eq

theorem Work.sampleSupply_alike (w : Work) (n : Nat) : Alike w (w.sampleSupply n) :=
  (w.setSup_alike _).trans (Work.judgeVoltage_alike _ _)

theorem Work.busTrip_law (h : Law α β w) (n : Nat) : Law α β (w.busTrip n) := by
  have hz : Law α β (allMovers.foldl Work.tripMover { w with sup := { w.sup with tripped := true, busRun := 0 } }) :=
    foldl_law allMovers (fun h m => h.haltMover m _) (h.alike (w.setSup_alike _))
  simp only [Work.busTrip]
  refine Law.alike (Law.beside (hz.keeps (Work.dropRetract_keeps _ _)) (Aside.beside (Work.tripHyd_aside _)) fun hh => ?_)
    (Work.emit_alike _ _)
  exact (Work.endWork_good hh _).law

theorem Work.judgeBus_law (h : Law α β w) (n : Nat) : Law α β (w.judgeBus n) := by
  have hz := h.alike (w.setSup_alike { w.sup with busSum := n })
  simp only [Work.judgeBus]
  generalize (if (decide (w.busLimit < n) != w.sup.tripped) = true then w.sup.busRun + 1 else 0) = run
  refine .ite (fun _ => .ite (fun _ => ?_) fun _ => ?_) fun _ => ?_
  · exact h.alike (w.setSup_alike _)
  · exact Work.busTrip_law hz n
  · exact h.alike (w.setSup_alike _)

theorem Work.lastBus_alike (w : Work) (b : Bool) : Alike w (w.lastBus b) := .ite (fun _ => w.setSup_alike _) fun _ => .refl w

theorem Work.maxWaitEnd_law (h : Law α β w) (t : Fin 6) : Law α β (w.maxWaitEnd t) := by
  simp only [Work.maxWaitEnd]
  split
  · exact h
  · next q _ =>
    have hz := h.alike (w.notBefore_alike q.waitEnd)
    split
    · exact hz.keeps (Work.removeQueued_keeps _ _ _)
    · exact hz.beside (Aside.beside (Work.endWork_aside _ _ _)) fun hh => (Work.endWork_good hh _).law

theorem Work.speedGate_alike (w : Work) (n : Nat) : Alike w (w.speedGate n) := by
  refine (w.notBefore_alike (w.speed.gateEnd.getD 0)).trans ?_
  exact .of_eq

/-! ## Every event -/

/-- An event of the circuit. -/
theorem EventWork.beside (he : EventWork w z) (h : Law α β w) (hb : Beside (HydLaw w) w z) : Law α β z :=
  h.beside hb fun hh => he.hydLaw hh

theorem EventWork.aside (he : EventWork w z) (h : Law α β w) (hb : Aside w z) : Law α β z := he.beside h (Aside.beside hb)

theorem EventWork.driveLaw (h : Law α β w) (he : EventWork w z) : Law α β z := by
  have aside := fun hb => he.aside h hb
  have beside := fun hb => he.beside h hb
  cases he with
  | settleSwitch m d b => exact h.alike (w.settleSwitch_alike m d b)
  | inputSettled i b => exact Work.inputSettled_law h i b
  | inputChange i b => exact Work.inputChange_law h i b
  | hallCount c n => exact Work.hallRow_law h c n
  | dutyUpdate c => exact h.alike (w.dutyUpdate_alike c)
  | stallAt c n => exact h.chan c (fun m hm => Work.stallAt_keeps hm n) fun hn => alike_of_eq (Work.stallAt_of_none hn n)
  | judgeStall m c mo hm _ hj => exact h.keeps (Work.judgeStall_keeps hm (reached_of_stallJudged hj) mo)
  | overcurrentAt c n => exact h.chan c (fun m hm => Work.overcurrentAt_keeps hm n) fun hn => Work.overcurrentAt_alike hn n
  | judgeOvercurrent c => exact h.chan c (fun m hm => Work.judgeOvercurrent_keeps hm) Work.judgeOvercurrent_alike
  | overspeedAt c n => exact h.chan c (fun m hm => Work.overspeedAt_keeps hm n) fun hn => Work.overspeedAt_alike hn n
  | retryExpiry c => exact h.chan c (fun m hm => Work.retryExpiry_keeps hm) fun hn => alike_of_eq (Work.retryExpiry_of_none hn)
  | stoppingEnd c => exact h.chan c (fun m hm => Work.stoppingEnd_keeps hm) fun hn => alike_of_eq (Work.stoppingEnd_of_none hn)
  | checkpointWritten c => exact Work.checkpointWritten_law h c
  | learnedWritten => exact Work.learnedWritten_law h
  | commitComplete f => exact Work.commitComplete_law h f
  | leaseExpiry m => exact Work.leaseExpiry_law h m
  | holdOffExpiry m => exact h.alike (w.holdOffExpiry_alike m)
  | reversalExpiry m => exact h.alike (w.reversalExpiry_alike m)
  | roomDwellEnd r => exact Work.roomDwellEnd_law h _
  | awningDwellEnd => exact Work.awningDwellEnd_law h
  | press m d => exact Work.press_law h m d
  | unpress m d => exact Work.unpress_law h m d
  | windGate n => exact Work.windGate_law h n
  | lockoutExpiry => exact h.alike w.lockoutExpiry_alike
  | pumpDwellEnd => exact beside w.pumpDwellEnd_beside
  | pumpRestEnd => exact aside w.pumpRestEnd_aside
  | pumpOverrun => exact aside w.pumpOverrun_aside
  | stowTimeout => exact aside w.stowTimeout_aside
  | manualExpiry => exact aside w.manualExpiry_aside
  | groundChange j b => exact aside (w.groundChange_aside j b)
  | scanBank => exact aside w.scanBank_aside
  | scanTimeout j b => exact aside (w.scanTimeout_aside j b)
  | strokeAt j raw => exact aside (w.strokeAt_aside j raw)
  | thirdOutOfRange j raw => exact aside (.ite (fun _ => w.thirdOutOfRange_aside j raw) fun _ => .refl w)
  | lastLowSample j raw => exact aside (.ite (fun _ => w.lastLowSample_aside j raw) fun _ => .refl w)
  | blockEnd x y => exact beside (w.blockEnd_beside x y)
  | thirdRail x y =>
    exact beside (.ite (fun _ => (Aside.beside (w.setTilt_aside _)).then (fun h => (Work.setTilt_good h _).law)
      (Work.blockEnd_beside _ x y)) fun _ => .refl w)
  | lastGood x y =>
    exact beside (.ite (fun _ => (Aside.beside (w.setTilt_aside _)).then (fun h => (Work.setTilt_good h _).law)
      (Work.blockEnd_beside _ x y)) fun _ => .refl w)
  | lastDrift x y =>
    exact beside (.ite (fun _ => (Aside.beside w.lastDrift_aside).then (fun h => (Work.lastDrift_good h).law)
      (Work.blockEnd_beside _ x y)) fun _ => .refl w)
  | touchdownDeadline => exact aside (w.atDeadline_aside _ Work.noGround_aside)
  | levellingDeadline => exact aside (w.atDeadline_aside _ fun w => w.enterStabilize_aside _)
  | stabilizeDeadline => exact aside (w.atDeadline_aside _ Work.noGround_aside)
  | settleTimeEnd => exact aside (w.atDeadline_aside _ Work.settleEnd_aside)
  | supplySet x v => exact h.alike ((w.lastLowVoltage_alike x).trans (Work.withVoltage_alike _ v))
  | supplyClear x v => exact h.alike ((w.lastClearVoltage_alike x).trans (Work.withVoltage_alike _ v))
  | sampleSupply n => exact h.alike (w.sampleSupply_alike n)
  | busAt b n => exact .ite (fun _ => Work.judgeBus_law (h.alike (w.lastBus_alike b)) n) fun _ => h
  | judgeBus => exact .ite (fun _ => Work.judgeBus_law h _) fun _ => h
  | maxWaitEnd t => exact Work.maxWaitEnd_law h t
  | speedGate n => exact h.alike (w.speedGate_alike n)
  | nothing => exact h

end Sys2Proof.Machine
end

