-- ==== Sys2Proof/Proofs/DriveFences.lean ====
section
/-! PROOF. Fences, fault clears, learning runs and stroke settings keep the laws of drive and budget (R19, R52..R56, R157). -/

namespace Sys2Proof.Machine

set_option Elab.async false

open Sys2Proof.Safety

variable {α β : Prop} {w z : Work} {m : MoverId} {c : ChanId} {x : Machine.Channel}

/-! ## Fences (R157) -/

/-- A write of one channel of a mover. -/
theorem setCh_touch (hc : c ∈ w.chansOf m) (he : atEase (w.ch c) → atEase x) : Touch m w (w.setCh c x) := by
  have hne {d : ChanId} (hd : d ∉ w.chansOf m) : (w.setCh c x).ch d = w.ch d :=
    Work.ch_setCh_ne _ _ _ _ fun e => hd (e ▸ hc)
  refine ⟨fun _ _ => rfl, fun _ => rfl, fun d hd => by rw [hne hd], fun d hd => by rw [hne hd], fun d h => ?_,
    fun _ _ => rfl, fun _ _ => rfl, id, rfl, rfl, rfl⟩
  by_cases e : d = c
  · subst e; rw [Work.ch_setCh_self]; exact he h
  · rw [Work.ch_setCh_ne _ _ _ _ e]; exact h

/-- Of a view the fence alone may change. -/
theorem setCh_view (hk : x.kind = (w.ch c).kind) (m : MoverId) :
    (w.setCh c x).view m = { w.view m with fenced := (w.setCh c x).fenced m } := by
  have hkinds : (w.setCh c x).kindsOf m = w.kindsOf m := by
    refine List.map_congr_left fun d _ => ?_
    by_cases e : d = c
    · subst e; rw [Work.ch_setCh_self]; exact hk
    · rw [Work.ch_setCh_ne _ _ _ _ e]
  simp only [Work.view, hkinds]; rfl

/-- A channel without a mover is in no view. -/
theorem Law.setCh_loose (h : Law α β w) (hn : w.moverOf c = none) (hk : x.kind = (w.ch c).kind)
    (he : atEase (w.ch c) → atEase x) : Law α β (w.setCh c x) := by
  refine ⟨fun d => ?_, fun a => ?_⟩
  · by_cases e : d = c
    · subst e; rw [Work.ch_setCh_self]; exact he (h.ease d)
    · rw [Work.ch_setCh_ne _ _ _ _ e]; exact h.ease d
  · obtain ⟨hw, hl, hm, hb⟩ := h.drive a
    refine ⟨hw, fun d hd => ?_, fun n => ?_, fun b => ⟨(hb b).1, (hb b).2.of_wet rfl rfl⟩⟩
    · by_cases e : d = c
      · subst e; rw [Work.ch_setCh_self, hk]; exact hl d hn
      · rw [Work.ch_setCh_ne _ _ _ _ e]; exact hl d hd
    · have hf : (w.setCh c x).fenced n = w.fenced n := by
        refine fenced_congr rfl fun d hd => ?_
        rw [Work.ch_setCh_ne]
        rintro rfl
        rw [hw n d hd] at hn; cases hn
      rw [setCh_view hk, hf]
      exact hm n

theorem Shaped.fenced {v : View} (h : Shaped β m v) (b : Bool) : Shaped β m { v with fenced := b } :=
  ⟨h.sound, h.step, h.held, h.claimed, h.queued, h.dwells, h.learns, fun hb =>
    ⟨(h.books hb).one, (h.books hb).held, (h.books hb).claimed, (h.books hb).moves⟩⟩

theorem Shaped.undwell {v : View} (h : Shaped β m v) : Shaped β m { v with dwell := false } :=
  ⟨h.sound, h.step, h.held, h.claimed, fun hw => ⟨(h.queued hw).1, rfl, (h.queued hw).2.2⟩, fun hd => Bool.noConfusion hd, h.learns,
    fun b => ⟨(h.books b).one, (h.books b).held, (h.books b).claimed, fun _ => rfl⟩⟩

/-- A fence that is gone. -/
theorem Lawful.unfenced {v : View} (h : Lawful β m v) {b : Bool} (hb : v.fenced = false → b = false) :
    Lawful β m { v with fenced := b } :=
  ⟨h.toShaped.fenced b, fun hi => ⟨hb (h.allowed hi).1, (h.allowed hi).2⟩⟩

theorem fencedCh_kind (x : Machine.Channel) : (fencedCh x).kind = x.kind := rfl

theorem Work.fenceTold_touch (w : Work) (m : MoverId) : Touch m w (w.fenceTold m) := by
  simp only [Work.fenceTold]
  refine Touch.trans (.ite (fun e => ?_) fun _ => .refl w) (Work.haltMover_touch _ m _)
  rw [e]; exact w.dropRetract_touch _

theorem Work.fenceTold_lawful (h : Shaped β m (w.view m)) : Lawful β m ((w.fenceTold m).view m) := by
  simp only [Work.fenceTold]
  refine Work.haltMover_lawful ?_ _
  split
  · next e =>
    subst e
    rcases w.dropRetract_view .fenced with hv | hv <;> rw [hv]
    · exact h
    · exact h.undwell
  · exact h

theorem Work.fenceChan_law (h : Law α β w) (c : ChanId) : Law α β (w.fenceChan c) := by
  rw [Work.fenceChan_eq]
  split
  · next hn => exact h.setCh_loose hn rfl id
  · next m hm =>
    refine h.touch ((setCh_touch (x := fencedCh (w.ch c)) (mem_of_moverOf hm) id).trans (Work.fenceTold_touch _ m)) fun _ hd => ?_
    refine Work.fenceTold_lawful ?_
    rw [setCh_view (fencedCh_kind _)]
    exact (hd.movers m).toShaped.fenced _

theorem foldl_fence_law {γ : Type} (l : List γ) {p : Work → γ → Bool} {f : Work → γ → Work}
    (hf : ∀ {w}, Law α β w → ∀ x, Law α β (f w x)) (h : Law α β w) :
    Law α β (l.foldl (fun w x => if p w x then f w x else w) w) :=
  foldl_law l (fun h x => .ite (fun _ => hf h x) fun _ => h) h

theorem Law.aside (h : Law α β w) (ha : Aside w z) (hh : HydLaw w → HydLaw z) : Law α β z := h.beside (Aside.beside ha) hh

theorem Work.setFences_law (h : Law α β w) (cm jm : Byte) : Law α β (w.setFences cm jm) := by
  simp only [Work.setFences]
  exact foldl_fence_law allJacks (fun h j => h.aside (Work.fenceJack_leaves _ j) fun hh => (Work.fenceJack_good hh j).law)
    (foldl_fence_law allChans (fun h c => Work.fenceChan_law h c) h)

theorem unfenced_fenced (w : Work) (c : ChanId) {m : MoverId} (hf : w.fenced m = false) :
    (w.setCh c { w.ch c with fenced := false }).fenced m = false := by
  refine List.any_eq_false.mpr fun d hd => ?_
  by_cases e : d = c
  · subst e; rw [Work.ch_setCh_self]; exact Bool.false_ne_true
  · rw [Work.ch_setCh_ne _ _ _ _ e]; exact List.any_eq_false.mp hf d hd

theorem Work.unfence_law (h : Law α β w) (c : ChanId) : Law α β (w.setCh c { w.ch c with fenced := false }) := by
  cases hm : w.moverOf c with
  | none => exact h.setCh_loose hm rfl id
  | some m =>
    refine h.touch (setCh_touch (mem_of_moverOf hm) id) fun _ hd => ?_
    rw [setCh_view (by rfl)]
    exact (hd.movers m).unfenced (unfenced_fenced w c)

theorem unfencedJk_law (h : HydLaw w) (j : JackId) : HydLaw (w.setJk j { w.jk j with fenced := false }) :=
  (Work.setJk_freed_good h (x := { w.jk j with fenced := false }) (fun _ => rfl) fun hx => hx).law

theorem Work.clearFences_law (h : Law α β w) (cm jm : Byte) : Law α β (w.clearFences cm jm) := by
  simp only [Work.clearFences]
  exact foldl_fence_law allJacks (fun h j => h.aside (Work.setJk_aside _ j _) fun hh => unfencedJk_law hh j)
    (foldl_fence_law allChans (fun h c => Work.unfence_law h c) h)

/-! ## Fault clears (R19, R75, R139) -/

/-- A FAULTED channel whose fault is cleared. -/
def clearedCh (x : Machine.Channel) : Machine.Channel := { x with state := .idle, fault := none, lastLock := none, bridge := .brake }

theorem clearedCh_kind (h : x.state = .faulted) : (clearedCh x).kind = x.kind := by
  cases hm : x.motion with
  | none => rw [kind_of_none hm, kind_of_none (x := clearedCh x) hm, h]; rfl
  | some mo => rw [kind_of_some hm, kind_of_some (x := clearedCh x) hm, h]; rfl

theorem clearedCh_ease (h : x.state = .faulted) (he : atEase x) : atEase (clearedCh x) := by
  rcases he with hd | ⟨hz, _⟩
  · obtain ⟨_, hs⟩ := motion_of_driving hd
    rw [h] at hs; cases hs
  · exact .inr ⟨hz, .inl rfl⟩

theorem Work.unrack_alike (w : Work) (m : MoverId) : Alike w (w.unrack m) :=
  .ite (fun _ => w.setMv_alike m) fun _ => .refl w

theorem Work.clearChan_alike (w : Work) (c : ChanId) : Alike w (w.clearChan c) := by
  simp only [Work.clearChan]
  refine .ite (fun hs => ?_) fun _ => .refl w
  have hz : Alike w (w.setCh c (clearedCh (w.ch c))) := .of_setCh w c (clearedCh_kind hs) rfl (clearedCh_ease hs)
  split
  · exact hz.trans (Work.unrack_alike _ _)
  · exact hz

theorem Work.clearSupply_alike (w : Work) : Alike w w.clearSupply.1 := by
  simp only [Work.clearSupply]
  split
  · exact (w.setLow_alike _).trans (Work.setHigh_alike _ _)
  · exact .refl w

theorem Work.doFaultClear_law (h : Law α β w) (a : Byte) : Law α β (w.doFaultClear a).1 := by
  rcases w.doFaultClear_cases a with e | e | ⟨c, e⟩ | ⟨j, e⟩ <;> rw [e]
  · exact h
  · exact h.alike w.clearSupply_alike
  · exact h.alike (w.clearChan_alike c)
  · exact h.aside (w.clearJack_aside j) fun hh => (Work.clearJack_good hh j).law

/-! ## Learning runs and stroke settings (R52..R56) -/

theorem learnBusy_none (h : w.learnBusy m = none) : w.activity m = .idle := by
  simp only [Work.learnBusy] at h
  split at h
  · next hi => exact hi.1
  · split at h <;> cases h

/-- What the fences and members leave to a learning run that is not refused. -/
theorem claimRefusal_none {d : Dir} {b : Bool} {cs : List MoveClass} (h : w.claimRefusal m d b cs = none) :
    w.fenced m = false ∧ lowestBlocking w.inh cs = none := by
  simp only [Work.claimRefusal] at h
  split at h
  · cases h
  next hf =>
  split at h
  · cases h
  split at h
  · cases h
  split at h
  · cases h
  split at h
  · cases h
  next hi => exact ⟨Bool.eq_false_iff.mpr hf, hi⟩

theorem learnMask_clear {k : LearnMethod} {x : BitVec 16} (h : lowestBlocking x (learnClasses k) = none) : x &&& learnMask k = 0 := by
  simp only [lowestBlocking, List.find?_eq_none, List.mem_range] at h
  refine BitVec.eq_of_getLsbD_eq fun i hi => ?_
  have := h i hi
  cases k
  · simpa [learnMask, learnClasses, BitVec.getLsbD_and, BitVec.getLsbD_or] using this
  · simpa [learnMask, learnClasses, BitVec.getLsbD_and, BitVec.getLsbD_or] using this

theorem decodeRoom_ne {b : Byte} (h : decodeRoom b = some m) : m ≠ awn := by
  simp only [decodeRoom, decodeMover] at h
  split at h
  · next hlt =>
    split at h
    · obtain rfl := Option.some.inj h
      exact fun e => Nat.ne_of_lt hlt (congrArg Fin.val e)
    · cases h
  · cases h

theorem Work.learnClaim_law (h : Law α β w) (hm : m ≠ awn) (k : LearnMethod) : Law α β (w.learnClaim m k).1 := by
  simp only [Work.learnClaim]
  split
  · exact h
  · next hb =>
    split
    · exact h
    · split
      · exact h
      · next hr =>
        obtain ⟨hf, hi⟩ := claimRefusal_none hr
        refine h.touch (Work.presentClaim_touch _ _ _ _) fun _ hd => ?_
        have hidle := (hd.movers m).toShaped.idle_of_activity (learnBusy_none hb)
        refine Work.presentClaim_lawful (hd.movers m) ⟨hidle.toParked, hidle.still, ?_, hf, learnMask_clear hi⟩
        rintro l hl
        obtain rfl := Option.some.inj hl
        refine ⟨hm, ?_, fun _ => rfl, ?_⟩
        · cases k
          · nofun
          · exact fun _ => rfl
        · intro c hc
          obtain rfl := Option.some.inj hc
          exact ⟨rfl, rfl⟩

theorem Work.doLearn_law (h : Law α β w) (a k : Byte) : Law α β (w.doLearn a k).1 := by
  simp only [Work.doLearn]
  split
  · exact h
  · split
    · exact h
    · split
      · next m k hm _ =>
        split
        · simp only [Work.learnRequest]
          split
          · split
            · exact h.alike (w.renew_alike m)
            · exact h
          · exact Work.learnClaim_law h (decodeRoom_ne hm) k
        · exact h
      · exact h

theorem Work.applyStroke_law (h : Law α β w) (c : ChanId) (v : Option Nat) : Law α β (w.applyStroke c v) := by
  have hz : Law α β ((w.setLearned c v).clampPos c).askLearned :=
    h.alike (((w.setLearned_alike c v).trans (Work.clampPos_alike _ c)).trans (Work.askLearned_alike _))
  simp only [Work.applyStroke]
  split
  · exact hz.keeps (Work.judgeRack_keeps _ _)
  · exact hz

theorem Work.doStrokeSet_law (h : Law α β w) (a : Byte) (n : Half) : Law α β (w.doStrokeSet a n).1 := by
  simp only [Work.doStrokeSet]
  split
  · exact h
  · split
    · exact h
    · split
      · split
        · exact h
        · split
          · exact Work.applyStroke_law h _ _
          · exact Work.applyStroke_law h _ _
      · exact h

end Sys2Proof.Machine
end

