-- ==== Sys2Proof/Proofs/DriveRequests.lean ====
section
/-! PROOF. Every request keeps the laws of drive and budget. -/

namespace Sys2Proof.Machine

set_option Elab.async false

open Sys2Proof.Safety

variable {α β : Prop} {w z : Work} {m : MoverId}

/-! ## Moves and stops (R33, R63, R122, R126) -/

theorem Work.doMove_law (h : Law α β w) (a d : Byte) : Law α β (w.doMove a d).1 := by
  simp only [Work.doMove]
  split
  · next m d _ _ =>
    simp only [Work.moveRequest]
    split
    · exact h
    · split
      · exact h
      · split
        · exact Work.claimMove_law h m .link d
        · exact h
  · split
    · exact h
    · split
      · exact h
      · split <;> exact h
  · exact h

theorem Work.doStop_law (h : Law α β w) (a : Byte) : Law α β (w.doStop a).1 := by
  simp only [Work.doStop]
  split
  · exact h
  · dsimp only; exact Work.stopEverything_law h
  · split
    · split
      · exact Work.stopAwning_law h
      · exact Work.stopAllOf_law h _
    · exact h

theorem Work.doLevelCancel_law (h : Law α β w) : Law α β w.doLevelCancel.1 := by
  simp only [Work.doLevelCancel]
  split
  · exact h
  · exact h.aside w.cancelHyd_aside fun hh => (Work.endWork_good hh _).law

/-! ## Service (R155, R156) -/

theorem Work.setMode_alike (w : Work) (k : Mode) (b : Bool) : Alike w { w with mode := k, service := b } := .of_eq

theorem Work.endService_law (h : Law α β w) : Law α β w.endService := by
  have hr : Law α β (allRooms.foldl (fun w r => if (w.mv r).learn.isSome then w.haltMover r .stopped else w) w) :=
    foldl_law allRooms (fun h r => .ite (fun _ => h.haltMover r _) fun _ => h) h
  exact (hr.aside (Work.abortZero_aside _) fun hh => (Work.abortZero_good hh).law).alike (Work.setMode_alike _ _ _)

theorem Work.doServiceLeave_law (h : Law α β w) : Law α β w.doServiceLeave.1 := by
  rcases w.doServiceLeave_cases with e | e | e <;> rw [e]
  · exact h
  · exact Work.endService_law h
  · exact h.alike .of_eq

/-! ## The profile (R181, R183, R187) -/

/-- A write of the profile in RAM. -/
theorem setWorking_alike (w : Work) {p : Profile} (h : Within w → Within { w with store := { w.store with working := p } }) :
    Alike w { w with store := { w.store with working := p } } :=
  ⟨fun _ => rfl, fun _ => rfl, fun _ _ => rfl, fun _ => rfl, fun _ h => h, fun _ => rfl, fun _ => rfl, h, rfl, rfl, rfl⟩

theorem writePair_get {r : Profile × Bool} {x : Half × Half} {i : Nat} (h : x.1.toNat ≠ i) :
    (writePair r x).1.get i = r.1.get i := by
  simp only [writePair]
  split
  · rw [Profile.get_set, if_neg h]
  · rfl

theorem foldl_writePair_get (ps : List (Half × Half)) (r : Profile × Bool) {i : Nat} (h : ∀ x ∈ ps, x.1.toNat ≠ i) :
    (ps.foldl writePair r).1.get i = r.1.get i := by
  induction ps generalizing r with
  | nil => rfl
  | cons x ps ih =>
    rw [List.foldl_cons, ih _ fun y hy => h y (List.mem_cons_of_mem x hy), writePair_get (h x List.mem_cons_self)]

/-- The budget is written only while nothing is admitted (R183). -/
theorem within_written {ps : List (Half × Half)} (h : ¬ ((ps.any fun x => isSupplyId x.1) && !w.bud.admitted.isEmpty) = true)
    (hw : Within w) : Within { w with store := { w.store with working := (ps.foldl writePair (w.store.working, false)).1 } } := by
  cases ha : w.bud.admitted with
  | nil =>
    have : w.bud.sum = 0 := by rw [Budget.sum, ha]; rfl
    show w.bud.sum ≤ _
    rw [this]; exact Nat.zero_le _
  | cons a l =>
    have hs : ∀ x ∈ ps, isSupplyId x.1 = false := by
      simpa [ha] using h
    have hid : ∀ x ∈ ps, x.1.toNat ≠ 0x0606 := by
      intro x hx e
      have := hs x hx
      rw [isSupplyId, e] at this
      cases this
    have hget := foldl_writePair_get ps (w.store.working, false) hid
    show w.bud.sum ≤ (Profile.get _ 0x0606).toNat
    rw [hget]
    exact hw

theorem Work.afterWrite_drive (h : Law α β w) : Law α β w.afterWrite := by
  have hr : Law α β (allRooms.foldl Work.judgeRack w.clampAll) :=
    foldl_law allRooms (fun h m => h.keeps (Work.judgeRack_keeps _ m)) (h.alike w.clampAll_alike)
  obtain ⟨z, hz, he⟩ := w.afterWrite_cases
  have hl : Law α β z := by
    subst hz
    exact hr.alike (Work.setHeadDue_alike _ _)
  rcases he with e | e <;> rw [e]
  · exact hl
  · exact hl.aside z.overrunStop_aside fun hh => (Work.overrunStop_law hh).1

theorem Work.doWrite_drive (h : Law α β w) (ps : List (Half × Half)) : Law α β (w.doWrite ps).1 := by
  simp only [Work.doWrite]
  split
  · exact h
  split
  · exact h
  split
  · exact h
  split
  · exact h
  next hs =>
    have hz := h.alike (setWorking_alike w (within_written hs))
    dsimp only
    exact Work.afterWrite_drive hz

theorem Work.askCommit_alike (w : Work) : Alike w w.askCommit := by
  have hz : Alike w { w with store := { w.store with jobs := w.store.jobs ++ [.commit] } } := setStore_alike w rfl rfl
  exact hz.trans (Work.serveNext_alike _)

/-! ## Power (R190) -/

theorem Work.enterDormant_law (h : Law α β w) : Law α β w.enterDormant := by
  refine h.aside ?_ fun hh => (Work.enterDormant_good hh).law
  simp only [Work.enterDormant]
  refine w.abortZero_aside.trans ?_
  generalize w.abortZero = z
  exact .of_eq

/-! ## Every request -/

theorem Law.loadedBeside (h : Law α β w) (hw : w.stage.loaded = true) (hb : Beside (HydLaw w ∧ w.stage.loaded = true) w z)
    (hh : HydLaw w → HydLaw z) : Law α β z :=
  h.beside { hb with pumped := fun hl => hb.pumped ⟨hl, hw⟩ } hh

theorem RequestWork.driveLaw {s : State} {z : Work × Reply} (h : Law α β s.work) (hw : s.work.stage.loaded = true)
    (hr : RequestWork s z) : Law α β z.1 := by
  cases hr with
  | move a d => exact Work.doMove_law h a d
  | stop a => exact Work.doStop_law h a
  | levelStart m => exact h.loadedBeside hw (s.work.doLevelStart_beside m) fun hh => (Work.doLevelStart_good hh hw m).law
  | levelCancel => exact Work.doLevelCancel_law h
  | jackMove m d => exact h.loadedBeside hw (s.work.doJackMove_beside m d) fun hh => (Work.doJackMove_good hh hw m d).law
  | stow => exact h.loadedBeside hw s.work.doStow_beside fun hh => (Work.doStow_good hh hw).law
  | faultClear a => exact Work.doFaultClear_law h a
  | fenceSet c j => split <;> [exact h; exact Work.setFences_law h c j]
  | fenceClear c j => split <;> [exact h; exact Work.clearFences_law h c j]
  | inhibitSet m => exact h.alike .of_eq
  | inhibitClear m => exact h.alike .of_eq
  | serviceEnter =>
    rcases doServiceEnter_cases s.work s.ready.travel with e | ⟨m, e⟩ <;> rw [e]
    · exact h
    · exact h.alike .of_eq
  | serviceLeave => exact Work.doServiceLeave_law h
  | learn a m => exact Work.doLearn_law h a m
  | strokeSet a n => exact Work.doStrokeSet_law h a n
  | zeroLearn =>
    rcases s.work.doZeroLearn_cases with e | e <;> rw [e]
    · exact h
    · exact h.alike .of_eq
  | write ps => exact Work.doWrite_drive h ps
  | commit =>
    rcases s.work.doCommit_cases with e | e <;> rw [e]
    · exact h
    · exact h.alike s.work.askCommit_alike
  | sleep =>
    rcases s.doSleep_cases with e | e <;> rw [e]
    · exact h
    · exact Work.enterDormant_law h

end Sys2Proof.Machine
end

