-- ==== Sys2Proof/Proofs/DriveSettle.lean ====
section
/-! PROOF. The settling of a command keeps the laws of drive and budget (R158, R159). Of the members that reach a mover none is
touched by the judgement of the queue or by an arrival, so that the first round adds all there are to add. -/

namespace Sys2Proof.Machine

set_option Elab.async false

open Sys2Proof.Safety

variable {α β : Prop} {w z : Work} {m : MoverId}

/-! ## The members that reach a mover (R154, R158) -/

/-- The members that reach a mover. -/
def moverBits : BitVec 16 := 0xB17F

theorem moveClass_bits (m : MoverId) (d : Dir) : (moveClass m d).mask &&& moverBits = (moveClass m d).mask := by
  revert m; cases d <;> decide

theorem Claim.mask_bits (m : MoverId) (c : Claim) : c.mask m &&& moverBits = c.mask m := by
  obtain ⟨s, d, k, p, l⟩ := c
  cases k with
  | retract =>
    cases p with
    | none => exact moveClass_bits m d
    | some p =>
      show retractMask p &&& moverBits = retractMask p
      cases p <;> decide
  | _ => exact moveClass_bits m d

theorem View.mask_bits (m : MoverId) (v : View) : v.mask m &&& moverBits = v.mask m := by
  simp only [View.mask]
  split
  · next l _ => cases l.1 <;> decide
  · exact Claim.mask_bits m _
  · simp

/-- Members that do not reach movers do not matter to their work. -/
theorem and_mask_of_bits {x y b : BitVec 16} (hb : b &&& moverBits = b) (h : x &&& moverBits = y &&& moverBits) : x &&& b = y &&& b := by
  rw [← hb, BitVec.and_comm b, ← BitVec.and_assoc, ← BitVec.and_assoc, h]

theorem deriveInh_bits (hs : z.still = w.still) (hj : z.jacks = w.jacks) :
    z.deriveInh &&& moverBits = w.deriveInh &&& moverBits := by
  have hin : z.inputs = w.inputs := congrArg Still.inputs hs
  have hsp : z.speed = w.speed := congrArg Still.speed hs
  have hsu : z.sup = w.sup := congrArg Still.sup hs
  have hwi : z.wind = w.wind := congrArg Still.wind hs
  have hl : z.link = w.link := congrArg Still.link hs
  have hco : z.store.coach = w.store.coach := congrArg Still.coach hs
  have hst : z.stage = w.stage := congrArg Still.stage hs
  have hcoach (i : Nat) : z.coach i = w.coach i := by rw [Work.coach, Work.coach, hco]
  have hjk (j : JackId) : z.jk j = w.jk j := by rw [Work.jk, Work.jk, hj]
  have hstab : z.stabilized = w.stabilized := by
    simp only [Work.stabilized, hst, hjk, jackPresent_of_still hs]
  refine BitVec.eq_of_getLsbD_eq fun k hk => ?_
  rw [BitVec.getLsbD_and, BitVec.getLsbD_and]
  by_cases h7 : k = 7
  · subst h7
    have : moverBits.getLsbD 7 = false := by decide
    rw [this, Bool.and_false, Bool.and_false]
  · congr 1
    rw [deriveInh_getLsbD z hk, deriveInh_getLsbD w hk, hin, hsp, hsu, hwi, hl, hcoach, hcoach, hstab]
    match k, hk, h7 with
    | 0, _, _ => rfl
    | 1, _, _ => rfl
    | 2, _, _ => rfl
    | 3, _, _ => rfl
    | 4, _, _ => rfl
    | 5, _, _ => rfl
    | 6, _, _ => rfl
    | 8, _, _ => rfl
    | 9, _, _ => rfl
    | 10, _, _ => rfl
    | 11, _, _ => rfl
    | 12, _, _ => rfl
    | 13, _, _ => rfl
    | 14, _, _ => rfl
    | 15, _, _ => rfl
    | n + 16, hn, _ => exact absurd hn (by omega)

/-! ## A new set of members -/

/-- The work with other members set. -/
def Work.inhibited (w : Work) (x : BitVec 16) : Work := { w with inh := x }

theorem Shaped.inhibited {v : View} (h : Shaped β m v) (x : BitVec 16) : Shaped β m { v with inh := x } :=
  ⟨h.sound, h.step, h.held, h.claimed, h.queued, h.dwells, h.learns, fun hb =>
    ⟨(h.books hb).one, (h.books hb).held, (h.books hb).claimed, (h.books hb).moves⟩⟩

theorem Lawful.inhibited {v : View} (h : Lawful β m v) {x : BitVec 16} (hx : v.inh &&& v.mask m = 0 → x &&& v.mask m = 0) :
    Lawful β m { v with inh := x } :=
  ⟨h.toShaped.inhibited x, fun hi => ⟨(h.allowed hi).1, hx (h.allowed hi).2⟩⟩

/-- The law of a mover that a new member may reach. -/
structure Loose (β : Prop) (x : BitVec 16) (m : MoverId) (v : View) : Prop where
  shaped : Shaped β m v
  lawful : x &&& v.mask m = 0 → Lawful β m v

theorem Drive.inhibited {L K : MoverId → View → Prop} (h : Drive L β w) {x : BitVec 16}
    (hk : ∀ m, L m (w.view m) → K m ((w.inhibited x).view m)) : Drive K β (w.inhibited x) :=
  ⟨h.wired, h.loose, fun m => hk m (h.movers m), fun b => ⟨(h.books b).1, (h.books b).2.of_wet rfl rfl⟩⟩

/-- Members that bring no mover anything new. -/
theorem Law.inhibited (h : Law α β w) {x : BitVec 16} (hx : ∀ b, b &&& moverBits = b → w.inh &&& b = 0 → x &&& b = 0) :
    Law α β (w.inhibited x) :=
  ⟨h.ease, fun a => (h.drive a).inhibited fun m hm => hm.inhibited (hx _ (View.mask_bits m _))⟩

/-! ## Arrivals (R158, R159) -/

theorem clear_of_became {x y b : BitVec 16} (hy : y &&& b = 0) (hn : (x &&& ~~~ y) &&& b = 0) : x &&& b = 0 := by
  refine BitVec.eq_of_getLsbD_eq fun k hk => ?_
  have hy' := congrArg (fun v => v.getLsbD k) hy
  have hn' := congrArg (fun v => v.getLsbD k) hn
  simp only [BitVec.getLsbD_and, BitVec.getLsbD_not, hk, decide_true, Bool.true_and] at hy' hn' ⊢
  cases hx : x.getLsbD k <;> cases hb : b.getLsbD k <;> simp_all

/-- The law while members arrive: those of the list are still to be told. -/
structure Arriving (α β : Prop) (x : BitVec 16) (l : List MoverId) (w : Work) : Prop where
  ease : ∀ c, atEase (w.ch c)
  drive : α → Drive (fun m v => Loose β x m v ∧ (m ∉ l → Lawful β m v)) β w

theorem Law.arriving (h : Law α β w) (x : BitVec 16) : Arriving α β (x &&& ~~~ w.inh) allMovers (w.inhibited x) := by
  refine ⟨h.ease, fun a => (h.drive a).inhibited fun m hm => ⟨⟨hm.toShaped.inhibited x, fun hn => hm.inhibited fun hi => ?_⟩, ?_⟩⟩
  · exact clear_of_became hi hn
  · have hall : ∀ m, m ∈ allMovers := by decide
    exact fun hmem => absurd (hall m) hmem

theorem Arriving.law {x : BitVec 16} (h : Arriving α β x [] w) : Law α β w :=
  ⟨h.ease, fun a => (h.drive a).weaken fun _ _ hv => hv.2 List.not_mem_nil⟩

theorem Arriving.arriveMover {x : BitVec 16} {l : List MoverId} (h : Arriving α β x (m :: l) w) :
    Arriving α β x l (Work.arriveMover x w m) := by
  have hother : ∀ n, n ≠ m → ∀ v, Loose β x n v ∧ (n ∉ m :: l → Lawful β n v) → Loose β x n v ∧ (n ∉ l → Lawful β n v) :=
    fun n hn v hv => ⟨hv.1, fun hi => hv.2 fun hc => (List.mem_cons.mp hc).elim hn hi⟩
  simp only [Work.arriveMover]
  split
  · refine ⟨fun c => (w.haltMover_touch m _).ease c (h.ease c), fun a => ?_⟩
    have hl := Work.haltMover_lawful ((h.drive a).movers m).1.shaped .inhibited
    exact (h.drive a).touch (w.haltMover_touch m _) ⟨⟨hl.toShaped, fun _ => hl⟩, fun _ => hl⟩ fun n hn hv => hother n hn _ hv
  · next hc =>
    refine ⟨h.ease, fun a => (h.drive a).touch (.refl w) ?_ fun n hn hv => hother n hn _ hv⟩
    have hv := ((h.drive a).movers m).1
    have hl := hv.lawful (by rw [view_mask]; exact not_not.mp hc)
    exact ⟨hv, fun _ => hl⟩

theorem Arriving.foldl {x : BitVec 16} (l : List MoverId) (h : Arriving α β x l w) : Law α β (l.foldl (Work.arriveMover x) w) := by
  induction l generalizing w with
  | nil => exact h.law
  | cons m l ih => exact ih h.arriveMover

theorem Work.arrive_law (h : Law α β w) (x : BitVec 16) : Law α β (Work.arrive (x &&& ~~~ w.inh) (w.inhibited x)) := by
  have hm := (h.arriving x).foldl
  have hr : Law α β (Work.arriveRetract (x &&& ~~~ w.inh) (allMovers.foldl (Work.arriveMover (x &&& ~~~ w.inh)) (w.inhibited x))) := by
    simp only [Work.arriveRetract]
    split
    · exact .ite (fun _ => hm.keeps (Work.dropRetract_keeps _ _)) fun _ => hm
    · exact hm
  exact hr.aside (Work.arriveHyd_aside _ _) fun hh => (Work.arriveHyd_good hh _).law

/-! ## Rounds (R158) -/

theorem Work.admitHead_inh {q : Queued} {rest : List Queued} (hq : w.bud.queue = q :: rest) (hf : w.fits q.draw = true) :
    (w.admitHead q rest).inh = w.inh := by
  rw [Work.admitHead_eq]
  rcases target_cases q.target with ⟨m, ht⟩ | ht
  · rw [ht, admitTarget_mover]; exact (Work.admitHead_touch hq hf ht).inh
  · rw [ht, admitTarget_hyd]; exact (Work.admitHead_beside hq hf ht).inh

theorem Work.admitHeads_inh (n : Nat) (w : Work) : (Work.admitHeads n w).inh = w.inh := by
  induction n generalizing w with
  | zero => rfl
  | succ n ih =>
    simp only [Work.admitHeads]
    split
    · rfl
    · next hq =>
      split
      · next hf => rw [ih, Work.admitHead_inh hq hf]
      · rfl

theorem Work.judgeHead_inh (w : Work) : w.judgeHead.inh = w.inh := by
  simp only [Work.judgeHead]
  split
  · exact w.admitHeads_inh 16
  · rfl

theorem Work.arrive_inh (x : BitVec 16) (w : Work) : (Work.arrive x w).inh = w.inh := by
  have hm (l : List MoverId) (w : Work) : (l.foldl (Work.arriveMover x) w).inh = w.inh := by
    induction l generalizing w with
    | nil => rfl
    | cons m l ih =>
      rw [List.foldl_cons, ih]
      simp only [Work.arriveMover]
      split
      · exact (w.haltMover_touch m _).inh
      · rfl
  have hr (w : Work) : (Work.arriveRetract x w).inh = w.inh := by
    simp only [Work.arriveRetract]
    split
    · split
      · exact (w.dropRetract_touch _).inh
      · rfl
    · rfl
  rw [Work.arrive, (Work.arriveHyd_aside _ x).inh, hr, hm]

/-- The members that reach movers are those the part has. -/
def Work.Told (w : Work) : Prop := w.inh &&& moverBits = w.deriveInh &&& moverBits

theorem Work.Told.of_eq (h : w.Told) (hi : z.inh = w.inh) (hs : z.still = w.still) (hj : z.jacks = w.jacks) : z.Told := by
  rw [Work.Told, deriveInh_bits hs hj, hi]; exact h

theorem Work.Told.judgeHead (h : w.Told) : w.judgeHead.Told := h.of_eq w.judgeHead_inh w.judgeHead_still w.judgeHead_jacks

theorem Work.Told.arrive (h : w.Told) (x : BitVec 16) : (Work.arrive x w).Told :=
  h.of_eq (Work.arrive_inh x w) (Work.arrive_still x w) (Work.arrive_jacks x w)

theorem Work.told_derived (w : Work) : (w.inhibited w.deriveInh).Told :=
  congrArg (· &&& moverBits) rfl

/-- A round: the queue, the members, and their arrival. -/
theorem Work.settleLoop_succ (n : Nat) (w : Work) : Work.settleLoop (n + 1) w =
    if w.judgeHead.deriveInh &&& ~~~ w.judgeHead.inh = 0 then w.judgeHead.inhibited w.judgeHead.deriveInh
    else Work.settleLoop n (Work.arrive (w.judgeHead.deriveInh &&& ~~~ w.judgeHead.inh)
      (w.judgeHead.inhibited w.judgeHead.deriveInh)) := rfl

theorem Work.Told.settleLoop (n : Nat) (h : w.Told) : (Work.settleLoop n w).Told := by
  induction n generalizing w with
  | zero => exact h.judgeHead
  | succ n ih =>
    rw [Work.settleLoop_succ]
    split
    · exact Work.told_derived _
    · exact ih ((Work.told_derived _).arrive _)

theorem Work.settleLoop_told (n : Nat) (w : Work) : (Work.settleLoop (n + 1) w).Told := by
  rw [Work.settleLoop_succ]
  split
  · exact Work.told_derived _
  · exact ((Work.told_derived _).arrive _).settleLoop n

theorem Work.settleLoop_law (n : Nat) (h : Law α β w) : Law α β (Work.settleLoop n w) := by
  induction n generalizing w with
  | zero => exact Work.judgeHead_law h
  | succ n ih =>
    have hj := Work.judgeHead_law h
    rw [Work.settleLoop_succ]
    split
    · next hb => exact hj.inhibited fun b _ hi => clear_of_became hi (by rw [hb]; simp)
    · exact ih (Work.arrive_law hj _)

theorem Work.settled_law (h : Law α β w) : Law α β w.settled := by
  have hz := Work.settleLoop_law 4 h
  have ht := Work.settleLoop_told 3 w
  have hl := hz.inhibited (x := (Work.settleLoop 4 w).deriveInh) fun b hb hi => (and_mask_of_bits hb ht).symm.trans hi
  exact hl.alike (Work.setHeadDue_alike _ _)

theorem Work.setEvents_alike (w : Work) (l : List Event) : Alike w { w with events := l } := .of_eq

theorem Work.settleEvents_law (h : Law α β w) (b : Bool) (x : BitVec 16) : Law α β (w.settleEvents b x) := by
  simp only [Work.settleEvents]
  exact (Work.settled_law ((Work.judgeHead_law h).alike (Work.setEvents_alike _ _))).alike (Work.setEvents_alike _ _)

/-! ## The end of a command (R153, R161, R190) -/

theorem Work.startupCheck_law (h : Law α β w) : Law α β w.startupCheck := by
  refine h.aside ?_ fun hh => (Work.startupCheck_good hh).law
  simp only [Work.startupCheck]
  refine .ite (fun _ => ?_) fun _ => .refl w
  exact .of_eq

theorem Work.returnOnMotion_law (h : Law α β w) (t : Travel) : Law α β (w.returnOnMotion t) :=
  .ite (fun _ => Work.returnActive_law h) fun _ => h

theorem Work.enterStandby_law (h : Law α β w) : Law α β w.enterStandby := by
  refine h.aside ?_ fun hh => (Work.enterStandby_good hh).law
  simp only [Work.enterStandby]
  refine w.abortZero_aside.trans ?_
  generalize w.abortZero = z
  exact .of_eq

theorem State.standbyCheck_law {s : State} (h : Law α β s.work) : Law α β s.standbyCheck.work := by
  simp only [State.standbyCheck]
  split
  · have hz := Work.enterStandby_law h
    generalize s.work.enterStandby = z at hz
    exact hz.alike .of_eq
  · split
    · exact h
    · exact h.alike .of_eq

theorem finish_law {s : State} (h : Law α β w) (r : Option Frame) : Law α β (finish s w r).work := by
  have hwork : Law α β (finishWork s w) := by
    simp only [finishWork]
    exact Work.settleEvents_law (Work.startupCheck_law h) _ _
  have hreturn := Work.returnOnMotion_law hwork (finishReady s w).travel
  have hstate : Law α β (finishState s w r).work := by
    simp only [finishState]
    generalize (finishWork s w).returnOnMotion (finishReady s w).travel = z at hreturn
    exact hreturn.alike (z.setEvents_alike [])
  rw [finish_eq]
  generalize finishState s w r = t at hstate
  exact State.standbyCheck_law hstate

end Sys2Proof.Machine
end

