-- ==== Sys2Proof/Proofs/DriveStart.lean ====
section
/-! PROOF. Load, reset, wake and the samplers keep the laws of drive and budget (R1, R29, R192, R196). -/

namespace Sys2Proof.Machine

set_option Elab.async false

open Sys2Proof.Safety

variable {α β : Prop} {w z : Work} {m n : MoverId} {c : ChanId} {p : Profile}

/-! ## The room table (R29, R121) -/

theorem Profile.mem_named (hl : (p.leader m).isSome = true) (h : p.leader m = some c ∨ p.follower m = some c) : c ∈ p.named m := by
  obtain ⟨d, hd⟩ := Option.isSome_iff_exists.mp hl
  simp only [Profile.named, hd]
  rcases h with h | h
  · rw [hd] at h
    rw [Option.some.inj h]; exact List.mem_cons_self
  · rw [h]; exact List.mem_cons_of_mem d (List.mem_singleton.mpr rfl)

/-- A channel of a mover: the awning's, or one a present room names. -/
theorem Profile.mem_chans (h : c ∈ (p.mover m).chans) :
    (p.mover m).present = true ∧ ((m = awn ∧ p.role c = .awning) ∨
      (m ≠ awn ∧ p.role c ≠ .awning ∧ p.roomPresent m = true ∧ c ∈ p.named m)) := by
  simp only [Mover.chans, Profile.mover, List.mem_append, Option.mem_toList] at h
  simp only [Profile.mover]
  simp only [Profile.moverChans] at h ⊢
  by_cases hm : m = awn
  · simp only [if_pos hm] at h ⊢
    have hc : p.awningChan = some c := by simpa using h
    exact ⟨by rw [hc]; rfl, .inl ⟨hm, by simpa using List.find?_some hc⟩⟩
  · simp only [if_neg hm] at h ⊢
    by_cases hp : p.roomPresent m = true
    · simp only [if_pos hp] at h ⊢
      have hl : (p.leader m).isSome = true := by
        simp only [Profile.roomPresent, Bool.and_eq_true] at hp
        exact hp.1
      have hrole : p.role c = .roomLeader ∨ p.role c = .roomFollower := by
        rcases h with h | h
        · simp only [Profile.leader, Option.filter_eq_some_iff, beq_iff_eq] at h
          exact .inl h.2
        · simp only [Profile.follower, Option.filter_eq_some_iff, beq_iff_eq] at h
          exact .inr h.2
      refine ⟨hl, .inr ⟨hm, ?_, hp, Profile.mem_named hl h⟩⟩
      rcases hrole with e | e <;> rw [e] <;> nofun
    · simp only [if_neg hp] at h
      simp at h

/-- A room is present only where no lower room names one of its channels. -/
theorem Profile.named_apart (hp : p.roomPresent n = true) (hm : m ≠ awn) (hlt : m < n) (hn : c ∈ p.named n) : c ∉ p.named m := by
  have hroom : ∀ m, m ≠ awn → m ∈ allRooms := by decide
  simp only [Profile.roomPresent, Bool.and_eq_true, List.all_eq_true] at hp
  have := hp.2 m (hroom m hm)
  simp only [decide_eq_true hlt, Bool.not_true, Bool.false_or, List.all_eq_true] at this
  simpa using this c hn

/-- No channel serves two movers. -/
theorem Profile.chans_unique (hm : c ∈ (p.mover m).chans) (hn : c ∈ (p.mover n).chans) : m = n := by
  obtain ⟨-, ⟨hm, hrm⟩ | ⟨hm, hrm, hpm, hcm⟩⟩ := Profile.mem_chans hm
  · obtain ⟨-, ⟨hn, -⟩ | ⟨-, hrn, -⟩⟩ := Profile.mem_chans hn
    · rw [hm, hn]
    · exact absurd hrm hrn
  · obtain ⟨-, ⟨-, hrn⟩ | ⟨hn, -, hpn, hcn⟩⟩ := Profile.mem_chans hn
    · exact absurd hrn hrm
    · rcases Nat.lt_trichotomy m.val n.val with h | h | h
      · exact absurd hcm (Profile.named_apart hpn hm h hcn)
      · exact Fin.ext h
      · exact absurd hcn (Profile.named_apart hpm hn h hcm)

theorem find?_unique {γ : Type} {q : γ → Bool} {a : γ} {l : List γ} (ha : a ∈ l) (hq : q a = true) (hu : ∀ b, q b = true → b = a) :
    l.find? q = some a := by
  obtain ⟨b, hb⟩ := Option.isSome_iff_exists.mp (List.find?_isSome.mpr ⟨a, ha, hq⟩)
  rw [hb, hu b (List.find?_some hb)]

/-- The room table of a profile agrees with its channels. -/
theorem wired_of_profile (h : ∀ m, (w.mv m).wiring = (p.mover m).wiring) (m : MoverId) (hc : c ∈ w.chansOf m) :
    w.moverOf c = some m := by
  have hchans (n : MoverId) : (w.mv n).chans = (p.mover n).chans := (wiring_eq (h n)).2
  have hpresent (n : MoverId) : (w.mv n).present = (p.mover n).present := (wiring_eq (h n)).1
  rw [Work.chansOf, hchans] at hc
  have hall : ∀ m, m ∈ allMovers := by decide
  refine find?_unique (hall m) ?_ fun n hn => ?_
  · rw [hchans, hpresent, (Profile.mem_chans hc).1, List.contains_iff_mem.mpr hc]; rfl
  · rw [Bool.and_eq_true, hchans] at hn
    exact Profile.chans_unique (List.contains_iff_mem.mp hn.2) hc

/-- A part as load or reset leaves it: nothing moves, is claimed or fenced. -/
structure Fresh (w : Work) : Prop where
  ease : ∀ c, atEase (w.ch c)
  rest : ∀ c, (w.ch c).kind = .rest
  fence : ∀ c, (w.ch c).fenced = false
  core : ∀ m, (w.mv m).core = { run := false, claim := none, learn := none, dwell := false }
  wired : ∀ m, ∀ c ∈ w.chansOf m, w.moverOf c = some m

theorem Fresh.law (h : Fresh w) (hq : α → ∀ m, (w.view m).waits ≤ 1)
    (hb : α → β → w.bud.admitted = [] ∧ w.bud.queue = [] ∧ Circuit w) : Law α β w := by
  refine ⟨h.ease, fun a => ⟨h.wired, fun c _ => h.rest c, fun m => ?_, fun b => ?_⟩⟩
  · have hcore : (w.view m).toCore = { run := false, claim := none, learn := none, dwell := false } := h.core m
    have hrun : (w.view m).run = false := congrArg Core.run hcore
    have hclaim : (w.view m).claim = none := congrArg Core.claim hcore
    have hlearn : (w.view m).learn = none := congrArg Core.learn hcore
    have hdwell : (w.view m).dwell = false := congrArg Core.dwell hcore
    have hrests : (w.view m).Rests := by
      intro k hk
      obtain ⟨c, _, rfl⟩ := mem_view_kinds.mp hk
      exact h.rest c
    have hfence : (w.view m).fenced = false := List.any_eq_false.mpr fun c _ => by simp [h.fence c]
    refine ⟨⟨fun ho => Kind.noConfusion (hrests _ ho), fun x hx y hy _ _ => (hrests x hx).trans (hrests y hy).symm,
      fun hr => absurd hrests hr, fun hl => absurd hl hrests.not_live, fun _ => ⟨hrests, hdwell, hq a m⟩, fun _ => hrests,
      learnsWell_none hlearn, fun b => ?_⟩, fun _ => ⟨hfence, ?_⟩⟩
    · obtain ⟨ha, hqueue, _⟩ := hb a b
      have hwaits : (w.view m).waits = 0 := by show (w.bud.queue.filter _).length = 0; rw [hqueue]; rfl
      have hdraws : (w.view m).draws = 0 := by show (w.bud.admitted.filter _).length = 0; rw [ha]; rfl
      exact ⟨by rw [hwaits, hdraws]; decide, by simp [hdraws, hrun], fun hw => absurd hwaits hw, fun _ => hdwell⟩
    · simp [View.mask, hlearn, hclaim]
  · obtain ⟨ha, _, hc⟩ := hb a b
    refine ⟨?_, hc⟩
    have : w.bud.sum = 0 := by rw [Budget.sum, ha]; rfl
    show w.bud.sum ≤ _
    rw [this]; exact Nat.zero_le _

/-! ## Load and reset (R1, R192) -/

theorem Channel.restore_keeps (x : Machine.Channel) (cp : Option Checkpoint) (l : Int) : (x.restore cp l).kind = x.kind ∧
    (x.restore cp l).fenced = x.fenced ∧ (x.restore cp l).duty = x.duty ∧ (x.restore cp l).bridge = x.bridge := by
  simp only [Channel.restore]
  split
  · split <;> exact ⟨rfl, rfl, rfl, rfl⟩
  · exact ⟨rfl, rfl, rfl, rfl⟩

theorem Work.load_fresh (w : Work) : Fresh w.load := by
  have hch (c : ChanId) : (w.load.ch c).kind = .rest ∧ (w.load.ch c).fenced = false ∧ (w.load.ch c).duty = 0 ∧
      ((w.load.ch c).bridge = .brake ∨ (w.load.ch c).bridge = .coast) := by
    obtain ⟨hk, hf, hd, hb⟩ := Channel.restore_keeps (w.formed.ch c) (readCheckpoint w.formed.store.checkpoints[c]) (w.formed.upperLimit c)
    rw [Work.load_ch, hk, hf, hd, hb, Work.formed_ch]
    refine ⟨rfl, rfl, rfl, ?_⟩
    simp only [Profile.channel]
    split
    · exact .inr rfl
    · exact .inl rfl
  have hmv (m : MoverId) : w.load.mv m = w.store.load.working.mover m := by
    obtain ⟨v, hv⟩ := w.load_form
    rw [hv]
    exact Vector.getElem_ofFn ..
  exact ⟨fun c => .inr ⟨(hch c).2.2.1, (hch c).2.2.2⟩, fun c => (hch c).1, fun c => (hch c).2.1,
    fun m => by rw [hmv]; rfl, fun m c hc => wired_of_profile (p := w.store.load.working) (fun m => by rw [hmv]) m hc⟩

theorem reset_fresh (s : State) (stage : Stage) (cause : ResetCause) : Fresh (s.resetTo stage cause).work := by
  obtain ⟨hch, hmv, -⟩ := resetTo_fresh s stage cause
  refine ⟨fun c => ?_, fun c => by rw [hch]; rfl, fun c => by rw [hch], fun m => by rw [hmv]; rfl, fun m c hc => ?_⟩
  · rw [hch]; exact .inr ⟨rfl, .inr rfl⟩
  · rw [Work.chansOf, hmv] at hc
    cases hc

theorem Work.load_law_drive (h : Law α β w) (hl : w.stage = .loading) (hb : β → w.bud.admitted = [] ∧ w.bud.queue = []) :
    Law α β w.load := by
  obtain ⟨v, hv⟩ := w.load_form
  have hbud : w.load.bud = w.bud := by rw [hv]; rfl
  have hhyd : w.load.hyd.pump = w.hyd.pump ∧ w.load.hyd.pendingStart = w.hyd.pendingStart := by rw [hv]; exact ⟨rfl, rfl⟩
  refine w.load_fresh.law (fun a m => ?_) fun a b => ?_
  · have hw : (w.load.view m).waits = (w.view m).waits := by
      show (w.load.bud.queue.filter _).length = _
      rw [hbud]; rfl
    rw [hw]
    by_cases hz : (w.view m).waits = 0
    · rw [hz]; decide
    · exact (((h.drive a).movers m).queued hz).2.2
  · obtain ⟨-, hlaw, hone, hheld, hapart⟩ := (h.drive a).books b
    obtain ⟨hpump, hstart⟩ := hhyd
    refine ⟨by rw [hbud]; exact (hb b).1, by rw [hbud]; exact (hb b).2, Work.load_law hlaw hl, ?_, ?_, ?_⟩
    · rw [hbud]; exact hone
    · rw [hbud, hpump, hstart]; exact hheld
    · rw [hpump, hstart]; exact hapart

theorem reset_law (s : State) (stage : Stage) (cause : ResetCause) : Law α β (s.resetTo stage cause).work :=
  (reset_fresh s stage cause).law (fun _ _ => Nat.zero_le 1) fun _ _ =>
    ⟨rfl, rfl, reset_hydLaw s stage cause, ⟨Nat.zero_le 1, ⟨fun h => absurd rfl h, fun h => by rcases h with h | h <;> cases h⟩, nofun⟩⟩

/-! ## Wake, start-up and samplers (R9, R192, R196) -/

/-- A change of every mover of which the laws see nothing. -/
theorem mapMovers_alike (w : Work) {f : MoverId → Mover} (hc : ∀ m, (f m).core = (w.mv m).core)
    (hw : ∀ m, (f m).wiring = (w.mv m).wiring) : Alike w { w with movers := Vector.ofFn f } := by
  have hmv (m : MoverId) : (Work.mv { w with movers := Vector.ofFn f } m) = f m := Vector.getElem_ofFn ..
  exact ⟨fun m => by rw [hmv]; exact hc m, fun m => by rw [hmv]; exact hw m, fun _ _ => rfl, fun _ => rfl, fun _ h => h,
    fun _ => rfl, fun _ => rfl, id, rfl, rfl, rfl⟩

/-- A channel whose sampler starts anew. -/
def restarted (x : Machine.Channel) : Machine.Channel := { x with window := [], hall := {} }

theorem Work.restartSamplers_law (h : Law α β w) : Law α β w.restartSamplers := by
  have hg (hh : HydLaw w) : HydLaw { w.restartSamplers with chans := w.chans } :=
    (hydGood_of_wet (w := w.restartSamplers) (Work.restartSamplers_good hh).law rfl rfl).law
  have hz : Law α β { w.restartSamplers with chans := w.chans } := h.aside .of_eq hg
  exact hz.alike (mapChans_alike _ (f := restarted) (fun _ => rfl) (fun _ => rfl) fun _ h => h)

theorem Work.wakeUp_drive (h : Law α β w) (x : WakeSigns) : Law α β (w.wakeUp x) := by
  have ht : Law α β (w.thaw (w.now - w.dormantAt.getD w.now)) := h.aside .of_eq fun hh => Work.thaw_law hh _
  have hz := Work.restartSamplers_law ht
  simp only [Work.wakeUp]
  generalize (w.thaw (w.now - w.dormantAt.getD w.now)).restartSamplers = z at hz
  have hm := hz.alike (mapMovers_alike z (f := fun m => z.movers[m].woke (x.panel.getLsbD m.val) (x.panel.getLsbD (5 + m.val)) z.now)
    (fun _ => rfl) fun _ => rfl)
  refine hm.alike ?_
  exact .of_eq

theorem Work.settleJacks_law (h : Law α β w) : Law α β w.settleJacks :=
  h.aside .of_eq fun hh => (Work.settleJacks_good hh).law

theorem sampleCurrent_keeps (x : Machine.Channel) (n : Nat) : (x.sampleCurrent n).kind = x.kind ∧
    (x.sampleCurrent n).fenced = x.fenced ∧ (atEase x → atEase (x.sampleCurrent n)) := ⟨rfl, rfl, id⟩

theorem Work.sampleCurrents_law (h : Law α β w) : Law α β w.sampleCurrents := by
  have hz : Alike w (allChans.foldl (fun w c => w.setCh c ((w.ch c).sampleCurrent w.pins.isns[c])) w) :=
    foldl_alike allChans (fun w c => .of_setCh w c (sampleCurrent_keeps ..).1 (sampleCurrent_keeps ..).2.1 (sampleCurrent_keeps ..).2.2) w
  have hl := h.alike hz
  simp only [Work.sampleCurrents]
  generalize allChans.foldl (fun w c => w.setCh c ((w.ch c).sampleCurrent w.pins.isns[c])) w = z at hl
  exact hl.aside (Work.setHyd_aside z) fun hh => (hydGood_of_core hh rfl (.of_eq rfl rfl)).law

theorem Work.sampleWind_alike (w : Work) : Alike w w.sampleWind := .ite (fun _ => w.setWind_alike _) fun _ => .refl w

theorem SamplerWork.driveLaw (h : Law α β w) (hs : SamplerWork w z) : Law α β z := by
  cases hs with
  | free n => exact h.alike .of_eq
  | wakePrev x => exact h.alike .of_eq
  | hall c f => exact h.alike (w.setCh_alike c)
  | currents => exact Work.sampleCurrents_law h
  | gates => exact (h.alike w.sampleWind_alike).alike (z := w.sampleWind.sampleSpeed) .of_eq
  | input i b => exact h.alike .of_eq
  | switch m d b => exact h.alike (w.setSwitch_alike m d _)
  | tilt x y n => exact h.alike .of_eq

theorem SilentWork.driveLaw (h : Law α β w) (hs : SilentWork w z) : Law α β z := by
  cases hs with
  | time t => exact h.alike .of_eq
  | wakeCauses => exact h.alike .of_eq
  | resetPin b => exact h.alike .of_eq
  | sampler hs => exact hs.driveLaw h

end Sys2Proof.Machine
end

