-- ==== Sys2Proof/Proofs/DriveStep.lean ====
section
/-! PROOF. Every step keeps the law of the drive, and with it that of the budget. -/

namespace Sys2Proof.Machine

set_option Elab.async false

open Sys2Proof.Safety

variable {α β : Prop} {w z : Work}

/-! ## Before the load nothing is held (R192) -/

/-- Before the load nothing is admitted and nothing waits. -/
def Unheld (w : Work) : Prop := w.stage.loaded = false → w.bud.admitted = [] ∧ w.bud.queue = []

theorem Unheld.of_loaded (h : w.stage.loaded = true) : Unheld w := fun hn => by rw [h] at hn; cases hn

/-- Stage, admitted list and queue. -/
def Work.holding (w : Work) : Stage × Budget := (w.stage, w.bud)

theorem Unheld.of_eq (h : Unheld w) (he : z.holding = w.holding) : Unheld z := by
  simp only [Work.holding, Prod.mk.injEq] at he
  rw [Unheld, he.1, he.2]; exact h

theorem foldl_holding {γ : Type} (l : List γ) {f : Work → γ → Work} (h : ∀ w x, (f w x).holding = w.holding) (w : Work) :
    (l.foldl f w).holding = w.holding := by
  induction l generalizing w with
  | nil => rfl
  | cons x l ih => rw [List.foldl_cons, ih, h]

theorem Work.sampleCurrents_holding (w : Work) : w.sampleCurrents.holding = w.holding := by
  have hz := foldl_holding allChans (f := fun w c => w.setCh c ((w.ch c).sampleCurrent w.pins.isns[c])) (fun _ _ => rfl) w
  simp only [Work.sampleCurrents]
  generalize allChans.foldl (fun w c => w.setCh c ((w.ch c).sampleCurrent w.pins.isns[c])) w = y at hz
  exact hz

theorem SamplerWork.holding (hs : SamplerWork w z) : z.holding = w.holding := by
  cases hs with
  | currents => exact w.sampleCurrents_holding
  | gates =>
    simp only [Work.sampleWind]
    split <;> rfl
  | _ => rfl

theorem SilentWork.holding (hs : SilentWork w z) : z.holding = w.holding := by
  cases hs with
  | sampler hs => exact hs.holding
  | _ => rfl

theorem Work.toActive_holding (w : Work) : w.toActive.holding = w.holding := by
  simp only [Work.toActive]
  split <;> rfl

theorem State.standbyCheck_holding (s : State) : s.standbyCheck.work.holding = s.work.holding := by
  rcases s.standbyCheck_cases with ⟨_, h⟩ | ⟨_, h⟩ | ⟨_, h⟩ <;> rw [h]
  · obtain ⟨t, e, h⟩ := s.work.enterStandby_eq
    rw [h]; rfl
  · rfl

theorem State.toggleAlert_work (s : State) : s.toggleAlert.work = s.work ∨ ∃ t, s.toggleAlert.work = s.work.notBefore t := by
  simp only [State.toggleAlert]
  split
  · exact .inl rfl
  · exact .inr ⟨_, rfl⟩

theorem EventWork.loaded (he : EventWork w z) (hl : w.stage.loaded = true) : z.stage.loaded = true := by
  have hs : z.stage = w.stage := congrArg Prod.fst (base_of_frame he.frame)
  rw [hs]; exact hl

theorem RequestWork.loaded {s : State} {z : Work × Reply} (hr : RequestWork s z) (hl : s.work.stage.loaded = true) :
    z.1.stage.loaded = true := by
  have hs : z.1.stage = s.work.stage := congrArg Prod.fst hr.base
  rw [hs]; exact hl

/-- A law of the drive, with that of the lists before the load. -/
def Kept (α β : Prop) (s : State) : Prop := Law α β s.work ∧ (β → Unheld s.work)

theorem finish_kept {s : State} (h : Law α β w) (hl : w.stage.loaded = true) (r : Option Frame) : Kept α β (finish s w r) :=
  ⟨finish_law h r, fun _ => .of_loaded ((finish_loaded s w r).trans hl)⟩

/-- Every step keeps the laws of drive and budget. -/
theorem kept_law (α β : Prop) : StepLaw (Kept α β) where
  port h _ := h
  silent h hs := ⟨hs.driveLaw h.1, fun b => (h.2 b).of_eq hs.holding⟩
  toActive {s} h := ⟨Work.toActive_law h.1, fun b => (h.2 b).of_eq s.work.toActive_holding⟩
  standbyCheck {s} h := ⟨State.standbyCheck_law h.1, fun b => (h.2 b).of_eq s.standbyCheck_holding⟩
  event h ha he := finish_kept (he.driveLaw h.1) (he.loaded (loaded_of_awake ha)) none
  request _ _ h ha _ _ hr := finish_kept (hr.driveLaw h.1 (loaded_of_awake ha)) (hr.loaded (loaded_of_awake ha)) _
  reset {s} cause stage _ _ := ⟨reset_law s stage cause, fun _ _ => ⟨rfl, rfl⟩⟩
  load {s} h hl := ⟨Work.load_law_drive (w := s.work) h.1 hl fun b => h.2 b (by rw [hl]; rfl), fun _ => .of_loaded (by
    obtain ⟨v, hv⟩ := s.work.load_form
    show s.work.load.stage.loaded = true
    rw [hv]; rfl)⟩
  settle {s} h hl := finish_kept (Work.settleJacks_law h.1) (by
    show s.work.stage.loaded = true
    rw [hl]; rfl) none
  wake {s} x h ha := by
    rw [State.wakeUp_eq]
    refine finish_kept (Work.wakeUp_drive h.1 x) ?_ none
    rw [Work.wakeUp_stage]
    exact (Bool.and_eq_true_iff.mp ha).1
  toggle {s} h _ := by
    rcases s.toggleAlert_work with e | ⟨t, e⟩
    · rw [Kept, e]; exact h
    · rw [Kept, e]; exact ⟨h.1.alike (s.work.notBefore_alike t), fun b => (h.2 b).of_eq rfl⟩

/-- Settles O7: what a step is made of keeps, mover by mover, the law of a view. -/
theorem stepKeepsDriveLaw : Obligations.StepKeepsDriveLaw := by
  unfold Obligations.StepKeepsDriveLaw
  refine ⟨fun s t hs h => ?_, fun s t hs h => ?_, fun s hs => dutyAllowed_of_law hs⟩
  · have hk : Kept False False s := ⟨(drivesOnlyInMotion_iff s).mp hs, False.elim⟩
    exact (drivesOnlyInMotion_iff t).mpr ((kept_law False False).step (fun _ h => h) hk h).1
  · have hk : Kept True False s := ⟨(driveLaw_iff s).mp hs, False.elim⟩
    exact (driveLaw_iff t).mpr ((kept_law True False).step (fun _ h => h) hk h).1

end Sys2Proof.Machine
end

