-- ==== Sys2Proof/Proofs/BudgetStep.lean ====
section
/-! PROOF. The law of the budget of a part is, beside the laws of drive and circuit, that of the entries of its movers and its
pump; every step keeps them together. -/

namespace Sys2Proof.Machine

set_option Elab.async false

open Sys2Proof.Safety

variable {w : Work} {m : MoverId}

/-! ## The entries of a target -/

theorem count_map {γ : Type} (l : List γ) (f : γ → Fin 6) (t : Fin 6) :
    (l.map f).count t = (l.filter fun a => f a == t).length := by
  rw [List.count_eq_countP, List.countP_map, List.countP_eq_length_filter]
  rfl

theorem count_targets (w : Work) (t : Fin 6) : (targetsOf w.bud).count t = w.drawsOf t + w.waitsOf t := by
  rw [targetsOf, List.count_append, count_map, count_map]
  rfl

/-- A target has one entry at most. -/
theorem targets_nodup_iff (w : Work) : (targetsOf w.bud).Nodup ↔ ∀ t, w.drawsOf t + w.waitsOf t ≤ 1 := by
  rw [List.nodup_iff_count_le_one]
  exact forall_congr' fun t => by rw [count_targets]

theorem mem_admitted_iff (w : Work) (t : Fin 6) : t ∈ w.bud.admitted.map (·.target) ↔ w.drawsOf t ≠ 0 := by
  rw [← List.count_pos_iff, count_map, Nat.pos_iff_ne_zero]
  rfl

theorem drawsOf_hyd_ne (w : Work) : w.drawsOf hydTarget ≠ 0 ↔ w.bud.draws ≠ [] :=
  not_congr (List.length_eq_zero_iff (l := w.bud.draws))

/-! ## The law of the budget (R142, R144) -/

/-- A running pump has no start pending. -/
theorem HydLaw.apart (h : HydLaw w) (hp : w.hyd.pump = .running) : w.hyd.pendingStart = false := by
  cases ha : w.hyd.activity with
  | none => exact absurd hp (h.none ha).1.pump
  | some a =>
    obtain ⟨hidle, hrun⟩ := (h.serves ha).pump
    by_cases hph : a.phase = .running
    · rcases hrun hph with ⟨-, hs, -⟩ | ⟨hd, -⟩
      · exact hs
      · rw [hp] at hd; cases hd
    · exact (hidle hph).2

theorem kept_of_laws {s : State} (hd : DriveLaw s) (hh : HydraulicLaw s) (hb : BudgetLaw s) : Kept True True s := by
  obtain ⟨hsum, hnodup, hload, hmovers, hpump⟩ := hb
  have hone := (targets_nodup_iff s.work).mp hnodup
  obtain ⟨hease, hdrive⟩ := (driveLaw_iff s).mp hd
  obtain ⟨hw, hl, hm, -⟩ := hdrive trivial
  have hbooks (m : MoverId) : Books (s.work.view m) := by
    obtain ⟨hheld, hclaimed, hmoves⟩ := hmovers m
    refine ⟨hone (moverTarget m), (mem_admitted_iff s.work _).symm.trans hheld, fun hq => ?_, fun hr => ?_⟩
    · rw [claim_isSome]
      exact hclaimed ((isQueued_iff_waits s.work _).mpr hq)
    · show (s.work.mv m).dwellEnd.isSome = false
      rw [hmoves hr]; rfl
  have hpumped : Pumped s.work := by
    refine ⟨hone hydTarget, ?_, HydLaw.apart (w := s.work) hh⟩
    rw [← hpump, mem_admitted_iff, drawsOf_hyd_ne]
  exact ⟨⟨hease, fun _ => ⟨hw, hl, fun m => ⟨{ (hm m).toShaped with books := fun _ => hbooks m }, (hm m).allowed⟩,
    fun _ => ⟨hsum, hh, hpumped⟩⟩⟩, fun _ => hload⟩

theorem budgetLaw_of_kept {s : State} (h : Kept True True s) : BudgetLaw s := by
  obtain ⟨⟨-, hdrive⟩, hload⟩ := h
  obtain ⟨-, -, hm, hbooks⟩ := hdrive trivial
  obtain ⟨hsum, -, hone, hheld, -⟩ := hbooks trivial
  refine ⟨hsum, (targets_nodup_iff s.work).mpr fun t => ?_, hload trivial, fun m => ?_, ?_⟩
  · rcases target_cases t with ⟨m, rfl⟩ | rfl
    · exact ((hm m).books trivial).one
    · exact hone
  · obtain ⟨-, hheld, hclaimed, hmoves⟩ := (hm m).books trivial
    refine ⟨(mem_admitted_iff s.work _).trans hheld, fun hq => ?_, fun hr => ?_⟩
    · rw [← claim_isSome]
      exact hclaimed ((isQueued_iff_waits s.work _).mp hq)
    · have : (s.work.mv m).dwellEnd.isSome = false := hmoves hr
      simpa using this
  · rw [mem_admitted_iff, drawsOf_hyd_ne]
    exact hheld

/-- Settles O9: with the laws of drive and circuit the law of the budget is a law of each view and of the pump's entries, and
what a step is made of keeps these. -/
theorem stepKeepsBudgetLaw : Obligations.StepKeepsBudgetLaw := by
  unfold Obligations.StepKeepsBudgetLaw
  exact fun s t hd hh hb h => budgetLaw_of_kept ((kept_law True True).step (fun _ h => h) (kept_of_laws hd hh hb) h)

end Sys2Proof.Machine
end
